-- ==== Sys2Proof/Word.lean ====
section
/-! DEFINITION. The bit-string types of the manual (R3, R5) and the sparse map in which the model holds
every large array: registers, vectors, windows, memory. Nothing here computes. -/

namespace Sys2Proof

/-- R5: byte, 8 bits. -/
abbrev Byte := BitVec 8
/-- R5: half, 16 bits. -/
abbrev Half := BitVec 16
/-- R5: word, 32 bits. -/
abbrev Word := BitVec 32
/-- R5: double, 64 bits. -/
abbrev DWord := BitVec 64
/-- R5: quad, 128 bits. -/
abbrev QWord := BitVec 128
/-- R5: a lane-stream instruction is 96 bits long. -/
abbrev LWord := BitVec 96

/-- A finite map from natural keys, in one canonical form: keys strictly rising, no entry equal to the
default value of the map. `SMap Byte` is a list of `Host.Cell`. Operations are in `Machine/SMap.lean`. -/
abbrev SMap (β : Type) := List (Nat × β)

/-- The bytes of a little-endian value (R4): byte b holds bits [8b+7:8b]. -/
def leBytes (n v : Nat) : List Byte :=
  match n with
  | 0 => []
  | k + 1 => BitVec.ofNat 8 v :: leBytes k (v / 256)

/-- The value of a little-endian byte list (R4). -/
def leValue : List Byte → Nat
  | [] => 0
  | b :: bs => b.toNat + 256 * leValue bs

end Sys2Proof
end

