-- ==== Sys2Proof/Syntax.lean ====
section
/-! DEFINITION. The instructions: one constructor of `Instr` per row of the opcode table. C-stream words
and lane words carry their decoded fields; the machine's events and the mailbox commands (rows without an
encoding) carry the numbers of the units they act on. -/

namespace Sys2Proof

/-- A scalar register number s0–s63 (R75). -/
abbrev SReg := BitVec 6
/-- A scalar predicate number q0–q7. -/
abbrev QReg := BitVec 3
/-- A vector register number. -/
abbrev VReg := BitVec 8

/-- R84: the sixteen shared types, in the order of their codes. -/
inductive NType where
  | f32 | bf16 | f16 | e4m3 | e5m2 | e2m1 | qn4 | s8 | n8 | s16 | n16 | s32 | n32 | s64 | n64 | b128
deriving DecidableEq, Repr

/-- R85: the scopes, from narrowest to widest, in the order of their codes. -/
inductive Scope where
  | grp | team | clu | slc | prt | sys
deriving DecidableEq, Repr

/-- R85: the access orders, in the order of their codes. -/
inductive Order where
  | plain | acq | rel | ar
deriving DecidableEq, Repr

/-- R112: the rounding modes, in the order of their codes. -/
inductive RMode where
  | near | zero | down | up
deriving DecidableEq, Repr

/-- R188: the conditions of CMP, in the order of their codes; CMPI has the first eight. -/
inductive Cond where
  | eq | ne | lts | les | gts | ges | ltn | len | gtn | gen
deriving DecidableEq, Repr

/-- R215: the conditions of FCMP and HCMP2, in the order of their codes. -/
inductive FCond where
  | eq | ne | lt | le | gt | ge | un | ord
deriving DecidableEq, Repr

/-- R233: the conditions of ICMP, in the order of their codes. -/
inductive ICond where
  | eq | ne | lt | le | gt | ge
deriving DecidableEq, Repr

/-- R198, R250: the atomic operations, in the order of their codes. -/
inductive AtomOp where
  | add | min | max | and | or | xor | exch | cas
deriving DecidableEq, Repr

/-- R187: the kinds of SHI, in the order of imm13[12:11]. -/
inductive ShiftKind where
  | shl | shr | sar | rotl
deriving DecidableEq, Repr

/-- R196: the tests of TSTB, in the order of fn[1:0]. -/
inductive TestKind where
  | none | any | eq
deriving DecidableEq, Repr

/-- R202: the kinds of FENCE, codes 1 to 4. -/
inductive FenceKind where
  | acq | rel | ar | sc
deriving DecidableEq, Repr

/-- R239: the operations of VOTE. -/
inductive VoteOp where
  | any | all | ballot | uni
deriving DecidableEq, Repr

/-- R240: the operations of REDUCE and PREFIX. -/
inductive FoldOp where
  | add | min | max | and | or | xor
deriving DecidableEq, Repr

/-- R282: the modes of ATTR (codes 0, 1, 2, 3 and 5). -/
inductive AttrMode where
  | flat | persp | linear | centroid | builtin
deriving DecidableEq, Repr

/-- R281: the texture dimensions, codes 0 to 2. -/
inductive TexDim where
  | t2d | t2darr | t3d
deriving DecidableEq, Repr

/-- R284: the blends of EXPC, codes 0 to 2. -/
inductive Blend where
  | replace | over | add
deriving DecidableEq, Repr

/-- The fields every lane word has: the switch marker and the predicate (R82, R83). -/
structure LHdr where
  w  : Bool
  pm : BitVec 4
  pn : Bool
deriving DecidableEq, Repr

/-- A lane source operand (R82): a vector register, or a channel peeked or popped. -/
inductive Src where
  | vec  (i : VReg)
  | chan (i : BitVec 8) (pop : Bool)
deriving DecidableEq, Repr

/-- A lane destination (R82): a vector register or a channel. -/
inductive Dst where
  | vec  (i : VReg)
  | chan (i : BitVec 8)
deriving DecidableEq, Repr

/-- R212: the destination of a compare: a register or a lane mask. -/
inductive PDst where
  | reg  (d : Dst)
  | mask (m : BitVec 4)
deriving DecidableEq, Repr

/-- R69: a destination whose half can be chosen: the register and D.h, or a channel. -/
structure HDst where
  d  : Dst
  hi : Bool
deriving DecidableEq, Repr

/-- Rounding mode and saturation, where an entry accepts both. -/
structure RS where
  sat : Bool
  rm  : RMode
deriving DecidableEq, Repr

/-- R230: a shift count, in a register or an immediate. -/
inductive Cnt where
  | src (b : Src)
  | imm (n : BitVec 6)
deriving DecidableEq, Repr

/-- R87: the address of LD, ST, ATOM, RED, LCPY, FMLD, FMST: through a translation register, in the
scratchpad window, or in the roof store. -/
inductive MAddr where
  | glob (t : BitVec 4) (a : Src) (disp : BitVec 20)
  | sp   (a : Src) (disp : BitVec 20)
  | rf   (a : Src) (disp : BitVec 20)
deriving DecidableEq, Repr

/-- R87: the 64-bit lane address of LDX, STX, ATOMX: a pair, an optional term B and a displacement. -/
structure XAddr where
  a    : Src
  b    : Option Src
  disp : BitVec 24
deriving DecidableEq, Repr

/-- An operation that another agent asks of memory (host, peer, RoCE: R467, R468, R472, R474). -/
inductive MemReq where
  | read  (n : Nat)
  | write (bytes : List Byte)
  | add   (v : DWord)
  | cas   (cmp swap : DWord)
  | exch  (v : DWord)
  | send  (bytes : List Byte)
deriving DecidableEq, Repr

/-- One constructor per row of the opcode table. -/
inductive Instr where
  -- 0x00 miscellaneous (R184, R185, R21)
  | nop (w : Bool)
  | sleep (w : Bool) (a : SReg)
  | clock (w : Bool) (d a : SReg)
  | query (w : Bool) (d a : SReg)
  | movsr (w : Bool) (d : SReg) (i : BitVec 12)
  -- 0x01 integer arithmetic (R186)
  | add (w : Bool) (d a b : SReg)
  | sub (w : Bool) (d a b : SReg)
  | mul (w : Bool) (d a b : SReg)
  | mulhs (w : Bool) (d a b : SReg)
  | mulhn (w : Bool) (d a b : SReg)
  | divs (w : Bool) (d a b : SReg)
  | divn (w : Bool) (d a b : SReg)
  | rems (w : Bool) (d a b : SReg)
  | remn (w : Bool) (d a b : SReg)
  | and (w : Bool) (d a b : SReg)
  | or (w : Bool) (d a b : SReg)
  | xor (w : Bool) (d a b : SReg)
  | andn (w : Bool) (d a b : SReg)
  | shl (w : Bool) (d a b : SReg)
  | shr (w : Bool) (d a b : SReg)
  | sar (w : Bool) (d a b : SReg)
  | rotl (w : Bool) (d a b : SReg)
  | mins (w : Bool) (d a b : SReg)
  | maxs (w : Bool) (d a b : SReg)
  | minn (w : Bool) (d a b : SReg)
  | maxn (w : Bool) (d a b : SReg)
  | clz (w : Bool) (d a : SReg)
  | popc (w : Bool) (d a : SReg)
  | brev (w : Bool) (d a : SReg)
  | sel (w : Bool) (d a : SReg) (n : Bool) (q : QReg)
  -- 0x02–0x09 immediates (R187)
  | addi (w : Bool) (d a : SReg) (i : BitVec 13)
  | muli (w : Bool) (d a : SReg) (i : BitVec 13)
  | andi (w : Bool) (d a : SReg) (i : BitVec 13)
  | ori (w : Bool) (d a : SReg) (i : BitVec 13)
  | xori (w : Bool) (d a : SReg) (i : BitVec 13)
  | shi (w : Bool) (d a : SReg) (o : ShiftKind) (n : BitVec 5)
  | movi (w : Bool) (d : SReg) (i : BitVec 19)
  | movhi (w : Bool) (d : SReg) (i : BitVec 16)
  -- 0x0A–0x0D compares, wide, bit fields, predicates (R188–R191)
  | cmp (w : Bool) (q : QReg) (a b : SReg) (c : Cond)
  | cmpi (w : Bool) (c : Cond) (q : QReg) (a : SReg) (i : BitVec 13)
  | add64 (w : Bool) (d a b : SReg)
  | sub64 (w : Bool) (d a b : SReg)
  | mul64 (w : Bool) (d a b : SReg)
  | add128 (w : Bool) (d a b : SReg)
  | shl64 (w : Bool) (d a b : SReg)
  | shr64 (w : Bool) (d a b : SReg)
  | bfx (w : Bool) (a b c : SReg)
  | bfi (w : Bool) (a b c : SReg)
  | qand (w : Bool) (a : QReg) (n : Bool) (b : QReg) (m : Bool) (c : QReg)
  | qor (w : Bool) (a : QReg) (n : Bool) (b : QReg) (m : Bool) (c : QReg)
  | qxor (w : Bool) (a : QReg) (n : Bool) (b : QReg) (m : Bool) (c : QReg)
  | qnot (w : Bool) (a b : QReg)
  -- 0x10–0x15 branches and ends (R192–R195)
  | br (w : Bool) (o : BitVec 21)
  | brq (w : Bool) (q : QReg) (sense : Bool) (o : BitVec 21)
  | call (w : Bool) (o : BitVec 21)
  | jmpi (w : Bool) (a : SReg)
  | calli (w : Bool) (d a : SReg)
  | ret (w : Bool) (a : SReg)
  | loop (w : Bool) (d : SReg) (i : BitVec 13)
  | exit (w : Bool)
  | exitto (w : Bool) (a b : SReg)
  | trap (w : Bool) (c : BitVec 12)
  -- 0x16–0x1D memory, dispatch, channels (R196–R201)
  | tstb (w : Bool) (a b : SReg) (q : QReg) (sp : Bool) (t : TestKind)
  | lds (w : Bool) (d a : SReg) (i : BitVec 13)
  | sts (w : Bool) (d a : SReg) (i : BitVec 13)
  | ldc (w : Bool) (d a : SReg) (i : BitVec 13)
  | atoms (w : Bool) (a b c : SReg) (op : AtomOp) (sc : Scope)
  | lrun (w : Bool) (a : SReg) (i : BitVec 19)
  | chsend (w : Bool) (a b : SReg)
  | chrecv (w : Bool) (a b : SReg) (peek : Bool)
  | chstat (w : Bool) (a b : SReg)
  -- 0x20 synchronisation (R202–R205, R158, R162, R200)
  | fence (w : Bool) (sc : Scope) (k : FenceKind)
  | bari (w : Bool) (a b : SReg)
  | barx (w : Bool) (a b c : SReg)
  | bara (w : Bool) (a b : SReg)
  | waitb (w : Bool) (a b : SReg)
  | yield (w : Bool)
  | yieldc (w : Bool) (a b c : SReg)
  | teambar (w : Bool)
  | gridbar (w : Bool)
  | lwait (w : Bool)
  -- 0x21 translation registers (R206, R207, R371)
  | tbind (w : Bool) (t : BitVec 4) (b c : SReg)
  | tdrop (w : Bool) (t : BitVec 4)
  | objld (w : Bool) (t : BitVec 4) (b : SReg)
  -- 0x22, 0x23 copies and the heap (R166–R170, R208)
  | cpyb (w : Bool) (a b c : SReg)
  | cpyg (w : Bool) (a b c : SReg)
  | cpyq (w : Bool) (a b c : SReg)
  | empty (w : Bool) (a b : SReg)
  | heapadd (w : Bool) (a b : SReg) (wait : Bool) (q : QReg)
  | heaptake (w : Bool) (a b : SReg) (wait : Bool) (q : QReg)
  -- 0x24 matrix engine (R258–R269)
  | mfmt (w : Bool) (a : SReg)
  | mloop (w : Bool) (a b c : SReg)
  | mconv (w : Bool) (a b c : SReg)
  | mstore (w : Bool) (a b c : SReg)
  | mzero (w : Bool) (n : BitVec 2)
  | mstat (w : Bool) (a : SReg) (n : BitVec 2)
  -- 0x25–0x28 Flowstone, Sinter, encoder, chimney gate (R304, R335, R296, R275)
  | sproj (w : Bool) (a b : SReg)
  | sbin (w : Bool) (a b : SReg)
  | sblend (w : Bool) (a b : SReg)
  | sgrad (w : Bool) (a b : SReg)
  | apxdef (w : Bool) (a : SReg) (q : QReg)
  | apxkill (w : Bool) (a : SReg)
  | encsub (w : Bool) (a b : SReg)
  | chimgate (w : Bool) (a : SReg)
  -- 0x30 system (R372–R379)
  | movsw (w : Bool) (a : SReg) (i : BitVec 12)
  | pcntRd (w : Bool) (a : SReg) (n : BitVec 5)
  | pcntWr (w : Bool) (a : SReg) (n : BitVec 5)
  | pcntSel (w : Bool) (a : SReg) (n : BitVec 5)
  | rett (w : Bool)
  | ctxsave (w : Bool) (a b : SReg) (q : QReg)
  | ctxload (w : Bool) (a b : SReg) (q : QReg)
  | haltSoft (w : Bool) (a : SReg) (q : QReg)
  | haltHard (w : Bool) (a : SReg) (q : QReg)
  | freezeFreeze (w : Bool) (a : SReg) (q : QReg)
  | freezeThaw (w : Bool) (a : SReg) (q : QReg)
  | freezeReset (w : Bool) (a : SReg) (q : QReg)
  -- 0x3F (R77–R79)
  | limm (i : BitVec 26)
  -- lane words 0x00–0x18 FP32 (R214–R219)
  | fadd (h : LHdr) (d : Dst) (a b : Src) (r : RS)
  | fsub (h : LHdr) (d : Dst) (a b : Src) (r : RS)
  | fmul (h : LHdr) (d : Dst) (a b : Src) (r : RS)
  | ffma (h : LHdr) (d : Dst) (a b c : Src) (r : RS)
  | ffms (h : LHdr) (d : Dst) (a b c : Src) (r : RS)
  | fmin (h : LHdr) (d : Dst) (a b : Src)
  | fmax (h : LHdr) (d : Dst) (a b : Src)
  | fcmp (h : LHdr) (d : PDst) (c : FCond) (a b : Src)
  | fclass (h : LHdr) (d : Dst) (a : Src)
  | fdiv (h : LHdr) (d : Dst) (a b : Src) (r : RS)
  | frcp (h : LHdr) (d : Dst) (a : Src) (r : RS)
  | frsq (h : LHdr) (d : Dst) (a : Src) (r : RS)
  | fsqrt (h : LHdr) (d : Dst) (a : Src) (r : RS)
  | ex2 (h : LHdr) (d : Dst) (a : Src) (r : RS)
  | lg2 (h : LHdr) (d : Dst) (a : Src) (r : RS)
  | fsint (h : LHdr) (d : Dst) (a : Src) (r : RS)
  | fcost (h : LHdr) (d : Dst) (a : Src) (r : RS)
  | frint (h : LHdr) (d : Dst) (a : Src) (rm : RMode)
  | ffloor (h : LHdr) (d : Dst) (a : Src)
  | fceil (h : LHdr) (d : Dst) (a : Src)
  | ftrunc (h : LHdr) (d : Dst) (a : Src)
  | ffract (h : LHdr) (d : Dst) (a : Src) (rm : RMode)
  | fscale (h : LHdr) (d : Dst) (a b : Src) (r : RS)
  | fgetexp (h : LHdr) (d : Dst) (a : Src)
  | fcopysign (h : LHdr) (d : Dst) (a b : Src)
  -- 0x20–0x27 packed 16-bit (R220, R221)
  | hadd2 (h : LHdr) (ty : NType) (d : Dst) (a b : Src) (r : RS)
  | hsub2 (h : LHdr) (ty : NType) (d : Dst) (a b : Src) (r : RS)
  | hmul2 (h : LHdr) (ty : NType) (d : Dst) (a b : Src) (r : RS)
  | hfma2 (h : LHdr) (ty : NType) (d : Dst) (a b c : Src) (r : RS)
  | hmin2 (h : LHdr) (ty : NType) (d : Dst) (a b : Src)
  | hmax2 (h : LHdr) (ty : NType) (d : Dst) (a b : Src)
  | hcmp2 (h : LHdr) (ty : NType) (d : Dst) (c : FCond) (a b : Src)
  | hdot2 (h : LHdr) (ty : NType) (d : Dst) (a b c : Src) (r : RS)
  -- 0x30–0x38 conversions (R222–R228)
  | cvt (h : LHdr) (ty sty : NType) (shi sr : Bool) (d : HDst) (a : Src) (r : RS)
  | cvt2 (h : LHdr) (ty sty : NType) (sr : Bool) (d : Dst) (a : Src) (r : RS)
  | cvt4 (h : LHdr) (ty sty : NType) (sr : Bool) (d : Dst) (a : Src) (b : Option Src) (r : RS)
  | cvt8 (h : LHdr) (ty sty : NType) (sr : Bool) (d : Dst) (a : Src) (b : Option Src) (r : RS)
  | qdec (h : LHdr) (ty : NType) (sr : Bool) (d : Dst) (a b c : Src) (r : RS)
  | qenc (h : LHdr) (d : Dst) (a b c : Src) (i : BitVec 3)
  | ftoi (h : LHdr) (ty sty : NType) (shi : Bool) (d : HDst) (a : Src) (rm : RMode)
  | itof (h : LHdr) (ty sty : NType) (shi sr : Bool) (d : HDst) (a : Src) (r : RS)
  | icvt (h : LHdr) (ty sty : NType) (shi : Bool) (d : HDst) (a : Src) (sat : Bool)
  -- 0x40–0x59 integer and logic (R229–R236)
  | iadd (h : LHdr) (ty : NType) (d : Dst) (a b : Src) (sat : Bool)
  | isub (h : LHdr) (ty : NType) (d : Dst) (a b : Src) (sat : Bool)
  | imul (h : LHdr) (ty : NType) (d : Dst) (a b : Src) (sat : Bool)
  | imulh (h : LHdr) (ty : NType) (d : Dst) (a b : Src)
  | imad (h : LHdr) (ty : NType) (d : Dst) (a b c : Src) (sat : Bool)
  | imin (h : LHdr) (ty : NType) (d : Dst) (a b : Src)
  | imax (h : LHdr) (ty : NType) (d : Dst) (a b : Src)
  | iabs (h : LHdr) (ty : NType) (d : Dst) (a : Src) (sat : Bool)
  | ishl (h : LHdr) (ty : NType) (d : Dst) (a : Src) (n : Cnt)
  | ishr (h : LHdr) (ty : NType) (d : Dst) (a : Src) (n : Cnt)
  | isar (h : LHdr) (ty : NType) (d : Dst) (a : Src) (n : Cnt)
  | fshl (h : LHdr) (d : Dst) (a b : Src) (n : Cnt)
  | fshr (h : LHdr) (d : Dst) (a b : Src) (n : Cnt)
  | logic3 (h : LHdr) (d : Dst) (a b c : Src) (tt : BitVec 8)
  | laneBfx (h : LHdr) (ty : NType) (d : Dst) (a b : Src)
  | laneBfi (h : LHdr) (ty : NType) (d : Dst) (a b c : Src)
  | lanePopc (h : LHdr) (d : Dst) (a : Src)
  | laneClz (h : LHdr) (d : Dst) (a : Src)
  | laneBrev (h : LHdr) (d : Dst) (a : Src)
  | icmp (h : LHdr) (ty : NType) (d : PDst) (c : ICond) (a b : Src)
  | laneSel (h : LHdr) (ty : NType) (d : Dst) (a b : Src) (m : BitVec 4) (neg : Bool)
  | idot4 (h : LHdr) (ty : NType) (d : Dst) (a b c : Src) (sat : Bool)
  | isad (h : LHdr) (d : Dst) (a b c : Src)
  | iaddc (h : LHdr) (sub : Bool) (d : Dst) (a b : Src) (m : BitVec 4)
  | mov (h : LHdr) (ty : NType) (d : Dst) (a : Src)
  | laneMovi (h : LHdr) (d : Dst) (hi : Bool) (i : BitVec 24)
  -- 0x60–0x66 across lanes (R237–R240)
  | shfl (h : LHdr) (ty : NType) (d : Dst) (a b : Src)
  | shflx (h : LHdr) (ty : NType) (d : Dst) (a : Src) (x : BitVec 5)
  | shfld (h : LHdr) (ty : NType) (dn : Bool) (d : Dst) (a : Src) (n : BitVec 5)
  | bcast (h : LHdr) (ty : NType) (d : Dst) (a : Src) (n : BitVec 5)
  | vote (h : LHdr) (op : VoteOp) (d : Dst) (a : Src)
  | reduce (h : LHdr) (op : FoldOp) (ty : NType) (d : Dst) (a : Src)
  | prefixOp (h : LHdr) (op : FoldOp) (excl : Bool) (ty : NType) (d : Dst) (a : Src)
  -- 0x70–0x75 lane control (R241–R245)
  | brl (h : LHdr) (t j : BitVec 12)
  | join (w : Bool)
  | lend (w : Bool)
  | kill (h : LHdr)
  | ltrap (h : LHdr) (c : BitVec 12)
  | movs (h : LHdr) (d : Dst) (i : BitVec 12)
  -- 0x80–0x88 memory (R246–R252, R168)
  | ld (h : LHdr) (ty : NType) (o : Order) (sc : Scope) (d : VReg) (dh : Bool) (m : MAddr)
  | st (h : LHdr) (ty : NType) (o : Order) (sc : Scope) (ch : Bool) (m : MAddr) (c : Src)
  | ldx (h : LHdr) (ty : NType) (o : Order) (sc : Scope) (d : VReg) (dh : Bool) (x : XAddr)
  | stx (h : LHdr) (ty : NType) (o : Order) (sc : Scope) (ch : Bool) (x : XAddr) (c : Src)
  | atom (h : LHdr) (op : AtomOp) (ty : NType) (o : Order) (sc : Scope) (d : VReg) (m : MAddr) (c : Src)
  | atomx (h : LHdr) (op : AtomOp) (ty : NType) (o : Order) (sc : Scope) (d : VReg) (x : XAddr) (c : Src)
  | red (h : LHdr) (op : AtomOp) (ty : NType) (o : Order) (sc : Scope) (m : MAddr) (c : Src)
  | lcpy (h : LHdr) (sc : Scope) (m : MAddr) (b c : Src)
  | pref (h : LHdr) (sc : Scope) (t : BitVec 4) (a : Src) (disp : BitVec 20)
  -- 0xA0–0xA1 random numbers (R254, R255)
  | rng (h : LHdr) (d : Dst) (a b : Src)
  | rngNext (h : LHdr) (d : Dst)
  | rngSeed (h : LHdr) (a b : Src)
  | rngCtr (h : LHdr) (d : Dst)
  | rngKey (h : LHdr) (d : Dst)
  | add128l (h : LHdr) (d : Dst) (a b : Src)
  | add128lCtr (h : LHdr) (a : Src)
  -- 0xB0–0xB8 graphics (R281–R294)
  | attr (h : LHdr) (m : AttrMode) (d : Dst) (i : BitVec 6)
  | deriv (h : LHdr) (y fine : Bool) (d : Dst) (a : Src)
  | texs (h : LHdr) (dim : TexDim) (d : Dst) (a : Src) (t : BitVec 16)
  | texl (h : LHdr) (dim : TexDim) (d : Dst) (a b : Src) (t : BitVec 16)
  | texg (h : LHdr) (dim : TexDim) (comp : BitVec 2) (d : Dst) (a : Src) (t : BitVec 16)
  | texq (h : LHdr) (ext : Bool) (d : Dst) (b : Src) (t : BitVec 16)
  | trace (h : LHdr) (any : Bool) (d : Dst) (a b : Src) (t : BitVec 16)
  | expc (h : LHdr) (bl : Blend) (a : Src) (n : BitVec 3)
  | expz (h : LHdr) (a : Src)
  -- 0xC0–0xC3 Sinter (R339)
  | apxenter (h : LHdr) (m : BitVec 4) (r : BitVec 8)
  | apxin (h : LHdr) (a : Src) (i : BitVec 4)
  | apxout (h : LHdr) (d : Dst) (j : BitVec 3)
  | apxoutProbe (h : LHdr) (d : Dst) (j : BitVec 3) (r : BitVec 8)
  | apxexit (h : LHdr) (last : Bool) (a : Src) (j : BitVec 3)
  -- 0xC8–0xCA fragment matrix (R270, R271)
  | fmma (h : LHdr) (d : Dst) (a b c : Src)
  | fmld (h : LHdr) (ty : NType) (acc tr : Bool) (d : Dst) (m : MAddr) (b : Src)
  | fmst (h : LHdr) (ty : NType) (acc : Bool) (m : MAddr) (b c : Src)
  -- events of a group (the focus)
  | longLatencyReturn (k : Nat)
  | blockStart
  | groupEnd
  | successorStart
  -- queues, cards and dispatch
  | cardAdmit (slice queue : Nat)
  | cardStart (card : Nat)
  | cardComplete (card : Nat)
  | dispatchTeam (vf : Nat)
  | fragmentGroupLaunch (card : Nat)
  | issueAgeLimit
  -- engines
  | copyUnitArrive (copy : Nat)
  | copyPageFault (copy : Nat)
  | matrixStep (cluster bank : Nat)
  | mstoreRun (cluster bank : Nat)
  | mzeroRun (cluster bank : Nat)
  | splatCommandStart (team : Nat)
  | sprojGranule (team : Nat)
  | sbinGranule (team : Nat)
  | sblendTile (team : Nat)
  | sgradTile (team : Nat)
  | splatGranuleFault (team : Nat)
  | invocationArrive (cluster : Nat)
  | guardWrite (key : Nat)
  | encodeFrameDone (slice : Nat)
  | tileRowRead (slice : Nat)
  -- faults, logs, pools and timers
  | handlerEntry
  | logRetry (vf : Nat)
  | poolRefill (ctx frame : Nat)
  | sleepExpire
  | graceExpire (team : Nat)
  | killExpire (team : Nat)
  | watchdogExpire (team : Nat)
  | starveExpire (slice queue : Nat)
  | vsync (vf : Nat)
  | roofAreaLoad (cluster : Nat)
  | roofGate (cluster : Nat)
  | roofWake (cluster : Nat)
  | bwWindowEnd (slice : Nat) (p99 : List (Nat × Nat × Nat))
  | throttlePeriod (slice : Nat)
  | snoopParityError (set : Nat)
  -- checkpoint
  | ckptFrameCopied (ctx : Nat)
  | ckptStreamEnd (ctx : Nat) (ok : Bool)
  -- links, firmware, power
  | peerAckTimeout (peer : Nat)
  | peerProbe (peer : Nat) (answered : Bool)
  | fwHeartbeat (slice : Nat)
  | fwHeartbeatTimeout (slice : Nat)
  | sliceControllerFault (slice code : Nat)
  | deviceManagerFault
  | powerOn
  | powerCapAdjust (mhz : Nat)
  -- the host and the peers
  | hostMemAccess (vf : Nat) (pasid : Option Nat) (addr : Nat) (req : MemReq)
  | hostAtomic (vf addr : Nat) (req : MemReq)
  | hostUnsupportedRequest
  | peerAccess (vf addr : Nat) (req : MemReq)
  | mailboxRegisterWrite (fn off : Nat) (v : DWord)
  -- mailbox commands: fn is the mailbox (0–15 a VF's, 16 the PF's)
  | qdesc (fn : Nat)
  | qreset (fn : Nat)
  | xblock (fn : Nat)
  | sblock (fn : Nat)
  | shoot (fn : Nat)
  | dirtylog (fn : Nat)
  | quota (fn : Nat)
  | intf (fn : Nat)
  | pmake (fn : Nat)
  | pfree (fn : Nat)
  | fuse (fn : Nat)
  | split (fn : Nat)
  | engines (fn : Nat)
  | ways (fn : Nat)
  | bwclass (fn : Nat)
  | lease (fn : Nat)
  | revoke (fn : Nat)
  | sreset (fn : Nat)
  | report (fn : Nat)
  | zero (fn : Nat)
  | ckpt (fn : Nat)
  | restore (fn : Nat)
  | fwstage (fn : Nat)
  | fwupdate (fn : Nat)
  -- SPDM (R476)
  | getVersion
  | getCapabilities
  | negotiateAlgorithms
  | getDigests
  | getCertificate
  | challenge
  | getMeasurements (index : Nat)
  | keyExchange
  | finish
  -- the illegal-instruction row and the remaining events
  | illegalInstruction (lane : Bool)
  | storePerformed (core key : Nat)
  | duplicateAcknowledge (core key : Nat)
  | zeroingDone (slice : Nat)
  | powerLoss
  | worenPortLoss (port : Nat)
  | roceReceive (qp addr : Nat) (req : MemReq)
deriving DecidableEq, Repr

end Sys2Proof
end

