-- ==== Sys2Proof/WellFormed.lean ====
section
/-! DEFINITION. What an instruction's fields must satisfy for its word to be an instruction: register
alignment (R68, R210), channel operands (R83 rule 4, R201), accepted types, orders and immediates. Checks
that depend on the state (budget, kind of core, mode, values) are made by the meanings. -/

namespace Sys2Proof

/-- R84, R103: the width in bits of a type. -/
def NType.bits : NType → Nat
  | .f32 | .s32 | .n32 => 32
  | .bf16 | .f16 | .s16 | .n16 => 16
  | .e4m3 | .e5m2 | .s8 | .n8 => 8
  | .e2m1 | .qn4 => 4
  | .s64 | .n64 => 64
  | .b128 => 128

/-- The number of 32-bit registers a value of the type takes (R68, R210). -/
def NType.regs (t : NType) : Nat := if t.bits ≤ 32 then 1 else t.bits / 32

/-- R100: a floating-point type. -/
def NType.isFloat : NType → Bool
  | .f32 | .bf16 | .f16 | .e4m3 | .e5m2 | .e2m1 => true
  | .qn4 | .s8 | .n8 | .s16 | .n16 | .s32 | .n32 | .s64 | .n64 | .b128 => false

/-- R103: an integer type. -/
def NType.isInt : NType → Bool
  | .s8 | .n8 | .s16 | .n16 | .s32 | .n32 | .s64 | .n64 => true
  | .f32 | .bf16 | .f16 | .e4m3 | .e5m2 | .e2m1 | .qn4 | .b128 => false

/-- R103: an integer type that is read signed. -/
def NType.isSigned : NType → Bool
  | .s8 | .s16 | .s32 | .s64 => true
  | .f32 | .bf16 | .f16 | .e4m3 | .e5m2 | .e2m1 | .qn4 | .n8 | .n16 | .n32 | .n64 | .b128 => false

/-- The three floating-point types of the register conversions (R223, R227). -/
def NType.isF3 (t : NType) : Bool := t = .f32 || t = .bf16 || t = .f16

/-- R220: the types of the packed 16-bit group. -/
def NType.isH (t : NType) : Bool := t = .bf16 || t = .f16

/-- s32, n32, s64, n64. -/
def NType.isI4 (t : NType) : Bool := t = .s32 || t = .n32 || t = .s64 || t = .n64

/-- R247, R248: the types of LD and ST. -/
def NType.isMem : NType → Bool
  | .f32 | .bf16 | .f16 | .s8 | .n8 | .s16 | .n16 | .s32 | .n32 | .s64 | .n64 | .b128 => true
  | .e4m3 | .e5m2 | .e2m1 | .qn4 => false

namespace Src

/-- A 32-bit source: any register, or a channel that can be a source (R83 rule 4). -/
def ok : Src → Bool
  | .vec _ => true
  | .chan i _ => i.toNat ≤ 16 || (20 ≤ i.toNat && i.toNat ≤ 23)

/-- A run of n registers aligned to n (R210); a channel is excluded (R83 rule 6). -/
def wide (n : Nat) : Src → Bool
  | .vec i => i.toNat % n = 0
  | .chan _ _ => false

/-- A source of n registers. -/
def okN (n : Nat) (s : Src) : Bool := if n = 1 then s.ok else s.wide n

end Src

namespace Dst

/-- A single 32-bit destination: any register, or a channel that can be a destination (R83 rule 4, R210). -/
def ok : Dst → Bool
  | .vec _ => true
  | .chan i => i.toNat ≤ 15 || i.toNat = 17 || i.toNat = 20

/-- A run of n registers aligned to n (R210). -/
def wide (n : Nat) : Dst → Bool
  | .vec i => i.toNat % n = 0
  | .chan _ => false

/-- A destination of n registers. -/
def okN (n : Nat) (d : Dst) : Bool := if n = 1 then d.ok else d.wide n

/-- A vector register: the destination of a long-latency word (R210). -/
def isVec : Dst → Bool
  | .vec _ => true
  | .chan _ => false

end Dst

/-- R212. -/
def PDst.ok : PDst → Bool
  | .reg d => d.ok
  | .mask _ => true

/-- R69, R210: a 16-bit result goes to a half of a register, never to a channel; `hi` needs a 16-bit result. -/
def HDst.ok (ty : NType) (d : HDst) : Bool :=
  if ty.bits = 16 then d.d.isVec else (!d.hi && d.d.okN ty.regs)

/-- R230: a count register, or an immediate of 5 bits (6 for 64-bit types). -/
def Cnt.ok (ty : NType) : Cnt → Bool
  | .src b => b.ok
  | .imm n => ty.bits = 64 || n.toNat < 32

namespace MAddr

/-- The address operand is a legal source. -/
def ok : MAddr → Bool
  | .glob _ a _ => a.ok
  | .sp a _ => a.ok
  | .rf a _ => a.ok

/-- R127: space 2 is for loads only. -/
def noRf : MAddr → Bool
  | .glob _ _ _ => true
  | .sp _ _ => true
  | .rf _ _ => false

end MAddr

/-- R87, R249: a pair, and a B term that is a legal source. -/
def XAddr.ok (x : XAddr) : Bool :=
  x.a.wide 2 && (match x.b with | none => true | some b => b.ok)

/-- R85, R247: a load is plain or acq. -/
def Order.okLoad (o : Order) : Bool := o = .plain || o = .acq
/-- R85, R248, R251: a store is plain or rel. -/
def Order.okStore (o : Order) : Bool := o = .plain || o = .rel

/-- R250: the types each atomic operation accepts. -/
def AtomOp.okType (op : AtomOp) (t : NType) : Bool :=
  match op with
  | .add | .min | .max => t.isI4 || t = .f32
  | .and | .or | .xor | .cas => t = .n32 || t = .n64
  | .exch => t = .n32 || t = .n64 || t = .b128

/-- R250: the registers of the data operand C; CAS holds compare and swap. -/
def AtomOp.regs (op : AtomOp) (t : NType) : Nat := if op = .cas then 2 * t.regs else t.regs

/-- R251: the operations of RED. -/
def AtomOp.okRed (op : AtomOp) : Bool := op ≠ .exch && op ≠ .cas

/-- R222: stochastic rounding only toward a narrower floating-point type, with rmode 0. -/
def okSr (sr : Bool) (ty sty : NType) (r : RS) : Bool :=
  !sr || (ty.isFloat && ty.bits < sty.bits && r.rm = .near)

/-- R224: the element count of a packed conversion and whether (type, source) is a row of its table; the
registers of the destination and the source run. -/
def cvtTable (n : Nat) (ty sty : NType) : Option (Nat × Nat) :=
  match n, ty, sty with
  | 2, .bf16, .f32 | 2, .f16, .f32 => some (1, 2)
  | 2, .f32, .bf16 | 2, .f32, .f16 => some (2, 1)
  | 4, .e4m3, .f32 | 4, .e5m2, .f32 => some (1, 4)
  | 4, .f32, .e4m3 | 4, .f32, .e5m2 => some (4, 1)
  | 4, .e4m3, .bf16 | 4, .e4m3, .f16 | 4, .e5m2, .bf16 | 4, .e5m2, .f16 => some (1, 2)
  | 4, .bf16, .e4m3 | 4, .bf16, .e5m2 | 4, .f16, .e4m3 | 4, .f16, .e5m2 => some (2, 1)
  | 8, .e2m1, .e4m3 => some (1, 2)
  | 8, .e4m3, .e2m1 => some (2, 1)
  | 8, .e2m1, .bf16 | 8, .e2m1, .f16 => some (1, 4)
  | 8, .bf16, .e2m1 | 8, .f16, .e2m1 => some (4, 1)
  | _, _, _ => none

/-- R224: the checks CVT2, CVT4 and CVT8 share. -/
def okCvtN (n : Nat) (ty sty : NType) (sr : Bool) (d : Dst) (a : Src) (r : RS) : Bool :=
  match cvtTable n ty sty with
  | none => false
  | some (nd, ns) => d.okN nd && a.okN ns && okSr sr ty sty r

/-- R281: the registers of a texture coordinate. -/
def TexDim.regs (d : TexDim) : Nat := if d = .t2d then 2 else 4

/-- R240: f32 folds are ADD, MIN and MAX. -/
def FoldOp.okType (op : FoldOp) (t : NType) : Bool :=
  t = .s32 || t = .n32 || (t = .f32 && (op = .add || op = .min || op = .max))

/-- R271: the type and the register alignment of a fragment. -/
def okFrag (ty : NType) (acc : Bool) : Bool :=
  if acc then ty = .f32 else (ty = .bf16 || ty = .f16 || ty = .e4m3 || ty = .e5m2)

/-- R68: an even scalar register. -/
def even6 (a : SReg) : Bool := a.toNat % 2 = 0
/-- R68: a scalar register that is a multiple of four. -/
def quad6 (a : SReg) : Bool := a.toNat % 4 = 0

/-- The fields of the instruction are those of a word the device executes: every static check of R68, R71,
R75, R83 rules 3 to 7, R85, R201 and the entries. Events and commands have no word and no check. -/
def Instr.wf : Instr → Bool
  | .clock _ d a => even6 d && a.toNat < 2
  | .add64 _ d a b | .sub64 _ d a b | .mul64 _ d a b => even6 d && even6 a && even6 b
  | .add128 _ d a b => quad6 d && quad6 a && quad6 b
  | .shl64 _ d a _ | .shr64 _ d a _ => even6 d && even6 a
  | .cmpi _ c _ _ _ => c ≠ .gtn && c ≠ .gen
  | .exitto _ a _ => even6 a
  | .tstb _ a _ _ sp _ => sp || even6 a
  | .lds _ _ a _ | .sts _ _ a _ => even6 a
  | .atoms _ a b c op _ => even6 a && even6 b && even6 c && (op ≠ .cas || quad6 c)
  | .chsend _ _ b => b.toNat ≤ 16
  | .chrecv _ _ b _ => b.toNat ≤ 15 || b.toNat = 17
  | .chstat _ _ b => b.toNat ≤ 17
  | .tbind _ _ b _ => even6 b
  | .cpyb _ a _ _ => even6 a
  | .mfmt _ a => a.toNat + 4 ≤ 64
  | .mloop _ a _ _ | .mconv _ a _ _ => a.toNat + 4 ≤ 64
  | .mstore _ a _ _ => even6 a
  | .mstat _ a _ => even6 a
  | .pcntRd _ a n | .pcntWr _ a n => even6 a && n.toNat < 20
  | .pcntSel _ a n => even6 a && n.toNat < 16
  | .ctxsave _ _ b _ | .ctxload _ _ b _ => even6 b
  | .fadd _ d a b _ | .fsub _ d a b _ | .fmul _ d a b _ | .fscale _ d a b _ => d.ok && a.ok && b.ok
  | .fmin _ d a b | .fmax _ d a b | .fcopysign _ d a b => d.ok && a.ok && b.ok
  | .ffma _ d a b c _ | .ffms _ d a b c _ => d.ok && a.ok && b.ok && c.ok
  | .fcmp _ d _ a b => d.ok && a.ok && b.ok
  | .fclass _ d a | .ffloor _ d a | .fceil _ d a | .ftrunc _ d a | .fgetexp _ d a => d.ok && a.ok
  | .frint _ d a _ | .ffract _ d a _ => d.ok && a.ok
  | .fdiv _ d a b _ => d.isVec && a.ok && b.ok
  | .frcp _ d a _ | .frsq _ d a _ | .fsqrt _ d a _ | .ex2 _ d a _ | .lg2 _ d a _ | .fsint _ d a _
  | .fcost _ d a _ => d.isVec && a.ok
  | .hadd2 _ t d a b _ | .hsub2 _ t d a b _ | .hmul2 _ t d a b _ => t.isH && d.ok && a.ok && b.ok
  | .hmin2 _ t d a b | .hmax2 _ t d a b => t.isH && d.ok && a.ok && b.ok
  | .hcmp2 _ t d _ a b => t.isH && d.ok && a.ok && b.ok
  | .hfma2 _ t d a b c _ | .hdot2 _ t d a b c _ => t.isH && d.ok && a.ok && b.ok && c.ok
  | .cvt _ t u hi sr d a r =>
    t.isF3 && u.isF3 && t ≠ u && (!hi || u.bits = 16) && okSr sr t u r && d.ok t && a.ok
  | .cvt2 _ t u sr d a r => okCvtN 2 t u sr d a r
  | .cvt4 _ t u sr d a b r => okCvtN 4 t u sr d a r && (match b with | none => true | some b => b.ok)
  | .cvt8 _ t u sr d a b r => okCvtN 8 t u sr d a r && (match b with | none => true | some b => b.ok)
  | .qdec _ t sr d a b c r =>
    (t.isH || t = .e4m3) && d.wide (if t = .e4m3 then 2 else 4) && (!sr || r.rm = .near) && a.ok && b.ok && c.ok
  | .qenc _ d a b c _ => d.isVec && a.ok && b.ok && c.ok
  | .ftoi _ t u hi d a _ => t.isInt && u.isF3 && (!hi || u.bits = 16) && d.ok t && a.ok
  | .itof _ t u hi sr d a r =>
    t.isF3 && u.isInt && (!hi || u.bits = 16) && okSr sr t u r && d.ok t && a.okN u.regs
  | .icvt _ t u hi d a _ => t.isInt && u.isInt && (!hi || u.bits = 16) && d.ok t && a.okN u.regs
  | .iadd _ t d a b _ | .isub _ t d a b _ | .imul _ t d a b _ =>
    t.isI4 && d.okN t.regs && a.okN t.regs && b.okN t.regs
  | .imin _ t d a b | .imax _ t d a b => t.isI4 && d.okN t.regs && a.okN t.regs && b.okN t.regs
  | .imulh _ t d a b => (t = .s32 || t = .n32) && d.ok && a.ok && b.ok
  | .imad _ t d a b c _ => (t = .s32 || t = .n32) && d.ok && a.ok && b.ok && c.ok
  | .iabs _ t d a _ => (t = .s32 || t = .s64) && d.okN t.regs && a.okN t.regs
  | .ishl _ t d a n | .ishr _ t d a n => (t = .n32 || t = .n64) && d.okN t.regs && a.okN t.regs && n.ok t
  | .isar _ t d a n => (t = .s32 || t = .s64) && d.okN t.regs && a.okN t.regs && n.ok t
  | .fshl _ d a b n | .fshr _ d a b n => d.ok && a.ok && b.ok && n.ok .n32
  | .logic3 _ d a b c _ => d.ok && a.ok && b.ok && c.ok
  | .laneBfx _ t d a b => (t = .s32 || t = .n32) && d.ok && a.ok && b.ok
  | .laneBfi _ t d a b c => (t = .s32 || t = .n32) && d.ok && a.ok && b.ok && c.ok
  | .lanePopc _ d a | .laneClz _ d a | .laneBrev _ d a => d.ok && a.ok
  | .icmp _ t d _ a b => t.isI4 && d.ok && a.okN t.regs && b.okN t.regs
  | .laneSel _ t d a b _ _ => (t = .n32 || t = .n64) && d.okN t.regs && a.okN t.regs && b.okN t.regs
  | .idot4 _ t d a b c _ => (t = .s8 || t = .n8) && d.ok && a.ok && b.ok && c.ok
  | .isad _ d a b c => d.ok && a.ok && b.ok && c.ok
  | .iaddc _ _ d a b _ => d.ok && a.ok && b.ok
  | .mov _ t d a => (t = .n32 || t = .n64 || t = .b128) && d.okN t.regs && a.okN t.regs
  | .laneMovi _ d hi i => d.ok && (!hi || i.toNat < 65536)
  | .shfl _ t d a b => (t = .n32 || t = .n64) && d.okN t.regs && a.okN t.regs && b.ok
  | .shflx _ t d a _ | .shfld _ t _ d a _ | .bcast _ t d a _ =>
    (t = .n32 || t = .n64) && d.okN t.regs && a.okN t.regs
  | .vote _ _ d a => d.ok && a.ok
  | .reduce _ op t d a | .prefixOp _ op _ t d a => op.okType t && d.ok && a.ok
  | .brl _ _ j => j.toNat ≠ 0
  | .movs _ d _ => d.ok
  | .ld _ t o _ d dh m => t.isMem && o.okLoad && d.toNat % t.regs = 0 && (!dh || t.bits = 16) && m.ok
  | .st _ t o _ ch m c => t.isMem && o.okStore && c.okN t.regs && (!ch || t.bits = 16) && m.ok && m.noRf
  | .ldx _ t o _ d dh x => t.isMem && o.okLoad && d.toNat % t.regs = 0 && (!dh || t.bits = 16) && x.ok
  | .stx _ t o _ ch x c => t.isMem && o.okStore && c.okN t.regs && (!ch || t.bits = 16) && x.ok
  | .atom _ op t _ _ d m c => op.okType t && d.toNat % t.regs = 0 && m.ok && m.noRf && c.okN (op.regs t)
  | .atomx _ op t _ _ d x c => op.okType t && d.toNat % t.regs = 0 && x.ok && c.okN (op.regs t)
  | .red _ op t o _ m c => op.okRed && op.okType t && o.okStore && m.ok && m.noRf && c.okN (op.regs t)
  | .lcpy _ _ m b c => m.ok && m.noRf && b.ok && c.ok
  | .pref _ _ _ a _ => a.ok
  | .rng _ d a b => d.wide 4 && a.wide 4 && b.wide 2
  | .rngNext _ d | .rngCtr _ d => d.wide 4
  | .rngSeed _ a b => a.wide 4 && b.wide 2
  | .rngKey _ d => d.wide 2
  | .add128l _ d a b => d.wide 4 && a.wide 4 && b.wide 4
  | .add128lCtr _ a => a.wide 4
  | .attr _ _ d _ => d.ok
  | .deriv _ _ _ d a => d.ok && a.ok
  | .texs _ dim d a _ | .texg _ dim _ d a _ => d.wide 4 && a.wide dim.regs
  | .texl _ dim d a b _ => d.wide 4 && a.wide dim.regs && b.ok
  | .texq _ _ d b _ => d.wide 2 && b.ok
  | .trace _ _ d a b _ => d.wide 8 && a.wide 4 && b.wide 4
  | .expc _ _ a _ => a.wide 4
  | .expz _ a => a.ok
  | .apxin _ a _ => a.ok
  | .apxout _ d _ | .apxoutProbe _ d _ _ => d.isVec
  | .apxexit _ _ a _ => a.ok
  | .fmma _ d a b c => d.wide 8 && a.wide 4 && b.wide 4 && c.wide 8
  | .fmld _ t acc tr d m b => okFrag t acc && !(acc && tr) && d.wide (if acc then 8 else 4) && m.ok && b.ok
  | .fmst _ t acc m b c => okFrag t acc && m.ok && m.noRf && b.ok && c.wide (if acc then 8 else 4)
  | _ => true

end Sys2Proof
end

