-- ==== Sys2Proof/Decode.lean ====
section
/-! DEFINITION. The decoder and the encoder, from the encoding tables of chapter 3 and the entries. A word
is cut into fields; the fields name at most one instruction; the word decodes to it when encoding that
instruction gives the same word back (so every unused bit is 0: R75, R83 rule 2) and it is well formed.
Everything else is refused by name and raises the illegal-instruction fault when it issues (R81). -/

namespace Sys2Proof

/-- R84: the code. -/
def NType.code : NType → BitVec 4
  | .f32 => 0
  | .bf16 => 1
  | .f16 => 2
  | .e4m3 => 3
  | .e5m2 => 4
  | .e2m1 => 5
  | .qn4 => 6
  | .s8 => 7
  | .n8 => 8
  | .s16 => 9
  | .n16 => 10
  | .s32 => 11
  | .n32 => 12
  | .s64 => 13
  | .n64 => 14
  | .b128 => 15

/-- R84: the meaning of a code; reserved codes have none. -/
def NType.ofCode (c : BitVec 4) : Option NType :=
  match c.toNat with
  | 0 => some .f32
  | 1 => some .bf16
  | 2 => some .f16
  | 3 => some .e4m3
  | 4 => some .e5m2
  | 5 => some .e2m1
  | 6 => some .qn4
  | 7 => some .s8
  | 8 => some .n8
  | 9 => some .s16
  | 10 => some .n16
  | 11 => some .s32
  | 12 => some .n32
  | 13 => some .s64
  | 14 => some .n64
  | _ => some .b128

/-- R85: the code. -/
def Scope.code : Scope → BitVec 3
  | .grp => 0
  | .team => 1
  | .clu => 2
  | .slc => 3
  | .prt => 4
  | .sys => 5

/-- R85: the meaning of a code; reserved codes have none. -/
def Scope.ofCode (c : BitVec 3) : Option Scope :=
  match c.toNat with
  | 0 => some .grp
  | 1 => some .team
  | 2 => some .clu
  | 3 => some .slc
  | 4 => some .prt
  | 5 => some .sys
  | _ => none

/-- R85: the code. -/
def Order.code : Order → BitVec 2
  | .plain => 0
  | .acq => 1
  | .rel => 2
  | .ar => 3

/-- R85: the meaning of a code; reserved codes have none. -/
def Order.ofCode (c : BitVec 2) : Option Order :=
  match c.toNat with
  | 0 => some .plain
  | 1 => some .acq
  | 2 => some .rel
  | _ => some .ar

/-- R112: the code. -/
def RMode.code : RMode → BitVec 2
  | .near => 0
  | .zero => 1
  | .down => 2
  | .up => 3

/-- R112: the meaning of a code; reserved codes have none. -/
def RMode.ofCode (c : BitVec 2) : Option RMode :=
  match c.toNat with
  | 0 => some .near
  | 1 => some .zero
  | 2 => some .down
  | _ => some .up

/-- R188: the code. -/
def Cond.code : Cond → BitVec 7
  | .eq => 0
  | .ne => 1
  | .lts => 2
  | .les => 3
  | .gts => 4
  | .ges => 5
  | .ltn => 6
  | .len => 7
  | .gtn => 8
  | .gen => 9

/-- R188: the meaning of a code; reserved codes have none. -/
def Cond.ofCode (c : BitVec 7) : Option Cond :=
  match c.toNat with
  | 0 => some .eq
  | 1 => some .ne
  | 2 => some .lts
  | 3 => some .les
  | 4 => some .gts
  | 5 => some .ges
  | 6 => some .ltn
  | 7 => some .len
  | 8 => some .gtn
  | 9 => some .gen
  | _ => none

/-- R215: the code. -/
def FCond.code : FCond → BitVec 3
  | .eq => 0
  | .ne => 1
  | .lt => 2
  | .le => 3
  | .gt => 4
  | .ge => 5
  | .un => 6
  | .ord => 7

/-- R215: the meaning of a code; reserved codes have none. -/
def FCond.ofCode (c : BitVec 3) : Option FCond :=
  match c.toNat with
  | 0 => some .eq
  | 1 => some .ne
  | 2 => some .lt
  | 3 => some .le
  | 4 => some .gt
  | 5 => some .ge
  | 6 => some .un
  | _ => some .ord

/-- R233: the code. -/
def ICond.code : ICond → BitVec 3
  | .eq => 0
  | .ne => 1
  | .lt => 2
  | .le => 3
  | .gt => 4
  | .ge => 5

/-- R233: the meaning of a code; reserved codes have none. -/
def ICond.ofCode (c : BitVec 3) : Option ICond :=
  match c.toNat with
  | 0 => some .eq
  | 1 => some .ne
  | 2 => some .lt
  | 3 => some .le
  | 4 => some .gt
  | 5 => some .ge
  | _ => none

/-- R198, R250: the code. -/
def AtomOp.code : AtomOp → BitVec 3
  | .add => 0
  | .min => 1
  | .max => 2
  | .and => 3
  | .or => 4
  | .xor => 5
  | .exch => 6
  | .cas => 7

/-- R198, R250: the meaning of a code; reserved codes have none. -/
def AtomOp.ofCode (c : BitVec 3) : Option AtomOp :=
  match c.toNat with
  | 0 => some .add
  | 1 => some .min
  | 2 => some .max
  | 3 => some .and
  | 4 => some .or
  | 5 => some .xor
  | 6 => some .exch
  | _ => some .cas

/-- R80: the code. -/
def ShiftKind.code : ShiftKind → BitVec 2
  | .shl => 0
  | .shr => 1
  | .sar => 2
  | .rotl => 3

/-- R80: the meaning of a code; reserved codes have none. -/
def ShiftKind.ofCode (c : BitVec 2) : Option ShiftKind :=
  match c.toNat with
  | 0 => some .shl
  | 1 => some .shr
  | 2 => some .sar
  | _ => some .rotl

/-- R196: the code. -/
def TestKind.code : TestKind → BitVec 2
  | .none => 0
  | .any => 1
  | .eq => 2

/-- R196: the meaning of a code; reserved codes have none. -/
def TestKind.ofCode (c : BitVec 2) : Option TestKind :=
  match c.toNat with
  | 0 => some .none
  | 1 => some .any
  | 2 => some .eq
  | _ => none

/-- R202: the code. -/
def FenceKind.code : FenceKind → BitVec 3
  | .acq => 1
  | .rel => 2
  | .ar => 3
  | .sc => 4

/-- R202: the meaning of a code; reserved codes have none. -/
def FenceKind.ofCode (c : BitVec 3) : Option FenceKind :=
  match c.toNat with
  | 1 => some .acq
  | 2 => some .rel
  | 3 => some .ar
  | 4 => some .sc
  | _ => none

/-- R239: the code. -/
def VoteOp.code : VoteOp → BitVec 2
  | .any => 0
  | .all => 1
  | .ballot => 2
  | .uni => 3

/-- R239: the meaning of a code; reserved codes have none. -/
def VoteOp.ofCode (c : BitVec 2) : Option VoteOp :=
  match c.toNat with
  | 0 => some .any
  | 1 => some .all
  | 2 => some .ballot
  | _ => some .uni

/-- R240: the code. -/
def FoldOp.code : FoldOp → BitVec 3
  | .add => 0
  | .min => 1
  | .max => 2
  | .and => 3
  | .or => 4
  | .xor => 5

/-- R240: the meaning of a code; reserved codes have none. -/
def FoldOp.ofCode (c : BitVec 3) : Option FoldOp :=
  match c.toNat with
  | 0 => some .add
  | 1 => some .min
  | 2 => some .max
  | 3 => some .and
  | 4 => some .or
  | 5 => some .xor
  | _ => none

/-- R282: the code. -/
def AttrMode.code : AttrMode → BitVec 3
  | .flat => 0
  | .persp => 1
  | .linear => 2
  | .centroid => 3
  | .builtin => 5

/-- R282: the meaning of a code; reserved codes have none. -/
def AttrMode.ofCode (c : BitVec 3) : Option AttrMode :=
  match c.toNat with
  | 0 => some .flat
  | 1 => some .persp
  | 2 => some .linear
  | 3 => some .centroid
  | 5 => some .builtin
  | _ => none

/-- R281: the code. -/
def TexDim.code : TexDim → BitVec 2
  | .t2d => 0
  | .t2darr => 1
  | .t3d => 2

/-- R281: the meaning of a code; reserved codes have none. -/
def TexDim.ofCode (c : BitVec 2) : Option TexDim :=
  match c.toNat with
  | 0 => some .t2d
  | 1 => some .t2darr
  | 2 => some .t3d
  | _ => none

/-- R284: the code. -/
def Blend.code : Blend → BitVec 2
  | .replace => 0
  | .over => 1
  | .add => 2

/-- R284: the meaning of a code; reserved codes have none. -/
def Blend.ofCode (c : BitVec 2) : Option Blend :=
  match c.toNat with
  | 0 => some .replace
  | 1 => some .over
  | 2 => some .add
  | _ => none

/-- The fields of a control word in the CR format (R74); the other formats regroup them: CX and CI use d as
their first register, imm13 is b ## fn, off21 is d[1:0] ## a ## b ## fn. -/
structure CFields where
  maj : BitVec 6
  w   : BitVec 1
  d   : BitVec 6
  a   : BitVec 6
  b   : BitVec 6
  fn  : BitVec 7
deriving DecidableEq, Repr

/-- The word of the fields. -/
def CFields.toWord (f : CFields) : Word := f.maj ++ f.w ++ f.d ++ f.a ++ f.b ++ f.fn

/-- The fields of a word. -/
def CFields.ofWord (x : Word) : CFields where
  maj := x.extractLsb' 26 6
  w   := x.extractLsb' 25 1
  d   := x.extractLsb' 19 6
  a   := x.extractLsb' 13 6
  b   := x.extractLsb' 7 6
  fn  := x.extractLsb' 0 7

/-- One bit. -/
abbrev bit1 (b : Bool) : BitVec 1 := BitVec.ofBool b

/-- A bit as a truth value. -/
abbrev isOne (b : BitVec 1) : Bool := b == 1#1

/-- imm13 as its two fields. -/
def CFields.i13 (f : CFields) : BitVec 13 := f.b ++ f.fn
/-- imm19 = a ## imm13 (MOVI), and b ## c ## fn of LRUN. -/
def CFields.i19 (f : CFields) : BitVec 19 := f.a ++ f.b ++ f.fn
/-- off21. -/
def CFields.o21 (f : CFields) : BitVec 21 := f.d.extractLsb' 0 2 ++ f.a ++ f.b ++ f.fn

/-- A word of the CR or CX format. -/
def cr (maj : Nat) (w : Bool) (d a b : BitVec 6) (fn : BitVec 7) : CFields :=
  ⟨BitVec.ofNat 6 maj, bit1 w, d, a, b, fn⟩

/-- A word of the CI format. -/
def ci (maj : Nat) (w : Bool) (d a : BitVec 6) (i : BitVec 13) : CFields :=
  ⟨BitVec.ofNat 6 maj, bit1 w, d, a, i.extractLsb' 7 6, i.extractLsb' 0 7⟩

/-- A word of the CB format. -/
def cb (maj : Nat) (w : Bool) (q : BitVec 3) (sense : Bool) (o : BitVec 21) : CFields :=
  ⟨BitVec.ofNat 6 maj, bit1 w, q ++ bit1 sense ++ o.extractLsb' 19 2, o.extractLsb' 13 6, o.extractLsb' 7 6,
    o.extractLsb' 0 7⟩

/-- The low bits of a 6-bit field, the rest 0. -/
abbrev z6 {n : Nat} (x : BitVec n) : BitVec 6 := x.setWidth 6

/-- The low bits of a 7-bit field, the rest 0. -/
abbrev z7 {n : Nat} (x : BitVec n) : BitVec 7 := x.setWidth 7

/-- R77: the LIMM word; imm26 fills the bits [25:0]. -/
def limmFields (i : BitVec 26) : CFields :=
  ⟨63, i.extractLsb' 25 1, i.extractLsb' 19 6, i.extractLsb' 13 6, i.extractLsb' 7 6, i.extractLsb' 0 7⟩

/-- R80, R183: the fields of a control word; lane words and events have none. -/
def fieldsC : Instr → Option CFields
  | .nop w => some (cr 0 w 0 0 0 0)
  | .sleep w a => some (cr 0 w 0 a 0 1)
  | .clock w d a => some (cr 0 w d a 0 2)
  | .query w d a => some (cr 0 w d a 0 3)
  | .movsr w d i => some (cr 0 w d (i.extractLsb' 6 6) (i.extractLsb' 0 6) 4)
  | .add w d a b => some (cr 1 w d a b 0)
  | .sub w d a b => some (cr 1 w d a b 1)
  | .mul w d a b => some (cr 1 w d a b 2)
  | .mulhs w d a b => some (cr 1 w d a b 3)
  | .mulhn w d a b => some (cr 1 w d a b 4)
  | .divs w d a b => some (cr 1 w d a b 5)
  | .divn w d a b => some (cr 1 w d a b 6)
  | .rems w d a b => some (cr 1 w d a b 7)
  | .remn w d a b => some (cr 1 w d a b 8)
  | .and w d a b => some (cr 1 w d a b 9)
  | .or w d a b => some (cr 1 w d a b 10)
  | .xor w d a b => some (cr 1 w d a b 11)
  | .andn w d a b => some (cr 1 w d a b 12)
  | .shl w d a b => some (cr 1 w d a b 13)
  | .shr w d a b => some (cr 1 w d a b 14)
  | .sar w d a b => some (cr 1 w d a b 15)
  | .rotl w d a b => some (cr 1 w d a b 16)
  | .mins w d a b => some (cr 1 w d a b 17)
  | .maxs w d a b => some (cr 1 w d a b 18)
  | .minn w d a b => some (cr 1 w d a b 19)
  | .maxn w d a b => some (cr 1 w d a b 20)
  | .clz w d a => some (cr 1 w d a 0 21)
  | .popc w d a => some (cr 1 w d a 0 22)
  | .brev w d a => some (cr 1 w d a 0 23)
  | .sel w d a n q => some (cr 1 w d a (z6 (bit1 n ++ q)) 24)
  | .addi w d a i => some (ci 2 w d a i)
  | .muli w d a i => some (ci 3 w d a i)
  | .andi w d a i => some (ci 4 w d a i)
  | .ori w d a i => some (ci 5 w d a i)
  | .xori w d a i => some (ci 6 w d a i)
  | .shi w d a o n => some (ci 7 w d a (o.code ++ (0 : BitVec 6) ++ n))
  | .movi w d i => some (ci 8 w d (i.extractLsb' 13 6) (i.extractLsb' 0 13))
  | .movhi w d i => some (ci 9 w d (z6 (i.extractLsb' 13 3)) (i.extractLsb' 0 13))
  | .cmp w q a b c => some (cr 10 w (z6 q) a b c.code)
  | .cmpi w c q a i => some (ci 11 w (c.code.extractLsb' 0 3 ++ q) a i)
  | .add64 w d a b => some (cr 12 w d a b 0)
  | .sub64 w d a b => some (cr 12 w d a b 1)
  | .mul64 w d a b => some (cr 12 w d a b 2)
  | .add128 w d a b => some (cr 12 w d a b 3)
  | .shl64 w d a b => some (cr 12 w d a b 4)
  | .shr64 w d a b => some (cr 12 w d a b 5)
  | .bfx w a b c => some (cr 13 w a b c 0)
  | .bfi w a b c => some (cr 13 w a b c 1)
  | .qand w a n b m c => some (cr 13 w (z6 a) (z6 (bit1 n ++ b)) (z6 (bit1 m ++ c)) 2)
  | .qor w a n b m c => some (cr 13 w (z6 a) (z6 (bit1 n ++ b)) (z6 (bit1 m ++ c)) 3)
  | .qxor w a n b m c => some (cr 13 w (z6 a) (z6 (bit1 n ++ b)) (z6 (bit1 m ++ c)) 4)
  | .qnot w a b => some (cr 13 w (z6 a) (z6 b) 0 5)
  | .br w o => some (cb 16 w 0 false o)
  | .brq w q sense o => some (cb 17 w q sense o)
  | .call w o => some (cb 18 w 0 false o)
  | .jmpi w a => some (cr 19 w 0 a 0 0)
  | .calli w d a => some (cr 19 w d a 0 1)
  | .ret w a => some (cr 19 w 0 a 0 2)
  | .loop w d i => some (ci 20 w d 0 i)
  | .exit w => some (cr 21 w 0 0 0 0)
  | .exitto w a b => some (cr 21 w 0 a b 1)
  | .trap w c => some (cr 21 w 0 (c.extractLsb' 6 6) (c.extractLsb' 0 6) 2)
  | .tstb w a b q sp t => some (cr 22 w a b (z6 q) (z7 (bit1 sp ++ t.code)))
  | .lds w d a i => some (ci 24 w d a i)
  | .sts w d a i => some (ci 25 w d a i)
  | .ldc w d a i => some (ci 26 w d a i)
  | .atoms w a b c op sc => some (cr 27 w a b c (z7 (op.code ++ sc.code)))
  | .lrun w a i => some (cr 28 w a (i.extractLsb' 13 6) (i.extractLsb' 7 6) (i.extractLsb' 0 7))
  | .chsend w a b => some (cr 29 w a b 0 0)
  | .chrecv w a b peek => some (cr 29 w a b (z6 (bit1 peek)) 1)
  | .chstat w a b => some (cr 29 w a b 0 2)
  | .fence w sc k => some (cr 32 w (sc.code ++ k.code) 0 0 0)
  | .bari w a b => some (cr 32 w a b 0 1)
  | .barx w a b c => some (cr 32 w a b c 2)
  | .bara w a b => some (cr 32 w a b 0 3)
  | .waitb w a b => some (cr 32 w a b 0 4)
  | .yield w => some (cr 32 w 0 0 0 5)
  | .yieldc w a b c => some (cr 32 w a b c 6)
  | .teambar w => some (cr 32 w 0 0 0 7)
  | .gridbar w => some (cr 32 w 0 0 0 8)
  | .lwait w => some (cr 32 w 0 0 0 9)
  | .tbind w t b c => some (cr 33 w (z6 t) b c 0)
  | .tdrop w t => some (cr 33 w (z6 t) 0 0 1)
  | .objld w t b => some (cr 33 w (z6 t) b 0 2)
  | .cpyb w a b c => some (cr 34 w a b c 0)
  | .cpyg w a b c => some (cr 34 w a b c 1)
  | .cpyq w a b c => some (cr 34 w a b c 2)
  | .empty w a b => some (cr 34 w a b 0 3)
  | .heapadd w a b wait q => some (cr 35 w a b (z6 (bit1 wait ++ q)) 0)
  | .heaptake w a b wait q => some (cr 35 w a b (z6 (bit1 wait ++ q)) 1)
  | .mfmt w a => some (cr 36 w a 0 0 0)
  | .mloop w a b c => some (cr 36 w a b c 1)
  | .mconv w a b c => some (cr 36 w a b c 2)
  | .mstore w a b c => some (cr 36 w a b c 3)
  | .mzero w n => some (cr 36 w (z6 n) 0 0 4)
  | .mstat w a n => some (cr 36 w a (z6 n) 0 5)
  | .sproj w a b => some (cr 37 w a b 0 0)
  | .sbin w a b => some (cr 37 w a b 0 1)
  | .sblend w a b => some (cr 37 w a b 0 2)
  | .sgrad w a b => some (cr 37 w a b 0 3)
  | .apxdef w a q => some (cr 38 w a 0 (z6 q) 0)
  | .apxkill w a => some (cr 38 w a 0 0 1)
  | .encsub w a b => some (cr 39 w a b 0 0)
  | .chimgate w a => some (cr 40 w a 0 0 0)
  | .movsw w a i => some (cr 48 w a (i.extractLsb' 6 6) (i.extractLsb' 0 6) 0)
  | .pcntRd w a n => some (cr 48 w a (z6 n) 0 1)
  | .pcntWr w a n => some (cr 48 w a (z6 n) 1 1)
  | .pcntSel w a n => some (cr 48 w a (z6 n) 2 1)
  | .rett w => some (cr 48 w 0 0 0 2)
  | .ctxsave w a b q => some (cr 48 w a b (z6 q) 3)
  | .ctxload w a b q => some (cr 48 w a b (z6 q) 4)
  | .haltSoft w a q => some (cr 48 w a 0 (z6 q) 5)
  | .haltHard w a q => some (cr 48 w a 1 (z6 q) 5)
  | .freezeFreeze w a q => some (cr 48 w a 0 (z6 q) 6)
  | .freezeThaw w a q => some (cr 48 w a 1 (z6 q) 6)
  | .freezeReset w a q => some (cr 48 w a 2 (z6 q) 6)
  | .limm i => some (limmFields i)
  | _ => none

/-- R80: the instruction a control word's fields name, unused bits not looked at. -/
def parseC (f : CFields) : Option Instr :=
  let w := isOne f.w
  match f.maj.toNat with
  | 0 =>
    (match f.fn.toNat with
    | 0 => some (.nop w)
    | 1 => some (.sleep w f.a)
    | 2 => some (.clock w f.d f.a)
    | 3 => some (.query w f.d f.a)
    | 4 => some (.movsr w f.d (f.a ++ f.b))
    | _ => none)
  | 1 =>
    (match f.fn.toNat with
    | 0 => some (.add w f.d f.a f.b)
    | 1 => some (.sub w f.d f.a f.b)
    | 2 => some (.mul w f.d f.a f.b)
    | 3 => some (.mulhs w f.d f.a f.b)
    | 4 => some (.mulhn w f.d f.a f.b)
    | 5 => some (.divs w f.d f.a f.b)
    | 6 => some (.divn w f.d f.a f.b)
    | 7 => some (.rems w f.d f.a f.b)
    | 8 => some (.remn w f.d f.a f.b)
    | 9 => some (.and w f.d f.a f.b)
    | 10 => some (.or w f.d f.a f.b)
    | 11 => some (.xor w f.d f.a f.b)
    | 12 => some (.andn w f.d f.a f.b)
    | 13 => some (.shl w f.d f.a f.b)
    | 14 => some (.shr w f.d f.a f.b)
    | 15 => some (.sar w f.d f.a f.b)
    | 16 => some (.rotl w f.d f.a f.b)
    | 17 => some (.mins w f.d f.a f.b)
    | 18 => some (.maxs w f.d f.a f.b)
    | 19 => some (.minn w f.d f.a f.b)
    | 20 => some (.maxn w f.d f.a f.b)
    | 21 => some (.clz w f.d f.a)
    | 22 => some (.popc w f.d f.a)
    | 23 => some (.brev w f.d f.a)
    | 24 => some (.sel w f.d f.a (isOne (f.b.extractLsb' 3 1)) (f.b.extractLsb' 0 3))
    | _ => none)
  | 2 => some (.addi w f.d f.a f.i13)
  | 3 => some (.muli w f.d f.a f.i13)
  | 4 => some (.andi w f.d f.a f.i13)
  | 5 => some (.ori w f.d f.a f.i13)
  | 6 => some (.xori w f.d f.a f.i13)
  | 7 => (ShiftKind.ofCode (f.i13.extractLsb' 11 2)).map fun o => .shi w f.d f.a o (f.i13.extractLsb' 0 5)
  | 8 => some (.movi w f.d f.i19)
  | 9 => some (.movhi w f.d (f.a.extractLsb' 0 3 ++ f.i13))
  | 10 => (Cond.ofCode f.fn).map fun c => .cmp w (f.d.extractLsb' 0 3) f.a f.b c
  | 11 => (Cond.ofCode (f.d.extractLsb' 3 3 |>.setWidth 7)).map fun c => .cmpi w c (f.d.extractLsb' 0 3) f.a f.i13
  | 12 =>
    (match f.fn.toNat with
    | 0 => some (.add64 w f.d f.a f.b)
    | 1 => some (.sub64 w f.d f.a f.b)
    | 2 => some (.mul64 w f.d f.a f.b)
    | 3 => some (.add128 w f.d f.a f.b)
    | 4 => some (.shl64 w f.d f.a f.b)
    | 5 => some (.shr64 w f.d f.a f.b)
    | _ => none)
  | 13 =>
    (match f.fn.toNat with
    | 0 => some (.bfx w f.d f.a f.b)
    | 1 => some (.bfi w f.d f.a f.b)
    | 2 => some (.qand w (f.d.extractLsb' 0 3) (isOne (f.a.extractLsb' 3 1)) (f.a.extractLsb' 0 3) (isOne (f.b.extractLsb' 3 1)) (f.b.extractLsb' 0 3))
    | 3 => some (.qor w (f.d.extractLsb' 0 3) (isOne (f.a.extractLsb' 3 1)) (f.a.extractLsb' 0 3) (isOne (f.b.extractLsb' 3 1)) (f.b.extractLsb' 0 3))
    | 4 => some (.qxor w (f.d.extractLsb' 0 3) (isOne (f.a.extractLsb' 3 1)) (f.a.extractLsb' 0 3) (isOne (f.b.extractLsb' 3 1)) (f.b.extractLsb' 0 3))
    | 5 => some (.qnot w (f.d.extractLsb' 0 3) (f.a.extractLsb' 0 3))
    | _ => none)
  | 16 => some (.br w f.o21)
  | 17 => some (.brq w (f.d.extractLsb' 3 3) (isOne (f.d.extractLsb' 2 1)) f.o21)
  | 18 => some (.call w f.o21)
  | 19 =>
    (match f.fn.toNat with
    | 0 => some (.jmpi w f.a)
    | 1 => some (.calli w f.d f.a)
    | 2 => some (.ret w f.a)
    | _ => none)
  | 20 => some (.loop w f.d f.i13)
  | 21 =>
    (match f.fn.toNat with
    | 0 => some (.exit w)
    | 1 => some (.exitto w f.a f.b)
    | 2 => some (.trap w (f.a ++ f.b))
    | _ => none)
  | 22 => (TestKind.ofCode (f.fn.extractLsb' 0 2)).map fun t => .tstb w f.d f.a (f.b.extractLsb' 0 3) (isOne (f.fn.extractLsb' 2 1)) t
  | 24 => some (.lds w f.d f.a f.i13)
  | 25 => some (.sts w f.d f.a f.i13)
  | 26 => some (.ldc w f.d f.a f.i13)
  | 27 => (Scope.ofCode (f.fn.extractLsb' 0 3)).bind fun sc => (AtomOp.ofCode (f.fn.extractLsb' 3 3)).map fun op => .atoms w f.d f.a f.b op sc
  | 28 => some (.lrun w f.d f.i19)
  | 29 =>
    (match f.fn.toNat with
    | 0 => some (.chsend w f.d f.a)
    | 1 => some (.chrecv w f.d f.a (isOne (f.b.extractLsb' 0 1)))
    | 2 => some (.chstat w f.d f.a)
    | _ => none)
  | 32 =>
    (match f.fn.toNat with
    | 0 => (Scope.ofCode (f.d.extractLsb' 3 3)).bind fun sc => (FenceKind.ofCode (f.d.extractLsb' 0 3)).map fun k => .fence w sc k
    | 1 => some (.bari w f.d f.a)
    | 2 => some (.barx w f.d f.a f.b)
    | 3 => some (.bara w f.d f.a)
    | 4 => some (.waitb w f.d f.a)
    | 5 => some (.yield w)
    | 6 => some (.yieldc w f.d f.a f.b)
    | 7 => some (.teambar w)
    | 8 => some (.gridbar w)
    | 9 => some (.lwait w)
    | _ => none)
  | 33 =>
    (match f.fn.toNat with
    | 0 => some (.tbind w (f.d.extractLsb' 0 4) f.a f.b)
    | 1 => some (.tdrop w (f.d.extractLsb' 0 4))
    | 2 => some (.objld w (f.d.extractLsb' 0 4) f.a)
    | _ => none)
  | 34 =>
    (match f.fn.toNat with
    | 0 => some (.cpyb w f.d f.a f.b)
    | 1 => some (.cpyg w f.d f.a f.b)
    | 2 => some (.cpyq w f.d f.a f.b)
    | 3 => some (.empty w f.d f.a)
    | _ => none)
  | 35 =>
    (match f.fn.toNat with
    | 0 => some (.heapadd w f.d f.a (isOne (f.b.extractLsb' 3 1)) (f.b.extractLsb' 0 3))
    | 1 => some (.heaptake w f.d f.a (isOne (f.b.extractLsb' 3 1)) (f.b.extractLsb' 0 3))
    | _ => none)
  | 36 =>
    (match f.fn.toNat with
    | 0 => some (.mfmt w f.d)
    | 1 => some (.mloop w f.d f.a f.b)
    | 2 => some (.mconv w f.d f.a f.b)
    | 3 => some (.mstore w f.d f.a f.b)
    | 4 => some (.mzero w (f.d.extractLsb' 0 2))
    | 5 => some (.mstat w f.d (f.a.extractLsb' 0 2))
    | _ => none)
  | 37 =>
    (match f.fn.toNat with
    | 0 => some (.sproj w f.d f.a)
    | 1 => some (.sbin w f.d f.a)
    | 2 => some (.sblend w f.d f.a)
    | 3 => some (.sgrad w f.d f.a)
    | _ => none)
  | 38 =>
    (match f.fn.toNat with
    | 0 => some (.apxdef w f.d (f.b.extractLsb' 0 3))
    | 1 => some (.apxkill w f.d)
    | _ => none)
  | 39 =>
    (match f.fn.toNat with
    | 0 => some (.encsub w f.d f.a)
    | _ => none)
  | 40 =>
    (match f.fn.toNat with
    | 0 => some (.chimgate w f.d)
    | _ => none)
  | 48 =>
    (match f.fn.toNat with
    | 0 => some (.movsw w f.d (f.a ++ f.b))
    | 1 => (match f.b.toNat with | 0 => some (.pcntRd w f.d (f.a.extractLsb' 0 5)) | 1 => some (.pcntWr w f.d (f.a.extractLsb' 0 5)) | 2 => some (.pcntSel w f.d (f.a.extractLsb' 0 5)) | _ => none)
    | 2 => some (.rett w)
    | 3 => some (.ctxsave w f.d f.a (f.b.extractLsb' 0 3))
    | 4 => some (.ctxload w f.d f.a (f.b.extractLsb' 0 3))
    | 5 => if f.a = 0 then some (.haltSoft w f.d (f.b.extractLsb' 0 3)) else some (.haltHard w f.d (f.b.extractLsb' 0 3))
    | 6 => (match f.a.toNat with | 0 => some (.freezeFreeze w f.d (f.b.extractLsb' 0 3)) | 1 => some (.freezeThaw w f.d (f.b.extractLsb' 0 3)) | 2 => some (.freezeReset w f.d (f.b.extractLsb' 0 3)) | _ => none)
    | _ => none)
  | 63 => some (.limm (f.w ++ f.d ++ f.a ++ f.b ++ f.fn))
  | _ => none

/-- The encoder of a control word. -/
def encodeC (i : Instr) : Option Word := (fieldsC i).map CFields.toWord

/-- Why a word is not an instruction. -/
inductive DecodeError where
  | reserved
  | unusedBits
  | operands
deriving DecidableEq, Repr

/-- R80, R81: the decoder of a control word. -/
def decodeC (x : Word) : Except DecodeError Instr :=
  let f := CFields.ofWord x
  match parseC f with
  | none => .error .reserved
  | some i => if fieldsC i = some f then (if i.wf then .ok i else .error .operands) else .error .unusedBits

/-- One operand of a lane word (R82): its class, its index, and the bit beside it (h of D, pop of a source). -/
structure LOpn where
  cls : BitVec 1
  idx : BitVec 8
  x   : BitVec 1
deriving DecidableEq, Repr

/-- The fields of a lane word (R82). -/
structure LFields where
  op  : BitVec 8
  w   : BitVec 1
  pm  : BitVec 4
  pn  : BitVec 1
  d   : LOpn
  a   : LOpn
  b   : LOpn
  c   : LOpn
  ty  : BitVec 4
  sat : BitVec 1
  rm  : BitVec 2
  sub : BitVec 6
  sc  : BitVec 3
  od  : BitVec 2
  imm : BitVec 24
deriving DecidableEq, Repr

/-- The ten bits of an operand. -/
def LOpn.toBits (o : LOpn) : BitVec 10 := o.cls ++ o.idx ++ o.x

/-- The operand of ten bits. -/
def LOpn.ofBits (x : BitVec 10) : LOpn := ⟨x.extractLsb' 9 1, x.extractLsb' 1 8, x.extractLsb' 0 1⟩

/-- The word of the fields. -/
def LFields.toWord (f : LFields) : LWord :=
  f.op ++ f.w ++ f.pm ++ f.pn ++ f.d.toBits ++ f.a.toBits ++ f.b.toBits ++ f.c.toBits ++ f.ty ++ f.sat ++ f.rm ++
    f.sub ++ f.sc ++ f.od ++ f.imm

/-- The fields of a word. -/
def LFields.ofWord (x : LWord) : LFields where
  op  := x.extractLsb' 88 8
  w   := x.extractLsb' 87 1
  pm  := x.extractLsb' 83 4
  pn  := x.extractLsb' 82 1
  d   := .ofBits (x.extractLsb' 72 10)
  a   := .ofBits (x.extractLsb' 62 10)
  b   := .ofBits (x.extractLsb' 52 10)
  c   := .ofBits (x.extractLsb' 42 10)
  ty  := x.extractLsb' 38 4
  sat := x.extractLsb' 37 1
  rm  := x.extractLsb' 35 2
  sub := x.extractLsb' 29 6
  sc  := x.extractLsb' 26 3
  od  := x.extractLsb' 24 2
  imm := x.extractLsb' 0 24

/-- An operand that is not used. -/
def LOpn.none : LOpn := ⟨0, 0, 0⟩

/-- R82: the bits of a source. -/
def Src.opn : Src → LOpn
  | .vec i => ⟨0, i, 0⟩
  | .chan i p => ⟨1, i, bit1 p⟩

/-- R82: the source of an operand; a register with pop = 1 is refused because it does not encode back. -/
def LOpn.src (o : LOpn) : Src := if o.cls = 0 then .vec o.idx else .chan o.idx (isOne o.x)

/-- R82: the bits of a destination. -/
def Dst.opn : Dst → LOpn
  | .vec i => ⟨0, i, 0⟩
  | .chan i => ⟨1, i, 0⟩

/-- R82: the destination of an operand. -/
def LOpn.dst (o : LOpn) : Dst := if o.cls = 0 then .vec o.idx else .chan o.idx

/-- R69: a destination with its half bit. -/
def HDst.opn (d : HDst) : LOpn := { d.d.opn with x := bit1 d.hi }

/-- R69: the destination and half of an operand. -/
def LOpn.hdst (o : LOpn) : HDst := ⟨o.dst, isOne o.x⟩

/-- R212: D of a compare. -/
def PDst.opn : PDst → LOpn
  | .reg d => d.opn
  | .mask m => ⟨0, m.setWidth 8, 0⟩

/-- R212: subop[4] of a compare. -/
def PDst.isMask : PDst → Bool
  | .reg _ => false
  | .mask _ => true

/-- R212: the destination of a compare. -/
def LOpn.pdst (o : LOpn) (mask : Bool) : PDst := if mask then .mask (o.idx.extractLsb' 0 4) else .reg o.dst

/-- A vector register operand. -/
def vopn (d : VReg) (h : Bool) : LOpn := ⟨0, d, bit1 h⟩

/-- The low bits of subop, the rest 0. -/
abbrev s6 {n : Nat} (x : BitVec n) : BitVec 6 := x.setWidth 6
/-- The low bits of imm24, the rest 0. -/
abbrev i24 {n : Nat} (x : BitVec n) : BitVec 24 := x.setWidth 24

/-- A lane word's fields; what is not given is 0. -/
def lw (op : BitVec 8) (h : LHdr) (d a b c : LOpn := .none) (ty : NType := .f32) (sat : Bool := false)
    (rm : RMode := .near) (sub : BitVec 6 := 0) (sc : Scope := .grp) (od : Order := .plain)
    (imm : BitVec 24 := 0) : LFields :=
  ⟨op, bit1 h.w, h.pm, bit1 h.pn, d, a, b, c, ty.code, bit1 sat, rm.code, sub, sc.code, od.code, imm⟩

/-- R87: the address operand, subop[1:0] and imm24 of a memory operand. -/
def MAddr.parts : MAddr → LOpn × BitVec 2 × BitVec 24
  | .glob t a disp => (a.opn, 0, t ++ disp)
  | .sp a disp => (a.opn, 1, i24 disp)
  | .rf a disp => (a.opn, 2, i24 disp)

/-- R87: the memory operand of a word. -/
def LFields.maddr (f : LFields) : Option MAddr :=
  match (f.sub.extractLsb' 0 2).toNat with
  | 0 => some (.glob (f.imm.extractLsb' 20 4) f.a.src (f.imm.extractLsb' 0 20))
  | 1 => some (.sp f.a.src (f.imm.extractLsb' 0 20))
  | 2 => some (.rf f.a.src (f.imm.extractLsb' 0 20))
  | _ => none

/-- R87: the B operand of a 64-bit lane address. -/
def XAddr.bopn (x : XAddr) : LOpn := match x.b with | none => .none | some b => b.opn

/-- R230: the count operand, subop[0] and imm24. -/
def Cnt.parts : Cnt → LOpn × BitVec 6 × BitVec 24
  | .src b => (b.opn, 0, 0)
  | .imm n => (.none, 1, i24 n)

/-- R224: the scale operand and subop[5]. -/
def scaleOpn : Option Src → LOpn
  | none => .none
  | some b => b.opn

/-- subop of a conversion (R222). -/
def cvtSub (hi : Bool) (sty : NType) (sr : Bool) : BitVec 6 := bit1 hi ++ sty.code ++ bit1 sr

/-- R82–R88: the fields of a lane word; control words and events have none. -/
def fieldsL : Instr → Option LFields
  | .fadd h d a b r => some (lw 0x00 h (d := d.opn) (a := a.opn) (b := b.opn) (sat := r.sat) (rm := r.rm))
  | .fsub h d a b r => some (lw 0x01 h (d := d.opn) (a := a.opn) (b := b.opn) (sat := r.sat) (rm := r.rm))
  | .fmul h d a b r => some (lw 0x02 h (d := d.opn) (a := a.opn) (b := b.opn) (sat := r.sat) (rm := r.rm))
  | .ffma h d a b c r => some (lw 0x03 h (d := d.opn) (a := a.opn) (b := b.opn) (c := c.opn) (sat := r.sat) (rm := r.rm))
  | .ffms h d a b c r => some (lw 0x04 h (d := d.opn) (a := a.opn) (b := b.opn) (c := c.opn) (sat := r.sat) (rm := r.rm))
  | .fmin h d a b => some (lw 0x05 h (d := d.opn) (a := a.opn) (b := b.opn))
  | .fmax h d a b => some (lw 0x06 h (d := d.opn) (a := a.opn) (b := b.opn))
  | .fcmp h d c a b => some (lw 0x07 h (d := d.opn) (a := a.opn) (b := b.opn) (sub := s6 (bit1 d.isMask ++ (0 : BitVec 1) ++ c.code)))
  | .fclass h d a => some (lw 0x08 h (d := d.opn) (a := a.opn))
  | .fdiv h d a b r => some (lw 0x09 h (d := d.opn) (a := a.opn) (b := b.opn) (sat := r.sat) (rm := r.rm))
  | .frcp h d a r => some (lw 0x0A h (d := d.opn) (a := a.opn) (sat := r.sat) (rm := r.rm))
  | .frsq h d a r => some (lw 0x0B h (d := d.opn) (a := a.opn) (sat := r.sat) (rm := r.rm))
  | .fsqrt h d a r => some (lw 0x0C h (d := d.opn) (a := a.opn) (sat := r.sat) (rm := r.rm))
  | .ex2 h d a r => some (lw 0x0D h (d := d.opn) (a := a.opn) (sat := r.sat) (rm := r.rm))
  | .lg2 h d a r => some (lw 0x0E h (d := d.opn) (a := a.opn) (sat := r.sat) (rm := r.rm))
  | .fsint h d a r => some (lw 0x0F h (d := d.opn) (a := a.opn) (sat := r.sat) (rm := r.rm))
  | .fcost h d a r => some (lw 0x10 h (d := d.opn) (a := a.opn) (sat := r.sat) (rm := r.rm))
  | .frint h d a rm => some (lw 0x11 h (d := d.opn) (a := a.opn) (rm := rm))
  | .ffloor h d a => some (lw 0x12 h (d := d.opn) (a := a.opn))
  | .fceil h d a => some (lw 0x13 h (d := d.opn) (a := a.opn))
  | .ftrunc h d a => some (lw 0x14 h (d := d.opn) (a := a.opn))
  | .ffract h d a rm => some (lw 0x15 h (d := d.opn) (a := a.opn) (rm := rm))
  | .fscale h d a b r => some (lw 0x16 h (d := d.opn) (a := a.opn) (b := b.opn) (sat := r.sat) (rm := r.rm))
  | .fgetexp h d a => some (lw 0x17 h (d := d.opn) (a := a.opn))
  | .fcopysign h d a b => some (lw 0x18 h (d := d.opn) (a := a.opn) (b := b.opn))
  | .hadd2 h ty d a b r => some (lw 0x20 h (d := d.opn) (a := a.opn) (b := b.opn) (ty := ty) (sat := r.sat) (rm := r.rm))
  | .hsub2 h ty d a b r => some (lw 0x21 h (d := d.opn) (a := a.opn) (b := b.opn) (ty := ty) (sat := r.sat) (rm := r.rm))
  | .hmul2 h ty d a b r => some (lw 0x22 h (d := d.opn) (a := a.opn) (b := b.opn) (ty := ty) (sat := r.sat) (rm := r.rm))
  | .hfma2 h ty d a b c r => some (lw 0x23 h (d := d.opn) (a := a.opn) (b := b.opn) (c := c.opn) (ty := ty) (sat := r.sat) (rm := r.rm))
  | .hdot2 h ty d a b c r => some (lw 0x27 h (d := d.opn) (a := a.opn) (b := b.opn) (c := c.opn) (ty := ty) (sat := r.sat) (rm := r.rm))
  | .hmin2 h ty d a b => some (lw 0x24 h (d := d.opn) (a := a.opn) (b := b.opn) (ty := ty))
  | .hmax2 h ty d a b => some (lw 0x25 h (d := d.opn) (a := a.opn) (b := b.opn) (ty := ty))
  | .hcmp2 h ty d c a b => some (lw 0x26 h (d := d.opn) (a := a.opn) (b := b.opn) (ty := ty) (sub := s6 c.code))
  | .cvt h ty sty shi sr d a r => some (lw 0x30 h (d := d.opn) (a := a.opn) (ty := ty) (sat := r.sat) (rm := r.rm) (sub := cvtSub shi sty sr))
  | .cvt2 h ty sty sr d a r => some (lw 0x31 h (d := d.opn) (a := a.opn) (ty := ty) (sat := r.sat) (rm := r.rm) (sub := cvtSub false sty sr))
  | .cvt4 h ty sty sr d a b r => some (lw 0x32 h (d := d.opn) (a := a.opn) (b := scaleOpn b) (ty := ty) (sat := r.sat) (rm := r.rm) (sub := cvtSub b.isSome sty sr))
  | .cvt8 h ty sty sr d a b r => some (lw 0x33 h (d := d.opn) (a := a.opn) (b := scaleOpn b) (ty := ty) (sat := r.sat) (rm := r.rm) (sub := cvtSub b.isSome sty sr))
  | .qdec h ty sr d a b c r => some (lw 0x34 h (d := d.opn) (a := a.opn) (b := b.opn) (c := c.opn) (ty := ty) (sat := r.sat) (rm := r.rm) (sub := cvtSub false .qn4 sr))
  | .qenc h d a b c i => some (lw 0x35 h (d := d.opn) (a := a.opn) (b := b.opn) (c := c.opn) (ty := .qn4) (imm := i24 i))
  | .ftoi h ty sty shi d a rm => some (lw 0x36 h (d := d.opn) (a := a.opn) (ty := ty) (rm := rm) (sub := cvtSub shi sty false))
  | .itof h ty sty shi sr d a r => some (lw 0x37 h (d := d.opn) (a := a.opn) (ty := ty) (sat := r.sat) (rm := r.rm) (sub := cvtSub shi sty sr))
  | .icvt h ty sty shi d a sat => some (lw 0x38 h (d := d.opn) (a := a.opn) (ty := ty) (sat := sat) (sub := cvtSub shi sty false))
  | .iadd h ty d a b sat => some (lw 0x40 h (d := d.opn) (a := a.opn) (b := b.opn) (ty := ty) (sat := sat))
  | .isub h ty d a b sat => some (lw 0x41 h (d := d.opn) (a := a.opn) (b := b.opn) (ty := ty) (sat := sat))
  | .imul h ty d a b sat => some (lw 0x42 h (d := d.opn) (a := a.opn) (b := b.opn) (ty := ty) (sat := sat))
  | .imad h ty d a b c sat => some (lw 0x44 h (d := d.opn) (a := a.opn) (b := b.opn) (c := c.opn) (ty := ty) (sat := sat))
  | .iabs h ty d a sat => some (lw 0x47 h (d := d.opn) (a := a.opn) (ty := ty) (sat := sat))
  | .idot4 h ty d a b c sat => some (lw 0x55 h (d := d.opn) (a := a.opn) (b := b.opn) (c := c.opn) (ty := ty) (sat := sat))
  | .imulh h ty d a b => some (lw 0x43 h (d := d.opn) (a := a.opn) (b := b.opn) (ty := ty))
  | .imin h ty d a b => some (lw 0x45 h (d := d.opn) (a := a.opn) (b := b.opn) (ty := ty))
  | .imax h ty d a b => some (lw 0x46 h (d := d.opn) (a := a.opn) (b := b.opn) (ty := ty))
  | .laneBfx h ty d a b => some (lw 0x4E h (d := d.opn) (a := a.opn) (b := b.opn) (ty := ty))
  | .laneBfi h ty d a b c => some (lw 0x4F h (d := d.opn) (a := a.opn) (b := b.opn) (c := c.opn) (ty := ty))
  | .mov h ty d a => some (lw 0x58 h (d := d.opn) (a := a.opn) (ty := ty))
  | .shfl h ty d a b => some (lw 0x60 h (d := d.opn) (a := a.opn) (b := b.opn) (ty := ty))
  | .ishl h ty d a n => some (lw 0x48 h (d := d.opn) (a := a.opn) (b := n.parts.1) (ty := ty) (sub := n.parts.2.1) (imm := n.parts.2.2))
  | .ishr h ty d a n => some (lw 0x49 h (d := d.opn) (a := a.opn) (b := n.parts.1) (ty := ty) (sub := n.parts.2.1) (imm := n.parts.2.2))
  | .isar h ty d a n => some (lw 0x4A h (d := d.opn) (a := a.opn) (b := n.parts.1) (ty := ty) (sub := n.parts.2.1) (imm := n.parts.2.2))
  | .fshl h d a b n => some (lw 0x4B h (d := d.opn) (a := a.opn) (b := b.opn) (c := n.parts.1) (ty := .n32) (sub := n.parts.2.1) (imm := n.parts.2.2))
  | .fshr h d a b n => some (lw 0x4C h (d := d.opn) (a := a.opn) (b := b.opn) (c := n.parts.1) (ty := .n32) (sub := n.parts.2.1) (imm := n.parts.2.2))
  | .logic3 h d a b c tt => some (lw 0x4D h (d := d.opn) (a := a.opn) (b := b.opn) (c := c.opn) (ty := .n32) (imm := i24 tt))
  | .lanePopc h d a => some (lw 0x50 h (d := d.opn) (a := a.opn) (ty := .n32))
  | .laneClz h d a => some (lw 0x51 h (d := d.opn) (a := a.opn) (ty := .n32))
  | .laneBrev h d a => some (lw 0x52 h (d := d.opn) (a := a.opn) (ty := .n32))
  | .icmp h ty d c a b => some (lw 0x53 h (d := d.opn) (a := a.opn) (b := b.opn) (ty := ty) (sub := s6 (bit1 d.isMask ++ (0 : BitVec 1) ++ c.code)))
  | .laneSel h ty d a b m neg => some (lw 0x54 h (d := d.opn) (a := a.opn) (b := b.opn) (ty := ty) (imm := i24 (bit1 neg ++ m)))
  | .isad h d a b c => some (lw 0x56 h (d := d.opn) (a := a.opn) (b := b.opn) (c := c.opn) (ty := .n8))
  | .iaddc h sub d a b m => some (lw 0x57 h (d := d.opn) (a := a.opn) (b := b.opn) (ty := .n32) (sub := s6 (bit1 sub)) (imm := i24 m))
  | .laneMovi h d hi i => some (lw 0x59 h (d := d.opn) (ty := .n32) (sub := s6 (bit1 hi)) (imm := i))
  | .shflx h ty d a x => some (lw 0x61 h (d := d.opn) (a := a.opn) (ty := ty) (imm := i24 x))
  | .shfld h ty dn d a n => some (lw 0x62 h (d := d.opn) (a := a.opn) (ty := ty) (sub := s6 (bit1 dn)) (imm := i24 n))
  | .bcast h ty d a n => some (lw 0x63 h (d := d.opn) (a := a.opn) (ty := ty) (imm := i24 n))
  | .vote h op d a => some (lw 0x64 h (d := d.opn) (a := a.opn) (ty := .n32) (sub := s6 op.code))
  | .reduce h op ty d a => some (lw 0x65 h (d := d.opn) (a := a.opn) (ty := ty) (sub := s6 op.code))
  | .prefixOp h op excl ty d a => some (lw 0x66 h (d := d.opn) (a := a.opn) (ty := ty) (sub := s6 (bit1 excl ++ op.code)))
  | .brl h t j => some (lw 0x70 h (imm := j ++ t))
  | .join w => some (lw 0x71 ⟨w, 0, false⟩)
  | .lend w => some (lw 0x72 ⟨w, 0, false⟩)
  | .kill h => some (lw 0x73 h)
  | .ltrap h c => some (lw 0x74 h (imm := i24 c))
  | .movs h d i => some (lw 0x75 h (d := d.opn) (ty := .n32) (imm := i24 i))
  | .ld h ty o sc d dh m => some (lw 0x80 h (d := vopn d dh) (a := m.parts.1) (ty := ty) (sub := s6 m.parts.2.1) (sc := sc) (od := o) (imm := m.parts.2.2))
  | .st h ty o sc ch m c => some (lw 0x81 h (d := vopn 0 ch) (a := m.parts.1) (c := c.opn) (ty := ty) (sub := s6 m.parts.2.1) (sc := sc) (od := o) (imm := m.parts.2.2))
  | .ldx h ty o sc d dh x => some (lw 0x82 h (d := vopn d dh) (a := x.a.opn) (b := x.bopn) (ty := ty) (sub := s6 (bit1 x.b.isSome ++ (0 : BitVec 2))) (sc := sc) (od := o) (imm := x.disp))
  | .stx h ty o sc ch x c => some (lw 0x83 h (d := vopn 0 ch) (a := x.a.opn) (b := x.bopn) (c := c.opn) (ty := ty) (sub := s6 (bit1 x.b.isSome ++ (0 : BitVec 2))) (sc := sc) (od := o) (imm := x.disp))
  | .atom h op ty o sc d m c => some (lw 0x84 h (d := vopn d false) (a := m.parts.1) (c := c.opn) (ty := ty) (sub := s6 (op.code ++ m.parts.2.1)) (sc := sc) (od := o) (imm := m.parts.2.2))
  | .atomx h op ty o sc d x c => some (lw 0x85 h (d := vopn d false) (a := x.a.opn) (b := x.bopn) (c := c.opn) (ty := ty) (sub := s6 (op.code ++ (0 : BitVec 1) ++ bit1 x.b.isSome)) (sc := sc) (od := o) (imm := x.disp))
  | .red h op ty o sc m c => some (lw 0x86 h (a := m.parts.1) (c := c.opn) (ty := ty) (sub := s6 (op.code ++ m.parts.2.1)) (sc := sc) (od := o) (imm := m.parts.2.2))
  | .lcpy h sc m b c => some (lw 0x87 h (a := m.parts.1) (b := b.opn) (c := c.opn) (ty := .b128) (sub := s6 m.parts.2.1) (sc := sc) (imm := m.parts.2.2))
  | .pref h sc t a disp => some (lw 0x88 h (a := a.opn) (sc := sc) (imm := t ++ disp))
  | .rng h d a b => some (lw 0xA0 h (d := d.opn) (a := a.opn) (b := b.opn) (ty := .b128) (sub := 0))
  | .rngNext h d => some (lw 0xA0 h (d := d.opn) (ty := .b128) (sub := 1))
  | .rngSeed h a b => some (lw 0xA0 h (a := a.opn) (b := b.opn) (ty := .b128) (sub := 2))
  | .rngCtr h d => some (lw 0xA0 h (d := d.opn) (ty := .b128) (sub := 3))
  | .rngKey h d => some (lw 0xA0 h (d := d.opn) (ty := .b128) (sub := 4))
  | .add128l h d a b => some (lw 0xA1 h (d := d.opn) (a := a.opn) (b := b.opn) (ty := .b128))
  | .add128lCtr h a => some (lw 0xA1 h (a := a.opn) (ty := .b128) (sub := 1))
  | .attr h m d i => some (lw 0xB0 h (d := d.opn) (sub := s6 m.code) (imm := i24 i))
  | .deriv h y fine d a => some (lw 0xB1 h (d := d.opn) (a := a.opn) (sub := s6 (bit1 fine ++ bit1 y)))
  | .texs h dim d a t => some (lw 0xB2 h (d := d.opn) (a := a.opn) (sub := s6 dim.code) (imm := i24 t))
  | .texl h dim d a b t => some (lw 0xB3 h (d := d.opn) (a := a.opn) (b := b.opn) (sub := s6 dim.code) (imm := i24 t))
  | .texg h dim comp d a t => some (lw 0xB4 h (d := d.opn) (a := a.opn) (sub := s6 (comp ++ dim.code)) (imm := i24 t))
  | .texq h ext d b t => some (lw 0xB5 h (d := d.opn) (b := b.opn) (sub := s6 (bit1 ext)) (imm := i24 t))
  | .trace h any d a b t => some (lw 0xB6 h (d := d.opn) (a := a.opn) (b := b.opn) (sub := s6 (bit1 any)) (imm := i24 t))
  | .expc h bl a n => some (lw 0xB7 h (a := a.opn) (sub := s6 bl.code) (imm := i24 n))
  | .expz h a => some (lw 0xB8 h (a := a.opn))
  | .apxenter h m r => some (lw 0xC0 h (d := ⟨0, m.setWidth 8, 0⟩) (imm := i24 r))
  | .apxin h a i => some (lw 0xC1 h (a := a.opn) (imm := i24 i))
  | .apxout h d j => some (lw 0xC2 h (d := d.opn) (imm := i24 j))
  | .apxoutProbe h d j r => some (lw 0xC2 h (d := d.opn) (sub := 1) (imm := i24 (r ++ (0 : BitVec 5) ++ j)))
  | .apxexit h last a j => some (lw 0xC3 h (a := a.opn) (sub := s6 (bit1 last)) (imm := i24 j))
  | .fmma h d a b c => some (lw 0xC8 h (d := d.opn) (a := a.opn) (b := b.opn) (c := c.opn))
  | .fmld h ty acc tr d m b => some (lw 0xC9 h (d := d.opn) (a := m.parts.1) (b := b.opn) (ty := ty) (sub := s6 (bit1 tr ++ bit1 acc ++ m.parts.2.1)) (imm := m.parts.2.2))
  | .fmst h ty acc m b c => some (lw 0xCA h (a := m.parts.1) (b := b.opn) (c := c.opn) (ty := ty) (sub := s6 (bit1 acc ++ m.parts.2.1)) (imm := m.parts.2.2))
  | _ => none

/-- R88: the instruction a lane word's fields name, unused bits not looked at. -/
def parseL (f : LFields) : Option Instr :=
  let h : LHdr := ⟨isOne f.w, f.pm, isOne f.pn⟩
  match f.op.toNat with
  | 0 => (RMode.ofCode f.rm).map fun rm => .fadd h f.d.dst f.a.src f.b.src ⟨isOne f.sat, rm⟩
  | 1 => (RMode.ofCode f.rm).map fun rm => .fsub h f.d.dst f.a.src f.b.src ⟨isOne f.sat, rm⟩
  | 2 => (RMode.ofCode f.rm).map fun rm => .fmul h f.d.dst f.a.src f.b.src ⟨isOne f.sat, rm⟩
  | 3 => (RMode.ofCode f.rm).map fun rm => .ffma h f.d.dst f.a.src f.b.src f.c.src ⟨isOne f.sat, rm⟩
  | 4 => (RMode.ofCode f.rm).map fun rm => .ffms h f.d.dst f.a.src f.b.src f.c.src ⟨isOne f.sat, rm⟩
  | 5 => some (.fmin h f.d.dst f.a.src f.b.src)
  | 6 => some (.fmax h f.d.dst f.a.src f.b.src)
  | 7 => (FCond.ofCode (f.sub.extractLsb' 0 3)).map fun c => .fcmp h (f.d.pdst (isOne (f.sub.extractLsb' 4 1))) c f.a.src f.b.src
  | 8 => some (.fclass h f.d.dst f.a.src)
  | 9 => (RMode.ofCode f.rm).map fun rm => .fdiv h f.d.dst f.a.src f.b.src ⟨isOne f.sat, rm⟩
  | 10 => (RMode.ofCode f.rm).map fun rm => .frcp h f.d.dst f.a.src ⟨isOne f.sat, rm⟩
  | 11 => (RMode.ofCode f.rm).map fun rm => .frsq h f.d.dst f.a.src ⟨isOne f.sat, rm⟩
  | 12 => (RMode.ofCode f.rm).map fun rm => .fsqrt h f.d.dst f.a.src ⟨isOne f.sat, rm⟩
  | 13 => (RMode.ofCode f.rm).map fun rm => .ex2 h f.d.dst f.a.src ⟨isOne f.sat, rm⟩
  | 14 => (RMode.ofCode f.rm).map fun rm => .lg2 h f.d.dst f.a.src ⟨isOne f.sat, rm⟩
  | 15 => (RMode.ofCode f.rm).map fun rm => .fsint h f.d.dst f.a.src ⟨isOne f.sat, rm⟩
  | 16 => (RMode.ofCode f.rm).map fun rm => .fcost h f.d.dst f.a.src ⟨isOne f.sat, rm⟩
  | 17 => (RMode.ofCode f.rm).map fun rm => .frint h f.d.dst f.a.src rm
  | 18 => some (.ffloor h f.d.dst f.a.src)
  | 19 => some (.fceil h f.d.dst f.a.src)
  | 20 => some (.ftrunc h f.d.dst f.a.src)
  | 21 => (RMode.ofCode f.rm).map fun rm => .ffract h f.d.dst f.a.src rm
  | 22 => (RMode.ofCode f.rm).map fun rm => .fscale h f.d.dst f.a.src f.b.src ⟨isOne f.sat, rm⟩
  | 23 => some (.fgetexp h f.d.dst f.a.src)
  | 24 => some (.fcopysign h f.d.dst f.a.src f.b.src)
  | 32 => (NType.ofCode f.ty).bind fun ty => (RMode.ofCode f.rm).map fun rm => .hadd2 h ty f.d.dst f.a.src f.b.src ⟨isOne f.sat, rm⟩
  | 33 => (NType.ofCode f.ty).bind fun ty => (RMode.ofCode f.rm).map fun rm => .hsub2 h ty f.d.dst f.a.src f.b.src ⟨isOne f.sat, rm⟩
  | 34 => (NType.ofCode f.ty).bind fun ty => (RMode.ofCode f.rm).map fun rm => .hmul2 h ty f.d.dst f.a.src f.b.src ⟨isOne f.sat, rm⟩
  | 35 => (NType.ofCode f.ty).bind fun ty => (RMode.ofCode f.rm).map fun rm => .hfma2 h ty f.d.dst f.a.src f.b.src f.c.src ⟨isOne f.sat, rm⟩
  | 39 => (NType.ofCode f.ty).bind fun ty => (RMode.ofCode f.rm).map fun rm => .hdot2 h ty f.d.dst f.a.src f.b.src f.c.src ⟨isOne f.sat, rm⟩
  | 36 => (NType.ofCode f.ty).map fun ty => .hmin2 h ty f.d.dst f.a.src f.b.src
  | 37 => (NType.ofCode f.ty).map fun ty => .hmax2 h ty f.d.dst f.a.src f.b.src
  | 38 => (NType.ofCode f.ty).bind fun ty => (FCond.ofCode (f.sub.extractLsb' 0 3)).map fun c => .hcmp2 h ty f.d.dst c f.a.src f.b.src
  | 48 => (NType.ofCode f.ty).bind fun ty => (RMode.ofCode f.rm).bind fun rm => (NType.ofCode (f.sub.extractLsb' 1 4)).map fun sty => .cvt h ty sty (isOne (f.sub.extractLsb' 5 1)) (isOne (f.sub.extractLsb' 0 1)) f.d.hdst f.a.src ⟨isOne f.sat, rm⟩
  | 49 => (NType.ofCode f.ty).bind fun ty => (RMode.ofCode f.rm).bind fun rm => (NType.ofCode (f.sub.extractLsb' 1 4)).map fun sty => .cvt2 h ty sty (isOne (f.sub.extractLsb' 0 1)) f.d.dst f.a.src ⟨isOne f.sat, rm⟩
  | 50 => (NType.ofCode f.ty).bind fun ty => (RMode.ofCode f.rm).bind fun rm => (NType.ofCode (f.sub.extractLsb' 1 4)).map fun sty => .cvt4 h ty sty (isOne (f.sub.extractLsb' 0 1)) f.d.dst f.a.src (if (isOne (f.sub.extractLsb' 5 1)) then some f.b.src else none) ⟨isOne f.sat, rm⟩
  | 51 => (NType.ofCode f.ty).bind fun ty => (RMode.ofCode f.rm).bind fun rm => (NType.ofCode (f.sub.extractLsb' 1 4)).map fun sty => .cvt8 h ty sty (isOne (f.sub.extractLsb' 0 1)) f.d.dst f.a.src (if (isOne (f.sub.extractLsb' 5 1)) then some f.b.src else none) ⟨isOne f.sat, rm⟩
  | 52 => (NType.ofCode f.ty).bind fun ty => (RMode.ofCode f.rm).map fun rm => .qdec h ty (isOne (f.sub.extractLsb' 0 1)) f.d.dst f.a.src f.b.src f.c.src ⟨isOne f.sat, rm⟩
  | 53 => some (.qenc h f.d.dst f.a.src f.b.src f.c.src (f.imm.extractLsb' 0 3))
  | 54 => (NType.ofCode f.ty).bind fun ty => (RMode.ofCode f.rm).bind fun rm => (NType.ofCode (f.sub.extractLsb' 1 4)).map fun sty => .ftoi h ty sty (isOne (f.sub.extractLsb' 5 1)) f.d.hdst f.a.src rm
  | 55 => (NType.ofCode f.ty).bind fun ty => (RMode.ofCode f.rm).bind fun rm => (NType.ofCode (f.sub.extractLsb' 1 4)).map fun sty => .itof h ty sty (isOne (f.sub.extractLsb' 5 1)) (isOne (f.sub.extractLsb' 0 1)) f.d.hdst f.a.src ⟨isOne f.sat, rm⟩
  | 56 => (NType.ofCode f.ty).bind fun ty => (NType.ofCode (f.sub.extractLsb' 1 4)).map fun sty => .icvt h ty sty (isOne (f.sub.extractLsb' 5 1)) f.d.hdst f.a.src (isOne f.sat)
  | 64 => (NType.ofCode f.ty).map fun ty => .iadd h ty f.d.dst f.a.src f.b.src (isOne f.sat)
  | 65 => (NType.ofCode f.ty).map fun ty => .isub h ty f.d.dst f.a.src f.b.src (isOne f.sat)
  | 66 => (NType.ofCode f.ty).map fun ty => .imul h ty f.d.dst f.a.src f.b.src (isOne f.sat)
  | 68 => (NType.ofCode f.ty).map fun ty => .imad h ty f.d.dst f.a.src f.b.src f.c.src (isOne f.sat)
  | 71 => (NType.ofCode f.ty).map fun ty => .iabs h ty f.d.dst f.a.src (isOne f.sat)
  | 85 => (NType.ofCode f.ty).map fun ty => .idot4 h ty f.d.dst f.a.src f.b.src f.c.src (isOne f.sat)
  | 67 => (NType.ofCode f.ty).map fun ty => .imulh h ty f.d.dst f.a.src f.b.src
  | 69 => (NType.ofCode f.ty).map fun ty => .imin h ty f.d.dst f.a.src f.b.src
  | 70 => (NType.ofCode f.ty).map fun ty => .imax h ty f.d.dst f.a.src f.b.src
  | 78 => (NType.ofCode f.ty).map fun ty => .laneBfx h ty f.d.dst f.a.src f.b.src
  | 79 => (NType.ofCode f.ty).map fun ty => .laneBfi h ty f.d.dst f.a.src f.b.src f.c.src
  | 88 => (NType.ofCode f.ty).map fun ty => .mov h ty f.d.dst f.a.src
  | 96 => (NType.ofCode f.ty).map fun ty => .shfl h ty f.d.dst f.a.src f.b.src
  | 72 => (NType.ofCode f.ty).map fun ty => .ishl h ty f.d.dst f.a.src (if (isOne (f.sub.extractLsb' 0 1)) then .imm (f.imm.extractLsb' 0 6) else .src f.b.src)
  | 73 => (NType.ofCode f.ty).map fun ty => .ishr h ty f.d.dst f.a.src (if (isOne (f.sub.extractLsb' 0 1)) then .imm (f.imm.extractLsb' 0 6) else .src f.b.src)
  | 74 => (NType.ofCode f.ty).map fun ty => .isar h ty f.d.dst f.a.src (if (isOne (f.sub.extractLsb' 0 1)) then .imm (f.imm.extractLsb' 0 6) else .src f.b.src)
  | 75 => some (.fshl h f.d.dst f.a.src f.b.src (if (isOne (f.sub.extractLsb' 0 1)) then .imm (f.imm.extractLsb' 0 6) else .src f.c.src))
  | 76 => some (.fshr h f.d.dst f.a.src f.b.src (if (isOne (f.sub.extractLsb' 0 1)) then .imm (f.imm.extractLsb' 0 6) else .src f.c.src))
  | 77 => some (.logic3 h f.d.dst f.a.src f.b.src f.c.src (f.imm.extractLsb' 0 8))
  | 80 => some (.lanePopc h f.d.dst f.a.src)
  | 81 => some (.laneClz h f.d.dst f.a.src)
  | 82 => some (.laneBrev h f.d.dst f.a.src)
  | 83 => (NType.ofCode f.ty).bind fun ty => (ICond.ofCode (f.sub.extractLsb' 0 3)).map fun c => .icmp h ty (f.d.pdst (isOne (f.sub.extractLsb' 4 1))) c f.a.src f.b.src
  | 84 => (NType.ofCode f.ty).map fun ty => .laneSel h ty f.d.dst f.a.src f.b.src (f.imm.extractLsb' 0 4) (isOne (f.imm.extractLsb' 4 1))
  | 86 => some (.isad h f.d.dst f.a.src f.b.src f.c.src)
  | 87 => some (.iaddc h (isOne (f.sub.extractLsb' 0 1)) f.d.dst f.a.src f.b.src (f.imm.extractLsb' 0 4))
  | 89 => some (.laneMovi h f.d.dst (isOne (f.sub.extractLsb' 0 1)) f.imm)
  | 97 => (NType.ofCode f.ty).map fun ty => .shflx h ty f.d.dst f.a.src (f.imm.extractLsb' 0 5)
  | 98 => (NType.ofCode f.ty).map fun ty => .shfld h ty (isOne (f.sub.extractLsb' 0 1)) f.d.dst f.a.src (f.imm.extractLsb' 0 5)
  | 99 => (NType.ofCode f.ty).map fun ty => .bcast h ty f.d.dst f.a.src (f.imm.extractLsb' 0 5)
  | 100 => (VoteOp.ofCode (f.sub.extractLsb' 0 2)).map fun op => .vote h op f.d.dst f.a.src
  | 101 => (NType.ofCode f.ty).bind fun ty => (FoldOp.ofCode (f.sub.extractLsb' 0 3)).map fun op => .reduce h op ty f.d.dst f.a.src
  | 102 => (NType.ofCode f.ty).bind fun ty => (FoldOp.ofCode (f.sub.extractLsb' 0 3)).map fun op => .prefixOp h op (isOne (f.sub.extractLsb' 3 1)) ty f.d.dst f.a.src
  | 112 => some (.brl h (f.imm.extractLsb' 0 12) (f.imm.extractLsb' 12 12))
  | 113 => some (.join h.w)
  | 114 => some (.lend h.w)
  | 115 => some (.kill h)
  | 116 => some (.ltrap h (f.imm.extractLsb' 0 12))
  | 117 => some (.movs h f.d.dst (f.imm.extractLsb' 0 12))
  | 128 => (NType.ofCode f.ty).bind fun ty => (Order.ofCode f.od).bind fun o => (Scope.ofCode f.sc).bind fun sc => (f.maddr).map fun m => .ld h ty o sc f.d.idx (isOne f.d.x) m
  | 129 => (NType.ofCode f.ty).bind fun ty => (Order.ofCode f.od).bind fun o => (Scope.ofCode f.sc).bind fun sc => (f.maddr).map fun m => .st h ty o sc (isOne f.d.x) m f.c.src
  | 130 => (NType.ofCode f.ty).bind fun ty => (Order.ofCode f.od).bind fun o => (Scope.ofCode f.sc).map fun sc => .ldx h ty o sc f.d.idx (isOne f.d.x) ⟨f.a.src, if isOne (f.sub.extractLsb' 2 1) then some f.b.src else none, f.imm⟩
  | 131 => (NType.ofCode f.ty).bind fun ty => (Order.ofCode f.od).bind fun o => (Scope.ofCode f.sc).map fun sc => .stx h ty o sc (isOne f.d.x) ⟨f.a.src, if isOne (f.sub.extractLsb' 2 1) then some f.b.src else none, f.imm⟩ f.c.src
  | 132 => (NType.ofCode f.ty).bind fun ty => (Order.ofCode f.od).bind fun o => (Scope.ofCode f.sc).bind fun sc => (AtomOp.ofCode (f.sub.extractLsb' 2 3)).bind fun op => (f.maddr).map fun m => .atom h op ty o sc f.d.idx m f.c.src
  | 133 => (NType.ofCode f.ty).bind fun ty => (Order.ofCode f.od).bind fun o => (Scope.ofCode f.sc).bind fun sc => (AtomOp.ofCode (f.sub.extractLsb' 2 3)).map fun op => .atomx h op ty o sc f.d.idx ⟨f.a.src, if isOne (f.sub.extractLsb' 0 1) then some f.b.src else none, f.imm⟩ f.c.src
  | 134 => (NType.ofCode f.ty).bind fun ty => (Order.ofCode f.od).bind fun o => (Scope.ofCode f.sc).bind fun sc => (AtomOp.ofCode (f.sub.extractLsb' 2 3)).bind fun op => (f.maddr).map fun m => .red h op ty o sc m f.c.src
  | 135 => (Scope.ofCode f.sc).bind fun sc => (f.maddr).map fun m => .lcpy h sc m f.b.src f.c.src
  | 136 => (Scope.ofCode f.sc).map fun sc => .pref h sc (f.imm.extractLsb' 20 4) f.a.src (f.imm.extractLsb' 0 20)
  | 160 => (match f.sub.toNat with | 0 => some (.rng h f.d.dst f.a.src f.b.src) | 1 => some (.rngNext h f.d.dst) | 2 => some (.rngSeed h f.a.src f.b.src) | 3 => some (.rngCtr h f.d.dst) | 4 => some (.rngKey h f.d.dst) | _ => none)
  | 161 => (if f.sub = 0 then some (.add128l h f.d.dst f.a.src f.b.src) else some (.add128lCtr h f.a.src))
  | 176 => (AttrMode.ofCode (f.sub.extractLsb' 0 3)).map fun m => .attr h m f.d.dst (f.imm.extractLsb' 0 6)
  | 177 => some (.deriv h (isOne (f.sub.extractLsb' 0 1)) (isOne (f.sub.extractLsb' 1 1)) f.d.dst f.a.src)
  | 178 => (TexDim.ofCode (f.sub.extractLsb' 0 2)).map fun dim => .texs h dim f.d.dst f.a.src (f.imm.extractLsb' 0 16)
  | 179 => (TexDim.ofCode (f.sub.extractLsb' 0 2)).map fun dim => .texl h dim f.d.dst f.a.src f.b.src (f.imm.extractLsb' 0 16)
  | 180 => (TexDim.ofCode (f.sub.extractLsb' 0 2)).map fun dim => .texg h dim (f.sub.extractLsb' 2 2) f.d.dst f.a.src (f.imm.extractLsb' 0 16)
  | 181 => some (.texq h (isOne (f.sub.extractLsb' 0 1)) f.d.dst f.b.src (f.imm.extractLsb' 0 16))
  | 182 => some (.trace h (isOne (f.sub.extractLsb' 0 1)) f.d.dst f.a.src f.b.src (f.imm.extractLsb' 0 16))
  | 183 => (Blend.ofCode (f.sub.extractLsb' 0 2)).map fun bl => .expc h bl f.a.src (f.imm.extractLsb' 0 3)
  | 184 => some (.expz h f.a.src)
  | 192 => some (.apxenter h (f.d.idx.extractLsb' 0 4) (f.imm.extractLsb' 0 8))
  | 193 => some (.apxin h f.a.src (f.imm.extractLsb' 0 4))
  | 194 => (if f.sub = 0 then some (.apxout h f.d.dst (f.imm.extractLsb' 0 3)) else some (.apxoutProbe h f.d.dst (f.imm.extractLsb' 0 3) (f.imm.extractLsb' 8 8)))
  | 195 => some (.apxexit h (isOne (f.sub.extractLsb' 0 1)) f.a.src (f.imm.extractLsb' 0 3))
  | 200 => some (.fmma h f.d.dst f.a.src f.b.src f.c.src)
  | 201 => (NType.ofCode f.ty).bind fun ty => (f.maddr).map fun m => .fmld h ty (isOne (f.sub.extractLsb' 2 1)) (isOne (f.sub.extractLsb' 3 1)) f.d.dst m f.b.src
  | 202 => (NType.ofCode f.ty).bind fun ty => (f.maddr).map fun m => .fmst h ty (isOne (f.sub.extractLsb' 2 1)) m f.b.src f.c.src
  | _ => none

/-- The encoder of a lane word. -/
def encodeL (i : Instr) : Option LWord := (fieldsL i).map LFields.toWord

/-- R83, R88: the decoder of a lane word. -/
def decodeL (x : LWord) : Except DecodeError Instr :=
  let f := LFields.ofWord x
  match parseL f with
  | none => .error .reserved
  | some i => if fieldsL i = some f then (if i.wf then .ok i else .error .operands) else .error .unusedBits

/-- The encoder: the bytes of an instruction's word as memory holds them (R74); events have none. -/
def encode (i : Instr) : Option (List Byte) :=
  match encodeC i with
  | some x => some (leBytes 4 x.toNat)
  | none => (encodeL i).map fun x => leBytes 12 x.toNat

/-- The instruction a decoder's answer holds. -/
def DecodeError.toOption : Except DecodeError Instr → Option Instr
  | .ok i => some i
  | .error _ => none

/-- The instruction the decoder reads from a word numbered as the opcode table numbers it: 32 bits are a
control word, more are a lane word. -/
def decodeTableWord (nbits w : Nat) : Option Instr :=
  if nbits ≤ 32 then DecodeError.toOption (decodeC (BitVec.ofNat 32 (leValue (leBytes 4 w))))
  else DecodeError.toOption (decodeL (BitVec.ofNat 96 (leValue (leBytes 12 w))))

end Sys2Proof
end

