-- ==== Sys2Proof/Config.lean ====
section
/-! DEFINITION. What the manual leaves open. Every constant is opaque and has no body, so nothing can
evaluate it or prove a value of it: a statement about the model holds for every choice. The first
argument `tick` is the state's own step counter, so that two uses are two independent choices. -/

namespace Sys2Proof.Config

/-- R91, R2: the one unpredictable value. What a read of register `key` returns while a long-latency
result to it is not drained. -/
opaque unpredictable (tick key : Nat) : Word
/-- R64: which of the entries of rank 0 to 7 a HEAPTAKE returns; the model reduces it modulo the window. -/
opaque heapPick (tick : Nat) : Nat
/-- R143, R250: in which order the lanes of one word that meet at one location take effect; the model
keeps the lane numbers of the list that are below 32 and appends the others in rising order. -/
opaque laneOrder (tick : Nat) : List Nat
/-- R136, R481: whether a clean L1 line still holds its bytes when a later plain load reads it. -/
opaque l1Keeps (tick line : Nat) : Bool
/-- R383, R388: whether a TLB still holds an entry when a later access looks it up. -/
opaque tlbKeeps (tick page : Nat) : Bool
/-- R118, R309: the result of a transcendental rounding that interval arithmetic of the working precision
cannot settle (none is known in single precision). -/
opaque unsettled (fn : Nat) (x : Nat) : Word
/-- R282: an interpolated attribute lies within 1 ulp of the exact value; the offset in ulps, which the
model clamps to −1, 0, 1. -/
opaque attrUlp (lane index bits : Nat) : Int
/-- R277: the value that a vertex or viewport coordinate which is no finite number stands for: the rules of Vulkan give
none. -/
opaque looseValue (code : Nat) : Rat
/-- R291: the order in which a lane's ray follows the children of records: the n-th pick; the model reduces it modulo what is left. An
any-hit ray ends at the first accepted hit found. -/
opaque rayOrder (tick lane n : Nat) : Nat
/-- R295: the AV1 bytes of a frame (its OBUs), a function of the session's descriptor words, its reference state, whether
the frame is a keyframe, and the input. -/
opaque av1Frame (desc : List Nat) (ref : Nat) (key : Bool) (input : List Byte) : List Byte
/-- R295, R297: the reference state after a frame. -/
opaque av1Ref (desc : List Nat) (ref : Nat) (key : Bool) (input : List Byte) : Nat
/-- R180: the output of the compressor (RFC 1951 raw, LZ4 block); `fmt` 0 Deflate, 1 LZ4. -/
opaque compress (fmt : Nat) (input : List Byte) : List Byte
/-- R180: what decompressing an input that is no stream of its format gives. -/
opaque badStream (fmt : Nat) (input : List Byte) : List Byte
/-- R180: a byte below the capacity of a compression card that ends with OVERFLOW. -/
opaque overflowByte (tick offset : Nat) : Byte
/-- R180, R474: one byte of the source of another member of a collective. -/
opaque collective (tick member offset : Nat) : Byte
/-- R180: the order in which a collective combines the members' elements; the model reduces it modulo those that are left. -/
opaque collOrder (tick element step : Nat) : Nat
/-- R180: the member whose source a broadcast gives to all; the model reduces it modulo their number. -/
opaque collRoot (tick : Nat) : Nat
/-- R439: which idle engine of its kind serves a card; the model reduces it modulo their number. -/
opaque idleEngine (tick : Nat) : Nat
/-- R436: the slice to which a chunk of a departing slice moves; the model reduces it modulo their number. -/
opaque chunkHome (move chunk : Nat) : Nat
/-- R475, R477: where the firmware image of a controller begins. -/
opaque fwEntry (controller : Nat) : DWord
/-- R475, R476: the SHA-384 digest in an image's header. -/
opaque imageDigest (image : List Byte) : List Byte
/-- R475, R478: the version in an image's header. -/
opaque imageVersion (image : List Byte) : Nat
/-- R477: whether a new image supports the version of the state structure that an old one writes. -/
opaque imageReads (new old : List Byte) : Bool
/-- R475: whether both signatures of an image verify against the fused keys. -/
opaque imageValid (image : List Byte) : Bool
/-- R476: the bytes of an SPDM 1.3 response, which the SPDM specification and the device's keys fix. -/
opaque spdmResponse (tick request : Nat) : List Byte
/-- R472, R473: the bytes a peer's memory answers with. -/
opaque peerByte (tick addr : Nat) : Byte
/-- R185, R375: timing is not modelled; counts of clocks that software reads. -/
opaque clockCount (tick : Nat) : DWord
/-- R369, R370: how many of the writes that overlap a check of an object entry are performed before its n-th read; the model
keeps the reads' order. -/
opaque raceCut (tick n : Nat) : Nat
/-- R310: what SBIN leaves in a byte of the list when another agent wrote the records while it ran. -/
opaque sbinRace (tick : Nat) : Nat

/-- R328, R356: which APXEXIT word's invocations arrive next at a Sinter unit. -/
opaque inboxPick (tick : Nat) : Nat

end Sys2Proof.Config
end

