-- ==== Sys2Proof/Machine/State.lean ====
section
/-! DEFINITION. The state of the whole device, as plain data. The group that issues and its team stand in
the fields `g` and `t` (the focus); every other group and team stands in the lists `gs` and `ts`. What
moves next stands in `agenda`: the order of events, host requests and the passing of time are inputs. -/

namespace Sys2Proof.Machine

/-- R358: the four modes, in the order of their codes. -/
inductive Mode where
  | user | handler | slice | device
deriving DecidableEq, Repr, Inhabited

/-- R387: a translation register. `len` is the entry's length kept from the bind (obj = 1); `stale` marks a
register that R388 step 3 or R389 makes stale whatever its gen. `hnd` and `dup` are what the leaf of the base says (R384); `scr`
marks the binding of a handler's t15 to its scratch area (R361), which stands in no leaf. -/
structure TReg where
  oidx   : BitVec 16 := 0
  gen    : BitVec 12 := 0
  frame  : BitVec 36 := 0
  obj    : Bool := false
  sz     : BitVec 2 := 0
  rights : BitVec 2 := 0
  base   : BitVec 57 := 0
  len    : Nat := 0
  stale  : Bool := false
  hnd    : Bool := false
  dup    : Bool := false
  scr    : Bool := false
deriving DecidableEq, Repr, Inhabited

/-- A dispatch of the lane queue (R35, R70, R199): the block's lane-word address and the captured t0–t15. -/
structure Block where
  addr : Word := 0
  caps : SMap TReg := []
deriving DecidableEq, Repr, Inhabited

/-- R42: an entry of a reconvergence stack; `killed` is KilledSince (R43, R243). -/
structure StackEntry where
  jpc    : Word := 0
  ppc    : Word := 0
  pmask  : Word := 0
  rmask  : Word := 0
  killed : Word := 0
deriving DecidableEq, Repr, Inhabited

/-- Why a split does not issue: it waits for its long-latency results (W, R40), at a JOIN (R44), or at a
word whose channel, line, log or page it waits for (R86, R130, R397). -/
inductive LanePark where
  | ready | drain | join | word
deriving DecidableEq, Repr, Inhabited

/-- R363: a lane word to be executed again for some lanes only, with the channel values it had popped, if it had; `fresh` where the
word's own predicate has not been applied to the lanes (a fetch fault, a stack overflow); `act` the lanes that were active when it
first executed (R271), where it has. -/
structure Redo where
  lanes : Word := 0
  chans : Option (List Word) := none
  fresh : Bool := false
  act   : Word := 0
deriving DecidableEq, Repr, Inhabited

/-- A split (R40, R41). `ending` marks a split that has met LEND with an empty stack, or lost every lane,
and waits for its results (R46); `want` are the channels a waiting word receives from, `since` when it began (R38); `last` is
the clock in which it last issued (R411); `after` are the waiting words (`Pend.seq`) of the split it was made from, which are before
its own in group order (R139). -/
structure Split where
  idx    : Nat := 0
  pc     : Word := 0
  mask   : Word := 0
  stack  : List StackEntry := []
  park   : LanePark := .ready
  ending : Bool := false
  redo   : Option Redo := none
  since  : Nat := 0
  want   : List Nat := []
  last   : Nat := 0
  after  : List Nat := []
deriving DecidableEq, Repr, Inhabited

/-- Which stream or split asked for a long-latency result. -/
inductive Strm where
  | c
  | l (split : Nat)
deriving DecidableEq, Repr, Inhabited

/-- A destination of a long-latency result: the register's key (`Machine/Regs.lean` gives the keys), the value, and
the bits of it that the result still writes (R69, R92). -/
structure Dest where
  key  : Nat := 0
  val  : Word := 0
  bits : Word := BitVec.allOnes 32
deriving DecidableEq, Repr, Inhabited

/-- A lane word that has issued and waits, as one long-latency instruction, for channel entries or full lines while its split
goes on (R38, R86, R130): the word and its address, its active lanes, the channel values it has taken (once some of its lanes
have faulted, R211), the channels it receives from, and the vector registers and masks as it read them at issue (R209). `all` are
the lanes that were active at issue (R271); `mem` and `push` say that it accesses memory, or pushes a channel entry, and `after` are
the waiting words (`Pend.seq`) that group order puts before it (R39, R139). -/
structure Late where
  word  : LWord := 0
  pc    : Word := 0
  act   : Word := 0
  all   : Word := 0
  mem   : Bool := true
  push  : Bool := true
  after : List Nat := []
  chans : Option (List Word) := none
  want  : List Nat := []
  v     : SMap Word := []
  m     : SMap Word := []
deriving DecidableEq, Repr, Inhabited

/-- A long-latency result on its way (R90–R92): its destinations with the values they will take; `returned` once written;
`recv` for a CHRECV not yet served (R38): the channel and whether it peeks; `test` for a TSTB whose scratchpad line is empty
(R196): offset, test and mask; `late` for a lane word that still waits. `seq` is when it issued. -/
structure Pend where
  strm     : Strm := .c
  dests    : List Dest := []
  returned : Bool := false
  recv     : Option (Nat × Bool) := none
  test     : Option (Nat × TestKind × Word) := none
  late     : Option Late := none
  seq      : Nat := 0
deriving DecidableEq, Repr, Inhabited

/-- The park kinds of the C-stream (R484), `none` for a stream that is not parked. A stream parks as `drain` behind a W-marked word, and
as `again` at a word that waits for results and is then issued again (R141, R162, R363); both are kind 1. -/
inductive ParkKind where
  | none | drain | again | chsend | lrun | lwait | waitb | yieldc | sleep | teambar | gridbar
  | heaptake | heapadd | exit | engine | cpyq | held | mstat
deriving DecidableEq, Repr, Inhabited

/-- A fault (R398) with what handler entry writes (R361, R365): the code, the source, the trap code, the
split, the boundary, the address, for a lane fault each lane's code and address, the number (`Pend.seq`) of the waiting
word it is of, whether the word's predicate is still to be applied to its lanes (`Redo.fresh`), whether the word has taken
its channel values, and the lanes that were active when it first executed (`Redo.act`). -/
structure FaultInfo where
  code  : Byte := 0
  src   : BitVec 2 := 0
  tcode : BitVec 12 := 0
  split : BitVec 2 := 0
  pc    : DWord := 0
  addr  : DWord := 0
  mask  : Word := 0
  lanes : SMap (Byte × DWord) := []
  late  : Option Nat := none
  fresh : Bool := false
  taken : Bool := false
  act   : Word := 0
deriving DecidableEq, Repr, Inhabited

/-- R331: the invocation of one lane; `discarded` marks one whose observation is not sent (R333). -/
structure Invocation where
  inb       : SMap Word := []
  outb      : SMap Word := []
  tru       : SMap Word := []
  cmp       : SMap Word := []
  region    : Byte := 0
  isOpen    : Bool := false
  served    : Bool := false
  sample    : Bool := false
  discarded : Bool := false
deriving DecidableEq, Repr, Inhabited

/-- R278–R284: what a fragment group holds beside a group's state: its draw card and draw record, primitive index,
clip-space vertices and attributes, whether it faces the front; per lane the pixel, the covered-sample mask, the killed
flag and what it exported. -/
structure Frag where
  card   : Nat := 0
  prim   : Nat := 0
  draw   : List Word := []
  front  : Bool := true
  verts  : List Word := []
  attrs  : List (List Word) := []
  pix    : SMap (Nat × Nat) := []
  cov    : SMap Nat := []
  killed : Word := 0
  colors : List (Nat × Nat × Blend × List Word) := []
  depth  : SMap Word := []
deriving DecidableEq, Repr, Inhabited

/-- R65: what a parked HEAPADD waits to insert, and what the heap has given a parked HEAPTAKE, or taken from a parked HEAPADD: key and
value. -/
structure HeapWait where
  put : Option (Word × Word) := none
  got : Option (Word × Word) := none
deriving DecidableEq, Repr, Inhabited

/-- R365, R366: the hs registers. -/
structure HsRegs where
  cause : Word := 0
  pc    : DWord := 0
  lmask : Word := 0
  addr  : DWord := 0
deriving DecidableEq, Repr, Inhabited

/-- A group (R34, R67, R418), or a controller core when `mode` is slice or device (R358): a controller
core is a stream with the scalar registers of R67 that runs firmware on the slice of its team's core. `upc`
and `upark` keep the user C-stream's place while the handler runs (R361), and `usleep`, `uarrived`, `uwaitBar`, `ubarLost`, `uheap` what its
parked word has noted (`sleepEnd`, `arrived`, `waitBar`, `barLost`, `heapW`). `curSplit` is
the split whose word is tried, or 16 + k for the waiting word of result k; `curWord` is that word. `hlate`, `hfresh` and `hact` are
the `late`, `fresh` and `act` of the fault that the handler serves. `waitBar` is the barrier a WAITB or YIELDC waits on, `waitBank` the bank (cluster, number) that a parked matrix word waits for (R451), `barLost` that it became invalid meanwhile
(R160); `arrived` that the parked TEAMBAR or GRIDBAR has been counted (R205); `yieldTo` the groups that a YIELD lets issue first
(R204). `badRegs` are the vector-register elements (32 r + lane) with an uncorrectable error that no word has met yet (R270,
R401); `lost` marks a group whose state an error has taken. `lastC` is the clock in which the C-stream last issued (R411). -/
structure Group where
  uid      : Nat := 0
  live     : Bool := false
  ended    : Bool := false
  frozen   : Bool := false
  halted   : Bool := false
  mode     : Mode := .user
  ctx      : Nat := 0
  team     : Nat := 0
  gid      : BitVec 4 := 0
  role     : BitVec 2 := 0
  budget   : Nat := 8
  slot     : Nat := 0
  pc       : DWord := 0
  s        : SMap Word := []
  hb       : SMap Word := []
  q        : BitVec 8 := 1
  hq7      : Bool := false
  v        : SMap Word := []
  m        : SMap Word := []
  m15user  : Word := 0
  gsr      : BitVec 10 := 0
  tr       : SMap TReg := []
  ht15     : TReg := {}
  ch16     : List Word := []
  ch17     : List Word := []
  laneq    : List Block := []
  hlaneq   : List Block := []
  splits   : List Split := []
  hsplits  : List Split := []
  curSplit : Nat := 0
  curWord  : LWord := 0
  fmt      : QWord := 0
  srKey    : DWord := 0
  srCtr    : SMap QWord := []
  inv      : SMap Invocation := []
  hs       : HsRegs := {}
  hl       : SMap (Byte × DWord) := []
  hchans   : Option (List Word) := none
  hlate    : Option Nat := none
  hfresh   : Bool := false
  hact     : Word := 0
  pend     : List Pend := []
  park     : ParkKind := .none
  parkSeq  : Nat := 0
  upc      : DWord := 0
  upark    : ParkKind := .none
  barCnt   : Nat := 0
  gridCnt  : Nat := 0
  arrived  : Bool := false
  waitBar  : Option Nat := none
  waitBank : Option (Nat × Nat) := none
  barLost  : Bool := false
  yieldTo  : List Nat := []
  claim    : Option DWord := none
  exitto   : Option (DWord × Word) := none
  exiting  : Bool := false
  sleepEnd : Option Nat := none
  usleep   : Option Nat := none
  uarrived : Bool := false
  uwaitBar : Option Nat := none
  ubarLost : Bool := false
  heapW    : HeapWait := {}
  uheap    : HeapWait := {}
  badRegs  : List Nat := []
  lost     : Bool := false
  faults   : List FaultInfo := []
  apxRegion : Option Byte := none
  lastC    : Nat := 0
  frag     : Option Frag := none
deriving DecidableEq, Repr, Inhabited

/-- R304, R483: a command of a team's Flowstone sequence. `binned` holds what SBIN has read of the projected records
(index, depth bits, id, box), `bads` the records with uncorrectable errors, `raced` whether another reading of one differed
(R310); `adds` and `status` what SGRAD's read stage has formed (R316); `seq` is when the command issued (R306). -/
structure SplatCmd where
  fn      : BitVec 2 := 0
  gid     : BitVec 4 := 0
  cpc     : DWord := 0
  run     : List Word := []
  bar     : Nat := 0
  started : Bool := false
  fields  : List Word := []
  camera  : List Word := []
  charge  : Nat := 0
  next    : Nat := 0
  phase   : Nat := 0
  cnt     : Nat := 0
  flags   : BitVec 5 := 0
  nrep    : Nat := 0
  kfirst  : Nat := 0
  opnd    : Nat := 0
  addIdx  : Nat := 0
  inAdd   : Bool := false
  stopped : Bool := false
  binned  : List (Nat × Nat × Nat × List Nat) := []
  bads    : List Nat := []
  raced   : Bool := false
  seq     : Nat := 0
  adds    : List (Nat × Nat × Word) := []
  status  : List Byte := []
deriving DecidableEq, Repr, Inhabited

/-- A team (R28, R416, R417): its header, its place, its scratchpad window with the empty lines (R130) and the lines that an
error has taken (`lostL`, R401), its channels, and its Flowstone sequence (R306). `ppos` is its core: 8 × cluster + core, cluster = 16 × device
slice + position. -/
structure Team where
  uid     : Nat := 0
  live    : Bool := false
  ctx     : Nat := 0
  ngrp    : Nat := 1
  cores   : Bool := false
  chain   : Bool := false
  l1fuse  : Bool := false
  roof    : Bool := false
  card    : Nat := 0
  cardAddr : DWord := 0
  lin     : Nat := 0
  qidx    : Nat := 0
  qslice  : Nat := 0
  gx      : Nat := 1
  gy      : Nat := 1
  gz      : Nat := 1
  ltext   : DWord := 0
  entry   : DWord := 0
  attr    : DWord := 0
  constB  : DWord := 0
  ppos    : Nat := 0
  wsize   : Nat := 0
  sp      : SMap Byte := []
  emptyL  : List Nat := []
  lostL   : List Nat := []
  chans   : SMap (List Word) := []
  splat   : List SplatCmd := []
  started : Nat := 0
  softReq : Option Nat := none
  hardAt  : Option Nat := none
  laddered : Bool := false
  frozen  : Bool := false
  lastIssue : Nat := 0
  ended   : Bool := false
  succ    : Option (DWord × Word) := none
  regs    : Nat := 0
  startAt : Nat := 0
deriving DecidableEq, Repr, Inhabited

/-- R164–R168: what a copy moves: rows (raw), a shape, a gather of rows, or one LCPY element. -/
inductive CopyPlan where
  | rows (bytes n : Nat) (sstride dstride : Int)
  | shape (elem : Nat) (ext : List Nat) (ss ds : List Int)
  | gather (bytes stride : Nat) (idx : List Nat)
deriving DecidableEq, Repr

/-- The space of one end of a copy; a leased roof store is `roof` of the lender's cluster. -/
inductive CopySpace where
  | glob | sp | roof (cluster : Nat)
deriving DecidableEq, Repr, Inhabited

/-- A copy in flight (R150, R163, R421): issued by a group, or by a card (`card`); `done` counts the bytes
delivered; `fault` holds the code and address it stopped on. -/
structure Copy where
  id     : Nat := 0
  ctx    : Nat := 0
  team   : Nat := 0
  gid    : BitVec 4 := 0
  cpc    : DWord := 0
  slice  : Nat := 0
  card   : Option Nat := none
  bar    : Nat := 0
  src    : CopySpace := .glob
  dst    : CopySpace := .glob
  sbase  : Int := 0
  dbase  : Int := 0
  plan   : CopyPlan := .rows 1 1 0 0
  total  : Nat := 0
  done   : Nat := 0
  fault  : Option (Byte × DWord) := none
  frozen : Bool := false
  user   : Bool := true
deriving DecidableEq, Repr

/-- R483: the commands of the matrix queue. -/
inductive MKind where
  | mloop | mconv | mstore | mzero
deriving DecidableEq, Repr, Inhabited

/-- R258, R263, R483: a command of a matrix engine's queue. -/
structure MCmd where
  kind    : MKind := .mzero
  team    : Nat := 0
  ctx     : Nat := 0
  gid     : BitVec 4 := 0
  cpc     : DWord := 0
  fmt     : QWord := 0
  run     : List Word := []
  ctl     : Word := 0
  bank    : Nat := 0
  bar     : Nat := 0
  tr      : TReg := {}
  conv    : List Word := []
  next    : Nat := 0
  fault   : Option (Byte × DWord) := none
  under   : Bool := false
deriving DecidableEq, Repr, Inhabited

/-- R123, R256: an accumulator bank and its bank state. Element (i, j) has key 256 i + j; `bad` are the elements that an
uncorrectable error has met (R401). -/
structure Bank where
  acc    : SMap Word := []
  bad    : List Nat := []
  flags  : BitVec 5 := 0
  nrep   : Nat := 0
  kfirst : Nat := 0
  opnd   : Nat := 0
  pos    : Nat := 0
  stfirst : Nat := 0
  steps  : Nat := 0
  kcount : Nat := 0
  rowmask : QWord := BitVec.allOnes 128
  holder : Option Nat := none
  ctx    : Nat := 0
deriving DecidableEq, Repr, Inhabited

/-- R269: the latest MLOOP or MCONV a group issued on a bank: whether it is stopped or abandoned, and the steps it has committed. -/
structure LastLoop where
  team  : Nat := 0
  gid   : BitVec 4 := 0
  bank  : Nat := 0
  stop  : Bool := false
  steps : Nat := 0
deriving DecidableEq, Repr, Inhabited

/-- R324: the states of a Sinter slot, in the order of their codes. -/
inductive SlotState where
  | off | observe | train | serve | fallback | invalid
deriving DecidableEq, Repr, Inhabited

/-- R321, R325, R336: a Sinter slot with the descriptor fields it was bound with. -/
structure Slot where
  ctx     : Nat := 0
  region  : Byte := 0
  descIdx : BitVec 16 := 0
  desc    : List Word := []
  state   : SlotState := .off
  weights : List Word := []
  batch   : List (List Word × List Word) := []
  conf    : Nat := 0
  window  : List Word := []
  samples : Nat := 0
  ctr     : Word := 0
  updates : Nat := 0
deriving DecidableEq, Repr, Inhabited

/-- R328: a closed real invocation on its way to the Sinter unit; `word` is when its APXEXIT word executed. -/
structure Arrival where
  ctx    : Nat := 0
  region : Byte := 0
  inp    : List Word := []
  tru    : List Word := []
  cmp    : List Word := []
  sample : Bool := false
  word   : Nat := 0
deriving DecidableEq, Repr, Inhabited

/-- A cluster (R14): the matrix engine and its queue, the roof store and its owner (R272), the chimneys
(R273), the power gate of the roof domain (R275), the Sinter unit (R321). `badRoof` are the bytes of the roof store that an
uncorrectable error has taken, as offsets and lengths within one 32-byte sector; `roofData` is the context that has left and whose data the store holds until another owns it
(R419). `id` = 16 × device slice + position. -/
structure Cluster where
  id      : Nat := 0
  queue   : List MCmd := []
  bank0   : Bank := {}
  bank1   : Bank := {}
  last    : List LastLoop := []
  mfrozen : Bool := false
  roof    : SMap Byte := []
  badRoof : List (Nat × Nat) := []
  roofOwner : Option Nat := none
  roofData : Option Nat := none
  areaDue : List (Nat × Nat) := []
  chim    : List (List (List Word)) := [[], [], [], []]
  chimOwner : List Nat := [0, 0, 0, 0]
  gateReq : Bool := false
  gated   : Bool := false
  wakeAt  : Option Nat := none
  slots   : List (Option Slot) := List.replicate 8 none
  inbox   : List Arrival := []
  sfrozen : Bool := false
  fused   : Bool := false
deriving DecidableEq, Repr, Inhabited

/-- R332: a write of n bytes at a key that a context made through its own mapping, at a virtual address of a guard region. -/
structure GuardWrite where
  ctx : Nat := 0
  va  : Nat := 0
  key : Nat := 0
  n   : Nat := 0
deriving DecidableEq, Repr, Inhabited

/-- R397: what writes: a group's C-stream, a split, a word that has waited (its `Pend.seq`), a copy, the head command of a
matrix bank, a team's Flowstone sequence, a card, a slice controller, an encoder lane. -/
inductive Writer where
  | c (uid : Nat)
  | l (uid split : Nat)
  | late (uid seq : Nat)
  | copy (id : Nat)
  | matrix (cluster bank : Nat)
  | splat (team : Nat)
  | card (id : Nat)
  | control (slice : Nat)
  | encoder (slice : Nat)
deriving DecidableEq, Repr, Inhabited

/-- R134, R136, R149: the L1 of one core (or the fused L1 of a cluster): dirty bytes with the scope of their
store, clean lines by line number, lines in the pending-duplicate state with their context, the bytes of such lines that are
performed on the master but not yet acknowledged (`held`, under the master's keys), the poisoned sectors of which one
store wrote every byte while it stands here (R401), and the dirty bytes stored through a mapping to a guard region (`guards`,
as in `State.guardW`). `id` = 8 × cluster + core (7 fused). -/
structure L1 where
  id    : Nat := 0
  dirty : SMap (Byte × Scope) := []
  held  : SMap Byte := []
  clean : SMap (SMap Byte) := []
  dup   : List (Nat × Nat) := []
  whole : List Nat := []
  guards : List GuardWrite := []
deriving DecidableEq, Repr, Inhabited

/-- R402: a queue descriptor, with the base and n the controller took (R171), the indices it has admitted
and completed (R174), its credit, and since when which candidate (card order, linear number) waits (R409). -/
structure QDesc where
  en      : Bool := false
  cls     : Bool := false
  raster  : Bool := false
  chainok : Bool := false
  qgroup  : BitVec 4 := 0
  weight  : Byte := 1
  vsync   : Bool := false
  ctx     : BitVec 6 := 0
  hdr     : DWord := 0
  dl      : DWord := 0
  period  : Word := 0
  starve  : BitVec 16 := 0
  misses  : DWord := 0
  synth   : DWord := 0
  base    : DWord := 0
  logn    : Nat := 3
  nextAdm : Nat := 0
  retire  : Nat := 0
  fin     : List Nat := []
  credit  : Int := 0
  waitAt  : Option (Nat × Nat × Nat) := none
deriving DecidableEq, Repr, Inhabited

/-- The life of a card (R174–R178). -/
inductive CardPhase where
  | admitted | started | done
deriving DecidableEq, Repr, Inhabited

/-- R53, R179: an accepted launch: the descriptor's fields and the teams still to start; of a draw, the fragment group that is
next to start (`ready`, R278), once the front end has made it. -/
structure Launch where
  entry  : DWord := 0
  ltext  : DWord := 0
  ngrp   : Nat := 1
  roles  : List (Nat × Nat) := []
  smem   : Nat := 0
  attr   : DWord := 0
  gx     : Nat := 1
  gy     : Nat := 1
  gz     : Nat := 1
  constB : DWord := 0
  args   : DWord := 0
  next   : Nat := 0
  last   : SMap Nat := []
  draw   : List Word := []
  prim   : Nat := 0
  chunk  : Nat := 0
  frags  : Nat := 0
  commit : Nat := 0
  ready  : Option Frag := none
  held   : List Frag := []
deriving DecidableEq, Repr, Inhabited

/-- A card in a queue (R175): admitted by controller `slice` (device index) from queue `queue` at index `idx`.
`regions` are its footprint (write, n, address). `order` is its admission order in the queue group. -/
structure Card where
  id      : Nat := 0
  vf      : Nat := 0
  slice   : Nat := 0
  queue   : Nat := 0
  qgroup  : BitVec 4 := 0
  idx     : Nat := 0
  slots   : Nat := 1
  addr    : DWord := 0
  ctx     : Nat := 0
  words   : List Word := []
  regions : List (Bool × Nat × Nat) := []
  bad     : Bool := false
  phase   : CardPhase := .admitted
  status  : Byte := 0
  order   : Nat := 0
  launch  : Option Launch := none
  cls     : Bool := false
  raster  : Bool := false
  chainok : Bool := false
  pos     : Nat := 0
  engine  : Option Nat := none
deriving DecidableEq, Repr, Inhabited

/-- R63: a task-heap entry; `seq` is the order of its HEAPADD. -/
structure HeapEntry where
  ctx : Nat := 0
  key : Word := 0
  val : Word := 0
  seq : Nat := 0
deriving DecidableEq, Repr, Inhabited

/-- R399: an escalation record. -/
structure Record where
  code   : Byte := 0
  inner  : Byte := 0
  handle : Word := 0
  cause  : Word := 0
  pasid  : BitVec 20 := 0
  pc     : DWord := 0
  addr   : DWord := 0
deriving DecidableEq, Repr, Inhabited

/-- R297: an encode session held by an encoder lane: its reference state (`ref`), whether no frame of it has been encoded
yet, the frames since its last keyframe, and when it was last bound. -/
structure EncSession where
  ctx   : Nat := 0
  idx   : BitVec 16 := 0
  ref   : Nat := 0
  fresh : Bool := true
  since : Nat := 0
  lastB : Nat := 0
deriving DecidableEq, Repr, Inhabited

/-- R296: a frame bound to a barrier (`team`, `bar`) or to an encode card: its session's descriptor as read, the
completions since the binding (`released`), the tile rows read and their bytes. -/
structure EncBind where
  ctx      : Nat := 0
  idx      : BitVec 16 := 0
  desc     : List Word := []
  key      : Bool := false
  base     : DWord := 0
  team     : Nat := 0
  gid      : BitVec 4 := 0
  cpc      : DWord := 0
  bar      : Nat := 0
  card     : Option Nat := none
  released : Nat := 0
  rows     : Nat := 0
  input    : List Byte := []
deriving DecidableEq, Repr, Inhabited

/-- A slice (R14) with its controller: state 0 free, 1 in a partition, 4 zeroing before it is free (R438); `resetting` from a reset until it
admits work again (R449). `clk0`
is the arithmetic clock of its last reset (R185). -/
structure Slice where
  id       : Nat := 0
  state    : Nat := 0
  vf       : Nat := 0
  queues   : SMap QDesc := []
  heap     : List HeapEntry := []
  escal    : List Record := []
  throttle : Nat := 16
  goodWin  : Nat := 0
  allowed  : Nat := 0
  corr     : DWord := 0
  uncorr   : DWord := 0
  cause    : Byte := 0
  sessions : List EncSession := []
  binds    : List EncBind := []
  encFrozen : Bool := false
  cpyFrozen : List Nat := []
  splFrozen : List Nat := []
  draining : Bool := false
  resetting : Bool := false
  clk0     : Nat := 0
deriving DecidableEq, Repr, Inhabited

/-- R386: a context's translation block. -/
structure XBlock where
  root    : BitVec 48 := 0
  gen     : Word := 0
  dstride : BitVec 48 := 0
  ptwin   : BitVec 57 := 0
  pool    : BitVec 57 := 0
deriving DecidableEq, Repr, Inhabited

/-- R403: a context's scheduling block. -/
structure SBlock where
  sump  : DWord := 0
  nslot : BitVec 16 := 0
  nclu  : BitVec 16 := 0
  grace : BitVec 16 := 250
  kill  : BitVec 16 := 10
  wdog  : Word := 2000
  hscr  : DWord := 0
deriving DecidableEq, Repr, Inhabited

/-- A TLB entry (R383, R385, R390): the leaf that covers `va`, its size code and the dirty bit it records. -/
structure TlbEntry where
  va   : Nat := 0
  ent  : DWord := 0
  size : Nat := 0
  d    : Bool := false
deriving DecidableEq, Repr, Inhabited

/-- A context, that is one interface of a VF (R430): number 64 × vf + interface. -/
structure Ctx where
  id      : Nat := 0
  pasid   : BitVec 20 := 0
  xb      : XBlock := {}
  sb      : SBlock := {}
  hvec    : DWord := 0
  hlbase  : DWord := 0
  ucnt    : Bool := false
  otab    : DWord := 0
  ocount  : BitVec 17 := 0
  quota   : Nat := 0
  cnt     : SMap DWord := []
  sel     : SMap Byte := []
  snapGen : DWord := 0
  clkOff  : DWord := 0
  ways    : SMap (BitVec 16) := []
  crit    : SMap Nat := []
  bwMiss  : DWord := 0
  tlb     : List TlbEntry := []
  frozen  : Bool := false
  quiesce : Bool := false
  savedSl : SMap Slot := []
deriving DecidableEq, Repr, Inhabited

/-- R469: a mailbox event. -/
structure MEvent where
  code : Byte := 0
  vf   : Byte := 0
  time : DWord := 0
  op0  : DWord := 0
  op1  : DWord := 0
deriving DecidableEq, Repr, Inhabited

/-- R469: a function's mailbox; `busy` while a command is in progress, on the code, tag and operands read at
its go (`run`), `stage` how far it has come, `seq` when it came. -/
structure Mailbox where
  code   : Byte := 0
  tag    : Byte := 0
  ops    : SMap DWord := []
  status : Byte := 0
  rtag   : Byte := 0
  done   : Bool := false
  result : DWord := 0
  ehead  : BitVec 3 := 0
  etail  : BitVec 3 := 0
  events : SMap MEvent := []
  dropped : Word := 0
  busy   : Bool := false
  run    : Byte × Byte × List DWord := (0, 0, [])
  stage  : Nat := 0
  seq    : Nat := 0
deriving DecidableEq, Repr, Inhabited

/-- R436: what a SPLIT did to the chunk map: chunks from `lim` to `hi` went, those below it on other slices than `stay` moved; `segs` are the
segments of the map before it. -/
structure ChunkMove where
  seq  : Nat := 0
  lim  : Nat := 0
  hi   : Nat := 0
  stay : List Nat := []
  segs : List (Nat × List Nat) := []
deriving DecidableEq, Repr, Inhabited

/-- A virtual function (R429): its partition, engines (R439), virtual display (R299: its period, and when its next vertical
sync comes, in ns) and dirty log (R396). `chunks` are the
segments of the chunk map (first chunk, slices of the round robin, R431, R434), `moves` the SPLITs since, the latest first
(R436). -/
structure Vf where
  id      : Nat := 0
  present : Bool := false
  first   : Nat := 0
  j       : Nat := 0
  coll    : BitVec 4 := 0
  comp    : BitVec 2 := 0
  frozen  : Bool := false
  resize  : Bool := false
  ncluMax : Nat := 0
  chunks  : List (Nat × List Nat) := []
  moves   : List ChunkMove := []
  logHdr  : Nat := 0
  logFull : Bool := false
  vperiod : Nat := 0
  vnext   : Nat := 0
  faultCards : DWord := 0
deriving DecidableEq, Repr, Inhabited

/-- R440: a lease record; state 0 free, 1 starting, 2 active, 3 revoking. -/
structure Lease where
  lslice : Nat := 0
  lpos   : Nat := 0
  vf     : Nat := 0
  intf   : Nat := 0
  pslice : Nat := 0
  state  : Nat := 0
  limit  : DWord := 0
  meter  : DWord := 0
  start  : DWord := 0
deriving DecidableEq, Repr, Inhabited

/-- R455, R460: a checkpoint record: its data at hand, or the frame (device key and size) that the stream has still to read. -/
structure CkptRec where
  kind  : Byte := 0
  flags : Nat := 0
  rkey  : DWord := 0
  data  : List Byte := []
  frame : Option (Nat × Nat) := none
  off   : Nat := 0
  len   : Nat := 0
  crc   : Word := 0
deriving DecidableEq, Repr

/-- What R418's record has no place for and a saved group keeps: the group as it was saved, of which a restore takes what
the record does not hold (the user C-stream's place while the handler runs, the receives and words that still wait, …). -/
structure Kept where
  key : Nat := 0
  g   : Group := {}
deriving DecidableEq, Repr

/-- What R416's slot has no place for and a saved team keeps (`key` is its slot): the team as it was saved, the
descriptors its queued commands had read, the latest loops of its groups (R269), and the context's generation (R389). -/
structure KeptTeam where
  key   : Nat := 0
  t     : Team := {}
  cmds  : List MCmd := []
  last  : List LastLoop := []
  binds : List EncBind := []
  gen   : Word := 0
deriving DecidableEq, Repr

/-- What R460's records have no place for and a restore needs (R462), of the manifest in a slot of host memory with a
generation: what its saved groups and teams keep (keys from the first slot's start), its saved Sinter slots, the cards that its slices
had admitted and not completed, and how far its queues had come (by the key of their records). -/
structure Manifest where
  host  : Nat := 0
  gen   : DWord := 0
  kept  : List Kept := []
  keptT : List KeptTeam := []
  slots : SMap Slot := []
  cards : List Card := []
  queues : SMap QDesc := []
deriving DecidableEq, Repr

/-- R455, R456: a frame (device key and length) as the stream has read it, or as it stood before a write to it; `bad` where poison stood
in it. -/
structure Snap where
  frame : Nat × Nat := (0, 0)
  bytes : List Byte := []
  bad   : Bool := false
deriving DecidableEq, Repr

/-- R453–R458: a checkpoint stream: the context, the slot it writes, the records, the frames not yet copied, and what was read of the
others, or of one before a write to it. -/
structure Ckpt where
  ctx      : Nat := 0
  fn       : Nat := 0
  slot     : Nat := 0
  cap      : Nat := 0
  gen      : DWord := 0
  tcut     : DWord := 0
  nsl      : Nat := 0
  recs     : List CkptRec := []
  uncopied : List (Nat × Nat) := []
  snaps    : List Snap := []
  pasid    : BitVec 20 := 0
  keep     : Manifest := {}
deriving DecidableEq, Repr

/-- R476: m := SHA-384(m ## digest): what a measurement register becomes when an image starts. -/
def extendMeasure (m img : List Byte) : List Byte := sha384 (m ++ Config.imageDigest img)

/-- The firmware of a controller (R475–R477): the active image slot, the two images in flash with their validity, the
measurement register (of a running controller: extended once, by its first image), and an update: 1 the new image has started (`since`),
2 its heartbeat has come, 3 it was rolled back. -/
structure Fw where
  active  : Nat := 0
  img0    : List Byte := []
  img1    : List Byte := []
  ok0     : Bool := true
  ok1     : Bool := false
  measure : List Byte := extendMeasure (List.replicate 48 0) []
  update  : Nat := 0
  since   : Nat := 0
deriving DecidableEq, Repr, Inhabited

/-- R401, R450: where an error of the stored bits is found: a sector of memory (its slice, key / 32), a clean or a dirty line
of an L1, the registers, channel entries, format blocks or Sinter state of a group, a line of a scratchpad window, the weights
of a Sinter slot, an accumulator element (key 256 i + j), the L2 tags, controller or queue state of a slice; or one that
was corrected, in a context's data. `reg` (element 32 r + lane) and `roof` (bytes of one sector) are errors that the next access finds. -/
inductive Upset where
  | sector (slice sec : Nat)
  | cleanLine (core line : Nat)
  | dirtyLine (core line : Nat)
  | group (uid : Nat)
  | reg (uid elem : Nat)
  | window (team line : Nat)
  | roof (cluster off n : Nat)
  | weights (cluster slot : Nat)
  | accum (cluster bank elem : Nat)
  | control (slice : Nat)
  | tags (core line : Nat)
  | corrected (slice ctx : Nat)
deriving DecidableEq, Repr

/-- R158, R159: an engine decrement of k bytes by a command of a team's group, for the barrier at an offset of its window. -/
structure Decr where
  uid   : Nat := 0
  slice : Nat := 0
  ctx   : Nat := 0
  bar   : Nat := 0
  pc    : DWord := 0
  gid   : BitVec 4 := 0
  k     : Nat := 0
deriving DecidableEq, Repr, Inhabited

/-- What moves next: a C-stream word or a lane word (of split n) of the focus, a change of focus, an event or
command, the report of a slice controller's fault (R359), an L1 line that leaves the L1, time that passes, an error of the
stored bits, a write to device memory by another agent that overlaps the next step (R369, R370), engine events whose decrements
fall in one bank clock (R159), the driver's setting of a partition's virtual display: its period and the instant of its next
vertical sync (R299), the controller's mapping of a context's table window (R391), a read of a mailbox register (R469), the moment
at which a slice that was reset admits work again (R449), the end of bring-up (R478), and what the device manager sets: the peer number
and the peers' windows (R471), and the queue pairs of the virtual functions (R474). -/
inductive Action where
  | issueC
  | issueL (split : Nat)
  | select (group : Nat)
  | event (i : Instr)
  | ctlFault (slice code : Nat)
  | evict (core line : Nat)
  | time (ns clocks : Nat)
  | upset (u : Upset)
  | overlap (key : Nat) (bytes : List Byte)
  | together (es : List Instr)
  | display (vf period next : Nat)
  | window (ctx : Nat)
  | mailRead (fn off : Nat)
  | sliceReady (slice : Nat)
  | trained
  | peerNumber (domain peer : Nat)
  | peerWindows (ws : List (Nat × Nat × Nat))
  | queuePairs (qs : List (Nat × Nat × Nat))
deriving DecidableEq, Repr

/-- Memory: (address, byte) pairs in canonical form (`Memory.wf`, Safety.lean); an unlisted address reads as 0. -/
abbrev Memory := List Host.Cell

/-- R423: a word that has issued in the present clock: its group, its split (none of the C-stream), its core and its context. -/
structure Issued where
  group : Nat := 0
  split : Option Nat := none
  core  : Nat := 0
  ctx   : Nat := 0
deriving DecidableEq, Repr

/-- The state of the device. `issued` are the words that have issued in the present clock (R423). `devState` is REPORT's (R452), `mgrDown` that the device manager does not run (R359, R478). `peers` are the
window registers (base and length in host memory, peer), `peerId` the domain and the own peer number (R471), `qpairs` the queue pairs
allotted to virtual functions (first, count, VF; R474). `race` are the writes of other agents that overlap the next step (R369, R370); `extCpyq` the ring
places (device slice, queue, index) of cards that a CPYQ wrote with ext = 1 (R170); `owed` the bytes that a controller has
still to write while a full dirty log holds them (context, slice, address, bytes; R174, R176, R397). `logq` are the writers that
a full log holds, in the order they parked (R397). `writer`, `logHeld` and `guardW` live for one step: what writes, whether the
log has held it, and its writes to guard regions (R332); `decs`, while engine events of one bank clock run, are their decrements
(R159). -/
structure State where
  tick     : Nat
  now      : Nat
  clk      : Nat
  issued   : List Issued
  mhz      : Nat
  agenda   : List Action
  turn     : Nat
  powered  : Bool
  devState : Nat
  mgrDown  : Bool
  g        : Group
  t        : Team
  gs       : List Group
  ts       : List Team
  mem      : Memory
  hostMem  : Memory
  poison   : List Nat
  copies   : List Copy
  clusters : List Cluster
  l1s      : List L1
  slices   : List Slice
  ctxs     : List Ctx
  vfs      : List Vf
  mboxes   : SMap Mailbox
  cards    : List Card
  leases   : List Lease
  ckpts    : List Ckpt
  manifests : List Manifest
  fws      : SMap Fw
  cmask    : SMap (BitVec 16)
  chmask   : SMap (BitVec 16)
  peers    : List (Nat × Nat × Nat)
  peerId   : Nat × Nat
  qpairs   : List (Nat × Nat × Nat)
  lost     : List Nat
  ports    : BitVec 16
  snoopErr : Nat
  snoopSet : Nat
  snoopRec : Nat
  reports  : Nat
  msix     : List (Nat × Nat)
  spdm     : List Byte
  linkResp : List Byte
  linkOk   : Bool
  engDone  : SMap DWord
  log      : List (Byte × Nat × Nat × Nat × DWord × DWord)
  nextId   : Nat
  kept     : List Kept
  keptT    : List KeptTeam
  redir    : List (Nat × Nat)
  holds    : List (Nat × Nat × Nat × Nat × Nat)
  race     : List (Nat × List Byte)
  extCpyq  : List (Nat × Nat × Nat)
  owed     : List (Nat × Nat × DWord × List Byte)
  logq     : List (Nat × Writer)
  writer   : Option Writer
  logHeld  : Bool
  guardW   : List GuardWrite
  decs     : Option (List Decr)
deriving DecidableEq, Repr

/-- Why the machine stops. -/
inductive Fault where
  /-- Raised by every step but POWER_ON when the device is powered down (R479: it keeps no state at all
  and wakes only by bring-up). Safe: the machine stops where the hardware does nothing. -/
  | poweredDown
deriving DecidableEq, Repr

/-- Why an instruction has no meaning. -/
inductive Refusal where
  /-- Raised by an arm of `exec` whose instruction is not modelled. Safe: nothing can be proved about it. -/
  | notModelled (mnemonic : String)
deriving DecidableEq, Repr

/-- The machine right after a device-level reset: bring-up (R478) has ended, memory is zeroed, no partition
exists, no group is resident, and every register of R3–R479 reads its reset value. -/
def State.reset : State where
  tick := 0
  now := 0
  clk := 0
  issued := []
  mhz := 1200
  agenda := []
  turn := 0
  powered := true
  devState := 0
  mgrDown := false
  g := {}
  t := {}
  gs := []
  ts := []
  mem := []
  hostMem := []
  poison := []
  copies := []
  clusters := []
  l1s := []
  slices := []
  ctxs := []
  vfs := []
  mboxes := []
  cards := []
  leases := []
  ckpts := []
  manifests := []
  fws := []
  cmask := []
  chmask := []
  peers := []
  peerId := (0, 0)
  qpairs := []
  lost := []
  ports := 0xFFFF
  snoopErr := 0
  snoopSet := 0
  snoopRec := 0
  reports := 0
  msix := []
  spdm := []
  linkResp := []
  linkOk := true
  engDone := []
  log := []
  nextId := 1
  kept := []
  keptT := []
  redir := []
  holds := []
  race := []
  extCpyq := []
  owed := []
  logq := []
  writer := none
  logHeld := false
  guardW := []
  decs := none

end Sys2Proof.Machine
end

