-- ==== Sys2Proof/Machine/SMap.lean ====
section
/-! DEFINITION. The operations of sparse maps: every read and write of a register file, a vector register,
a window or a memory goes through these. `d` is the map's default value, what an unlisted key reads as. -/

namespace Sys2Proof.Machine

/-- The value at key `k`. -/
def SMap.get {β : Type} (d : β) : SMap β → Nat → β
  | [], _ => d
  | (j, v) :: m, k => if k = j then v else SMap.get d m k

/-- The entry at key `k`, if one is listed. -/
def SMap.find {β : Type} : SMap β → Nat → Option β
  | [], _ => none
  | (j, v) :: m, k => if k = j then some v else SMap.find m k

/-- Removes the entry at key `k`. -/
def SMap.erase {β : Type} (m : SMap β) (k : Nat) : SMap β := m.filter fun e => e.1 ≠ k

/-- Lists `v` at key `k`, in order. -/
def SMap.insert {β : Type} : SMap β → Nat → β → SMap β
  | [], k, v => [(k, v)]
  | (j, u) :: m, k, v =>
    if k = j then (k, v) :: m else if k < j then (k, v) :: (j, u) :: m else (j, u) :: SMap.insert m k v

/-- Writes `v` at key `k`, keeping the canonical form: writing the default removes the entry. -/
def SMap.set {β : Type} [DecidableEq β] (d : β) (m : SMap β) (k : Nat) (v : β) : SMap β :=
  if v = d then SMap.erase m k else SMap.insert m k v

/-- The canonical form: keys strictly rising, no entry equal to the default. -/
def SMap.wfFrom {β : Type} [DecidableEq β] (d : β) : Option Nat → SMap β → Bool
  | _, [] => true
  | lo, (j, v) :: m => (match lo with | none => true | some l => decide (l < j)) && decide (v ≠ d) && SMap.wfFrom d (some j) m

/-- The canonical form of a whole map. -/
def SMap.wf {β : Type} [DecidableEq β] (d : β) (m : SMap β) : Bool := SMap.wfFrom d none m

/-- The canonical form of a memory, whose default is 0. -/
abbrev Memory.wf (m : Memory) : Bool := SMap.wf 0 m

/-- Writes a run of values from key `k` upwards. -/
def SMap.setRun {β : Type} [DecidableEq β] (d : β) (m : SMap β) (k : Nat) : List β → SMap β
  | [] => m
  | v :: vs => SMap.setRun d (SMap.set d m k v) (k + 1) vs

/-- The `n` values from key `k` upwards. -/
def SMap.getRun {β : Type} (d : β) (m : SMap β) (k : Nat) : Nat → List β
  | 0 => []
  | n + 1 => SMap.get d m k :: SMap.getRun d m (k + 1) n

/-- Removes every entry with a key in [lo, hi). -/
def SMap.clear {β : Type} (m : SMap β) (lo hi : Nat) : SMap β :=
  m.filter fun e => !(lo ≤ e.1 && e.1 < hi)

/-- The entries with a key in [lo, hi). -/
def SMap.slice {β : Type} (m : SMap β) (lo hi : Nat) : SMap β :=
  m.filter fun e => lo ≤ e.1 && e.1 < hi

/-- Replaces the first element that satisfies `p`, or appends `x`. -/
def upsert {α : Type} (p : α → Bool) (x : α) : List α → List α
  | [] => [x]
  | y :: ys => if p y then x :: ys else y :: upsert p x ys

/-- Little-endian words of a byte list (R4); a last incomplete word is zero-extended. -/
def wordsOf : List Byte → List Word
  | b0 :: b1 :: b2 :: b3 :: bs => (b3 ++ b2 ++ b1 ++ b0) :: wordsOf bs
  | [] => []
  | bs => [BitVec.ofNat 32 (leValue bs)]

/-- The bytes of a word list, little-endian (R4). -/
def bytesOf : List Word → List Byte
  | [] => []
  | w :: ws => w.extractLsb' 0 8 :: w.extractLsb' 8 8 :: w.extractLsb' 16 8 :: w.extractLsb' 24 8 :: bytesOf ws

end Sys2Proof.Machine
end

