-- ==== Sys2Proof/Machine/Regs.lean ====
section
/-! DEFINITION. The registers of a group (R67): one accessor and one setter per kind, with what is special
about each: the handler bank (R361), q0 and m0 (R67), undrained long-latency destinations (R90–R92). -/

namespace Sys2Proof.Machine

/-- Handler mode. -/
def Group.inHandler (g : Group) : Bool := g.mode = .handler

/-- The key of scalar register i: the handler bank of s48–s63 has keys of its own (R361). -/
def Group.sKey (g : Group) (i : Nat) : Nat := if g.inHandler && 48 ≤ i then 128 + i else i
/-- The key of predicate i; the handler's q7 has its own (R361). -/
def Group.qKey (g : Group) (i : Nat) : Nat := if g.inHandler && i = 7 then 271 else 256 + i
/-- The key of vector register r in a lane. -/
def vKey (r lane : Nat) : Nat := 4096 + 32 * r + lane
/-- The key of a bit of a lane mask; mask 16 is the handler's m15 (R361). -/
def mKey (m lane : Nat) : Nat := 16384 + 32 * m + lane
/-- The key of a bit of mask m in the mode that runs. -/
def Group.mKey (g : Group) (m lane : Nat) : Nat := Machine.mKey (if g.inHandler && m = 15 then 16 else m) lane

/-- R91: whether a long-latency result to the register is not drained. -/
def Group.undrained (g : Group) (key : Nat) : Bool := g.pend.any fun p => p.dests.any fun d => d.key = key

/-- R92: what a destination still writes once other bits of its register are written by a later word. -/
def Dest.minus (d : Dest) (key : Nat) (bits : Word) : Dest :=
  if d.key = key then { d with bits := d.bits &&& ~~~bits } else d

/-- R92: a later write of some bits of a register discards what is still to return to them. -/
def Group.dropBits (g : Group) (key : Nat) (bits : Word) : Group :=
  if g.undrained key then
    { g with pend := g.pend.map fun p =>
        { p with dests := (p.dests.map fun d => d.minus key bits).filter fun d => d.bits ≠ 0 } }
  else g

/-- R92: a fixed-latency write discards what is still to return to the same register. -/
def Group.dropPend (g : Group) (key : Nat) : Group := g.dropBits key (BitVec.allOnes 32)

/-- The value stored under a scalar key. -/
def Group.sVal (g : Group) (key : Nat) : Word :=
  if key < 64 then SMap.get 0 g.s key else SMap.get 0 g.hb (key - 128)

/-- Stores under a scalar key. -/
def Group.setSVal (g : Group) (key : Nat) (v : Word) : Group :=
  if key < 64 then { g with s := SMap.set 0 g.s key v } else { g with hb := SMap.set 0 g.hb (key - 128) v }

/-- s[i] as the C-stream reads it (R91: unpredictable while undrained). -/
def Group.rdS (g : Group) (tick : Nat) (i : SReg) : Word :=
  let k := g.sKey i.toNat
  if g.undrained k then Config.unpredictable tick k else g.sVal k

/-- s[i] := v as a fixed-latency result (R92). -/
def Group.wrS (g : Group) (i : SReg) (v : Word) : Group :=
  let k := g.sKey i.toNat
  (g.dropPend k).setSVal k v

/-- P(i): the pair i:i+1 (R68). -/
def Group.rdP (g : Group) (tick : Nat) (i : SReg) : DWord := g.rdS tick (i + 1) ++ g.rdS tick i

/-- P(i) := v. -/
def Group.wrP (g : Group) (i : SReg) (v : DWord) : Group :=
  (g.wrS i (v.extractLsb' 0 32)).wrS (i + 1) (v.extractLsb' 32 32)

/-- Q(i): the quad i:i+3 (R68). -/
def Group.rdQuad (g : Group) (tick : Nat) (i : SReg) : QWord :=
  g.rdS tick (i + 3) ++ g.rdS tick (i + 2) ++ g.rdS tick (i + 1) ++ g.rdS tick i

/-- Q(i) := v. -/
def Group.wrQuad (g : Group) (i : SReg) (v : QWord) : Group :=
  (((g.wrS i (v.extractLsb' 0 32)).wrS (i + 1) (v.extractLsb' 32 32)).wrS (i + 2) (v.extractLsb' 64 32)).wrS (i + 3)
    (v.extractLsb' 96 32)

/-- The registers of the run of n from i (R68). -/
def Group.rdRun (g : Group) (tick : Nat) (i : SReg) (n : Nat) : List Word :=
  (List.range n).map fun k => g.rdS tick (i + BitVec.ofNat 6 k)

/-- q[i]: q0 reads true (R67). -/
def Group.rdQ (g : Group) (tick : Nat) (i : QReg) : Bool :=
  if i = 0 then true
  else
    let k := g.qKey i.toNat
    if g.undrained k then (Config.unpredictable tick k).getLsbD 0
    else if k = 271 then g.hq7 else g.q.getLsbD i.toNat

/-- The predicate bits with bit i set to b. -/
def setBit8 (q : BitVec 8) (i : Nat) (b : Bool) : BitVec 8 :=
  if b then q ||| (1#8 <<< i) else q &&& ~~~(1#8 <<< i)

/-- Stores under a predicate key. -/
def Group.setQVal (g : Group) (key : Nat) (b : Bool) : Group :=
  if key = 271 then { g with hq7 := b } else { g with q := setBit8 g.q (key - 256) b }

/-- q[i] := b; a write to q0 is ignored (R67). -/
def Group.wrQ (g : Group) (i : QReg) (b : Bool) : Group :=
  if i = 0 then g
  else
    let k := g.qKey i.toNat
    (g.dropPend k).setQVal k b

/-- v[r] of a lane (R91). -/
def Group.rdV (g : Group) (tick r lane : Nat) : Word :=
  let k := vKey r lane
  if g.undrained k then Config.unpredictable tick k else SMap.get 0 g.v (32 * r + lane)

/-- v[r] := x in one lane, as a fixed-latency result (R92). -/
def Group.wrV (g : Group) (r lane : Nat) (x : Word) : Group :=
  let g := g.dropPend (vKey r lane)
  { g with v := SMap.set 0 g.v (32 * r + lane) x }

/-- Some bits of v[r] := x in one lane, as a fixed-latency result (R69, R92). -/
def Group.wrVBits (g : Group) (r lane : Nat) (bits x : Word) : Group :=
  let g := g.dropBits (vKey r lane) bits
  { g with v := SMap.set 0 g.v (32 * r + lane) ((SMap.get 0 g.v (32 * r + lane) &&& ~~~bits) ||| (x &&& bits)) }

/-- What an unwritten mask reads as: m1–m14 start all ones, m15 zero (R34). -/
def mDefault (i : Nat) : Word := if i = 15 then 0 else BitVec.allOnes 32

/-- Bit l of a word set to b. -/
def setBit32 (w : Word) (l : Nat) (b : Bool) : Word :=
  if b then w ||| (1#32 <<< l) else w &&& ~~~(1#32 <<< l)

/-- m[i]: m0 reads all ones (R67); an undrained bit is unpredictable (R91). -/
def Group.rdM (g : Group) (tick : Nat) (i : Nat) : Word :=
  if i = 0 then BitVec.allOnes 32
  else
    let w := SMap.get (mDefault i) g.m i
    (List.range 32).foldl (fun acc l =>
      if g.undrained (g.mKey i l) then setBit32 acc l ((Config.unpredictable tick (g.mKey i l)).getLsbD 0) else acc) w

/-- Stores a whole mask; a write to m0 is ignored. -/
def Group.setM (g : Group) (i : Nat) (w : Word) : Group :=
  if i = 0 then g else { g with m := SMap.set (mDefault i) g.m i w }

/-- Bit l of m[i] := b, as a fixed-latency result (R212, R92). -/
def Group.wrMBit (g : Group) (i l : Nat) (b : Bool) : Group :=
  if i = 0 then g
  else
    let g := g.dropPend (g.mKey i l)
    g.setM i (setBit32 (SMap.get (mDefault i) g.m i) l b)

/-- A returned bit of a lane mask: the user's m15 stands apart while the handler runs (R361). -/
def Group.landM (g : Group) (i l : Nat) (b : Bool) : Group :=
  if i = 15 && g.inHandler then { g with m15user := setBit32 g.m15user l b }
  else
    let m := if i = 16 then 15 else i
    g.setM m (setBit32 (SMap.get (mDefault m) g.m m) l b)

/-- Writes one returned long-latency result. -/
def Group.land (g : Group) (d : Dest) : Group :=
  if d.bits = 0 then g
  else if d.key < 192 then g.setSVal d.key d.val
  else if d.key < 272 then (if d.key = 256 then g else g.setQVal d.key (d.val.getLsbD 0))
  else if d.key < 16384 then
    { g with v := SMap.set 0 g.v (d.key - 4096) ((SMap.get 0 g.v (d.key - 4096) &&& ~~~d.bits) ||| (d.val &&& d.bits)) }
  else g.landM ((d.key - 16384) / 32) (d.key % 32) (d.val.getLsbD 0)

/-- Destinations that are whole registers, by key and value. -/
def wholes (ds : List (Nat × Word)) : List Dest := ds.map fun d => { key := d.1, val := d.2 }

/-- A destination as the mode that runs names it: the handler's m15 is banked (R361). -/
def Group.banked (g : Group) (d : Dest) : Dest :=
  if g.inHandler && Machine.mKey 15 0 ≤ d.key && d.key < Machine.mKey 16 0 then { d with key := d.key + 32 } else d

/-- Adds a long-latency result on its way; a newer result to a register replaces an older one (R92). -/
def Group.addPend (g : Group) (p : Pend) : Group :=
  let p := { p with dests := p.dests.map g.banked }
  let g := p.dests.foldl (fun g d => g.dropBits d.key d.bits) g
  { g with pend := g.pend ++ [p] }

/-- The name of the running C-stream: the handler's is `.l 12`, its splits are numbered from 8 (R362). -/
def Group.cStrm (g : Group) : Strm := if g.inHandler then .l 12 else .c

/-- R40: whether every long-latency result a stream has requested has returned. -/
def Group.drained (g : Group) (st : Strm) : Bool := g.pend.all fun p => p.strm ≠ st || p.returned

/-- R91: the results of a stream stand drained. -/
def Group.dropReturned (g : Group) (st : Strm) : Group :=
  { g with pend := g.pend.filter fun p => !(p.strm = st && p.returned) }

/-- The translation register t[i]; the handler's t15 is banked (R361). -/
def Group.rdT (g : Group) (i : Nat) : TReg :=
  if g.inHandler && i = 15 then g.ht15 else SMap.get {} g.tr i

/-- t[i] := r. -/
def Group.wrT (g : Group) (i : Nat) (r : TReg) : Group :=
  if g.inHandler && i = 15 then { g with ht15 := r } else { g with tr := SMap.set {} g.tr i r }

/-- The splits of the L-stream that runs: the handler's in handler mode (R362). -/
def Group.curSplits (g : Group) : List Split := if g.inHandler then g.hsplits else g.splits

/-- Replaces the splits of the running L-stream. -/
def Group.setSplits (g : Group) (ss : List Split) : Group :=
  if g.inHandler then { g with hsplits := ss } else { g with splits := ss }

/-- The lane queue of the running mode (R362). -/
def Group.curQueue (g : Group) : List Block := if g.inHandler then g.hlaneq else g.laneq

/-- Replaces the lane queue of the running mode. -/
def Group.setQueue (g : Group) (q : List Block) : Group :=
  if g.inHandler then { g with hlaneq := q } else { g with laneq := q }

/-- The captured translation register of the block that runs (R70); in handler mode the copy of t15 is of the handler's. -/
def Group.blockT (g : Group) (i : Nat) : TReg :=
  match g.curQueue with
    | [] => {}
    | b :: _ => SMap.get {} b.caps i

/-- Replaces a captured translation register of the running block. -/
def Group.setBlockT (g : Group) (i : Nat) (r : TReg) : Group :=
  match g.curQueue with
    | [] => g
    | b :: bs => g.setQueue ({ b with caps := SMap.set {} b.caps i r } :: bs)

/-- R361, R404: the handler's scratch area lies in a frame: its t15, and the copies that its blocks have captured. -/
def Group.setScratch (g : Group) (frame : BitVec 36) : Group :=
  let put (t : TReg) : TReg := if t.scr then { t with frame := frame } else t
  { g with
    ht15 := put g.ht15
    hlaneq := g.hlaneq.map fun b => { b with caps := b.caps.map fun e => if e.1 = 15 then (e.1, put e.2) else e } }

/-- The key of a split's results: handler splits are numbered from 8. -/
def Group.splitKey (g : Group) (n : Nat) : Nat := if g.inHandler then 8 + n else n

/-- The split with an index. -/
def Group.split? (g : Group) (n : Nat) : Option Split := g.curSplits.find? fun s => s.idx = n

/-- Updates the split with an index. -/
def Group.mapSplit (g : Group) (n : Nat) (f : Split → Split) : Group :=
  g.setSplits (g.curSplits.map fun s => if s.idx = n then f s else s)

/-- sr.ctr of a lane (R116). -/
def Group.rdCtr (g : Group) (l : Nat) : QWord := SMap.get 0 g.srCtr l

/-- R116: the counters of a group at its start, from its number in its team and the team's linear number. -/
def startCtr (gid lin : Nat) : SMap QWord :=
  (List.range 32).foldl (fun m l => SMap.set 0 m l (BitVec.ofNat 128 (l * 2 ^ 32 + gid * 2 ^ 37 + lin % 2 ^ 32 * 2 ^ 64))) []

/-- sr.ctr of a lane := c. -/
def Group.wrCtr (g : Group) (l : Nat) (c : QWord) : Group := { g with srCtr := SMap.set 0 g.srCtr l c }

/-- R73, R120: flags set in gsr. -/
def Group.flag (g : Group) (f : BitVec 10) : Group := { g with gsr := g.gsr ||| f }

/-- The invocation of a lane (R331). -/
def Group.rdInv (g : Group) (l : Nat) : Invocation := SMap.get {} g.inv l

/-- The invocation of a lane := i. -/
def Group.wrInv (g : Group) (l : Nat) (i : Invocation) : Group := { g with inv := SMap.set {} g.inv l i }

end Sys2Proof.Machine
end

