-- ==== Sys2Proof/Machine/Units.lean ====
section
/-! DEFINITION. The units of the device by number: one accessor (a unit that is not listed is at its reset
value) and one setter per kind, and the numbering of cores, clusters, slices, contexts and memory keys. -/

namespace Sys2Proof.Machine
namespace State

/-- The context with a number (64 × VF + interface). -/
def ctx (s : State) (id : Nat) : Ctx := (s.ctxs.find? fun c => c.id = id).getD { id := id }
/-- Replaces a context. -/
def setCtx (s : State) (c : Ctx) : State := { s with ctxs := upsert (fun d => d.id = c.id) c s.ctxs }
/-- The cluster with a number (16 × device slice + position). -/
def cluster (s : State) (id : Nat) : Cluster := (s.clusters.find? fun c => c.id = id).getD { id := id }
/-- Replaces a cluster. -/
def setCluster (s : State) (c : Cluster) : State := { s with clusters := upsert (fun d => d.id = c.id) c s.clusters }
/-- The L1 with a number (8 × cluster + core; 7 for the fused L1). -/
def l1 (s : State) (id : Nat) : L1 := (s.l1s.find? fun c => c.id = id).getD { id := id }
/-- Replaces an L1. -/
def setL1 (s : State) (c : L1) : State := { s with l1s := upsert (fun d => d.id = c.id) c s.l1s }
/-- The slice with a device index. -/
def slice (s : State) (id : Nat) : Slice := (s.slices.find? fun c => c.id = id).getD { id := id }
/-- Replaces a slice. -/
def setSlice (s : State) (c : Slice) : State := { s with slices := upsert (fun d => d.id = c.id) c s.slices }
/-- The virtual function with an index. -/
def vf (s : State) (id : Nat) : Vf := (s.vfs.find? fun c => c.id = id).getD { id := id }
/-- Replaces a virtual function. -/
def setVf (s : State) (c : Vf) : State := { s with vfs := upsert (fun d => d.id = c.id) c s.vfs }

/-- R469: the mailbox of a function (16 the physical function). -/
def mbox (s : State) (fn : Nat) : Mailbox := SMap.get {} s.mboxes fn
/-- Replaces a mailbox. -/
def setMbox (s : State) (fn : Nat) (m : Mailbox) : State := { s with mboxes := SMap.set {} s.mboxes fn m }
/-- Raises an MSI-X vector of a function. -/
def raise (s : State) (fn vec : Nat) : State := { s with msix := s.msix ++ [(fn, vec)] }
/-- R469: an event is written and vector 1 raised, or it is dropped and counted. -/
def mailEvent (s : State) (fn : Nat) (code : Byte) (vf : Nat) (op0 op1 : DWord) : State :=
  let m := s.mbox fn
  if m.ehead + 1 = m.etail then
    s.setMbox fn { m with dropped := if m.dropped = BitVec.allOnes 32 then m.dropped else m.dropped + 1 }
  else
    let e : MEvent := { code := code, vf := BitVec.ofNat 8 vf, time := BitVec.ofNat 64 s.now, op0 := op0, op1 := op1 }
    (s.setMbox fn { m with events := SMap.set {} m.events m.ehead.toNat e, ehead := m.ehead + 1 }).raise fn 1

/-- R475: a controller's firmware (16 the device manager). -/
def fw (s : State) (n : Nat) : Fw := SMap.get {} s.fws n
/-- Replaces a controller's firmware. -/
def setFw (s : State) (n : Nat) (f : Fw) : State := { s with fws := SMap.insert s.fws n f }
/-- R477: a slice controller is being updated: it admits no card and starts no team. -/
def updating (s : State) (sl : Nat) : Bool := (s.fw sl).update = 1

/-- Changes the group that issues. -/
def mapG (s : State) (f : Group → Group) : State := { s with g := f s.g }
/-- Changes the team of the group that issues. -/
def mapT (s : State) (f : Team → Team) : State := { s with t := f s.t }

/-- The groups of the team that issues, itself first. -/
def teamGroups (s : State) : List Group := s.g :: s.gs.filter fun g => g.team = s.t.uid
/-- Every resident group. -/
def allGroups (s : State) : List Group := s.g :: s.gs
/-- Every resident team. -/
def allTeams (s : State) : List Team := s.t :: s.ts

/-- Changes every group that satisfies `p`, the focus included. -/
def mapGroups (s : State) (p : Group → Bool) (f : Group → Group) : State :=
  { s with g := if p s.g then f s.g else s.g, gs := s.gs.map fun g => if p g then f g else g }

/-- Changes every team that satisfies `p`, the focus included. -/
def mapTeams (s : State) (p : Team → Bool) (f : Team → Team) : State :=
  { s with t := if p s.t then f s.t else s.t, ts := s.ts.map fun t => if p t then f t else t }

/-- The team with a uid. -/
def team? (s : State) (uid : Nat) : Option Team := s.allTeams.find? fun t => t.uid = uid && t.live
/-- The group with a uid. -/
def group? (s : State) (uid : Nat) : Option Group := s.allGroups.find? fun g => g.uid = uid && g.live

/-- Makes another group the one that issues, with its team. -/
def focus (s : State) (uid : Nat) : State :=
  if s.g.uid = uid then s
  else match s.gs.find? fun g => g.uid = uid with
    | none => s
    | some h =>
      let gs := s.g :: s.gs.filter fun g => g.uid ≠ uid
      if h.team = s.t.uid then { s with g := h, gs := gs }
      else match s.ts.find? fun t => t.uid = h.team with
        | none => { s with g := h, gs := gs }
        | some t => { s with g := h, gs := gs, t := t, ts := s.t :: s.ts.filter fun u => u.uid ≠ t.uid }

/-- The virtual function of the group's context. -/
def vfId (s : State) : Nat := s.g.ctx / 64
/-- The context of the group. -/
def gctx (s : State) : Ctx := s.ctx s.g.ctx
/-- The core the group runs on (8 × cluster + core). -/
def coreId (s : State) : Nat := s.t.ppos
/-- The cluster the group runs in. -/
def clusterId (s : State) : Nat := s.t.ppos / 8
/-- The device slice the group runs in. -/
def sliceId (s : State) : Nat := s.t.ppos / 128
/-- Whether the group runs on a roof core (R14). -/
def isRoof (s : State) : Bool := s.t.ppos % 8 = 4
/-- The partition-relative index of a device slice (R19). -/
def relSlice (s : State) (sl : Nat) : Nat := sl - (s.vf s.vfId).first
/-- The L1 of the group's core: the cluster's fused L1 where the four are fused (R56). -/
def l1Id (s : State) : Nat := if (s.cluster s.clusterId).fused then 8 * s.clusterId + 7 else s.coreId

/-- R20, R22: the cluster mask of a slice. -/
def clusterMask (s : State) (sl : Nat) : BitVec 16 := SMap.get (BitVec.allOnes 16) s.cmask sl
/-- R20, R22: the channel mask of a slice. -/
def channelMask (s : State) (sl : Nat) : BitVec 16 := SMap.get (BitVec.allOnes 16) s.chmask sl
/-- The number of ones of a mask. -/
def popCount {n : Nat} (m : BitVec n) : Nat := (List.range n).countP fun i => m.getLsbD i
/-- The device slices of a partition, in order (R19). -/
def partSlices (s : State) (vf : Nat) : List Nat :=
  let v := s.vf vf
  (List.range (2 ^ v.j)).map fun i => v.first + i
/-- R431, R22: the bytes of a partition's device memory, 1 GiB per present channel. -/
def partBytes (s : State) (vf : Nat) : Nat :=
  ((s.partSlices vf).map fun sl => popCount (s.channelMask sl)).sum * 2 ^ 30

/-- R452: the last 15 device events: command or record code, slice, VF, status, time, operand or inner address. -/
def deviceEvent (s : State) (code : Byte) (sl vf status : Nat) (op : DWord) : State :=
  { s with log := ((code, sl, vf, status, BitVec.ofNat 64 s.now, op) :: s.log).take 15 }

/-- R399: appends an escalation record to a slice's queue. -/
def escalate (s : State) (sl : Nat) (r : Record) : State :=
  let c := s.slice sl
  (s.setSlice { c with escal := c.escal ++ [r] }).deviceEvent r.code sl c.vf 0 r.addr

/-- R423, R450: adds to a programmable or fixed counter of a context. -/
def bumpCounter (s : State) (c n k : Nat) : State :=
  let x := s.ctx c
  s.setCtx { x with cnt := SMap.set 0 x.cnt n (SMap.get 0 x.cnt n + BitVec.ofNat 64 k) }

/-- R450: k events of a code, into every programmable counter of the context that selects it. -/
def countEvent (s : State) (c : Nat) (code : Byte) (k : Nat) : State :=
  let ns := (List.range 16).filter fun n => SMap.get 0 (s.ctx c).sel n = code
  if ns.isEmpty || k = 0 then s else ns.foldl (fun s n => s.bumpCounter c n k) s

end State

/-- The key of a physical address: partition memory of a VF, or host memory when bit 47 is set (R381). -/
def memKey (vf pa : Nat) : Nat :=
  if pa % 2 ^ 48 < 2 ^ 47 then vf * 2 ^ 48 + pa % 2 ^ 48 else 2 ^ 60 + pa % 2 ^ 47
/-- Whether a key lies in host memory (or a peer window, R471). -/
def keyIsHost (k : Nat) : Bool := 2 ^ 60 ≤ k

/-- R379: a context whose groups and commands stand frozen. -/
def ctxFrozen (s : State) (ctx : Nat) : Bool := (s.ctx ctx).frozen || (s.vf (ctx / 64)).frozen

/-- R376, R379, R55: whether a group may issue at all. -/
def groupRuns (s : State) (g : Group) : Bool :=
  match s.team? g.team with
  | none => false
  | some t => g.live && !g.ended && !g.frozen && !g.halted && t.startAt ≤ s.clk
      && (!ctxFrozen s g.ctx || g.mode = .slice || g.mode = .device)

/-- A C-stream that no wait of its own holds. -/
def readyAlone (s : State) (g : Group) : Bool := groupRuns s g && g.park = .none

/-- R204: a group that has yielded holds back while a group that was ready then has still to issue. -/
def holdsBack (s : State) (g : Group) : Bool :=
  g.yieldTo.any fun u => match s.group? u with
    | some h => readyAlone s h
    | none => false

/-- R295: the tile rows of a bound frame. -/
def EncBind.tileRows (b : EncBind) : Nat := ((b.desc.getD 2 0).toNat / 2 ^ 16 + 63) / 64

/-- R373, R399: the master handle of a team's group, as its slice controller uses it: the slice field is 0 in slice mode. -/
def teamHandle (t : Team) (g : Group) : Word :=
  BitVec.ofNat 32 ((t.ppos / 8 % 16) * 2 ^ 24 + (t.ppos % 8) * 2 ^ 21 + g.slot * 2 ^ 15)

/-- hs.cause of a fault (R365). -/
def FaultInfo.cause (f : FaultInfo) : Word :=
  0#4 ++ f.tcode ++ 0#4 ++ f.src ++ f.split ++ f.code

end Sys2Proof.Machine
end

