-- ==== Sys2Proof/Machine/Mem.lean ====
section
/-! DEFINITION. Memory at its point of coherence, by key: bytes, poison (R401), the table walk (R382), and the
one operation that performs a write, with what every performed write meets: poison cleared (R401), frames a
checkpoint has not copied (R456), and the guard regions of Sinter slots (R332). -/

namespace Sys2Proof.Machine

/-- What an access does (R384). -/
inductive Acc where
  | rd | wr | at | ex
deriving DecidableEq, Repr

/-- The access writes. -/
def Acc.writes : Acc → Bool
  | .rd => false
  | .wr => true
  | .at => true
  | .ex => false

/-- The access reads data. -/
def Acc.reads : Acc → Bool
  | .rd => true
  | .wr => false
  | .at => true
  | .ex => false

namespace State

/-- R471: the peer whose window holds a host key. -/
def peerOf (s : State) (k : Nat) : Option Nat :=
  if keyIsHost k then
    (s.peers.find? fun w => w.1 ≤ k - 2 ^ 60 && k - 2 ^ 60 < w.1 + w.2.1).map fun w => w.2.2
  else none

/-- One byte of memory: partition memory, host memory, or a peer's (which the model does not hold). -/
def rdMem (s : State) (k : Nat) : Byte :=
  match s.peerOf k with
  | some _ => Config.peerByte s.tick k
  | none => if keyIsHost k then SMap.get 0 s.hostMem (k - 2 ^ 60) else SMap.get 0 s.mem k

/-- n bytes of memory from a key. -/
def rdMemN (s : State) (k n : Nat) : List Byte := (List.range n).map fun i => s.rdMem (k + i)

/-- A little-endian number in memory (R4). -/
def rdMemNat (s : State) (k n : Nat) : Nat := leValue (s.rdMemN k n)

/-- R473: whether a key lies in the window of a lost peer. -/
def lostPeer (s : State) (k : Nat) : Bool := match s.peerOf k with | some p => s.lost.contains p | none => false

/-- R401: whether a sector that the n bytes touch is poisoned; a lost peer answers as poison (R473). -/
def poisoned (s : State) (k n : Nat) : Bool :=
  s.lostPeer k ||
  s.poison.any fun sec => k < 32 * sec + 32 && 32 * sec < k + n

end State

/-- R381: bit b of a table entry. -/
def pteBit (e b : Nat) : Bool := e.testBit b
/-- R381: the frame address of a table entry. -/
def pteFrame (e : Nat) : Nat := (e / 2 ^ 12 % 2 ^ 36) * 2 ^ 12
/-- R387: the bytes of a leaf by its size code. -/
def leafBytes (sz : Nat) : Nat := match sz with | 0 => 2 ^ 12 | 1 => 2 ^ 16 | 2 => 2 ^ 21 | _ => 2 ^ 30

/-- R382: the size code of a leaf at a level. -/
def leafSize (lvl : Nat) (c64 : Bool) : Nat := if lvl = 0 then (if c64 then 1 else 0) else lvl + 1

/-- R382, R432: Malformed(e, lvl), for an entry at an index, in a partition of `size` bytes. -/
def pteMalformed (size e lvl idx : Nat) : Bool :=
  let leaf := pteBit e 1
  let c64 := pteBit e 6
  let f := pteFrame e
  let bytes := if leaf then leafBytes (leafSize lvl c64) else 2 ^ 12
  2 ^ 48 ≤ e || pteBit e 2 || (leaf && 3 ≤ lvl) || (!leaf && lvl = 0)
    || (c64 && (lvl ≠ 0 || idx % 16 ≠ 0)) || (leaf && f % bytes ≠ 0) || (!leaf && e / 4 % 1024 ≠ 0)
    || (pteBit e 7 && pteBit e 47) || (!pteBit e 47 && size < f + bytes)

/-- A walk's answer: the leaf, its size code and the key of its entry; or the code of the failure. -/
inductive WalkRes where
  | leaf (e sz key : Nat)
  | fail (code : Nat)
deriving DecidableEq, Repr

/-- R382: the walk from a table at `base`, at level `lvl`. -/
def walkFrom (s : State) (vf size va : Nat) : Nat → Nat → WalkRes
  | lvl, base =>
    let i := va / 2 ^ (12 + 9 * lvl) % 512
    let k := memKey vf (base + 8 * i)
    let kg := memKey vf (base + 8 * (i / 16 * 16))
    let e0 := s.rdMemNat k 8
    let g := s.rdMemNat kg 8
    if lvl = 0 && s.poisoned kg 8 then .fail 0x17
    else
      let big := lvl = 0 && pteBit g 0 && pteBit g 6
      let e := if big then g else e0
      let ke := if big then kg else k
      let idx := if big then i / 16 * 16 else i
      if s.poisoned ke 8 then .fail 0x17
      else if !pteBit e 0 then
        (if lvl = 0 && pteBit e 11 then .fail 0x12 else if lvl = 0 && pteBit e 9 then .fail 0x11 else .fail 0x10)
      else if pteMalformed size e lvl idx then .fail 0x16
      else if pteBit e 1 then .leaf e (leafSize lvl (pteBit e 6)) ke
      else match lvl with
        | 0 => .fail 0x16
        | l + 1 => walkFrom s vf size va l (pteFrame e)

/-- R391: an address lies in the table window. -/
def inWindow (ptwin va : Nat) : Bool := ptwin ≠ 0 && ptwin ≤ va && va < ptwin + 2 ^ 48

/-- R391: the level-0 table that translates an address, if it exists: the tables from one of a level at an address down. -/
def tableOf (s : State) (vf size va : Nat) : Nat → Nat → Option Nat
  | 0, base => some base
  | lvl + 1, base =>
    let i := va / 2 ^ (12 + 9 * (lvl + 1)) % 512
    let k := memKey vf (base + 8 * i)
    let e := s.rdMemNat k 8
    if s.poisoned k 8 || !pteBit e 0 || pteBit e 1 || pteMalformed size e (lvl + 1) i then none
    else tableOf s vf size va lvl (pteFrame e)

/-- R391: the entry of a window page: the level-0 table at `t` with hnd, w and r, and no right to execute. -/
def windowEntry (t : Nat) : Nat := t + 2 ^ 10 + 2 ^ 4 + 2 ^ 3 + 3

/-- R391: the leaf of an address of the table window where the window's own tables hold none: the page of a level-0 table that exists.
DESIGN CHOICE (log 35): such a leaf counts as dirty already, since it stands in no entry that could take the mark. -/
def windowLeaf (s : State) (c va : Nat) : Option WalkRes :=
  let x := (s.ctx c).xb
  if inWindow x.ptwin.toNat va then
    (tableOf s (c / 64) (s.partBytes (c / 64)) (((va - x.ptwin.toNat) / 2 ^ 12 * 2 ^ 21) % 2 ^ 57) 4 x.root.toNat).map fun t =>
      .leaf (windowEntry t ||| 256) 0 0
  else none

/-- R382, R391: Walk(va) in a context's tables. -/
def walk (s : State) (c : Nat) (va : Nat) : WalkRes :=
  match walkFrom s (c / 64) (s.partBytes (c / 64)) (va % 2 ^ 57) 4 (s.ctx c).xb.root.toNat with
  | .fail 0x10 => (windowLeaf s c (va % 2 ^ 57)).getD (.fail 0x10)
  | r => r

/-- R387, R431: the key of a virtual address in a leaf. -/
def leafKey (c va e sz : Nat) : Nat := memKey (c / 64) (pteFrame e + va % leafBytes sz)

/-- R177: whether an address lies in a footprint region word. -/
def regionHas (r : DWord) (va : Nat) : Bool :=
  let n := r.toNat / 2 ^ 57 % 64
  r ≠ 0 && r.toNat % 2 ^ 57 / 2 ^ n = va % 2 ^ 57 / 2 ^ n

/-- R332: whether a guard region of a context covers a byte with a key in [lo, hi), as the context's tables map it now:
the region is looked through page by page. -/
def guardHits (s : State) (ctx : Nat) (r : DWord) (lo hi : Nat) : Bool :=
  let n := r.toNat / 2 ^ 57 % 64
  let base := r.toNat % 2 ^ 57 / 2 ^ n * 2 ^ n
  r ≠ 0 && lo < hi && (List.range (max 1 (2 ^ n / 2 ^ 12))).any fun p =>
    let va := base + p * 2 ^ 12
    match walk s ctx va with
    | .fail _ => false
    | .leaf e sz _ =>
      let k := leafKey ctx va e sz
      k < hi && lo < k + min (2 ^ n) (2 ^ 12)

/-- The guard region words of a slot (R322), from its descriptor's words. -/
def slotGuards (sl : Slot) : List DWord :=
  match sl.desc.drop 8 with
  | a :: b :: c :: d :: _ => [b ++ a, d ++ c]
  | _ => []

/-- R325, R332: the transition to INVALID: the batch is discarded, the slot serves no lane. -/
def Slot.invalidate (sl : Slot) : Slot := { sl with state := .invalid, batch := [] }

/-- Whether a region word covers an address of [a, a + n). -/
def regionMeets (r : DWord) (a n : Nat) : Bool :=
  let k := r.toNat / 2 ^ 57 % 64
  let base := r.toNat % 2 ^ 57 / 2 ^ k * 2 ^ k
  r ≠ 0 && a < base + 2 ^ k && base < a + n

/-- R332: whether a write through its context's own mapping meets a guard region with bytes of [lo, hi). -/
def GuardWrite.fires (w : GuardWrite) (ctx : Nat) (r : DWord) (lo hi : Nat) : Bool :=
  let a := max lo w.key
  let b := min hi (w.key + w.n)
  w.ctx = ctx && a < b && regionMeets r (w.va + (a - w.key)) (b - a)

/-- R332: the slots whose guard regions a write of [lo, hi) meets enter INVALID: as the tables map them now, or as the write
of the binding context named them. -/
def guardRange (s : State) (lo hi : Nat) : State :=
  let hit (sl : Slot) : Bool := (slotGuards sl).any fun r => guardHits s sl.ctx r lo hi || s.guardW.any fun w => w.fires sl.ctx r lo hi
  { s with clusters := s.clusters.map fun c =>
      { c with slots := c.slots.map fun o => o.map fun sl => if sl.state ≠ .invalid && hit sl then sl.invalidate else sl } }

/-- R332: every bound slot whose guard region maps the byte enters INVALID. -/
def guardCheck (s : State) (key : Nat) : State := guardRange s key (key + 1)

/-- R332: a write of n bytes that a context makes at a virtual address: it is kept where it meets a guard region. -/
def noteGuard (s : State) (ctx va key n : Nat) : State :=
  if s.clusters.any fun c => c.slots.any fun o => match o with
      | none => false
      | some sl => sl.ctx = ctx && sl.state ≠ .invalid && (slotGuards sl).any fun r => regionMeets r va n
  then { s with guardW := ⟨ctx, va, key, n⟩ :: s.guardW } else s

/-- R455: a frame as the stream reads it now. -/
def readFrame (s : State) (f : Nat × Nat) : Snap := { frame := f, bytes := s.rdMemN f.1 f.2, bad := s.poisoned f.1 f.2 }

/-- R456: a frame of a checkpoint that a write of [lo, hi) meets uncopied at the place where it is performed is copied first; a
write that translation meets there is held (`frameHolds`). -/
def touchRange (s : State) (lo hi : Nat) : State :=
  let due (c : Ckpt) : List (Nat × Nat) :=
    c.uncopied.filter fun f => f.1 < hi && lo < f.1 + f.2 && !(c.snaps.any fun p => p.frame = f)
  { s with ckpts := s.ckpts.map fun c => { c with snaps := (due c).map (readFrame s) ++ c.snaps } }

/-- Stores a run of bytes at a key, nothing else. -/
def State.putBytes (s : State) (k : Nat) (bs : List Byte) : State :=
  match s.peerOf k with
  | some _ => s
  | none =>
    if keyIsHost k then { s with hostMem := SMap.setRun 0 s.hostMem (k - 2 ^ 60) bs }
    else { s with mem := SMap.setRun 0 s.mem k bs }

/-- R401: a write of every byte of a sector clears its poison. -/
def State.clearPoison (s : State) (k n : Nat) : State :=
  { s with poison := s.poison.filter fun sec => !(k ≤ 32 * sec && 32 * sec + 32 ≤ k + n) }

/-- The one operation that performs a write of a run of bytes at its point of coherence. -/
def State.memWrite (s : State) (k : Nat) (bs : List Byte) : State :=
  guardRange (((touchRange s k (k + bs.length)).putBytes k bs).clearPoison k bs.length) k (k + bs.length)

/-- A range of device memory becomes 0, at sys scope; its poison is cleared. -/
def zeroRange (s : State) (lo hi : Nat) : State :=
  let s := touchRange s lo hi
  guardRange (({ s with mem := SMap.clear s.mem lo hi } : State).clearPoison lo (hi - lo)) lo hi

/-- A little-endian number written to memory. -/
def State.memWriteNat (s : State) (k n v : Nat) : State := s.memWrite k (leBytes n v)

/-- A translation's answer: the key of the first byte and whether the leaf is read-duplicated; a fault code; or that the write
is held, by a full dirty log (R397) or a checkpoint (R456). -/
inductive TRes where
  | ok (key : Nat) (dup : Bool)
  | fault (code : Nat)
  | full
deriving DecidableEq, Repr

/-- R384: whether a leaf grants an access in a mode. -/
def leafGrants (e : Nat) (acc : Acc) (user : Bool) : Bool :=
  (match acc with
   | .rd => pteBit e 3
   | .wr => pteBit e 4
   | .at => pteBit e 3 && pteBit e 4
   | .ex => pteBit e 5) && !(user && pteBit e 10)

/-- R125: a canonical address. -/
def canonical (va : DWord) : Bool :=
  let top := va.toNat / 2 ^ 56
  top = 0 || top = 255

/-- R397: whether a writer that a full log has held still waits. A group that is not resident, or is stopped, holds no other
up. -/
def stillHeld (s : State) : Writer → Bool
  | .c uid => s.allGroups.any fun g => g.uid = uid && g.live && !g.frozen && !g.halted && g.park ≠ .none
  | .l uid n => s.allGroups.any fun g => g.uid = uid && g.live && !g.frozen && !g.halted && g.curSplits.any fun x => x.idx = n && x.park = .word
  | .late uid q => s.allGroups.any fun g => g.uid = uid && g.live && !g.frozen && !g.halted && g.pend.any fun p => p.seq = q && p.late.isSome
  | .copy id => s.copies.any fun c => c.id = id && c.fault.isNone && !c.frozen
  | .matrix cl b => s.clusters.any fun c => c.id = cl && !c.mfrozen && c.queue.any fun m => m.bank = b && m.fault.isNone
  | .splat t => s.allTeams.any fun x => x.uid = t && x.live && x.splat.any fun c => !c.stopped
  | .card id => s.cards.any fun k => k.id = id && k.phase ≠ .done
  | .control sl => s.owed.any fun o => o.2.1 = sl
  | .encoder sl => s.slices.any fun c => c.id = sl && !c.encFrozen && !c.binds.isEmpty

/-- R397, R456: whether the writer of this step may go on: the writers that the log of a virtual function (or a frame, see
`frameLock`) has held retry in the order they parked. -/
def logTurn (s : State) (lock : Nat) : Bool :=
  match s.writer with
  | none => true
  | some w =>
    match (s.logq.filter fun e => e.1 = lock && stillHeld s e.2).map fun e => e.2 with
    | [] => true
    | x :: xs => x = w || !xs.contains w

/-- R397: the log-full exit, raised once per transition to full. -/
def logFullExit (s : State) (vf : Nat) : State :=
  let v := s.vf vf
  if v.logFull then s else (s.setVf { v with logFull := true }).mailEvent 16 0x02 vf (BitVec.ofNat 64 vf) 0

/-- The places of a VF's log that are written and not yet consumed. -/
def logUsed (s : State) (vf : Nat) : Nat :=
  let h := memKey vf (s.vf vf).logHdr
  s.rdMemNat h 8 - s.rdMemNat (h + 8) 8

/-- The places of a VF's log. -/
def logSize (s : State) (vf : Nat) : Nat := 2 ^ (s.rdMemNat (memKey vf (s.vf vf).logHdr + 24) 1 % 32)

/-- R396: appends a dirtied leaf to the VF's log, which may become full; `none` when it is full, or another writer's turn. DESIGN CHOICE
(log 10): while an uncorrectable error stands in the log's header, which R401 does not name, nothing can be appended. -/
def dirtyLog (s : State) (vf e sz : Nat) : Option State :=
  let v := s.vf vf
  if v.logHdr = 0 then some s
  else if s.poisoned (memKey vf v.logHdr) 32 || logUsed s vf = logSize s vf || !logTurn s vf then none
  else
    let h := memKey vf v.logHdr
    let prod := s.rdMemNat h 8
    let base := s.rdMemNat (h + 16) 8 % 2 ^ 48
    let s := s.memWriteNat (memKey vf (base + 8 * (prod % logSize s vf))) 8 (pteFrame e + sz)
    let s := (s.memWriteNat h 8 (prod + 1)).setVf { v with logFull := false }
    some (if logUsed s vf = logSize s vf then logFullExit s vf else s)

/-- R397, R456: the writer of this step waits for a log or a frame, in the order of parking. -/
def holdWriter (s : State) (lock : Nat) : State :=
  match s.writer with
  | none => { s with logHeld := true }
  | some w => { s with logHeld := true, logq := if s.logq.contains (lock, w) then s.logq else s.logq ++ [(lock, w)] }

/-- R397: a write that the log does not take now. -/
def logHold (s : State) (vf : Nat) : State :=
  holdWriter (if !s.poisoned (memKey vf (s.vf vf).logHdr) 32 && logUsed s vf = logSize s vf then logFullExit s vf else s) vf

/-- What waits for a frame of a checkpoint waits by its 4 KiB; no virtual function has such a number. -/
def frameLock (key : Nat) : Nat := 16 + key / 4096

/-- R456: whether a write of [lo, hi) is held: a checkpoint has not copied the frame yet, or it is not the writer's turn. -/
def frameHolds (s : State) (lo hi : Nat) : Bool :=
  s.ckpts.any (fun c => c.uncopied.any fun f => f.1 < hi && lo < f.1 + f.2) || !logTurn s (frameLock lo)

/-- R456: a translated write to a frame that holds it waits, with nothing done. -/
def frameChecked (s : State) (acc : Acc) (n : Nat) (r : State × TRes) : State × TRes :=
  match r.2 with
  | .ok key _ => if acc.writes && frameHolds s key (key + n) then (holdWriter s (frameLock key), .full) else r
  | _ => r

/-- R397: an engine's work within a step of another writer has ended: nothing holds the engine any more. -/
def State.served (s : State) (old : Option Writer) (w : Writer) : State :=
  { s with writer := old, logq := s.logq.filter fun e => e.2 ≠ w }

/-- R397, R456: work that a hold undoes keeps its place among those that wait. -/
def keepHold (s s' : State) (vf : Nat) : State :=
  let s := { s with logHeld := true, logq := s'.logq }
  if (s.vf vf).logHdr ≠ 0 && logUsed s vf = logSize s vf then logFullExit s vf else s

/-- R385: sets d in the leaf's entry, after the log has taken it. -/
def setDirty (s : State) (vf e sz key : Nat) : Option State :=
  (dirtyLog s vf e sz).map fun s => s.memWriteNat key 8 (s.rdMemNat key 8 ||| 256)

/-- A TLB entry covers an address. -/
def TlbEntry.covers (t : TlbEntry) (va : Nat) : Bool := t.va ≤ va && va < t.va + leafBytes t.size

/-- The TLB's entry for an address. -/
def tlbLookup (s : State) (c va : Nat) : Option TlbEntry := (s.ctx c).tlb.find? fun t => t.covers va

/-- R383, R385, R390: whether a TLB entry says what the tables say: it makes no difference then whether the TLB still
holds it. -/
def TlbEntry.agrees (t : TlbEntry) (w : WalkRes) : Bool :=
  match w with
  | .fail _ => false
  | .leaf e sz _ => t.ent.toNat ||| 256 = e ||| 256 && t.size = sz && t.d = pteBit e 8

/-- The TLB takes an entry in. -/
def tlbInsert (s : State) (c : Nat) (t : TlbEntry) : State :=
  let x := s.ctx c
  s.setCtx { x with tlb := t :: x.tlb.filter fun u => u.va ≠ t.va }

/-- R384: the slice copy a read of a duplicated leaf takes: s × dstride above the master. -/
def dupOffset (s : State) (c : Nat) (e : Nat) (acc : Acc) (rel : Nat) : Nat :=
  if pteBit e 7 && !acc.writes then rel * (s.ctx c).xb.dstride.toNat else 0

/-- R472: a 32-bit atomic on a peer's window is a rights fault. DESIGN CHOICE (log 31): so is one of another width than the 64 bits that
are carried. -/
def peerChecked (acc : Acc) (n : Nat) (r : State × TRes) : State × TRes :=
  match r.2 with
  | .ok key _ => if acc = .at && n ≠ 8 && (r.1.peerOf key).isSome then (r.1, .fault 0x13) else r
  | _ => r

/-- R390: TranslateVA: alignment, canonical form, TLB or walk, rights (R384), the dirty bit (R385). `rel` is the
reader's partition slice. -/
def translateVA (s : State) (c : Nat) (va : DWord) (n : Nat) (acc : Acc) (user : Bool) (rel : Nat) : State × TRes :=
  frameChecked s acc n <| peerChecked acc n <|
  if !canonical va then (s, .fault 0x04)
  else if va.toNat % n ≠ 0 then (s, .fault 0x03)
  else
    let a := va.toNat % 2 ^ 57
    let w := walk s c a
    let miss (s : State) : Except Nat (Nat × Nat × Bool × State) :=
      match w with
      | .fail code => .error code
      | .leaf e sz _ =>
        .ok (e, sz, pteBit e 8, tlbInsert (s.countEvent c 0x0D 1) c ⟨a / leafBytes sz * leafBytes sz, BitVec.ofNat 64 e, sz, pteBit e 8⟩)
    let keeps := Config.tlbKeeps s.tick (a / 2 ^ 12)
    let look : Except Nat (Nat × Nat × Bool × State) :=
      match tlbLookup s c a with
      | none => miss s
      | some t =>
        if t.agrees w then .ok (t.ent.toNat, t.size, t.d, s.countEvent c 0x0D (if keeps then 0 else 1))
        else if keeps then .ok (t.ent.toNat, t.size, t.d, s)
        else miss s
    match look with
    | .error code => (s.countEvent c 0x0D 1, .fault code)
    | .ok (e, sz, d, s1) =>
      if !leafGrants e acc user then (s1, .fault 0x13)
      else
        let key := memKey (c / 64) (pteFrame e + a % leafBytes sz + dupOffset s c e acc rel)
        if acc.writes && !d then
          match walk s1 c a with
          | .fail code => (s1, .fault code)
          | .leaf e' sz' ke =>
            match setDirty s1 (c / 64) e' sz' ke with
            | none => (logHold s1 (c / 64), .full)
            | some s2 =>
              (noteGuard (tlbInsert s2 c ⟨a / leafBytes sz * leafBytes sz, BitVec.ofNat 64 e, sz, true⟩) c a key n, .ok key (pteBit e 7))
        else (if acc.writes then noteGuard s1 c a key n else s1, .ok key (pteBit e 7))

/-- The sign-extended 57-bit base of a translation register. -/
def TReg.baseVA (t : TReg) : DWord := t.base.signExtend 64

/-- R206, R387: the limit: bytes from base to the end of its leaf, or the object's length when smaller. -/
def TReg.limit (t : TReg) : Nat :=
  let toEnd := leafBytes t.sz.toNat - t.base.toNat % leafBytes t.sz.toNat
  if t.obj then min toEnd t.len else toEnd

/-- R388 step 3: whether a register is stale. -/
def TReg.isStale (t : TReg) (gen : Word) : Bool := t.stale || t.gen ≠ gen.setWidth 12

/-- An object-table entry's answer (R369): its sixteen words, or a fault code 0x18–0x1B. -/
inductive ObjRes where
  | ok (words : List Word)
  | fault (code : Nat)
deriving DecidableEq, Repr

/-- Memory once the first n of the writes that overlap this step are performed (R369, R370). -/
def raced (s : State) (n : Nat) : State :=
  (s.race.mapIdx fun i w => (i, w)).foldl (fun s w => if w.1 < n then s.putBytes w.2.1 w.2.2 else s) s

/-- R369: the reads of an entry: its header, the four 16-byte units (R146), and the header again. The writes that overlap the
step are performed in their order, at free moments between the reads; the units are read in any order. -/
def entryReads (s : State) (k : Nat) : List Word × List Word × List Word :=
  let n := s.race.length
  let lo := min n (Config.raceCut s.tick 0)
  let hi := lo + Config.raceCut s.tick 1 % (n - lo + 1)
  let unit (u : Nat) : List Byte := (raced s (lo + Config.raceCut s.tick (u + 2) % (hi - lo + 1))).rdMemN (k + 16 * u) 16
  (wordsOf ((raced s lo).rdMemN k 8), wordsOf (unit 0 ++ unit 1 ++ unit 2 ++ unit 3), wordsOf ((raced s hi).rdMemN k 8))

/-- R367–R369: the check of an entry for a use: its kind and the rights needed. -/
def objCheck (s : State) (c idx kind : Nat) (rd wr : Bool) : ObjRes :=
  let x := s.ctx c
  if x.ocount.toNat ≤ idx then .fault 0x18
  else
    let k := memKey (c / 64) (x.otab.toNat + 64 * idx)
    if s.poisoned k 64 then .fault 0x19
    else
      let (head, ws, again) := entryReads s k
      let h := (head.headD 0).toNat
      let h2 := (head.getD 1 0).toNat
      if head ≠ again then .fault 0x1A
      else if h.testBit 10 && h % 256 = kind && h / 2 ^ 11 = 0 && h2 = 0 && (!rd || h.testBit 8) && (!wr || h.testBit 9)
      then .ok (head ++ ws.drop 2) else .fault 0x1B

/-- A 64-bit field of an entry at a word index. -/
def wordPair (ws : List Word) (i : Nat) : DWord := ws.getD (i + 1) 0 ++ ws.getD i 0

/-- R371: the buffer entry's own fields: base and length, or a fault. -/
def bufferCheck (ws : List Word) : Option (DWord × Nat) :=
  let base := wordPair ws 2
  let len := (wordPair ws 4).toNat
  let h := (ws.headD 0).toNat
  if len = 0 || 2 ^ 57 < len || !canonical base || (ws.drop 6).any (· ≠ 0) || h / 256 % 4 = 0 then none
  else some (base, len)

/-- R206: what a bind of a virtual base gives: the register, or a fault code. -/
def bindBase (s : State) (c : Nat) (base : DWord) (rights : BitVec 2) : Except Nat TReg :=
  if !canonical base then .error 0x04
  else
    match walk s c (base.toNat % 2 ^ 57) with
    | .fail code => .error code
    | .leaf e sz _ =>
      if (rights.getLsbD 0 && !pteBit e 3) || (rights.getLsbD 1 && !pteBit e 4) then .error 0x13
      else
        let pa := pteFrame e + base.toNat % leafBytes sz
        .ok { oidx := 0, gen := (s.ctx c).xb.gen.setWidth 12, frame := BitVec.ofNat 36 (pa / 2 ^ 12), obj := false,
              sz := BitVec.ofNat 2 sz, rights := rights, base := base.setWidth 57, len := 0, stale := false, hnd := pteBit e 10,
              dup := pteBit e 7 }

/-- R368, R371: the buffer entry of an index for a bind, with the rights needed: its words, base and length. -/
def bufferOf (s : State) (c idx : Nat) (rd wr : Bool) : Except Nat (List Word × DWord × Nat) :=
  match objCheck s c idx 1 rd wr with
  | .fault code => .error code
  | .ok ws =>
    match bufferCheck ws with
    | none => .error 0x1B
    | some (base, len) => .ok (ws, base, len)

/-- R371: what a bind of an object gives. -/
def bindObj (s : State) (c idx : Nat) : Except Nat TReg :=
  match bufferOf s c idx false false with
  | .error code => .error code
  | .ok (ws, base, len) =>
    let h := (ws.headD 0).toNat
    match bindBase s c base (BitVec.ofBool (h.testBit 9) ++ BitVec.ofBool (h.testBit 8)) with
    | .error code => .error code
    | .ok t => .ok { t with obj := true, oidx := BitVec.ofNat 16 idx, len := len }

/-- R389: the re-bind of a stale register: its base is walked with its rights; an object's entry is checked again for them
first, and gives its length. A handler's scratch area, which no table maps, stays what it is (R361, log 14). -/
def rebind (s : State) (c : Nat) (t : TReg) : Except Nat TReg :=
  if t.scr then .ok { t with gen := (s.ctx c).xb.gen.setWidth 12, stale := false }
  else if t.obj then
    match bufferOf s c t.oidx.toNat (t.rights.getLsbD 0) (t.rights.getLsbD 1) with
    | .error code => .error code
    | .ok (_, _, len) =>
      match bindBase s c t.baseVA t.rights with
      | .error code => .error code
      | .ok u => .ok { u with obj := true, oidx := t.oidx, len := len }
  else bindBase s c t.baseVA t.rights

/-- R398: the address kept for a fault of an access at an offset through a register: the offset where the register is unbound or
its object does not reach so far, the index of an object whose check failed, the base where the walk of a re-bind failed (R389), else
the virtual address. -/
def TReg.faultAddr (s : State) (c : Nat) (t : TReg) (code : Nat) (off : Int) : DWord :=
  if code = 0x14 || code = 0x15 then BitVec.ofInt 64 off
  else if 0x18 ≤ code && code ≤ 0x1B then t.oidx.setWidth 64
  else if t.isStale (s.ctx c).xb.gen && !(rebind s c t).isOk then t.baseVA
  else t.baseVA + BitVec.ofInt 64 off

/-- The key that a register's own frame gives for an offset within its limit; a read of a duplicated leaf takes the copy of
the reader's slice (R384). -/
def TReg.frameKey (s : State) (c : Nat) (t : TReg) (off : Nat) (acc : Acc) (rel : Nat) : Nat :=
  memKey (c / 64) (t.frame.toNat * 2 ^ 12 + t.base.toNat % 2 ^ 12 + off
    + (if t.dup && !acc.writes then rel * (s.ctx c).xb.dstride.toNat else 0))

/-- R390: Translate(t, off, n, acc) but for R472's rule: also the register as a re-bind leaves it. -/
def translateReg (s : State) (c : Nat) (t : TReg) (off : Int) (n : Nat) (acc : Acc) (user : Bool) (rel : Nat) :
    State × TReg × TRes :=
  if t.rights = 0 then (s, t, .fault 0x14)
  else
    let walked (s : State) : State := if t.isStale (s.ctx c).xb.gen && !t.scr then s.countEvent c 0x0D 1 else s
    match (if t.isStale (s.ctx c).xb.gen then rebind s c t else .ok t) with
    | .error code => (walked s, t, .fault code)
    | .ok t =>
      let s := walked s
      let va : DWord := t.baseVA + BitVec.ofInt 64 off
      if t.obj && (off < 0 || (t.len : Int) < off + n) then (s, t, .fault 0x15)
      else if (acc.reads && !t.rights.getLsbD 0) || (acc.writes && !t.rights.getLsbD 1) then (s, t, .fault 0x13)
      else if va.toNat % n ≠ 0 then (s, t, .fault 0x03)
      else if 0 ≤ off && off + n ≤ (t.limit : Int) then
        if user && t.hnd then (s, t, .fault 0x13)
        else
          let key := t.frameKey s c off.toNat acc rel
          let a := va.toNat % 2 ^ 57
          if acc.writes then
            match walk s c a with
            | .fail _ => (noteGuard s c a key n, t, .ok key t.dup)
            | .leaf e sz ke =>
              if leafKey c a e sz ≠ key || pteBit e 8 then (noteGuard s c a key n, t, .ok key t.dup)
              else
                match setDirty s (c / 64) e sz ke with
                | none => (logHold s (c / 64), t, .full)
                | some s2 => (noteGuard s2 c a key n, t, .ok key t.dup)
          else (s, t, .ok key t.dup)
      else
        let (s2, r) := translateVA s c va n acc user rel
        (s2, t, r)

/-- R390, R472: Translate(t, off, n, acc): also the register as a re-bind leaves it. -/
def translateT (s : State) (c : Nat) (t : TReg) (off : Int) (n : Nat) (acc : Acc) (user : Bool) (rel : Nat) :
    State × TReg × TRes :=
  let (s1, t1, r) := translateReg s c t off n acc user rel
  let (s2, r2) := frameChecked s acc n (peerChecked acc n (s1, r))
  (s2, t1, r2)

end Sys2Proof.Machine
end

