-- ==== Sys2Proof/Machine/Cache.lean ====
section
/-! DEFINITION. The L1 of a core (R134–R137), read-duplicated pages (R149), the ordering operations (R141) and
the scratchpad window and roof store of a team. -/

namespace Sys2Proof

/-- R133: whether the point of coherence of a scope lies beyond the L1 (fused: of the cluster). -/
def Scope.beyondL1 (sc : Scope) (fused : Bool) : Bool :=
  match sc with
  | .grp => false
  | .team => false
  | .clu => !fused
  | .slc => true
  | .prt => true
  | .sys => true

/-- R134: a store at this scope begins no propagation. -/
def Scope.stays (sc : Scope) : Bool := sc = .grp || sc = .team

/-- R472: the atomics that are carried to a peer. -/
def AtomOp.carried : AtomOp → Bool
  | .add | .cas | .exch => true
  | .min | .max | .and | .or | .xor => false

namespace Machine

/-- A byte that a store through an L1 has left there, under the master's key: dirty, or held in a pending line (R149). -/
def L1.own (l : L1) (mk : Nat) : Option Byte :=
  match SMap.find l.dirty mk with
  | some (b, _) => some b
  | none => SMap.find l.held mk

namespace State

/-- Whether the L1 of the issuing core is the fused one. -/
def l1Fused (s : State) : Bool := (s.cluster s.clusterId).fused

/-- One byte as a plain load through an L1 returns it (R136, R140): what its own stores left (under the master's key `mk`),
a clean line that the L1 may still hold, or memory. -/
def l1Byte (s : State) (id k mk : Nat) : Byte :=
  let l := s.l1 id
  match l.own mk with
  | some b => b
  | none =>
    match SMap.find l.clean (k / 128) with
    | some line => if Config.l1Keeps s.tick (k / 128) then SMap.get 0 line k else s.rdMem k
    | none => s.rdMem k

/-- One byte as an acquiring load returns it (R136): what the L1's own stores left, or memory. -/
def acqByte (s : State) (id k mk : Nat) : Byte := ((s.l1 id).own mk).getD (s.rdMem k)

/-- The L1 takes a clean line of device memory in, if it bears no error (R401). DESIGN CHOICE (log 12): it keeps no clean line of host
memory or of a peer's, whichever word asks for one; R136 leaves open how long an L1 keeps a clean line. -/
def l1Fill (s : State) (id line : Nat) : State :=
  let l := s.l1 id
  if keyIsHost (128 * line) || s.poisoned (128 * line) 128 then s
  else s.setL1 { l with clean := SMap.insert l.clean line (SMap.slice s.mem (128 * line) (128 * line + 128)) }

/-- R136: the clean bytes of every line of an L1 are invalidated. -/
def l1Invalidate (s : State) (id : Nat) : State :=
  let l := s.l1 id
  s.setL1 { l with clean := [] }

/-- Clean lines with the bytes of a store that has been performed. -/
def freshen (clean : SMap (SMap Byte)) (done : SMap (Byte × Scope)) : SMap (SMap Byte) :=
  clean.map fun e => (e.1, (done.filter fun d => d.1 / 128 = e.1).foldl (fun l d => SMap.set 0 l d.1 d.2.1) e.2)

/-- The bytes of an L1's dirty map that satisfy `p` are performed at their home, and are no longer dirty: a clean line shows
them, and in a pending line they are held until it is acknowledged (R149). A sector that one store wrote whole is performed
whole, and its poison is cleared (R401). -/
def performDirty (s : State) (id : Nat) (p : Nat → Bool) : State :=
  let l := s.l1 id
  let hit := l.whole.filter fun sec => (List.range 32).any fun i => p (32 * sec + i)
  let q (k : Nat) : Bool := p k || hit.contains (k / 32)
  let out := l.dirty.filter fun e => q e.1
  let held := (out.filter fun e => l.dup.any fun d => d.1 = e.1 / 128).foldl (fun h e => SMap.insert h e.1 e.2.1) l.held
  let dirty := l.dirty.filter fun e => !q e.1
  let inKeys (w : GuardWrite) (m : SMap (Byte × Scope)) : Bool := m.any fun e => w.key ≤ e.1 && e.1 < w.key + w.n
  let s := { s with guardW := s.guardW ++ l.guards.filter fun w => inKeys w out }
  let s := out.foldl (fun s e => s.memWrite e.1 [e.2.1])
    (s.setL1 { l with dirty := dirty, held := held, clean := freshen l.clean out, whole := l.whole.filter fun sec => !hit.contains sec,
                      guards := l.guards.filter fun w => inKeys w dirty })
  { s with poison := s.poison.filter fun sec => !hit.contains sec }

/-- R401: whether a load by the issuing core meets poison in the n bytes: its own store of a whole sector hides it. -/
def poisonedHere (s : State) (k n : Nat) : Bool :=
  s.lostPeer k ||
  s.poison.any fun sec => k < 32 * sec + 32 && 32 * sec < k + n && !(s.l1 s.l1Id).whole.contains sec

/-- R401: the poisoned sectors of which a store of n bytes at each of some keys wrote every byte. -/
def markWhole (s : State) (keys : List Nat) (n : Nat) : State :=
  let full := s.poison.filter fun sec => (List.range 32).all fun i => keys.any fun k => k ≤ 32 * sec + i && 32 * sec + i < k + n
  let l := s.l1 s.l1Id
  if full.isEmpty then s else s.setL1 { l with whole := full ++ l.whole.filter fun sec => !full.contains sec }

/-- A line is invalidated in every L1. -/
def dropClean (s : State) (line : Nat) : State :=
  { s with l1s := s.l1s.map fun l => { l with clean := SMap.erase l.clean line } }

/-- R149, R401: the slice copies of a duplicated line take the master's bytes, and its errors, and their readers see them. -/
def syncDup (s : State) (line ctx : Nat) : State :=
  let bytes := s.rdMemN (128 * line) 128
  let st := (s.ctx ctx).xb.dstride.toNat
  let bad := s.poison.filter fun sec => sec / 4 = line
  (List.range ((s.partSlices (ctx / 64)).length - 1)).foldl (fun s i =>
    let s := (s.memWrite (128 * line + (i + 1) * st) bytes).dropClean (line + (i + 1) * st / 128)
    if bad.isEmpty then s else { s with poison := bad.map (fun sec => sec + (i + 1) * st / 32) ++ s.poison }) (s.dropClean line)

/-- The same for every line that n bytes at a key touch. -/
def syncDupN (s : State) (k n ctx : Nat) : State :=
  (List.range ((k + n + 127) / 128 - k / 128)).foldl (fun s i => s.syncDup (k / 128 + i) ctx) s

/-- R149: the holders of a pending-duplicate line acknowledge: its dirty bytes are performed on the master, and
every holder's copy shows them. -/
def ackDup (s : State) (id line : Nat) : State :=
  match (s.l1 id).dup.find? fun d => d.1 = line with
  | none => s
  | some d =>
    let s := s.performDirty id fun k => k / 128 = line
    let s := s.syncDup line d.2
    let l := s.l1 id
    s.setL1 { l with dup := l.dup.filter fun d => d.1 ≠ line, held := l.held.filter fun e => e.1 / 128 ≠ line }

/-- Every pending-duplicate line of an L1 is acknowledged. -/
def ackAllDup (s : State) (id : Nat) : State := (s.l1 id).dup.foldl (fun s d => s.ackDup id d.1) s

/-- R135, R149: ScopeWriteBack(sc) on an L1, and the wait for every earlier store to be performed at sc. -/
def writeBackL1 (s : State) (id : Nat) (sc : Scope) (fused : Bool) : State :=
  if sc.stays then s
  else if sc.beyondL1 fused then (s.performDirty id fun _ => true).ackAllDup id
  else s.ackAllDup id

/-- R135: ScopeWriteBack(sc) by the issuing group. -/
def scopeWriteBack (s : State) (sc : Scope) : State := s.writeBackL1 s.l1Id sc s.l1Fused

/-- R136: what an acquire at sc does after it has been performed. -/
def acquire (s : State) (sc : Scope) : State := if sc.beyondL1 s.l1Fused then s.l1Invalidate s.l1Id else s

/-- R369: the check of an object entry by a core reads it at sys scope with acquire: clean lines of its L1 are dropped. -/
def objAcquire (s : State) : State := s.acquire .sys

/-- Loads n bytes at a key (R134–R140); an acquiring order reads at the point of coherence of its scope. From a
duplicated page the key is that of the reader's copy, and the writer's own bytes stand under the master's (R149). -/
def loadBytes (s : State) (k n : Nat) (o : Order) (sc : Scope) (dup : Bool) : State × List Byte :=
  let id := s.l1Id
  let acq := (o = .acq || o = .ar) && sc.beyondL1 s.l1Fused
  let off := if dup then s.relSlice s.sliceId * s.gctx.xb.dstride.toNat else 0
  let bs := (List.range n).map fun i =>
    if acq then s.acqByte id (k + i) (k + i - off) else s.l1Byte id (k + i) (k + i - off)
  (if acq then s.acquire sc else s.l1Fill id (k / 128), bs)

/-- R149: the pending-duplicate lines with the line of a key, if its page is duplicated. -/
def pendDup (s : State) (l : L1) (k : Nat) (dup : Bool) : List (Nat × Nat) :=
  if dup && !(l.dup.any fun e => e.1 = k / 128) then l.dup ++ [(k / 128, s.g.ctx)] else l.dup

/-- R472: the scope of an access at a key: sys in a peer's window. -/
def keyScope (s : State) (k : Nat) (sc : Scope) : Scope := if (s.peerOf k).isSome then .sys else sc

/-- Stores bytes at a key at a scope (R134); to a read-duplicated page the line becomes pending (R149). -/
def storeBytes (s : State) (k : Nat) (bs : List Byte) (sc : Scope) (dup : Bool) : State :=
  let l := s.l1 s.l1Id
  let sc := s.keyScope k sc
  let dirty := (List.range bs.length).foldl (fun d i => SMap.insert d (k + i) (bs.getD i 0, sc)) l.dirty
  s.setL1 { l with dirty := dirty, dup := s.pendDup l k dup,
                   guards := l.guards ++ s.guardW.filter fun w => w.key < k + bs.length && k < w.key + w.n }

/-- R147: a read-modify-write at the point of coherence of its scope. -/
def atomicBytes (s : State) (k n : Nat) (o : Order) (sc : Scope) (dup : Bool) (f : Nat → Nat) : State × Nat :=
  let sc := s.keyScope k sc
  let s := if o = .rel || o = .ar then s.scopeWriteBack sc else s
  let id := s.l1Id
  if sc.beyondL1 s.l1Fused then
    let s := s.performDirty id fun x => k ≤ x && x < k + n
    let old := s.rdMemNat k n
    let new := leBytes n (f old)
    let s := s.memWrite k new
    let l := s.l1 id
    let held := if dup then (List.range n).foldl (fun h i => SMap.insert h (k + i) (new.getD i 0)) l.held else l.held
    let s := s.setL1 { l with clean := SMap.erase l.clean (k / 128), held := held, dup := s.pendDup l k dup }
    (if o = .acq || o = .ar then s.acquire sc else s, old)
  else
    let old := leValue ((List.range n).map fun i => s.l1Byte id (k + i) (k + i))
    (s.storeBytes k (leBytes n (f old)) sc dup, old)

/-- R141, R145: a FENCE of a kind at a scope, on the issuing core. -/
def fence (s : State) (k : FenceKind) (sc : Scope) : State :=
  match k with
  | .acq => s.acquire sc
  | .rel => s.scopeWriteBack sc
  | .ar => (s.scopeWriteBack sc).acquire sc
  | .sc => (s.scopeWriteBack sc).acquire sc

/-- The scratchpad bytes of the issuing team. -/
def spBytes (s : State) (o n : Nat) : List Byte := SMap.getRun 0 s.t.sp o n
/-- A little-endian number of the window. -/
def spNat (s : State) (o n : Nat) : Nat := leValue (s.spBytes o n)
/-- Stores bytes in the window. -/
def spWrite (s : State) (o : Nat) (bs : List Byte) : State := s.mapT fun t => { t with sp := SMap.setRun 0 t.sp o bs }
/-- R126: whether n bytes at an offset lie in the window. -/
def spIn (s : State) (o : Int) (n : Nat) : Bool := 0 ≤ o && o + n ≤ (s.t.wsize : Int)
/-- R130: whether every line that n bytes touch is full. -/
def spFull (s : State) (o n : Nat) : Bool := s.t.emptyL.all fun l => !(l < (o + n + 127) / 128 && o / 128 ≤ l)
/-- The roof store's bytes of the issuing core's cluster. -/
def roofBytes (s : State) (o n : Nat) : List Byte := SMap.getRun 0 (s.cluster s.clusterId).roof o n

end State

/-- R124, R272: the size of a roof store. -/
def roofSize : Nat := 1572864

end Machine
end Sys2Proof
end

