-- ==== Sys2Proof/Machine/Ops.lean ====
section
/-! DEFINITION. The operations every meaning is made of: how a word of each stream ends, parks, or faults; taking
an exception (R359, R361, R399) and returning from one (R363). -/

namespace Sys2Proof.Machine

/-- The outcome of a meaning. -/
abbrev Res := Host.Outcome State Fault Refusal

/-! ## Ends and waits of a control word -/

/-- A C-stream word has issued: the PC passes it, and a W parks the stream until its results have returned
(R40). -/
def Group.endC (g : Group) (w : Bool) (len : Nat) : Group :=
  let g := { g with
    pc := g.pc + BitVec.ofNat 64 len, park := .none, sleepEnd := none, arrived := false, waitBar := none, barLost := false, heapW := {} }
  if w then (if g.drained g.cStrm then g.dropReturned g.cStrm else { g with park := .drain }) else g

/-- The same, for the group that issues. -/
def State.endC (s : State) (w : Bool) (len : Nat) : State := s.mapG fun g => g.endC w len

/-- A C-stream word that branches: the PC becomes the target. -/
def Group.jumpC (g : Group) (w : Bool) (target : DWord) : Group := { g.endC w 0 with pc := target }

/-- A C-stream word waits: it stays at its PC and issues again when it may go on (R181). The order of waiting is
kept by `parkSeq`. -/
def State.parkC (s : State) (k : ParkKind) : State :=
  s.mapG fun g => { g with park := k, parkSeq := if g.park = k then g.parkSeq else s.tick, waitBank := none }

/-- R141, R196: the C-stream has a load that is not performed yet, a TSTB of an empty line. -/
def Group.loadsDue (g : Group) : Bool := g.pend.any fun p => p.strm = g.cStrm && p.test.isSome

/-- R141: a word that orders every earlier access of its stream waits until those loads have returned, and is then issued again. -/
def afterLoads (k : State → Host.Outcome State Fault Refusal) (s : State) : Host.Outcome State Fault Refusal :=
  if s.g.loadsDue then .next (s.parkC .again) else k s

/-- R39, R139: the words of a split, and of those it was made from, that have issued and still wait. -/
def Group.waiting (g : Group) (x : Split) : List Pend :=
  g.pend.filter fun p => p.late.isSome && (p.strm = .l (g.splitKey x.idx) || x.after.contains p.seq)

/-- R40, R91: a split that waits for its results and has them all goes on, and they stand drained. -/
def Group.wakeSplit (g : Group) (sp : Split) : Group :=
  let st := Strm.l (g.splitKey sp.idx)
  if sp.park = .drain && !sp.ending && g.drained st then (g.dropReturned st).mapSplit sp.idx fun x => { x with park := .ready } else g

/-- R40, R91: after a result has returned, the stream or split that waited for it goes on. -/
def Group.wake (g : Group) : Group :=
  let g := if (g.park = .drain || g.park = .again) && g.drained g.cStrm then { g.dropReturned g.cStrm with park := .none } else g
  g.curSplits.foldl Group.wakeSplit g

/-! ## Exceptions -/

/-- R404: the key of the handler scratch area of a group's slot. -/
def scratchKey (s : State) : Nat :=
  let x := s.gctx
  let k := 16 * s.relSlice s.sliceId + s.clusterId % 16
  memKey s.vfId (x.sb.hscr.toNat + 4096 * ((5 * k + s.coreId % 8) * 48 + s.g.slot))

/-- R361, R404: whether a fault of the group is taken by its context's handler. -/
def hasHandler (s : State) : Bool := s.gctx.hvec.getLsbD 0 && s.gctx.sb.hscr ≠ 0

/-- R361, R387: the handler's t15: the group's scratch area, with read and write rights. -/
def scratchT (s : State) : TReg :=
  { gen := s.gctx.xb.gen.setWidth 12, frame := BitVec.ofNat 36 (scratchKey s % 2 ^ 48 / 2 ^ 12), rights := 3, scr := true }

/-- R365, R366: the hs registers of a fault. -/
def FaultInfo.hsRegs (f : FaultInfo) : HsRegs := ⟨f.cause, f.pc, f.mask, f.addr⟩

/-- R391: the first 32 bytes of the scratch area at handler entry. -/
def writeScratch (s : State) : State :=
  let x := s.gctx
  s.memWrite (scratchKey s)
    (leBytes 8 x.xb.ptwin.toNat ++ leBytes 8 x.xb.pool.toNat ++ leBytes 4 x.xb.gen.toNat ++ leBytes 12 0)

/-- R361: handler entry, all in one step. -/
def enterHandler (s : State) (f : FaultInfo) : State :=
  let s := writeScratch (s.countEvent s.g.ctx 0x0E 1)
  let t15 := scratchT s
  let hvec := s.gctx.hvec
  s.mapG fun g =>
    { g with
      hs := f.hsRegs, hl := f.lanes, m15user := SMap.get (mDefault 15) g.m 15,
      m := SMap.set (mDefault 15) g.m 15 f.mask, hb := [], hq7 := false, ht15 := t15, hlaneq := [], hsplits := [],
      hlate := f.late, hfresh := f.fresh, hact := f.act, upc := g.pc, upark := g.park, usleep := g.sleepEnd, uarrived := g.arrived,
      uwaitBar := g.waitBar, ubarLost := g.barLost, uheap := g.heapW, mode := .handler, pc := hvec &&& ~~~3#64, park := .none,
      sleepEnd := none, arrived := false, waitBar := none, barLost := false, heapW := {} }

/-- The lanes that a frozen lane word will execute again when the group is thawed (R360); a word that had waited keeps them
itself. -/
def markRedo (s : State) (f : FaultInfo) (chans : List Word) : State :=
  if f.late.isSome then s
  else if f.src = 1 then
    (if f.code = 8 then
      (if s.g.inHandler then s
       else s.mapG fun g => g.mapSplit f.split.toNat fun sp => { sp with pc := sp.pc + 1, redo := none })
     else s.mapG fun g => g.mapSplit f.split.toNat fun sp => { sp with redo := some ⟨f.mask, if f.taken then some chans else none, f.fresh, f.act⟩ })
  else if f.src = 0 && f.code = 8 && !s.g.inHandler then s.mapG fun g => { g with pc := f.pc + 4 }
  else s

/-- R359, R399, R400: the group is frozen and its slice controller gets a record: 0x40 without a handler, 0x41 for
a fault in handler mode. -/
def freezeGroup (s : State) (f : FaultInfo) (chans : List Word) (code : Byte) : State :=
  let s := if code = 0x40 then s.mapG fun g => { g with hs := f.hsRegs } else s
  let r : Record :=
    { code := code, inner := f.code, handle := teamHandle s.t s.g, cause := s.g.hs.cause, pasid := s.gctx.pasid,
      pc := s.g.hs.pc, addr := f.addr }
  let s := markRedo s f chans
  (s.mapG fun g => if f.src = 0 then { g with frozen := true, park := .none, waitBar := none, barLost := false, heapW := {} }
    else { g with frozen := true }).escalate s.sliceId r

/-- R49, R359: taking a fault: the handler is entered from user mode; without one, or in handler mode, the group is
frozen and escalated; a controller core stops and is reported to the device manager (R359). `chans` are the channel
values a faulting lane word had popped (R211). -/
def takeFault (s : State) (f : FaultInfo) (chans : List Word) : State :=
  match s.g.mode with
  | .user =>
    if hasHandler s then (enterHandler s f).mapG fun g => { g with hchans := if f.taken then some chans else none }
    else freezeGroup s f chans 0x40
  | .handler => freezeGroup s f chans 0x41
  | .slice =>
    { s.mapG (fun g => { g with frozen := true }) with
      agenda := s.agenda ++ [.ctlFault s.sliceId f.code.toNat] }
  | .device =>
    { s.mapG (fun g => { g with frozen := true }) with agenda := s.agenda ++ [.event .deviceManagerFault], mgrDown := true }

/-! ## Errors of the stored bits (R401) -/

/-- R401: the slice counts an uncorrectable error. -/
def uncorrected (s : State) (sl : Nat) : State :=
  let c := s.slice sl
  s.setSlice { c with uncorr := c.uncorr + 1 }

/-- R400, R401: a group's own state is lost: the group alone is frozen, and its slice controller gets record 0x46. Thawed, it
meets the lost bits again: they never become a value. -/
def groupUpset (s : State) (uid : Nat) : State :=
  match s.group? uid with
  | none => s
  | some g =>
    match s.team? g.team with
    | none => s
    | some t =>
      let r : Record :=
        { code := 0x46, handle := teamHandle t g, cause := g.hs.cause, pasid := (s.ctx t.ctx).pasid, pc := g.hs.pc }
      (s.mapGroups (fun x => x.uid = uid) fun x => { x with frozen := true, lost := true }).escalate (t.ppos / 128) r

/-- R400: every group of a team is frozen, with record 0x46. -/
def freezeWindow (s : State) (uid : Nat) : State :=
  match s.team? uid, s.allGroups.find? fun g => g.live && g.team = uid with
  | some t, some g =>
    let r : Record := { code := 0x46, handle := teamHandle t g, pasid := (s.ctx t.ctx).pasid }
    (s.mapGroups (fun x => x.live && x.team = uid) fun x => { x with frozen := true }).escalate (t.ppos / 128) r
  | _, _ => s

/-- R400, R401: a line of a team's window is lost. -/
def windowUpset (s : State) (uid line : Nat) : State :=
  match s.team? uid with
  | none => s
  | some t =>
    let s := (uncorrected s (t.ppos / 128)).mapTeams (fun u => u.uid = uid) fun u =>
      { u with lostL := line :: u.lostL.filter fun x => x ≠ line }
    freezeWindow s uid

/-- Whether an error has taken state that the issuing group runs on. -/
def lostHere (s : State) : Bool := s.g.lost || !s.t.lostL.isEmpty

/-- R401: the issuing group meets the lost bits: it, or its team, is frozen again. -/
def meetLost (s : State) : State := if s.g.lost then groupUpset s s.g.uid else freezeWindow s s.t.uid

/-! ## Faults -/

/-- R182: a fault of the C-stream word at the PC. -/
def faultC (s : State) (code : Nat) (addr : Nat) : Res :=
  .next (takeFault s { code := BitVec.ofNat 8 code, pc := s.g.pc, addr := BitVec.ofNat 64 addr } [])

/-- R81: the illegal-instruction fault of the C-stream word at the PC. -/
def illegalC (s : State) : Res := faultC s 0x01 0

/-- R211: a fault of the lane word at a split's PC: the faulting lanes with each one's code and address. -/
def laneFaultInfo (sp : Split) (code tcode : Nat) (mask : Word) (lanes : SMap (Byte × DWord)) : FaultInfo :=
  { code := BitVec.ofNat 8 code, src := 1, tcode := BitVec.ofNat 12 tcode, split := BitVec.ofNat 2 sp.idx,
    pc := sp.pc.setWidth 64, addr := (match lanes with | [] => 0 | l :: _ => l.2.2), mask := mask, lanes := lanes }

/-- The lanes of a mask, in ascending order. -/
def lanesOf (mask : Word) : List Nat := (List.range 32).filter fun l => mask.getLsbD l

/-- The mask of a list of lanes. -/
def maskOf (ls : List Nat) : Word := ls.foldl (fun m l => m ||| (1#32 <<< l)) 0

/-- R211: a word fault of a lane word: every lane of the mask gets the code. -/
def wordFaultL (s : State) (sp : Split) (code : Nat) (mask : Word) : Res :=
  let f := laneFaultInfo sp code 0 mask ((lanesOf mask).map fun l => (l, (BitVec.ofNat 8 code, 0)))
  .next (takeFault s { f with fresh := code = 0x02 } [])

/-- R79, R361: the next fault an engine has delivered to the group is taken at this boundary. -/
def takeEngineFault (s : State) : State :=
  match s.g.faults with
  | [] => s
  | f :: fs =>
    let s := s.mapG fun g => { g with faults := fs }
    takeFault s { f with pc := s.g.pc } []

/-- An engine delivers a fault to a group, which takes it at its next boundary (R163, R263, R317). -/
def deliverFault (s : State) (uid : Nat) (code : Byte) (addr : DWord) : State :=
  s.mapGroups (fun g => g.uid = uid) fun g => { g with faults := g.faults ++ [{ code := code, src := 2, addr := addr }] }

/-! ## Return -/

/-- R363: what RETT does to the split of a lane fault. -/
def rettSplit (g : Group) (lanes : Word) (sp : Split) : Split :=
  if g.hs.cause.extractLsb' 0 8 = 8 then { sp with pc := g.hs.pc.setWidth 32 + 1, redo := none }
  else if lanes = 0 then { sp with pc := sp.pc + 1, redo := none }
  else { sp with redo := some ⟨lanes, g.hchans, g.hfresh, g.hact⟩ }

/-- R363: what RETT does to the fault of a word that had waited: the word waits to execute again for the lanes left. -/
def rettLate (lanes : Word) (seq : Nat) (p : Pend) : Pend :=
  if p.seq = seq && p.late.isSome then
    { p with late := if lanes = 0 then none else p.late.map fun w => { w with act := lanes },
             dests := p.dests.filter fun d => lanes.getLsbD (d.key % 32) }
  else p

/-- R363: what RETT waits for: the handler's results have returned and its lane queue is empty. -/
def handlerDone (g : Group) : Bool :=
  g.hlaneq.isEmpty && g.hsplits.isEmpty && g.pend.all fun p => p.returned || (match p.strm with | .c => true | .l k => k < 8)

/-- R363: the user bank comes back, and the user streams stand where they stopped. -/
def Group.userBank (g : Group) : Group :=
  { g with
    mode := .user, m := SMap.set (mDefault 15) g.m 15 g.m15user, hb := [], hq7 := false, hchans := none, hlate := none,
    hfresh := false, hact := 0, pc := g.upc, park := g.upark, sleepEnd := g.usleep, usleep := none, arrived := g.uarrived,
    uarrived := false, waitBar := g.uwaitBar, uwaitBar := none, barLost := g.ubarLost, ubarLost := false,
    heapW := g.uheap, uheap := {}, pend := g.pend.filter fun p => match p.strm with | .c => true | .l k => k < 8 }

/-- R363: the return itself, once the handler's results and block have ended: the user bank is restored, and the
faulting word executes again or is passed. Results that came meanwhile let their streams go on. -/
def rettGroup (g : Group) : Group :=
  let lanes := SMap.get (mDefault 15) g.m 15 &&& g.hs.lmask
  let src := g.hs.cause.extractLsb' 10 2
  let trap := g.hs.cause.extractLsb' 0 8 = 8
  let n := (g.hs.cause.extractLsb' 8 2).toNat
  let u := g.userBank
  Group.wake (if src = 0 then
      { u with pc := if trap then g.hs.pc + 4 else g.hs.pc, park := .none, sleepEnd := none, waitBar := none, barLost := false, heapW := {} }
    else if src = 1 then
      match g.hlate with
      | some q => { u with pend := u.pend.map (rettLate lanes q) }
      | none => { u with splits := u.splits.map fun sp => if sp.idx = n then rettSplit g lanes sp else sp }
    else u)

end Sys2Proof.Machine
end

