-- ==== Sys2Proof/Machine/Fetch.lean ====
section
/-! DEFINITION. Fetching: C-stream words at a 64-bit PC (R192), lane words at 12n above `.ltext` (R199), each
through translation with the execute right (R384). A fetch reads memory, not the L1 (R481). -/

namespace Sys2Proof.Machine

/-- The issuing group runs in user mode (the U bit of a leaf, R384). -/
def State.inUser (s : State) : Bool := s.g.mode = .user

/-- A translation by the issuing group of a virtual address (R390). -/
def State.xlate (s : State) (va : DWord) (n : Nat) (acc : Acc) : State × TRes :=
  translateVA s s.g.ctx va n acc s.inUser (s.relSlice s.sliceId)

/-- A word fetched, or the code of the fault of the fetch with its address. -/
inductive Fetched (α : Type) where
  | word (s : State) (w : α)
  | fault (s : State) (code : Nat) (addr : DWord)

/-- R74, R192, R384: the 4 bytes at a C-stream address; one off a multiple of 4 is an illegal instruction. -/
def fetchC (s : State) (pc : DWord) : Fetched Word :=
  if pc.toNat % 4 ≠ 0 then .fault s 0x01 pc
  else match s.xlate pc 4 .ex with
  | (s, .fault code) => .fault s code pc
  | (s, .full) => .fault s 0x10 pc
  | (s, .ok key _) => if s.poisoned key 4 then .fault s 0x0D pc else .word s (BitVec.ofNat 32 (s.rdMemNat key 4))

/-- R199, R362: the address of lane word n of the team's `.ltext`, or of the handler's. -/
def laneAddr (s : State) (n : Word) : DWord :=
  (if s.g.inHandler then s.gctx.hlbase else s.t.ltext) + BitVec.ofNat 64 (12 * n.toNat)

/-- R199: the 12 bytes of lane word n; a word may lie across two pages, and the units of each page are reached by one
translation (R481). -/
def fetchL (s : State) (n : Word) : Fetched LWord :=
  let pc := laneAddr s n
  let left := (4096 - pc.toNat % 4096) / 4
  let rest (s : State) (key k : Nat) : Fetched Word :=
    if s.poisoned (key + 4 * k) 4 then .fault s 0x0D (pc + BitVec.ofNat 64 (4 * k))
    else .word s (BitVec.ofNat 32 (s.rdMemNat (key + 4 * k) 4))
  match s.xlate pc 4 .ex with
  | (s, .fault code) => .fault s code pc
  | (s, .full) => .fault s 0x10 pc
  | (s, .ok key _) =>
    let unit (s : State) (k : Nat) : Fetched Word := if k < left then rest s key k else fetchC s (pc + BitVec.ofNat 64 (4 * k))
    match rest s key 0 with
    | .fault s c a => .fault s c a
    | .word s w0 =>
      match unit s 1 with
      | .fault s c a => .fault s c a
      | .word s w1 =>
        match unit s 2 with
        | .fault s c a => .fault s c a
        | .word s w2 => .word s (w2 ++ w1 ++ w0)

end Sys2Proof.Machine
end

