-- ==== Sys2Proof/Machine/Barrier.lean ====
section
/-! DEFINITION. The stage barrier (R157–R162, R203): its sixteen bytes, its update, the updates of instructions
and the decrements of engines, in a resident team's window or in a saved team's window image (R421). -/

namespace Sys2Proof.Machine

/-- R157: the fields of a barrier. -/
structure Bar where
  pend     : Int
  expected : Nat
  arrived  : Nat
  phase    : Bool
  valid    : Bool
  base     : Nat
deriving DecidableEq, Repr

/-- R157: the barrier in sixteen bytes. -/
def barOf (bs : List Byte) : Bar :=
  let lo : Nat := leValue (bs.take 8) % 2 ^ 36
  let w8 := leValue ((bs.drop 8).take 4)
  let w12 := leValue ((bs.drop 12).take 4)
  { pend := if lo < 2 ^ 35 then (lo : Int) else (lo : Int) - 2 ^ 36, expected := w8 / 2 ^ 16, arrived := w8 % 2 ^ 16,
    phase := w12.testBit 31, valid := w12.testBit 30, base := w12 % 2 ^ 16 }

/-- R157: the sixteen bytes of a barrier. -/
def barBytes (b : Bar) : List Byte :=
  leBytes 8 (b.pend % 2 ^ 36).toNat ++ leBytes 4 (b.arrived + b.expected * 2 ^ 16) ++
    leBytes 4 (b.base + (if b.valid then 2 ^ 30 else 0) + (if b.phase then 2 ^ 31 else 0))

/-- R158: a phase that is complete ends. -/
def barFlip (b : Bar) : Bar :=
  if 0 < b.expected && b.arrived = b.expected && b.pend = 0 then
    { b with phase := !b.phase, arrived := 0, expected := b.base }
  else b

/-- R158: the sums an update would leave. -/
def barSums (b : Bar) (dp : Int) (da de : Nat) : Bar :=
  { b with pend := b.pend + dp, arrived := b.arrived + da, expected := b.expected + de }

/-- R158: whether an update is misuse. -/
def barMisuse (b : Bar) (dp : Int) (da de : Nat) : Bool :=
  let c := barSums b dp da de
  !b.valid || c.pend < -(2 ^ 35) || (2 ^ 35 : Int) ≤ c.pend || 65535 < c.arrived || 65535 < c.expected
    || c.expected < c.arrived || (0 < c.expected && c.arrived = c.expected && c.pend < 0)

/-- R158: BarUpdate; `none` is Misuse. -/
def barUpdate (b : Bar) (dp : Int) (da de : Nat) : Option Bar :=
  if barMisuse b dp da de then none else some (barFlip (barSums b dp da de))

/-- R158: BARI. -/
def barInit (base : Nat) : Bar := { pend := 0, expected := base, arrived := 0, phase := false, valid := true, base := base }

/-- R160: the test of WAITB and YIELDC; `none` is the barrier-misuse fault. -/
def barTest (b : Bar) (p : Bool) : Option Bool := if b.valid then some (b.phase != p) else none

/-! ## Windows -/

/-- R421: where the window image of a saved team lies: the key of its slot. -/
def redirSlot (s : State) (uid : Nat) : Option Nat := (s.redir.find? fun r => r.1 = uid).map fun r => r.2

/-- n bytes of a team's window, resident or saved. -/
def winRead (s : State) (uid o n : Nat) : List Byte :=
  match s.team? uid with
  | some t => SMap.getRun 0 t.sp o n
  | none =>
    match redirSlot s uid with
    | some k => s.rdMemN (k + 0x82000 + o) n
    | none => List.replicate n 0

/-- R130: whether every line that n bytes of a resident team's window touch is full. -/
def winFull (s : State) (uid o n : Nat) : Bool :=
  match s.team? uid with
  | some t => t.emptyL.all fun l => !(l < (o + n + 127) / 128 && o / 128 ≤ l)
  | none => false

/-- Writes bytes of a team's window, resident or saved. -/
def winWrite (s : State) (uid o : Nat) (bs : List Byte) : State :=
  match s.team? uid with
  | some _ => s.mapTeams (fun t => t.uid = uid) fun t => { t with sp := SMap.setRun 0 t.sp o bs }
  | none =>
    match redirSlot s uid with
    | some k => s.memWrite (k + 0x82000 + o) bs
    | none => s

/-- R130: sets the full/empty bit of a line of a team's window. -/
def winFill (s : State) (uid line : Nat) : State :=
  match s.team? uid with
  | some _ => s.mapTeams (fun t => t.uid = uid) fun t => { t with emptyL := t.emptyL.filter fun l => l ≠ line }
  | none =>
    match redirSlot s uid with
    | some k =>
      let b := s.rdMem (k + 0x1100 + line / 8)
      s.memWrite (k + 0x1100 + line / 8) [b ||| (1#8 <<< (line % 8))]
    | none => s

/-- R296, R450: a phase of a team's barrier completes: it is counted, and it releases a tile row of every frame bound
there. -/
def noteFlip (s : State) (ctx uid bar : Nat) : State :=
  let s := s.countEvent ctx 0x0C 1
  { s with slices := s.slices.map fun c =>
      { c with binds := c.binds.map fun b =>
          if b.card.isNone && b.team = uid && b.bar = bar then { b with released := b.released + 1 } else b } }

/-- R161: the master handle of a team's group, 0 where the team is not resident. -/
def handleOfGroup (s : State) (uid : Nat) (gid : BitVec 4) : Word :=
  match s.team? uid, s.allGroups.find? fun g => g.live && g.team = uid && g.gid = gid with
  | some t, some g => teamHandle t g
  | _, _ => 0

/-- R161: a report of an engine's barrier misuse, in the queue of a slice: context, team, offset and command. -/
def reportMisuse (s : State) (d : Decr) : State :=
  s.escalate d.slice
    { code := 0x43, inner := 0x07, handle := handleOfGroup s d.uid d.gid, pasid := (s.ctx d.ctx).pasid, pc := d.pc,
      addr := BitVec.ofNat 64 d.bar }

/-- R158, R161: an engine decrement, or the sum of those of one bank clock: on misuse it is applied, valid is cleared and the controller
gets a report. -/
def applyDecr (s : State) (d : Decr) : State :=
  let b := barOf (winRead s d.uid d.bar 16)
  match barUpdate b (-(d.k : Int)) 0 0 with
  | some c => winWrite (if c.phase != b.phase then noteFlip s d.ctx d.uid d.bar else s) d.uid d.bar (barBytes c)
  | none => reportMisuse (winWrite s d.uid d.bar (barBytes { b with pend := b.pend - d.k, valid := false })) d

/-- R158, R159: an engine decrement by a command of a team's group; those of one bank clock are summed before they are applied. -/
def engineCount (s : State) (d : Decr) : State :=
  match s.decs with
  | none => applyDecr s d
  | some ds => { s with decs := some (ds ++ [d]) }

/-- R159: the decrements of a bank clock, summed barrier by barrier, the command that came first standing for all. -/
def sumDecrs : List Decr → List Decr
  | [] => []
  | d :: ds =>
    let rest := sumDecrs ds
    match rest.find? fun e => e.uid = d.uid && e.bar = d.bar with
    | none => d :: rest
    | some e => { d with k := d.k + e.k } :: rest.filter fun x => !(x.uid = d.uid && x.bar = d.bar)

/-- R159: the bank clock ends: the sums are applied. -/
def applyDecrs (s : State) : State :=
  (sumDecrs (s.decs.getD [])).foldl applyDecr { s with decs := none }

/-- R161: the controller applies Misuse to the barrier of a command it abandons. -/
def abandonBarrier (s : State) (d : Decr) : State :=
  let b := barOf (winRead s d.uid d.bar 16)
  reportMisuse (winWrite s d.uid d.bar (barBytes { b with valid := false })) d

/-- R160: a group that waits on a barrier which is now invalid has lost it, whatever becomes of the barrier before its next test. -/
def noteLost (s : State) : State :=
  let gone (team : Nat) (o : Option Nat) : Bool := match o with
    | none => false
    | some o => !(barOf (winRead s team o 16)).valid
  s.mapGroups (fun g => g.live && (gone g.team g.waitBar || gone g.team g.uwaitBar)) fun g =>
    { g with barLost := g.barLost || gone g.team g.waitBar, ubarLost := g.ubarLost || gone g.team g.uwaitBar }

/-! ## The instructions -/

/-- R203: the check of a barrier offset: the code of its fault. -/
def barOffsetFault (s : State) (o : Nat) : Option Nat :=
  if o % 16 ≠ 0 then some 0x03 else if !s.spIn o 16 then some 0x05 else none

/-- The barrier at an offset of the issuing team's window. -/
def State.bar (s : State) (o : Nat) : Bar := barOf (s.spBytes o 16)
/-- Writes a barrier of the issuing team. -/
def State.setBar (s : State) (o : Nat) (b : Bar) : State := s.spWrite o (barBytes b)

/-- An instruction that updates a barrier (R158, R161): it checks its offset and operands, then updates; `upd`
tells an update from BARI, which ends no phase. -/
def barInstr (w : Bool) (o : Nat) (ok upd : Bool) (f : Bar → Option Bar) (s : State) : Res :=
  match barOffsetFault s o with
  | some code => faultC s code o
  | none =>
    if !ok then faultC s 0x07 o
    else match f (s.bar o) with
      | none => faultC s 0x07 o
      | some b =>
        let s1 := if upd && b.phase != (s.bar o).phase then noteFlip s s.g.ctx s.t.uid o else s
        .next ((s1.setBar o b).endC w 4)

/-- BARI. -/
def execBari (w : Bool) (a b : SReg) (s : State) : Res :=
  let base := (s.g.rdS s.tick b).toNat
  barInstr w (s.g.rdS s.tick a).toNat (base ≤ 65535) false (fun _ => some (barInit base)) s

/-- BARX. -/
def execBarx (w : Bool) (a b c : SReg) (s : State) : Res :=
  let n := (s.g.rdS s.tick c).toNat
  barInstr w (s.g.rdS s.tick a).toNat (n ≤ 65535) true (fun x => barUpdate x (s.g.rdS s.tick b).toNat 0 n) s

/-- BARA: a release at team scope, then the arrivals (R203). -/
def execBara (w : Bool) (a b : SReg) : State → Res := afterLoads fun s =>
  let n := (s.g.rdS s.tick b).toNat
  barInstr w (s.g.rdS s.tick a).toNat (1 ≤ n && n ≤ 65535) true (fun x => barUpdate x 0 n 0) s

/-- R151, R203: what a WAITB or YIELDC whose test holds acquires. The phase's copies may have named any scope, so
the widest of them is acquired: every clean line of the L1 is dropped. -/
def barAcquire (s : State) : State := s.l1Invalidate s.l1Id

/-- R160: a WAITB or YIELDC parks on a barrier. -/
def parkOn (k : ParkKind) (o : Nat) (s : State) : State := (s.parkC k).mapG fun g => { g with waitBar := some o }

/-- R160: the test of the barrier at an offset, with what the issuing group has seen of it while it waited. -/
def waitTest (s : State) (o : Nat) (p : Bool) : Option Bool := if s.g.barLost then none else barTest (s.bar o) p

/-- WAITB. -/
def execWaitb (w : Bool) (a b : SReg) (s : State) : Res :=
  let o := (s.g.rdS s.tick a).toNat
  match barOffsetFault s o with
  | some code => faultC s code o
  | none =>
    match waitTest s o ((s.g.rdS s.tick b).getLsbD 0) with
    | none => faultC s 0x07 o
    | some false => .next (parkOn .waitb o s)
    | some true => .next ((barAcquire s).endC w 4)

/-- R162: YIELDC. It drains as a W-marked word does, and then tests the barrier; once the test holds it goes on at the continuation.
It is illegal in handler mode (R362). -/
def execYieldc (_w : Bool) (a b c : SReg) (s : State) : Res :=
  let o := (s.g.rdS s.tick a).toNat
  let cont := s.g.rdS s.tick c
  let p := (s.g.rdS s.tick b).getLsbD 0
  if s.g.inHandler || cont.extractLsb' 0 2 ≠ 0 then illegalC s
  else
    match barOffsetFault s o with
    | some code => faultC s code o
    | none =>
      if !s.g.drained s.g.cStrm then .next (s.parkC .again)
      else
        let s := s.mapG fun g => g.dropReturned g.cStrm
        match waitTest s o p with
        | none => faultC s 0x07 o
        | some false => .next (parkOn .yieldc o s)
        | some true => .next ((barAcquire s).mapG fun g =>
          { g with pc := g.pc.extractLsb' 32 32 ++ cont, park := .none, waitBar := none, barLost := false })

end Sys2Proof.Machine
end

