-- ==== Sys2Proof/Machine/Branch.lean ====
section
/-! DEFINITION. Branches, calls, loops, and the trap (R192, R193, R195). -/

namespace Sys2Proof.Machine

/-- R76: the target of a direct branch. -/
def directTarget (pc : DWord) (o : BitVec 21) : DWord := pc + (o.signExtend 64 <<< 2)

/-- R192: the target of an indirect branch. -/
def indirectTarget (pc : DWord) (t : Word) : DWord := pc.extractLsb' 32 32 ++ t

/-- R192: PC + 4 as a link register keeps it. -/
def linkOf (pc : DWord) : Word := (pc + 4).extractLsb' 0 32

/-- A word whose only effect is the branch. -/
def jumpTo (w : Bool) (target : DWord) (s : State) : Res := .next (s.mapG fun g => g.jumpC w target)

/-- BR. -/
def execBr (w : Bool) (o : BitVec 21) (s : State) : Res := jumpTo w (directTarget s.g.pc o) s

/-- BRQ. -/
def execBrq (w : Bool) (q : QReg) (sense : Bool) (o : BitVec 21) (s : State) : Res :=
  if s.g.rdQ s.tick q = sense then jumpTo w (directTarget s.g.pc o) s else .next (s.endC w 4)

/-- CALL. -/
def execCall (w : Bool) (o : BitVec 21) (s : State) : Res :=
  jumpTo w (directTarget s.g.pc o) (s.mapG fun g => g.wrS 63 (linkOf g.pc))

/-- JMPI. -/
def execJmpi (w : Bool) (a : SReg) (s : State) : Res :=
  let t := s.g.rdS s.tick a
  if t.extractLsb' 0 2 ≠ 0 then illegalC s else jumpTo w (indirectTarget s.g.pc t) s

/-- CALLI. -/
def execCalli (w : Bool) (d a : SReg) (s : State) : Res :=
  let t := s.g.rdS s.tick a
  if t.extractLsb' 0 2 ≠ 0 then illegalC s
  else jumpTo w (indirectTarget s.g.pc t) (s.mapG fun g => g.wrS d (linkOf g.pc))

/-- RET. -/
def execRet (w : Bool) (a : SReg) (s : State) : Res :=
  let t := s.g.rdS s.tick a
  if t.extractLsb' 0 2 ≠ 0 then illegalC s else jumpTo w (indirectTarget s.g.pc t) s

/-- R193: LOOP. -/
def execLoop (w : Bool) (d : SReg) (i : BitVec 13) (s : State) : Res :=
  let v := s.g.rdS s.tick d - 1
  let s := s.mapG fun g => g.wrS d v
  if v ≠ 0 then jumpTo w (s.g.pc + (i.signExtend 64 <<< 2)) s else .next (s.endC w 4)

/-- R195: TRAP. -/
def execTrap (_w : Bool) (c : BitVec 12) (s : State) : Res :=
  .next (takeFault s { code := 0x08, tcode := c, pc := s.g.pc } [])

/-- R81: a reserved word, in either stream. -/
def execIllegalInstruction (lane : Bool) (s : State) : Res :=
  if lane then
    match s.g.split? s.g.curSplit with
    | none => .next s
    | some sp => wordFaultL s sp 0x01 sp.mask
  else illegalC s

end Sys2Proof.Machine
end

