-- ==== Sys2Proof/Machine/Roof.lean ====
section
/-! DEFINITION. The roof domain of a cluster: ownership of the roof store (R272), the chimneys (R273, R274), the
power gate (R275), and the cluster area of a context's sump (R419). -/

namespace Sys2Proof.Machine

/-- R401: whether an uncorrectable error has taken one of n bytes of a roof store. -/
def Cluster.roofBad (c : Cluster) (o n : Nat) : Bool := c.badRoof.any fun r => r.1 < o + n && o < r.1 + r.2

/-! ## Ownership and the cluster area -/

/-- R272: whether a context owns, or may take, a cluster's roof store. -/
def roofFree (s : State) (cl ctx : Nat) : Bool :=
  match (s.cluster cl).roofOwner with
  | none => true
  | some o => o = ctx

/-- R419, R415: the key of the cluster area of a context for a partition cluster k, if it has one. -/
def areaKey (s : State) (ctx k : Nat) : Option Nat :=
  let x := (s.ctx ctx).sb
  if x.sump = 0 || x.nclu.toNat ≤ k then none else some (memKey (ctx / 64) (x.sump.toNat + 2 ^ 24 + k * 2 ^ 21))

/-- The partition cluster number of a cluster (R19). -/
def State.partCluster (s : State) (ctx cl : Nat) : Nat := cl - 16 * (s.vf (ctx / 64)).first

/-- R419: the image of chimney n: its count, then its entries in pop order. -/
def chimImage (es : List (List Word)) : List Byte :=
  leBytes 4 es.length ++ List.replicate 124 0 ++ (es.map fun e => bytesOf e).flatten

/-- A range of an area becomes 0, its poison cleared; a checkpoint's frame there is copied first (R456). Sump memory is mapped to no user
address. -/
def clearArea (s : State) (k n : Nat) : State :=
  let s := touchRange s k (k + n)
  ({ s with mem := SMap.clear s.mem k (k + n) } : State).clearPoison k n

/-- What of an area at a key has its valid bits in `bits` is copied to another area (R419). -/
def moveArea (s : State) (k1 k bits : Nat) : State :=
  let cp (s : State) (o n : Nat) : State :=
    let t := clearArea s (k + o) n
    { (SMap.slice s.mem (k1 + o) (k1 + o + n)).foldl (fun (t : State) e => t.memWrite (e.1 - k1 + k) [e.2]) t with
      poison := ((s.poison.filter fun x => k1 + o ≤ 32 * x && 32 * x < k1 + o + n).map fun x => x - k1 / 32 + k / 32) ++ t.poison }
  let s := if bits.testBit 1 then cp s 0x1000 0x4000 else s
  if bits.testBit 0 then cp s 0x80000 roofSize else s

/-- R419: the roof store is saved into the image of an area; a sector with an error is saved as poison. -/
def saveRoof (s : State) (c : Cluster) (k : Nat) : State :=
  let s := c.roof.foldl (fun (s : State) (e : Nat × Byte) => s.memWrite (k + 0x80000 + e.1) [e.2]) (clearArea s (k + 0x80000) roofSize)
  { s with poison := (c.badRoof.map fun x => (k + 0x80000) / 32 + x.1 / 32) ++ s.poison }

/-- R419: the context's data in a cluster goes into its area k when its last team leaves; what was still due there
(log 37) goes with it. -/
def fillArea (s : State) (ctx cl k : Nat) : State :=
  let c := s.cluster cl
  let mine (n : Nat) : List (List Word) := if c.chimOwner.getD n 0 = ctx then c.chim.getD n [] else []
  let owns := c.roofOwner = some ctx
  let anyChim := (List.range 4).any fun n => !(mine n).isEmpty
  let due := (c.areaDue.find? fun e => e.1 = ctx).map fun e => (e.2 / 4 * 4, e.2 % 4)
  let moved := match due with
    | some (k1, b) => if k1 = k then 0 else b
    | none => 0
  let s := match due with
    | some (k1, _) => moveArea s k1 k moved
    | none => s
  if !owns && !anyChim && moved = 0 then s
  else
    let kept := if (due.map fun d => d.1) = some k then s.rdMemNat k 1 % 4 else moved
    let flags := kept ||| ((if owns then 1 else 0) + (if anyChim then 2 else 0))
    let s := s.memWrite k (leBytes 4 flags ++ List.replicate 60 0)
    let s := if anyChim then
        (List.range 4).foldl (fun (s : State) n => s.memWrite (k + 0x1000 + 0x1000 * n) (chimImage (mine n))) s
      else s
    if owns then saveRoof s c k else s

/-- R419: when a context leaves a cluster its roof store and its chimney entries there are saved into its area; the roof store
is zeroed when another context takes it. Without an area they are discarded and zeroed. -/
def saveArea (s : State) (ctx cl : Nat) : State :=
  let area := areaKey s ctx (s.partCluster ctx cl)
  let s := match area with
    | none => s
    | some k => fillArea s ctx cl k
  let c := s.cluster cl
  let owns := c.roofOwner = some ctx
  let gone := owns && area.isNone
  s.setCluster { c with
    roof := if gone then [] else c.roof
    badRoof := if gone then [] else c.badRoof
    roofData := if owns then (if gone then none else some ctx) else c.roofData
    roofOwner := if owns then none else c.roofOwner
    chim := (List.range 4).map fun n => if c.chimOwner.getD n 0 = ctx then [] else c.chim.getD n []
    areaDue := c.areaDue.filter fun e => e.1 ≠ ctx }

/-- R419: the parts of a due area (key plus 1 for the roof image, 2 for the chimneys) that can be loaded now: the roof image
into the store that the context owns, the entries into empty chimneys (log 37). -/
def loadArea (s : State) (cl : Nat) : State :=
  let c := s.cluster cl
  match c.areaDue.find? fun e => c.roofOwner = some e.1 with
  | none => s
  | some (ctx, d) =>
    let k := d / 4 * 4
    let doRoof := d.testBit 0
    let doChim := d.testBit 1 && c.chim.all fun e => e.isEmpty
    let image := (SMap.slice s.mem (k + 0x80000) (k + 0x80000 + roofSize)).map fun e => (e.1 - (k + 0x80000), e.2)
    let bad := (s.poison.filter fun x => k + 0x80000 ≤ 32 * x && 32 * x < k + 0x80000 + roofSize).map fun x => (32 * (x - (k + 0x80000) / 32), 32)
    let entries (n : Nat) : List (List Word) :=
      let b := k + 0x1000 + 0x1000 * n
      (List.range (s.rdMemNat b 4 % 32)).map fun i => wordsOf (s.rdMemN (b + 128 + 128 * i) 128)
    let rest := if d.testBit 1 && !doChim then 2 else 0
    s.setCluster { c with
      roof := if doRoof then image else c.roof
      badRoof := if doRoof then bad else c.badRoof
      chim := if doChim then (List.range 4).map entries else c.chim
      chimOwner := if doChim then List.replicate 4 ctx else c.chimOwner
      areaDue := (if rest = 0 then [] else [(ctx, k + rest)]) ++ c.areaDue.filter fun e => e.1 ≠ ctx }

/-- R272, R419: a context becomes the owner of a roof store that has none: what another context left in it is zeroed, and its due
area is loaded at that instant. -/
def takeRoof (s : State) (cl ctx : Nat) : State :=
  let c := s.cluster cl
  if c.roofOwner.isNone then
    let own := c.roofData = some ctx
    loadArea (s.setCluster { c with
      roofOwner := some ctx, roofData := none, roof := if own then c.roof else [], badRoof := if own then c.badRoof else [] }) cl
  else s

/-- ROOF_AREA_LOAD: the due area's context becomes the owner, if it may, and the area is loaded. -/
def execRoofAreaLoad (cluster : Nat) (s : State) : Res :=
  match (s.cluster cluster).areaDue.find? fun e => roofFree s cluster e.1 with
  | none => .next s
  | some (ctx, _) => .next (loadArea (takeRoof s cluster ctx) cluster)

/-! ## The power gate -/

/-- R275: an event that needs the roof domain wakes it; it has power again 2,400 clocks later. -/
def wakeRoof (s : State) (cl : Nat) : State :=
  let c := s.cluster cl
  if c.gated && c.wakeAt.isNone then s.setCluster { c with wakeAt := some (s.clk + 2400) } else s

/-- R275: whether every condition of gating holds. -/
def canGate (s : State) (cl : Nat) : Bool :=
  let c := s.cluster cl
  c.gateReq && !c.gated && c.chim.all (fun e => e.isEmpty) && c.queue.isEmpty
    && s.allTeams.all (fun t => !(t.live && t.ppos = 8 * cl + 4))
    && s.copies.all (fun c => c.dst ≠ .roof cl)

/-- R275: gating ends the request and discards the roof store's contents. -/
def gateRoof (s : State) (cl : Nat) : State :=
  let c := s.cluster cl
  s.setCluster { c with gated := true, gateReq := false, roof := [], badRoof := [], roofData := none, wakeAt := none }

/-- R275: the domains whose every condition holds gate; each step ends with it, so that it is the first such moment. -/
def gateRoofs (s : State) : State :=
  (s.clusters.map fun c => c.id).foldl (fun s cl => if canGate s cl then gateRoof s cl else s) s

/-- ROOF_GATE. -/
def execRoofGate (cluster : Nat) (s : State) : Res :=
  .next (if canGate s cluster then gateRoof s cluster else s)

/-- ROOF_WAKE: the wake is complete. -/
def execRoofWake (cluster : Nat) (s : State) : Res :=
  let c := s.cluster cluster
  match c.wakeAt with
  | none => .next s
  | some t => if t ≤ s.clk then .next (s.setCluster { c with gated := false, wakeAt := none }) else .next s

/-- CHIMGATE. -/
def execChimgate (w : Bool) (a : SReg) (s : State) : Res :=
  let v := s.g.rdS s.tick a
  if v.extractLsb' 1 31 ≠ 0 then illegalC s
  else
    let c := s.cluster s.clusterId
    .next ((s.setCluster { c with gateReq := v.getLsbD 0 }).endC w 4)

/-! ## Chimneys -/

/-- R274, R441: whether a lane word of a floor core may push an entry now: sends into the chimneys of a lent cluster park, and so
do those of a context whose saved entries are still due there (R419, log 37). -/
def chimRoom (s : State) : Bool :=
  let c := s.cluster s.clusterId
  let n := s.coreId % 8
  let es := c.chim.getD n []
  !c.gated && !(c.areaDue.any fun e => e.1 = s.g.ctx && e.2.testBit 1) && !(s.leases.any fun l => l.state ≠ 0 && 16 * l.lslice + l.lpos = c.id) && es.length < 16 && (es.isEmpty || c.chimOwner.getD n 0 = s.g.ctx)

/-- R273: pushes an entry of the issuing floor core's chimney, a release at clu scope (R274). -/
def chimPush (s : State) (e : List Word) : State :=
  let s := s.scopeWriteBack .clu
  let c := s.cluster s.clusterId
  let n := s.coreId % 8
  s.setCluster { c with
    chim := c.chim.set n (c.chim.getD n [] ++ [e]), chimOwner := c.chimOwner.set n s.g.ctx }

/-- R273: the entries of chimney n that the issuing roof core may receive. -/
def chimEntries (s : State) (n : Nat) : List (List Word) :=
  let c := s.cluster s.clusterId
  if c.chimOwner.getD n 0 = s.g.ctx then c.chim.getD n [] else []

/-- R274: pops k entries of chimney n; the receiver acquires at clu scope. -/
def chimTake (s : State) (n k : Nat) : State :=
  let s := s.acquire .clu
  let c := s.cluster s.clusterId
  s.setCluster { c with chim := c.chim.set n ((c.chim.getD n []).drop k) }

end Sys2Proof.Machine
end

