-- ==== Sys2Proof/Machine/Copies.lean ====
section
/-! DEFINITION. Asynchronous copies (R163–R170, R421): CPYB, CPYG, EMPTY, the unit of work of a copy engine, and the
page fault that stops one. Rows are delivered in ascending order, one unit of at most 16 bytes at a time. -/

namespace Sys2Proof.Machine

/-! ## The bytes of a copy -/

/-- The offset of outer index r over extents and strides, dimension 1 first. -/
def outerOffset : Nat → List Nat → List Int → Int
  | r, e :: es, st :: sts => (r % e : Nat) * st + outerOffset (r / e) es sts
  | _, _, _ => 0

/-- The bytes of one row. -/
def CopyPlan.rowLen : CopyPlan → Nat
  | .rows b _ _ _ => b
  | .shape el ext _ _ => el * ext.headD 1
  | .gather b _ _ => b

/-- The number of rows. -/
def CopyPlan.rowCount : CopyPlan → Nat
  | .rows _ n _ _ => n
  | .shape _ ext _ _ => (ext.drop 1).foldl (· * ·) 1
  | .gather _ _ idx => idx.length

/-- The source and destination offsets of row r. -/
def CopyPlan.row (p : CopyPlan) (r : Nat) : Int × Int :=
  match p with
  | .rows _ _ ss ds => (r * ss, r * ds)
  | .shape _ ext ss ds => (outerOffset r (ext.drop 1) ss, outerOffset r (ext.drop 1) ds)
  | .gather b st idx => ((idx.getD r 0 * st : Nat), (r * b : Nat))

/-- The lowest offset and the end of what rows over extents and strides reach. -/
def spanOf (len : Nat) (ext : List Nat) (st : List Int) : Int × Int :=
  (List.zip ext st).foldl (fun a d =>
    let x := ((d.1 : Int) - 1) * d.2
    (a.1 + min 0 x, a.2 + max 0 x)) (0, (len : Int))

/-- The lowest offset and the end of the source bytes and of the destination bytes. -/
def CopyPlan.spans (p : CopyPlan) : (Int × Int) × (Int × Int) :=
  match p with
  | .rows b n ss ds => (spanOf b [n] [ss], spanOf b [n] [ds])
  | .shape el ext ss ds => (spanOf (el * ext.headD 1) (ext.drop 1) ss, spanOf (el * ext.headD 1) (ext.drop 1) ds)
  | .gather b _ idx => ((0, b), spanOf b [idx.length] [(b : Int)])

/-- The byte of row r that goes to a destination address, as its column. -/
def CopyPlan.colAt (p : CopyPlan) (dbase : Int) (x : Int) (r : Nat) : Option Nat :=
  let lo := dbase + (p.row r).2
  if lo ≤ x && x < lo + p.rowLen then some (x - lo).toNat else none

/-- The rows, from the first, that may write in the 16 bytes from `u`: an interval of them where they lie at one stride. -/
def CopyPlan.rowsNear (p : CopyPlan) (dbase u : Int) : List Nat :=
  let near (b n : Nat) (st : Int) : List Nat :=
    if st = 0 then List.range n
    else
      let e1 := (u - b - dbase) / st
      let e2 := (u + 16 - dbase) / st
      let lo := (min e1 e2 - 1).toNat
      (List.range (min n ((max e1 e2 + 2).toNat) - lo)).map fun i => lo + i
  match p with
  | .rows b n _ ds => near b n ds
  | .gather b _ idx => near b idx.length b
  | .shape .. => List.range p.rowCount

/-- R146: the row and column whose byte a destination address receives: those of the first row that writes it. -/
def CopyPlan.ownerOf (p : CopyPlan) (dbase x : Int) (near : List Nat) : Option (Nat × Nat) :=
  near.findSome? fun r => (p.colAt dbase x r).map fun c => (r, c)

/-- R130: whether a row of the copy from row `r` on, and from column `c` in that row, writes in a 128-byte line. -/
def CopyPlan.touches (p : CopyPlan) (dbase : Int) (r c line : Nat) : Bool :=
  (List.range (p.rowCount - r)).any fun i =>
    let lo := dbase + (p.row (r + i)).2
    let a := lo + (if i = 0 then (c : Int) else 0)
    let b := lo + p.rowLen
    a < b && a < 128 * (line : Int) + 128 && 128 * (line : Int) < b

/-! ## Starting a copy -/

/-- Whether a space is bounded, and its size. -/
def spaceSize (s : State) : CopySpace → Option Nat
  | .glob => none
  | .sp => some s.t.wsize
  | .roof _ => some roofSize

/-- R166: whether every byte between two offsets of a base lies in a space. -/
def inSpace (s : State) (sp' : CopySpace) (base : Int) (span : Int × Int) : Bool :=
  match spaceSize s sp' with
  | none => true
  | some n => 0 ≤ base + span.1 && base + span.2 ≤ (n : Int)

/-- R166: Start: the copy runs on. Issue writes back the dirty bytes of the issuing core and waits for the
acknowledgement of its pending lines, so that the copy's reads follow every earlier access (R150). -/
def startCopy (s : State) (c : Copy) : State :=
  let s := (s.performDirty s.l1Id fun _ => true).ackAllDup s.l1Id
  { s with nextId := s.nextId + 1, copies := s.copies ++ [{ c with id := s.nextId }] }

/-- A copy of the issuing group, at its PC. -/
def groupCopy (s : State) (bar : Nat) (src dst : CopySpace) (sbase dbase : Int) (plan : CopyPlan) : Copy :=
  { ctx := s.g.ctx, team := s.t.uid, gid := s.g.gid, cpc := s.g.pc, slice := s.sliceId, bar := bar,
    src := src, dst := dst, sbase := sbase, dbase := dbase, plan := plan, total := plan.rowLen * plan.rowCount,
    user := s.inUser }

/-- R166: CheckBarrier: 16-aligned, in the window, valid; the code of the fault. -/
def checkBarrier (s : State) (o : Nat) : Option Nat :=
  match barOffsetFault s o with
  | some c => some c
  | none => if (s.bar o).valid then none else some 0x07

/-- R85: a scope code. -/
def scopeOf (n : Nat) : Scope :=
  match n with
  | 0 => .grp | 1 => .team | 2 => .clu | 3 => .slc | 4 => .prt | _ => .sys

/-- R442: the active lease of the issuing context for the slice it runs on. -/
def leaseHere (s : State) : Option Lease :=
  s.leases.find? fun l => l.state = 2 && l.vf = s.vfId && l.intf = s.g.ctx % 64 && l.pslice = s.relSlice s.sliceId

/-- R164: the space codes of a control word. -/
def copySpaceOf (s : State) (n : Nat) : CopySpace :=
  match n with
  | 0 => .glob | 1 => .sp | _ => .roof s.clusterId

/-- R442: a roof-store destination: offsets from 0x20_0000 name the leased roof store. -/
def roofTarget (s : State) (x : CopySpace) (d : Nat) : CopySpace × Int :=
  match x, leaseHere s with
  | .roof _, some l => if 0x200000 ≤ d then (.roof (16 * l.lslice + l.lpos), (d : Int) - 0x200000) else (x, d)
  | _, _ => (x, d)

/-- R166, R164: whether the control word of CPYB is out of its limits. -/
def cpybBad (ctl : Nat) : Bool :=
  2 ^ 9 ≤ ctl || 1 < ctl % 4 || ctl / 4 % 4 = 3 || 5 < ctl / 16 % 8 || (ctl.testBit 8 && ctl / 4 % 4 ≠ 1)

/-- R165: the plan of a copy shape record; `none` when a field is out of its limits. -/
def shapePlan (ws : List Word) : Option CopyPlan :=
  let f := (ws.getD 2 0).toNat
  let dims := f % 8 + 1
  let ext := (List.range 5).map fun i => (ws.getD (3 + i) 0).toNat
  let ss := (List.range 4).map fun i => (ws.getD (8 + i) 0).toInt
  let ds := (List.range 4).map fun i => (ws.getD (12 + i) 0).toInt
  if 5 < dims || 4 < f / 16 % 8 || 0 < f / 128 || ext.any (fun e => e = 0 || 2 ^ 24 < e)
    || (ext.drop dims).any (· ≠ 1) then none
  else some (.shape (2 ^ (f / 16 % 8)) ext ss ds)

/-- R164: the plan of the raw form. -/
def rawPlan (run : List Word) : Option CopyPlan :=
  let b := (run.getD 4 0).toNat
  let n := (run.getD 5 0).toNat
  if b = 0 || 2 ^ 24 < b || n = 0 || 65536 < n then none
  else some (.rows b n (run.getD 6 0).toInt (run.getD 7 0).toInt)

/-- R130, R169: the lines of a list become empty. -/
def State.emptyLines (s : State) (ls : List Nat) : State :=
  s.mapT fun t => { t with emptyL := t.emptyL ++ ls.filter fun l => !t.emptyL.contains l }

/-- R166: what CPYB does once its plan is known. -/
def cpybStart (w : Bool) (ctl bar : Nat) (sbase : Int) (da : Nat) (plan : CopyPlan) (s : State) : Res :=
  let src := copySpaceOf s (ctl % 4)
  let (dst, dbase) := roofTarget s (copySpaceOf s (ctl / 4 % 4)) da
  if 2 ^ 32 ≤ plan.rowLen * plan.rowCount then faultC s 0x09 0
  else if !inSpace s src sbase plan.spans.1 then faultC s 0x05 sbase.toNat
  else if !inSpace s dst dbase plan.spans.2 then faultC s 0x05 da
  else
    let c := groupCopy s bar src dst sbase dbase plan
    let s := if ctl.testBit 8 then
      s.emptyLines ((List.range (s.t.wsize / 128)).filter fun l => plan.touches dbase 0 0 l) else s
    .next ((startCopy s c).endC w 4)

/-- CPYB (R164–R166). -/
def execCpyb (w : Bool) (a b c : SReg) (s : State) : Res :=
  let ctl := (s.g.rdS s.tick c).toNat
  let bar := (s.g.rdS s.tick b).toNat
  let raw := !ctl.testBit 7
  let run := s.g.rdRun s.tick a (if raw then 8 else 5)
  let sa := wordPair run 0
  let da := wordPair run 2
  let far (sp : Nat) (x : DWord) : Bool := sp ≠ 0 && 2 ^ 32 ≤ x.toNat
  if 64 < a.toNat + (if raw then 8 else 5) then illegalC s
  else if cpybBad ctl || far (ctl % 4) sa || far (ctl / 4 % 4) da then faultC s 0x09 0
  else
    match checkBarrier s bar with
    | some code => faultC s code bar
    | none =>
      if raw then
        match rawPlan run with
        | none => faultC s 0x09 0
        | some p => cpybStart w ctl bar sa.toNat da.toNat p s
      else
        let idx := (run.getD 4 0).toNat % 2 ^ 16
        let s := s.objAcquire
        match objCheck s s.g.ctx idx 2 true false with
        | .fault code => faultC s code idx
        | .ok ws =>
          match shapePlan ws with
          | none => faultC s 0x09 0
          | some p => cpybStart w ctl bar sa.toNat da.toNat p s

/-- R167: whether the operands of CPYG are within their limits. DESIGN CHOICE (log 18): a nonzero bit in sC[31:3], which R167 says must be 0
and gives no outcome of its own, is a bad copy descriptor like the other operands, not an illegal instruction (R181). -/
def cpygOk (ctl rb io d : Nat) : Bool :=
  ctl < 8 && ctl % 8 ≤ 5 && 16 ≤ rb && rb ≤ 4096 && rb % 16 = 0 && io % 128 = 0 && d % 16 = 0

/-- CPYG (R167): the 32 indices are read at issue, and waited for while their line is empty (R130). -/
def execCpyg (w : Bool) (a b c : SReg) (s : State) : Res :=
  let ctl := (s.g.rdS s.tick c).toNat
  let bar := (s.g.rdS s.tick b).toNat
  let run := s.g.rdRun s.tick a 6
  let sa := wordPair run 0
  let st := (run.getD 2 0).toNat
  let rb := (run.getD 3 0).toNat
  let io := (run.getD 4 0).toNat
  let d := (run.getD 5 0).toNat
  if a.toNat % 2 ≠ 0 || 64 < a.toNat + 6 then illegalC s
  else if !cpygOk ctl rb io d then faultC s 0x09 0
  else
    match checkBarrier s bar with
    | some code => faultC s code bar
    | none =>
      if !s.spIn io 128 then faultC s 0x05 io
      else if !s.spIn d (32 * rb) then faultC s 0x05 d
      else if !s.spFull io 128 then .next (s.parkC .held)
      else
        let idx := (List.range 32).map fun i => s.spNat (io + 4 * i) 4
        .next ((startCopy s (groupCopy s bar .glob .sp sa.toNat d (.gather rb st idx))).endC w 4)

/-- EMPTY (R169). DESIGN CHOICE (log 18): the bounds are tested before the length, so a length of 0 past the window's end
faults. -/
def execEmpty (w : Bool) (a b : SReg) (s : State) : Res :=
  let o := (s.g.rdS s.tick a).toNat
  let n := (s.g.rdS s.tick b).toNat
  if s.t.wsize < o + n then faultC s 0x05 o
  else if n = 0 then .next (s.endC w 4)
  else .next ((s.emptyLines ((List.range (s.t.wsize / 128)).filter fun l => o / 128 ≤ l && l ≤ (o + n - 1) / 128)).endC w 4)

/-! ## The engine's side -/

/-- Removes a copy. -/
def State.dropCopy (s : State) (id : Nat) : State := { s with copies := s.copies.filter fun c => c.id ≠ id }
/-- Replaces a copy. -/
def State.setCopy (s : State) (c : Copy) : State := { s with copies := s.copies.map fun d => if d.id = c.id then c else d }

/-- R163: the group a command's fault is delivered to, when it is resident. -/
def issuerOf (s : State) (team : Nat) (gid : BitVec 4) : Option Group :=
  s.allGroups.find? fun g => g.team = team && g.gid = gid && g.live && !g.ended

/-- R158: the decrement of a copy. -/
def Copy.decr (c : Copy) (k : Nat) : Decr :=
  { uid := c.team, slice := c.slice, ctx := c.ctx, bar := c.bar, pc := c.cpc, gid := c.gid, k := k }

/-- R163: a copy stops on a fault: it is delivered to its group; where the group is not resident, or the copy is a
card's, the slice controller abandons it, with record 0x44. -/
def stopCopy (s : State) (c : Copy) (code : Nat) (addr : DWord) : State :=
  match (if c.card.isNone then issuerOf s c.team c.gid else none) with
  | some g =>
    deliverFault (s.setCopy { c with fault := some (BitVec.ofNat 8 code, addr) }) g.uid
      (BitVec.ofNat 8 code) addr
  | none =>
    let s := s.escalate c.slice
      { code := 0x44, inner := BitVec.ofNat 8 code, pasid := (s.ctx c.ctx).pasid, pc := c.cpc, addr := addr }
    match c.card with
    | some _ => s.setCopy { c with fault := some (BitVec.ofNat 8 code, addr) }
    | none => abandonBarrier (s.dropCopy c.id) (c.decr 0)

/-- The next step of a copy: how many bytes of its row it passes, and what it writes: destinations with the source runs
(address and length) that go there. -/
structure CopyStep where
  adv  : Nat
  puts : List (Int × List (Int × Nat))

/-- How many bytes a step delivers. -/
def CopyStep.bytes (st : CopyStep) : Nat := (st.puts.flatMap fun p => p.2.map fun r => r.2).sum

/-- R146: the step at row `r`, column `col`. A 16-byte unit of the destination that lies wholly inside the transfer is written
at once, with the bytes of every row that reaches into it, when its first row is met, and passed at the others; the bytes of
another unit go as far as the source's page. -/
def copyStep (c : Copy) : CopyStep :=
  let p := c.plan
  let len := p.rowLen
  let r := c.done / len
  let col := c.done % len
  let a := c.sbase + (p.row r).1 + col
  let d := c.dbase + (p.row r).2 + col
  let u := d - d % 16
  let m := min (len - col) (16 - (d % 16).toNat)
  if m = 16 then ⟨16, [(d, [(a, 16)])]⟩
  else
    let near := (p.rowsNear c.dbase u).filter fun q => (p.colAt c.dbase u q).isNone || (p.colAt c.dbase (u + 15) q).isNone
    let own := (List.range 16).filterMap fun (i : Nat) => (p.ownerOf c.dbase (u + (i : Int)) near).map fun o => (u + (i : Int), o)
    let src (o : Nat × Nat) : Int := c.sbase + (p.row o.1).1 + o.2
    if own.length = 16 then
      (if own.all fun e => r ≤ e.2.1 then ⟨m, [(u, own.map fun e => (src e.2, 1))]⟩
       else ⟨m, (own.filter fun e => d ≤ e.1 && e.1 < d + m && e.2.1 ≠ r).map fun e => (e.1, [(a + (e.1 - d), 1)])⟩)
    else
      let k := min m (4096 - (a % 4096).toNat)
      ⟨k, [(d, [(a, k)])]⟩

/-- Bytes that a copy has read, a wait, or a fault. -/
inductive CopyRead where
  | ok (s : State) (bytes : List Byte)
  | wait (s : State)
  | fault (s : State) (code : Nat) (addr : DWord)

/-- What the next step of a copy meets: what it writes where, a wait, or a fault. -/
inductive CopyUnit where
  | ready (s : State) (ws : List (Nat × List Byte)) (dup : Bool)
  | wait (s : State)
  | fault (s : State) (code : Nat) (addr : DWord)

/-- Where a byte for a roof store goes: into the store, into the saved area's image (R421), nowhere (the context has
left without an area, R419), or it waits for ownership or for power (R272, R275). -/
inductive RoofDest where
  | store | image (key : Nat) | drop | wait
deriving DecidableEq, Repr

/-- R272, R421, R442: where a context's byte for a cluster's roof store goes. -/
def roofDest (s : State) (cl ctx : Nat) : RoofDest :=
  let here := s.allTeams.any fun t => t.live && t.ctx = ctx && t.ppos / 8 = cl
  let lent := s.leases.any fun l => (l.state = 2 || l.state = 3) && 64 * l.vf + l.intf = ctx && 16 * l.lslice + l.lpos = cl
  let c := s.cluster cl
  if c.roofOwner = some ctx || ((here || lent) && roofFree s cl ctx) then (if c.gated then .wait else .store)
  else if here || lent then .wait
  else match areaKey s ctx (s.partCluster ctx cl) with
    | some k => .image k
    | none => .drop

/-- A translation on behalf of a copy, for bytes of one page. -/
def copyXlate (s : State) (c : Copy) (a : Int) (acc : Acc) : State × TRes :=
  translateVA s c.ctx (BitVec.ofInt 64 a) 1 acc c.user (c.slice - (s.vf (c.ctx / 64)).first)

/-- R150, R130: n bytes of the source of a copy, of one page. DESIGN CHOICE (log 10): a copy that reads a line of the window which an
error has taken stops with 0x0D, as at a poisoned sector (R401). -/
def copyRead (s : State) (c : Copy) (a : Int) (n : Nat) : CopyRead :=
  match c.src with
  | .glob =>
    (match copyXlate s c a .rd with
     | (s, .fault code) => .fault s code (BitVec.ofInt 64 a)
     | (s, .full) => .wait s
     | (s, .ok k _) => if s.poisoned k n then .fault s 0x0D (BitVec.ofInt 64 a) else .ok s (s.rdMemN k n))
  | .sp =>
    (match s.team? c.team with
     | none =>
       if (match redirSlot s c.team with | some k => s.poisoned (k + 0x82000 + a.toNat) n | none => false) then
         .fault s 0x0D (BitVec.ofInt 64 a)
       else .ok s (winRead s c.team a.toNat n)
     | some t =>
       let meets (l : Nat) : Bool := (l : Int) < (a + n + 127) / 128 && a / 128 ≤ l
       if t.emptyL.any meets then .wait s
       else if t.lostL.any meets then .fault s 0x0D (BitVec.ofInt 64 a)
       else .ok s (winRead s c.team a.toNat n))
  | .roof cl => .ok s (SMap.getRun 0 (s.cluster cl).roof a.toNat n)

/-- The bytes of a list of source runs, each cut at its page's end. -/
def copyReads (s : State) (c : Copy) : List (Int × Nat) → CopyRead
  | [] => .ok s []
  | (a, n) :: rs =>
    let k := min n (4096 - (a % 4096).toNat)
    match copyRead s c a k with
    | .ok s bs =>
      (match (if k < n then copyRead s c (a + k) (n - k) else .ok s []) with
       | .ok s cs =>
         (match copyReads s c rs with
          | .ok s ds => .ok s (bs ++ cs ++ ds)
          | r => r)
       | r => r)
    | r => r

/-- What a list of writes puts where, as offsets from the first destination. -/
def copyPuts (s : State) (c : Copy) (d0 : Int) : List (Int × List (Int × Nat)) → State × Except CopyUnit (List (Int × List Byte))
  | [] => (s, .ok [])
  | (d, rs) :: ps =>
    match copyReads s c rs with
    | .wait s => (s, .error (.wait s))
    | .fault s code x => (s, .error (.fault s code x))
    | .ok s bs =>
      match copyPuts s c d0 ps with
      | (s, .error e) => (s, .error e)
      | (s, .ok l) => (s, .ok ((d - d0, bs) :: l))

/-- R163, R130, R150: the next step of a copy. What a group's copy stores into the window of a lost peer is dropped; a card's copy that
meets one stops (R473). -/
def copyUnit (s : State) (c : Copy) (st : CopyStep) : CopyUnit :=
  match st.puts with
  | [] => .ready s [] false
  | (d, _) :: _ =>
    match copyPuts s c d st.puts with
    | (_, .error e) => e
    | (s, .ok l) =>
      let at_ (k : Nat) : List (Nat × List Byte) := l.map fun e => (((k : Int) + e.1).toNat, e.2)
      match c.dst with
      | .glob =>
        (match copyXlate s c d .wr with
         | (s, .fault code) => .fault s code (BitVec.ofInt 64 d)
         | (s, .full) => .wait s
         | (s, .ok k dup) =>
           if c.card.isSome && s.lostPeer k then .fault s 0x0D (BitVec.ofInt 64 d)
           else .ready (noteGuard s c.ctx (d % 2 ^ 57).toNat k 16) (at_ k) dup)
      | .sp => .ready s (at_ d.toNat) false
      | .roof cl => if roofDest s cl c.ctx = .wait then .wait s else .ready s (at_ d.toNat) false

/-- R421: bytes arrive in a roof store, or in the saved area's image. -/
def roofLand (s : State) (cl ctx o : Nat) (bs : List Byte) : State :=
  match roofDest s cl ctx with
  | .image k =>
    let s1 := if s.rdMemNat k 1 % 2 = 1 then s
      else (clearArea s (k + 0x80000) roofSize).memWrite k [s.rdMem k ||| 1]
    s1.memWrite (k + 0x80000 + o) bs
  | .store =>
    let s := takeRoof s cl ctx
    let x := s.cluster cl
    s.setCluster { x with roof := SMap.setRun 0 x.roof o bs }
  | _ => s

/-- R401: a sector of a roof store, or of its saved image, of which every byte has been written holds no error. -/
def mendRoof (s : State) (cl ctx sec : Nat) : State :=
  match roofDest s cl ctx with
  | .image k => s.clearPoison (k + 0x80000 + 32 * sec) 32
  | .store => s.setCluster { s.cluster cl with badRoof := (s.cluster cl).badRoof.filter fun x => x.1 / 32 ≠ sec }
  | _ => s

/-- One write of a copy; `col` is its row's column where it starts, when the row alone makes it. -/
def copyPut (s : State) (c : Copy) (col : Option Nat) (dup : Bool) (w : Nat × List Byte) : State :=
  -- R401: the row has now written every byte of the sector that ends at `e`
  let endsSector (e : Nat) : Bool := e % 32 = 0 && (match col with | some x => 32 ≤ x + w.2.length | none => false)
  match c.dst with
  | .glob =>
    let e := w.1 + w.2.length
    let s := s.memWrite w.1 w.2
    let s := if endsSector e then s.clearPoison (e - 32) 32 else s
    if dup then s.syncDupN w.1 w.2.length c.ctx else s
  | .sp => winWrite s c.team w.1 w.2
  | .roof cl =>
    let e := w.1 + w.2.length
    let s := roofLand s cl c.ctx w.1 w.2
    if endsSector e then mendRoof s cl c.ctx (e / 32 - 1) else s

/-- R130, R158: the bytes of a step arrive: they are written and counted, and a line is full once the copy has no more for
it. -/
def copyLand (s : State) (c : Copy) (st : CopyStep) (ws : List (Nat × List Byte)) (dup : Bool) : State :=
  let len := c.plan.rowLen
  let r := c.done / len
  let col := c.done % len
  let d := c.dbase + (c.plan.row r).2 + col
  let alone : Bool := match st.puts with | [(x, [_])] => x = d | _ => false
  let s := ws.foldl (fun s w => copyPut s c (if alone then some col else none) dup w) s
  let s := if c.dst = .sp && !c.plan.touches c.dbase r (col + st.adv) (d.toNat / 128) then winFill s c.team (d.toNat / 128) else s
  match c.card with
  | some _ => s
  | none => if st.bytes = 0 then s else engineCount s (c.decr st.bytes)

/-- R163, R166: the next step of a copy is taken and counted, or the copy stops or waits. -/
def copyAdvance (s : State) (c : Copy) : State :=
  if c.fault.isSome || c.frozen || c.total ≤ c.done then s
  else
    let st := copyStep c
    let s := match c.dst with | .roof cl => wakeRoof { s with writer := some (.copy c.id) } cl | _ => { s with writer := some (.copy c.id) }
    match copyUnit s c st with
    | .fault s code x => stopCopy s c code x
    | .wait s => s
    | .ready s ws dup =>
      let s := copyLand s c st ws dup
      let s := s.countEvent c.ctx 0x0B ((c.done + st.adv) / 16 - c.done / 16)
      if c.total ≤ c.done + st.adv && c.card.isNone then s.dropCopy c.id else s.setCopy { c with done := c.done + st.adv }

end Sys2Proof.Machine
end

