-- ==== Sys2Proof/Machine/Channels.lean ====
section
/-! DEFINITION. The channels ch0–ch17 (R37, R38), for both streams; CHSEND, CHRECV and CHSTAT (R201). -/

namespace Sys2Proof.Machine

/-- The entries of a channel ch0–ch17 as the issuing group sees it. -/
def chEntries (s : State) (c : Nat) : List Word :=
  if c < 16 then SMap.get [] s.t.chans c else if c = 16 then s.g.ch16 else if c = 17 then s.g.ch17 else []

/-- Replaces the entries of a channel. -/
def setCh (s : State) (c : Nat) (es : List Word) : State :=
  if c < 16 then s.mapT fun t => { t with chans := SMap.set [] t.chans c es }
  else if c = 16 then s.mapG fun g => { g with ch16 := es }
  else if c = 17 then s.mapG fun g => { g with ch17 := es }
  else s

/-- R37: whether a channel has room. -/
def chRoom (s : State) (c : Nat) : Bool := (chEntries s c).length < 8
/-- R38: pushes an entry. -/
def chPush (s : State) (c : Nat) (v : Word) : State := setCh s c (chEntries s c ++ [v])

/-- Whether a result was asked for by a stream of the handler: its C-stream is `.l 12`, its splits are numbered from 8. -/
def Pend.ofHandler (p : Pend) : Bool :=
  match p.strm with
  | .c => false
  | .l k => 8 ≤ k

/-- Whether a group's result waits for an entry of a channel and may be served now: a CHRECV, or a lane word of the mode
that runs. -/
def Group.receives (g : Group) (c : Nat) (p : Pend) : Bool :=
  !p.returned && ((match p.recv with | some (d, _) => d = c | none => false)
    || (match p.late with | some w => w.chans.isNone && w.want.contains c && p.ofHandler = g.inHandler | none => false))

/-- The groups that may receive from a channel: those of the team for ch0–ch15, of the roof core for a chimney, the
group itself otherwise. -/
def chGroups (s : State) (c : Nat) : List Group :=
  if c < 16 then s.teamGroups
  else if c < 20 then [s.g]
  else s.allGroups.filter fun g => g.live && g.ctx = s.g.ctx &&
    (match s.team? g.team with | some t => t.ppos = s.coreId | none => false)

/-- R38: when the receives that wait on a channel issued: results of the C-streams, and waiting lane words. Those of a
frozen or halted group wait with it (R51) and hold no other up. -/
def waitingSince (s : State) (c : Nat) : List Nat :=
  ((chGroups s c).filter fun g => !g.frozen && !g.halted).flatMap fun g =>
    ((g.pend.filter (g.receives c)).map fun p => p.seq)
      ++ ((g.curSplits.filter fun x => x.park = .word && x.want.contains c).map fun x => x.since)

/-- R38: whether a receive that issued at `seq` is the next to be served. -/
def chTurn (s : State) (c seq : Nat) : Bool := (waitingSince s c).all fun q => seq ≤ q

/-- R38: the head of a channel for a receive that issued at `seq`: no earlier receive still waits. -/
def chHead (s : State) (c seq : Nat) : Option Word := if chTurn s c seq then (chEntries s c).head? else none

/-- Removes the head of a channel. -/
def chDrop (s : State) (c k : Nat) : State := setCh s c ((chEntries s c).drop k)

/-- CHSEND: parks while the channel is full. -/
def execChsend (w : Bool) (a b : SReg) (s : State) : Res :=
  if chRoom s b.toNat then .next ((chPush s b.toNat (s.g.rdS s.tick a)).endC w 4)
  else .next (s.parkC .chsend)

/-- CHRECV: pops or peeks; the entry is a long-latency result, which waits while the channel is empty (R38). -/
def execChrecv (w : Bool) (a b : SReg) (peek : Bool) (s : State) : Res :=
  let c := b.toNat
  let k := s.g.sKey a.toNat
  match chHead s c s.tick with
  | some v =>
    let s := if peek then s else chDrop s c 1
    .next ((s.mapG fun g => g.addPend { strm := g.cStrm, dests := wholes [(k, v)], seq := s.tick }).endC w 4)
  | none =>
    .next ((s.mapG fun g => g.addPend { strm := g.cStrm, dests := wholes [(k, 0)], recv := some (c, peek), seq := s.tick }).endC w 4)

/-- CHSTAT: entries present in [3:0], free entries in [11:8]. -/
def execChstat (w : Bool) (a b : SReg) (s : State) : Res :=
  let n := (chEntries s b.toNat).length
  .next ((s.mapG fun g => g.wrS a (BitVec.ofNat 32 (n + (8 - n) * 256))).endC w 4)

end Sys2Proof.Machine
end

