-- ==== Sys2Proof/Machine/Fp.lean ====
section
/-! DEFINITION. Arithmetic on the formats of chapter 4: exact real results (rationals, or intervals for the
transcendental functions) and the one rounding step into a format, with the flags of R73. -/

namespace Sys2Proof.Machine

/-- The flags of gsr (R73), at their bit positions. -/
abbrev Flags := BitVec 10

/-- R73: invalid operation. -/
def fInv : Flags := 0x002
/-- R73: division by zero. -/
def fDz : Flags := 0x004
/-- R73: overflow. -/
def fOvf : Flags := 0x008
/-- R73: underflow. -/
def fUnf : Flags := 0x010
/-- R73: inexact. -/
def fInx : Flags := 0x020
/-- R73: a saturating operation clamped. -/
def fSat : Flags := 0x040
/-- R73: an uncorrectable operand element was replaced by zero. -/
def fZrep : Flags := 0x080
/-- R73: TRACE returned POISON. -/
def fPoison : Flags := 0x100
/-- R73: a store was executed in a Sinter region body. -/
def fImpure : Flags := 0x200

/-- An extended real: a NaN (signalling, or born of an invalid operation, when `sig`), an infinity, or a signed
magnitude; the sign of a zero is kept. -/
inductive XReal where
  | nan (sig : Bool)
  | inf (neg : Bool)
  | fin (neg : Bool) (mag : Rat)
deriving DecidableEq

/-- 2^k for any integer k. -/
def pow2 (k : Int) : Rat :=
  match k with
  | .ofNat n => ((2 ^ n : Nat) : Rat)
  | .negSucc n => mkRat 1 (2 ^ (n + 1))

/-- R100: mantissa bits of a floating-point type. -/
def NTypeMan : NType → Nat
  | .f32 => 23 | .bf16 => 7 | .f16 => 10 | .e4m3 => 3 | .e5m2 => 2 | .e2m1 => 1
  | .qn4 | .s8 | .n8 | .s16 | .n16 | .s32 | .n32 | .s64 | .n64 | .b128 => 23

/-- R100: exponent bits. -/
def NTypeExp : NType → Nat
  | .f32 => 8 | .bf16 => 8 | .f16 => 5 | .e4m3 => 4 | .e5m2 => 5 | .e2m1 => 2
  | .qn4 | .s8 | .n8 | .s16 | .n16 | .s32 | .n32 | .s64 | .n64 | .b128 => 8

/-- R100: the bias. -/
def fpBias (t : NType) : Nat := 2 ^ (NTypeExp t - 1) - 1

/-- R100: the code of the largest finite magnitude. -/
def fpLargest : NType → Nat
  | .f32 => 0x7F7FFFFF | .bf16 => 0x7F7F | .f16 => 0x7BFF | .e4m3 => 0x7E | .e5m2 => 0x7B | .e2m1 => 0x7
  | .qn4 | .s8 | .n8 | .s16 | .n16 | .s32 | .n32 | .s64 | .n64 | .b128 => 0x7F7FFFFF

/-- R102: the canonical NaN; e2m1 has none and takes +0 (R113). -/
def fpNaN : NType → Nat
  | .f32 => 0x7FC00000 | .bf16 => 0x7FC0 | .f16 => 0x7FC0 | .e4m3 => 0x7F | .e5m2 => 0x7E | .e2m1 => 0
  | .qn4 | .s8 | .n8 | .s16 | .n16 | .s32 | .n32 | .s64 | .n64 | .b128 => 0x7FC00000

/-- The code of a sign on top of a magnitude code. -/
def fpSign (t : NType) (neg : Bool) (m : Nat) : Nat := if neg then m + 2 ^ (t.bits - 1) else m

/-- R100: the value of a code of a floating-point type. -/
def fpValue (t : NType) (c : Nat) : XReal :=
  let M := NTypeMan t
  let neg := c.testBit (t.bits - 1)
  let mag := c % 2 ^ (t.bits - 1)
  let e := mag / 2 ^ M
  let m := mag % 2 ^ M
  let fin := XReal.fin neg
    (if e = 0 then (m : Rat) * pow2 (1 - (fpBias t : Int) - M)
     else ((2 ^ M + m : Nat) : Rat) * pow2 ((e : Int) - fpBias t - M))
  match t with
  | .e2m1 => fin
  | .e4m3 => if mag = 0x7F then .nan false else fin
  | _ =>
    if e = 2 ^ NTypeExp t - 1 then
      (if m = 0 then .inf neg else .nan (!m.testBit (M - 1)))
    else fin

/-- Floor of the base-2 logarithm of a positive rational. -/
def ratLog2 (x : Rat) : Int :=
  let n := x.num.toNat
  let e : Int := (Nat.log2 n : Int) - Nat.log2 x.den
  if pow2 e ≤ x then e else e - 1

/-- Whether a discarded fraction rounds the magnitude up (R112): `k` the kept integer, `r` the fraction in [0, 1). -/
def roundUp (mode : RMode) (neg : Bool) (k : Nat) (r : Rat) : Bool :=
  match mode with
  | .near => decide (1 / 2 < r) || (decide (r = 1 / 2) && k % 2 = 1)
  | .zero => false
  | .down => neg && decide (r ≠ 0)
  | .up => !neg && decide (r ≠ 0)

/-- R112, R113: IEEEOverflow gives infinity (and not the largest finite value). -/
def overflowToInf (mode : RMode) (neg : Bool) : Bool :=
  match mode with
  | .near => true
  | .zero => false
  | .down => neg
  | .up => !neg

/-- R113: Overflowed of an infinity or a largest value that an overflow gave. -/
def fpOverflowed (t : NType) (neg toInf sat : Bool) : Nat × Flags :=
  let big := fpSign t neg (fpLargest t)
  if t = .e2m1 then (big, fSat ||| fInx)
  else if sat then (big, fSat ||| fInx)
  else if !toInf then (big, fOvf ||| fInx)
  else if t = .e4m3 then (fpNaN t, fOvf ||| fInx)
  else (fpSign t neg ((2 ^ NTypeExp t - 1) * 2 ^ NTypeMan t), fOvf ||| fInx)

/-- R113: Overflowed of an input infinity. -/
def fpInputInf (t : NType) (neg sat : Bool) : Nat × Flags :=
  let big := fpSign t neg (fpLargest t)
  if t = .e2m1 then (big, fSat ||| fInx)
  else if sat then (big, fSat)
  else if t = .e4m3 then (fpNaN t, fInv)
  else (fpSign t neg ((2 ^ NTypeExp t - 1) * 2 ^ NTypeMan t), 0)

/-- The rounding of a positive magnitude to the spacing of the format with unbounded exponent range (R112):
the kept integer, the exponent of its unit and the discarded fraction. -/
def fpScale (t : NType) (mag : Rat) : Nat × Int × Rat :=
  let M : Int := NTypeMan t
  let q := max (ratLog2 mag - M) (1 - (fpBias t : Int) - M)
  let y := mag * pow2 (-q)
  let k := y.floor.toNat
  (k, q, y - k)

/-- The magnitude code of integer k times 2^q, q a unit exponent of the format. -/
def fpCode (t : NType) (k : Nat) (q : Int) : Nat :=
  (q - (1 - (fpBias t : Int) - NTypeMan t)).toNat * 2 ^ NTypeMan t + k

/-- R112, R113: Round(x, f, mode, sat) with its flags. -/
def fpRound (x : XReal) (t : NType) (mode : RMode) (sat : Bool) : Nat × Flags :=
  match x with
  | .nan sig => (fpNaN t, if sig || t = .e2m1 then fInv else 0)
  | .inf neg => fpInputInf t neg sat
  | .fin neg mag =>
    if mag = 0 then (fpSign t neg 0, 0)
    else
      let (k, q, r) := fpScale t mag
      let k' := if roundUp mode neg k r then k + 1 else k
      let c := fpCode t k' q
      if fpLargest t < c then fpOverflowed t neg (overflowToInf mode neg) sat
      else
        let fl := if r = 0 then 0 else fInx ||| (if c < 2 ^ NTypeMan t then fUnf else 0)
        (fpSign t neg c, fl)

/-- R112: RoundNE. -/
def fpRoundNE (x : XReal) (t : NType) : Nat × Flags := fpRound x t .near false

/-- R117: the code of lo, and F, for a magnitude with the code `c` and the discarded fraction `r` that the format cannot
represent. DEDUCED (log 19): one that lies on the unbounded grid, beyond the largest finite value, has the codes beside its own for
neighbours, since lo < x < hi; below the first code of a binade the step is half as wide. -/
def stochStep (t : NType) (c : Nat) (r : Rat) : Nat × Nat :=
  if r = 0 then (c - 1, if c % 2 ^ NTypeMan t = 0 then 65536 / 3 else 65536 / 2) else (c, (65536 * r).floor.toNat)

/-- R117: StochRound with the random half `u`. -/
def fpStoch (x : XReal) (t : NType) (sat : Bool) (u : Nat) : Nat × Flags :=
  match x with
  | .fin neg mag =>
    if mag = 0 then fpRound x t .zero sat
    else
      let (k, q, r) := fpScale t mag
      let c := fpCode t k q
      if r = 0 && c ≤ fpLargest t then fpRound x t .zero sat
      else
        let (lo, F) := stochStep t c r
        let y := if 65536 ≤ F + u then c + 1 else lo
        if fpLargest t < y then
          let (v, fl) := fpOverflowed t neg true sat
          (v, fl ||| fInx)
        else (fpSign t neg y, fInx ||| (if y < 2 ^ NTypeMan t then fUnf else 0))
  | _ => fpRound x t .zero sat

/-- The integer a magnitude rounds to (R115, R218). -/
def ratRoundInt (mode : RMode) (neg : Bool) (mag : Rat) : Nat :=
  let k := mag.floor.toNat
  if roundUp mode neg k (mag - k) then k + 1 else k

/-- R103: the least value of an integer type. -/
def intMin (t : NType) : Int := if t.isSigned then -(2 ^ (t.bits - 1) : Nat) else 0
/-- R103: the greatest value of an integer type. -/
def intMax (t : NType) : Int := if t.isSigned then (2 ^ (t.bits - 1) : Nat) - 1 else (2 ^ t.bits : Nat) - 1

/-- A bit string read in an integer type (R3, R103). -/
def intValue (t : NType) (c : Nat) : Int :=
  let m := c % 2 ^ t.bits
  if t.isSigned && m.testBit (t.bits - 1) then (m : Int) - (2 ^ t.bits : Nat) else m

/-- The bit string of an integer reduced modulo 2^n. -/
def intBits (n : Nat) (v : Int) : Nat := (v % (2 ^ n : Nat)).toNat

/-- R115: rounding into an integer type. -/
def fpToInt (x : XReal) (t : NType) (mode : RMode) : Int × Flags :=
  match x with
  | .nan _ => (0, fInv)
  | .inf neg => (if neg then intMin t else intMax t, fInv)
  | .fin neg mag =>
    let k := ratRoundInt mode neg mag
    let v : Int := if neg then -(k : Int) else k
    if v < intMin t then (intMin t, fInv)
    else if intMax t < v then (intMax t, fInv)
    else (v, if (k : Rat) = mag then 0 else fInx)

/-- R104: an exact integer result narrowed to a type: wrapped, or clamped with the sat flag. -/
def intNarrow (t : NType) (sat : Bool) (v : Int) : Nat × Flags :=
  if sat && v < intMin t then (intBits t.bits (intMin t), fSat)
  else if sat && intMax t < v then (intBits t.bits (intMax t), fSat)
  else (intBits t.bits v, 0)

namespace XReal

/-- An exact rational; a zero takes the sign given. -/
def ofRat (zeroNeg : Bool) (q : Rat) : XReal :=
  if q = 0 then .fin zeroNeg 0 else if q < 0 then .fin true (-q) else .fin false q

/-- The rational of a finite value. -/
def toRat : XReal → Rat
  | .nan _ => 0
  | .inf _ => 0
  | .fin neg m => if neg then -m else m

/-- Whether it is a NaN. -/
def isNaN : XReal → Bool
  | .nan _ => true
  | .inf _ => false
  | .fin _ _ => false

/-- Whether it is a signalling NaN. -/
def isSig : XReal → Bool
  | .nan s => s
  | .inf _ => false
  | .fin _ _ => false

/-- The sign changed; NaNs as they are. -/
def neg : XReal → XReal
  | .nan s => .nan s
  | .inf b => .inf (!b)
  | .fin b m => .fin (!b) m

/-- R112, R114, R119: an exact sum under a rounding mode (which fixes the sign of a zero). -/
def add (mode : RMode) (a b : XReal) : XReal :=
  match a, b with
  | .nan s, y => .nan (s || y.isSig)
  | x, .nan s => .nan (s || x.isSig)
  | .inf p, .inf q => if p = q then .inf p else .nan true
  | .inf p, .fin _ _ => .inf p
  | .fin _ _, .inf q => .inf q
  | .fin p m, .fin q n =>
    if m = 0 && n = 0 then .fin (if p = q then p else mode = .down) 0
    else ofRat (mode = .down) ((XReal.fin p m).toRat + (XReal.fin q n).toRat)

/-- R114, R119: the exact sum of several terms under a rounding mode. Infinities of both signs are an invalid addition
wherever they stand. -/
def sum (mode : RMode) (ps : List XReal) : XReal :=
  if ps.any (· = .inf false) && ps.any (· = .inf true) then .nan true
  else match ps with
    | [] => .fin false 0
    | p :: qs => qs.foldl (add mode) p

/-- R114: an exact product. -/
def mul (a b : XReal) : XReal :=
  match a, b with
  | .nan s, y => .nan (s || y.isSig)
  | x, .nan s => .nan (s || x.isSig)
  | .inf p, .inf q => .inf (p != q)
  | .inf p, .fin q n => if n = 0 then .nan true else .inf (p != q)
  | .fin p m, .inf q => if m = 0 then .nan true else .inf (p != q)
  | .fin p m, .fin q n => .fin (p != q) (m * n)

/-- R114: an exact quotient, and whether it is a division by zero. -/
def div (a b : XReal) : XReal × Bool :=
  match a, b with
  | .nan s, y => (.nan (s || y.isSig), false)
  | x, .nan s => (.nan (s || x.isSig), false)
  | .inf _, .inf _ => (.nan true, false)
  | .inf p, .fin q _ => (.inf (p != q), false)
  | .fin p _, .inf q => (.fin (p != q) 0, false)
  | .fin p m, .fin q n =>
    if n = 0 then (if m = 0 then (.nan true, false) else (.inf (p != q), true)) else (.fin (p != q) (m / n), false)

/-- Exact order of two values that are not NaNs: −1, 0, 1; zeros of both signs are equal. -/
def cmp (a b : XReal) : Int :=
  match a, b with
  | .inf p, .inf q => if p = q then 0 else if p then -1 else 1
  | .inf p, _ => if p then -1 else 1
  | _, .inf q => if q then 1 else -1
  | x, y => if x.toRat < y.toRat then -1 else if y.toRat < x.toRat then 1 else 0

/-- The sign. -/
def isNeg : XReal → Bool
  | .nan _ => false
  | .inf p => p
  | .fin p _ => p

end XReal

/-- A value of f32 (R100). -/
abbrev f32v (x : Word) : XReal := fpValue .f32 x.toNat

/-- Rounding into f32 (R112). -/
def roundF32 (x : XReal) (rs : RS) : Word × Flags :=
  let (c, fl) := fpRound x .f32 rs.rm rs.sat
  (BitVec.ofNat 32 c, fl)

/-- R216: FMIN (`max` false) and FMAX on two codes of a type. -/
def fpMinMax (t : NType) (max : Bool) (a b : Nat) : Nat × Flags :=
  let x := fpValue t a
  let y := fpValue t b
  let fl := if x.isSig || y.isSig then fInv else 0
  if x.isNaN && y.isNaN then (fpNaN t, fl)
  else if x.isNaN then (b, fl)
  else if y.isNaN then (a, fl)
  else
    let c := x.cmp y
    let less := c < 0 || (c = 0 && x.isNeg && !y.isNeg)
    ((if less != max then a else b), fl)

/-- R215: the result of a comparison, and its flags. -/
def fpCompare (c : FCond) (x y : XReal) : Bool × Flags :=
  let un := x.isNaN || y.isNaN
  let quietFl := if x.isSig || y.isSig then fInv else 0
  let ordFl := if un then fInv else 0
  let k := x.cmp y
  match c with
  | .eq => (!un && k = 0, quietFl)
  | .ne => (un || k ≠ 0, quietFl)
  | .lt => (!un && k < 0, ordFl)
  | .le => (!un && k ≤ 0, ordFl)
  | .gt => (!un && 0 < k, ordFl)
  | .ge => (!un && 0 ≤ k, ordFl)
  | .un => (un, quietFl)
  | .ord => (!un, quietFl)

/-- R217: the class mask of an f32. -/
def f32Class (a : Word) : Word :=
  let mag := a.toNat % 2 ^ 31
  let neg := a.msb
  let k :=
    if 0x7F800000 < mag then (if mag.testBit 22 then 9 else 8)
    else if mag = 0x7F800000 then (if neg then 0 else 7)
    else if mag = 0 then (if neg then 3 else 4)
    else if mag < 0x800000 then (if neg then 2 else 5)
    else (if neg then 1 else 6)
  1#32 <<< k

/-- R218: rounding to an integral value in a mode; `inx` says whether the entry sets inx. -/
def f32Integral (mode : RMode) (inx : Bool) (a : Word) : Word × Flags :=
  match f32v a with
  | .nan s => (0x7FC00000, if s then fInv else 0)
  | .inf _ => (a, 0)
  | .fin neg m =>
    if m = 0 then (a, 0)
    else
      let k := ratRoundInt mode neg m
      let (c, _) := fpRoundNE (.fin neg k) .f32
      (BitVec.ofNat 32 c, if inx && (k : Rat) ≠ m then fInx else 0)

/-- R218: FFRACT. -/
def f32Fract (mode : RMode) (a : Word) : Word × Flags :=
  match f32v a with
  | .nan s => (0x7FC00000, if s then fInv else 0)
  | .inf _ => (0x7FC00000, fInv)
  | .fin neg m =>
    if m = 0 then (a, 0)
    else
      let v := (XReal.fin neg m).toRat
      roundF32 (.ofRat (mode = .down) (v - v.floor)) ⟨false, mode⟩

/-- R219: FSCALE; a count beyond ±1,000 rounds as ±1,000 does. -/
def f32Scale (a b : Word) (rs : RS) : Word × Flags :=
  let k := max (-1000) (min 1000 b.toInt)
  roundF32 (XReal.mul (f32v a) (.fin false (pow2 k))) rs

/-- R219: FGETEXP. -/
def f32GetExp (a : Word) : Word × Flags :=
  match f32v a with
  | .nan s => (0x7FC00000, if s then fInv else 0)
  | .inf _ => (0x7F800000, 0)
  | .fin _ m =>
    if m = 0 then (0xFF800000, fDz)
    else roundF32 (.ofRat false (ratLog2 m : Rat)) ⟨false, .near⟩

/-- The largest s with s² ≤ n, found bit by bit from bit b down. -/
def isqrtFrom (n : Nat) : Nat → Nat → Nat
  | 0, acc => if (acc + 1) * (acc + 1) ≤ n then acc + 1 else acc
  | b + 1, acc =>
    let t := acc + 2 ^ (b + 1)
    isqrtFrom n b (if t * t ≤ n then t else acc)

/-- Integer square root. -/
def isqrt (n : Nat) : Nat := isqrtFrom n (Nat.log2 n / 2 + 1) 0

/-- A positive rational that rounds to every format of at most 32 bits as the square root does: the root
itself when it lies on the grid of 2^−k, else the middle of the grid step that holds it. -/
def ratSqrt (x : Rat) : Rat :=
  let k := 40 + Nat.log2 x.den
  let n := x.num.toNat * 2 ^ (2 * k)
  let s := isqrt (n / x.den)
  if s * s * x.den = n then mkRat s (2 ^ k) else mkRat (2 * s + 1) (2 ^ (k + 1))

/-- R118: FSQRT. -/
def f32Sqrt (a : Word) (rs : RS) : Word × Flags :=
  match f32v a with
  | .fin neg m => if m = 0 then (a, 0) else if neg then roundF32 (.nan true) rs else roundF32 (.fin false (ratSqrt m)) rs
  | .inf true => roundF32 (.nan true) rs
  | x => roundF32 x rs

/-- R118: FRSQ. -/
def f32Rsqrt (a : Word) (rs : RS) : Word × Flags :=
  match f32v a with
  | .fin neg m =>
    if m = 0 then
      let (w, fl) := roundF32 (.inf neg) rs
      (w, fl ||| fDz)
    else if neg then roundF32 (.nan true) rs else roundF32 (.fin false (ratSqrt (1 / m))) rs
  | .inf neg => roundF32 (if neg then .nan true else .fin false 0) rs
  | x => roundF32 x rs

/-- R118: FDIV. -/
def f32Div (a b : Word) (rs : RS) : Word × Flags :=
  let (x, dz) := XReal.div (f32v a) (f32v b)
  let (w, fl) := roundF32 x rs
  (w, if dz then fl ||| fDz else fl)

/-- R118: FRCP. -/
def f32Rcp (a : Word) (rs : RS) : Word × Flags := f32Div 0x3F800000 a rs

end Sys2Proof.Machine
end

