-- ==== Sys2Proof/Machine/Quant.lean ====
section
/-! DEFINITION. Scaled formats (R105–R111), the random block (R253) and the summation order of R121. -/

namespace Sys2Proof.Machine

/-- R107: the value of an MX element `x` of type `t` under scale code `e`. -/
def decodeMX (t : NType) (x e : Nat) : XReal :=
  if e = 0xFF then .nan true
  else
    match fpValue t x with
    | .fin neg m => .fin neg (m * pow2 ((e : Int) - 127))
    | .nan _ => .nan true
    | y => y

/-- R108: the magnitude of the level of a QN4 code. -/
def qn4Mag (k : Nat) : Rat :=
  let j := if k < 8 then k else 15 - k
  let c := match j with
    | 0 => 0x3F80 | 1 => 0x3F35 | 2 => 0x3F0B | 3 => 0x3ED5 | 4 => 0x3E9F | 5 => 0x3E5D | 6 => 0x3E02 | _ => 0x3D2C
  (fpValue .bf16 c).toRat

/-- R108: v(k), negative for codes 0–7. -/
def qn4Level (k : Nat) : XReal := .fin (k < 8) (qn4Mag k)

/-- R110: DecodeQN4 of code k, block scale c and super-scale S (f32 bits). -/
def decodeQN4 (k c : Nat) (S : Word) : XReal :=
  if c = 0 then .fin false 0
  else
    match f32v S with
    | .nan _ => .nan true
    | x => XReal.mul (XReal.mul (qn4Level k) x) (.fin false (mkRat c 255))

/-- R111: whether code j is a better choice than code k for the exact value x. -/
def qn4Closer (x : Rat) (c : Nat) (S : Word) (j k : Nat) : Bool :=
  let dist := fun i => let d := x - (decodeQN4 i c S).toRat; if d < 0 then -d else d
  decide (dist j < dist k) || (decide (dist j = dist k) && decide (qn4Mag j < qn4Mag k))

/-- R111: EncodeQN4. -/
def encodeQN4 (x : Word) (c : Nat) (S : Word) : Nat × Flags :=
  match f32v x, f32v S with
  | .nan _, _ => (8, fInv)
  | _, .nan _ => (8, fInv)
  | _, .inf _ => (8, fInv)
  | y, .fin _ m =>
    if c = 0 || m = 0 then (8, fInv)
    else
      match y with
      | .inf neg =>
        -- beyond the outermost level: the code whose decoded value lies farthest on that side
        (if neg != (f32v S).isNeg then 0 else 15, fInx)
      | .fin neg n =>
        if n = 0 then (if neg then 7 else 8, 0)
        else
          let v := y.toRat
          let k := (List.range 16).foldl (fun best j => if qn4Closer v c S j best then j else best) 0
          (k, if (decodeQN4 k c S).toRat = v then 0 else fInx)
      | .nan _ => (8, fInv)

/-- R253: one round of RngBlock. -/
def rngRound (c0 c1 c2 c3 k0 k1 : Word) : Nat → QWord
  | 0 => c3 ++ c2 ++ c1 ++ c0
  | n + 1 =>
    let p0 := 0xE1A35C4B * c0.toNat
    let p1 := 0xA7F21D93 * c2.toNat
    rngRound (BitVec.ofNat 32 (p1 / 2 ^ 32) ^^^ c1 ^^^ k0) (BitVec.ofNat 32 p1)
      (BitVec.ofNat 32 (p0 / 2 ^ 32) ^^^ c3 ^^^ k1) (BitVec.ofNat 32 p0) (k0 + 0x8F3A96C5) (k1 + 0xC13D59E7) n

/-- R253: RngBlock: seven rounds. -/
def rngBlock (ctr : QWord) (key : DWord) : QWord :=
  rngRound (ctr.extractLsb' 0 32) (ctr.extractLsb' 32 32) (ctr.extractLsb' 64 32) (ctr.extractLsb' 96 32)
    (key.extractLsb' 0 32) (key.extractLsb' 32 32) 7

/-- R121: the exact sum of a chunk's products; a zero sum is −0 only when every product is −0. -/
def chunkSum (ps : List XReal) : XReal := XReal.sum .near ps

/-- R121: one chunk added to an accumulator, rounded once, with its flags. -/
def accChunk (acc : Word) (ps : List XReal) : Word × Flags :=
  roundF32 (XReal.add .near (f32v acc) (chunkSum ps)) ⟨false, .near⟩

/-- A list cut into pieces of length n. -/
def chunksOf {α : Type} (n : Nat) (xs : List α) : List (List α) :=
  (List.range ((xs.length + n - 1) / n)).map fun j => (xs.drop (j * n)).take n

/-- R121: an accumulator after a row of products in chunks of length L. -/
def accRun (L : Nat) (acc : Word) (ps : List XReal) : Word × Flags :=
  (chunksOf L ps).foldl (fun (a, fl) c => let (a', f) := accChunk a c; (a', fl ||| f)) (acc, 0)

end Sys2Proof.Machine
end

