-- ==== Sys2Proof/Machine/Lane.lean ====
section
/-! DEFINITION. How a lane word acts (R209–R212): its active lanes, the checks that depend on the state (R83), its
channel entries (R86), its results (R90–R92), and its faults (R211). Every lane meaning is made of `laneRun`. -/

namespace Sys2Proof.Machine

/-! ## A lane word in execution -/

/-- R363: of the lanes that a word's predicate selects, those for which it executes: those of a word executed again are
given, or limited. -/
def Split.redoLanes (x : Split) (act : Word) : Word :=
  match x.redo with
  | some r => if r.fresh then act &&& r.lanes else r.lanes
  | none => act

/-- R271, R363: the lanes that were active when a split's word first executed, of those its predicate now selects. -/
def Split.allLanes (x : Split) (act : Word) : Word :=
  match x.redo with
  | some r => if r.fresh then act &&& r.lanes else r.act
  | none => act

/-- R83: the active lanes of a word with a header, in a split. -/
def activeLanes (s : State) (h : LHdr) (x : Split) : Word :=
  let m := s.g.rdM s.tick h.pm.toNat
  x.redoLanes (x.mask &&& (if h.pn then ~~~m else m))

/-- R83, R271: the lanes that were active when the word with a header at a split first executed. -/
def firstLanes (s : State) (h : LHdr) (x : Split) : Word :=
  let m := s.g.rdM s.tick h.pm.toNat
  x.allLanes (x.mask &&& (if h.pn then ~~~m else m))

/-- A source operand with the number of registers it takes. -/
abbrev Opd := Src × Nat

/-- A word that executes: its split, its active lanes, and per source the channel entry it has taken: one value for
all lanes, or one for each (R273); `s0` is the state before anything was popped, `ds` the registers it may write (key in lane 0
and bits); `all` are the lanes that were active when it first executed (R271, R363). `late` is the place of a word that has waited (R38), with what it read at issue. -/
structure LCtx where
  sp   : Split
  act  : Word
  w    : Bool
  chv  : List (List Word)
  s0   : State
  os   : List Src
  ds   : List (Nat × Word)
  late : Option (Nat × Late)
  all  : Word

/-- Whether some source is a channel, which makes the word long-latency (R90). -/
def LCtx.fromChan (c : LCtx) : Bool := c.chv.any fun e => !e.isEmpty

/-- R86: the entries taken, in a list, for a word that will execute again. -/
def LCtx.saved (c : LCtx) : List Word := c.chv.flatten

/-- The active lanes, ascending. -/
def LCtx.lanes (c : LCtx) : List Nat := lanesOf c.act

/-- R271: the lowest lane that was active when the word first executed. -/
def LCtx.lead (c : LCtx) : Nat := (lanesOf c.all).headD 0

/-- A vector register in a lane, as read at issue (R209). -/
def LCtx.rdV (c : LCtx) (s : State) (r l : Nat) : Word :=
  match c.late with
  | none => s.g.rdV s.tick r l
  | some (_, w) => SMap.get 0 w.v (32 * r + l)

/-- A mask, as read at issue. -/
def LCtx.rdM (c : LCtx) (s : State) (m : Nat) : Word :=
  match c.late with
  | none => s.g.rdM s.tick m
  | some (_, w) => SMap.get (mDefault m) w.m m

/-- Register k of source i (the operand `o`) in lane l, as read at issue (R209). -/
def LCtx.val (c : LCtx) (s : State) (i : Nat) (o : Src) (k l : Nat) : Word :=
  match o with
  | .vec r => c.rdV s (r.toNat + k) l
  | .chan _ _ =>
    match c.chv.getD i [] with
    | [v] => v
    | e => e.getD l 0

/-- The vector registers of a source operand: the first, and how many. -/
def srcRun (n : Nat) : Src → List (Nat × Nat)
  | .vec r => [(r.toNat, n)]
  | .chan _ _ => []

/-- The vector registers of a destination. -/
def dstRun (n : Nat) : Dst → List (Nat × Nat)
  | .vec r => [(r.toNat, n)]
  | .chan _ => []

/-- The registers that a word of n result registers may write, for `LCtx.ds`. -/
def vDs (n : Nat) : Dst → List (Nat × Word)
  | .vec r => (List.range n).map fun k => (vKey (r.toNat + k) 0, BitVec.allOnes 32)
  | .chan _ => []

/-- The same for a mask; a write to m0 is ignored (R212). -/
def mDs (m : Nat) : List (Nat × Word) := if m = 0 then [] else [(mKey m 0, BitVec.allOnes 32)]

/-- The bits of a half of a register (R69). -/
def halfBits (hi : Bool) : Word := if hi then 0xFFFF0000 else 0x0000FFFF

/-- R83 rule 4, R17: a channel source that this core permits. -/
def srcLegal (s : State) : Src → Bool
  | .vec _ => true
  | .chan i _ => i.toNat < 20 || s.isRoof

/-- R83 rule 4, R17: a channel destination that this core permits. -/
def dstLegal (s : State) : Dst → Bool
  | .vec _ => true
  | .chan i => i.toNat ≠ 20 || !s.isRoof

/-- R83 rule 5, R31: every vector register a word names lies below the budget. -/
def inBudget (s : State) (regs : List (Nat × Nat)) : Bool := regs.all fun r => r.1 + r.2 ≤ s.g.budget

/-! ## Channel entries -/

/-- The n-th entry of a channel or chimney, counted from its head. -/
def lookEntry (s : State) (c n : Nat) : Option (List Word) :=
  if c < 20 then ((chEntries s c)[n]?).map fun v => [v] else (chimEntries s (c - 20))[n]?

/-- R86: the entries of the sources, in order, each as it stands after the pops before it, with the channels popped. -/
def readEntries (s : State) : List Src → List Nat → Option (List (List Word) × List Nat)
  | [], popped => some ([], popped)
  | .vec _ :: os, popped => (readEntries s os popped).map fun r => ([] :: r.1, r.2)
  | .chan i pop :: os, popped =>
    match lookEntry s i.toNat (popped.count i.toNat) with
    | none => none
    | some e => (readEntries s os (if pop then i.toNat :: popped else popped)).map fun r => (e :: r.1, r.2)

/-- R363: the entries a word had taken, from the list kept for it. -/
def savedEntries : List Src → List Word → List (List Word)
  | [], _ => []
  | .vec _ :: os, ws => [] :: savedEntries os ws
  | .chan i _ :: os, ws =>
    let n := if i.toNat < 20 then 1 else 32
    ws.take n :: savedEntries os (ws.drop n)

/-- The channels of a list of sources. -/
def chansOf : List Src → List Nat
  | [] => []
  | .vec _ :: os => chansOf os
  | .chan i _ :: os => i.toNat :: chansOf os

/-- R86, R38, R363: the entries of a word that issues or has waited, if all are present and its turn has come; a word that
executes again has those it had taken. -/
def takeEntries (s : State) (x : Split) (late : Option (Nat × Late)) (os : List Src) : Option (List (List Word) × List Nat) :=
  let had : Option (List Word) := match late with | some (_, w) => w.chans | none => x.redo.bind fun r => r.chans
  let since : Nat := match late with
    | some (n, _) => (match s.g.pend[n]? with | some p => p.seq | none => s.tick)
    | none => if x.park = .word then x.since else s.tick
  match had with
  | some vs => some (savedEntries os vs, [])
  | none => if (chansOf os).all fun c => chTurn s c since then readEntries s os [] else none

/-- Pops the channels of a list, once each time it is named; a receive from a chimney acquires at clu scope (R274). -/
def popEntries (s : State) (os : List Src) (popped : List Nat) : State :=
  let s := popped.foldl (fun s c => if c < 20 then chDrop s c 1 else chimTake s (c - 20) 1) s
  if (chansOf os).any fun c => 20 ≤ c then s.acquire .clu else s

/-- R38, R274: whether a channel destination has room, after the pops of the same word (R86). -/
def dstRoom (s : State) (d : Option Dst) (popped : List Nat) : Bool :=
  match d with
  | some (.chan i) => if i.toNat = 20 then chimRoom s else (chEntries s i.toNat).length < 8 + popped.count i.toNat
  | _ => true

/-- R275: a send into a chimney wakes the roof domain of its cluster. -/
def sendWakes (s : State) (d : Option Dst) : State :=
  match d with
  | some (.chan i) => if i.toNat = 20 then wakeRoof s s.clusterId else s
  | _ => s

/-- R38, R397: a word whose channel is full, or that a full log holds, parks its split. -/
def waitL (s : State) (x : Split) (want : List Nat) : Res :=
  .next (s.mapG fun g => g.mapSplit x.idx fun y =>
    { y with park := .word, since := if y.park = .word then y.since else s.tick, want := want })

/-- The split passes its word; a W parks it until its results have returned (R40). -/
def Group.endL (g : Group) (idx : Nat) (w : Bool) : Group :=
  let g := g.mapSplit idx fun y => { y with pc := y.pc + 1, redo := none, park := .ready, since := 0, want := [] }
  if w then
    let st := Strm.l (g.splitKey idx)
    if g.drained st then g.dropReturned st else g.mapSplit idx fun y => { y with park := .drain }
  else g

/-- R91, R209: the vector registers as a word that issues now reads them. -/
def vNow (s : State) : SMap Word :=
  (s.g.pend.flatMap fun p => p.dests.filter fun d => 4096 ≤ d.key && d.key < 16384).foldl (fun m d =>
    SMap.set 0 m (d.key - 4096) (Config.unpredictable s.tick d.key)) s.g.v

/-- The masks as a word that issues now reads them. -/
def mNow (s : State) : SMap Word :=
  (List.range 16).foldl (fun m i => SMap.set (mDefault i) m i (s.g.rdM s.tick i)) []

/-- R39, R139: what group order asks of a lane word: whether it accesses memory, and whether it pushes a channel entry. -/
structure LKind where
  mem  : Bool := false
  push : Bool := false
deriving DecidableEq, Repr

/-- R38: whether a destination is a channel. -/
def pushes : Option Dst → Bool
  | some (.chan _) => true
  | _ => false

/-- R39, R139, R141: whether a waiting word must execute before a later word of its split: an access before every access and every push
of an entry, a push before every push. -/
def LKind.comesAfter (k : LKind) (w : Late) : Bool := ((k.mem || k.push) && w.mem) || (k.push && w.push)

/-- The waiting words that a word about to issue at a split must come after. -/
def earlierWords (g : Group) (x : Split) (k : LKind) : List Nat :=
  ((g.waiting x).filter fun p => match p.late with | some w => k.comesAfter w | none => false).map fun p => p.seq

/-- R39, R139: whether a word is held back by words before it that still wait: one that issues, or one that has waited. -/
def heldBack (g : Group) (x : Split) (late : Option (Nat × Late)) (k : LKind) : Bool :=
  match late with
  | none => !(earlierWords g x k).isEmpty
  | some (_, w) => g.pend.any fun p => p.late.isSome && w.after.contains p.seq

/-- R38, R86, R130: a word that must wait for entries or lines, or for words before it, issues and is kept, with what it has read; its
destinations are undrained until it has executed, and its split goes on. -/
def deferL (w : Bool) (s : State) (x : Split) (act all : Word) (ds : List (Nat × Word)) (want : List Nat) (k : LKind) : Res :=
  let late : Late :=
    { word := s.g.curWord, pc := x.pc, act := act, all := all, mem := k.mem, push := k.push, after := earlierWords s.g x k,
      chans := x.redo.bind fun r => r.chans, want := want, v := vNow s, m := mNow s }
  let dests : List Dest := ds.flatMap fun d => (lanesOf act).map fun l => { key := d.1 + l, val := 0, bits := d.2 }
  .next (s.mapG fun g =>
    (g.addPend { strm := .l (g.splitKey x.idx), dests := dests, late := some late, seq := s.tick }).endL x.idx w)

/-! ## The frame of every lane word -/

/-- The word that is tried: the next one of a split, or one that has waited (R38), as a split of its own lanes. -/
def Group.tried (g : Group) : Option (Split × Option (Nat × Late)) :=
  if g.curSplit < 16 then (g.split? g.curSplit).map fun x => (x, none)
  else
    match g.pend[g.curSplit - 16]? with
    | none => none
    | some p => p.late.map fun w =>
        ({ idx := (match p.strm with | .l k => k % 8 | .c => 0), pc := w.pc, mask := w.act }, some (g.curSplit - 16, w))

/-- R401: whether a word names a vector register in which an uncorrectable error stands. -/
def namesBad (s : State) (regs : List (Nat × Nat)) : Bool :=
  s.g.badRegs.any fun e => regs.any fun r => r.1 ≤ e / 32 && e / 32 < r.1 + r.2

/-- R400, R401: the group meets an error in its registers. DESIGN CHOICE (log 10): the first word that names the register, whichever
of its lanes are active, meets it. -/
def meetBad (s : State) : State := groupUpset (uncorrected s s.sliceId) s.g.uid

/-- The word at the PC of the split that issues, or a word that has waited: its checks, its entries, then its effect `k` on
the state after the pops. `ds` are the registers it may write, `regs` those it names; `tol` where it bears errors in them (R270),
`mem` where it accesses memory (R139). -/
def laneRunT (tol mem : Bool) (h : LHdr) (ds : List (Nat × Word)) (regs : List (Nat × Nat)) (os : List Src) (d : Option Dst)
    (k : LCtx → State → Res) (s : State) : Res :=
  match s.g.tried with
  | none => .next s
  | some (x, late) =>
    let act := match late with | some (_, w) => w.act | none => activeLanes s h x
    let all := match late with | some (_, w) => w.all | none => firstLanes s h x
    let kind : LKind := ⟨mem, pushes d⟩
    let legal := inBudget s regs && os.all (srcLegal s) && (match d with | some d => dstLegal s d | none => true)
    if !legal then wordFaultL s x 0x01 act
    else if !tol && namesBad s regs then .next (meetBad s)
    else match takeEntries s x late os with
      | none => if late.isSome then .next s else deferL h.w s x act all ds (chansOf os) kind
      | some (vs, popped) =>
        if act ≠ 0 && heldBack s.g x late kind then
          (if late.isSome then .next s else deferL h.w s x act all ds (chansOf os) kind)
        else if act ≠ 0 && !dstRoom s d popped then (if late.isSome then .next (sendWakes s d) else waitL (sendWakes s d) x (chansOf os))
        else k { sp := x, act := act, w := h.w, chv := vs, s0 := s, os := os, ds := ds, late := late, all := all } (popEntries s os popped)

/-- The same for a word that accesses no memory. -/
def laneRun (h : LHdr) (ds : List (Nat × Word)) (regs : List (Nat × Nat)) (os : List Src) (d : Option Dst)
    (k : LCtx → State → Res) (s : State) : Res := laneRunT false false h ds regs os d k s

/-- The same for a word that accesses memory. -/
def laneMem (h : LHdr) (ds : List (Nat × Word)) (regs : List (Nat × Nat)) (os : List Src) (d : Option Dst)
    (k : LCtx → State → Res) (s : State) : Res := laneRunT false true h ds regs os d k s

/-- R81: the illegal-instruction fault of the lane word of the split that issues. -/
def illegalL (h : LHdr) (s : State) : Res :=
  match s.g.split? s.g.curSplit with
  | none => .next s
  | some x => wordFaultL s x 0x01 (activeLanes s h x)

/-- R130: the word finds an empty line: it waits as one long-latency access, and nothing of it has happened. -/
def LCtx.wait (c : LCtx) : Res :=
  if c.late.isSome then .next c.s0 else deferL c.w c.s0 c.sp c.act c.all c.ds (chansOf c.os) ⟨true, true⟩

/-- R86: the entries that a word has popped stand in their channels again. -/
def unpop (s0 s1 : State) : State :=
  { s1 with
    g := { s1.g with ch16 := s0.g.ch16, ch17 := s0.g.ch17 }
    t := { s1.t with chans := s0.t.chans }
    clusters := s1.clusters.map fun c => { c with chim := (s0.cluster c.id).chim } }

/-- R397, R456: a full dirty log or a checkpoint holds the word at its place, with no lane performed; `s1` is the state in which one of
its writes was held: leaves that were marked before it stay in the log. -/
def LCtx.waitLog (c : LCtx) (s1 : State) : Res :=
  let s := unpop c.s0 s1
  if c.late.isSome then .next s else waitL s c.sp (chansOf c.os)

/-- R38: a word that had waited has executed: its own entry is done. -/
def Group.endLate (g : Group) (n : Nat) : Group :=
  { g with pend := g.pend.mapIdx fun i p => if i = n then { p with late := none, dests := [] } else p }

/-- R211, R363: a word that had waited will execute again for some lanes, with the channel values it has taken. -/
def Group.keepLate (g : Group) (n : Nat) (lanes : Word) (chans : List Word) : Group :=
  { g with pend := g.pend.mapIdx fun i p =>
      if i = n then { p with late := p.late.map fun w => { w with act := lanes, chans := some chans },
                             dests := p.dests.filter fun d => lanes.getLsbD (d.key % 32) } else p }

/-- A lane word ends. -/
def LCtx.endL (c : LCtx) (s : State) : Res :=
  .next (s.mapG fun g => match c.late with | some (n, _) => g.endLate n | none => g.endL c.sp.idx c.w)

/-- R211: a lane word ends, or is stopped by the faults of some lanes, whose code and address are given; the other
lanes have had its effect. -/
def LCtx.endOr (c : LCtx) (faults : SMap (Byte × DWord)) (s : State) : Res :=
  match faults with
  | [] => c.endL s
  | f :: _ =>
    let lanes := maskOf (faults.map fun e => e.1)
    let info := { laneFaultInfo c.sp f.2.1.toNat 0 lanes faults with taken := true, act := c.all }
    match c.late with
    | none => .next (takeFault s info c.saved)
    | some (n, _) =>
      .next (takeFault (s.mapG fun g => g.keepLate n lanes c.saved)
        { info with late := (s.g.pend[n]?).map fun p => p.seq } c.saved)

/-! ## Results -/

/-- The results of a word: per active lane its registers, lowest first. -/
abbrev Outs := List (Nat × List Word)

/-- R92: the results of a word that had waited: what later words have left of its destinations. -/
def Group.fillLate (g : Group) (n seq : Nat) (ds : List Dest) : Group :=
  match g.pend[n]? with
  | none => g
  | some p =>
    let left := (ds.map g.banked).filterMap fun d => (p.dests.find? fun e => e.key = d.key).map fun e => { d with bits := d.bits &&& e.bits }
    let own : Pend := { p with dests := p.dests.filter fun e => !(left.any fun d => d.key = e.key) }
    { g with pend := g.pend.set n own ++ [{ strm := p.strm, dests := left.filter fun d => d.bits ≠ 0, seq := seq }] }

/-- A long-latency result of the split on its way (R90). -/
def LCtx.pend (c : LCtx) (ds : List Dest) (s : State) : State :=
  s.mapG fun g =>
    match c.late with
    | some (n, _) => g.fillLate n s.tick ds
    | none => g.addPend { strm := .l (g.splitKey c.sp.idx), dests := ds, seq := s.tick }

/-- Writes bits of registers from `r` up in each lane, as a long-latency result or at once. -/
def LCtx.putV (c : LCtx) (long : Bool) (r : Nat) (bits : Word) (outs : Outs) (s : State) : State :=
  if long || c.fromChan then
    if outs.isEmpty then s
    else c.pend (outs.flatMap fun o => o.2.mapIdx fun k v => { key := vKey (r + k) o.1, val := v, bits := bits }) s
  else
    s.mapG fun g => outs.foldl (fun g o =>
      (o.2.mapIdx fun k v => (k, v)).foldl (fun g kv => g.wrVBits (r + kv.1) o.1 bits kv.2) g) g

/-- R37, R273: pushes the results to a channel: the lowest lane's value, or a vector for a chimney. -/
def pushOuts (i : Nat) (outs : Outs) (s : State) : State :=
  match outs with
  | [] => s
  | o :: _ =>
    if i = 20 then
      chimPush s ((List.range 32).map fun l => match outs.find? fun o => o.1 = l with | some o => o.2.headD 0 | none => 0)
    else chPush s i (o.2.headD 0)

/-- Writes the results to a destination. -/
def LCtx.put (c : LCtx) (long : Bool) (d : Dst) (outs : Outs) (s : State) : State :=
  match d with
  | .vec r => c.putV long r.toNat (BitVec.allOnes 32) outs s
  | .chan i => pushOuts i.toNat outs s

/-- R69: writes 16-bit results to a half. -/
def LCtx.putHalf (c : LCtx) (long : Bool) (r : Nat) (hi : Bool) (outs : Outs) (s : State) : State :=
  c.putV long r (halfBits hi) (outs.map fun o => (o.1, o.2.map fun (v : Word) => if hi then v <<< 16 else v)) s

/-- R212: a bit of each active lane in a mask. -/
def LCtx.putM (c : LCtx) (long : Bool) (m : Nat) (bs : List (Nat × Bool)) (s : State) : State :=
  if m = 0 then s
  else if long || c.fromChan then
    if bs.isEmpty then s else c.pend (wholes (bs.map fun b => (mKey m b.1, if b.2 then 1 else 0))) s
  else s.mapG fun g => bs.foldl (fun g b => g.wrMBit m b.1 b.2) g

/-- R120: the flags of a word. -/
def flagAll (fs : List Flags) (s : State) : State :=
  let f := fs.foldl (· ||| ·) 0
  if f = 0 then s else s.mapG fun g => g.flag f

/-! ## The common shapes -/

/-- What a lane computes from its operands: register k of source i. -/
abbrev LaneFn := (Nat → Nat → Word) → List Word × Flags

/-- The results and flags of every active lane. -/
def LCtx.compute (c : LCtx) (s : State) (os : List Src) (f : LaneFn) : List (Nat × List Word × Flags) :=
  c.lanes.map fun l => (l, f fun i k => c.val s i (os.getD i (.vec 0)) k l)

/-- A word that computes a result of n registers in each lane from its operands. -/
def laneOp (h : LHdr) (long : Bool) (d : Dst) (n : Nat) (os : List Opd) (f : LaneFn) (s : State) : Res :=
  let srcs := os.map fun o => o.1
  laneRun h (vDs n d) (dstRun n d ++ os.flatMap fun o => srcRun o.2 o.1) srcs (some d) (fun c s =>
    let rs := c.compute s srcs f
    c.endL (flagAll (rs.map fun r => r.2.2) (c.put long d (rs.map fun r => (r.1, r.2.1)) s))) s

/-- A word whose 16-bit results go to a half of the destination. -/
def laneHalf (h : LHdr) (d : HDst) (os : List Opd) (f : LaneFn) (s : State) : Res :=
  let srcs := os.map fun o => o.1
  match d.d with
  | .chan _ => illegalL h s
  | .vec r =>
    laneRun h [(vKey r.toNat 0, halfBits d.hi)] ((r.toNat, 1) :: os.flatMap fun o => srcRun o.2 o.1) srcs none (fun c s =>
      let rs := c.compute s srcs f
      c.endL (flagAll (rs.map fun x => x.2.2) (c.putHalf false r.toNat d.hi (rs.map fun x => (x.1, x.2.1)) s))) s

/-- R212: a word that computes a truth value in each lane, for a register or a mask. -/
def lanePred (h : LHdr) (d : PDst) (os : List Opd) (f : (Nat → Nat → Word) → Bool × Flags) (s : State) : Res :=
  let srcs := os.map fun o => o.1
  match d with
  | .reg d => laneOp h false d 1 os (fun v => let (b, fl) := f v; ([if b then BitVec.allOnes 32 else 0], fl)) s
  | .mask m =>
    laneRun h (mDs m.toNat) (os.flatMap fun o => srcRun o.2 o.1) srcs none (fun c s =>
      let rs := c.lanes.map fun l => (l, f fun i k => c.val s i (srcs.getD i (.vec 0)) k l)
      c.endL (flagAll (rs.map fun x => x.2.2) (c.putM false m.toNat (rs.map fun x => (x.1, x.2.1)) s))) s

/-- A 64-bit value of two registers (R68). -/
def pairOf (v : Nat → Word) : DWord := v 1 ++ v 0
/-- A 128-bit value of four registers (R210). -/
def quadOf (v : Nat → Word) : QWord := v 3 ++ v 2 ++ v 1 ++ v 0
/-- The registers of a natural value, lowest first. -/
def regsOf (n v : Nat) : List Word := (List.range n).map fun k => BitVec.ofNat 32 (v / 2 ^ (32 * k))
/-- The natural value of n registers. -/
def natOf (n : Nat) (v : Nat → Word) : Nat := (List.range n).foldl (fun a k => a + (v k).toNat * 2 ^ (32 * k)) 0

end Sys2Proof.Machine
end

