-- ==== Sys2Proof/Machine/Transc.lean ====
section
/-! DEFINITION. The transcendental functions of R118 (and the exponentials of chapter 11), correctly rounded:
fixed-point interval arithmetic with 200 fractional bits encloses the exact value, and both ends must round
alike. Where they do not, the result is the opaque `Config.unsettled`. -/

namespace Sys2Proof.Machine

/-- One, with 200 fractional bits. -/
def fxOne : Nat := 2 ^ 200

/-- Floor of π × 2^200. -/
def fxPi : Nat := 0x3243f6a8885a308d313198a2e03707344a4093822299f31d008
/-- Floor of ln 2 × 2^200. -/
def fxLn2 : Nat := 0xb17217f7d1cf79abc9e3b39803f2f6af40f343267298b62d8a

/-- An interval of non-negative fixed-point values. -/
structure Fx where
  lo : Nat
  hi : Nat
deriving DecidableEq, Repr

/-- The interval of a non-negative rational. -/
def Fx.ofRat (x : Rat) : Fx :=
  let k := (x * (fxOne : Nat)).floor.toNat
  ⟨k, k + 1⟩

/-- A product. -/
def Fx.mul (a b : Fx) : Fx := ⟨a.lo * b.lo / fxOne, a.hi * b.hi / fxOne + 1⟩

/-- A quotient by a natural number. -/
def Fx.divNat (a : Fx) (n : Nat) : Fx := ⟨a.lo / n, a.hi / n + 1⟩

/-- A quotient. -/
def Fx.div (a b : Fx) : Fx := ⟨a.lo * fxOne / b.hi, a.hi * fxOne / b.lo + 1⟩

/-- One plus an interval. -/
def Fx.succ (a : Fx) : Fx := ⟨fxOne + a.lo, fxOne + a.hi⟩

/-- exp(y) for 0 ≤ y < 1 by Horner's rule from term n down to term k. -/
def fxExpFrom (y : Fx) : Nat → Nat → Fx
  | 0, _ => ⟨fxOne, 2 * fxOne⟩
  | n + 1, k => ((y.mul (fxExpFrom y n (k + 1))).divNat k).succ

/-- exp(y) for 0 ≤ y < 1. -/
def fxExp (y : Fx) : Fx := fxExpFrom y 50 1

/-- atanh(z)/z = Σ z^(2k)/(2k+1) for z² ≤ 1/9, by Horner's rule from term n down to term k. -/
def fxAtanhFrom (z2 : Fx) : Nat → Nat → Fx
  | 0, k => ⟨fxOne / (2 * k + 1), 2 * fxOne⟩
  | n + 1, k =>
    let t := z2.mul (fxAtanhFrom z2 n (k + 1))
    ⟨fxOne / (2 * k + 1) + t.lo, fxOne / (2 * k + 1) + 1 + t.hi⟩

/-- sin(θ)/θ = 1 − θ²/6 (1 − θ²/20 (…)) for θ² < 5/2, by Horner's rule from term n down to term k. -/
def fxSincFrom (t2 : Fx) : Nat → Nat → Fx
  | 0, _ => ⟨0, fxOne⟩
  | n + 1, k =>
    let u := (t2.mul (fxSincFrom t2 n (k + 1))).divNat ((2 * k) * (2 * k + 1))
    ⟨fxOne - u.hi, fxOne - u.lo⟩

/-- An enclosure of an exact real result that is no zero: a sign and two magnitudes. -/
structure Enclosure where
  neg : Bool
  lo  : Rat
  hi  : Rat

/-- The rational a fixed-point value stands for. -/
def fxRat (n : Nat) : Rat := mkRat n fxOne

/-- Round of an enclosed value (R112); `fn` and `arg` name the free value of a rounding that stays open. -/
def roundEnclosure (fn arg : Nat) (e : Enclosure) (rs : RS) : Word × Flags :=
  let a := roundF32 (.fin e.neg e.lo) rs
  let b := roundF32 (.fin e.neg e.hi) rs
  if a = b then a else (Config.unsettled fn arg, fInx)

/-- exp of a rational, |x| < 200, enclosed. -/
def ratExp (x : Rat) : Rat × Rat :=
  let n := (x * (fxOne : Nat) / (fxLn2 : Nat)).floor
  let n := if n = 0 && x < 0 then -1 else n
  let y := if 0 ≤ n then Fx.ofRat (max 0 (x - n * fxRat (fxLn2 + 1))) else Fx.ofRat (max 0 (x - n * fxRat fxLn2))
  let slack := (n.natAbs + 2)
  let e := fxExp ⟨y.lo - slack, y.hi + slack⟩
  (fxRat e.lo * pow2 n, fxRat e.hi * pow2 n)

/-- 2^x of a rational, |x| < 2^10, enclosed. -/
def ratExp2 (x : Rat) : Rat × Rat :=
  let n := x.floor
  let y := (Fx.ofRat (x - n)).mul ⟨fxLn2, fxLn2 + 1⟩
  let e := fxExp y
  (fxRat e.lo * pow2 n, fxRat e.hi * pow2 n)

/-- R118: EX2. Beyond ±2,000 the result rounds as at ±2,000; below 2^−40 in magnitude it lies next to 1. -/
def f32Ex2 (a : Word) (rs : RS) : Word × Flags :=
  match f32v a with
  | .nan s => roundF32 (.nan s) rs
  | .inf neg => roundF32 (if neg then .fin false 0 else .inf false) rs
  | .fin neg m =>
    let x := (XReal.fin neg m).toRat
    if m = 0 then roundF32 (.fin false 1) rs
    else if 2000 < m then roundF32 (.fin false (pow2 (if neg then -2000 else 2000))) rs
    else if x.den = 1 then roundF32 (.fin false (pow2 x.num)) rs
    else if m < pow2 (-40) then roundF32 (.fin false (if neg then 1 - pow2 (-42) else 1 + pow2 (-42))) rs
    else
      let (lo, hi) := ratExp2 x
      roundEnclosure 13 a.toNat ⟨false, lo, hi⟩ rs

/-- log2 of a positive rational that is no power of two, enclosed with its sign. -/
def ratLb (x : Rat) : Enclosure :=
  let e := ratLog2 x
  let m := x * pow2 (-e)
  let z := Fx.ofRat ((m - 1) / (m + 1))
  let l := (z.mul (fxAtanhFrom (z.mul z) 130 0)).div ⟨fxLn2, fxLn2 + 1⟩
  let lo := (e : Rat) + fxRat (2 * l.lo)
  let hi := (e : Rat) + fxRat (2 * l.hi)
  if 0 < lo then ⟨false, lo, hi⟩ else ⟨true, -hi, -lo⟩

/-- R118: LG2. -/
def f32Lg2 (a : Word) (rs : RS) : Word × Flags :=
  match f32v a with
  | .nan s => roundF32 (.nan s) rs
  | .inf neg => roundF32 (if neg then .nan true else .inf false) rs
  | .fin neg m =>
    if m = 0 then
      let (w, fl) := roundF32 (.inf true) rs
      (w, fl ||| fDz)
    else if neg then roundF32 (.nan true) rs
    else if m = pow2 (ratLog2 m) then roundF32 (.ofRat false (ratLog2 m : Rat)) rs
    else roundEnclosure 14 a.toNat (ratLb m) rs

/-- sin(2πt) for 0 < t < 1/4, enclosed. -/
def ratSinTurn (t : Rat) : Rat × Rat :=
  let th := (Fx.ofRat t).mul ⟨2 * fxPi, 2 * fxPi + 2⟩
  let s := fxSincFrom (th.mul th) 40 1
  (t * fxRat (2 * fxPi) * fxRat s.lo, t * fxRat (2 * fxPi + 2) * fxRat s.hi)

/-- sin(2πx) for a rational x, rounded: exact, next to ±1, or enclosed; `zeroNeg` is the
sign of a zero. -/
def turnSine (fn arg : Nat) (zeroNeg : Bool) (x : Rat) (rs : RS) : Word × Flags :=
  let r := x - x.floor
  let neg := decide (1 / 2 < r)
  let h := if neg then r - 1 / 2 else r
  let t := if 1 / 4 < h then 1 / 2 - h else h
  if t = 0 then roundF32 (.fin zeroNeg 0) rs
  else if t = 1 / 4 then roundF32 (.fin neg 1) rs
  else if 1 / 4 - pow2 (-50) < t then roundF32 (.fin neg (1 - pow2 (-60))) rs
  else
    let (lo, hi) := ratSinTurn t
    roundEnclosure fn arg ⟨neg, lo, hi⟩ rs

/-- R118: FSINT. -/
def f32Sint (a : Word) (rs : RS) : Word × Flags :=
  match f32v a with
  | .nan s => roundF32 (.nan s) rs
  | .inf _ => roundF32 (.nan true) rs
  | .fin neg m => if m = 0 then (a, 0) else turnSine 15 a.toNat neg (XReal.fin neg m).toRat rs

/-- R118: FCOST: cos(2πx) = sin(2π(x + 1/4)). -/
def f32Cost (a : Word) (rs : RS) : Word × Flags :=
  match f32v a with
  | .nan s => roundF32 (.nan s) rs
  | .inf _ => roundF32 (.nan true) rs
  | .fin neg m => turnSine 16 a.toNat false ((XReal.fin neg m).toRat + 1 / 4) rs

end Sys2Proof.Machine
end

