-- ==== Sys2Proof/Machine/LaneFp.lean ====
section
/-! DEFINITION. The lane words of FP32 (R214–R219), of packed 16-bit arithmetic (R220, R221) and of the conversions
(R222–R228). -/

namespace Sys2Proof.Machine

/-! ## FP32 -/

/-- A word of one f32 operand. -/
def lane1 (f : Word → Word × Flags) (long : Bool) (h : LHdr) (d : Dst) (a : Src) (s : State) : Res :=
  laneOp h long d 1 [(a, 1)] (fun v => let (w, fl) := f (v 0 0); ([w], fl)) s

/-- A word of two f32 operands. -/
def lane2 (f : Word → Word → Word × Flags) (long : Bool) (h : LHdr) (d : Dst) (a b : Src) (s : State) : Res :=
  laneOp h long d 1 [(a, 1), (b, 1)] (fun v => let (w, fl) := f (v 0 0) (v 1 0); ([w], fl)) s

/-- A word of three f32 operands. -/
def lane3 (f : Word → Word → Word → Word × Flags) (h : LHdr) (d : Dst) (a b c : Src) (s : State) : Res :=
  laneOp h false d 1 [(a, 1), (b, 1), (c, 1)] (fun v => let (w, fl) := f (v 0 0) (v 1 0) (v 2 0); ([w], fl)) s

/-- R214: A + B, rounded once. -/
def f32Add (r : RS) (a b : Word) : Word × Flags := roundF32 (XReal.add r.rm (f32v a) (f32v b)) r
/-- R214: A − B, rounded once. -/
def f32Sub (r : RS) (a b : Word) : Word × Flags := roundF32 (XReal.add r.rm (f32v a) (f32v b).neg) r
/-- R214: A × B, rounded once. -/
def f32Mul (r : RS) (a b : Word) : Word × Flags := roundF32 (XReal.mul (f32v a) (f32v b)) r
/-- R214: A × B + C, rounded once. -/
def f32Fma (r : RS) (a b c : Word) : Word × Flags :=
  roundF32 (XReal.add r.rm (XReal.mul (f32v a) (f32v b)) (f32v c)) r
/-- R214: A × B − C, rounded once. -/
def f32Fms (r : RS) (a b c : Word) : Word × Flags :=
  roundF32 (XReal.add r.rm (XReal.mul (f32v a) (f32v b)) (f32v c).neg) r
/-- R216 for f32. -/
def f32MinMax (max : Bool) (a b : Word) : Word × Flags :=
  let (c, fl) := fpMinMax .f32 max a.toNat b.toNat
  (BitVec.ofNat 32 c, fl)

/-- FADD. -/
def execFadd (h : LHdr) (d : Dst) (a b : Src) (r : RS) (s : State) : Res := lane2 (f32Add r) false h d a b s
/-- FSUB. -/
def execFsub (h : LHdr) (d : Dst) (a b : Src) (r : RS) (s : State) : Res := lane2 (f32Sub r) false h d a b s
/-- FMUL. -/
def execFmul (h : LHdr) (d : Dst) (a b : Src) (r : RS) (s : State) : Res := lane2 (f32Mul r) false h d a b s
/-- FFMA. -/
def execFfma (h : LHdr) (d : Dst) (a b c : Src) (r : RS) (s : State) : Res := lane3 (f32Fma r) h d a b c s
/-- FFMS. -/
def execFfms (h : LHdr) (d : Dst) (a b c : Src) (r : RS) (s : State) : Res := lane3 (f32Fms r) h d a b c s
/-- FMIN (R216). -/
def execFmin (h : LHdr) (d : Dst) (a b : Src) (s : State) : Res := lane2 (f32MinMax false) false h d a b s
/-- FMAX (R216). -/
def execFmax (h : LHdr) (d : Dst) (a b : Src) (s : State) : Res := lane2 (f32MinMax true) false h d a b s
/-- FCMP (R215). -/
def execFcmp (h : LHdr) (d : PDst) (c : FCond) (a b : Src) (s : State) : Res :=
  lanePred h d [(a, 1), (b, 1)] (fun v => fpCompare c (f32v (v 0 0)) (f32v (v 1 0))) s
/-- FCLASS (R217). -/
def execFclass (h : LHdr) (d : Dst) (a : Src) (s : State) : Res := lane1 (fun x => (f32Class x, 0)) false h d a s
/-- FDIV. -/
def execFdiv (h : LHdr) (d : Dst) (a b : Src) (r : RS) (s : State) : Res :=
  lane2 (fun x y => f32Div x y r) true h d a b s
/-- FRCP. -/
def execFrcp (h : LHdr) (d : Dst) (a : Src) (r : RS) (s : State) : Res := lane1 (fun x => f32Rcp x r) true h d a s
/-- FRSQ. -/
def execFrsq (h : LHdr) (d : Dst) (a : Src) (r : RS) (s : State) : Res := lane1 (fun x => f32Rsqrt x r) true h d a s
/-- FSQRT. -/
def execFsqrt (h : LHdr) (d : Dst) (a : Src) (r : RS) (s : State) : Res := lane1 (fun x => f32Sqrt x r) true h d a s
/-- EX2. -/
def execEx2 (h : LHdr) (d : Dst) (a : Src) (r : RS) (s : State) : Res := lane1 (fun x => f32Ex2 x r) true h d a s
/-- LG2. -/
def execLg2 (h : LHdr) (d : Dst) (a : Src) (r : RS) (s : State) : Res := lane1 (fun x => f32Lg2 x r) true h d a s
/-- FSINT. -/
def execFsint (h : LHdr) (d : Dst) (a : Src) (r : RS) (s : State) : Res := lane1 (fun x => f32Sint x r) true h d a s
/-- FCOST. -/
def execFcost (h : LHdr) (d : Dst) (a : Src) (r : RS) (s : State) : Res := lane1 (fun x => f32Cost x r) true h d a s
/-- FRINT (R218). -/
def execFrint (h : LHdr) (d : Dst) (a : Src) (rm : RMode) (s : State) : Res :=
  lane1 (f32Integral rm true) false h d a s
/-- FFLOOR (R218). -/
def execFfloor (h : LHdr) (d : Dst) (a : Src) (s : State) : Res := lane1 (f32Integral .down false) false h d a s
/-- FCEIL (R218). -/
def execFceil (h : LHdr) (d : Dst) (a : Src) (s : State) : Res := lane1 (f32Integral .up false) false h d a s
/-- FTRUNC (R218). -/
def execFtrunc (h : LHdr) (d : Dst) (a : Src) (s : State) : Res := lane1 (f32Integral .zero false) false h d a s
/-- FFRACT (R218). -/
def execFfract (h : LHdr) (d : Dst) (a : Src) (rm : RMode) (s : State) : Res := lane1 (f32Fract rm) false h d a s
/-- FSCALE (R219). -/
def execFscale (h : LHdr) (d : Dst) (a b : Src) (r : RS) (s : State) : Res :=
  lane2 (fun x y => f32Scale x y r) false h d a b s
/-- FGETEXP (R219). -/
def execFgetexp (h : LHdr) (d : Dst) (a : Src) (s : State) : Res := lane1 f32GetExp false h d a s
/-- FCOPYSIGN (R219). -/
def execFcopysign (h : LHdr) (d : Dst) (a b : Src) (s : State) : Res :=
  lane2 (fun x y => ((y &&& 0x80000000) ||| (x &&& 0x7FFFFFFF), 0)) false h d a b s

/-! ## Packed 16-bit -/

/-- The two halves of a register, low first. -/
def halves (w : Word) : Nat × Nat := (w.toNat % 65536, w.toNat / 65536)
/-- A register of two halves. -/
def ofHalves (lo hi : Nat) : Word := BitVec.ofNat 32 (lo + 65536 * hi)

/-- R220: a packed word of two operands. -/
def pack2 (f : Nat → Nat → Nat × Flags) (x y : Word) : Word × Flags :=
  let (a, fa) := f (halves x).1 (halves y).1
  let (b, fb) := f (halves x).2 (halves y).2
  (ofHalves a b, fa ||| fb)

/-- R220: a rounded packed operation. -/
def hop (t : NType) (r : RS) (f : XReal → XReal → XReal) (x y : Nat) : Nat × Flags :=
  fpRound (f (fpValue t x) (fpValue t y)) t r.rm r.sat

/-- R220: HFMA2 on three registers. -/
def hfma (t : NType) (r : RS) (x y z : Word) : Word × Flags :=
  let f (a b c : Nat) := fpRound (XReal.add r.rm (XReal.mul (fpValue t a) (fpValue t b)) (fpValue t c)) t r.rm r.sat
  let (a, fa) := f (halves x).1 (halves y).1 (halves z).1
  let (b, fb) := f (halves x).2 (halves y).2 (halves z).2
  (ofHalves a b, fa ||| fb)

/-- R221: HDOT2: two exact products and C, rounded once. -/
def hdot (t : NType) (r : RS) (x y z : Word) : Word × Flags :=
  let p (a b : Nat) := XReal.mul (fpValue t a) (fpValue t b)
  roundF32 (XReal.sum r.rm [p (halves x).1 (halves y).1, p (halves x).2 (halves y).2, f32v z]) r

/-- HADD2. -/
def execHadd2 (h : LHdr) (ty : NType) (d : Dst) (a b : Src) (r : RS) (s : State) : Res :=
  lane2 (pack2 (hop ty r (XReal.add r.rm))) false h d a b s
/-- HSUB2. -/
def execHsub2 (h : LHdr) (ty : NType) (d : Dst) (a b : Src) (r : RS) (s : State) : Res :=
  lane2 (pack2 (hop ty r fun x y => XReal.add r.rm x y.neg)) false h d a b s
/-- HMUL2. -/
def execHmul2 (h : LHdr) (ty : NType) (d : Dst) (a b : Src) (r : RS) (s : State) : Res :=
  lane2 (pack2 (hop ty r XReal.mul)) false h d a b s
/-- HFMA2. -/
def execHfma2 (h : LHdr) (ty : NType) (d : Dst) (a b c : Src) (r : RS) (s : State) : Res :=
  lane3 (hfma ty r) h d a b c s
/-- HMIN2. -/
def execHmin2 (h : LHdr) (ty : NType) (d : Dst) (a b : Src) (s : State) : Res :=
  lane2 (pack2 (fpMinMax ty false)) false h d a b s
/-- HMAX2. -/
def execHmax2 (h : LHdr) (ty : NType) (d : Dst) (a b : Src) (s : State) : Res :=
  lane2 (pack2 (fpMinMax ty true)) false h d a b s
/-- HCMP2. -/
def execHcmp2 (h : LHdr) (ty : NType) (d : Dst) (c : FCond) (a b : Src) (s : State) : Res :=
  lane2 (pack2 fun x y => let (t, fl) := fpCompare c (fpValue ty x) (fpValue ty y); (if t then 0xFFFF else 0, fl))
    false h d a b s
/-- HDOT2. -/
def execHdot2 (h : LHdr) (ty : NType) (d : Dst) (a b c : Src) (r : RS) (s : State) : Res :=
  lane3 (hdot ty r) h d a b c s

/-! ## Conversions -/

/-- R117: how many of a word's results are rounded stochastically is one step of sr.ctr; the random half of element i
is half i of the block. -/
def randomHalf (s : State) (l i : Nat) : Nat :=
  (rngBlock (s.g.rdCtr l) s.g.srKey).toNat / 2 ^ (16 * (i % 8)) % 65536

/-- R117: the counters of the active lanes take one step. -/
def LCtx.stepCtr (c : LCtx) (sr : Bool) (s : State) : State :=
  if sr then s.mapG fun g => c.lanes.foldl (fun g l => g.wrCtr l (g.rdCtr l + 1)) g else s

/-- R112, R117: an exact value rounded into a type, by a mode or stochastically with the half `u`. -/
def roundTo (t : NType) (r : RS) (sr : Bool) (u : Nat) (x : XReal) : Nat × Flags :=
  if sr then fpStoch x t r.sat u else fpRound x t r.rm r.sat

/-- R222: a 16-bit source half, or the low bits of a register. -/
def srcBits (t : NType) (hi : Bool) (n : Nat) : Nat :=
  if t.bits = 16 && hi then n / 65536 % 65536 else n % 2 ^ t.bits

/-- A conversion word: each lane gives codes of the destination type from its random halves and operands; `n` is the
register count of the result. -/
def laneCvt (h : LHdr) (sr : Bool) (d : Dst) (n : Nat) (os : List Opd)
    (f : (Nat → Nat) → (Nat → Nat → Word) → List Word × Flags) (s : State) : Res :=
  let srcs := os.map fun o => o.1
  laneRun h (vDs n d) (dstRun n d ++ os.flatMap fun o => srcRun o.2 o.1) srcs (some d) (fun c s =>
    let rs := c.lanes.map fun l => (l, f (randomHalf s l) fun i k => c.val s i (srcs.getD i (.vec 0)) k l)
    c.endL (flagAll (rs.map fun r => r.2.2) (c.put false d (rs.map fun r => (r.1, r.2.1)) (c.stepCtr sr s)))) s

/-- The same with a 16-bit result in a half. -/
def laneCvtHalf (h : LHdr) (sr : Bool) (d : HDst) (os : List Opd)
    (f : (Nat → Nat) → (Nat → Nat → Word) → List Word × Flags) (s : State) : Res :=
  let srcs := os.map fun o => o.1
  match d.d with
  | .chan _ => illegalL h s
  | .vec r =>
    laneRun h [(vKey r.toNat 0, halfBits d.hi)] ((r.toNat, 1) :: os.flatMap fun o => srcRun o.2 o.1) srcs none (fun c s =>
      let rs := c.lanes.map fun l => (l, f (randomHalf s l) fun i k => c.val s i (srcs.getD i (.vec 0)) k l)
      c.endL (flagAll (rs.map fun x => x.2.2)
        (c.putHalf false r.toNat d.hi (rs.map fun x => (x.1, x.2.1)) (c.stepCtr sr s)))) s

/-- R227: a conversion of one value, to a half where the type has 16 bits. -/
def laneConv (h : LHdr) (sr : Bool) (ty sty : NType) (d : HDst) (a : Src)
    (f : (Nat → Nat) → Nat → List Word × Flags) (s : State) : Res :=
  let g (u : Nat → Nat) (v : Nat → Nat → Word) := f u (natOf sty.regs (v 0))
  if ty.bits = 16 then laneCvtHalf h sr d [(a, sty.regs)] g s else laneCvt h sr d.d ty.regs [(a, sty.regs)] g s

/-- CVT (R223). -/
def execCvt (h : LHdr) (ty sty : NType) (shi sr : Bool) (d : HDst) (a : Src) (r : RS) (s : State) : Res :=
  laneConv h sr ty sty d a (fun u x =>
    let (c, fl) := roundTo ty r sr (u 0) (fpValue sty (srcBits sty shi x))
    ([BitVec.ofNat 32 c], fl)) s

/-- R224: the element with scale code e: decoded, scaled exactly, rounded once. -/
def cvtElem (ty sty : NType) (r : RS) (sr : Bool) (u e x : Nat) : Nat × Flags :=
  if e = 255 then ((fpRound (.nan false) ty r.rm r.sat).1, fInv)
  else
    let k : Int := if ty.bits < sty.bits then 127 - (e : Int) else (e : Int) - 127
    roundTo ty r sr u (XReal.mul (fpValue sty x) (.fin false (pow2 k)))

/-- R224: n elements of a run converted into a run. -/
def cvtRun (n : Nat) (ty sty : NType) (r : RS) (sr : Bool) (u : Nat → Nat) (e x : Nat) : Nat × Flags :=
  (List.range n).foldl (fun a i =>
    let (c, fl) := cvtElem ty sty r sr (u i) e (x / 2 ^ (sty.bits * i) % 2 ^ sty.bits)
    (a.1 + c * 2 ^ (ty.bits * i), a.2 ||| fl)) (0, 0)

/-- R224: the shared meaning of CVT2, CVT4 and CVT8. -/
def cvtN (n : Nat) (h : LHdr) (ty sty : NType) (sr : Bool) (d : Dst) (a : Src) (b : Option Src) (r : RS) (s : State) :
    Res :=
  match cvtTable n ty sty with
  | none => illegalL h s
  | some (nd, ns) =>
    let os : List Opd := (a, ns) :: (match b with | some b => [(b, 1)] | none => [])
    laneCvt h sr d nd os (fun u v =>
      let e := if b.isSome then (v 1 0).toNat % 256 else 127
      let (x, fl) := cvtRun n ty sty r sr u e (natOf ns (v 0))
      (regsOf nd x, fl)) s

/-- CVT2. -/
def execCvt2 (h : LHdr) (ty sty : NType) (sr : Bool) (d : Dst) (a : Src) (r : RS) (s : State) : Res :=
  cvtN 2 h ty sty sr d a none r s
/-- CVT4. -/
def execCvt4 (h : LHdr) (ty sty : NType) (sr : Bool) (d : Dst) (a : Src) (b : Option Src) (r : RS) (s : State) : Res :=
  cvtN 4 h ty sty sr d a b r s
/-- CVT8. -/
def execCvt8 (h : LHdr) (ty sty : NType) (sr : Bool) (d : Dst) (a : Src) (b : Option Src) (r : RS) (s : State) : Res :=
  cvtN 8 h ty sty sr d a b r s

/-- QDEC (R225). -/
def execQdec (h : LHdr) (ty : NType) (sr : Bool) (d : Dst) (a b c : Src) (r : RS) (s : State) : Res :=
  let n := if ty.bits = 8 then 2 else 4
  laneCvt h sr d n [(a, 1), (b, 1), (c, 1)] (fun u v =>
    let (x, fl) := (List.range 8).foldl (fun acc i =>
      let (k, fl) := roundTo ty r sr (u i) (decodeQN4 ((v 0 0).toNat / 16 ^ i % 16) ((v 1 0).toNat % 256) (v 2 0))
      (acc.1 + k * 2 ^ (ty.bits * i), acc.2 ||| fl)) (0, (0 : Flags))
    (regsOf n x, fl)) s

/-- QENC (R226): one nibble of the destination. -/
def execQenc (h : LHdr) (d : Dst) (a b c : Src) (i : BitVec 3) (s : State) : Res :=
  let srcs := [a, b, c]
  match d with
  | .chan _ => illegalL h s
  | .vec r =>
    laneRun h [(vKey r.toNat 0, 15#32 <<< (4 * i.toNat))] ((r.toNat, 1) :: srcs.flatMap (srcRun 1)) srcs none (fun x s =>
      let rs := x.lanes.map fun l =>
        (l, encodeQN4 (x.val s 0 a 0 l) ((x.val s 1 b 0 l).toNat % 256) (x.val s 2 c 0 l))
      let sh := 4 * i.toNat
      x.endL (flagAll (rs.map fun o => o.2.2)
        (x.putV false r.toNat (15#32 <<< sh) (rs.map fun o => (o.1, [BitVec.ofNat 32 o.2.1 <<< sh])) s))) s

/-- R227: an integer of a type as its registers: 8-bit results are extended to 32 bits. -/
def intRegs (t : NType) (v : Int) : List Word :=
  if t.bits < 32 then [BitVec.ofInt 32 (if t.bits = 16 then (intBits 16 v : Int) else v)]
  else regsOf t.regs (intBits t.bits v)

/-- FTOI (R227, R115). -/
def execFtoi (h : LHdr) (ty sty : NType) (shi : Bool) (d : HDst) (a : Src) (rm : RMode) (s : State) : Res :=
  laneConv h false ty sty d a (fun _ x =>
    let (v, fl) := fpToInt (fpValue sty (srcBits sty shi x)) ty rm
    (intRegs ty v, fl)) s

/-- ITOF (R227). -/
def execItof (h : LHdr) (ty sty : NType) (shi sr : Bool) (d : HDst) (a : Src) (r : RS) (s : State) : Res :=
  laneConv h sr ty sty d a (fun u x =>
    let v := intValue sty (srcBits sty shi x)
    let (c, fl) := roundTo ty r sr (u 0) (XReal.ofRat false (v : Rat))
    ([BitVec.ofNat 32 c], fl)) s

/-- ICVT (R228). -/
def execIcvt (h : LHdr) (ty sty : NType) (shi : Bool) (d : HDst) (a : Src) (sat : Bool) (s : State) : Res :=
  laneConv h false ty sty d a (fun _ x =>
    let (c, fl) := intNarrow ty sat (intValue sty (srcBits sty shi x))
    (intRegs ty (intValue ty c), fl)) s

end Sys2Proof.Machine
end

