-- ==== Sys2Proof/Machine/Scalar.lean ====
section
/-! DEFINITION. The C-stream's arithmetic: integer, immediate, compare, wide, bit-field and predicate words
(R186–R191). Every member reads its operands once, writes its destination and goes on (R181). -/

namespace Sys2Proof.Machine

/-! ## Results -/

/-- R186: DIVS. -/
def divS (a b : Word) : Word := if b = 0 then BitVec.allOnes 32 else BitVec.ofInt 32 (a.toInt.tdiv b.toInt)
/-- R186: DIVN. -/
def divN (a b : Word) : Word := if b = 0 then BitVec.allOnes 32 else a / b
/-- R186: REMS. -/
def remS (a b : Word) : Word := if b = 0 then a else a - b * divS a b
/-- R186: REMN. -/
def remN (a b : Word) : Word := if b = 0 then a else a - b * divN a b
/-- R186: MULHS. -/
def mulHS (a b : Word) : Word := (a.signExtend 64 * b.signExtend 64).extractLsb' 32 32
/-- R186: MULHN. -/
def mulHN (a b : Word) : Word := (a.setWidth 64 * b.setWidth 64).extractLsb' 32 32
/-- R186: CLZ: the leading zero bits. -/
def clz32 (a : Word) : Word := BitVec.ofNat 32 (if a = 0 then 32 else 31 - a.toNat.log2)
/-- R186: POPC. -/
def popc32 (a : Word) : Word := BitVec.ofNat 32 (State.popCount a)
/-- R186: BREV: bit i moves to bit 31 − i. -/
def brev32 (a : Word) : Word :=
  (List.range 32).foldl (fun w i => if a.getLsbD i then w ||| (1#32 <<< (31 - i)) else w) 0
/-- R186: the shifts, with count n < 32. -/
def shiftBy (k : ShiftKind) (a : Word) (n : Nat) : Word :=
  match k with
  | .shl => a <<< n
  | .shr => a >>> n
  | .sar => a.sshiftRight n
  | .rotl => a.rotateLeft n
/-- The count of a shift: B[4:0]. -/
def count5 (b : Word) : Nat := b.toNat % 32

/-- R188: a condition between two words. -/
def condHolds (c : Cond) (a b : Word) : Bool :=
  match c with
  | .eq => a = b
  | .ne => a ≠ b
  | .lts => a.slt b
  | .les => a.sle b
  | .gts => b.slt a
  | .ges => b.sle a
  | .ltn => a.ult b
  | .len => a.ule b
  | .gtn => b.ult a
  | .gen => b.ule a

/-- R190: Ones(w). -/
def ones32 (w : Nat) : Word := BitVec.ofNat 32 (2 ^ w - 1)
/-- R190: BFX of x, by the control word. -/
def bfx (x ctl : Word) : Word :=
  let pos := ctl.toNat % 32
  let w := min (ctl.toNat / 256 % 64) 32
  let f := (x >>> pos) &&& ones32 w
  if ctl.getLsbD 16 && 0 < w && f.getLsbD (w - 1) then f ||| ~~~(ones32 w) else f
/-- R190: BFI of x into the old value, by the control word. -/
def bfi (old x ctl : Word) : Word :=
  let pos := ctl.toNat % 32
  let w := min (ctl.toNat / 256 % 64) 32
  let m := ones32 w <<< pos
  (old &&& ~~~m) ||| ((x <<< pos) &&& m)

/-! ## Shared shapes -/

/-- A word of `len` bytes whose only effect is s[d] := v. -/
def writeS (w : Bool) (len : Nat) (d : SReg) (v : Word) (s : State) : Res :=
  .next ((s.mapG fun g => g.wrS d v).endC w len)

/-- s[d] := f(s[a], s[b]). -/
def iop (f : Word → Word → Word) (w : Bool) (d a b : SReg) (s : State) : Res :=
  writeS w 4 d (f (s.g.rdS s.tick a) (s.g.rdS s.tick b)) s

/-- s[d] := f(s[a]). -/
def iop1 (f : Word → Word) (w : Bool) (d a : SReg) (s : State) : Res := writeS w 4 d (f (s.g.rdS s.tick a)) s

/-- R187: s[d] := f(s[a], I), for the word alone (4 bytes) or with a LIMM (8 bytes, R78). -/
def immOp (f : Word → Word → Word) (w : Bool) (len : Nat) (d a : SReg) (i : Word) (s : State) : Res :=
  writeS w len d (f (s.g.rdS s.tick a) i) s

/-- q[i] := b. -/
def writeQ (w : Bool) (len : Nat) (i : QReg) (b : Bool) (s : State) : Res :=
  .next ((s.mapG fun g => g.wrQ i b).endC w len)

/-- P(d) := v. -/
def writeP (w : Bool) (d : SReg) (v : DWord) (s : State) : Res :=
  .next ((s.mapG fun g => g.wrP d v).endC w 4)

/-! ## R186 -/

/-- ADD. -/
def execAdd (w : Bool) (d a b : SReg) (s : State) : Res := iop (· + ·) w d a b s
/-- SUB. -/
def execSub (w : Bool) (d a b : SReg) (s : State) : Res := iop (· - ·) w d a b s
/-- MUL. -/
def execMul (w : Bool) (d a b : SReg) (s : State) : Res := iop (· * ·) w d a b s
/-- MULHS. -/
def execMulhs (w : Bool) (d a b : SReg) (s : State) : Res := iop mulHS w d a b s
/-- MULHN. -/
def execMulhn (w : Bool) (d a b : SReg) (s : State) : Res := iop mulHN w d a b s
/-- DIVS. -/
def execDivs (w : Bool) (d a b : SReg) (s : State) : Res := iop divS w d a b s
/-- DIVN. -/
def execDivn (w : Bool) (d a b : SReg) (s : State) : Res := iop divN w d a b s
/-- REMS. -/
def execRems (w : Bool) (d a b : SReg) (s : State) : Res := iop remS w d a b s
/-- REMN. -/
def execRemn (w : Bool) (d a b : SReg) (s : State) : Res := iop remN w d a b s
/-- AND. -/
def execAnd (w : Bool) (d a b : SReg) (s : State) : Res := iop (· &&& ·) w d a b s
/-- OR. -/
def execOr (w : Bool) (d a b : SReg) (s : State) : Res := iop (· ||| ·) w d a b s
/-- XOR. -/
def execXor (w : Bool) (d a b : SReg) (s : State) : Res := iop (· ^^^ ·) w d a b s
/-- ANDN. -/
def execAndn (w : Bool) (d a b : SReg) (s : State) : Res := iop (fun x y => x &&& ~~~y) w d a b s
/-- SHL. -/
def execShl (w : Bool) (d a b : SReg) (s : State) : Res := iop (fun x y => shiftBy .shl x (count5 y)) w d a b s
/-- SHR. -/
def execShr (w : Bool) (d a b : SReg) (s : State) : Res := iop (fun x y => shiftBy .shr x (count5 y)) w d a b s
/-- SAR. -/
def execSar (w : Bool) (d a b : SReg) (s : State) : Res := iop (fun x y => shiftBy .sar x (count5 y)) w d a b s
/-- ROTL. -/
def execRotl (w : Bool) (d a b : SReg) (s : State) : Res := iop (fun x y => shiftBy .rotl x (count5 y)) w d a b s
/-- MINS. -/
def execMins (w : Bool) (d a b : SReg) (s : State) : Res := iop (fun x y => if x.sle y then x else y) w d a b s
/-- MAXS. -/
def execMaxs (w : Bool) (d a b : SReg) (s : State) : Res := iop (fun x y => if x.sle y then y else x) w d a b s
/-- MINN. -/
def execMinn (w : Bool) (d a b : SReg) (s : State) : Res := iop (fun x y => if x.ule y then x else y) w d a b s
/-- MAXN. -/
def execMaxn (w : Bool) (d a b : SReg) (s : State) : Res := iop (fun x y => if x.ule y then y else x) w d a b s
/-- CLZ. -/
def execClz (w : Bool) (d a : SReg) (s : State) : Res := iop1 clz32 w d a s
/-- POPC. -/
def execPopc (w : Bool) (d a : SReg) (s : State) : Res := iop1 popc32 w d a s
/-- BREV. -/
def execBrev (w : Bool) (d a : SReg) (s : State) : Res := iop1 brev32 w d a s
/-- SEL: the conditional move. -/
def execSel (w : Bool) (d a : SReg) (n : Bool) (q : QReg) (s : State) : Res :=
  if xor (s.g.rdQ s.tick q) n then writeS w 4 d (s.g.rdS s.tick a) s else .next (s.endC w 4)

/-! ## R187 -/

/-- R187: SignExtend32(imm13). -/
def imm32 (i : BitVec 13) : Word := i.signExtend 32

/-- ADDI. -/
def execAddi (w : Bool) (d a : SReg) (i : BitVec 13) (s : State) : Res := immOp (· + ·) w 4 d a (imm32 i) s
/-- MULI. -/
def execMuli (w : Bool) (d a : SReg) (i : BitVec 13) (s : State) : Res := immOp (· * ·) w 4 d a (imm32 i) s
/-- ANDI. -/
def execAndi (w : Bool) (d a : SReg) (i : BitVec 13) (s : State) : Res := immOp (· &&& ·) w 4 d a (imm32 i) s
/-- ORI. -/
def execOri (w : Bool) (d a : SReg) (i : BitVec 13) (s : State) : Res := immOp (· ||| ·) w 4 d a (imm32 i) s
/-- XORI. -/
def execXori (w : Bool) (d a : SReg) (i : BitVec 13) (s : State) : Res := immOp (· ^^^ ·) w 4 d a (imm32 i) s
/-- SHI. -/
def execShi (w : Bool) (d a : SReg) (o : ShiftKind) (n : BitVec 5) (s : State) : Res :=
  iop1 (fun x => shiftBy o x n.toNat) w d a s
/-- MOVI. -/
def execMovi (w : Bool) (d : SReg) (i : BitVec 19) (s : State) : Res := writeS w 4 d (i.signExtend 32) s
/-- MOVHI. -/
def execMovhi (w : Bool) (d : SReg) (i : BitVec 16) (s : State) : Res :=
  writeS w 4 d (i ++ (s.g.rdS s.tick d).extractLsb' 0 16) s

/-! ## R188 -/

/-- CMP. -/
def execCmp (w : Bool) (q : QReg) (a b : SReg) (c : Cond) (s : State) : Res :=
  writeQ w 4 q (condHolds c (s.g.rdS s.tick a) (s.g.rdS s.tick b)) s

/-- CMPI with I of R187, as a word of `len` bytes. -/
def cmpImm (w : Bool) (len : Nat) (c : Cond) (q : QReg) (a : SReg) (i : Word) (s : State) : Res :=
  writeQ w len q (condHolds c (s.g.rdS s.tick a) i) s

/-- CMPI. -/
def execCmpi (w : Bool) (c : Cond) (q : QReg) (a : SReg) (i : BitVec 13) (s : State) : Res :=
  cmpImm w 4 c q a (imm32 i) s

/-! ## R189 -/

/-- ADD64. -/
def execAdd64 (w : Bool) (d a b : SReg) (s : State) : Res := writeP w d (s.g.rdP s.tick a + s.g.rdP s.tick b) s
/-- SUB64. -/
def execSub64 (w : Bool) (d a b : SReg) (s : State) : Res := writeP w d (s.g.rdP s.tick a - s.g.rdP s.tick b) s
/-- MUL64. -/
def execMul64 (w : Bool) (d a b : SReg) (s : State) : Res := writeP w d (s.g.rdP s.tick a * s.g.rdP s.tick b) s
/-- ADD128. -/
def execAdd128 (w : Bool) (d a b : SReg) (s : State) : Res :=
  .next ((s.mapG fun g => g.wrQuad d (g.rdQuad s.tick a + g.rdQuad s.tick b)).endC w 4)
/-- SHL64. -/
def execShl64 (w : Bool) (d a b : SReg) (s : State) : Res :=
  writeP w d (s.g.rdP s.tick a <<< ((s.g.rdS s.tick b).toNat % 64)) s
/-- SHR64. -/
def execShr64 (w : Bool) (d a b : SReg) (s : State) : Res :=
  writeP w d (s.g.rdP s.tick a >>> ((s.g.rdS s.tick b).toNat % 64)) s

/-! ## R190, R191 -/

/-- BFX. -/
def execBfx (w : Bool) (a b c : SReg) (s : State) : Res :=
  writeS w 4 a (bfx (s.g.rdS s.tick b) (s.g.rdS s.tick c)) s
/-- BFI. -/
def execBfi (w : Bool) (a b c : SReg) (s : State) : Res :=
  writeS w 4 a (bfi (s.g.rdS s.tick a) (s.g.rdS s.tick b) (s.g.rdS s.tick c)) s

/-- R191: q[a] := f(q[b] XOR n, q[c] XOR m). -/
def qop (f : Bool → Bool → Bool) (w : Bool) (a : QReg) (n : Bool) (b : QReg) (m : Bool) (c : QReg) (s : State) : Res :=
  writeQ w 4 a (f (xor (s.g.rdQ s.tick b) n) (xor (s.g.rdQ s.tick c) m)) s

/-- QAND. -/
def execQand (w : Bool) (a : QReg) (n : Bool) (b : QReg) (m : Bool) (c : QReg) (s : State) : Res :=
  qop and w a n b m c s
/-- QOR. -/
def execQor (w : Bool) (a : QReg) (n : Bool) (b : QReg) (m : Bool) (c : QReg) (s : State) : Res :=
  qop or w a n b m c s
/-- QXOR. -/
def execQxor (w : Bool) (a : QReg) (n : Bool) (b : QReg) (m : Bool) (c : QReg) (s : State) : Res :=
  qop xor w a n b m c s
/-- QNOT. -/
def execQnot (w : Bool) (a b : QReg) (s : State) : Res := writeQ w 4 a (!s.g.rdQ s.tick b) s

end Sys2Proof.Machine
end

