-- ==== Sys2Proof/Machine/LaneInt.lean ====
section
/-! DEFINITION. The lane words of integer arithmetic and logic (R229–R236), and of random numbers (R253–R255). -/

namespace Sys2Proof.Machine

/-! ## Arithmetic -/

/-- An operand read in a type (R3, R103). -/
def intOf (t : NType) (v : Nat → Word) : Int := intValue t (natOf t.regs v)

/-- R104, R229: a word whose exact integer result is narrowed to its type. -/
def laneI (h : LHdr) (t : NType) (sat : Bool) (d : Dst) (os : List Src) (f : (Nat → Int) → Int) (s : State) : Res :=
  laneOp h false d t.regs (os.map fun o => (o, t.regs)) (fun v =>
    let (c, fl) := intNarrow t sat (f fun i => intOf t (v i))
    (regsOf t.regs c, fl)) s

/-- A word of 32-bit registers whose result is one register, without flags. -/
def laneW (h : LHdr) (d : Dst) (os : List Src) (f : (Nat → Word) → Word) (s : State) : Res :=
  laneOp h false d 1 (os.map fun o => (o, 1)) (fun v => ([f fun i => v i 0], 0)) s

/-- IADD. -/
def execIadd (h : LHdr) (ty : NType) (d : Dst) (a b : Src) (sat : Bool) (s : State) : Res :=
  laneI h ty sat d [a, b] (fun v => v 0 + v 1) s
/-- ISUB. -/
def execIsub (h : LHdr) (ty : NType) (d : Dst) (a b : Src) (sat : Bool) (s : State) : Res :=
  laneI h ty sat d [a, b] (fun v => v 0 - v 1) s
/-- IMUL. -/
def execImul (h : LHdr) (ty : NType) (d : Dst) (a b : Src) (sat : Bool) (s : State) : Res :=
  laneI h ty sat d [a, b] (fun v => v 0 * v 1) s
/-- IMULH: bits [63:32] of the product. -/
def execImulh (h : LHdr) (ty : NType) (d : Dst) (a b : Src) (s : State) : Res :=
  laneI h ty false d [a, b] (fun v => (v 0 * v 1) / 2 ^ 32) s
/-- IMAD. -/
def execImad (h : LHdr) (ty : NType) (d : Dst) (a b c : Src) (sat : Bool) (s : State) : Res :=
  laneI h ty sat d [a, b, c] (fun v => v 0 * v 1 + v 2) s
/-- IMIN. -/
def execImin (h : LHdr) (ty : NType) (d : Dst) (a b : Src) (s : State) : Res :=
  laneI h ty false d [a, b] (fun v => min (v 0) (v 1)) s
/-- IMAX. -/
def execImax (h : LHdr) (ty : NType) (d : Dst) (a b : Src) (s : State) : Res :=
  laneI h ty false d [a, b] (fun v => max (v 0) (v 1)) s
/-- IABS. -/
def execIabs (h : LHdr) (ty : NType) (d : Dst) (a : Src) (sat : Bool) (s : State) : Res :=
  laneI h ty sat d [a] (fun v => (v 0).natAbs) s

/-! ## Shifts (R230) -/

/-- The operand of a count, if it is a register. -/
def Cnt.opds (n : Cnt) : List Src :=
  match n with
  | .src b => [b]
  | .imm _ => []

/-- The count: the low bits of a register, or the immediate. -/
def countOf (n : Cnt) (v : Word) (bits : Nat) : Nat :=
  match n with
  | .src _ => v.toNat % bits
  | .imm i => i.toNat

/-- A shift of an operand of a type by a count. -/
def laneShift (h : LHdr) (t : NType) (d : Dst) (a : Src) (n : Cnt) (f : Nat → Nat → Nat) (s : State) : Res :=
  laneOp h false d t.regs ((a, t.regs) :: (Cnt.opds n).map fun o => (o, 1)) (fun v =>
    (regsOf t.regs (f (natOf t.regs (v 0)) (countOf n (v 1 0) t.bits)), 0)) s

/-- ISHL. -/
def execIshl (h : LHdr) (ty : NType) (d : Dst) (a : Src) (n : Cnt) (s : State) : Res :=
  laneShift h ty d a n (fun x k => x * 2 ^ k % 2 ^ ty.bits) s
/-- ISHR. -/
def execIshr (h : LHdr) (ty : NType) (d : Dst) (a : Src) (n : Cnt) (s : State) : Res :=
  laneShift h ty d a n (fun x k => x / 2 ^ k) s
/-- ISAR. -/
def execIsar (h : LHdr) (ty : NType) (d : Dst) (a : Src) (n : Cnt) (s : State) : Res :=
  laneShift h ty d a n (fun x k => intBits ty.bits (intValue ty x / (2 ^ k : Nat))) s

/-- R230: a funnel shift of A ## B. -/
def funnel (h : LHdr) (d : Dst) (a b : Src) (n : Cnt) (f : DWord → Nat → Word) (s : State) : Res :=
  laneOp h false d 1 ((a, 1) :: (b, 1) :: (Cnt.opds n).map fun o => (o, 1)) (fun v =>
    ([f (v 0 0 ++ v 1 0) (countOf n (v 2 0) 32)], 0)) s

/-- FSHL. -/
def execFshl (h : LHdr) (d : Dst) (a b : Src) (n : Cnt) (s : State) : Res :=
  funnel h d a b n (fun x k => (x <<< k).extractLsb' 32 32) s
/-- FSHR. -/
def execFshr (h : LHdr) (d : Dst) (a b : Src) (n : Cnt) (s : State) : Res :=
  funnel h d a b n (fun x k => (x >>> k).extractLsb' 0 32) s

/-! ## Bits -/

/-- R231: the table of three bits, at every position. -/
def logic3 (tt : BitVec 8) (a b c : Word) : Word :=
  let t (i : Nat) (x y z : Word) : Word := if tt.getLsbD i then x &&& y &&& z else 0
  t 0 (~~~a) (~~~b) (~~~c) ||| t 1 (~~~a) (~~~b) c ||| t 2 (~~~a) b (~~~c) ||| t 3 (~~~a) b c
    ||| t 4 a (~~~b) (~~~c) ||| t 5 a (~~~b) c ||| t 6 a b (~~~c) ||| t 7 a b c

/-- LOGIC3 (R231). -/
def execLogic3 (h : LHdr) (d : Dst) (a b c : Src) (tt : BitVec 8) (s : State) : Res :=
  laneW h d [a, b, c] (fun v => logic3 tt (v 0) (v 1) (v 2)) s
/-- BFX of the lane stream (R232). -/
def execLaneBfx (h : LHdr) (_ty : NType) (d : Dst) (a b : Src) (s : State) : Res :=
  laneW h d [a, b] (fun v => bfx (v 0) (v 1)) s
/-- BFI of the lane stream (R232). -/
def execLaneBfi (h : LHdr) (_ty : NType) (d : Dst) (a b c : Src) (s : State) : Res :=
  laneW h d [a, b, c] (fun v => bfi (v 2) (v 0) (v 1)) s
/-- POPC of the lane stream. -/
def execLanePopc (h : LHdr) (d : Dst) (a : Src) (s : State) : Res := laneW h d [a] (fun v => popc32 (v 0)) s
/-- CLZ of the lane stream. -/
def execLaneClz (h : LHdr) (d : Dst) (a : Src) (s : State) : Res := laneW h d [a] (fun v => clz32 (v 0)) s
/-- BREV of the lane stream. -/
def execLaneBrev (h : LHdr) (d : Dst) (a : Src) (s : State) : Res := laneW h d [a] (fun v => brev32 (v 0)) s

/-! ## Compares and selects (R233) -/

/-- R233: a condition between two integers. -/
def icondHolds (c : ICond) (a b : Int) : Bool :=
  match c with
  | .eq => a = b
  | .ne => a ≠ b
  | .lt => a < b
  | .le => a ≤ b
  | .gt => b < a
  | .ge => b ≤ a

/-- ICMP. -/
def execIcmp (h : LHdr) (ty : NType) (d : PDst) (c : ICond) (a b : Src) (s : State) : Res :=
  lanePred h d [(a, ty.regs), (b, ty.regs)] (fun v => (icondHolds c (intOf ty (v 0)) (intOf ty (v 1)), 0)) s

/-- SEL of the lane stream: by a bit of a mask. -/
def execLaneSel (h : LHdr) (ty : NType) (d : Dst) (a b : Src) (m : BitVec 4) (neg : Bool) (s : State) : Res :=
  laneRun h (vDs ty.regs d) (dstRun ty.regs d ++ srcRun ty.regs a ++ srcRun ty.regs b) [a, b] (some d) (fun c s =>
    let mw := c.rdM s m.toNat
    let outs := c.lanes.map fun l =>
      (l, (List.range ty.regs).map fun k => if mw.getLsbD l != neg then c.val s 0 a k l else c.val s 1 b k l)
    c.endL (c.put false d outs s)) s

/-! ## Byte sums (R234) -/

/-- The byte j of a word read in a type. -/
def byteOf (t : NType) (w : Word) (j : Nat) : Int := intValue t (w.toNat / 256 ^ j % 256)

/-- IDOT4. -/
def execIdot4 (h : LHdr) (ty : NType) (d : Dst) (a b c : Src) (sat : Bool) (s : State) : Res :=
  let t : NType := if ty = .s8 then .s32 else .n32
  laneOp h false d 1 [(a, 1), (b, 1), (c, 1)] (fun v =>
    let x := (List.range 4).foldl (fun acc j => acc + byteOf ty (v 0 0) j * byteOf ty (v 1 0) j) (intOf t (v 2))
    let (k, fl) := intNarrow t sat x
    ([BitVec.ofNat 32 k], fl)) s

/-- ISAD. -/
def execIsad (h : LHdr) (d : Dst) (a b c : Src) (s : State) : Res :=
  laneW h d [a, b, c] (fun v =>
    BitVec.ofInt 32 ((List.range 4).foldl (fun acc j => acc + ((byteOf .n8 (v 0) j - byteOf .n8 (v 1) j).natAbs : Int))
      ((v 2).toNat : Int))) s

/-- IADDC (R235): the carry comes from a mask and goes to it. -/
def execIaddc (h : LHdr) (sub : Bool) (d : Dst) (a b : Src) (m : BitVec 4) (s : State) : Res :=
  laneRun h (vDs 1 d ++ mDs m.toNat) (dstRun 1 d ++ srcRun 1 a ++ srcRun 1 b) [a, b] (some d) (fun c s =>
    let mw := c.rdM s m.toNat
    let sums := c.lanes.map fun l =>
      let y := c.val s 1 b 0 l
      (l, (c.val s 0 a 0 l).toNat + (if sub then ~~~y else y).toNat + (if mw.getLsbD l then 1 else 0))
    let s := c.put false d (sums.map fun x => (x.1, [BitVec.ofNat 32 x.2])) s
    c.endL (c.putM false m.toNat (sums.map fun x => (x.1, decide (2 ^ 32 ≤ x.2))) s)) s

/-! ## Moves (R236) -/

/-- MOV. -/
def execMov (h : LHdr) (ty : NType) (d : Dst) (a : Src) (s : State) : Res :=
  laneOp h false d ty.regs [(a, ty.regs)] (fun v => ((List.range ty.regs).map fun k => v 0 k, 0)) s

/-- MOVI of the lane stream; the high form keeps the low half of a register, and a channel entry has none. -/
def execLaneMovi (h : LHdr) (d : Dst) (hi : Bool) (i : BitVec 24) (s : State) : Res :=
  if hi then
    let top : Word := i.extractLsb' 0 16 ++ (0 : BitVec 16)
    match d with
    | .vec r =>
      laneRun h [] [(r.toNat, 1)] [] none (fun c s =>
        c.endL (c.putV false r.toNat 0xFFFF0000 (c.lanes.map fun l => (l, [top])) s)) s
    | .chan _ => laneOp h false d 1 [] (fun _ => ([top], 0)) s
  else laneOp h false d 1 [] (fun _ => ([i.signExtend 32], 0)) s

/-! ## Random numbers -/

/-- The four registers of a quad. -/
def quadRegs (q : QWord) : List Word := regsOf 4 q.toNat

/-- RNG, the plain form (R254). -/
def execRng (h : LHdr) (d : Dst) (a b : Src) (s : State) : Res :=
  laneOp h false d 4 [(a, 4), (b, 2)] (fun v => (quadRegs (rngBlock (quadOf (v 0)) (pairOf (v 1))), 0)) s

/-- RNG.NEXT. -/
def execRngNext (h : LHdr) (d : Dst) (s : State) : Res :=
  laneRun h [] (dstRun 4 d) [] none (fun c s =>
    let outs := c.lanes.map fun l => (l, quadRegs (rngBlock (s.g.rdCtr l) s.g.srKey))
    c.endL (c.put false d outs (c.stepCtr true s))) s

/-- RNG.SEED: the counters of the active lanes, and the group's key from the lowest of them. -/
def execRngSeed (h : LHdr) (a b : Src) (s : State) : Res :=
  laneRun h [] (srcRun 4 a ++ srcRun 2 b) [a, b] none (fun c s =>
    c.endL (s.mapG fun g =>
      let g := c.lanes.foldl (fun g l => g.wrCtr l (quadOf fun k => c.val s 0 a k l)) g
      match c.lanes with
      | [] => g
      | l :: _ => { g with srKey := pairOf fun k => c.val s 1 b k l })) s

/-- RNG.CTR. -/
def execRngCtr (h : LHdr) (d : Dst) (s : State) : Res :=
  laneRun h [] (dstRun 4 d) [] none (fun c s =>
    c.endL (c.put false d (c.lanes.map fun l => (l, quadRegs (s.g.rdCtr l))) s)) s

/-- RNG.KEY. -/
def execRngKey (h : LHdr) (d : Dst) (s : State) : Res :=
  laneRun h [] (dstRun 2 d) [] none (fun c s =>
    c.endL (c.put false d (c.lanes.map fun l => (l, regsOf 2 s.g.srKey.toNat)) s)) s

/-- ADD128L (R255). -/
def execAdd128l (h : LHdr) (d : Dst) (a b : Src) (s : State) : Res :=
  laneOp h false d 4 [(a, 4), (b, 4)] (fun v => (quadRegs (quadOf (v 0) + quadOf (v 1)), 0)) s

/-- ADD128L.CTR: the counters skip ahead. -/
def execAdd128lCtr (h : LHdr) (a : Src) (s : State) : Res :=
  laneRun h [] (srcRun 4 a) [a] none (fun c s =>
    c.endL (s.mapG fun g => c.lanes.foldl (fun g l => g.wrCtr l (g.rdCtr l + quadOf fun k => c.val s 0 a k l)) g)) s

end Sys2Proof.Machine
end

