-- ==== Sys2Proof/Machine/Splits.lean ====
section
/-! DEFINITION. Splits of a running block (R41–R46): branches, joins, merges, and the end of a split and of its
block. -/

namespace Sys2Proof.Machine

/-- R41: the lowest free index of the splits that run. -/
def freeSplit (g : Group) : Option Nat := (List.range 4).find? fun i => !(g.curSplits.any fun x => x.idx = i)

/-- R363: a word that was executed again has executed. -/
def Group.clearRedo (g : Group) (idx : Nat) : Group := g.mapSplit idx fun y => { y with redo := none }

/-- R139: the waiting words that a split made from this one comes after. -/
def Group.afterOf (g : Group) (x : Split) : List Nat := (g.waiting x).map fun p => p.seq

/-- R42: a divergent branch makes a new split, or is serialised on the stack. -/
def divergeSplit (g : Group) (x : Split) (t j taken fall : Word) : Group :=
  match (if x.stack.isEmpty then freeSplit g else none) with
  | some i =>
    let g := g.mapSplit x.idx fun y => { y with mask := fall, pc := y.pc + 1 }
    g.setSplits (g.curSplits ++ [{ idx := i, pc := t, mask := taken, last := x.last, after := g.afterOf x }])
  | none =>
    g.mapSplit x.idx fun y =>
      { y with mask := taken, pc := t,
               stack := { jpc := j, ppc := y.pc + 1, pmask := fall, rmask := y.mask } :: y.stack }

/-- R42: BRL on a split with the mask of the lanes that take it. -/
def branchSplit (g : Group) (x : Split) (t j taken : Word) : Group :=
  let fall := x.mask &&& ~~~taken
  if taken = 0 then g.mapSplit x.idx fun y => { y with pc := y.pc + 1 }
  else if fall = 0 then g.mapSplit x.idx fun y => { y with pc := t }
  else divergeSplit g x t j taken fall

/-- The W of a word that has set its split's PC itself. -/
def Group.parkW (g : Group) (idx : Nat) (w : Bool) : Group :=
  if w then
    let st := Strm.l (g.splitKey idx)
    if g.drained st then g.dropReturned st else g.mapSplit idx fun y => { y with park := .drain }
  else g

/-- R43: the top entry of a stack is met at its join: its pending path runs, or it is popped. -/
def popEntry (x : Split) : Split :=
  match x.stack with
  | [] => x
  | e :: es =>
    if e.pmask ≠ 0 then { x with mask := e.pmask, pc := e.ppc, stack := { e with pmask := 0 } :: es }
    else { x with mask := e.rmask &&& ~~~e.killed, pc := e.jpc + 1, stack := es }

/-- R44: whether a split holds back the release of joins: it neither waits at one nor ends. -/
def holdsJoin (x : Split) : Bool := x.park ≠ .join && !x.ending

/-- The least of a list of words. -/
def leastPc (l : List Word) : Option Word :=
  match l with
  | [] => none
  | w :: ws => some (ws.foldl (fun a b => if b.ult a then b else a) w)

/-- The results that merged splits wait for are those of the split they become. -/
def Group.joinPend (g : Group) (from_ : List Split) (i : Nat) : Group :=
  let of (p : Pend) : Bool := from_.any fun y => p.strm = .l (g.splitKey y.idx)
  { g with pend := g.pend.map fun p => if of p then { p with strm := .l (g.splitKey i) } else p }

/-- R44: the splits that wait at the lowest join are merged and go on, if every other unfinished split waits or
ends. Results they wait for are those of the merged split. -/
def releaseJoins (g : Group) : Group :=
  let ws := g.curSplits.filter fun x => x.park = .join
  if g.curSplits.any holdsJoin then g
  else match leastPc (ws.map fun x => x.pc) with
    | none => g
    | some j =>
      let here := ws.filter fun y => y.pc = j
      let i := here.foldl (fun a x => min a x.idx) 3
      let one : Split :=
        { idx := i, pc := j + 1, mask := here.foldl (fun a x => a ||| x.mask) 0, last := here.foldl (fun a x => max a x.last) 0,
          after := (here.flatMap g.afterOf).eraseDups }
      let g := g.joinPend here i
      g.setSplits (one :: g.curSplits.filter fun x => !(x.park = .join && x.pc = j))

/-- R45: splits that stand ready at one PC with empty stacks merge into the lowest of them. -/
def mergeReady (g : Group) (idx : Nat) : Group :=
  let ok (y : Split) : Bool := y.park = .ready && y.stack.isEmpty && y.redo.isNone && !y.ending
  match g.split? idx with
  | none => g
  | some x =>
    if !ok x then g
    else
      let here := g.curSplits.filter fun y => ok y && y.pc = x.pc
      if here.length ≤ 1 then g
      else
        let i := here.foldl (fun a y => min a y.idx) 3
        let one : Split :=
          { x with idx := i, mask := here.foldl (fun a y => a ||| y.mask) 0, after := (here.flatMap g.afterOf).eraseDups }
        let g := g.joinPend here i
        g.setSplits (one :: g.curSplits.filter fun y => !(ok y && y.pc = x.pc))

/-- R46: a split that has ended its work ends once its results have returned; when it was the last, its block ends. -/
def endSplits (g : Group) : Group :=
  let gone := g.curSplits.filter fun x => x.ending && g.drained (.l (g.splitKey x.idx))
  if gone.isEmpty then g
  else
    let g := gone.foldl (fun g x => g.dropReturned (.l (g.splitKey x.idx))) g
    let g := g.setSplits (g.curSplits.filter fun x => !gone.any fun y => y.idx = x.idx)
    if g.curSplits.isEmpty then g.setQueue (g.curQueue.drop 1) else g

/-- R46: a split at LEND, or without lanes: entries of its stack are met until a path runs or the stack is empty. -/
def unwind : Nat → Split → Split
  | 0, x => x
  | n + 1, x =>
    match x.stack with
    | [] => { x with ending := true, park := .drain }
    | e :: _ => if e.pmask ≠ 0 then popEntry x else unwind n (popEntry x)

/-- R46: what an ended word of a split leads to: splits that have ended go, and joins are released. -/
def settleSplits (g : Group) : Group := releaseJoins (endSplits g)

end Sys2Proof.Machine
end

