-- ==== Sys2Proof/Machine/LaneCross.lean ====
section
/-! DEFINITION. The lane words across lanes (R237–R240) and of lane control (R241–R245, R42–R46). -/

namespace Sys2Proof.Machine

/-! ## Moves across lanes -/

/-- R237, R238: each active lane takes the registers of A in its source lane. -/
def laneMove (h : LHdr) (t : NType) (d : Dst) (a : Src) (b : Option Src) (from_ : Word → Nat → Nat) (s : State) : Res :=
  let srcs := a :: b.toList
  laneRun h (vDs t.regs d) (dstRun t.regs d ++ srcRun t.regs a ++ b.toList.flatMap (srcRun 1)) srcs (some d) (fun c s =>
    let outs := c.lanes.map fun l =>
      let x : Word := match b with | some b => c.val s 1 b 0 l | none => 0
      (l, (List.range t.regs).map fun k => c.val s 0 a k (from_ x l))
    c.endL (c.put false d outs s)) s

/-- SHFL. -/
def execShfl (h : LHdr) (ty : NType) (d : Dst) (a b : Src) (s : State) : Res :=
  laneMove h ty d a (some b) (fun x _ => x.toNat % 32) s
/-- SHFLX. -/
def execShflx (h : LHdr) (ty : NType) (d : Dst) (a : Src) (x : BitVec 5) (s : State) : Res :=
  laneMove h ty d a none (fun _ l => l ^^^ x.toNat) s
/-- SHFLD: up, or down with `dn`. -/
def execShfld (h : LHdr) (ty : NType) (dn : Bool) (d : Dst) (a : Src) (n : BitVec 5) (s : State) : Res :=
  laneMove h ty d a none (fun _ l =>
    if dn then (if l + n.toNat ≤ 31 then l + n.toNat else l) else (if n.toNat ≤ l then l - n.toNat else l)) s
/-- BCAST. -/
def execBcast (h : LHdr) (ty : NType) (d : Dst) (a : Src) (n : BitVec 5) (s : State) : Res :=
  laneMove h ty d a none (fun _ _ => n.toNat) s

/-! ## Votes and folds -/

/-- R239: the value of a vote over the active lanes. -/
def voteValue (op : VoteOp) (vs : List (Nat × Word)) : Word :=
  let yes (b : Bool) : Word := if b then BitVec.allOnes 32 else 0
  match op with
  | .any => yes (vs.any fun v => v.2 ≠ 0)
  | .all => yes (vs.all fun v => v.2 ≠ 0)
  | .ballot => maskOf ((vs.filter fun v => v.2 ≠ 0).map fun v => v.1)
  | .uni => yes (vs.all fun v => match vs with | [] => true | u :: _ => v.2 = u.2)

/-- VOTE. -/
def execVote (h : LHdr) (op : VoteOp) (d : Dst) (a : Src) (s : State) : Res :=
  laneRun h (vDs 1 d) (dstRun 1 d ++ srcRun 1 a) [a] (some d) (fun c s =>
    let v := voteValue op (c.lanes.map fun l => (l, c.val s 0 a 0 l))
    c.endL (c.put false d (c.lanes.map fun l => (l, [v])) s)) s

/-- R240: Op. -/
def foldStep (op : FoldOp) (t : NType) (x y : Word) : Word × Flags :=
  let le : Bool := if t = .s32 then x.sle y else x.ule y
  match op with
  | .add => if t = .f32 then roundF32 (XReal.add .near (f32v x) (f32v y)) ⟨false, .near⟩ else (x + y, 0)
  | .min => if t = .f32 then f32MinMax false x y else (if le then x else y, 0)
  | .max => if t = .f32 then f32MinMax true x y else (if le then y else x, 0)
  | .and => (x &&& y, 0)
  | .or => (x ||| y, 0)
  | .xor => (x ^^^ y, 0)

/-- R240: the identity of an operation in a type. -/
def foldUnit (op : FoldOp) (t : NType) : Word :=
  match op with
  | .min => if t = .f32 then 0x7F800000 else if t = .s32 then 0x7FFFFFFF else 0xFFFFFFFF
  | .max => if t = .f32 then 0xFF800000 else if t = .s32 then 0x80000000 else 0
  | .and => 0xFFFFFFFF
  | _ => 0

/-- R240: every partial fold in ascending order, each with the flags of its own last step. -/
def foldsFrom (op : FoldOp) (t : NType) (acc : Word) : List Word → List (Word × Flags)
  | [] => []
  | v :: vs => let r := foldStep op t acc v; r :: foldsFrom op t r.1 vs

/-- R240: the fold up to each value, with the flags of its last step. DESIGN CHOICE (log 19): a fold of one lane makes no operation,
so R102 is taken to have no say: a NaN there keeps its sign and payload. -/
def foldsOf (op : FoldOp) (t : NType) : List Word → List (Word × Flags)
  | [] => []
  | v :: vs => (v, 0) :: foldsFrom op t v vs

/-- REDUCE. -/
def execReduce (h : LHdr) (op : FoldOp) (ty : NType) (d : Dst) (a : Src) (s : State) : Res :=
  laneRun h (vDs 1 d) (dstRun 1 d ++ srcRun 1 a) [a] (some d) (fun c s =>
    let fs := foldsOf op ty (c.lanes.map fun l => c.val s 0 a 0 l)
    let v : Word := match fs.getLast? with | some r => r.1 | none => 0
    c.endL (flagAll (fs.map fun r => r.2) (c.put false d (c.lanes.map fun l => (l, [v])) s))) s

/-- PREFIX: inclusive, or exclusive of the lane itself. -/
def execPrefixOp (h : LHdr) (op : FoldOp) (excl : Bool) (ty : NType) (d : Dst) (a : Src) (s : State) : Res :=
  laneRun h (vDs 1 d) (dstRun 1 d ++ srcRun 1 a) [a] (some d) (fun c s =>
    let fs := foldsOf op ty (c.lanes.map fun l => c.val s 0 a 0 l)
    let used := if excl then (foldUnit op ty, 0) :: fs.dropLast else fs
    let outs := (List.zip c.lanes used).map fun x => (x.1, [x.2.1])
    c.endL (flagAll (used.map fun r => r.2) (c.put false d outs s))) s

/-! ## Lane control -/

/-- BRL (R241, R42). -/
def execBrl (h : LHdr) (t j : BitVec 12) (s : State) : Res :=
  match s.g.split? s.g.curSplit with
  | none => .next s
  | some x =>
    let taken := activeLanes s h x
    if taken ≠ 0 && taken ≠ x.mask && (!x.stack.isEmpty || (freeSplit s.g).isNone) && x.stack.length = 8 then
      wordFaultL s x 0x02 x.mask
    else
      .next (s.mapG fun g =>
        (branchSplit (g.clearRedo x.idx) x (x.pc + t.signExtend 32) (x.pc + j.setWidth 32) taken).parkW x.idx h.w)

/-- JOIN (R43, R44). -/
def execJoin (w : Bool) (s : State) : Res :=
  match s.g.split? s.g.curSplit with
  | none => .next s
  | some x =>
    match x.stack with
    | [] => .next (s.mapG fun g =>
        settleSplits ((if w then (g.clearRedo x.idx).parkW x.idx w else g.clearRedo x.idx).mapSplit x.idx fun y =>
          if y.park = .drain then y else { y with park := .join }))
    | e :: _ =>
      .next (s.mapG fun g => ((g.clearRedo x.idx).mapSplit x.idx fun y =>
        if e.jpc = y.pc then popEntry y else { y with pc := y.pc + 1 }).parkW x.idx w)

/-- LEND (R46); a W holds the path that runs on until the split's results have returned (R40). -/
def execLend (w : Bool) (s : State) : Res :=
  match s.g.split? s.g.curSplit with
  | none => .next s
  | some x =>
    let on : Split := unwind (2 * x.stack.length + 1) { x with redo := none }
    .next (s.mapG fun g =>
      let g := g.mapSplit x.idx fun _ => on
      settleSplits (if on.ending then g else g.parkW x.idx w))

/-- R43, R243: lanes killed since an entry was pushed are recorded in it. -/
def killIn (lanes : Word) (e : StackEntry) : StackEntry := { e with killed := e.killed ||| lanes }

/-- R279: a fragment group's lanes are killed for good. -/
def killFrag (lanes : Word) (f : Frag) : Frag := { f with killed := f.killed ||| lanes }

/-- KILL (R243, R284): the active lanes leave the split and are recorded in its stack; a fragment group's lanes are
killed for good. -/
def execKill (h : LHdr) (s : State) : Res :=
  laneRun h [] [] [] none (fun c s =>
    let i := c.sp.idx
    .next (s.mapG fun g =>
      let g := { g with frag := if g.inHandler then g.frag else g.frag.map (killFrag c.act) }
      let g := (g.endL i c.w).mapSplit i fun y =>
        { y with mask := y.mask &&& ~~~c.act, stack := y.stack.map (killIn c.act) }
      settleSplits (g.mapSplit i fun y => if y.mask = 0 then unwind (2 * y.stack.length + 1) y else y))) s

/-- LTRAP (R244). -/
def execLtrap (h : LHdr) (code : BitVec 12) (s : State) : Res :=
  laneRun h [] [] [] none (fun c s =>
    if c.act = 0 then c.endL s
    else
      .next (takeFault s (laneFaultInfo c.sp 0x08 code.toNat c.act (c.lanes.map fun l => (l, (0x08, 0)))) [])) s

end Sys2Proof.Machine
end

