-- ==== Sys2Proof/Machine/Special.lean ====
section
/-! DEFINITION. The special registers (R24, R72, R73, R338, R364–R366), QUERY's leaves (R21, R22), and the
meanings of NOP, SLEEP, CLOCK, QUERY, MOVSR, MOVSW and PCNT. -/

namespace Sys2Proof.Machine

/-- R21: the partition QUERY answers for: the first device slice and the slice count. -/
def queryPart (s : State) : Nat × Nat :=
  match s.g.mode with
  | .user => ((s.vf s.vfId).first, 2 ^ (s.vf s.vfId).j)
  | .handler => ((s.vf s.vfId).first, 2 ^ (s.vf s.vfId).j)
  | .slice => (s.sliceId, 1)
  | .device => (0, 16)

/-- R440, R22: the matrix engines a context holds under lease. -/
def leasesHeld (s : State) (c : Nat) : Nat :=
  (s.leases.filter fun l => l.vf = c / 64 && l.intf = c % 64 && (l.state = 2 || l.state = 3)).length

/-- R22: QueryLeaf. DESIGN CHOICE (log 35): in slice mode leaf 0x0C counts the collective and compression engines of the virtual function
of the selected context; in device mode, where no context is given, leaf 0x07 answers all 16 ways, and leaf 0x0F counts the leases of
the context that the manager's group carries. -/
def queryLeaf (s : State) (leaf arg : Nat) : Word :=
  let (first, n) := queryPart s
  let sl := first + arg
  let per (v : Nat) : Word := if arg < n then BitVec.ofNat 32 v else 0
  let v := s.vf s.vfId
  let whole := s.g.mode = .device
  let ways := if whole then 16 else State.popCount (SMap.get (BitVec.allOnes 16) s.gctx.ways (s.relSlice sl))
  match leaf with
  | 0x00 => 0xF
  | 0x01 => 0x00B00900
  | 0x02 => 0x00092600
  | 0x03 => BitVec.ofNat 32 (first * 256 + n)
  | 0x04 => per (s.clusterMask sl).toNat
  | 0x05 => per (s.channelMask sl).toNat
  | 0x06 => per (1024 * State.popCount (s.channelMask sl))
  | 0x07 => per (ways * 2 ^ 24 + 768 * ways)
  | 0x08 => 0x04300220
  | 0x09 => 0x01000200
  | 0x0A => 0x00800040
  | 0x0B => 0x06000100
  | 0x0C => BitVec.ofNat 32 (n * 2 ^ 24 + (if whole then 2 else State.popCount v.comp) * 2 ^ 16
      + (if whole then 4 else State.popCount v.coll) * 2 ^ 8 + 2 * n)
  | 0x0D => per 0x10080204
  | 0x0E => 0x03E804B0
  | 0x0F => BitVec.ofNat 32 (2 ^ 31 + leasesHeld s s.g.ctx)
  | _ => 0

/-- R72: chim.free. -/
def chimFree (s : State) : Word :=
  let c := s.cluster s.clusterId
  let n (i : Nat) := (c.chim.getD i []).length
  if s.isRoof then BitVec.ofNat 32 (n 0 + n 1 * 2 ^ 8 + n 2 * 2 ^ 16 + n 3 * 2 ^ 24)
  else BitVec.ofNat 32 (16 - n (s.coreId % 8))

/-- R324: the code of a slot state. -/
def SlotState.code : SlotState → Nat
  | .off => 0 | .observe => 1 | .train => 2 | .serve => 3 | .fallback => 4 | .invalid => 5

/-- R324: the slot state of a code. -/
def SlotState.ofCode (n : Nat) : SlotState :=
  match n % 8 with
  | 0 => .off | 1 => .observe | 2 => .train | 3 => .serve | 4 => .fallback | _ => .invalid

/-- R321: the index of the slot of (context, region) in a cluster. -/
def findSlot (c : Cluster) (ctx : Nat) (r : Byte) : Option Nat :=
  c.slots.findIdx? fun o => match o with | none => false | some sl => sl.ctx = ctx && sl.region = r

/-- R338: apx.state. -/
def apxState (s : State) : Word :=
  match s.g.apxRegion with
  | none => 0
  | some r =>
    let c := s.cluster s.clusterId
    match (findSlot c s.g.ctx r).bind fun i => (c.slots.getD i none) with
    | none => BitVec.ofNat 32 (r.toNat * 2 ^ 8)
    | some sl => BitVec.ofNat 32 (sl.updates * 2 ^ 24 + sl.conf * 2 ^ 16 + r.toNat * 2 ^ 8 + 8 + sl.state.code)

/-- The low or the high word of a 64-bit register. -/
def half64 (d : DWord) (hi : Bool) : Word := if hi then d.extractLsb' 32 32 else d.extractLsb' 0 32

/-- A 64-bit register with one word replaced. -/
def setHalf64 (d : DWord) (hi : Bool) (w : Word) : DWord :=
  if hi then w ++ d.extractLsb' 0 32 else d.extractLsb' 32 32 ++ w

/-- R358: the code of a mode. -/
def Mode.code : Mode → Nat
  | .user => 0 | .handler => 1 | .slice => 2 | .device => 3

/-- R24, R27: team.x, team.y and team.z; of a fragment group its launch number in the 20 bits of team.x, and 0 (R278). -/
def teamCoords (s : State) : Nat × Nat × Nat :=
  let n := s.t.lin
  if s.g.frag.isSome then (n % 2 ^ 20, 0, 0) else (n % s.t.gx, n / s.t.gx % s.t.gy, n / s.t.gx / s.t.gy % 2 ^ 16)

/-- R72, R364: a read of a special register in the current mode; `lane` is given by MOVS only. `none` is the
illegal-instruction fault. -/
def readSpecial (s : State) (idx : Nat) (lane : Option Nat) : Option Word :=
  let g := s.g
  let hs := g.mode = .handler || g.mode = .slice
  let x := s.gctx
  let allow (b : Bool) (w : Word) : Option Word := if b then some w else none
  match idx with
  | 0x000 => some (BitVec.ofNat 32 (lane.getD 0))
  | 0x001 => some (g.gid.setWidth 32)
  | 0x002 => some (g.role.setWidth 32)
  | 0x004 => some (BitVec.ofNat 32 (teamCoords s).1)
  | 0x005 => some (BitVec.ofNat 32 (teamCoords s).2.1)
  | 0x006 => some (BitVec.ofNat 32 (teamCoords s).2.2)
  | 0x008 => some (BitVec.ofNat 32 s.t.gx)
  | 0x009 => some (BitVec.ofNat 32 s.t.gy)
  | 0x00A => some (BitVec.ofNat 32 s.t.gz)
  | 0x00C => some (BitVec.ofNat 32 (s.clusterId % 16 * 8 + s.coreId % 8))
  | 0x00D => some (BitVec.ofNat 32 (s.relSlice s.sliceId))
  | 0x010 => some (g.gsr.setWidth 32)
  | 0x011 => some (chimFree s)
  | 0x012 => some (apxState s)
  | 0x100 => some (BitVec.ofNat 32 g.mode.code)
  | 0x101 => allow hs g.hs.cause
  | 0x102 => allow hs (half64 g.hs.pc false)
  | 0x103 => allow hs (half64 g.hs.pc true)
  | 0x104 => allow hs g.hs.lmask
  | 0x105 => allow hs (half64 g.hs.addr false)
  | 0x106 => allow hs (half64 g.hs.addr true)
  | 0x110 => lane.bind fun l => allow (g.mode = .handler) ((SMap.get (0, 0) g.hl l).1.setWidth 32)
  | 0x111 => lane.bind fun l => allow (g.mode = .handler) (half64 (SMap.get (0, 0) g.hl l).2 false)
  | 0x112 => lane.bind fun l => allow (g.mode = .handler) (half64 (SMap.get (0, 0) g.hl l).2 true)
  | 0x140 => allow hs (half64 x.hvec false)
  | 0x141 => allow hs (half64 x.hvec true)
  | 0x142 => allow hs (half64 x.hlbase false)
  | 0x143 => allow hs (half64 x.hlbase true)
  | 0x144 => allow hs (if x.ucnt then 1 else 0)
  | 0x145 => allow (g.mode = .slice) (half64 x.otab false)
  | 0x146 => allow (g.mode = .slice) (half64 x.otab true)
  | 0x147 => allow hs (x.ocount.setWidth 32)
  | 0x180 => allow (g.mode = .slice) (BitVec.ofNat 32 (g.ctx % 64))
  | _ => none

/-- R364, R366, R374: a write of a special register in the current mode; `none` is the illegal-instruction fault. -/
def writeSpecial (s : State) (idx : Nat) (v : Word) : Option State :=
  let g := s.g
  let x := s.gctx
  let slice := g.mode = .slice
  let hsPc (hi : Bool) : State := s.mapG fun g => { g with hs := { g.hs with pc := setHalf64 g.hs.pc hi v } }
  let canPc := slice || (g.mode = .handler && g.hs.cause.extractLsb' 0 8 = 8)
  match idx with
  | 0x010 => some (s.mapG fun g => { g with gsr := g.gsr &&& ~~~(v.setWidth 10) })
  | 0x102 => if canPc then some (hsPc false) else none
  | 0x103 => if canPc then some (hsPc true) else none
  | 0x104 => if slice then some (s.mapG fun g => { g with hs := { g.hs with lmask := v } }) else none
  | 0x140 => if slice then some (s.setCtx { x with hvec := setHalf64 x.hvec false (v &&& ~~~2#32) }) else none
  | 0x141 => if slice then some (s.setCtx { x with hvec := setHalf64 x.hvec true v }) else none
  | 0x142 => if slice then some (s.setCtx { x with hlbase := setHalf64 x.hlbase false v }) else none
  | 0x143 => if slice then some (s.setCtx { x with hlbase := setHalf64 x.hlbase true v }) else none
  | 0x144 => if slice then some (s.setCtx { x with ucnt := v.getLsbD 0 }) else none
  | 0x145 => if slice then some (s.setCtx { x with otab := setHalf64 x.otab false v }) else none
  | 0x146 => if slice then some (s.setCtx { x with otab := setHalf64 x.otab true v }) else none
  | 0x147 => if slice then some (s.setCtx { x with ocount := v.setWidth 17 }) else none
  | 0x180 =>
    if slice then
      let id := 64 * (s.slice s.sliceId).vf + v.toNat % 64
      some (if s.ctxs.any fun c => c.id = id then s.mapG fun g => { g with ctx := id } else s)
    else none
  | _ => none

/-- R184: NOP. -/
def execNop (w : Bool) (s : State) : Res := .next (s.endC w 4)

/-- R184: SLEEP; it stays parked until its end time, which a save keeps (R418). -/
def execSleep (w : Bool) (a : SReg) (s : State) : Res :=
  let n := (s.g.rdS s.tick a).toNat
  let stop := s.g.sleepEnd.getD (s.now + n)
  if n = 0 || stop ≤ s.now then .next (s.endC w 4)
  else .next ((s.mapG fun g => { g with sleepEnd := some stop }).parkC .sleep)

/-- R185, R463: CLOCK: the slice timebase, or the clocks since the last reset of the core's slice. -/
def execClock (w : Bool) (d a : SReg) (s : State) : Res :=
  let v := if a = 0 then BitVec.ofNat 64 s.now + s.gctx.clkOff else BitVec.ofNat 64 (s.clk - (s.slice s.sliceId).clk0)
  .next ((s.mapG fun g => g.wrP d v).endC w 4)

/-- R21: QUERY. DEDUCED (log 35): that W has no effect on it is read of its result; the word drains the C-stream as R40 says of every
word with W. -/
def execQuery (w : Bool) (d a : SReg) (s : State) : Res :=
  let sel := s.g.rdS s.tick a
  let v := if sel.extractLsb' 16 16 ≠ 0 then 0 else queryLeaf s (sel.toNat % 256) (sel.toNat / 256 % 256)
  .next ((s.mapG fun g => g.wrS d v).endC w 4)

/-- R185, R72: MOVSR. -/
def execMovsr (w : Bool) (d : SReg) (i : BitVec 12) (s : State) : Res :=
  match readSpecial s i.toNat none with
  | none => illegalC s
  | some v => .next ((s.mapG fun g => g.wrS d v).endC w 4)

/-- R374: MOVSW. -/
def execMovsw (w : Bool) (a : SReg) (i : BitVec 12) (s : State) : Res :=
  match writeSpecial s i.toNat (s.g.rdS s.tick a) with
  | none => illegalC s
  | some s => .next (s.endC w 4)

/-- R375: the modes that may read a counter. -/
def mayCount (s : State) : Bool :=
  match s.g.mode with
  | .user => s.gctx.ucnt
  | .handler => true
  | .slice => true
  | .device => true

/-- R358: slice or device mode. -/
def isController (s : State) : Bool := s.g.mode = .slice || s.g.mode = .device

/-- R450, R375: the events that this model does not count (caches and memory channels; of counter 19 the waits for a channel and for
throttle allowance, R451): such a counter reads as what PCNT.WR has stored there, or the events counted have left, and a free value
more. -/
def countsFree (s : State) (n : Nat) : Bool :=
  n = 19 || (n < 16 && [4, 5, 6, 7, 8, 9].contains (SMap.get 0 s.gctx.sel n).toNat)

/-- R375: PCNT.RD. -/
def execPcntRd (w : Bool) (a : SReg) (n : BitVec 5) (s : State) : Res :=
  if mayCount s then
    let v := (if countsFree s n.toNat then Config.clockCount s.tick else 0) + SMap.get 0 s.gctx.cnt n.toNat
    .next ((s.mapG fun g => g.wrP a v).endC w 4)
  else illegalC s

/-- R375: PCNT.WR. -/
def execPcntWr (w : Bool) (a : SReg) (n : BitVec 5) (s : State) : Res :=
  if isController s then
    let x := s.gctx
    .next ((s.setCtx { x with cnt := SMap.set 0 x.cnt n.toNat (s.g.rdP s.tick a) }).endC w 4)
  else illegalC s

/-- R375, R450: PCNT.SEL; a code that R450 does not list is illegal. -/
def execPcntSel (w : Bool) (a : SReg) (n : BitVec 5) (s : State) : Res :=
  let v := s.g.rdS s.tick a
  if isController s && v.toNat ≤ 0x15 then
    let x := s.gctx
    .next ((s.setCtx { x with sel := SMap.set 0 x.sel n.toNat (v.extractLsb' 0 8) }).endC w 4)
  else illegalC s

end Sys2Proof.Machine
end

