-- ==== Sys2Proof/Machine/LaneMem.lean ====
section
/-! DEFINITION. The lane words of memory (R246–R252, R168), and MOVS (R245). Each lane's access is placed first: its
space, its translation and its faults; then the accesses are performed, lane by lane (R143). -/

namespace Sys2Proof.Machine

/-! ## Placing the accesses -/

/-- R87: the address operand of a memory word. -/
inductive LAddr where
  | ofM (a : MAddr)
  | ofX (a : XAddr)

/-- The sources of an address, in the order of R86, with their registers. -/
def LAddr.opds : LAddr → List Opd
  | .ofM (.glob _ a _) => [(a, 1)]
  | .ofM (.sp a _) => [(a, 1)]
  | .ofM (.rf a _) => [(a, 1)]
  | .ofX x => (x.a, 2) :: x.b.toList.map fun b => (b, 1)

/-- Where a lane's access lies: global memory (the key of its first byte, whether the leaf is duplicated, the virtual
address), an offset of the window, or of the roof store. -/
inductive Place where
  | glob (key : Nat) (dup : Bool) (va : DWord)
  | sp (o : Nat)
  | rf (o : Nat)
deriving DecidableEq, Repr

/-- A lane's access: placed, faulting, or held by a full dirty log. -/
inductive Placed where
  | at_ (p : Place)
  | fault (code : Nat) (addr : DWord)
  | full
deriving DecidableEq, Repr

/-- R70: a register re-bound by the hardware is written back, with every captured copy that equals it; t15 and the handler's t15 are two
registers. -/
def rebound (s : State) (i : Nat) (old new : TReg) : State :=
  if old = new then s
  else s.mapG fun g =>
    let copy (b : Block) : Block := if SMap.get {} b.caps i = old then { b with caps := SMap.set {} b.caps i new } else b
    let g := if g.inHandler && i = 15 then { g with ht15 := new }
      else if g.rdT i = old then g.wrT i new else g
    { g with
      laneq := if g.inHandler && i = 15 then g.laneq else g.laneq.map copy
      hlaneq := if !g.inHandler && i = 15 then g.hlaneq else g.hlaneq.map copy }

/-- R206, R390: an access at an offset through a captured translation register; the re-bind of an object checks its entry (R389). -/
def placeT (s : State) (i : Nat) (off : Int) (n : Nat) (acc : Acc) : State × Placed :=
  let t := s.g.blockT i
  let s := if t.obj && t.rights ≠ 0 && t.isStale s.gctx.xb.gen then s.objAcquire else s
  let va := t.baseVA + BitVec.ofInt 64 off
  match translateT s s.g.ctx t off n acc s.inUser (s.relSlice s.sliceId) with
  | (s, u, .ok key dup) => (rebound s i t u, .at_ (.glob key dup va))
  | (s1, u, .fault code) => (rebound s1 i t u, .fault code (t.faultAddr s s.g.ctx code off))
  | (s, _, .full) => (s, .full)

/-- R126, R127: an access at an offset of a bounded space. -/
def placeIn (size : Nat) (off : Int) (n : Nat) (f : Nat → Place) : Placed :=
  if off % n ≠ 0 then .fault 0x03 (BitVec.ofInt 64 off)
  else if off < 0 || (size : Int) < off + n then .fault 0x05 (BitVec.ofInt 64 off)
  else .at_ (f off.toNat)

/-- R87, R125–R127, R249: the access of n bytes of lane l. -/
def LCtx.placeLane (c : LCtx) (a : LAddr) (n : Nat) (acc : Acc) (s : State) (l : Nat) : State × Placed :=
  let off (o : Src) (d : BitVec 20) : Int := (c.val c.s0 0 o 0 l).toInt + d.toInt
  match a with
  | .ofM (.glob t o d) => placeT s t.toNat (off o d) n acc
  | .ofM (.sp o d) => (s, placeIn s.t.wsize (off o d) n .sp)
  | .ofM (.rf o d) => (s, placeIn roofSize (off o d) n .rf)
  | .ofX x =>
    let base := pairOf fun k => c.val c.s0 0 x.a k l
    let b : DWord := match x.b with | some b => (c.val c.s0 1 b 0 l).signExtend 64 | none => 0
    let va := base + b + x.disp.signExtend 64
    match s.xlate va n acc with
    | (s, .ok key dup) => (s, .at_ (.glob key dup va))
    | (s, .fault code) => (s, .fault code va)
    | (s, .full) => (s, .full)

/-- The accesses of the lanes of a list: the places, the faults, and whether the log held one. -/
structure PlacedAll where
  s      : State
  places : List (Nat × Place)
  faults : SMap (Byte × DWord)
  full   : Bool

/-- R246: every lane's access placed. DESIGN CHOICE (log 7): the lanes translate, mark leaves dirty and append to the log (R385, R396) in
ascending order; R10 gives the lanes of a word no order. -/
def LCtx.placeAll (c : LCtx) (a : LAddr) (n : Nat) (acc : Acc) (ls : List Nat) (s : State) : PlacedAll :=
  ls.foldl (fun r l =>
    match c.placeLane a n acc r.s l with
    | (s, .at_ p) => { r with s := s, places := r.places ++ [(l, p)] }
    | (s, .fault code addr) => { r with s := s, faults := SMap.insert r.faults l (BitVec.ofNat 8 code, addr) }
    | (s, .full) => { r with s := s, full := true }) { s := s, places := [], faults := [], full := false }

/-- R130: whether every scratchpad line that the accesses touch is full. -/
def placesFull (s : State) (ps : List (Nat × Place)) (n : Nat) : Bool :=
  ps.all fun p => match p.2 with
    | .sp o => s.spFull o n
    | _ => true

/-- R10, R143: the lanes of a list in the order in which their accesses take effect: any order (log 7). -/
def laneSeq (s : State) (ls : List Nat) : List Nat :=
  let first := ((Config.laneOrder s.tick).filter fun l => ls.contains l).eraseDups
  first ++ ls.filter fun l => !first.contains l

/-- R143, R250: the accesses of a list in the order in which they take effect. -/
def laneOrder (s : State) (ps : List (Nat × Place)) : List (Nat × Place) :=
  (laneSeq s (ps.map fun p => p.1)).filterMap fun l => ps.find? fun p => p.1 = l

/-- R279: a helper lane of a fragment group. -/
def helperLane (g : Group) (l : Nat) : Bool :=
  match g.frag with
  | none => false
  | some f => !g.inHandler && SMap.get 0 f.cov l = 0

/-- R333: lanes that store inside an open invocation that is not served: their slots become INVALID. -/
def impure (ls : List Nat) (s : State) : State :=
  let bad := ls.filter fun l => let i := s.g.rdInv l; i.isOpen && !i.served
  if bad.isEmpty then s
  else
    let regions := bad.map fun l => (s.g.rdInv l).region
    let c := s.cluster s.clusterId
    let c := { c with slots := c.slots.map fun o => o.map fun sl =>
      if sl.ctx = s.g.ctx && regions.contains sl.region then sl.invalidate else sl }
    (s.setCluster c).mapG fun g =>
      (bad.foldl (fun g l => g.wrInv l { g.rdInv l with discarded := true }) g).flag fImpure

/-- R17: space 2 needs a roof core. -/
def spaceLegal (s : State) : LAddr → Bool
  | .ofM (.rf _ _) => s.isRoof
  | _ => true

/-! ## Loads -/

/-- R401: whether an uncorrectable error has taken bytes of a place: the address of its fault. DESIGN CHOICE (log 10): R401 names no
outcome for a lane that reads such a sector of the roof store; it gets the fault of a poisoned sector. -/
def placePoison (s : State) (n : Nat) : Place → Option DWord
  | .glob key _ va => if s.poisonedHere key n then some va else none
  | .sp _ => none
  | .rf o => if (s.cluster s.clusterId).roofBad o n then some (BitVec.ofNat 64 o) else none

/-- The bytes of a place as a load of an order and scope reads them; a load from the roof store acquires as any other (R136). -/
def readPlace (s : State) (n : Nat) (o : Order) (sc : Scope) (p : Place) : State × Nat :=
  match p with
  | .glob key dup _ =>
    let (s, bs) := s.loadBytes key n o sc dup
    (s, leValue bs)
  | .sp x => (s, s.spNat x n)
  | .rf x => (if o = .acq || o = .ar then s.acquire sc else s, leValue (s.roofBytes x n))

/-- R247: the registers of a loaded value: 8-bit values are extended, others fill what they have. -/
def loadRegs (t : NType) (v : Nat) : List Word :=
  if t.bits = 8 then [BitVec.ofInt 32 (intValue t v)] else if t.bits ≤ 32 then [BitVec.ofNat 32 v] else regsOf t.regs v

/-- What a pass over the places has read so far. -/
structure ReadAll where
  s      : State
  vals   : List (Nat × Nat)
  faults : SMap (Byte × DWord)

/-- Every lane's value, or the fault of its data (R401). -/
def readAll (n : Nat) (o : Order) (sc : Scope) (r : PlacedAll) : ReadAll :=
  (laneOrder r.s r.places).foldl (fun a p =>
    match placePoison a.s n p.2 with
    | some va => { a with faults := SMap.insert a.faults p.1 (0x0D, va) }
    | none =>
      let (s, v) := readPlace a.s n o sc p.2
      { a with s := s, vals := a.vals ++ [(p.1, v)] }) { s := r.s, vals := [], faults := r.faults }

/-- The registers a load may write. -/
def loadDs (ty : NType) (d : VReg) (dh : Bool) : List (Nat × Word) :=
  if ty.bits = 16 then [(vKey d.toNat 0, halfBits dh)] else vDs ty.regs (.vec d)

/-- R247, R249: a load word. -/
def laneLoad (h : LHdr) (ty : NType) (o : Order) (sc : Scope) (d : VReg) (dh : Bool) (a : LAddr) (s : State) : Res :=
  let n := ty.bits / 8
  if !spaceLegal s a then illegalL h s
  else
    laneMem h (loadDs ty d dh) ((d.toNat, ty.regs) :: a.opds.flatMap fun o => srcRun o.2 o.1) (a.opds.map fun o => o.1) none (fun c s =>
      let r := c.placeAll a n .rd c.lanes s
      if r.full then c.waitLog r.s
      else if !placesFull r.s r.places n then c.wait
      else
        let v := readAll n o sc r
        let outs : Outs := v.vals.map fun x => (x.1, loadRegs ty x.2)
        let s := if ty.bits = 16 then c.putHalf true d.toNat dh outs v.s else c.putV true d.toNat (BitVec.allOnes 32) outs v.s
        c.endOr v.faults s) s

/-- LD (R247). -/
def execLd (h : LHdr) (ty : NType) (o : Order) (sc : Scope) (d : VReg) (dh : Bool) (m : MAddr) (s : State) : Res :=
  laneLoad h ty o sc d dh (.ofM m) s
/-- LDX (R249). -/
def execLdx (h : LHdr) (ty : NType) (o : Order) (sc : Scope) (d : VReg) (dh : Bool) (x : XAddr) (s : State) : Res :=
  laneLoad h ty o sc d dh (.ofX x) s

/-! ## Stores -/

/-- The bytes written to a place. -/
def writePlace (s : State) (sc : Scope) (bs : List Byte) : Place → State
  | .glob key dup _ => s.storeBytes key bs sc dup
  | .sp x => s.spWrite x bs
  | .rf _ => s

/-- The keys of the global places of a word. -/
def globKeys (ps : List (Nat × Place)) : List Nat :=
  ps.filterMap fun p => match p.2 with
    | .glob key _ _ => some key
    | _ => none

/-- R248: the bytes of a stored value. -/
def storeVal (t : NType) (hi : Bool) (v : Nat) : List Byte :=
  leBytes (t.bits / 8) (if t.bits = 16 && hi then v / 65536 else v)

/-- R248, R249: a store word. `c` is its last operand. -/
def laneStore (h : LHdr) (ty : NType) (o : Order) (sc : Scope) (ch : Bool) (a : LAddr) (data : Src) (s : State) : Res :=
  let n := ty.bits / 8
  let os := a.opds ++ [(data, ty.regs)]
  if !spaceLegal s a then illegalL h s
  else
    laneMem h [] (os.flatMap fun o => srcRun o.2 o.1) (os.map fun o => o.1) none (fun c s =>
      let ls := c.lanes.filter fun l => !helperLane s.g l
      let r := c.placeAll a n .wr ls s
      if r.full then c.waitLog r.s
      else
        let s := if o = .rel && !r.places.isEmpty then r.s.scopeWriteBack sc else r.s
        let k := a.opds.length
        let s := (laneOrder s r.places).foldl (fun s p =>
          writePlace s sc (storeVal ty ch (natOf ty.regs fun i => c.val c.s0 k data i p.1)) p.2) s
        let s := s.markWhole (globKeys r.places) n
        c.endOr r.faults (impure (c.lanes.filter fun l => (SMap.find r.faults l).isNone) s)) s

/-- ST (R248). -/
def execSt (h : LHdr) (ty : NType) (o : Order) (sc : Scope) (ch : Bool) (m : MAddr) (c : Src) (s : State) : Res :=
  laneStore h ty o sc ch (.ofM m) c s
/-- STX (R249). -/
def execStx (h : LHdr) (ty : NType) (o : Order) (sc : Scope) (ch : Bool) (x : XAddr) (c : Src) (s : State) : Res :=
  laneStore h ty o sc ch (.ofX x) c s

/-! ## Atomics -/

/-- R250: the new value, from the old value and the operand's registers as naturals (CAS: compare, then swap). -/
def atomNew (op : AtomOp) (t : NType) (old c x : Nat) : Nat :=
  let m := 2 ^ t.bits
  match op with
  | .add => if t = .f32 then (fpRoundNE (XReal.add .near (fpValue .f32 old) (fpValue .f32 c)) .f32).1 else (old + c) % m
  | .min => if t = .f32 then (fpMinMax .f32 false old c).1 else if intValue t old ≤ intValue t c then old else c
  | .max => if t = .f32 then (fpMinMax .f32 true old c).1 else if intValue t old ≤ intValue t c then c else old
  | .and => old &&& c
  | .or => old ||| c
  | .xor => old ^^^ c
  | .exch => c
  | .cas => if old = c then x else old

/-- R250, R216: the flags of a floating-point minimum or maximum; no other atomic sets any. -/
def atomFlags (op : AtomOp) (t : NType) (old c : Nat) : Flags :=
  if t ≠ .f32 then 0
  else match op with
    | .min => (fpMinMax .f32 false old c).2
    | .max => (fpMinMax .f32 true old c).2
    | _ => 0

/-- R147, R148: one read-modify-write at a place. -/
def atomPlace (s : State) (n : Nat) (o : Order) (sc : Scope) (f : Nat → Nat) (p : Place) : State × Nat :=
  match p with
  | .glob key dup _ => s.atomicBytes key n o sc dup f
  | .sp x => let old := s.spNat x n; (s.spWrite x (leBytes n (f old)), old)
  | .rf _ => (s, 0)

/-- DESIGN CHOICE (log 31): an atomic that is not carried to a peer is a rights fault in its window, as R472 has it for 32 bits. -/
def PlacedAll.carriedOnly (r : PlacedAll) (op : AtomOp) : PlacedAll :=
  let out (p : Nat × Place) : Option DWord := match p.2 with
    | .glob key _ va => if !op.carried && (r.s.peerOf key).isSome then some va else none
    | _ => none
  { r with
    places := r.places.filter fun p => (out p).isNone
    faults := r.places.foldl (fun m p => match out p with | some va => SMap.insert m p.1 (0x13, va) | none => m) r.faults }

/-- R250: the atomics of every lane. -/
def atomAll (c : LCtx) (op : AtomOp) (ty : NType) (o : Order) (sc : Scope) (k : Nat) (data : Src) (r : PlacedAll) : ReadAll :=
  let n := ty.bits / 8
  (laneOrder r.s r.places).foldl (fun a p =>
    match placePoison a.s n p.2 with
    | some va => { a with faults := SMap.insert a.faults p.1 (0x0D, va) }
    | none =>
      let v := natOf ty.regs fun i => c.val c.s0 k data i p.1
      let x := natOf ty.regs fun i => c.val c.s0 k data (ty.regs + i) p.1
      let (s, old) := atomPlace a.s n o sc (fun old => atomNew op ty old v x) p.2
      { a with s := flagAll [atomFlags op ty old v] s, vals := a.vals ++ [(p.1, old)] }) { s := r.s, vals := [], faults := r.faults }

/-- R250, R251: an atomic word; `d` is its destination, if it returns the old values. -/
def laneAtom (h : LHdr) (op : AtomOp) (ty : NType) (o : Order) (sc : Scope) (d : Option VReg) (a : LAddr) (data : Src)
    (s : State) : Res :=
  let n := ty.bits / 8
  let os := a.opds ++ [(data, op.regs ty)]
  let dregs := match d with | some d => [(d.toNat, ty.regs)] | none => []
  if !spaceLegal s a then illegalL h s
  else
    laneMem h (match d with | some d => vDs ty.regs (.vec d) | none => []) (dregs ++ os.flatMap fun o => srcRun o.2 o.1) (os.map fun o => o.1) none (fun c s =>
      let helpers := c.lanes.filter fun l => helperLane s.g l
      let r := (c.placeAll a n .at (c.lanes.filter fun l => !helperLane s.g l) s).carriedOnly op
      if r.full then c.waitLog r.s
      else if !placesFull r.s r.places n then c.wait
      else
        let v := atomAll c op ty o sc a.opds.length data r
        let s := impure (c.lanes.filter fun l => (SMap.find v.faults l).isNone) v.s
        let s := match d with
          | none => s
          | some d =>
            let outs : Outs := (helpers.map fun l => (l, regsOf ty.regs 0)) ++ v.vals.map fun x => (x.1, regsOf ty.regs x.2)
            c.putV true d.toNat (BitVec.allOnes 32) outs s
        c.endOr v.faults s) s

/-- ATOM (R250). -/
def execAtom (h : LHdr) (op : AtomOp) (ty : NType) (o : Order) (sc : Scope) (d : VReg) (m : MAddr) (c : Src) (s : State) :
    Res := laneAtom h op ty o sc (some d) (.ofM m) c s
/-- ATOMX (R250). -/
def execAtomx (h : LHdr) (op : AtomOp) (ty : NType) (o : Order) (sc : Scope) (d : VReg) (x : XAddr) (c : Src) (s : State) :
    Res := laneAtom h op ty o sc (some d) (.ofX x) c s
/-- RED (R251). -/
def execRed (h : LHdr) (op : AtomOp) (ty : NType) (o : Order) (sc : Scope) (m : MAddr) (c : Src) (s : State) : Res :=
  laneAtom h op ty o sc none (.ofM m) c s

/-! ## LCPY and PREF -/

/-- R168: what a lane of LCPY starts, or its fault: the source address of its space, the destination, the barrier. -/
def LCtx.lcpyLane (c : LCtx) (m : MAddr) (b bar : Src) (s : State) (l : Nat) : State × Except (Nat × DWord) (CopySpace × Int × Nat × Nat) :=
  let dst := (c.val c.s0 1 b 0 l).toNat
  let br := (c.val c.s0 2 bar 0 l).toNat
  let rest (src : CopySpace) (x : Int) : Option (Nat × DWord) :=
    if x % 16 ≠ 0 then some (0x03, BitVec.ofInt 64 x)
    else if dst % 16 ≠ 0 then some (0x03, BitVec.ofNat 64 dst)
    else if br % 16 ≠ 0 then some (0x03, BitVec.ofNat 64 br)
    else if s.t.wsize < dst + 16 then some (0x05, BitVec.ofNat 64 dst)
    else if s.t.wsize < br + 16 then some (0x05, BitVec.ofNat 64 br)
    else if src = .sp && (x < 0 || (s.t.wsize : Int) < x + 16) then some (0x05, BitVec.ofInt 64 x)
    else if !(s.bar br).valid then some (0x07, BitVec.ofNat 64 br) else none
  match m with
  | .glob t o d =>
    let off := (c.val c.s0 0 o 0 l).toInt + d.toInt
    let r := s.g.blockT t.toNat
    let va := r.baseVA + BitVec.ofInt 64 off
    match rest .glob va.toNat with
    | some e => (s, .error e)
    | none =>
      match placeT s t.toNat off 16 .rd with
      | (s, .at_ _) => (s, .ok (.glob, va.toNat, dst, br))
      | (s, .fault code addr) => (s, .error (code, addr))
      | (s, .full) => (s, .error (0x10, va))
  | .sp o d =>
    let off := (c.val c.s0 0 o 0 l).toInt + d.toInt
    match rest .sp off with
    | some e => (s, .error e)
    | none => (s, .ok (.sp, off, dst, br))
  | .rf _ _ => (s, .error (0x01, 0))

/-- LCPY (R168). -/
def execLcpy (h : LHdr) (_sc : Scope) (m : MAddr) (b c : Src) (s : State) : Res :=
  let os := (LAddr.ofM m).opds ++ [(b, 1), (c, 1)]
  if !spaceLegal s (.ofM m) then illegalL h s
  else
    laneMem h [] (os.flatMap fun o => srcRun o.2 o.1) (os.map fun o => o.1) none (fun x s =>
      let ls := x.lanes.filter fun l => !helperLane s.g l
      let start (a : State × SMap (Byte × DWord)) (l : Nat) : State × SMap (Byte × DWord) :=
        match x.lcpyLane m b c a.1 l with
        | (s, .error e) => (s, SMap.insert a.2 l (BitVec.ofNat 8 e.1, e.2))
        | (s, .ok (src, sa, dst, br)) =>
          (startCopy s { groupCopy s br src .sp sa dst (.rows 16 1 0 0) with cpc := x.sp.pc.setWidth 64 }, a.2)
      let (s, faults) := ls.foldl start (s, [])
      x.endOr faults (impure (x.lanes.filter fun l => (SMap.find faults l).isNone) s)) s

/-- PREF (R252): a line is fetched; an address that fails is dropped. -/
def execPref (h : LHdr) (sc : Scope) (t : BitVec 4) (a : Src) (disp : BitVec 20) (s : State) : Res :=
  laneRun h [] (srcRun 1 a) [a] none (fun c s =>
    c.endL (c.lanes.foldl (fun s l =>
      match placeT s t.toNat ((c.val c.s0 0 a 0 l).toInt + disp.toInt) 1 .rd with
      | (s', .at_ (.glob key _ _)) => if sc.stays then s'.l1Fill s'.l1Id (key / 128) else s'
      | _ => s) s)) s

/-! ## MOVS -/

/-- MOVS (R245): a special register in each lane. -/
def execMovs (h : LHdr) (d : Dst) (i : BitVec 12) (s : State) : Res :=
  if (readSpecial s i.toNat (some 0)).isNone then illegalL h s
  else
    laneRun h [] (dstRun 1 d) [] (some d) (fun c s =>
      c.endL (c.put false d (c.lanes.map fun l => (l, [(readSpecial s i.toNat (some l)).getD 0])) s)) s

end Sys2Proof.Machine
end

