-- ==== Sys2Proof/Machine/Crc.lean ====
section
/-! DEFINITION. CRC-32C (R417), and what the copies of a saved team leave in its slot (R421). -/

namespace Sys2Proof.Machine

/-! ## CRC-32C -/

/-- One bit of the reflected CRC. -/
def crcBit (c : Word) : Word := if c.getLsbD 0 then (c >>> 1) ^^^ 0x82F63B78 else c >>> 1
/-- One byte. -/
def crcByte (c : Word) (b : Byte) : Word :=
  crcBit (crcBit (crcBit (crcBit (crcBit (crcBit (crcBit (crcBit (c ^^^ b.setWidth 32))))))))
/-- R417: CRC-32C of a byte list. -/
def crc32c (bs : List Byte) : Word := (bs.foldl crcByte 0xFFFFFFFF) ^^^ 0xFFFFFFFF

/-! ## Copies into a slot -/

/-- R417, R421: the check word of a slot's header is formed again. -/
def resealSlot (s : State) (key : Nat) : State :=
  s.memWrite key (leBytes 4 (crc32c (s.rdMemN (key + 4) 0x11FC)).toNat)

/-- R421: redir counts the running copies of a saved team; the check word follows what they have changed. -/
def settleRedir (s : State) (uid : Nat) : State :=
  match redirSlot s uid with
  | none => s
  | some key =>
    let n := (s.copies.filter fun c => c.team = uid && c.card.isNone && c.fault.isNone).length
    resealSlot (s.memWrite (key + 28) (leBytes 4 n)) key

end Sys2Proof.Machine
end

