-- ==== Sys2Proof/Machine/Sinter.lean ====
section
/-! DEFINITION. The Sinter unit (R321–R340): the network, its training, the slots of a cluster, their place in the
sump (R420), and the C-stream words APXDEF and APXKILL. -/

namespace Sys2Proof.Machine

/-! ## The descriptor (R322) -/

/-- A word of a slot's descriptor. -/
def Slot.dw (sl : Slot) (i : Nat) : Nat := (sl.desc.getD i 0).toNat
/-- n, the inputs. -/
def Slot.nIn (sl : Slot) : Nat := sl.dw 2 % 32
/-- m, the outputs. -/
def Slot.nOut (sl : Slot) : Nat := sl.dw 2 / 2 ^ 8 % 16
/-- L, the hidden layers. -/
def Slot.hidden (sl : Slot) : Nat := sl.dw 2 / 2 ^ 12 % 4
/-- The hidden width. -/
def Slot.width (sl : Slot) : Nat := 8 * (sl.dw 2 / 2 ^ 16 % 4 + 1)
/-- B, the batch. -/
def Slot.batchSize (sl : Slot) : Nat := sl.dw 2 / 2 ^ 24 % 128
/-- η. -/
def Slot.rate (sl : Slot) : Word := sl.desc.getD 3 0
/-- θ. -/
def Slot.theta (sl : Slot) : Word := sl.desc.getD 4 0
/-- W, the window. -/
def Slot.winSize (sl : Slot) : Nat := sl.dw 5 % 2 ^ 12
/-- C, the confidence count. -/
def Slot.confGoal (sl : Slot) : Nat := sl.dw 5 / 2 ^ 12 % 2 ^ 8
/-- 2^k, the sample interval. -/
def Slot.interval (sl : Slot) : Nat := 2 ^ (sl.dw 5 / 2 ^ 20 % 16)
/-- The base of the initial weight image. -/
def descImage (ws : List Word) : DWord := wordPair ws 6

/-- R323: the widths from the inputs to the outputs. -/
def Slot.dims (sl : Slot) : List Nat := sl.nIn :: (List.replicate sl.hidden sl.width ++ [sl.nOut])

/-- R323: the number of weights and biases between widths. -/
def weightCount : List Nat → Nat
  | a :: b :: ds => a * b + b + weightCount (b :: ds)
  | _ => 0

/-- A finite f32. -/
def finite32 (w : Word) : Bool := w.toNat / 2 ^ 23 % 2 ^ 8 ≠ 255

/-- R322, R177: a guard region word within its limits. -/
def guardOk (r : DWord) : Bool := r = 0 || (6 ≤ r.toNat / 2 ^ 57 % 64 && r.toNat / 2 ^ 57 % 64 ≤ 57)

/-- R322: the check of every field of a region descriptor. -/
def descOk (ws : List Word) : Bool :=
  let sl : Slot := { desc := ws }
  let f := sl.dw 2
  1 ≤ sl.nIn && sl.nIn ≤ 16 && 1 ≤ sl.nOut && sl.nOut ≤ 8 && sl.hidden ≤ 2 && (sl.hidden ≠ 0 || f / 2 ^ 16 % 4 = 0)
    && 4 ≤ sl.batchSize && sl.batchSize ≤ 64 && f / 2 ^ 18 % 64 = 0 && f / 2 ^ 5 % 8 = 0 && f / 2 ^ 14 % 4 = 0
    && f / 2 ^ 31 = 0
    && finite32 sl.rate && !sl.rate.getLsbD 31 && sl.rate ≠ 0
    && finite32 sl.theta && (!sl.theta.getLsbD 31 || sl.theta = 0x80000000)
    && 1 ≤ sl.winSize && 1 ≤ sl.confGoal && sl.dw 5 / 2 ^ 24 = 0
    && (descImage ws).toNat % 64 = 0 && (sl.hidden = 0 || descImage ws ≠ 0)
    && guardOk (wordPair ws 8) && guardOk (wordPair ws 10) && (ws.drop 12).all (· = 0)

/-! ## Arithmetic (R327–R329) -/

/-- An exact sum rounded once to f32 (R327). -/
def sum32 (b : Word) (ps : List (Word × Word)) : Word :=
  let x := ps.foldl (fun a p => XReal.add .near a (XReal.mul (f32v p.1) (f32v p.2))) (f32v b)
  BitVec.ofNat 32 (fpRoundNE x .f32).1

/-- R327: Max(z, +0), with a NaN or −0 giving +0. -/
def relu (z : Word) : Word :=
  match f32v z with
  | .nan _ => 0
  | .inf neg => if neg then 0 else z
  | .fin neg mag => if neg || mag = 0 then 0 else z

/-- A layer: for each output, its row of weights and its bias. -/
abbrev Layer := List (List Word × Word)

/-- R323: the layers in a weight list. -/
def layersOf : List Nat → List Word → List Layer
  | a :: b :: ds, ws =>
    let rows := (List.range b).map fun i => ((ws.drop (i * a)).take a, ws.getD (a * b + i) 0)
    rows :: layersOf (b :: ds) (ws.drop (a * b + b))
  | _, _ => []

/-- R323: the weight list of layers. -/
def weightsOf (ls : List Layer) : List Word :=
  (ls.map fun l => (l.map fun r => r.1).flatten ++ l.map fun r => r.2).flatten

/-- The sums z of a layer. -/
def layerZ (l : Layer) (a : List Word) : List Word := l.map fun r => sum32 r.2 (List.zip r.1 a)

/-- R327: the inputs and the sums of every layer, in order. -/
def forward : List Layer → List Word → List (List Word × List Word)
  | [], _ => []
  | [l], a => [(a, layerZ l a)]
  | l :: ls, a => let z := layerZ l a; (a, z) :: forward ls (z.map relu)

/-- R327: Eval. -/
def Slot.eval (sl : Slot) (inp : List Word) : List Word :=
  let x := (List.range sl.nIn).map fun i => inp.getD i 0
  match (forward (layersOf sl.dims sl.weights) x).getLast? with
  | some (_, z) => z
  | none => []

/-- RoundNE(a − b) in f32. -/
def sub32 (a b : Word) : Word := BitVec.ofNat 32 (fpRoundNE (XReal.add .near (f32v a) (f32v b).neg) .f32).1

/-- |x|. -/
def abs32 (w : Word) : Word := w &&& 0x7FFFFFFF

/-- The larger of two magnitudes; a NaN stands above every number. -/
def maxMag (a b : Word) : Word := if a.ule b then b else a

/-- The transpose product Σi w[i][j] × δ[i], rounded once. -/
def backSum (l : Layer) (d : List Word) (j : Nat) : Word :=
  match List.zip (l.map fun r => r.1.getD j 0) d with
  | [] => 0
  | p :: ps =>
    let x := ps.foldl (fun a q => XReal.add .near a (XReal.mul (f32v q.1) (f32v q.2))) (XReal.mul (f32v p.1) (f32v p.2))
    BitVec.ofNat 32 (fpRoundNE x .f32).1

/-- A positive f32. -/
def positive32 (w : Word) : Bool :=
  match f32v w with
  | .nan _ => false
  | .inf neg => !neg
  | .fin neg mag => !neg && mag ≠ 0

/-- R329: the gradient sums of the layers after one observation; the lists run from the output layer back. -/
def backward : List (Layer × (List Word × List Word) × Layer) → List (List Word) → List Word → List Layer
  | [], _, _ => []
  | (l, az, g) :: rest, zs, d =>
    let g' := (List.zip g d).map fun gd =>
      ((List.zip gd.1.1 az.1).map fun ga => sum32 ga.1 [(gd.2, ga.2)], sum32 gd.1.2 [(gd.2, 0x3F800000)])
    match zs with
    | [] => [g']
    | z :: zs =>
      let d' := (List.range az.1.length).map fun j => if positive32 (z.getD j 0) then backSum l d j else 0
      g' :: backward rest zs d'

/-- R329: the gradient after one observation, with the largest error. -/
def gradStep (ls : List Layer) (acc : List Layer × Word) (ob : List Word × List Word) : List Layer × Word :=
  let fw := forward ls ob.1
  let out := match fw.getLast? with | some (_, z) => z | none => []
  let e := (List.zip out ob.2).map fun p => sub32 p.1 p.2
  let big := (e.map abs32).foldl maxMag acc.2
  let items := (List.zip ls (List.zip fw acc.1)).reverse
  let zs := (fw.dropLast.map fun p => p.2).reverse
  ((backward items zs e).reverse, big)

/-- R329: RoundNE(p − η × G / B). -/
def descend (rate : Word) (B : Nat) (p g : Word) : Word :=
  let q := XReal.mul (XReal.mul (f32v rate) (f32v g)) (.fin false (mkRat 1 B))
  BitVec.ofNat 32 (fpRoundNE (XReal.add .near (f32v p) q.neg) .f32).1

/-- R325: entry to SERVE. -/
def Slot.enterServe (sl : Slot) : Slot := { sl with state := .serve, ctr := 0, window := [], samples := 0 }

/-- R329, R330: an error above the threshold; a NaN is above every threshold. -/
def Slot.exceeds (sl : Slot) (e : Word) : Bool := !(e.ule (abs32 sl.theta))

/-- R329: the update on a full batch. -/
def Slot.update (sl : Slot) : Slot :=
  let ls := layersOf sl.dims sl.weights
  let zero : List Layer := ls.map fun l => l.map fun r => (List.replicate r.1.length 0, 0)
  let (g, big) := sl.batch.foldl (gradStep ls) (zero, (0 : Word))
  let ws := (List.zip sl.weights (weightsOf g)).map fun p => descend sl.rate sl.batchSize p.1 p.2
  let sl : Slot := { sl with weights := ws, batch := [], updates := min 255 (sl.updates + 1) }
  if ws.any fun w => !finite32 w then sl.invalidate
  else
    let conf : Nat := if sl.exceeds big then 0 else min 255 (sl.conf + 1)
    let sl : Slot := { sl with conf := conf }
    if sl.confGoal ≤ conf then sl.enterServe
    else if sl.state = .observe then { sl with state := .train } else sl

/-- R330: the error of a sample. -/
def sampleError (cmp tru : List Word) : Word :=
  ((List.zip cmp tru).map fun p => abs32 (sub32 p.1 p.2)).foldl maxMag 0

/-- R328, R330: a closed real invocation arrives at its slot. -/
def Slot.arrive (sl : Slot) (a : Arrival) : Slot :=
  let tru := a.tru.take sl.nOut
  let inp := a.inp.take sl.nIn
  match sl.state with
  | .off => sl
  | .invalid => sl
  | .serve =>
    if !a.sample then sl
    else
      let e := sampleError (a.cmp.take sl.nOut) tru
      let win := (sl.window ++ [e]).drop (sl.window.length + 1 - sl.winSize)
      let sl := { sl with window := win, samples := sl.samples + 1 }
      if sl.winSize ≤ sl.samples && win.any sl.exceeds then
        { sl with state := .fallback, window := [], conf := 0, batch := [] }
      else sl
  | _ =>
    if a.sample || (inp ++ tru).any fun w => !finite32 w then sl
    else
      let sl := { sl with batch := sl.batch ++ [(inp, tru)] }
      if sl.batchSize ≤ sl.batch.length then sl.update else sl

/-! ## Slots of a cluster -/

/-- The slot of (context, region). -/
def slotFor (c : Cluster) (ctx : Nat) (r : Byte) : Option Slot := (findSlot c ctx r).bind fun i => c.slots.getD i none

/-- The index of a free slot. -/
def freeSlot (c : Cluster) : Option Nat := c.slots.findIdx? fun o => o.isNone

/-- Replaces a slot. -/
def Cluster.setSlot (c : Cluster) (i : Nat) (o : Option Slot) : Cluster := { c with slots := c.slots.set i o }

/-- R328, R379: the invocations that may arrive next: of each APXEXIT word the first that is still on its way, but none of a frozen
context. -/
def arrivals (s : State) (c : Cluster) : List Arrival :=
  (c.inbox.filter fun a => !ctxFrozen s a.ctx).foldl (fun l a => if l.any fun b => b.word = a.word then l else l ++ [a]) []

/-- INVOCATION_ARRIVE: an invocation on its way arrives at the unit. The lanes of one word arrive in ascending order, those of
different words in any (R328, R356). -/
def execInvocationArrive (cluster : Nat) (s : State) : Res :=
  let c := s.cluster cluster
  match arrivals s c with
  | [] => .next s
  | x :: xs =>
    if c.sfrozen then .next s
    else
      let a := if xs.isEmpty then x else (x :: xs).getD (Config.inboxPick s.tick % (x :: xs).length) x
      let c := { c with inbox := c.inbox.erase a }
      match findSlot c a.ctx a.region with
      | none => .next (s.setCluster c)
      | some i => .next (s.setCluster (c.setSlot i ((c.slots.getD i none).map fun sl => sl.arrive a)))

/-- GUARD_WRITE: a write performed to the byte with a key meets the guard regions (R332). -/
def execGuardWrite (key : Nat) (s : State) : Res := .next (guardCheck s key)

/-! ## The sump (R420) -/

/-- R415: the key of the Sinter entry of a region. -/
def sinterKey (s : State) (ctx : Nat) (r : Byte) : Nat := memKey (ctx / 64) ((s.ctx ctx).sb.sump.toNat + 0x1000 + 0x8000 * r.toNat)

/-- R415: sets or clears a bit of the Sinter bitmap. -/
def setSinterBit (s : State) (ctx : Nat) (r : Byte) (b : Bool) : State :=
  let k := memKey (ctx / 64) ((s.ctx ctx).sb.sump.toNat + 192 + r.toNat / 8)
  s.memWrite k [setBit8 (s.rdMem k) (r.toNat % 8) b]

/-- R420: a slot is saved into its entry: the header, the weights, the window. The descriptor fields stay with the
context (`savedSl`). -/
def saveSlot (s : State) (sl : Slot) : State :=
  let k := sinterKey s sl.ctx sl.region
  let head := [1, sl.region.setWidth 32, sl.descIdx.setWidth 32, BitVec.ofNat 32 sl.state.code, BitVec.ofNat 32 sl.updates,
    BitVec.ofNat 32 sl.conf, sl.ctr, BitVec.ofNat 32 sl.samples]
  let s := s.memWrite k (bytesOf head ++ List.replicate 32 0)
  let s := s.memWrite (k + 0x40) (bytesOf sl.weights)
  let s := s.memWrite (k + 0x2000) (bytesOf (0 :: sl.window))
  let s := setSinterBit s sl.ctx sl.region true
  let x := s.ctx sl.ctx
  s.setCtx { x with savedSl := SMap.set {} x.savedSl sl.region.toNat { sl with batch := [] } }

/-- R340, R419: the context's slots in a cluster's unit are saved and freed when its last team leaves; without a sump
they are freed only. -/
def leaveSlots (s : State) (ctx cl : Nat) : State :=
  let c := s.cluster cl
  let mine := c.slots.filterMap fun o => o.bind fun sl => if sl.ctx = ctx then some sl else none
  let keep := (s.ctx ctx).sb.sump ≠ 0 && s.partCluster ctx cl < (s.ctx ctx).sb.nclu.toNat
  let s := if keep then mine.foldl saveSlot s else s
  let c := s.cluster cl
  s.setCluster { c with slots := c.slots.map fun o => match o with
    | some sl => if sl.ctx = ctx then none else o
    | none => none }

/-- R415: whether the Sinter bitmap of a context's sump has a region's bit set. -/
def sinterBit (s : State) (ctx : Nat) (r : Byte) : Bool :=
  (s.ctx ctx).sb.sump ≠ 0 && (s.rdMem (memKey (ctx / 64) ((s.ctx ctx).sb.sump.toNat + 192 + r.toNat / 8))).getLsbD (r.toNat % 8)

/-- R415: the regions of which a context's sump holds a saved slot, in ascending order. -/
def savedRegions (s : State) (ctx : Nat) : List Byte :=
  if (s.ctx ctx).sb.sump = 0 then [] else ((List.range 256).map (BitVec.ofNat 8)).filter (sinterBit s ctx)

/-- The words of a descriptor that a saved slot has: those it was saved with, which stay with the context, else those of the object entry
as it stands, unchecked (R340). -/
def savedDesc (s : State) (ctx : Nat) (r : Byte) (idx : Nat) : List Word :=
  match SMap.find (s.ctx ctx).savedSl r.toNat with
  | some sl => if sl.descIdx.toNat = idx then sl.desc else wordsOf (s.rdMemN (memKey (ctx / 64) ((s.ctx ctx).otab.toNat + 64 * idx)) 64)
  | none => wordsOf (s.rdMemN (memKey (ctx / 64) ((s.ctx ctx).otab.toNat + 64 * idx)) 64)

/-- R420: the slot that a valid Sinter entry holds: its header, its weights, and its window (R330), whose errors stand oldest first.
An entry with an uncorrectable error gives a slot without weights it could use (R401). -/
def savedSlot (s : State) (ctx : Nat) (r : Byte) : Option Slot :=
  let k := sinterKey s ctx r
  let w (o : Nat) : Word := BitVec.ofNat 32 (s.rdMemNat (k + o) 4)
  if !sinterBit s ctx r || !(w 0).getLsbD 0 then none
  else
    let sl : Slot :=
      { ctx := ctx, region := r, descIdx := (w 8).setWidth 16, desc := savedDesc s ctx r ((w 8).toNat % 2 ^ 16),
        state := SlotState.ofCode (w 12).toNat, updates := (w 16).toNat % 256, conf := (w 20).toNat % 256, ctr := w 24,
        samples := (w 28).toNat }
    let n := if sl.state = .serve then min sl.samples sl.winSize else 0
    let sl := { sl with
      weights := wordsOf (s.rdMemN (k + 0x40) (4 * weightCount sl.dims))
      window := wordsOf (s.rdMemN (k + 0x2004) (4 * n)) }
    some (if s.poisoned k 0x8000 then sl.invalidate else sl)

/-- R340, R336: a saved slot is placed in a free slot of a unit, if there is one; its entry is valid no longer (R420). -/
def placeSlot (s : State) (ctx cl : Nat) (r : Byte) : Option State :=
  match savedSlot s ctx r, freeSlot (s.cluster cl) with
  | some sl, some i =>
    let s := s.setCluster ((s.cluster cl).setSlot i (some sl))
    let s := setSinterBit (s.memWrite (sinterKey s ctx r) [0]) ctx r false
    some (s.setCtx { s.ctx ctx with savedSl := SMap.erase (s.ctx ctx).savedSl r.toNat })
  | _, _ => none

/-- R340: the saved slots of a context are placed in ascending region id. -/
def placeSlots (s : State) (ctx cl : Nat) : State :=
  (savedRegions s ctx).foldl (fun s r => (placeSlot s ctx cl r).getD s) s

/-! ## APXDEF and APXKILL -/

/-- R325: a slot bound afresh. -/
def freshSlot (ctx : Nat) (r : Byte) (idx : Nat) (ws image : List Word) : Slot :=
  { ctx := ctx, region := r, descIdx := BitVec.ofNat 16 idx, desc := ws, state := .observe, weights := image }

/-- R336: the weight image at a virtual address, read page by page in 64-byte units; or the code and the address of its
fault. -/
def readImage (s : State) (va : DWord) : Nat → State × Except (Nat × DWord) (List Byte)
  | 0 => (s, .ok [])
  | n + 1 =>
    match readImage s va n with
    | (s, .error e) => (s, .error e)
    | (s, .ok bs) =>
      let a := va + BitVec.ofNat 64 (4 * n)
      match s.xlate a 4 .rd with
      | (s, .fault code) => (s, .error (code, a))
      | (s, .full) => (s, .error (0x10, a))
      | (s, .ok key dup) =>
        if s.poisoned key 4 then (s, .error (0x0D, a))
        else
          let (s, w) := s.loadBytes key 4 .plain .grp dup
          (s, .ok (bs ++ w))

/-- R336: what APXDEF does once the descriptor and the image are read: the new state and the predicate. -/
def apxBind (s : State) (r : Byte) (idx : Nat) (ws image : List Word) : State × Bool :=
  let cl := s.clusterId
  let c := s.cluster cl
  let ctx := s.g.ctx
  match findSlot c ctx r with
  | some i =>
    match c.slots.getD i none with
    | none => (s, false)
    | some sl =>
      if sl.descIdx.toNat ≠ idx then (s, false)
      else if sl.state = .invalid then (s.setCluster (c.setSlot i (some (freshSlot ctx r idx ws image))), true)
      else (s, true)
  | none =>
    match savedSlot s ctx r with
    | some sl => if sl.descIdx.toNat ≠ idx then (s, false) else
        (match placeSlot s ctx cl r with | some s => (s, true) | none => (s, false))
    | none =>
      match freeSlot c with
      | none => (s, false)
      | some i => (s.setCluster (c.setSlot i (some (freshSlot ctx r idx ws image))), true)

/-- R16, R362: the APX, SPLAT and matrix groups are illegal on a roof core and in handler mode. -/
def illegalHere (s : State) : Bool := s.isRoof || s.g.inHandler

/-- APXDEF (R335, R336). -/
def execApxdef (w : Bool) (a : SReg) (q : QReg) (s : State) : Res :=
  let v := (s.g.rdS s.tick a).toNat
  let idx := v % 2 ^ 16
  let r := BitVec.ofNat 8 (v / 2 ^ 16)
  if illegalHere s then illegalC s
  else if 2 ^ 24 ≤ v then faultC s 0x0C 0
  else
    let s := s.objAcquire
    match objCheck s s.g.ctx idx 9 true false with
    | .fault code => faultC s code idx
    | .ok ws =>
      if !descOk ws then faultC s 0x0C 0
      else
        let n := weightCount (Slot.dims { desc := ws })
        match (if descImage ws = 0 then (s, .ok (List.replicate (4 * n) 0)) else readImage s (descImage ws) n) with
        | (s, .error (code, addr)) => faultC s code addr.toNat
        | (s, .ok bs) =>
          let (s, ok) := apxBind s r idx ws (wordsOf bs)
          .next ((s.mapG fun g => { g.wrQ q ok with apxRegion := some r }).endC w 4)

/-- APXKILL (R335, R337). -/
def execApxkill (w : Bool) (a : SReg) (s : State) : Res :=
  let v := (s.g.rdS s.tick a).toNat
  let r := BitVec.ofNat 8 v
  if illegalHere s then illegalC s
  else if 2 ^ 9 ≤ v then faultC s 0x0C 0
  else
    let c := s.cluster s.clusterId
    let s := match findSlot c s.g.ctx r with
      | none => s
      | some i =>
        s.setCluster (c.setSlot i (if v.testBit 8 then none else (c.slots.getD i none).map Slot.invalidate))
    .next ((s.mapG fun g => { g with apxRegion := some r }).endC w 4)

end Sys2Proof.Machine
end

