-- ==== Sys2Proof/Machine/Launches.lean ====
section
/-! DEFINITION. Reads and writes by engines and controllers through a context's translation, and the contents of a
launch card and its kernel descriptor (R26, R30, R33, R53, R54, R175, R179). -/

namespace Sys2Proof.Machine

/-! ## Engine accesses -/

/-- R401: the first byte of n bytes at a key that lies in a poisoned sector, as an offset. -/
def poisonAt (s : State) (k n : Nat) : Nat :=
  (((List.range (n / 32 + 2)).map fun i => if i = 0 then 0 else 32 * i - k % 32).find? fun o => o < n && s.poisoned (k + o) 1).getD 0

/-- An engine's read of n bytes at a virtual address, page by page, or the code and address of its fault. `rel` is the
partition slice of the engine. -/
def engRead (s : State) (ctx rel : Nat) (va : DWord) : Nat → Nat → State × Except (Nat × DWord) (List Byte)
  | 0, _ => (s, .ok [])
  | fuel + 1, n =>
    if n = 0 then (s, .ok [])
    else
      let k := min n (4096 - va.toNat % 4096)
      match translateVA s ctx va 1 .rd true rel with
      | (s, .fault code) => (s, .error (code, va))
      | (s, .full) => (s, .error (0x10, va))
      | (s, .ok key _) =>
        if s.poisoned key k then (s, .error (0x0D, va + BitVec.ofNat 64 (poisonAt s key k)))
        else
          match engRead s ctx rel (va + BitVec.ofNat 64 k) fuel (n - k) with
          | (s, .error e) => (s, .error e)
          | (s, .ok bs) => (s, .ok (s.rdMemN key k ++ bs))

/-- Every read of an engine needs at most one piece per page it touches. -/
def engReadN (s : State) (ctx rel : Nat) (va : DWord) (n : Nat) : State × Except (Nat × DWord) (List Byte) :=
  engRead s ctx rel va (n / 4096 + 2) n

/-- An engine's write of bytes at a virtual address, performed at its home; the bytes before a fault are written. -/
def engWrite (s : State) (ctx rel : Nat) (va : DWord) : Nat → List Byte → State × Option (Nat × DWord)
  | 0, _ => (s, none)
  | fuel + 1, bs =>
    if bs = [] then (s, none)
    else
      let k := min bs.length (4096 - va.toNat % 4096)
      match translateVA s ctx va 1 .wr true rel with
      | (s, .fault code) => (s, some (code, va))
      | (s, .full) => (s, some (0, va))
      | (s, .ok key dup) =>
        if s.lostPeer key then (s, some (0x0D, va)) else
        let s := (noteGuard s ctx (va.toNat % 2 ^ 57) key k).memWrite key (bs.take k)
        let s := if dup then s.syncDupN key k ctx else s
        engWrite s ctx rel (va + BitVec.ofNat 64 k) fuel (bs.drop k)

/-- A write by an engine or controller. -/
def engWriteN (s : State) (ctx rel : Nat) (va : DWord) (bs : List Byte) : State × Option (Nat × DWord) :=
  engWrite s ctx rel va (bs.length / 4096 + 2) bs

/-! ## The launch attribute word (R53) -/

/-- corekind. -/
def attrKind (a : DWord) : Nat := a.toNat / 2 ^ 48 % 4
/-- qbind. -/
def attrBind (a : DWord) : Bool := a.getLsbD 47
/-- qidx. -/
def attrQ (a : DWord) : Nat := a.toNat / 2 ^ 40 % 128
/-- ctag. -/
def attrCtag (a : DWord) : Nat := a.toNat / 2 ^ 32 % 256
/-- ptag. -/
def attrPtag (a : DWord) : Nat := a.toNat / 2 ^ 24 % 256
/-- pres. -/
def attrPres (a : DWord) : Nat := a.toNat / 2 ^ 20 % 16
/-- chain. -/
def attrChain (a : DWord) : Bool := a.getLsbD 18
/-- cores. -/
def attrCores (a : DWord) : Bool := a.getLsbD 17
/-- l1fuse. -/
def attrFuse (a : DWord) : Bool := a.getLsbD 16
/-- stagger. -/
def attrStagger (a : DWord) : Nat := a.toNat % 2 ^ 16

/-! ## Resources (R32, R33) -/

/-- What a team takes: group slots, register units, and bytes of scratchpad. -/
structure Need where
  slots  : Nat
  units  : Nat
  window : Nat
deriving DecidableEq, Repr

/-- R32: what an empty core offers. -/
def coreOffer (roof : Bool) : Need := if roof then ⟨16, 256, 131072⟩ else ⟨48, 512, 262144⟩

/-- A need fits into what is free. -/
def Need.fits (n free : Need) : Bool := n.slots ≤ free.slots && n.units ≤ free.units && n.window ≤ free.window

/-- k times a need. -/
def Need.times (n : Need) (k : Nat) : Need := ⟨k * n.slots, k * n.units, k * n.window⟩

/-- The need of a launch. -/
def Launch.need (l : Launch) : Need :=
  ⟨l.ngrp, (l.roles.map fun r => r.1 * (r.2 / 8)).sum, l.smem⟩

/-- The number of teams. -/
def Launch.teams (l : Launch) : Nat := l.gx * l.gy * l.gz

/-- R53: whether a kind of core may take the grid's teams. -/
def kindAllows (attr : DWord) (roof : Bool) : Bool := attrKind attr = 2 || attrKind attr = (if roof then 1 else 0)

/-! ## Cards -/

/-- R179: the kernel descriptor of a launch card. -/
def cardKernel (ws : List Word) : DWord := wordPair ws 2

/-- R179: the launch of a card and of its kernel descriptor's words. -/
def launchOf (ws ks : List Word) : Launch :=
  let f := (ks.getD 4 0).toNat
  let grid := (wordPair ws 8).toNat
  let nrole := f / 2 ^ 8 % 4 + 1
  let role (i : Nat) : Nat × Nat :=
    let x := (ks.getD (5 + i / 2) 0).toNat / 2 ^ (16 * (i % 2)) % 2 ^ 16
    (x % 32, 8 * (x / 2 ^ 8 % 32 + 1))
  { entry := wordPair ks 0, ltext := wordPair ks 2, ngrp := f % 32, roles := (List.range nrole).map role,
    smem := 4096 * (f / 2 ^ 16 % 128), attr := wordPair ws 4, args := wordPair ws 6,
    gx := grid % 2 ^ 20 + 1, gy := grid / 2 ^ 20 % 2 ^ 16 + 1, gz := grid / 2 ^ 36 % 2 ^ 16 + 1,
    constB := wordPair ws 10 }

/-- R26, R30, R33: whether the team's shape is within its limits, for the kind of core its attribute word names. -/
def shapeOk (l : Launch) (attr : DWord) : Bool :=
  1 ≤ l.ngrp && l.ngrp ≤ 16 && l.roles.all (fun r => 1 ≤ r.1) && (l.roles.map fun r => r.1).sum = l.ngrp
    && ((kindAllows attr false && l.need.fits (coreOffer false)) || (kindAllows attr true && l.need.fits (coreOffer true)))

/-- R179: a launch card completes with BADCARD before any other test. -/
def launchBad (ws : List Word) : Bool :=
  (cardKernel ws).toNat % 64 ≠ 0 || 16384 < (wordPair ws 10).toNat % 2 ^ 15 || (wordPair ws 8).toNat / 2 ^ 52 ≠ 0

end Sys2Proof.Machine
end

