-- ==== Sys2Proof/Machine/Texture.lean ====
section
/-! DEFINITION. Textures (R285–R289): the descriptor, texel formats, filtering in exact arithmetic. Where Vulkan leaves an
implementation a choice that R288 does not make, the choice is one of log entry 20. -/

namespace Sys2Proof.Machine

/-! ## Reads by the texture and traversal units -/

/-- A plain load by a unit on behalf of the issuing group (R153): the bytes, or the code and address of a fault. The
bytes come through the L1, which takes nothing in. -/
def unitLoad (s : State) (va : DWord) (n align : Nat) : Except (Nat × DWord) (List Byte) :=
  match s.xlate va align .rd with
  | (_, .fault code) => .error (code, va)
  | (_, .full) => .error (0x10, va)
  | (_, .ok key dup) =>
    if s.poisonedHere key n then .error (0x0D, va)
    else
      let off := if dup then s.relSlice s.sliceId * s.gctx.xb.dstride.toNat else 0
      .ok ((List.range n).map fun i => s.l1Byte s.l1Id (key + i) (key + i - off))

/-! ## The descriptor (R285, R286) -/

/-- A texture descriptor. -/
structure Tex where
  base   : DWord
  width  : Nat
  height : Nat
  depth  : Nat
  levels : Nat
  kind   : Nat
  fmt    : Nat
  modes  : List Nat
  magLin : Bool
  minLin : Bool
  mipLin : Bool
  bias   : Word

/-- The descriptor in an entry's words. -/
def texOf (ws : List Word) : Tex :=
  let w (i : Nat) : Nat := (ws.getD i 0).toNat
  { base := wordPair ws 2, width := w 4 % 65536 + 1, height := w 4 / 65536 + 1, depth := w 5 % 65536 + 1,
    levels := w 5 / 2 ^ 16 % 16 + 1, kind := w 5 / 2 ^ 20 % 16, fmt := w 5 / 2 ^ 24,
    modes := [w 6 % 4, w 6 / 4 % 4, w 6 / 16 % 4], magLin := (w 6).testBit 6, minLin := (w 6).testBit 7,
    mipLin := (w 6).testBit 8, bias := ws.getD 7 0 }

/-- R286: the checks of a descriptor; levels − 1 goes to 14 (R285). -/
def texOk (ws : List Word) : Bool :=
  let t := texOf ws
  t.kind < 3 && t.fmt < 8 && (t.kind ≠ 0 || t.depth = 1) && t.base.toNat % 256 = 0 && t.levels ≤ 15
    && (ws.getD 6 0).toNat / 2 ^ 9 = 0 && (ws.drop 8).all (· = 0)

/-- R369, R286: the descriptor of a texture index, or the code of the object fault. -/
def texLookup (s : State) (idx : Nat) : Except Nat Tex :=
  match objCheck s s.g.ctx idx 4 true false with
  | .fault code => .error code
  | .ok ws => if texOk ws then .ok (texOf ws) else .error 0x1B

/-- R287: the bytes of a texel by its format. -/
def texelBytes (fmt : Nat) : Nat :=
  match fmt with
  | 0 => 4 | 1 => 4 | 2 => 4 | 3 => 4 | 4 => 8 | 5 => 1 | 6 => 8 | _ => 16

/-- The size of a level in one dimension. -/
def levelDim (n l : Nat) : Nat := max 1 (n / 2 ^ l)

/-- The layers, or the depth of a level. -/
def Tex.slices (t : Tex) (l : Nat) : Nat := if t.kind = 2 then levelDim t.depth l else t.depth

/-- R285: the padded row of a level. -/
def Tex.rowBytes (t : Tex) (l : Nat) : Nat := (levelDim t.width l * texelBytes t.fmt + 127) / 128 * 128

/-- The bytes of a level. -/
def Tex.levelBytes (t : Tex) (l : Nat) : Nat := t.rowBytes l * levelDim t.height l * t.slices l

/-- R285: where a level starts: at the next multiple of 256 after the level before it. -/
def Tex.levelStart (t : Tex) (l : Nat) : Nat :=
  (List.range l).foldl (fun a k => (a + t.levelBytes k + 255) / 256 * 256) 0

/-- The address of a texel. -/
def Tex.addr (t : Tex) (l x y z : Nat) : DWord :=
  t.base + BitVec.ofNat 64
    (t.levelStart l + (z * levelDim t.height l + y) * t.rowBytes l + x * texelBytes t.fmt)

/-! ## Formats (R287) -/

/-- The largest r with r^5 ≤ n, from bit b down. -/
def root5From (n : Nat) : Nat → Nat → Nat
  | 0, acc => if (acc + 1) ^ 5 ≤ n then acc + 1 else acc
  | b + 1, acc =>
    let t := acc + 2 ^ (b + 1)
    root5From n b (if t ^ 5 ≤ n then t else acc)

/-- The sRGB transfer of c/255: linear below 0.04045, else ((x + 0.055)/1.055)^2.4, to 100 bits and a half. -/
def srgbValue (c : Nat) : Rat :=
  let x := mkRat c 255
  if x ≤ mkRat 4045 100000 then x / mkRat 1292 100
  else
    let y := (x + mkRat 55 1000) / mkRat 1055 1000
    let p := y ^ 12
    let n := p.num.toNat * 2 ^ 500 / p.den
    mkRat (2 * root5From n 101 0 + 1) (2 ^ 101)

/-- RoundNE of a rational into f32. -/
def f32OfRat (q : Rat) : Word := BitVec.ofNat 32 (fpRoundNE (XReal.ofRat false q) .f32).1

/-- A norm byte as f32. -/
def norm8 (b : Byte) : Word := f32OfRat (mkRat b.toNat 255)

/-- A half as f32. -/
def half32 (bs : List Byte) (i : Nat) : Word :=
  BitVec.ofNat 32 (fpRoundNE (fpValue .f16 (leValue ((bs.drop (2 * i)).take 2))) .f32).1

/-- A stored f32. -/
def word32 (bs : List Byte) (i : Nat) : Word := BitVec.ofNat 32 (leValue ((bs.drop (4 * i)).take 4))

/-- R287: the components r, g, b, a of a texel. -/
def texelDecode (fmt : Nat) (bs : List Byte) : List Word :=
  let b (i : Nat) : Byte := bs.getD i 0
  let one : Word := 0x3F800000
  match fmt with
  | 0 => [norm8 (b 0), norm8 (b 1), norm8 (b 2), norm8 (b 3)]
  | 1 => [f32OfRat (srgbValue (b 0).toNat), f32OfRat (srgbValue (b 1).toNat), f32OfRat (srgbValue (b 2).toNat), norm8 (b 3)]
  | 2 => [word32 bs 0, 0, 0, one]
  | 3 => [half32 bs 0, half32 bs 1, 0, one]
  | 4 => [half32 bs 0, half32 bs 1, half32 bs 2, half32 bs 3]
  | 5 => [norm8 (b 0), 0, 0, one]
  | 6 => [word32 bs 0, word32 bs 1, 0, one]
  | _ => [word32 bs 0, word32 bs 1, word32 bs 2, word32 bs 3]

/-! ## Addressing and filtering (R288) -/

/-- The texel index an address mode gives in a dimension; `none` is the border. -/
def wrapTexel (mode size : Nat) (i : Int) : Option Nat :=
  match mode with
  | 0 => some (i % size).toNat
  | 1 =>
    let m := i % (2 * size : Nat)
    some (if m < size then m.toNat else (2 * (size : Int) - 1 - m).toNat)
  | 2 => some (max 0 (min ((size : Int) - 1) i)).toNat
  | _ => if 0 ≤ i && i < size then some i.toNat else none

/-- A finite coordinate as a rational: a NaN reads as 0 (R288). -/
def coordOf (w : Word) : Rat :=
  match f32v w with
  | .nan _ => 0
  | x => x.toRat

/-- An infinity. -/
def isInfinite (w : Word) : Bool := w.toNat % 2 ^ 31 = 0x7F800000

/-- A value that is clamped to a few levels or layers (R288): an infinity lies beyond them all. -/
def farOf (w : Word) : Rat := if isInfinite w then (if w.getLsbD 31 then -(2 ^ 200) else 2 ^ 200) else coordOf w

/-- Infinities of both signs, whose sum is no number. -/
def opposed (a b : Word) : Bool := isInfinite a && isInfinite b && a ≠ b

/-- Rounds a rational to the nearest integer, a tie to the even one. -/
def ratNearest (q : Rat) : Int :=
  let k := q.floor
  let r := q - k
  if r < 1 / 2 then k else if 1 / 2 < r then k + 1 else if k % 2 = 0 then k else k + 1

/-- R288: a weight quantised to 8 fractional bits: the lower index and the weight of the upper one, in 256ths. -/
def quantised (q : Rat) : Int × Nat :=
  let n := ratNearest (q * 256)
  (n / 256, (n % 256).toNat)

/-- A footprint of one dimension: indices with weights in 256ths. -/
def taps (linear : Bool) (size : Nat) (c : Rat) : List (Int × Nat) :=
  let u := c * size
  if linear then
    let (i, w) := quantised (u - 1 / 2)
    if w = 0 then [(i, 256)] else [(i, 256 - w), (i + 1, w)]
  else [(u.floor, 256)]

/-- R288: the layer of an array: rounded to nearest, clamped. -/
def layerOf (t : Tex) (c : Rat) : Nat := (max 0 (min ((t.depth : Int) - 1) (ratNearest c))).toNat

/-- One texel of a level, through the address modes. -/
def texel (s : State) (t : Tex) (l : Nat) (x y z : Int) : Except (Nat × DWord) (List Word) :=
  let m (i : Nat) := t.modes.getD i 0
  let zz : Option Nat := if t.kind = 2 then wrapTexel (m 2) (t.slices l) z else some z.toNat
  match wrapTexel (m 0) (levelDim t.width l) x, wrapTexel (m 1) (levelDim t.height l) y, zz with
  | some x, some y, some z =>
    let n := texelBytes t.fmt
    (unitLoad s (t.addr l x y z) n n).map (texelDecode t.fmt)
  | _, _, _ => .ok [0, 0, 0, 0]

/-- A weighted texel: its weight and its components. -/
abbrev Tap := Rat × List Word

/-- The texels of a list of positions with weights. -/
def readTaps (s : State) (t : Tex) (l : Nat) : List (Rat × Int × Int × Int) → Except (Nat × DWord) (List Tap)
  | [] => .ok []
  | p :: ps =>
    match texel s t l p.2.1 p.2.2.1 p.2.2.2 with
    | .error e => .error e
    | .ok c => (readTaps s t l ps).map fun r => (p.1, c) :: r

/-- The texels of a footprint at a level. -/
def levelTaps (s : State) (t : Tex) (linear : Bool) (l : Nat) (cs : List Rat) (scale : Rat) : Except (Nat × DWord) (List Tap) :=
  let c (i : Nat) := cs.getD i 0
  let xs := taps linear (levelDim t.width l) (c 0)
  let ys := taps linear (levelDim t.height l) (c 1)
  let zs : List (Int × Nat) :=
    if t.kind = 2 then taps linear (levelDim t.depth l) (c 2)
    else if t.kind = 1 then [((layerOf t (c 2) : Nat), 256)] else [(0, 256)]
  readTaps s t l (xs.flatMap fun x => ys.flatMap fun y => zs.map fun z =>
    (scale * mkRat (x.2 * y.2 * z.2) (2 ^ 24), x.1, y.1, z.1))

/-- R288: RoundNE of the exact weighted sum, per component. -/
def sumTaps (ts : List Tap) : List Word :=
  (List.range 4).map fun k =>
    let terms := ts.map fun p => XReal.mul (.fin false p.1) (f32v (p.2.getD k 0))
    BitVec.ofNat 32 (fpRoundNE (match terms with
      | [] => .fin false 0
      | a :: as => as.foldl (XReal.add .near) a) .f32).1

/-- R288: the level of detail clamped to the levels; a NaN reads as 0. -/
def clampLod (t : Tex) (q : Rat) : Rat := max 0 (min ((t.levels : Rat) - 1) q)

/-- R288: a sample at coordinates and an unclamped level of detail. -/
def sampleTex (s : State) (t : Tex) (cs : List Rat) (lod : Rat) : Except (Nat × DWord) (List Word) :=
  let linear := if lod ≤ 0 then t.magLin else t.minLin
  let lam := clampLod t lod
  let lv (i : Int) : Nat := (max 0 (min ((t.levels : Int) - 1) i)).toNat
  if t.mipLin then
    let (i, w) := quantised lam
    if w = 0 then (levelTaps s t linear (lv i) cs 1).map sumTaps
    else
      match levelTaps s t linear (lv i) cs (mkRat (256 - w) 256), levelTaps s t linear (lv (i + 1)) cs (mkRat w 256) with
      | .ok a, .ok b => .ok (sumTaps (a ++ b))
      | .error e, _ => .error e
      | _, .error e => .error e
  else (levelTaps s t linear (lv ((lam + 1 / 2).ceil - 1)) cs 1).map sumTaps

/-- R288: the gather of one component of the four level-0 texels of a bilinear footprint, in Vulkan's order. -/
def gatherTex (s : State) (t : Tex) (comp : Nat) (cs : List Rat) : Except (Nat × DWord) (List Word) :=
  let c (i : Nat) := cs.getD i 0
  let i := (c 0 * levelDim t.width 0 - 1 / 2).floor
  let j := (c 1 * levelDim t.height 0 - 1 / 2).floor
  let z : Int := if t.kind = 2 then (c 2 * levelDim t.depth 0).floor else if t.kind = 1 then (layerOf t (c 2) : Nat) else 0
  (readTaps s t 0 [(1, i, j + 1, z), (1, i + 1, j + 1, z), (1, i + 1, j, z), (1, i, j, z)]).map fun ts =>
    ts.map fun p => p.2.getD comp 0

/-- Half the base-2 logarithm of a positive rational, from below. -/
def halfLog2 (q : Rat) : Rat :=
  let k := ratLog2 q
  if q = pow2 k then (k : Rat) / 2
  else
    let e := ratLb q
    (if e.neg then -e.hi else e.lo) / 2

/-- R288: the level of detail of coarse derivatives, by dimension: log2 of the larger footprint axis; `none` when
both are zero. -/
def lodOf (t : Tex) (dx dy : List Rat) : Option Rat :=
  let dims : List Rat := [(t.width : Rat), (t.height : Rat), if t.kind = 2 then (t.depth : Rat) else 0]
  let len2 (d : List Rat) : Rat := (List.zip d dims).foldl (fun a p => a + (p.1 * p.2) ^ 2) 0
  let r := max (len2 dx) (len2 dy)
  if r = 0 then none else some (halfLog2 r)

end Sys2Proof.Machine
end

