-- ==== Sys2Proof/Machine/Rays.lean ====
section
/-! DEFINITION. TRACE (R290–R294): the hierarchy, the exact triangle test, and the result of a ray. A ray enters every
child box that its segment meets; depth stops after 64 levels (log entry 21). -/

namespace Sys2Proof.Machine

/-- A point or direction. -/
structure V3 where
  x : Rat
  y : Rat
  z : Rat

/-- Componentwise difference. -/
def V3.sub (a b : V3) : V3 := ⟨a.x - b.x, a.y - b.y, a.z - b.z⟩
/-- The cross product. -/
def V3.cross (a b : V3) : V3 := ⟨a.y * b.z - a.z * b.y, a.z * b.x - a.x * b.z, a.x * b.y - a.y * b.x⟩
/-- The dot product. -/
def V3.dot (a b : V3) : Rat := a.x * b.x + a.y * b.y + a.z * b.z
/-- A component by its number. -/
def V3.get (a : V3) (i : Nat) : Rat := match i with | 0 => a.x | 1 => a.y | _ => a.z

/-- A bound of a ray: a rational, or an infinity. -/
inductive Bound where
  | fin (q : Rat)
  | inf (neg : Bool)

/-- a < b. -/
def Bound.lt (a b : Bound) : Bool :=
  match a, b with
  | .fin p, .fin q => p < q
  | .fin _, .inf n => !n
  | .inf n, .fin _ => n
  | .inf n, .inf k => n && !k

/-- The larger bound. -/
def Bound.max (a b : Bound) : Bound := if a.lt b then b else a
/-- The smaller bound. -/
def Bound.min (a b : Bound) : Bound := if a.lt b then a else b

/-- A ray with finite origin and direction (R291). -/
structure Ray where
  o    : V3
  d    : V3
  tmin : Bound
  tmax : Bound

/-- A finite f32 as a rational. -/
def finOf (w : Word) : Option Rat := if finiteW w then some (f32v w).toRat else none
where
  /-- A finite f32. -/
  finiteW (w : Word) : Bool := w.toNat / 2 ^ 23 % 2 ^ 8 ≠ 255

/-- Three consecutive words as a point; `none` unless all are finite. -/
def pointOf (ws : List Word) (i : Nat) : Option V3 := do
  some ⟨← finOf (ws.getD i 0), ← finOf (ws.getD (i + 1) 0), ← finOf (ws.getD (i + 2) 0)⟩

/-- A bound that is not a NaN. -/
def boundOf (w : Word) : Option Bound :=
  match f32v w with
  | .nan _ => none
  | .inf n => some (.inf n)
  | x => some (.fin x.toRat)

/-- R291: the ray of the operands; `none` for a NaN, and for an infinite origin or direction. -/
def rayOf (a b : List Word) : Option Ray := do
  some ⟨← pointOf a 0, ← pointOf b 0, ← boundOf (a.getD 3 0), ← boundOf (b.getD 3 0)⟩

/-- A hit: t, the barycentrics, the primitive. -/
structure Hit where
  t    : Rat
  u    : Rat
  v    : Rat
  prim : Word

/-- R291: the exact intersection of a ray with a triangle, inside or on its edges, with tmin ≤ t < tmax. -/
def hitTriangle (r : Ray) (v0 v1 v2 : V3) (prim : Word) : Option Hit :=
  let e1 := v1.sub v0
  let e2 := v2.sub v0
  let p := r.d.cross e2
  let det := e1.dot p
  if det = 0 then none
  else
    let s := r.o.sub v0
    let q := s.cross e1
    let u := s.dot p / det
    let v := r.d.dot q / det
    let t := e2.dot q / det
    if 0 ≤ u && 0 ≤ v && u + v ≤ 1 && !((Bound.fin t).lt r.tmin) && (Bound.fin t).lt r.tmax then some ⟨t, u, v, prim⟩
    else none

/-- The part of a ray inside a slab of one axis; `none` when it has none. -/
def slab (o d lo hi : Rat) : Option (Bound × Bound) :=
  if d = 0 then (if lo ≤ o && o ≤ hi then some (.inf true, .inf false) else none)
  else
    let a := (lo - o) / d
    let b := (hi - o) / d
    some (if a ≤ b then (.fin a, .fin b) else (.fin b, .fin a))

/-- Whether the segment of a ray meets a box. -/
def hitBox (r : Ray) (lo hi : V3) : Bool :=
  ((List.range 3).foldl (fun (acc : Option (Bound × Bound)) i =>
    acc.bind fun ab => (slab (r.o.get i) (r.d.get i) (lo.get i) (hi.get i)).map fun s =>
      (ab.1.max s.1, ab.2.min s.2)) (some (r.tmin, r.tmax))).any fun ab => !(ab.2.lt ab.1)

/-- What a ray has met: its accepted hits, whether poison or a malformed record, or a fault that stops the lane. -/
structure RayAcc where
  hits   : List Hit
  poison : Bool
  bad    : Bool
  fault  : Option (Nat × DWord)

/-- R292: an alpha test: whether the hit is accepted, or the fault of its texture. -/
def alphaAccepts (s : State) (ws : List Word) (h : Hit) : Except (Nat × DWord) Bool :=
  let w10 := (ws.getD 10 0).toNat
  match texLookup s (w10 % 65536) with
  | .error code => .error (code, BitVec.ofNat 64 (w10 % 65536))
  | .ok t =>
    let uv (k : Nat) (hi : Bool) : XReal := fpValue .bf16 ((ws.getD (12 + k) 0).toNat / (if hi then 65536 else 1) % 65536)
    let mix (hi : Bool) : XReal :=
      XReal.add .near (XReal.mul (.ofRat false (1 - h.u - h.v)) (uv 0 hi))
        (XReal.add .near (XReal.mul (.ofRat false h.u) (uv 1 hi)) (XReal.mul (.ofRat false h.v) (uv 2 hi)))
    let c (hi : Bool) : Rat := coordOf (BitVec.ofNat 32 (fpRoundNE (mix hi) .f32).1)
    let near : Tex := { t with magLin := false, minLin := false, mipLin := false }
    (levelTaps s near false 0 [c false, c true, 0] 1).map fun ts =>
      (fpCompare .ge (f32v ((sumTaps ts).getD 3 0)) (f32v (ws.getD 11 0))).1

/-- R290, R294: a leaf. -/
def visitLeaf (s : State) (r : Ray) (alpha : Bool) (ws : List Word) (acc : RayAcc) : RayAcc :=
  if !alpha && (ws.drop 10).any (fun w => w ≠ 0) then { acc with bad := true }
  else
    match pointOf ws 0, pointOf ws 3, pointOf ws 6 with
    | some v0, some v1, some v2 =>
      (match hitTriangle r v0 v1 v2 (ws.getD 9 0) with
       | none => acc
       | some h =>
         if !alpha then { acc with hits := acc.hits ++ [h] }
         else match alphaAccepts s ws h with
           | .ok true => { acc with hits := acc.hits ++ [h] }
           | .ok false => acc
           | .error e => if e.1 = 0x0D then { acc with poison := true } else { acc with fault := some e })
    | _, _, _ => acc

/-- R286: an alpha-tested leaf's texture descriptor is checked when the leaf is fetched. -/
def leafTexFault (s : State) (ws : List Word) : Option (Nat × DWord) :=
  let i := (ws.getD 10 0).toNat % 65536
  match texLookup s i with
  | .error code => some (code, BitVec.ofNat 64 i)
  | .ok _ => none

/-- R294: a malformed internal node, from its 64 bytes. Bits [15:12] at offset 20 are no kind bits (R290). -/
def nodeBad (bs : List Byte) : Bool :=
  let b (i : Nat) := (bs.getD i 0).toNat
  let n := b 15 % 8
  n = 0 || n = 7 || b 15 / 8 ≠ 0 || (bs.drop 22).take 6 ≠ List.replicate 6 0
    || leValue ((bs.drop 20).take 2) % 2 ^ 12 / 2 ^ (2 * n) ≠ 0

/-- R290: the kind of child c. -/
def childKind (bs : List Byte) (c : Nat) : Nat := leValue ((bs.drop 20).take 2) / 2 ^ (2 * c) % 4

/-- R290: the box of child c; `none` when the origin is not finite. -/
def childBox (bs : List Byte) (c : Nat) : Option (V3 × V3) := do
  let ws := wordsOf bs
  let o ← pointOf ws 0
  let b (i : Nat) : Rat := ((bs.getD (28 + 6 * c + i) 0).toNat : Nat)
  let sc (i : Nat) : Rat := pow2 (((bs.getD (12 + i) 0).toNat : Int) - 127)
  some (⟨o.x + b 0 * sc 0, o.y + b 1 * sc 1, o.z + b 2 * sc 2⟩,
    ⟨o.x + (b 3 + 1) * sc 0, o.y + (b 4 + 1) * sc 1, o.z + (b 5 + 1) * sc 2⟩)

/-- The items of a list in the order in which free values pick them, n of them. -/
def pickOrder (f : Nat → Nat) : Nat → List Nat → List Nat
  | 0, _ => []
  | n + 1, xs =>
    match xs[f n % xs.length]? with
    | none => []
    | some x => x :: pickOrder f n (xs.erase x)

/-- What ends a ray's search: a fault, poison, a malformed record, or, with any-hit, the first accepted hit found (R291). -/
def RayAcc.done (any : Bool) (acc : RayAcc) : Bool := acc.fault.isSome || acc.poison || acc.bad || (any && !acc.hits.isEmpty)

/-- R290–R294: a record of a kind is fetched and followed; its children in any order (`ord`, log 21). A way from the root that meets no record twice is shorter than the fuel
that `traceRay` gives, since a record's number is less than 2^32 + 6; a tree that leads back into itself has no end (log 21). -/
def visit (s : State) (base : DWord) (r : Ray) (any : Bool) (ord : Nat → Nat) : Nat → Nat → Nat → RayAcc → RayAcc
  | 0, _, _, acc => acc
  | fuel + 1, kind, k, acc =>
    if acc.done any then acc
    else
      match unitLoad s (base + BitVec.ofNat 64 (64 * k)) 64 64 with
      | .error e => if e.1 = 0x0D then { acc with poison := true } else { acc with fault := some e }
      | .ok bs =>
        if kind = 1 then visitLeaf s r false (wordsOf bs) acc
        else if kind = 2 then
          (match leafTexFault s (wordsOf bs) with
           | some e => { acc with fault := some e }
           | none => visitLeaf s r true (wordsOf bs) acc)
        else if nodeBad bs then { acc with bad := true }
        else
          (pickOrder (fun i => ord (8 * k + i)) 8 (List.range ((bs.getD 15 0).toNat % 8))).foldl (fun acc c =>
            match childBox bs c with
            | none => acc
            | some (lo, hi) =>
              if childKind bs c = 3 || !hitBox r lo hi then acc
              else visit s base r any ord fuel (childKind bs c) (leValue ((bs.drop 16).take 4) + c) acc) acc

/-- R291: the closest hit; at equal t the lower primitive. -/
def closest (hs : List Hit) : Option Hit :=
  hs.foldl (fun (best : Option Hit) h =>
    match best with
    | none => some h
    | some b => if h.t < b.t || (h.t = b.t && h.prim.ult b.prim) then some h else some b) none

/-- R291: the eight registers of a ray without a hit, with its status. -/
def missRegs (tmax : Word) (status : Word) : List Word := [tmax, 0, 0, 0xFFFFFFFF, status, 0, 0, 0]

/-- R291: the eight registers of a hit. -/
def hitRegs (h : Hit) : List Word := [f32OfRat h.t, f32OfRat h.u, f32OfRat h.v, h.prim, 1, 0, 0, 0]

/-- R291–R294: the registers and flags of a ray in a lane, or its lane fault. -/
def traceRay (s : State) (base : DWord) (any : Bool) (lane : Nat) (a b : List Word) : Except (Nat × DWord) (List Word × Flags) :=
  let tmax := b.getD 3 0
  match rayOf a b with
  | none => .ok (missRegs tmax 0, 0)
  | some r =>
    let acc := visit s base r any (Config.rayOrder s.tick lane) (2 ^ 33) 0 0 ⟨[], false, false, none⟩
    match acc.fault with
    | some e => .error e
    | none =>
      if acc.poison then .ok (missRegs tmax 2, fPoison)
      else if acc.bad then .ok (missRegs tmax 3, 0)
      else
        match (if any then acc.hits.head? else closest acc.hits) with
        | none => .ok (missRegs tmax 0, 0)
        | some h => .ok (hitRegs h, 0)

end Sys2Proof.Machine
end

