-- ==== Sys2Proof/Machine/Render.lean ====
section
/-! DEFINITION. The graphics lane words (R281–R294): interpolation in a fragment group, derivatives, texture words, TRACE,
and the exports of a fragment. -/

namespace Sys2Proof.Machine

/-! ## The draw record (R276) and interpolation (R282) -/

/-- A word of a draw record as a number. -/
def drawW (d : List Word) (i : Nat) : Nat := (d.getD i 0).toNat
/-- na: the attribute components of a vertex. -/
def drawNa (d : List Word) : Nat := drawW d 5 % 128
/-- log2 of the sample count. -/
def drawLogS (d : List Word) : Nat := drawW d 11 % 4
/-- The number of colour targets. -/
def drawTargets (d : List Word) : Nat := drawW d 11 / 4 % 16

/-- R277: the standard sample locations in sixteenths of a pixel, by log2 of the count. -/
def sampleLocs (log : Nat) : List (Nat × Nat) :=
  match log with
  | 0 => [(8, 8)]
  | 1 => [(12, 12), (4, 4)]
  | 2 => [(6, 2), (14, 6), (2, 10), (10, 14)]
  | _ => [(9, 5), (7, 11), (13, 9), (5, 3), (3, 13), (1, 7), (11, 15), (15, 1)]

/-- A finite f32 as a rational; for another the value is open. -/
def ratOf32 (w : Word) : Rat := (finOf w).getD (Config.looseValue w.toNat)

/-- A clip-space vertex: (x, y, w) for the plane equations, and z. -/
def clipXYW (vs : List Word) (i : Nat) : V3 :=
  ⟨ratOf32 (vs.getD (4 * i) 0), ratOf32 (vs.getD (4 * i + 1) 0), ratOf32 (vs.getD (4 * i + 3) 0)⟩
/-- z of a clip-space vertex. -/
def clipZ (vs : List Word) (i : Nat) : Rat := ratOf32 (vs.getD (4 * i + 2) 0)

/-- A framebuffer position in normalised device coordinates, through the viewport. -/
def ndcOf (d : List Word) (fx fy : Rat) : V3 :=
  let vp (i : Nat) : Rat := ratOf32 (d.getD (6 + i) 0)
  let inv (a : Rat) : Rat := if a = 0 then 0 else 2 / a
  ⟨(fx - vp 0) * inv (vp 2) - 1, (fy - vp 1) * inv (vp 3) - 1, 1⟩

/-- The perspective weights of the three vertices at a framebuffer position, up to a common factor. -/
def fragWeights (f : Frag) (fx fy : Rat) : List Rat :=
  let p := ndcOf f.draw fx fy
  let v (i : Nat) := clipXYW f.verts i
  [p.dot ((v 1).cross (v 2)), p.dot ((v 2).cross (v 0)), p.dot ((v 0).cross (v 1))]

/-- The same weights made linear in screen space. -/
def linearWeights (f : Frag) (ws : List Rat) : List Rat :=
  (List.range 3).map fun i => ws.getD i 0 * (clipXYW f.verts i).z

/-- A weighted mean of three values. -/
def weighted (ws : List Rat) (as : List XReal) : XReal :=
  let n := ws.foldl (· + ·) 0
  let terms := (List.zip ws as).map fun p => XReal.mul (.ofRat false (if n = 0 then 0 else p.1 / n)) p.2
  terms.foldl (XReal.add .near) (.fin false 0)

/-- An f32 code a number of units in the last place away, on the line of f32 values. -/
def f32Step (w : Word) (up : Bool) : Word :=
  if w.toNat % 2 ^ 31 = 0 then (if up then 1 else 0x80000001)
  else if w.getLsbD 31 != up then w + 1 else w - 1

/-- R282: an interpolated result: within 1 ulp of the exact value, the same for the same draw. -/
def interpRound (key i pix : Nat) (x : XReal) : Word :=
  let k := Config.attrUlp key i pix
  let near := roundF32 x ⟨false, .near⟩
  match x with
  | .fin _ _ =>
    if near.2 &&& fInx = 0 then
      (if k = 0 then near.1 else f32Step near.1 (0 < k))
    else if k = 0 then near.1 else (roundF32 x ⟨false, if 0 < k then .up else .down⟩).1
  | _ => near.1

/-- R282: the covered sample nearest the centre, lowest index first, in sixteenths; the centre where none is covered. -/
def centroidOf (log cov : Nat) : Nat × Nat :=
  let ls := sampleLocs log
  let dist (p : Nat × Nat) : Nat := (p.1 - 8) ^ 2 + (8 - p.1) ^ 2 + (p.2 - 8) ^ 2 + (8 - p.2) ^ 2
  ((List.range ls.length).foldl (fun (best : Option (Nat × Nat)) i =>
    let p := ls.getD i (8, 8)
    if !cov.testBit i then best
    else match best with
      | none => some p
      | some b => if dist p < dist b then some p else best) none).getD (8, 8)

/-- R282: the value of an attribute or built-in in a lane; `none` when its index is out of range. -/
def attrValue (f : Frag) (m : AttrMode) (i l : Nat) : Word :=
  let (px, py) := SMap.get (0, 0) f.pix l
  let cov := SMap.get 0 f.cov l
  let at_ (sx sy : Nat) : List Rat := fragWeights f (px + mkRat sx 16) (py + mkRat sy 16)
  let key := f.prim
  let pix := px + 65536 * py
  let comp : List XReal := f.attrs.map fun a => f32v (a.getD i 0)
  match m with
  | .flat => (f.attrs.headD []).getD i 0
  | .persp => interpRound key i pix (weighted (at_ 8 8) comp)
  | .linear => interpRound key (64 + i) pix (weighted (linearWeights f (at_ 8 8)) comp)
  | .centroid =>
    let (cx, cy) := centroidOf (drawLogS f.draw) cov
    interpRound key (128 + i) pix (weighted (at_ cx cy) comp)
  | .builtin =>
    match i with
    | 0 => f32OfRat (px + 1 / 2)
    | 1 => f32OfRat (py + 1 / 2)
    | 2 => interpRound key 192 pix (.ofRat false (fragDepth f (px + 1 / 2) (py + 1 / 2)))
    | 3 =>
      let ws := at_ 8 8
      let n := (linearWeights f ws).foldl (· + ·) 0
      interpRound key 193 pix (.ofRat false (if n = 0 then 0 else ws.foldl (· + ·) 0 / n))
    | 4 => BitVec.ofNat 32 cov
    | 5 => if f.front then 0xFFFFFFFF else 0
    | 6 => BitVec.ofNat 32 f.prim
    | _ => if cov = 0 then 0xFFFFFFFF else 0
where
  /-- z at a framebuffer position: linear in screen space. -/
  fragDepth (f : Frag) (fx fy : Rat) : Rat :=
    let ws := fragWeights f fx fy
    let n := (linearWeights f ws).foldl (· + ·) 0
    if n = 0 then 0 else ((List.range 3).foldl (fun a i => a + ws.getD i 0 * clipZ f.verts i) 0) / n

/-- ATTR (R282). -/
def execAttr (h : LHdr) (m : AttrMode) (d : Dst) (i : BitVec 6) (s : State) : Res :=
  match s.g.frag with
  | none => illegalL h s
  | some f =>
    if s.isRoof || (if m = .builtin then 8 else drawNa f.draw) ≤ i.toNat then illegalL h s
    else
      laneRun h [] (dstRun 1 d) [] (some d) (fun c s =>
        c.endL (c.put false d (c.lanes.map fun l => (l, [attrValue f m i.toNat l])) s)) s

/-! ## Derivatives (R283) -/

/-- The two lanes whose difference is a derivative in lane l. -/
def derivLanes (y fine : Bool) (l : Nat) : Nat × Nat :=
  let q := l / 4 * 4
  if y then
    let b := if fine then q + l % 2 else q
    (b + 2, b)
  else
    let b := if fine then q + l % 4 / 2 * 2 else q
    (b + 1, b)

/-- RoundNE of a difference. -/
def f32Diff (a b : Word) : Word × Flags := f32Sub ⟨false, .near⟩ a b

/-- DERIV. -/
def execDeriv (h : LHdr) (y fine : Bool) (d : Dst) (a : Src) (s : State) : Res :=
  if s.isRoof then illegalL h s
  else
    laneRun h (vDs 1 d) (dstRun 1 d ++ srcRun 1 a) [a] (some d) (fun c s =>
      let rs := c.lanes.map fun l =>
        let (p, q) := derivLanes y fine l
        (l, f32Diff (c.val s 0 a 0 p) (c.val s 0 a 0 q))
      c.endL (flagAll (rs.map fun r => r.2.2) (c.put false d (rs.map fun r => (r.1, [r.2.1])) s))) s

/-! ## Texture words -/

/-- The number of coordinates of a dimension. -/
def dimCoords : TexDim → Nat
  | .t2d => 2 | .t2darr => 3 | .t3d => 3
/-- The descriptor kind of a dimension. -/
def dimKind : TexDim → Nat
  | .t2d => 0 | .t2darr => 1 | .t3d => 2

/-- The registers of a result that the spec does not state: an infinite coordinate, a level of detail that is no number, or a
descriptor of another kind. -/
def freeRegs (s : State) (l n : Nat) : List Word :=
  (List.range n).map fun k => Config.unpredictable s.tick (1048576 + 8 * l + k)

/-- A texture word: each lane's coordinates are looked up in the descriptor and `f` gives its registers. -/
def laneTex (h : LHdr) (dim : TexDim) (d : Dst) (os : List Opd) (t : BitVec 16)
    (f : LCtx → State → Tex → Nat → Except (Nat × DWord) (List Word)) (s : State) : Res :=
  if s.isRoof then illegalL h s
  else
    let srcs := os.map fun o => o.1
    laneMem h (vDs 4 d) (dstRun 4 d ++ os.flatMap fun o => srcRun o.2 o.1) srcs none (fun c s =>
      let s := s.objAcquire
      let one (a : Outs × SMap (Byte × DWord)) (l : Nat) : Outs × SMap (Byte × DWord) :=
        let res : Except (Nat × DWord) (List Word) :=
          match texLookup s t.toNat with
          | .error code => .error (code, t.setWidth 64)
          | .ok x => if x.kind ≠ dimKind dim then .ok (freeRegs s l 4) else f c s x l
        match res with
        | .error e => (a.1, SMap.insert a.2 l (BitVec.ofNat 8 e.1, e.2))
        | .ok ws => (a.1 ++ [(l, ws)], a.2)
      let r := c.lanes.foldl one ([], [])
      c.endOr r.2 (c.put true d r.1 s)) s

/-- The coordinates of a lane. -/
def coordsOf (c : LCtx) (s : State) (dim : TexDim) (a : Src) (l : Nat) : List Word :=
  (List.range (dimCoords dim)).map fun k => c.val s 0 a k l

/-- The coordinates that take part in the level of detail: not the layer of an array. -/
def lodCoords (dim : TexDim) : Nat := if dim = .t3d then 3 else 2

/-- An infinite coordinate in the plane or volume of the texels: the spec states no result for it. A layer clamps (R288). -/
def farAway (dim : TexDim) (cs : List Word) : Bool := (cs.take (lodCoords dim)).any isInfinite

/-- R288: a coordinate; a NaN reads as 0. -/
def nanZero (w : Word) : Word := if (f32v w).isNaN then 0 else w

/-- TEXS: the level of detail comes from the coarse derivatives of the quad, plus the bias; the spec states none where infinities
of both signs meet. -/
def execTexs (h : LHdr) (dim : TexDim) (d : Dst) (a : Src) (t : BitVec 16) (s : State) : Res :=
  laneTex h dim d [(a, dim.regs)] t (fun c s x l =>
    let cs := coordsOf c s dim a l
    let diff (y : Bool) : List Word := (List.range (lodCoords dim)).map fun k =>
      let (p, q) := derivLanes y false l
      (f32Diff (nanZero (c.val s 0 a k p)) (nanZero (c.val s 0 a k q))).1
    let ds := diff false ++ diff true
    let steep := ds.any isInfinite
    if farAway dim cs || ds.any (fun w => (f32v w).isNaN) || (steep && x.bias = 0xFF800000) then .ok (freeRegs s l 4)
    else
      let lod : Rat := if steep then 2 ^ 200
        else match lodOf x ((diff false).map coordOf) ((diff true).map coordOf) with
          | none => if isInfinite x.bias then farOf x.bias else -32768
          | some q => q + farOf x.bias
      sampleTex s x (cs.map farOf) lod) s

/-- TEXL: the level of detail is B plus the bias. -/
def execTexl (h : LHdr) (dim : TexDim) (d : Dst) (a b : Src) (t : BitVec 16) (s : State) : Res :=
  laneTex h dim d [(a, dim.regs), (b, 1)] t (fun c s x l =>
    let cs := coordsOf c s dim a l
    let v := c.val s 1 b 0 l
    if farAway dim cs || opposed v x.bias then .ok (freeRegs s l 4)
    else sampleTex s x (cs.map farOf) (farOf v + farOf x.bias)) s

/-- TEXG. -/
def execTexg (h : LHdr) (dim : TexDim) (comp : BitVec 2) (d : Dst) (a : Src) (t : BitVec 16) (s : State) : Res :=
  laneTex h dim d [(a, dim.regs)] t (fun c s x l =>
    let cs := coordsOf c s dim a l
    if farAway dim cs then .ok (freeRegs s l 4) else gatherTex s x comp.toNat (cs.map farOf)) s

/-- R289: the pair TEXQ writes. -/
def texQuery (x : Tex) (ext : Bool) (l : Nat) : List Word :=
  if x.levels ≤ l then [0, 0]
  else if ext then [BitVec.ofNat 32 (x.slices l), BitVec.ofNat 32 x.levels]
  else [BitVec.ofNat 32 (levelDim x.width l), BitVec.ofNat 32 (levelDim x.height l)]

/-- TEXQ (R289). -/
def execTexq (h : LHdr) (ext : Bool) (d : Dst) (b : Src) (t : BitVec 16) (s : State) : Res :=
  if s.isRoof then illegalL h s
  else
    laneMem h (vDs 2 d) (dstRun 2 d ++ srcRun 1 b) [b] none (fun c s =>
      let s := s.objAcquire
      match texLookup s t.toNat with
      | .error code => c.endOr (c.lanes.map fun l => (l, (BitVec.ofNat 8 code, t.setWidth 64))) s
      | .ok x => c.endL (c.put true d (c.lanes.map fun l => (l, texQuery x ext (c.val s 0 b 0 l).toNat)) s)) s

/-! ## TRACE -/

/-- R290: the node base of a BVH index, or the code of the object fault. -/
def bvhBase (s : State) (idx : Nat) : Except Nat DWord :=
  match objCheck s s.g.ctx idx 5 true false with
  | .fault code => .error code
  | .ok ws => if (wordPair ws 2).toNat % 64 = 0 then .ok (wordPair ws 2) else .error 0x1B

/-- TRACE (R291). -/
def execTrace (h : LHdr) (any : Bool) (d : Dst) (a b : Src) (t : BitVec 16) (s : State) : Res :=
  if s.isRoof then illegalL h s
  else
    laneMem h (vDs 8 d) (dstRun 8 d ++ srcRun 4 a ++ srcRun 4 b) [a, b] none (fun c s =>
      let s := s.objAcquire
      match bvhBase s t.toNat with
      | .error code => c.endOr (c.lanes.map fun l => (l, (BitVec.ofNat 8 code, t.setWidth 64))) s
      | .ok base =>
        let one (x : Outs × List Flags × SMap (Byte × DWord)) (l : Nat) : Outs × List Flags × SMap (Byte × DWord) :=
          let run (i : Nat) (o : Src) : List Word := (List.range 4).map fun k => c.val s i o k l
          match traceRay s base any l (run 0 a) (run 1 b) with
          | .error e => (x.1, x.2.1, SMap.insert x.2.2 l (BitVec.ofNat 8 e.1, e.2))
          | .ok (ws, fl) => (x.1 ++ [(l, ws)], fl :: x.2.1, x.2.2)
        let r := c.lanes.foldl one ([], [], [])
        let s := (flagAll r.2.1 (c.put true d r.1 s)).countEvent s.g.ctx 0x12 c.lanes.length
        c.endOr r.2.2 s) s

/-! ## Exports -/

/-- R284: a colour of a lane replaces an earlier one for the same target. -/
def setColor (f : Frag) (l n : Nat) (bl : Blend) (ws : List Word) : Frag :=
  { f with colors := (f.colors.filter fun c => !(c.1 = l && c.2.1 = n)) ++ [(l, n, bl, ws)] }

/-- EXPC (R284); a helper lane's is ignored. -/
def execExpc (h : LHdr) (bl : Blend) (a : Src) (n : BitVec 3) (s : State) : Res :=
  match s.g.frag with
  | none => illegalL h s
  | some f =>
    if s.isRoof || drawTargets f.draw ≤ n.toNat then illegalL h s
    else
      laneRun h [] (srcRun 4 a) [a] none (fun c s =>
        let ls := c.lanes.filter fun l => SMap.get 0 f.cov l ≠ 0
        let f := ls.foldl (fun f l => setColor f l n.toNat bl ((List.range 4).map fun k => c.val s 0 a k l)) f
        c.endL (s.mapG fun g => { g with frag := some f })) s

/-- EXPZ (R284); a helper lane's is ignored. -/
def execExpz (h : LHdr) (a : Src) (s : State) : Res :=
  match s.g.frag with
  | none => illegalL h s
  | some f =>
    if s.isRoof then illegalL h s
    else
      laneRun h [] (srcRun 1 a) [a] none (fun c s =>
        let ls := c.lanes.filter fun l => SMap.get 0 f.cov l ≠ 0
        let f := { f with depth := ls.foldl (fun m l => SMap.insert m l (c.val s 0 a 0 l)) f.depth }
        c.endL (s.mapG fun g => { g with frag := some f })) s

end Sys2Proof.Machine
end

