-- ==== Sys2Proof/Machine/FragCommit.lean ====
section
/-! DEFINITION. What the end of a fragment group writes (R280, R284): the depth test, the depth and the colours of its
covered samples, group after group in launch order. -/

namespace Sys2Proof.Machine

/-! ## Targets (R276) -/

/-- A target entry: base, row pitch, format. -/
structure Target where
  base  : DWord
  pitch : Nat
  fmt   : Nat

/-- Entry i of a draw's target list: 0 depth, n + 1 colour target n. A format R287 does not list is answered with the
code of a malformed record. -/
def targetOf (s : State) (ctx rel : Nat) (d : List Word) (i : Nat) : State × Except (Nat × DWord) Target :=
  let a := wordPair d 12 + BitVec.ofNat 64 (16 * i)
  match engReadN s ctx rel a 16 with
  | (s, .error e) => (s, .error e)
  | (s, .ok bs) =>
    let ws := wordsOf bs
    let f := (ws.getD 3 0).toNat % 2 ^ 8
    (s, if 8 ≤ f || (i = 0 && f ≠ 2) then .error (0x1B, a)
      else .ok ⟨wordPair ws 0, (ws.getD 2 0).toNat, f⟩)

/-- The address of a sample of a pixel: samples of one pixel lie together, in sample order. -/
def Target.addr (t : Target) (log x y smp : Nat) : DWord :=
  t.base + BitVec.ofNat 64 (y * t.pitch + (x * 2 ^ log + smp) * texelBytes t.fmt)

/-! ## Colours (R284) -/

/-- The value a blend stores, for component i: s is the source, d the stored colour. -/
def blendValue (bl : Blend) (s d : List Word) (i : Nat) : XReal :=
  let sv (k : Nat) : XReal := f32v (s.getD k 0)
  let dv := f32v (d.getD i 0)
  match bl with
  | .replace => sv i
  | .add => XReal.add .near (sv i) dv
  | .over => XReal.add .near (sv i) (XReal.mul dv (XReal.add .near (.fin false 1) (sv 3).neg))

/-- A norm component: clamped to [0, 1], RoundNE(x × 255); a NaN stores 0. -/
def normByte (x : XReal) : Byte :=
  match x with
  | .fin _ q => BitVec.ofInt 8 (ratNearest (max 0 (min 1 q) * 255))
  | .inf n => if n then 0 else 255
  | _ => 0

/-- A float component: RoundNE; a NaN stores the canonical NaN. -/
def floatBytes (t : NType) (x : XReal) : List Byte :=
  leBytes (t.bits / 8) (if x.isNaN then fpNaN t else (fpRoundNE x t).1)

/-- R287: the components of a format that are stored. -/
def fmtComps (fmt : Nat) : Nat :=
  match fmt with
  | 0 => 4 | 1 => 4 | 2 => 1 | 3 => 2 | 4 => 4 | 5 => 1 | 6 => 2 | _ => 4

/-- The bytes of a component in a format. -/
def compBytes (fmt : Nat) (x : XReal) : List Byte :=
  if fmt = 0 || fmt = 1 || fmt = 5 then [normByte x] else if fmt = 3 || fmt = 4 then floatBytes .f16 x else floatBytes .f32 x

/-- The stored bytes of a blended colour over the bytes that stood there. -/
def blendBytes (fmt : Nat) (bl : Blend) (src : List Word) (old : List Byte) : List Byte :=
  let d := texelDecode fmt old
  (List.range (fmtComps fmt)).flatMap fun i => compBytes fmt (blendValue bl src d i)

/-! ## Depth -/

/-- The eight comparisons of Vulkan, in order. -/
def depthPasses (op : Nat) (z stored : Word) : Bool :=
  let c (k : FCond) : Bool := (fpCompare k (f32v z) (f32v stored)).1
  match op with
  | 0 => false | 1 => c .lt | 2 => c .eq | 3 => c .le | 4 => c .gt | 5 => c .ne | 6 => c .ge | _ => true

/-- R277: a depth clamped to [0, 1]; where it is a NaN the value is open. -/
def clampDepth (z : Word) : Word :=
  match f32v z with
  | .inf n => if n then 0 else 0x3F800000
  | _ => f32OfRat (max 0 (min 1 (ratOf32 z)))

/-- The depth of a sample of a lane: the last EXPZ, or z at the sample. -/
def sampleDepth (f : Frag) (l smp : Nat) : Word :=
  match SMap.find f.depth l with
  | some z => clampDepth z
  | none =>
    let (px, py) := SMap.get (0, 0) f.pix l
    let (sx, sy) := (sampleLocs (drawLogS f.draw)).getD smp (8, 8)
    clampDepth (interpRound f.prim (256 + smp) (px + 65536 * py)
      (.ofRat false (attrValue.fragDepth f (px + mkRat sx 16) (py + mkRat sy 16))))

/-! ## The commit of a sample, a group, a draw -/

/-- What committing ends with: code 0 is a full dirty log. -/
abbrev Commit := State × Option (Nat × DWord)

/-- The depth test and the depth write of a sample: whether it goes on. -/
def commitDepth (s : State) (ctx rel : Nat) (f : Frag) (l smp : Nat) : State × Except (Nat × DWord) Bool :=
  let w := drawW f.draw 11
  let test := w.testBit 6
  let write := w.testBit 10
  if !test && !write then (s, .ok true)
  else
    let (px, py) := SMap.get (0, 0) f.pix l
    match targetOf s ctx rel f.draw 0 with
    | (s, .error e) => (s, .error e)
    | (s, .ok t) =>
      let a := t.addr (drawLogS f.draw) px py smp
      let z := sampleDepth f l smp
      match (if test then engReadN s ctx rel a 4 else (s, .ok [])) with
      | (s, .error e) => (s, .error e)
      | (s, .ok old) =>
        if test && !depthPasses (w / 2 ^ 7 % 8) z (BitVec.ofNat 32 (leValue old)) then (s, .ok false)
        else if !write then (s, .ok true)
        else match engWriteN s ctx rel a (leBytes 4 z.toNat) with
          | (s, some e) => (s, .error e)
          | (s, none) => (s, .ok true)

/-- The colours of a sample, target by target; only a blend that uses the stored colour reads it. -/
def commitColors (s : State) (ctx rel : Nat) (f : Frag) (l smp : Nat) : List (Nat × Nat × Blend × List Word) → Commit
  | [] => (s, none)
  | c :: cs =>
    match targetOf s ctx rel f.draw (c.2.1 + 1) with
    | (s, .error e) => (s, some e)
    | (s, .ok t) =>
      let (px, py) := SMap.get (0, 0) f.pix l
      let a := t.addr (drawLogS f.draw) px py smp
      match (if c.2.2.1 = .replace then (s, .ok []) else engReadN s ctx rel a (texelBytes t.fmt)) with
      | (s, .error e) => (s, some e)
      | (s, .ok old) =>
        match engWriteN s ctx rel a (blendBytes t.fmt c.2.2.1 c.2.2.2 old) with
        | (s, some e) => (s, some e)
        | (s, none) => commitColors s ctx rel f l smp cs

/-- The covered samples of a group whose fragments are not killed: lane and sample. -/
def Frag.samples (f : Frag) : List (Nat × Nat) :=
  ((List.range 32).filter fun l => !f.killed.getLsbD l).flatMap fun l =>
    ((List.range (2 ^ drawLogS f.draw)).filter fun i => (SMap.get 0 f.cov l).testBit i).map fun i => (l, i)

/-- The samples of a list, one after another. -/
def commitSamples (s : State) (ctx rel : Nat) (f : Frag) : List (Nat × Nat) → Commit
  | [] => (s, none)
  | p :: ps =>
    match commitDepth s ctx rel f p.1 p.2 with
    | (s, .error e) => (s, some e)
    | (s, .ok false) => commitSamples s ctx rel f ps
    | (s, .ok true) =>
      match commitColors s ctx rel f p.1 p.2 (f.colors.filter fun c => c.1 = p.1) with
      | (s, some e) => (s, some e)
      | (s, none) => commitSamples s ctx rel f ps

/-- Changes a card. -/
def mapCard (s : State) (id : Nat) (f : Card → Card) : State :=
  { s with cards := s.cards.map fun c => if c.id = id then f c else c }
/-- The card with a number. -/
def card? (s : State) (id : Nat) : Option Card := s.cards.find? fun c => c.id = id

/-- R179, R399: the controller abandons a launch card: no further team starts, record 0x44, and FAULT once its teams have
ended. -/
def abandonLaunch (s : State) (k : Card) (code : Nat) (addr : DWord) : State :=
  let s := s.escalate k.slice { code := 0x44, inner := BitVec.ofNat 8 code, pasid := (s.ctx k.ctx).pasid, pc := k.addr, addr := addr }
  mapCard s k.id fun c => { c with
    status := 7
    launch := c.launch.map fun l => { l with next := l.teams, prim := drawW l.draw 4, ready := none, held := [] } }

/-- The group of a card with a launch number whose fragments wait to be committed. -/
def fragGroup (s : State) (k : Card) (lin : Nat) : Option Group :=
  let uids := (s.allTeams.filter fun t => t.live && t.card = k.id && t.ctx = k.ctx && t.lin = lin).map fun t => t.uid
  s.allGroups.find? fun g => uids.contains g.team && g.ended && g.frag.isSome

/-- R280: the ended groups of a draw commit in launch order; a full dirty log leaves the group to a later try. -/
def commitFrom (s : State) (id : Nat) : Nat → State
  | 0 => s
  | fuel + 1 =>
    match card? s id with
    | none => s
    | some k =>
      match k.launch with
      | none => s
      | some l =>
        match fragGroup s k l.commit with
        | none => s
        | some g =>
          match g.frag with
          | none => s
          | some f =>
            let rel := k.slice - (s.vf (k.ctx / 64)).first
            let pass (s : State) : State :=
              commitFrom ((mapCard s id fun c => { c with launch := some { l with commit := l.commit + 1 } }).mapGroups
                (fun x => x.uid = g.uid) fun x => { x with frag := none }) id fuel
            if k.status ≠ 0 then pass s
            else match commitSamples { s with writer := some (.card id) } k.ctx rel f f.samples with
              | (s', none) => pass (s'.served s.writer (.card id))
              | (s', some e) =>
                if e.1 = 0 then keepHold s s' (k.ctx / 64)
                else pass (abandonLaunch (s'.served s.writer (.card id)) k e.1 e.2)

/-- Every group that may commit now does. -/
def commitDraw (s : State) (id : Nat) : State := commitFrom s id s.allGroups.length

end Sys2Proof.Machine
end

