-- ==== Sys2Proof/Machine/ScalarMem.lean ====
section
/-! DEFINITION. The C-stream's memory words (R196–R198) and the LIMM pair (R77–R79). -/

namespace Sys2Proof.Machine

/-- R90: a long-latency result of the C-stream on its way. -/
def State.resultC (s : State) (dests : List (Nat × Word)) : State :=
  s.mapG fun g => g.addPend { strm := g.cStrm, dests := wholes dests, seq := s.tick }

/-- The two words of a 64-bit result. -/
def pairDests (g : Group) (d : SReg) (v : DWord) : List (Nat × Word) :=
  [(g.sKey d.toNat, v.extractLsb' 0 32), (g.sKey (d.toNat + 1), v.extractLsb' 32 32)]

/-- R397: a store that a full dirty log holds stays at its word. -/
def waitLogC (s : State) : Res := .next (s.parkC .held)

/-- R197, R125, R401: a plain load of n bytes by the C-stream: what follows gets the bytes. -/
def loadC (s : State) (va : DWord) (n : Nat) (k : State → List Byte → Res) : Res :=
  match s.xlate va n .rd with
  | (s, .fault code) => faultC s code va.toNat
  | (s, .full) => waitLogC s
  | (s, .ok key dup) =>
    if s.poisonedHere key n then faultC s 0x0D va.toNat
    else
      let (s, bs) := s.loadBytes key n .plain .grp dup
      k s bs

/-- LDS with its displacement, as a word of `len` bytes. -/
def ldsAt (w : Bool) (len : Nat) (d a : SReg) (disp : DWord) (s : State) : Res :=
  loadC s (s.g.rdP s.tick a + disp) 4 fun s bs =>
    .next ((s.resultC [(s.g.sKey d.toNat, BitVec.ofNat 32 (leValue bs))]).endC w len)

/-- STS with its displacement. -/
def stsAt (w : Bool) (len : Nat) (d a : SReg) (disp : DWord) (s : State) : Res :=
  let va := s.g.rdP s.tick a + disp
  let v := s.g.rdS s.tick d
  match s.xlate va 4 .wr with
  | (s, .fault code) => faultC s code va.toNat
  | (s, .full) => waitLogC s
  | (s, .ok key dup) => .next ((s.storeBytes key (leBytes 4 v.toNat) .grp dup).endC w len)

/-- R179: the base of the grid's constant bank. -/
def constBase (t : Team) : DWord := (t.constB.extractLsb' 15 49).setWidth 64 <<< 8
/-- R179: its size in bytes. -/
def constSize (t : Team) : Nat := 4 * (t.constB.toNat % 2 ^ 15)

/-- LDC with its offset term (R128): the constant cache, which is not the L1, gives the performed value. -/
def ldcAt (w : Bool) (len : Nat) (d a : SReg) (i : Word) (s : State) : Res :=
  let off : Int := (s.g.rdS s.tick a).toNat + i.toInt
  let va := constBase s.t + BitVec.ofInt 64 off
  if va.toNat % 4 ≠ 0 then faultC s 0x03 va.toNat
  else if off < 0 || (constSize s.t : Int) < off + 4 then faultC s 0x06 (BitVec.ofInt 64 off).toNat
  else
    match s.xlate va 4 .rd with
    | (s, .fault code) => faultC s code va.toNat
    | (s, .full) => waitLogC s
    | (s, .ok key _) =>
      if s.poisoned key 4 then faultC s 0x0D va.toNat
      else .next ((s.resultC [(s.g.sKey d.toNat, BitVec.ofNat 32 (s.rdMemNat key 4))]).endC w len)

/-- LDS. -/
def execLds (w : Bool) (d a : SReg) (i : BitVec 13) (s : State) : Res := ldsAt w 4 d a (i.signExtend 64) s
/-- STS. -/
def execSts (w : Bool) (d a : SReg) (i : BitVec 13) (s : State) : Res := stsAt w 4 d a (i.signExtend 64) s
/-- LDC. -/
def execLdc (w : Bool) (d a : SReg) (i : BitVec 13) (s : State) : Res := ldcAt w 4 d a (imm32 i) s

/-- R196: the test of TSTB. -/
def tstbHolds (t : TestKind) (x m : Word) : Bool :=
  match t with
  | .none => x &&& m = 0
  | .any => x &&& m ≠ 0
  | .eq => x = m

/-- R196: the predicate of TSTB, a long-latency result. -/
def tstbEnd (w : Bool) (q : QReg) (t : TestKind) (m : Word) (s : State) (bs : List Byte) : Res :=
  let v : Word := if tstbHolds t (BitVec.ofNat 32 (leValue bs)) m then 1 else 0
  .next ((s.resultC [(s.g.qKey q.toNat, v)]).endC w 4)

/-- R130, R196: the TSTB of an empty line: its predicate is to return once the line is full. -/
def tstbWait (w : Bool) (q : QReg) (t : TestKind) (m : Word) (o : Nat) (s : State) : Res :=
  .next ((s.mapG fun g => g.addPend
    { strm := g.cStrm, dests := wholes [(g.qKey q.toNat, 0)], test := some (o, t, m), seq := s.tick }).endC w 4)

/-- R196: TSTB. -/
def execTstb (w : Bool) (a b : SReg) (q : QReg) (sp : Bool) (t : TestKind) (s : State) : Res :=
  let m := s.g.rdS s.tick b
  if sp then
    let o := (s.g.rdS s.tick a).toNat
    if o % 4 ≠ 0 then faultC s 0x03 o
    else if !s.spIn o 4 then faultC s 0x05 o
    else if !s.spFull o 4 then tstbWait w q t m o s
    else tstbEnd w q t m s (s.spBytes o 4)
  else loadC s (s.g.rdP s.tick a) 4 fun s bs => tstbEnd w q t m s bs

/-- R198: the new value of ATOMS; for CAS `c` is the compare value and `x` the swap value. -/
def atomsNew (op : AtomOp) (old c x : DWord) : DWord :=
  match op with
  | .add => old + c
  | .min => if old.ule c then old else c
  | .max => if old.ule c then c else old
  | .and => old &&& c
  | .or => old ||| c
  | .xor => old ^^^ c
  | .exch => c
  | .cas => if old = c then x else old

/-- R198: ATOMS, a 64-bit atomic of order ar. -/
def execAtoms (w : Bool) (a b c : SReg) (op : AtomOp) (sc : Scope) : State → Res := afterLoads fun s =>
  let va := s.g.rdP s.tick b
  let x := s.g.rdP s.tick c
  let y := s.g.rdP s.tick (c + 2)
  match s.xlate va 8 .at with
  | (s, .fault code) => faultC s code va.toNat
  | (s, .full) => waitLogC s
  | (s, .ok key dup) =>
    if !op.carried && (s.peerOf key).isSome then faultC s 0x13 va.toNat
    else if s.poisonedHere key 8 then faultC s 0x0D va.toNat
    else
      let (s, old) := s.atomicBytes key 8 .ar sc dup fun o => (atomsNew op (BitVec.ofNat 64 o) x y).toNat
      .next ((s.resultC (pairDests s.g a (BitVec.ofNat 64 old))).endC w 4)

/-- R78: the pair executes as its follower does with the 39-bit value's immediate; `none` if the follower is not
one that may follow. -/
def limmPair (i : BitVec 26) (f : Instr) (s : State) : Option Res :=
  let imm (j : BitVec 13) : Word := (i ++ j).extractLsb' 0 32
  let disp (j : BitVec 13) : DWord := (i ++ j).signExtend 64
  match f with
  | .addi w d a j => some (immOp (· + ·) w 8 d a (imm j) s)
  | .muli w d a j => some (immOp (· * ·) w 8 d a (imm j) s)
  | .andi w d a j => some (immOp (· &&& ·) w 8 d a (imm j) s)
  | .ori w d a j => some (immOp (· ||| ·) w 8 d a (imm j) s)
  | .xori w d a j => some (immOp (· ^^^ ·) w 8 d a (imm j) s)
  | .movi w d j => if j.extractLsb' 13 6 = 0 then some (writeS w 8 d (imm (j.extractLsb' 0 13)) s) else none
  | .cmpi w c q a j => some (cmpImm w 8 c q a (imm j) s)
  | .lds w d a j => some (ldsAt w 8 d a (disp j) s)
  | .sts w d a j => some (stsAt w 8 d a (disp j) s)
  | .ldc w d a j => some (ldcAt w 8 d a (imm j) s)
  | _ => none

/-- R77–R79: LIMM fetches its follower and issues with it as one instruction; a fault of the pair is reported at
the LIMM. -/
def execLimm (i : BitVec 26) (s : State) : Res :=
  match fetchC s (s.g.pc + 4) with
  | .fault s code addr => faultC s code addr.toNat
  | .word s w =>
    match decodeC w with
    | .error _ => illegalC s
    | .ok f => (limmPair i f s).getD (illegalC s)

end Sys2Proof.Machine
end

