-- ==== Sys2Proof/Machine/Sync.lean ====
section
/-! DEFINITION. Dispatching lane blocks (R199, R200, R35), fences and team barriers (R202, R205), translation
registers (R206, R207, R371) and the task heap (R63–R66, R208). -/

namespace Sys2Proof.Machine

/-! ## Lane blocks -/

/-- R70, R199: the fifteen or sixteen registers a dispatch captures. -/
def captureT (g : Group) : SMap TReg := (List.range 16).foldl (fun m i => SMap.set {} m i (g.rdT i)) []

/-- R35, R362: the depth of the lane queue of the running mode. -/
def queueDepth (g : Group) : Nat := if g.inHandler then 1 else 8

/-- LRUN. -/
def execLrun (w : Bool) (a : SReg) (i : BitVec 19) (s : State) : Res :=
  let n := s.g.rdS s.tick a + i.setWidth 32
  if queueDepth s.g ≤ s.g.curQueue.length then .next (s.parkC .lrun)
  else .next ((s.mapG fun g => g.setQueue (g.curQueue ++ [{ addr := n, caps := captureT g }])).endC w 4)

/-- Every block dispatched by the running mode has ended. -/
def blocksDone (g : Group) : Bool := g.curQueue.isEmpty

/-- LWAIT. -/
def execLwait (w : Bool) (s : State) : Res :=
  if blocksDone s.g then .next (s.endC w 4) else .next (s.parkC .lwait)

/-- R35, R46, R278: the mask with which a block starts: all lanes, or a fragment group's covered lanes' quads. -/
def blockMask (g : Group) : Word :=
  match g.frag with
  | none => BitVec.allOnes 32
  | some f => if g.inHandler then BitVec.allOnes 32 else maskOf ((List.range 32).filter fun l => f.pix.any fun e => e.1 = l) &&& ~~~f.killed

/-- BLOCK_START: the oldest dispatch starts, once no split of the block before it is left. -/
def execBlockStart (s : State) : Res :=
  match s.g.curQueue, s.g.curSplits with
  | b :: _, [] => .next (s.mapG fun g => g.setSplits [{ idx := 0, pc := b.addr, mask := blockMask g }])
  | _, _ => .next s

/-! ## Fences and barriers of groups -/

/-- FENCE: every kind orders the loads before it. -/
def execFence (w : Bool) (sc : Scope) (k : FenceKind) : State → Res := afterLoads fun s => .next ((s.fence k sc).endC w 4)

/-- R205: whether every group of a list that has not ended has reached the k-th barrier. -/
def allReached (gs : List Group) (count : Group → Nat) (k : Nat) : Bool :=
  gs.all fun g => g.ended || k ≤ count g

/-- R205: the arrival at a team barrier, counted once the blocks dispatched before it have ended and every earlier access is performed;
until then the word waits as LWAIT does, and stands parked at the barrier. -/
def arriveAt (k : ParkKind) (f : Group → Group) (pre : State → State) (s : State) : State :=
  if s.g.arrived then s
  else if blocksDone s.g && !s.g.loadsDue then ((pre s).mapG fun g => { f g with arrived := true }).parkC k
  else s.parkC k

/-- TEAMBAR: the wait of LWAIT, the arrival, then the wait for every group of the team. An ar fence at team scope
does nothing beyond the L1 the team shares. -/
def execTeambar (w : Bool) (s : State) : Res :=
  if s.g.inHandler then illegalC s
  else
    let s := arriveAt .teambar (fun g => { g with barCnt := g.barCnt + 1 }) id s
    if s.g.arrived && allReached s.teamGroups (·.barCnt) s.g.barCnt then .next (s.endC w 4) else .next s

/-- R205: the groups of the issuing group's grid: those of every resident team of its card, and those of its saved teams. -/
def gridGroups (s : State) : List Group :=
  let mine (t : Team) : Bool := t.cardAddr = s.t.cardAddr && t.ctx = s.t.ctx
  let uids := (s.allTeams.filter fun t => t.live && mine t).map fun t => t.uid
  let saved := (s.keptT.filter fun k => mine k.t).map fun k => k.t.uid
  (s.allGroups.filter fun g => uids.contains g.team) ++ ((s.kept.map fun k => k.g).filter fun g => saved.contains g.team)

/-- GRIDBAR: as TEAMBAR over the grid, at prt scope; only in a co-resident grid (R52). -/
def execGridbar (w : Bool) (s : State) : Res :=
  if s.g.inHandler || !s.t.cores then illegalC s
  else
    let s := arriveAt .gridbar (fun g => { g with gridCnt := g.gridCnt + 1 }) (fun s => s.fence .rel .prt) s
    if s.g.arrived && allReached (gridGroups s) (·.gridCnt) s.g.gridCnt then
      .next ((s.fence .acq .prt).endC w 4)
    else .next s

/-! ## Translation registers -/

/-- TBIND (R206). -/
def execTbind (w : Bool) (t : BitVec 4) (b c : SReg) (s : State) : Res :=
  let base := s.g.rdP s.tick b
  let want := s.g.rdS s.tick c
  if want.extractLsb' 2 30 ≠ 0 || want.extractLsb' 0 2 = 0 then illegalC s
  else
    let s := if canonical base then s.countEvent s.g.ctx 0x0D 1 else s
    match bindBase s s.g.ctx base (want.extractLsb' 0 2) with
    | .error code => faultC s code base.toNat
    | .ok r => .next ((s.mapG fun g => g.wrT t.toNat r).endC w 4)

/-- TDROP (R207). -/
def execTdrop (w : Bool) (t : BitVec 4) (s : State) : Res :=
  .next ((s.mapG fun g => g.wrT t.toNat {}).endC w 4)

/-- R398: the address kept for a fault of OBJLD: the index for an object fault, the base for a translation fault. -/
def objldAddr (s : State) (idx code : Nat) : Nat :=
  if 0x18 ≤ code then idx
  else match objCheck s s.g.ctx idx 1 false false with
    | .ok ws => (wordPair ws 2).toNat
    | .fault _ => idx

/-- OBJLD (R207, R371). -/
def execObjld (w : Bool) (t : BitVec 4) (b : SReg) (s : State) : Res :=
  let v := s.g.rdS s.tick b
  if v.extractLsb' 16 16 ≠ 0 then illegalC s
  else
    let s := s.objAcquire
    match bindObj s s.g.ctx v.toNat with
    | .error code => faultC (if 0x18 ≤ code then s else s.countEvent s.g.ctx 0x0D 1) code (objldAddr s v.toNat code)
    | .ok r => .next (((s.countEvent s.g.ctx 0x0D 1).mapG fun g => g.wrT t.toNat r).endC w 4)

/-! ## The task heap -/

/-- R64: an entry ranks before another. -/
def HeapEntry.before (a b : HeapEntry) : Bool := a.key.ult b.key || (a.key = b.key && a.seq ≤ b.seq)

/-- Inserts by rank. -/
def heapInsert (e : HeapEntry) : List HeapEntry → List HeapEntry
  | [] => [e]
  | x :: xs => if e.before x then e :: x :: xs else x :: heapInsert e xs

/-- R63, R64: the entries of a context in a heap, in rank order. -/
def heapOf (sl : Slice) (ctx : Nat) : List HeapEntry :=
  (sl.heap.filter fun e => e.ctx = ctx).foldl (fun l e => heapInsert e l) []

/-- R65, R51: the group of a context that has waited longest in a slice in HEAPTAKE or HEAPADD and has not been served; a frozen or
halted group's wait stands still. -/
def oldestWaiter (s : State) (sl ctx : Nat) (k : ParkKind) : Option Group :=
  let ws := s.allGroups.filter fun g => groupRuns s g && g.park = k && g.heapW.got.isNone && g.ctx = ctx &&
    (match s.team? g.team with | some t => t.ppos / 128 = sl | none => false)
  ws.foldl (fun o g => match o with | none => some g | some h => if g.parkSeq < h.parkSeq then some g else some h) none

/-- R65: the heap has served a waiting group. -/
def heapGive (s : State) (uid : Nat) (e : Word × Word) : State :=
  s.mapGroups (fun g => g.uid = uid) fun g => { g with heapW := { g.heapW with got := some e } }

/-- The sequence number of the next entry of a heap. -/
def nextSeq (s : State) (sl : Slice) : Nat := sl.heap.foldl (fun n e => max n (e.seq + 1)) (65536 * s.tick)

/-- R63: an entry is inserted in the heap of a slice. -/
def heapPut (s : State) (sl ctx : Nat) (e : Word × Word) : State :=
  let c := s.slice sl
  s.setSlice { c with heap := c.heap ++ [{ ctx := ctx, key := e.1, val := e.2, seq := nextSeq s c }] }

/-- R64: the entry that a take removes: one of the eight lowest ranks, by a free choice. -/
def heapPick (s : State) (sl ctx : Nat) : Option HeapEntry :=
  let es := heapOf (s.slice sl) ctx
  es[Config.heapPick (s.tick + es.length) % min 8 es.length]?

/-- R64: the entry is removed. -/
def heapDrop (s : State) (sl ctx : Nat) (e : HeapEntry) : State :=
  let c := s.slice sl
  s.setSlice { c with heap := c.heap.filter fun x => !(x.ctx = ctx && x.seq = e.seq) }

/-- R63: whether a context's entries in a slice are below its quota. -/
def heapRoom (s : State) (sl ctx : Nat) : Bool := ((s.slice sl).heap.filter fun e => e.ctx = ctx).length < (s.ctx ctx).quota

/-- R65: the heap of a context in a slice serves its waiters, the oldest first: takers while there are entries, adders while there is
room. -/
def serveHeap (sl ctx : Nat) : Nat → State → State
  | 0, s => s
  | n + 1, s =>
    match heapPick s sl ctx, oldestWaiter s sl ctx .heaptake with
    | some e, some g => serveHeap sl ctx n (heapGive (heapDrop s sl ctx e) g.uid (e.key, e.val))
    | _, _ =>
      match (if heapRoom s sl ctx then oldestWaiter s sl ctx .heapadd else none) with
      | none => s
      | some g =>
        match g.heapW.put with
        | none => s
        | some e => serveHeap sl ctx n (heapGive (heapPut s sl ctx e) g.uid e)

/-- R65: the heap that the issuing group uses serves its waiters. -/
def State.heapServe (s : State) : State := serveHeap s.sliceId s.g.ctx (2 * s.allGroups.length) s

/-- R208: HEAPADD has inserted its entry. -/
def heapAdded (w : Bool) (q : QReg) (s : State) : Res := .next ((s.mapG fun g => g.wrQ q true).endC w 4)

/-- HEAPADD, a release at slc scope (R66): inserted at once if there is room after the waiters before it; else its waiting form is
inserted in its turn. -/
def execHeapadd (w : Bool) (a b : SReg) (wait : Bool) (q : QReg) : State → Res := afterLoads fun s =>
  let s := s.heapServe
  let e := (s.g.rdS s.tick a, s.g.rdS s.tick b)
  if s.g.park = .heapadd && s.g.heapW.got.isSome then heapAdded w q s
  else if heapRoom s s.sliceId s.g.ctx then
    heapAdded w q (heapPut (s.scopeWriteBack .slc) s.sliceId s.g.ctx e).heapServe
  else if wait then .next (((s.scopeWriteBack .slc).parkC .heapadd).mapG fun g => { g with heapW := { put := some e } })
  else .next ((s.mapG fun g => g.wrQ q false).endC w 4)

/-- R66, R208: HEAPTAKE has an entry: an acquire at slc scope. -/
def heapTaken (w : Bool) (a b : SReg) (q : QReg) (e : Word × Word) (s : State) : Res :=
  let s := s.acquire .slc
  .next ((s.mapG fun g => g.addPend
    { strm := g.cStrm, dests := wholes [(g.sKey a.toNat, e.1), (g.sKey b.toNat, e.2), (g.qKey q.toNat, 1)], seq := s.tick }).endC w 4)

/-- HEAPTAKE: an entry of the eight lowest ranks (R64) that the waiters before it have left; its waiting form is served in its turn. -/
def execHeaptake (w : Bool) (a b : SReg) (wait : Bool) (q : QReg) (s : State) : Res :=
  let s := s.heapServe
  match (if s.g.park = .heaptake then s.g.heapW.got else none), heapPick s s.sliceId s.g.ctx with
  | some e, _ => heapTaken w a b q e s
  | none, some e => heapTaken w a b q (e.key, e.val) (heapDrop s s.sliceId s.g.ctx e).heapServe
  | none, none =>
    if wait then .next (s.parkC .heaptake)
    else .next ((s.mapG fun g => g.addPend { strm := g.cStrm, dests := wholes [(g.qKey q.toNat, 0)], seq := s.tick }).endC w 4)

end Sys2Proof.Machine
end

