-- ==== Sys2Proof/Machine/Results.lean ====
section
/-! DEFINITION. The return of a long-latency result (R91), and the moments that let a parked word issue again. -/

namespace Sys2Proof.Machine

/-- Replaces the k-th element. -/
def setAt {α : Type} (l : List α) (k : Nat) (x : α) : List α := l.set k x

/-- R91: the k-th result on its way is written to its destinations. -/
def landResult (s : State) (k : Nat) (p : Pend) : State :=
  s.mapG fun g =>
    let g := { g with pend := setAt g.pend k { p with returned := true, recv := none, test := none } }
    settleSplits (p.dests.foldl Group.land g).wake

/-- Whether a result still waits for what it needs: an entry (R38), a full line (R196), or the word itself (R86, R130). -/
def Pend.waits (p : Pend) : Bool := p.recv.isSome || p.test.isSome || p.late.isSome

/-- R38: a receive returns once its entry is present and its turn has come. -/
def returnRecv (s : State) (k : Nat) (p : Pend) (c : Nat) (peek : Bool) : State :=
  match chHead s c p.seq with
  | none => s
  | some v =>
    let s := if peek then s else chDrop s c 1
    landResult s k { p with dests := p.dests.map fun d => { d with val := v } }

/-- R196: a TSTB returns once its line is full. -/
def returnTest (s : State) (k : Nat) (p : Pend) (o : Nat) (t : TestKind) (x : Word) : State :=
  if s.spFull o 4 then
    let b := tstbHolds t (BitVec.ofNat 32 (s.spNat o 4)) x
    landResult s k { p with dests := p.dests.map fun d => { d with val := if b then 1 else 0 } }
  else s

/-- R130, R196: a TSTB whose line has become full reads it at once: its predicate is then a result on its way. -/
def testPerformed (s : State) (g : Group) (p : Pend) : Pend :=
  match p.test with
  | none => p
  | some (o, t, x) =>
    if winFull s g.team o 4 then
      let b := tstbHolds t (BitVec.ofNat 32 (leValue (winRead s g.team o 4))) x
      { p with test := none, dests := p.dests.map fun d => { d with val := if b then 1 else 0 } }
    else p

/-- The TSTBs of every group that can read are performed. -/
def performTests (s : State) : State :=
  s.mapGroups (fun g => g.live && g.pend.any fun p => p.test.isSome) fun g => { g with pend := g.pend.map (testPerformed s g) }

/-- LONG_LATENCY_RETURN: the k-th result of the issuing group returns; one that still waits for an entry or a line returns
once it is there; a lane word that waits is tried by `issueL`. -/
def execLongLatencyReturn (k : Nat) (s : State) : Res :=
  match s.g.pend[k]? with
  | none => .next s
  | some p =>
    if p.returned || p.late.isSome then .next s
    else match p.recv, p.test with
      | some (c, peek), _ => .next (returnRecv s k p c peek)
      | none, some (o, t, x) => .next (returnTest s k p o t x)
      | none, none => .next (landResult s k p)

/-- R156: the results outstanding at a halt return, those that still wait apart. -/
def settleResults (g : Group) : Group :=
  let g := g.pend.foldl (fun g p => if p.returned || p.waits then g else p.dests.foldl Group.land g) g
  settleSplits (Group.wake { g with pend := g.pend.map fun p => if p.waits then p else { p with returned := true } })

/-- R81, R361: HANDLER_ENTRY: an engine's fault is taken once the group stands in user mode at a boundary. -/
def execHandlerEntry (s : State) : Res :=
  if s.g.mode = .user && groupRuns s s.g then .next (takeEngineFault s) else .next s

/-- SLEEP_EXPIRE: a SLEEP whose end time has come goes on; its W, if any, was of no results. -/
def execSleepExpire (s : State) : Res :=
  if s.g.park = .sleep && (match s.g.sleepEnd with | some t => t ≤ s.now | none => true) then
    .next (s.mapG fun g => { g with park := .none })
  else .next s

end Sys2Proof.Machine
end

