-- ==== Sys2Proof/Machine/Teams.lean ====
section
/-! DEFINITION. The life of a team: the resources of a core (R32, R480), its start (R28, R34), the end of a group and
of a team (R48, R194), the EXITTO successor (R60–R62), and what a context leaves in a cluster (R340, R419). -/

namespace Sys2Proof.Machine

/-! ## Resources of a core -/

/-- The resident teams of a core. -/
def teamsOn (s : State) (p : Nat) : List Team := s.allTeams.filter fun t => t.live && t.ppos = p && t.ngrp ≠ 0

/-- The groups that hold a slot on a core. -/
def groupsOn (s : State) (p : Nat) : List Group :=
  let uids := (teamsOn s p).map fun t => t.uid
  s.allGroups.filter fun g => g.live && !g.ended && uids.contains g.team

/-- R32: what is free on a core. -/
def coreFree (s : State) (p : Nat) : Need :=
  let o := coreOffer (p % 8 = 4)
  let gs := groupsOn s p
  ⟨o.slots - gs.length, o.units - (gs.map fun g => g.budget / 8).sum, o.window - ((teamsOn s p).map fun t => t.wsize).sum⟩

/-- R480: the lowest-numbered free slots of a core, n of them. -/
def freeSlots (s : State) (p n : Nat) : List Nat :=
  let used := (groupsOn s p).map fun g => g.slot
  ((List.range (coreOffer (p % 8 = 4)).slots).filter fun i => !used.contains i).take n

/-- R48: what ended teams have left behind is gone, of those that satisfy `p`. -/
def dropRemainsOf (s : State) (p : Team → Bool) : State :=
  let dead := (s.allTeams.filter fun t => !t.live && p t).map fun t => t.uid
  { s with
    ts := s.ts.filter fun t => t.live || !dead.contains t.uid
    gs := s.gs.filter fun g => g.live || !dead.contains g.team
    t := if !s.t.live && p s.t then {} else s.t
    g := if !s.g.live && dead.contains s.g.team then { uid := s.g.uid } else s.g }

/-- What an ended team has left on a core is overwritten once a team takes place there (R48). -/
def dropRemains (s : State) (p : Nat) : State := dropRemainsOf s fun t => t.ppos = p

/-- R275: a team start on the roof core wakes the roof domain, and its groups wait for the wake: the clock from which they may
issue. -/
def wakeRoofFor (s : State) (p startAt : Nat) : State × Nat :=
  if p % 8 = 4 then
    let s := wakeRoof s (p / 8)
    (s, max startAt ((s.cluster (p / 8)).wakeAt.getD 0))
  else (s, startAt)

/-- R154: a team that starts sees what was released to it: its core's clean bytes are invalidated. -/
def startAcquire (s : State) (p : Nat) : State := s.l1Invalidate (if (s.cluster (p / 8)).fused then p / 8 * 8 + 7 else p)

/-- R27, R28, R34: a team of a launch starts on a core. -/
def startTeam (s : State) (l : Launch) (ctx card cardAddr lin p startAt : Nat) (q : Nat × Nat) (chain : Bool) : State :=
  let uid := s.nextId
  let (s, startAt) := wakeRoofFor (startAcquire (dropRemains s p) p) p startAt
  let t : Team :=
    { uid := uid, live := true, ctx := ctx, ngrp := l.ngrp, cores := attrCores l.attr, chain := chain,
      l1fuse := attrFuse l.attr, roof := p % 8 = 4, card := card, cardAddr := BitVec.ofNat 64 cardAddr, lin := lin,
      qidx := q.1, qslice := q.2, gx := l.gx, gy := l.gy, gz := l.gz, ltext := l.ltext, entry := l.entry,
      attr := l.attr, constB := l.constB, ppos := p, wsize := l.smem, started := startAt, lastIssue := s.now,
      regs := l.need.units, startAt := startAt }
  let slots := freeSlots s p l.ngrp
  let roles := (List.zip (List.range l.roles.length) l.roles).flatMap fun r => List.replicate r.2.1 (r.1, r.2.2)
  let mk (i : Nat) (r : Nat × Nat) : Group :=
    { uid := uid + 1 + i, live := true, ctx := ctx, team := uid, gid := BitVec.ofNat 4 i, role := BitVec.ofNat 2 r.1,
      budget := r.2, slot := slots.getD i 0, pc := l.entry, srCtr := startCtr i lin, lastC := s.clk }
  { s with nextId := uid + 1 + l.ngrp, ts := s.ts ++ [t], gs := s.gs ++ roles.mapIdx mk }

/-! ## The end of a team -/

/-- R340, R419: when the last resident team of a context leaves a cluster, its roof store, chimney entries and Sinter
slots there are saved. -/
def leaveCluster (s : State) (ctx cl : Nat) : State :=
  if s.allTeams.any fun t => t.live && t.ctx = ctx && t.ppos / 8 = cl then s
  else leaveSlots (saveArea s ctx cl) ctx cl

/-- R256: the banks a team holds become free, without being cleared. -/
def Cluster.dropTeam (c : Cluster) (uid : Nat) : Cluster :=
  let free (b : Bank) : Bank := if b.holder = some uid then { b with holder := none } else b
  { c with bank0 := free c.bank0, bank1 := free c.bank1, last := c.last.filter fun l => l.team ≠ uid }

/-- Removes a team and its groups. -/
def removeTeam (s : State) (uid : Nat) : State :=
  match s.team? uid with
  | none => s
  | some t =>
    let s := { s with
      clusters := s.clusters.map fun c => c.dropTeam uid
      t := if s.t.uid = uid then {} else s.t
      g := if s.g.team = uid then { uid := s.g.uid } else s.g
      ts := s.ts.filter fun x => x.uid ≠ uid
      gs := s.gs.filter fun g => g.team ≠ uid }
    leaveCluster s t.ctx (t.ppos / 8)

/-- R48, R348: an ended team frees what it held. Its registers and its window stand as they were, out of use, until another team
takes place on its core. -/
def retireTeam (s : State) (uid : Nat) : State :=
  match s.team? uid with
  | none => s
  | some t =>
    let s := { s with clusters := s.clusters.map fun (c : Cluster) => c.dropTeam uid }
    let s := (s.mapTeams (fun x => x.uid = uid) fun x => { x with live := false }).mapGroups (fun g => g.team = uid) fun g =>
      { g with live := false }
    leaveCluster s t.ctx (t.ppos / 8)

/-- Whether something of an ended team still runs: a copy into its window, a matrix or Flowstone command. -/
def teamBusy (s : State) (t : Team) : Bool :=
  s.copies.any (fun c => c.team = t.uid && c.card.isNone) || s.clusters.any (fun c => c.queue.any fun m => m.team = t.uid)
    || !t.splat.isEmpty || s.allGroups.any (fun g => g.team = t.uid && g.frag.isSome)
    || s.slices.any fun c => c.binds.any fun b => b.card.isNone && b.team = t.uid && b.rows < b.tileRows

/-- R48: an ended team without a successor frees its window once its copies have completed. -/
def reapTeam (s : State) (uid : Nat) : State :=
  match s.team? uid with
  | none => s
  | some t => if t.ended && t.succ.isNone && !teamBusy s t then retireTeam s uid else s

/-- R280: what the end of a fragment group commits, and the teams that end with it. -/
def commitTeams (s : State) (card : Nat) : State :=
  let s := commitDraw s card
  ((s.allTeams.filter fun t => t.live && t.card = card && t.ended).map fun t => t.uid).foldl reapTeam s

/-- R60: the successor record of a team: that of its lowest-numbered group that used EXITTO. -/
def successorOf (s : State) (uid : Nat) : Option (DWord × Word) :=
  let gs := s.allGroups.filter fun g => g.team = uid && g.exitto.isSome
  let ids := List.range 16
  (ids.findSome? fun i => gs.find? fun g => g.gid.toNat = i).bind fun g => g.exitto

/-- R48: the group that issues ends: it keeps its id and frees its slot and registers; the team ends with its last
group. -/
def endGroup (s : State) : State :=
  let s := s.mapG fun g =>
    { g with ended := true, exiting := false, park := .none, laneq := [], splits := [], pend := [], claim := none, faults := [],
             yieldTo := [] }
  if s.teamGroups.all fun g => g.ended then
    let succ := successorOf s s.t.uid
    let s1 := s.mapT fun t => { t with ended := true, succ := succ }
    if s.g.frag.isSome then commitTeams s1 s.t.card else reapTeam s1 s.t.uid
  else s

/-- R48: whether a group may end: its blocks have ended and its results have returned. Its stores stand in its L1 or
beyond, so they are performed at group scope. -/
def mayEnd (g : Group) : Bool := g.laneq.isEmpty && g.splits.isEmpty && g.pend.all fun p => p.returned

/-- R194: EXIT and EXITTO end the group, or park until it may end. -/
def exitGroup (s : State) : Res :=
  if mayEnd s.g then .next (endGroup s) else .next ((s.mapG fun g => { g with exiting := true }).parkC .exit)

/-- EXIT. -/
def execExit (_w : Bool) (s : State) : Res := if s.g.inHandler then illegalC s else exitGroup s

/-- EXITTO. -/
def execExitto (_w : Bool) (a b : SReg) (s : State) : Res :=
  let card := s.g.rdP s.tick a
  let arg := s.g.rdS s.tick b
  if s.g.inHandler || !s.t.chain then illegalC s
  else if card.toNat % 64 ≠ 0 then faultC s 0x03 card.toNat
  else exitGroup (s.mapG fun g => { g with exitto := some (card, arg) })

/-- GROUP_END: a group parked in EXIT or EXITTO ends once it may; a fault that an engine has delivered to it is taken first
(R79, R163), at this boundary. -/
def execGroupEnd (s : State) : Res :=
  if s.g.exiting && s.g.park = .exit && mayEnd s.g && groupRuns s s.g then
    .next (if s.g.mode = .user && !s.g.faults.isEmpty then takeEngineFault s else endGroup s)
  else .next s

/-! ## Units of a copy -/

/-- R376, R379: copies go on for teams that are not frozen, and for saved ones; the copy of a frozen context does not. -/
def copyTeamRuns (s : State) (c : Copy) : Bool := !(s.ctx c.ctx).frozen

/-- COPY_UNIT_ARRIVE. -/
def execCopyUnitArrive (copy : Nat) (s : State) : Res :=
  match s.copies.find? fun c => c.id = copy with
  | none => .next s
  | some c =>
    if (s.slice c.slice).cpyFrozen.contains (c.id % 2) || !copyTeamRuns s c then .next s
    else .next (settleRedir (reapTeam (copyAdvance s c) c.team) c.team)

/-- COPY_PAGE_FAULT: the translation of the copy's next unit fails, and the copy stops. -/
def execCopyPageFault (copy : Nat) (s : State) : Res :=
  match s.copies.find? fun c => c.id = copy with
  | none => .next s
  | some c =>
    if c.fault.isSome || c.total ≤ c.done then .next s
    else match copyUnit s c (copyStep c) with
      | .fault s code x => .next (settleRedir (stopCopy s c code x) c.team)
      | _ => .next s

/-! ## The successor -/

/-- R62: no successor starts: the window and banks are freed, and the controller gets a chain fault. -/
def chainFault (s : State) (t : Team) (card : DWord) : State :=
  let s := s.escalate (t.ppos / 128) { code := 0x42, pasid := (s.ctx t.ctx).pasid, addr := card }
  reapTeam (s.mapTeams (fun u => u.uid = t.uid) fun u => { u with succ := none }) t.uid

/-- R61: the successor team takes the place of its predecessor: window, full/empty bits, banks, numbers and attributes
stay; every group's s0 holds the argument. -/
def placeSuccessor (s : State) (t : Team) (l : Launch) (chain : Bool) (arg : Word) : State :=
  let s := startAcquire s t.ppos
  let s := { s with
    clusters := s.clusters.map fun c => { c with last := c.last.filter fun x => x.team ≠ t.uid }
    gs := s.gs.filter fun g => g.team ≠ t.uid
    g := if s.g.team = t.uid then { uid := s.g.uid } else s.g }
  let slots := freeSlots s t.ppos l.ngrp
  let roles := (List.zip (List.range l.roles.length) l.roles).flatMap fun r => List.replicate r.2.1 (r.1, r.2.2)
  let mk (i : Nat) (r : Nat × Nat) : Group :=
    { uid := s.nextId + i, live := true, ctx := t.ctx, team := t.uid, gid := BitVec.ofNat 4 i, role := BitVec.ofNat 2 r.1,
      budget := r.2, slot := slots.getD i 0, pc := l.entry, s := SMap.set 0 [] 0 arg, srCtr := startCtr i t.lin,
      lastC := s.clk }
  let s := { s with nextId := s.nextId + l.ngrp, gs := s.gs ++ roles.mapIdx mk }
  s.mapTeams (fun u => u.uid = t.uid) fun u =>
    { u with
      ngrp := l.ngrp, chain := chain, ltext := l.ltext, entry := l.entry, constB := l.constB, wsize := l.smem,
      sp := SMap.clear u.sp l.smem 0x100000, emptyL := u.emptyL.filter fun x => x < l.smem / 128, chans := [],
      ended := false, succ := none, regs := l.need.units, started := s.clk, startAt := 0, lastIssue := s.now }

/-- R32: whether a core has the slots and register units of a successor free; its window is its predecessor's. -/
def successorFits (s : State) (t : Team) (l : Launch) : Bool :=
  l.need.slots ≤ (coreFree s t.ppos).slots && l.need.units ≤ (coreFree s t.ppos).units

/-- SUCCESSOR_START: the issuing team's successor card is read and checked once the matrix commands of the team have
completed (R61, R62). DESIGN CHOICE (log 17): a card that R179 would complete with BADCARD raises the chain fault too; and where
the ended groups' slots or units have gone to another team, the successor waits until the core has them free (R32). A frozen context's
waits for the thaw (R379). -/
def execSuccessorStart (s : State) : Res :=
  let t := s.t
  match t.succ with
  | none => .next s
  | some (card, arg) =>
    if !t.ended || ctxFrozen s t.ctx || s.clusters.any (fun c => c.queue.any fun m => m.team = t.uid) then .next s
    else
      let rel := t.ppos / 128 - (s.vf (t.ctx / 64)).first
      match engReadN s t.ctx rel card 64 with
      | (s, .error _) => .next (chainFault s t card)
      | (s, .ok bs) =>
        let ws := wordsOf bs
        match engReadN s t.ctx rel (cardKernel ws) 64 with
        | (s, .error _) => .next (chainFault s t card)
        | (s, .ok ks) =>
          let l := launchOf ws (wordsOf ks)
          let q := SMap.get {} (s.slice t.qslice).queues t.qidx
          if (ws.getD 1 0).toNat % 256 ≠ 1 || launchBad ws || !shapeOk l t.attr || t.ngrp < l.ngrp
            || t.regs < l.need.units || t.wsize < l.smem then .next (chainFault s t card)
          else if !successorFits s t l then .next s
          else .next (placeSuccessor s t l (attrChain l.attr && q.chainok) arg)

end Sys2Proof.Machine
end

