-- ==== Sys2Proof/Machine/Matrix.lean ====
section
/-! DEFINITION. The matrix engine (R256–R269): the format block, the command queue, MLOOP, MCONV, MSTORE, MZERO and
MSTAT, and the engine's own events: a step of a loop, a store of a bank, a clear. -/

namespace Sys2Proof.Machine

/-! ## Formats (R257, R260) -/

/-- The A type of a format block. -/
def fmtA (f : QWord) : NType := (NType.ofCode (f.extractLsb' 0 4)).getD .f32
/-- The B type. -/
def fmtB (f : QWord) : NType := (NType.ofCode (f.extractLsb' 4 4)).getD .f32
/-- ablk. -/
def fmtABlk (f : QWord) : Nat := (f.extractLsb' 8 2).toNat
/-- bblk. -/
def fmtBBlk (f : QWord) : Nat := (f.extractLsb' 10 2).toNat
/-- ormode and osat. -/
def fmtOut (f : QWord) : RS :=
  { sat := f.getLsbD 14, rm := match (f.extractLsb' 12 2).toNat with | 0 => .near | 1 => .zero | 2 => .down | _ => .up }
/-- A word of the block. -/
def fmtWord (f : QWord) (i : Nat) : Nat := (f.extractLsb' (32 * i) 32).toNat

/-- R260: a type an operand may have. -/
def matType : NType → Bool
  | .bf16 => true | .f16 => true | .e4m3 => true | .e5m2 => true | .e2m1 => true | _ => false

/-- R260: the checks MFMT makes. DESIGN CHOICE (log 22): R260 gives no outcome for a qsup that is not a multiple of 4; it is accepted. -/
def fmtOk (f : QWord) : Bool :=
  let ta := fmtA f
  let tb := fmtB f
  let ab := fmtABlk f
  let bb := fmtBBlk f
  f.extractLsb' 15 17 = 0 && matType ta && (matType tb || tb = .qn4) && ab ≤ 1 && bb ≤ 2
    && (ta ≠ .e2m1 || ab = 1) && (tb ≠ .e2m1 || bb = 1)
    && (ab ≠ 1 || ta = .e4m3 || ta = .e2m1) && (bb ≠ 1 || tb = .e4m3 || tb = .e2m1)
    && (tb = .qn4) = (bb = 2)

/-- R257: K. -/
def stepK (ta tb : NType) : Nat :=
  if ta.bits = 16 then (if tb = .qn4 then 64 else 32)
  else if tb.bits = 16 then 32
  else if ta.bits = 8 && tb.bits = 8 then 64 else 128

/-- R257: Ab. -/
def stepAb (f : QWord) : Nat := 16 * stepK (fmtA f) (fmtB f) * (fmtA f).bits
/-- R257: Bb. -/
def stepBb (f : QWord) : Nat := 32 * stepK (fmtA f) (fmtB f) * (fmtB f).bits

/-! ## Banks -/

/-- Bank n of a cluster's engine; a2 and a3 are the lender's a0 and a1 (R442). -/
def Cluster.bank (c : Cluster) (n : Nat) : Bank := if n % 2 = 0 then c.bank0 else c.bank1
/-- Replaces a bank. -/
def Cluster.setBank (c : Cluster) (n : Nat) (b : Bank) : Cluster :=
  if n % 2 = 0 then { c with bank0 := b } else { c with bank1 := b }

/-- R256: the clear of a bank state; who holds the bank stays. -/
def Bank.clear (b : Bank) : Bank := { holder := b.holder, ctx := b.ctx }

/-- R440: whether a lease of a cluster is starting, active or being revoked. -/
def lentOut (s : State) (cl : Nat) : Bool := s.leases.any fun l => l.state ≠ 0 && 16 * l.lslice + l.lpos = cl

/-- R71, R442: the cluster whose engine bank n names; none without a lease. `true` when the lease is being revoked
(R444). -/
def bankCluster (s : State) (n : Nat) : Option (Nat × Bool) :=
  if n < 2 then some (s.clusterId, lentOut s s.clusterId)
  else (s.leases.find? fun l => (l.state = 2 || l.state = 3) && l.vf = s.vfId && l.intf = s.g.ctx % 64
      && l.pslice = s.relSlice s.sliceId).map fun l => (16 * l.lslice + l.lpos, l.state = 3)

/-- R256: whether the issuing team holds, or may take, a bank. -/
def mayTake (s : State) (cl n : Nat) : Bool :=
  match ((s.cluster cl).bank n).holder with
  | none => true
  | some t => t = s.t.uid

/-- R256, R438: the issuing team takes a bank; one of another context's is cleared. -/
def takeBank (s : State) (cl n : Nat) : State :=
  let c := s.cluster cl
  let b := c.bank n
  let b := if b.ctx ≠ s.g.ctx then b.clear else b
  s.setCluster (c.setBank n { b with holder := some s.t.uid, ctx := s.g.ctx })

/-- The record of the latest loop of a group on a bank (R269). -/
def LastLoop.is (l : LastLoop) (team : Nat) (gid : BitVec 4) (n : Nat) : Bool := l.team = team && l.gid = gid && l.bank = n

/-- Replaces the record of the latest loop. -/
def Cluster.setLast (c : Cluster) (l : LastLoop) : Cluster :=
  { c with last := upsert (fun x => x.is l.team l.gid l.bank) l c.last }

/-- A matrix loop. -/
def MCmd.isLoop (m : MCmd) : Bool := m.kind = .mloop || m.kind = .mconv

/-- R256, R258, R362: a matrix instruction that names bank n: it is illegal in handler mode and without a lease of a
named leased engine; it parks until the team may take the bank; then `k` runs with the cluster of the engine. -/
def matRun (n : Nat) (park : ParkKind) (s : State) (k : Nat → State → Res) : Res :=
  if s.g.inHandler then illegalC s
  else match bankCluster s n with
    | none => illegalC s
    | some (cl, held) =>
      if held || !mayTake s cl n then .next ((s.parkC park).mapG fun g => { g with waitBank := some (cl, n) }) else k cl (takeBank s cl n)

/-- R258: a command enters the queue, or parks while the queue is full. The issue of a loop on a global A writes back the dirty
bytes of the issuing core and waits for its pending lines, so that the engine's reads follow every earlier access (R150).
DESIGN CHOICE (log 22): a first command on a bank that parks on a full queue does not take the bank until it enters. -/
def matEnter (w : Bool) (m : MCmd) (s : State) : Res :=
  matRun m.bank .engine s fun cl s1 =>
    let c := s1.cluster cl
    if 16 ≤ c.queue.length then .next (s.parkC .engine)
    else
      let c := { c with queue := c.queue ++ [m] }
      let c := if m.isLoop then c.setLast { team := m.team, gid := m.gid, bank := m.bank } else c
      let s1 := if m.isLoop && m.ctl.getLsbD 19 then (s1.performDirty s1.l1Id fun _ => true).ackAllDup s1.l1Id else s1
      .next ((s1.setCluster c).endC w 4)

/-- A command of the issuing group, with the format block captured (R260). -/
def newCmd (s : State) (kind : MKind) (run : List Word) (ctl : Word) (bank bar : Nat) : MCmd :=
  { kind := kind, team := s.t.uid, ctx := s.g.ctx, gid := s.g.gid, cpc := s.g.pc, fmt := s.g.fmt, run := run, ctl := ctl,
    bank := bank, bar := bar }

/-! ## The C-stream words -/

/-- MFMT (R260). -/
def execMfmt (w : Bool) (a : SReg) (s : State) : Res :=
  if s.g.inHandler || 64 < a.toNat + 4 then illegalC s
  else
    let r := s.g.rdRun s.tick a 4
    let f : QWord := r.getD 3 0 ++ r.getD 2 0 ++ r.getD 1 0 ++ r.getD 0 0
    if fmtOk f then .next ((s.mapG fun g => { g with fmt := f }).endC w 4) else faultC s 0x0A 0

/-- R71, R362: whether a bank may be named at all here. -/
def bankNamed (s : State) (n : Nat) : Bool := !s.g.inHandler && (bankCluster s n).isSome

/-- MLOOP (R262). -/
def execMloop (w : Bool) (a b c : SReg) (s : State) : Res :=
  let run := s.g.rdRun s.tick a 4
  let ctl := s.g.rdS s.tick b
  let bar := (s.g.rdS s.tick c).toNat
  let n := (ctl.extractLsb' 16 2).toNat
  let tix := ctl.extractLsb' 20 4
  let asp := ctl.getLsbD 19
  if 64 < a.toNat + 4 || !bankNamed s n then illegalC s
  else if ctl.extractLsb' 24 8 ≠ 0 || ctl.extractLsb' 0 16 = 0 || (!asp && tix ≠ 0) || !fmtOk s.g.fmt
    || run.any (fun x => x.toNat % 64 ≠ 0) then faultC s 0x0A 0
  else match barOffsetFault s bar with
    | some code => faultC s code bar
    | none => matEnter w { newCmd s .mloop run ctl n bar with tr := if asp then s.g.rdT tix.toNat else {} } s

/-- R265: the fields of a convolution shape record. -/
structure Conv where
  h : Nat
  w : Nat
  c : Nat
  n : Nat
  oh : Nat
  ow : Nat
  fh : Nat
  fw : Nat
  sh : Nat
  sw : Nat
  dh : Nat
  dw : Nat
  pt : Nat
  pl : Nat

/-- R265: the record's layout. -/
def convOf (ws : List Word) : Conv :=
  let f (i lo n : Nat) : Nat := (ws.getD i 0).toNat / 2 ^ lo % 2 ^ n
  { h := f 2 0 16, w := f 2 16 16, c := f 3 0 16, n := f 3 16 16, oh := f 4 0 16, ow := f 4 16 16, fh := f 5 0 8, fw := f 5 8 8,
    sh := f 5 16 4, sw := f 5 20 4, dh := f 5 24 4, dw := f 5 28 4, pt := f 6 0 16, pl := f 6 16 16 }

/-- R265: the record is within its limits, for a K. -/
def convOk (ws : List Word) (K : Nat) : Bool :=
  let v := convOf ws
  1 ≤ v.h && 1 ≤ v.w && 1 ≤ v.n && 1 ≤ v.c && v.c % K = 0 && 1 ≤ v.oh && 1 ≤ v.ow && 1 ≤ v.fh && 1 ≤ v.fw && 1 ≤ v.sh && 1 ≤ v.sw
    && 1 ≤ v.dh && 1 ≤ v.dw && v.n * v.oh * v.ow < 2 ^ 32 && (ws.drop 7).all (· = 0)

/-- R265: the steps of the full convolution. -/
def Conv.steps (v : Conv) (K : Nat) : Nat := v.fh * v.fw * (v.c / K)

/-- MCONV (R265). -/
def execMconv (w : Bool) (a b c : SReg) (s : State) : Res :=
  let run := s.g.rdRun s.tick a 4
  let ctl := s.g.rdS s.tick b
  let bar := (s.g.rdS s.tick c).toNat
  let n := (ctl.extractLsb' 16 2).toNat
  let idx := (ctl.extractLsb' 0 16).toNat
  let r3 := (run.getD 3 0).toNat
  let K := stepK (fmtA s.g.fmt) (fmtB s.g.fmt)
  if 64 < a.toNat + 4 || !bankNamed s n then illegalC s
  else if ctl.extractLsb' 19 13 ≠ 0 || !fmtOk s.g.fmt || fmtABlk s.g.fmt ≠ 0 || r3 / 2 ^ 16 = 0
    || (run.take 2).any (fun x => x.toNat % 64 ≠ 0) then faultC s 0x0A 0
  else match barOffsetFault s bar with
    | some code => faultC s code bar
    | none =>
      let s := s.objAcquire
      match objCheck s s.g.ctx idx 3 true false with
      | .fault code => faultC s code idx
      | .ok ws =>
        if !convOk ws K || (convOf ws).steps K < r3 % 2 ^ 16 + r3 / 2 ^ 16 then faultC s 0x0A 0
        else matEnter w { newCmd s .mconv run ctl n bar with conv := ws } s

/-- R267: the bytes of an output element. -/
def outBytes (ctl : Word) : Nat := match (ctl.extractLsb' 2 2).toNat with | 0 => 4 | 1 => 2 | _ => 1

/-- R267: whether MSTORE's operands are refused. -/
def mstoreBad (lo hi ctl : Word) : Bool :=
  let ot := (ctl.extractLsb' 2 2).toNat
  let e := (ctl.extractLsb' 8 8).toNat
  ctl.extractLsb' 16 16 ≠ 0 || ot = 3 || 5 < (ctl.extractLsb' 5 3).toNat || e = 255 || (ot ≠ 2 && e ≠ 0)
    || (ctl.getLsbD 4 && hi ≠ 0) || lo.toNat % 128 ≠ 0

/-- MSTORE (R267). -/
def execMstore (w : Bool) (a b c : SReg) (s : State) : Res :=
  let lo := s.g.rdS s.tick a
  let hi := s.g.rdS s.tick (a + 1)
  let ctl := s.g.rdS s.tick b
  let bar := (s.g.rdS s.tick c).toNat
  let n := (ctl.extractLsb' 0 2).toNat
  let T := 32768 * outBytes ctl
  if a.toNat % 2 ≠ 0 || !bankNamed s n then illegalC s
  else if mstoreBad lo hi ctl then faultC s 0x0A 0
  else if ctl.getLsbD 4 && !s.spIn lo.toNat (T + 32) then faultC s 0x05 lo.toNat
  else match barOffsetFault s bar with
    | some code => faultC s code bar
    | none => matEnter w (newCmd s .mstore [lo, hi] ctl n bar) s

/-- MZERO (R268). -/
def execMzero (w : Bool) (n : BitVec 2) (s : State) : Res :=
  if !bankNamed s n.toNat then illegalC s else matEnter w (newCmd s .mzero [] 0 n.toNat 0) s

/-- R269: the first word of MSTAT. -/
def mstatWord (c : Cluster) (team : Nat) (gid : BitVec 4) (n : Nat) : Word :=
  match c.last.find? fun l => l.is team gid n with
  | none => 0
  | some l => BitVec.ofNat 32 (2 ^ 31 + (if l.stop then 2 ^ 30 else 0) + l.steps % 2 ^ 16)

/-- MSTAT (R269). -/
def execMstat (w : Bool) (a : SReg) (n : BitVec 2) (s : State) : Res :=
  let n := n.toNat
  if a.toNat % 2 ≠ 0 || !bankNamed s n then illegalC s
  else matRun n .mstat s fun cl s1 =>
    let c := s1.cluster cl
    if c.queue.any fun m => m.team = s.t.uid && m.gid = s.g.gid && m.bank = n && m.fault.isNone then .next (s.parkC .mstat)
    else
      let v := mstatWord c s.t.uid s.g.gid n
      .next ((s1.mapG fun g => (g.wrS a v).wrS (a + 1) (BitVec.ofNat 32 (min (c.bank n).steps (2 ^ 32 - 1)))).endC w 4)

/-! ## A step -/

/-- R261, R266: the byte address of row i of A at step n: `none` for a row of zeros that is not read. -/
def rowAddr (m : MCmd) (n i : Nat) : Option Int :=
  let rb := stepK (fmtA m.fmt) (fmtB m.fmt) * (fmtA m.fmt).bits / 8
  let base := m.run.getD 0 0
  match m.kind with
  | .mconv =>
    let v := convOf m.conv
    let K := stepK (fmtA m.fmt) (fmtB m.fmt)
    let st := (m.run.getD 3 0).toNat % 2 ^ 16 + n
    let g := v.c / K
    let tap := st / g
    let p := (m.run.getD 2 0).toNat + i
    let b := p / (v.oh * v.ow)
    let ih : Int := ((p % (v.oh * v.ow) / v.ow * v.sh : Nat) : Int) - v.pt + (tap / v.fw * v.dh : Nat)
    let iw : Int := ((p % v.ow * v.sw : Nat) : Int) - v.pl + (tap % v.fw * v.dw : Nat)
    if v.n ≤ b || ih < 0 || (v.h : Int) ≤ ih || iw < 0 || (v.w : Int) ≤ iw then none
    else some ((base.toNat : Int) + ((((b * v.h + ih.toNat) * v.w + iw.toNat) * v.c + st % g * K) * ((fmtA m.fmt).bits / 8) : Nat))
  | _ =>
    let off : Int := if m.ctl.getLsbD 19 then base.toInt else base.toNat
    some (off + n * (m.run.getD 2 0).toInt + (i * rb : Nat))

/-- R266: whether row i is beyond the batch, which clears its row-mask bit. -/
def rowBeyond (m : MCmd) (i : Nat) : Bool :=
  m.kind = .mconv &&
    (let v := convOf m.conv; decide (v.n ≤ ((m.run.getD 2 0).toNat + i) / (v.oh * v.ow)))

/-- R261, R266: the signed offset of B's tile from bbase at step n. -/
def bOffset (m : MCmd) (n : Nat) : Int :=
  match m.kind with
  | .mconv => (n * stepBb m.fmt : Nat)
  | _ => n * (m.run.getD 3 0).toInt

/-- R261: the scale and super-scale ranges a step reads: (roof store, first, end). -/
def scaleSpans (m : MCmd) (n : Nat) : List (Bool × Int × Int) :=
  let f := m.fmt
  let oa : Int := n * (m.run.getD 2 0).toInt
  let ob := bOffset m n
  let span (base : Nat) (o : Int) (len : Nat) (per : Nat) (unit : Nat) : Int × Int :=
    ((base : Int) + unit * (o / per), (base : Int) + unit * ((o + len - 1) / per) + unit)
  (if fmtABlk f = 1 then [(false, span (fmtWord f 1) oa (stepAb f) (4 * (fmtA f).bits) 1)] else [])
  ++ (if fmtBBlk f = 1 then [(true, span (fmtWord f 2) ob (stepBb f) (4 * (fmtB f).bits) 1)] else [])
  ++ (if fmtBBlk f = 2 then
      [(true, span (fmtWord f 2) ob (stepBb f) 32 1), (true, span (fmtWord f 3) ob (stepBb f) 8192 4)] else [])

/-- R71, R442: the cluster whose engine bank n of a team is. -/
def bankOf (s : State) (t : Team) (n : Nat) : Option Nat :=
  if n < 2 then some (t.ppos / 8)
  else (s.leases.find? fun l => (l.state = 2 || l.state = 3) && 64 * l.vf + l.intf = t.ctx
      && l.pslice = t.ppos / 128 - (s.vf (t.ctx / 64)).first).map fun l => 16 * l.lslice + l.lpos

/-- R263, R401: which operand bytes of a step an uncorrectable error has taken: byte b of row i of A, a byte of the window, a byte
of the roof store. -/
structure StepErr where
  a  : Nat → Nat → Bool
  sp : Nat → Bool
  rf : Nat → Bool

/-- R263: the operands of a step, or why it does not begin. -/
inductive StepPrep where
  | ready (s : State) (a : Nat → Nat → Byte) (err : StepErr)
  | wait (s : State)
  | fault (s : State) (code : Nat) (addr : DWord)

/-- R206, R390: where a tile of n bytes from an offset on is cut for translation: its first byte, and every byte that begins a 4 KiB page,
the register's own frame (offset 0), or what lies past the length of its object. -/
def tileCuts (t : TReg) (lo : Int) (n : Nat) : List Nat :=
  (List.range n).filter fun (i : Nat) =>
    let off : Int := lo + i
    i = 0 || (t.baseVA + BitVec.ofInt 64 off).toNat % 4096 = 0 || off = 0 || (t.obj && off = t.len)

/-- R206, R262: the pieces of a global A tile are translated in ascending order: the key of each, with where in the tile it begins, or
the code and the address of the first that fails. DESIGN CHOICE (log 22): a register that is unbound when a step runs stops the step as
an engine fault with code 0x14, which R398 lists for lane and word accesses only. -/
def tilePages (s : State) (ctx rel : Nat) (t : TReg) (lo : Int) : List Nat → State × Except (Nat × DWord) (List (Nat × Nat))
  | [] => (s, .ok [])
  | i :: is =>
    match translateT s ctx t (lo + (i : Int)) 1 .rd true rel with
    | (s', _, .fault code) => (s', .error (code, t.faultAddr s ctx code (lo + (i : Int))))
    | (s', _, .full) => (s', .error (0x10, 0))
    | (s', _, .ok key _) =>
      match tilePages s' ctx rel t lo is with
      | (s', .error e) => (s', .error e)
      | (s', .ok ks) => (s', .ok ((i, key) :: ks))

/-- The key of byte o of a tile, from the pieces of its translation. -/
def pieceKey (ks : List (Nat × Nat)) (o : Nat) : Nat :=
  match (ks.filter fun k => k.1 ≤ o).getLast? with
  | some k => k.2 + (o - k.1)
  | none => 0

/-- R263: the check of every tile of step n, and the wait for its A lines (R130). -/
def stepPrep (s : State) (t : Team) (m : MCmd) (n : Nat) : StepPrep :=
  let f := m.fmt
  let rb := stepK (fmtA f) (fmtB f) * (fmtA f).bits / 8
  let rows := (List.range 128).filterMap fun i => rowAddr m n i
  let badr : Int := (m.run.getD 1 0).toNat + bOffset m n
  let inWin (lo hi : Int) : Bool := 0 ≤ lo && hi ≤ (t.wsize : Int)
  let inRoof (lo hi : Int) : Bool := 0 ≤ lo && hi ≤ (roofSize : Int)
  let asp := m.kind = .mloop && m.ctl.getLsbD 19
  let badRow := if asp then none else rows.find? fun r => !inWin r (r + rb)
  let badScale := (scaleSpans m n).find? fun x => if x.1 then !inRoof x.2.1 x.2.2 else !inWin x.2.1 x.2.2
  -- the store as it stands once the context has taken it
  let roof := ((bankOf s t m.bank).map fun cl => (takeRoof s cl m.ctx).cluster cl).getD {}
  let sp (o : Nat) : Bool := t.lostL.contains (o / 128)
  let rf (o : Nat) : Bool := roof.roofBad o 1
  match badRow with
  | some r => .fault s 0x05 (BitVec.ofInt 64 r)
  | none =>
    if !inRoof badr (badr + stepBb f) then .fault s 0x05 (BitVec.ofInt 64 badr)
    else match badScale with
      | some x => .fault s 0x05 (BitVec.ofInt 64 x.2.1)
      | none =>
        if asp then
          match tilePages s m.ctx (t.ppos / 128 - (s.vf (m.ctx / 64)).first) m.tr (rows.headD 0)
              (tileCuts m.tr (rows.headD 0) (stepAb f)) with
          | (s, .error (code, va)) => .fault s code va
          | (s, .ok keys) =>
            let key (i b : Nat) : Nat := pieceKey keys (i * rb + b)
            .ready s (fun i b => s.rdMem (key i b)) ⟨fun i b => s.poisoned (key i b) 1, sp, rf⟩
        else if rows.any fun r => t.emptyL.any fun l => (l : Int) < (r + rb + 127) / 128 && r / 128 ≤ l then .wait s
        else
          let at_ (i b : Nat) : Option Nat := (rowAddr m n i).map fun r => r.toNat + b
          .ready s (fun i b => ((at_ i b).map fun o => SMap.get 0 t.sp o).getD 0) ⟨fun i b => ((at_ i b).map sp).getD false, sp, rf⟩

/-- The code of element k of a row of elements of w bits, from its bytes. -/
def elemCode (w : Nat) (byte : Nat → Byte) (k : Nat) : Nat :=
  if w = 16 then (byte (2 * k)).toNat + 256 * (byte (2 * k + 1)).toNat
  else if w = 8 then (byte k).toNat
  else (byte (k / 2)).toNat / 16 ^ (k % 2) % 16

/-- The bytes of element k of a row of elements of w bits. -/
def elemBytes (w k : Nat) : List Nat := if w = 16 then [2 * k, 2 * k + 1] else if w = 8 then [k] else [k / 2]

/-- R261: the offset in the window of the scale byte of A's element (i, k) at step n. -/
def aScaleAt (m : MCmd) (n i k : Nat) : Nat :=
  let ta := fmtA m.fmt
  let o : Int := n * (m.run.getD 2 0).toInt + ((i * stepK ta (fmtB m.fmt) + k) * ta.bits / 8 : Nat)
  ((fmtWord m.fmt 1 : Int) + o / (4 * ta.bits : Nat)).toNat

/-- R261: the offset of B's element (k, j) from bbase at step n. -/
def bElemOff (m : MCmd) (n k j : Nat) : Int := bOffset m n + ((j * stepK (fmtA m.fmt) (fmtB m.fmt) + k) * (fmtB m.fmt).bits / 8 : Nat)

/-- R261: the offset in the roof store of column j of B at step n. -/
def bColAt (m : MCmd) (n j : Nat) : Nat :=
  ((m.run.getD 1 0).toNat + bOffset m n).toNat + j * stepK (fmtA m.fmt) (fmtB m.fmt) * (fmtB m.fmt).bits / 8

/-- R261: the offsets in the roof store of the scale byte and the super-scale of B's element (k, j) at step n. -/
def bScaleAt (m : MCmd) (n k j : Nat) : Nat × Nat :=
  let o := bElemOff m n k j
  if fmtBBlk m.fmt = 2 then (((fmtWord m.fmt 2 : Int) + o / 32).toNat, ((fmtWord m.fmt 3 : Int) + 4 * (o / 8192)).toNat)
  else (((fmtWord m.fmt 2 : Int) + o / (4 * (fmtB m.fmt).bits : Nat)).toNat, 0)

/-- R261: the value of A's element (i, k) from the bytes of its row; `sp` reads the window. -/
def aValue (m : MCmd) (n : Nat) (sp : Nat → Byte) (a : Nat → Nat → Byte) (i k : Nat) : XReal :=
  let ta := fmtA m.fmt
  let code := elemCode ta.bits (a i) k
  if fmtABlk m.fmt = 1 then decodeMX ta code (sp (aScaleAt m n i k)).toNat else fpValue ta code

/-- R261: the value of B's element (k, j); `rf` reads the roof store. -/
def bValue (m : MCmd) (n : Nat) (rf : Nat → Byte) (k j : Nat) : XReal :=
  let tb := fmtB m.fmt
  let code := elemCode tb.bits (fun b => rf (bColAt m n j + b)) k
  let (sc, q) := bScaleAt m n k j
  match fmtBBlk m.fmt with
  | 1 => decodeMX tb code (rf sc).toNat
  | 2 => decodeQN4 code (rf sc).toNat (rf (q + 3) ++ rf (q + 2) ++ rf (q + 1) ++ rf q)
  | _ => fpValue tb code

/-- R123, R263: why A's element (i, k) is taken as zero: an error in it (1) or in its scale code (3). -/
def aRepl (m : MCmd) (n : Nat) (e : StepErr) (i k : Nat) : Option Nat :=
  if (rowAddr m n i).isNone then none
  else if (elemBytes (fmtA m.fmt).bits k).any (e.a i) then some 1
  else if fmtABlk m.fmt = 1 && e.sp (aScaleAt m n i k) then some 3
  else none

/-- R123, R263: why B's element (k, j) is taken as zero: an error in it (2) or in its scale code or super-scale (3). -/
def bRepl (m : MCmd) (n : Nat) (e : StepErr) (k j : Nat) : Option Nat :=
  let (sc, q) := bScaleAt m n k j
  if (elemBytes (fmtB m.fmt).bits k).any fun b => e.rf (bColAt m n j + b) then some 2
  else if (fmtBBlk m.fmt ≠ 0 && e.rf sc) || (fmtBBlk m.fmt = 2 && (List.range 4).any fun b => e.rf (q + b)) then some 3
  else none

/-- R123: the status flags of gsr flags. -/
def statusFlags (f : Flags) : BitVec 5 :=
  (if f &&& fInv ≠ 0 then 1 else 0) ||| (if f &&& fOvf ≠ 0 then 2 else 0) ||| (if f &&& fUnf ≠ 0 then 4 else 0)

/-- R123: the replaced elements of a step, as numbers in the order of replacement: k index, then operand (A, B, scale code), then
row or column. A scale code counts at the lowest k of the elements it scales, which is the least of theirs. -/
def replaced (m : MCmd) (n : Nat) (e : StepErr) : List Nat :=
  (List.range (stepK (fmtA m.fmt) (fmtB m.fmt))).flatMap fun k =>
    ((List.range 128).filterMap fun i => (aRepl m n e i k).map fun o => 1024 * k + 256 * o + i)
      ++ (List.range 256).filterMap fun j => (bRepl m n e k j).map fun o => 1024 * k + 256 * o + j

/-- R123: a step's replacements are counted in a bank's state, and the first since its clear recorded. -/
def Bank.noteReplaced (b : Bank) (rep : List Nat) : Bank :=
  match rep.min? with
  | none => b
  | some x =>
    let c := { b with nrep := min (b.nrep + rep.length) (2 ^ 32 - 1), flags := b.flags ||| 16 }
    if b.flags.getLsbD 4 then c
    else { c with kfirst := b.kcount + x / 1024, opnd := x / 256 % 4, pos := x % 256, stfirst := b.steps }

/-- R121, R263: the bank after a step. -/
def stepBank (m : MCmd) (n : Nat) (sp rf : Nat → Byte) (a : Nat → Nat → Byte) (err : StepErr) (b0 : Bank) : Bank :=
  let K := stepK (fmtA m.fmt) (fmtB m.fmt)
  let b := if n = 0 && m.ctl.getLsbD 18 then b0.clear else b0
  let av (i k : Nat) : XReal :=
    if (rowAddr m n i).isNone || (aRepl m n err i k).isSome then .fin false 0 else aValue m n sp a i k
  let bv (j k : Nat) : XReal := if (bRepl m n err k j).isSome then .fin false 0 else bValue m n rf k j
  let cols := (List.range 256).map fun j => (List.range K).map (bv j)
  let cells := (List.range 128).flatMap fun i =>
    let row := (List.range K).map (av i)
    cols.mapIdx fun j col => accRun (K / 4) (SMap.get 0 b.acc (256 * i + j)) (List.zipWith XReal.mul row col)
  let fl := cells.foldl (fun (x : Flags) c => x ||| c.2) 0
  let mask := (List.range 128).foldl (fun (x : QWord) i => if rowBeyond m i then x &&& ~~~(1#128 <<< i) else x) b.rowmask
  let b := b.noteReplaced (replaced m n err)
  { b with
    acc := (SMap.setRun 0 [] 0 (cells.map fun c => c.1)), steps := b.steps + 1, kcount := b.kcount + K, rowmask := mask,
    flags := b.flags ||| statusFlags fl }

/-! ## The engine -/

/-- The oldest command on a bank. -/
def headCmd (c : Cluster) (n : Nat) : Option MCmd := c.queue.find? fun m => m.bank % 2 = n % 2

/-- Replaces the oldest command on a bank, or removes it. -/
def Cluster.setHead (c : Cluster) (n : Nat) (o : Option MCmd) : Cluster :=
  let rec go : List MCmd → List MCmd
    | [] => []
    | x :: xs => if x.bank % 2 = n % 2 then o.toList ++ xs else x :: go xs
  { c with queue := go c.queue }

/-- The number of steps of a loop. -/
def MCmd.stepCount (m : MCmd) : Nat :=
  match m.kind with
  | .mconv => (m.run.getD 3 0).toNat / 2 ^ 16
  | _ => (m.ctl.extractLsb' 0 16).toNat

/-- R269: whether no later loop of the group on the bank has been issued. -/
def isLatest (c : Cluster) (m : MCmd) : Bool :=
  (c.queue.filter fun x => x.isLoop && x.team = m.team && x.gid = m.gid && x.bank = m.bank).length ≤ 1

/-- R269: records the state of the latest loop. -/
def noteLoop (c : Cluster) (m : MCmd) (stop : Bool) (steps : Nat) : Cluster :=
  if m.isLoop && isLatest c m then c.setLast { team := m.team, gid := m.gid, bank := m.bank, stop := stop, steps := steps } else c

/-- R444: the step under way of a bank's loop when a revocation begins will commit: a loop that has begun runs its next step. -/
def markUnder (c : Cluster) (n : Nat) : Cluster :=
  match headCmd c n with
  | some m => if m.isLoop && 0 < m.next && m.fault.isNone then c.setHead n (some { m with under := true }) else c
  | none => c

/-- R443: a charge to the meter of the lease of a leased engine; at the limit revocation begins (R444), and the steps under way commit. -/
def chargeLease (s : State) (cl : Nat) (m : MCmd) (k : Nat) : State :=
  if m.bank < 2 then s
  else
    let on (l : Lease) : Bool := l.state ≠ 0 && 16 * l.lslice + l.lpos = cl
    let meter (l : Lease) : DWord := l.meter + BitVec.ofNat 64 k
    let ends (l : Lease) : Bool := on l && l.state = 2 && l.limit ≠ 0 && l.limit ≤ meter l
    let s := s.countEvent m.ctx 0x14 k
    let s := if s.leases.any ends then s.setCluster (markUnder (markUnder (s.cluster cl) 0) 1) else s
    { s with leases := s.leases.map fun l =>
        if on l then { l with meter := meter l, state := if ends l then 3 else l.state } else l }

/-- R158: the decrement of a matrix command, in a slice's queue of reports. -/
def MCmd.decr (m : MCmd) (sl k : Nat) : Decr :=
  { uid := m.team, slice := sl, ctx := m.ctx, bar := m.bar, pc := m.cpc, gid := m.gid, k := k }

/-- R263: Stop: the fault goes to the issuing group, or the controller abandons the command. -/
def stopCmd (s : State) (cl : Nat) (m : MCmd) (code : Nat) (addr : DWord) : State :=
  let c := s.cluster cl
  let cd := BitVec.ofNat 8 code
  let c := noteLoop c m true m.next
  match issuerOf s m.team m.gid with
  | some g =>
    deliverFault (s.setCluster (c.setHead m.bank (some { m with fault := some (cd, addr) }))) g.uid cd addr
  | none =>
    let sl := match s.team? m.team with | some t => t.ppos / 128 | none => cl / 16
    let s := (s.setCluster (c.setHead m.bank none)).escalate sl
      { code := 0x44, inner := cd, pasid := (s.ctx m.ctx).pasid, pc := m.cpc, addr := addr }
    reapTeam (abandonBarrier s (m.decr sl 0)) m.team

/-- A store that has begun: it completes before its team is saved (R421) or its lease ends (R444). -/
def MCmd.storing (m : MCmd) : Bool := m.kind = .mstore && 0 < m.next && m.fault.isNone

/-- Whether the oldest command on a bank may run now: neither the engine nor its context is frozen (R379), it is not stopped, its
team is not halted, and its lease is not being revoked (R444). -/
def cmdRuns (s : State) (c : Cluster) (m : MCmd) : Bool :=
  !c.mfrozen && m.fault.isNone && !ctxFrozen s m.ctx
    && (m.storing || m.under || ((s.allGroups.all fun g => !(g.team = m.team && g.live && g.halted))
      && (m.bank < 2 || s.leases.any fun l => l.state = 2 && 16 * l.lslice + l.lpos = c.id)))

/-- R263: the step of a command begins and commits, or stops, or waits. -/
def loopStep (s : State) (cl : Nat) (t : Team) (m : MCmd) : State :=
  match roofDest s cl m.ctx with
  | .store =>
    (match stepPrep s t m m.next with
     | .fault s code addr => stopCmd s cl m code addr
     | .wait s => s
     | .ready s a err =>
       let s := takeRoof s cl m.ctx
       let c := s.cluster cl
       let b := stepBank m m.next (fun o => SMap.get 0 t.sp o) (fun o => SMap.get 0 c.roof o) a err (c.bank m.bank)
       let c := noteLoop (c.setBank m.bank b) m false (m.next + 1)
       let c := c.setHead m.bank (if m.stepCount ≤ m.next + 1 then none else some { m with next := m.next + 1, under := false })
       let s := chargeLease ((s.setCluster c).countEvent m.ctx 0x0A 1) cl m 32
       reapTeam (engineCount s (m.decr (t.ppos / 128) (stepAb m.fmt))) m.team)
  | _ => wakeRoof s cl

/-- MATRIX_STEP: the oldest command on a bank, a loop, runs one step. -/
def execMatrixStep (cluster bank : Nat) (s : State) : Res :=
  let c := s.cluster cluster
  match headCmd c bank with
  | none => .next s
  | some m =>
    match s.team? m.team with
    | none => .next s
    | some t =>
      if m.isLoop && cmdRuns s c m then .next (loopStep { s with writer := some (.matrix cluster m.bank) } cluster t m) else .next s

/-- MZERO_RUN (R268). -/
def execMzeroRun (cluster bank : Nat) (s : State) : Res :=
  let c := s.cluster cluster
  match headCmd c bank with
  | none => .next s
  | some m =>
    if m.kind = .mzero && cmdRuns s c m then
      .next (reapTeam (s.setCluster ((c.setBank m.bank (c.bank m.bank).clear).setHead m.bank none)) m.team)
    else .next s

/-! ## MSTORE -/

/-- R267: an output element's code and flags. -/
def outElem (m : MCmd) (x : Word) : Nat × Flags :=
  let rs := fmtOut m.fmt
  match (m.ctl.extractLsb' 2 2).toNat with
  | 0 => (x.toNat, 0)
  | 1 => fpRound (f32v x) .bf16 rs.rm rs.sat
  | _ => fpRound (XReal.mul (f32v x) (.fin false (pow2 (127 - ((m.ctl.extractLsb' 8 8).toNat : Int))))) .e4m3 rs.rm rs.sat

/-- The type of an output element. -/
def outType (m : MCmd) : NType := match (m.ctl.extractLsb' 2 2).toNat with | 0 => .f32 | 1 => .bf16 | _ => .e4m3

/-- R267, R401: the output elements of a row, with their flags; an element with an uncorrectable error is the NaN. -/
def outRow (m : MCmd) (b : Bank) (i : Nat) : List (Nat × Flags) :=
  (List.range 256).map fun j =>
    if b.bad.contains (256 * i + j) then (fpNaN (outType m), 0) else outElem m (SMap.get 0 b.acc (256 * i + j))

/-- R123: the status word of a tile. DESIGN CHOICE (log 22): of the tile only the rows that are stored count for nanp, zrep and the
flags of the output conversion, and an overflow that osat clamps, which R113 flags sat and not ovf, does not set ovf. -/
def bankStatus (m : MCmd) (b : Bank) : List Byte :=
  let rows := ((List.range 128).filter fun i => b.rowmask.getLsbD i).map fun i => outRow m b i
  let fl := rows.flatten.foldl (fun (a : Flags) x => a ||| x.2) 0
  let nan := rows.any fun r => r.any fun x => (fpValue (outType m) x.1).isNaN
  let bad := b.bad.any fun e => b.rowmask.getLsbD (e / 256)
  let w0 := 0x01010000 + (b.flags ||| statusFlags fl ||| (if nan then 8 else 0) ||| (if bad then 16 else 0)).toNat
  leBytes 4 w0 ++ leBytes 4 b.nrep ++ leBytes 4 b.kfirst ++ leBytes 4 (b.opnd * 2 ^ 16 + b.pos) ++ leBytes 4 b.stfirst
    ++ leBytes 4 (min b.steps (2 ^ 32 - 1)) ++ leBytes 8 0

/-- A piece of at most 1 KiB at an offset of a tile, in two where a page ends inside it. -/
def cutPage (base o : Nat) (bs : List Byte) : List (Nat × List Byte) :=
  let k := 4096 - (base + o) % 4096
  if k < bs.length then [(o, bs.take k), (o + k, bs.drop k)] else [(o, bs)]

/-- R267: the pieces of a store, each in one page: byte offset in the tile and bytes, masked rows left out; the status word
last. -/
def storePieces (m : MCmd) (b : Bank) : List (Nat × List Byte) :=
  let n := outBytes m.ctl
  let base := (m.run.getD 0 0).toNat
  (List.range 128).flatMap (fun i =>
    if b.rowmask.getLsbD i then cutPage base (256 * i * n) ((outRow m b i).map fun x => leBytes n x.1).flatten else [])
    ++ cutPage base (32768 * n) (bankStatus m b)

/-- What a run of writes leaves: all done, or the offset where it stands, with a fault or a wait. -/
inductive StoreEnd where
  | done (s : State)
  | stop (s : State) (off code : Nat) (addr : DWord)

/-- R267, R163: the pieces from offset `next` on are written in order. -/
def writeTile (s : State) (t : Team) (m : MCmd) : List (Nat × List Byte) → StoreEnd
  | [] => .done s
  | p :: ps =>
    if p.1 < m.next then writeTile s t m ps
    else if m.ctl.getLsbD 4 then writeTile (winWrite s m.team ((m.run.getD 0 0).toNat + p.1) p.2) t m ps
    else
      match engWriteN s m.ctx (t.ppos / 128 - (s.vf (m.ctx / 64)).first)
          ((m.run.getD 1 0 ++ m.run.getD 0 0) + BitVec.ofNat 64 p.1) p.2 with
      | (s, none) => writeTile s t m ps
      | (s, some (code, addr)) => .stop s p.1 code addr

/-- MSTORE_RUN (R267): the tile and its status word are written, and counted at the barrier. -/
def execMstoreRun (cluster bank : Nat) (s : State) : Res :=
  let c := s.cluster cluster
  match headCmd c bank with
  | none => .next s
  | some m =>
    match s.team? m.team with
    | none => .next s
    | some t =>
      if m.kind = .mstore && cmdRuns s c m then
        let sl := t.ppos / 128
        match writeTile { s with writer := some (.matrix cluster m.bank) } t m (storePieces m (c.bank m.bank)) with
        | .done s =>
          let s := s.setCluster ((s.cluster cluster).setHead m.bank none)
          let s := engineCount s (m.decr sl (32768 * outBytes m.ctl + 32 - m.next))
          .next (reapTeam (chargeLease s cluster m 128) m.team)
        | .stop s off code addr =>
          let m' := { m with next := off }
          let s := if off = m.next then s else engineCount s (m.decr sl (off - m.next))
          let s := s.setCluster ((s.cluster cluster).setHead m.bank (some m'))
          .next (if code = 0 then s else stopCmd s cluster m' code addr)
      else .next s

end Sys2Proof.Machine
end

