-- ==== Sys2Proof/Machine/Record.lean ====
section
/-! DEFINITION. The saved form of a team: the check word (R417), the layouts of a team slot, a group record, matrix and
Flowstone entries and bank states (R416–R418, R483, R484), both ways. -/

namespace Sys2Proof.Machine

/-! ## Pieces -/

/-- A part of a record: offset, length, little-endian value. Bytes that no piece covers are 0. -/
abbrev Piece := Nat × Nat × Nat

/-- A 4-byte piece. -/
def pc4 (o : Nat) (v : Nat) : Piece := (o, 4, v)
/-- An 8-byte piece. -/
def pc8 (o : Nat) (v : Nat) : Piece := (o, 8, v)

/-- Writes the pieces of a record at a key into a region of n bytes cleared first; sump memory is mapped to no user
address. -/
def writePieces (s : State) (k n : Nat) (ps : List Piece) : State :=
  let s := touchRange s k (k + n)
  let s := { s with mem := SMap.clear s.mem k (k + n), poison := s.poison.filter fun x => !(k ≤ 32 * x && 32 * x < k + n) }
  ps.foldl (fun s p => if p.2.2 = 0 then s else s.putBytes (k + p.1) (leBytes p.2.1 p.2.2)) s

/-- A little-endian number of a record. -/
def recNat (s : State) (k o n : Nat) : Nat := s.rdMemNat (k + o) n

/-- Writes the check word over bytes [4, hi) of a record. -/
def writeCheck (s : State) (k hi : Nat) : State := s.putBytes k (leBytes 4 (crc32c (s.rdMemN (k + 4) (hi - 4))).toNat)
/-- Whether the check word holds. -/
def checkOk (s : State) (k hi : Nat) : Bool := recNat s k 0 4 = (crc32c (s.rdMemN (k + 4) (hi - 4))).toNat

/-! ## Parts -/

/-- R484: the codes of the park kinds. -/
def ParkKind.code : ParkKind → Nat
  | .none => 0 | .drain => 1 | .again => 1 | .chsend => 2 | .lrun => 3 | .lwait => 4 | .waitb => 5 | .yieldc => 6 | .sleep => 7
  | .teambar => 8 | .gridbar => 9 | .heaptake => 10 | .heapadd => 11 | .exit => 12 | .engine => 13 | .cpyq => 14
  | .held => 15 | .mstat => 16

/-- R484: the park kind of a code. -/
def parkOf (n : Nat) : ParkKind :=
  match n with
  | 1 => .drain | 2 => .chsend | 3 => .lrun | 4 => .lwait | 5 => .waitb | 6 => .yieldc | 7 => .sleep
  | 8 => .teambar | 9 => .gridbar | 10 => .heaptake | 11 => .heapadd | 12 => .exit | 13 => .engine | 14 => .cpyq
  | 15 => .held | 16 => .mstat | _ => .none

/-- R387: a translation register as 128 bits. -/
def TReg.toNat (t : TReg) : Nat :=
  t.base.toNat + t.rights.toNat * 2 ^ 57 + t.sz.toNat * 2 ^ 59 + (if t.obj then 2 ^ 61 else 0) + t.frame.toNat * 2 ^ 64
    + t.gen.toNat * 2 ^ 100 + t.oidx.toNat * 2 ^ 112

/-- R387: the register of 128 bits; the length of an object is read again at its next use. -/
def TReg.ofNat (n : Nat) : TReg :=
  { base := BitVec.ofNat 57 n, rights := BitVec.ofNat 2 (n / 2 ^ 57), sz := BitVec.ofNat 2 (n / 2 ^ 59),
    obj := n.testBit 61, frame := BitVec.ofNat 36 (n / 2 ^ 64), gen := BitVec.ofNat 12 (n / 2 ^ 100),
    oidx := BitVec.ofNat 16 (n / 2 ^ 112), len := 0, stale := n.testBit 61 }

/-- R418: a channel: its count, then its entries. -/
def chanPieces (o : Nat) (es : List Word) : List Piece :=
  pc4 o es.length :: es.mapIdx fun i e => pc4 (o + 4 + 4 * i) e.toNat
/-- A channel of a record. -/
def chanOf (s : State) (k o : Nat) : List Word :=
  (List.range (recNat s k o 1 % 16)).map fun i => BitVec.ofNat 32 (recNat s k (o + 4 + 4 * i) 4)

/-- R418: an entry of a lane queue. -/
def blockPieces (o : Nat) (b : Block) : List Piece :=
  pc4 o b.addr.toNat :: (o + 4, 1, 128) :: (List.range 16).map fun i => (o + 256 + 16 * i, 16, (SMap.get {} b.caps i).toNat)
/-- A lane-queue entry of a record. -/
def blockOf (s : State) (k o : Nat) : Block :=
  { addr := BitVec.ofNat 32 (recNat s k o 4),
    caps := (List.range 16).foldl (fun m i => SMap.set {} m i (TReg.ofNat (recNat s k (o + 256 + 16 * i) 16))) [] }

/-- R418: a split. -/
def splitPieces (o : Nat) (sp : Split) : List Piece :=
  pc4 o sp.pc.toNat :: pc4 (o + 4) sp.mask.toNat
    :: pc4 (o + 8) (1 + (if sp.park = .join then 2 else 0) + 4 * sp.stack.length)
    :: (sp.stack.mapIdx fun i e =>
      [pc4 (o + 16 + 32 * i) e.jpc.toNat, pc4 (o + 20 + 32 * i) e.ppc.toNat, pc4 (o + 24 + 32 * i) e.pmask.toNat,
       pc4 (o + 28 + 32 * i) e.rmask.toNat, pc4 (o + 32 + 32 * i) e.killed.toNat]).flatten
/-- A split of a record. -/
def splitOf (s : State) (k o idx : Nat) : Option Split :=
  let f := recNat s k (o + 8) 4
  if f % 2 = 0 then none
  else
    let w (x : Nat) : Word := BitVec.ofNat 32 (recNat s k x 4)
    some { idx := idx, pc := w o, mask := w (o + 4), park := if f.testBit 1 then .join else .ready,
           stack := (List.range (f / 4 % 16)).map fun i =>
             { jpc := w (o + 16 + 32 * i), ppc := w (o + 20 + 32 * i), pmask := w (o + 24 + 32 * i),
               rmask := w (o + 28 + 32 * i), killed := w (o + 32 + 32 * i) } }

/-- R418: one lane's part of a record. -/
def lanePieces (g : Group) (l : Nat) : List Piece :=
  let o := 0x2000 + 256 * l
  let i := g.rdInv l
  let hl := SMap.get (0, 0) g.hl l
  let arr (o : Nat) (m : SMap Word) : List Piece := m.map fun e => pc4 (o + 4 * e.1) e.2.toNat
  (o, 16, (g.rdCtr l).toNat) :: (arr (o + 16) i.inb ++ arr (o + 80) i.outb ++ arr (o + 112) i.tru ++ arr (o + 144) i.cmp
    ++ [pc4 (o + 176) (i.region.toNat + (if i.isOpen then 2 ^ 8 else 0) + (if i.served then 2 ^ 9 else 0)
          + (if i.sample then 2 ^ 10 else 0) + (if i.discarded then 2 ^ 11 else 0)),
        pc4 (o + 180) hl.1.toNat, pc8 (o + 184) hl.2.toNat])

/-- A sparse run of n words of a record. -/
def wordsAt (s : State) (k o n : Nat) : SMap Word :=
  (List.range n).foldl (fun m i => SMap.set 0 m i (BitVec.ofNat 32 (recNat s k (o + 4 * i) 4))) []

/-- One lane's invocation of a record. -/
def invOf (s : State) (k l : Nat) : Invocation :=
  let o := 0x2000 + 256 * l
  let f := recNat s k (o + 176) 4
  { inb := wordsAt s k (o + 16) 16, outb := wordsAt s k (o + 80) 8, tru := wordsAt s k (o + 112) 8,
    cmp := wordsAt s k (o + 144) 8, region := BitVec.ofNat 8 f, isOpen := f.testBit 8, served := f.testBit 9,
    sample := f.testBit 10, discarded := f.testBit 11 }

/-! ## Group records (R418) -/

/-- The pieces of the group record of a group. -/
def groupPieces (s : State) (g : Group) : List Piece :=
  let head : List Piece :=
    [(4, 1, g.gid.toNat), (5, 1, g.role.toNat), (6, 1, g.budget / 8),
     (7, 1, g.mode.code + (if g.hsplits.isEmpty then 0 else 4) + (if g.ended then 8 else 0))]
  if g.ended then head ++ [pc4 8 g.barCnt]
  else
    let user15 := if g.inHandler then g.m15user else SMap.get (mDefault 15) g.m 15
    head ++ [pc4 8 g.barCnt, pc4 12 g.park.code, pc8 16 (g.claim.getD 0).toNat, (24, 1, if g.claim.isSome then 1 else 0),
      pc8 32 (g.sleepEnd.getD 0)]
    ++ g.s.map (fun e => pc4 (0x40 + 4 * e.1) e.2.toNat)
    ++ g.hb.map (fun e => pc4 (0x140 + 4 * (e.1 - 48)) e.2.toNat)
    ++ [pc8 0x180 g.pc.toNat, (0x188, 1, (g.q &&& 0xFE).toNat), (0x18A, 1, if g.hq7 then 1 else 0),
        (0x190, 16, g.fmt.toNat), pc8 0x1A0 g.srKey.toNat, pc4 0x1A8 g.gsr.toNat]
    ++ (match g.exitto with | none => [] | some (c, a) => [pc8 0x1B0 c.toNat, pc4 0x1B8 a.toNat, pc4 0x1BC 1])
    ++ (List.range 16).map (fun i => pc4 (0x1C0 + 4 * i)
        (if i = 0 then BitVec.allOnes 32 else if i = 15 then user15 else SMap.get (mDefault i) g.m i).toNat)
    ++ g.tr.map (fun e => (0x200 + 16 * e.1, 16, e.2.toNat))
    ++ [(0x300, 16, g.ht15.toNat), pc4 0x310 g.hs.cause.toNat, pc8 0x314 g.hs.pc.toNat, pc4 0x31C g.hs.lmask.toNat,
        pc8 0x320 g.hs.addr.toNat]
    ++ chanPieces 0x340 g.ch16 ++ chanPieces 0x370 g.ch17
    ++ (g.laneq.mapIdx fun i b => blockPieces (0x400 + 512 * i) b).flatten
    ++ (g.hlaneq.mapIdx fun i b => blockPieces (0x1400 + 512 * i) b).flatten
    ++ (g.splits.map fun sp => splitPieces (0x1600 + 512 * sp.idx) sp).flatten
    ++ ((g.hsplits.filter fun sp => sp.idx = 0).map fun sp => splitPieces 0x1E00 sp).flatten
    ++ ((List.range 32).map fun l => lanePieces g l).flatten
    ++ (if (s.ctx g.ctx).sb.hscr = 0 then [] else
        (wordsOf (s.rdMemN (scratchKeyOf s g) 4096)).mapIdx fun i w => pc4 (0x4000 + 4 * i) w.toNat)
    ++ g.v.map (fun e => pc4 (0x8000 + 4 * e.1) e.2.toNat)
where
  /-- R404: the scratch area of a group's slot. -/
  scratchKeyOf (s : State) (g : Group) : Nat :=
    match s.team? g.team with
    | none => 0
    | some t => scratchKey { s with g := g, t := t }

/-- Writes the group record. -/
def writeGroup (s : State) (k : Nat) (g : Group) : State := writeCheck (writePieces s k 0x10000 (groupPieces s g)) k 0x8000

/-- R387: a register of a record: as it was kept, where its 128 bits are those kept; a register that another agent wrote is bound
again at its next use. -/
def TReg.ofRecord (old : TReg) (n : Nat) : TReg :=
  if old.toNat = n then old
  else
    let t := TReg.ofNat n
    { t with stale := t.rights ≠ 0 }

/-- A lane-queue entry of a record, beside what was kept of it. -/
def blockOfRecord (s : State) (k o : Nat) (old : Block) : Block :=
  { addr := BitVec.ofNat 32 (recNat s k o 4),
    caps := (List.range 16).foldl (fun m i =>
      SMap.set {} m i (TReg.ofRecord (SMap.get {} old.caps i) (recNat s k (o + 256 + 16 * i) 16))) [] }

/-- A split of a record, with what was kept of the split: its wait for results or for a word, and what it executes again. -/
def splitOfRecord (s : State) (k o idx : Nat) (old : List Split) : Option Split :=
  (splitOf s k o idx).map fun r =>
    match old.find? fun x => x.idx = idx with
    | none => { r with last := s.clk }
    | some x => { x with pc := r.pc, mask := r.mask, stack := r.stack, last := s.clk
                         park := if r.park = .join then .join else if x.park = .join then .ready else x.park }

/-- R418: a group of a record that has ended keeps its header; what else the model keeps of it is out of use. -/
def endedOf (base : Group) (old : Option Group) (cnt : Nat) : Group :=
  match old with
  | none => { base with ended := true, barCnt := cnt }
  | some g => { g with uid := base.uid, live := true, ended := true, barCnt := cnt, team := base.team, ctx := base.ctx, gid := base.gid,
                       role := base.role, budget := base.budget, halted := false }

/-- The record of a group as a group of a team: R418's record and, for what it has no place for, the group as it was saved. -/
def groupOf (s : State) (k uid team ctx slot : Nat) : Group :=
  let n (o len : Nat) : Nat := recNat s k o len
  let had := (s.kept.find? fun x => x.key = k).map fun x => x.g
  let kept := had.getD {}
  let f := n 7 1
  let mode : Mode := if f % 4 = 1 then .handler else .user
  let base : Group :=
    { uid := uid, live := true, team := team, ctx := ctx, slot := slot, gid := BitVec.ofNat 4 (n 4 1),
      role := BitVec.ofNat 2 (n 5 1), budget := 8 * n 6 1, mode := mode, lastC := s.clk }
  if f.testBit 3 then endedOf base had (n 8 4)
  else
    let q : BitVec 8 := BitVec.ofNat 8 (n 0x188 1) ||| 1
    let m (i : Nat) : Word := BitVec.ofNat 32 (n (0x1C0 + 4 * i) 4)
    let ms : SMap Word := ((List.range 15).drop 1).foldl (fun a i => SMap.set (mDefault i) a i (m i)) []
    let ms := SMap.set (mDefault 15) ms 15 (if mode = .handler then SMap.get (mDefault 15) kept.m 15 else m 15)
    let park := parkOf (n 12 4)
    { base with
      pc := BitVec.ofNat 64 (n 0x180 8), s := wordsAt s k 0x40 64,
      hb := (wordsAt s k 0x140 16).map fun e => (e.1 + 48, e.2),
      q := q, hq7 := n 0x18A 1 % 2 = 1, v := wordsAt s k 0x8000 (32 * base.budget), m := ms, m15user := m 15,
      gsr := BitVec.ofNat 10 (n 0x1A8 4),
      tr := (List.range 16).foldl (fun a i => SMap.set {} a i (TReg.ofRecord (SMap.get {} kept.tr i) (n (0x200 + 16 * i) 16))) [],
      ht15 := TReg.ofRecord kept.ht15 (n 0x300 16),
      hs := ⟨BitVec.ofNat 32 (n 0x310 4), BitVec.ofNat 64 (n 0x314 8), BitVec.ofNat 32 (n 0x31C 4), BitVec.ofNat 64 (n 0x320 8)⟩,
      ch16 := chanOf s k 0x340, ch17 := chanOf s k 0x370,
      laneq := ((List.range 8).filter fun i => (n (0x404 + 512 * i) 1).testBit 7).map fun i =>
        blockOfRecord s k (0x400 + 512 * i) (kept.laneq.getD i {}),
      hlaneq := if (n 0x1404 1).testBit 7 then [blockOfRecord s k 0x1400 (kept.hlaneq.headD {})] else [],
      splits := (List.range 4).filterMap fun i => splitOfRecord s k (0x1600 + 512 * i) i kept.splits,
      hsplits := (splitOfRecord s k 0x1E00 0 kept.hsplits).toList ++ kept.hsplits.filter fun x => x.idx ≠ 0,
      fmt := BitVec.ofNat 128 (n 0x190 16), srKey := BitVec.ofNat 64 (n 0x1A0 8),
      srCtr := (List.range 32).foldl (fun a l => SMap.set 0 a l (BitVec.ofNat 128 (n (0x2000 + 256 * l) 16))) [],
      inv := (List.range 32).foldl (fun a l => SMap.set {} a l (invOf s k l)) [],
      hl := (List.range 32).foldl (fun a l =>
        SMap.set (0, 0) a l (BitVec.ofNat 8 (n (0x2000 + 256 * l + 180) 4), BitVec.ofNat 64 (n (0x2000 + 256 * l + 184) 8))) [],
      hchans := kept.hchans, hlate := kept.hlate, hfresh := kept.hfresh, hact := kept.hact, heapW := kept.heapW, uheap := kept.uheap, pend := kept.pend, upc := kept.upc, upark := kept.upark,
      usleep := kept.usleep, uarrived := kept.uarrived, uwaitBar := kept.uwaitBar, ubarLost := kept.ubarLost, faults := kept.faults, frag := kept.frag, park := park, parkSeq := s.tick, barCnt := n 8 4,
      gridCnt := if had.isSome then kept.gridCnt else if park = .gridbar then 1 else 0, arrived := if had.isSome then kept.arrived else (park = .teambar || park = .gridbar) && !(n 0x404 1).testBit 7,
      waitBar := kept.waitBar, barLost := kept.barLost, badRegs := kept.badRegs, lost := kept.lost,
      frozen := kept.frozen, apxRegion := kept.apxRegion,
      claim := if n 24 1 % 2 = 1 then some (BitVec.ofNat 64 (n 16 8)) else none,
      exitto := if n 0x1BC 1 % 2 = 1 then some (BitVec.ofNat 64 (n 0x1B0 8), BitVec.ofNat 32 (n 0x1B8 4)) else none,
      exiting := park = .exit,
      sleepEnd := if park = .sleep then some (n 32 8) else none }

/-- What the model keeps beside a group's record; of its results only those that still wait. -/
def keptOf (k : Nat) (g : Group) : Kept := { key := k, g := { g with pend := g.pend.filter Pend.waits } }

/-! ## Engine entries (R483) -/

/-- The command codes. -/
def MKind.code : MKind → Nat
  | .mloop => 1 | .mconv => 2 | .mstore => 3 | .mzero => 4

/-- A matrix command entry. -/
def mcmdPieces (o : Nat) (m : MCmd) : List Piece :=
  (o, 16, m.fmt.toNat) :: ((m.run.mapIdx fun i w => pc4 (o + 16 + 4 * i) w.toNat)
    ++ [pc4 (o + 32) (if m.kind = .mzero then m.bank else m.ctl.toNat), pc4 (o + 36) m.bar, pc4 (o + 40) m.next,
        (o + 44, 1, m.kind.code + (if m.fault.isSome then 8 else 0) + 16), (o + 45, 1, m.gid.toNat), pc8 (o + 48) m.cpc.toNat])

/-- A bank-state entry. -/
def bankPieces (o : Nat) (b : Bank) (held : Bool) : List Piece :=
  [pc4 o (0x01010000 + b.flags.toNat), pc4 (o + 4) b.nrep, pc4 (o + 8) b.kfirst, pc4 (o + 12) (b.opnd * 2 ^ 16 + b.pos),
   pc4 (o + 16) b.stfirst, pc4 (o + 20) (min b.steps (2 ^ 32 - 1)), pc8 (o + 24) b.kcount, (o + 32, 16, b.rowmask.toNat),
   (o + 48, 1, if held then 1 else 0)]

/-- A bank of a slot: its state and its image. -/
def bankOfSlot (s : State) (k n uid ctx : Nat) : Bank :=
  let o := 0x1000 + 64 * n
  { acc := (SMap.slice s.mem (k + 0x2000 + 0x20000 * n) (k + 0x2000 + 0x20000 * (n + 1))).foldl (fun a e =>
      let i := (e.1 - (k + 0x2000 + 0x20000 * n)) / 4
      SMap.set 0 a i (BitVec.ofNat 32 (recNat s k (0x2000 + 0x20000 * n + 4 * i) 4))) [],
    flags := BitVec.ofNat 5 (recNat s k o 4), nrep := recNat s k (o + 4) 4, kfirst := recNat s k (o + 8) 4,
    opnd := recNat s k (o + 14) 2 % 4, pos := recNat s k (o + 12) 2, stfirst := recNat s k (o + 16) 4,
    steps := recNat s k (o + 20) 4, kcount := recNat s k (o + 24) 8, rowmask := BitVec.ofNat 128 (recNat s k (o + 32) 16),
    holder := some uid, ctx := ctx }

/-- The first tile of a Flowstone command, which SPROJ and SBIN have not. -/
def SplatCmd.first (c : SplatCmd) : Nat := if c.fn.toNat < 2 then 0 else (c.run.getD 3 0).toNat

/-- A Flowstone entry. -/
def splatPieces (o : Nat) (c : SplatCmd) : List Piece :=
  (c.run.mapIdx fun i w => pc4 (o + 4 * i) w.toNat)
    ++ [pc4 (o + 32) c.bar, (o + 36, 1, c.fn.toNat + (if c.started then 4 else 0) + (if c.inAdd then 8 else 0) + 16),
        (o + 37, 1, c.gid.toNat), pc8 (o + 40) c.charge, pc4 (o + 48) (c.first + c.next), pc4 (o + 52) c.phase,
        pc4 (o + 56) (if c.inAdd then c.addIdx else if c.fn = 1 then c.cnt else 0), pc8 (o + 64) c.cpc.toNat]

end Sys2Proof.Machine
end

