-- ==== Sys2Proof/Machine/SplatMath.lean ====
section
/-! DEFINITION. The arithmetic of Flowstone: the projection of a Gaussian (R309), the blend of a pixel (R311) and its
backward pass (R314), all on exact values with the roundings the manual names. -/

namespace Sys2Proof.Machine

/-! ## The camera (R302) -/

/-- A camera record. -/
structure Camera where
  v    : List Rat
  tau  : List Rat
  fx   : Rat
  fy   : Rat
  cx   : Rat
  cy   : Rat
  near : Rat
  w    : Nat
  h    : Nat

/-- TX. -/
def Camera.tilesX (c : Camera) : Nat := (c.w + 15) / 16
/-- TY. -/
def Camera.tilesY (c : Camera) : Nat := (c.h + 15) / 16
/-- T, the tiles of the image. -/
def Camera.tiles (c : Camera) : Nat := c.tilesX * c.tilesY

/-- A finite f32. -/
def isFin (w : Word) : Bool :=
  match f32v w with
  | .fin _ _ => true
  | _ => false

/-- The rational of a finite f32. -/
def ratOf (w : Word) : Rat := (f32v w).toRat

/-- R302: the camera record of 32 words, if it passes its checks. -/
def cameraOf (ws : List Word) : Option Camera :=
  let f := ws.take 16 ++ [ws.getD 17 0]
  let near := ratOf (ws.getD 17 0)
  let d := (ws.getD 16 0).toNat
  let r (i : Nat) : Rat := ratOf (ws.getD i 0)
  if !f.all isFin || near ≤ 0 || d % 2 ^ 16 = 0 || 16384 < d % 2 ^ 16 || d / 2 ^ 16 = 0 || 16384 < d / 2 ^ 16
    || (ws.drop 18).any (· ≠ 0) then none
  else some { v := (List.range 9).map r, tau := (List.range 3).map fun i => r (9 + i), fx := r 12, fy := r 13, cx := r 14,
              cy := r 15, near := near, w := d % 2 ^ 16, h := d / 2 ^ 16 }

/-! ## Intervals -/

/-- An interval that holds an exact real. -/
abbrev Iv := Rat × Rat

/-- The interval of k + Σ c × e. -/
def ivLin (k : Rat) (ts : List (Rat × Iv)) : Iv :=
  ts.foldl (fun a t => (a.1 + min (t.1 * t.2.1) (t.1 * t.2.2), a.2 + max (t.1 * t.2.1) (t.1 * t.2.2))) (k, k)

/-- The square of an interval. -/
def ivSq (a : Iv) : Iv :=
  (if a.1 ≤ 0 && 0 ≤ a.2 then 0 else min (a.1 * a.1) (a.2 * a.2), max (a.1 * a.1) (a.2 * a.2))

/-- Whether Σ c e^x is 0, from its pairs (x, c). The numbers e^x of distinct rationals x are linearly independent over the rationals
(Lindemann and Weierstrass), so it is where the coefficients of each exponent add up to 0. -/
def expZero (ts : List (Rat × Rat)) : Bool :=
  ts.all fun t => ((ts.filter fun u => u.1 = t.1).map fun u => u.2).sum = 0

/-- RoundNE of a quotient p / q of such sums that an interval holds: exact for a point, and where the quotient is a number that rounds
to itself or lies midway between two; where both ends round alike, theirs; `none` where the enclosure leaves it open. -/
def ivRound (p q : List (Rat × Rat)) (a : Iv) : Option (Word × Flags) :=
  let f (x : Rat) : Word × Flags := roundF32 (XReal.ofRat false x) ⟨false, .near⟩
  let lo := f a.1
  let hi := f a.2
  let (u, v) := (ratOf lo.1, ratOf hi.1)
  match [u, v, (u + v) / 2].find? fun x => x ≠ 0 && expZero (p ++ q.map fun t => (t.1, -(x * t.2))) with
  | some x => some (f x)
  | none => if a.1 = a.2 then some lo else if lo.1 = hi.1 then some (lo.1, lo.2 ||| hi.2 ||| fInx) else none

/-! ## Projection (R309) -/

/-- Ceil(3 √(X + √D)): the least n from `n` up with n²/9 − X ≥ √D. -/
def radFrom (X D : Rat) : Nat → Nat → Nat
  | 0, n => n
  | k + 1, n =>
    let y := mkRat (n * n) 9 - X
    if 0 ≤ y && D ≤ y * y then n else radFrom X D k (n + 1)

/-- √D from below, within 2^−64. -/
def sqrtBelow (D : Rat) : Rat := mkRat (isqrt (D * (2 ^ 128 : Nat)).floor.toNat) (2 ^ 64)

/-- R309: rad, from λ's parts. -/
def radOf (X D : Rat) : Nat :=
  if (2 ^ 40 : Nat) ≤ X then 2 ^ 20 else radFrom X D 8 (isqrt (9 * (X + sqrtBelow D)).floor.toNat)

/-- The row i of a 3 × 3 matrix of rationals times a vector. -/
def dot3 (a b : List Rat) : Rat := (List.zip a b).foldl (fun s p => s + p.1 * p.2) 0

/-- R309: the rotation matrix of a quaternion, exact after normalisation. -/
def quatRows (w x y z : Rat) : List (List Rat) :=
  let n := w * w + x * x + y * y + z * z
  [[1 - 2 * (y * y + z * z) / n, 2 * (x * y - w * z) / n, 2 * (x * z + w * y) / n],
   [2 * (x * y + w * z) / n, 1 - 2 * (x * x + z * z) / n, 2 * (y * z - w * x) / n],
   [2 * (x * z - w * y) / n, 2 * (y * z + w * x) / n, 1 - 2 * (x * x + y * y) / n]]

/-- Σ′ as a constant plus coefficients of e^(2ℓ), one entry for each distinct exponent: (2ℓ, c11, c22, c12). -/
abbrev CovTerms := List (Rat × Rat × Rat × Rat)

/-- Adds a term to the entry of its exponent. -/
def CovTerms.add (ts : CovTerms) (l a b c : Rat) : CovTerms :=
  match ts with
  | [] => [(l, a, b, c)]
  | t :: ts => if t.1 = l then (l, t.2.1 + a, t.2.2.1 + b, t.2.2.2 + c) :: ts else t :: CovTerms.add ts l a b c

/-- R309: Σ′ − (3/10) I = Σ e^(2ℓi) ui uiᵀ, with ui = J V qi. -/
def covTerms (c : Camera) (p : List Rat) (q : List (List Rat)) (ls : List Rat) : CovTerms :=
  let px := p.getD 0 0
  let py := p.getD 1 0
  let pz := p.getD 2 0
  let col (m : List (List Rat)) (i : Nat) : List Rat := m.map fun r => r.getD i 0
  let vrows := [c.v.take 3, (c.v.drop 3).take 3, c.v.drop 6]
  let j0 := [c.fx / pz, 0, -(c.fx * px) / (pz * pz)]
  let j1 := [0, c.fy / pz, -(c.fy * py) / (pz * pz)]
  (List.range 3).foldl (fun (ts : CovTerms) i =>
    let vq := vrows.map fun r => dot3 r (col q i)
    let u0 := dot3 j0 vq
    let u1 := dot3 j1 vq
    ts.add (2 * ls.getD i 0) (u0 * u0) (u1 * u1) (u0 * u1)) []

/-- exp(y) with p bits after the point, 0 ≤ y < 1 from below and above, by Horner's rule from term n down to term k. -/
def fineExpFrom (p : Nat) (y : Nat × Nat) : Nat → Nat → Nat × Nat
  | 0, _ => (2 ^ p, 2 * 2 ^ p)
  | n + 1, k =>
    let h := fineExpFrom p y n (k + 1)
    (2 ^ p + y.1 * h.1 / (k * 2 ^ p), 2 ^ p + y.2 * h.2 / (k * 2 ^ p) + 1)

/-- n squarings of a number with p bits after the point. -/
def fineSquares (p : Nat) : Nat → Nat × Nat → Nat × Nat
  | 0, a => a
  | n + 1, a => fineSquares p n (a.1 * a.1 / 2 ^ p, a.2 * a.2 / 2 ^ p + 1)

/-- e^x for |x| < 2^16, enclosed with some p bits. -/
def fineExp (p : Nat) (x : Rat) : Iv :=
  let y := ((if x < 0 then -x else x) / (2 ^ 16 : Nat) * (2 ^ p : Nat)).floor.toNat
  let e := fineSquares p 16 (fineExpFrom p (y, y + 1) p 1)
  if x < 0 then (mkRat (2 ^ p : Nat) e.2, mkRat (2 ^ p : Nat) e.1) else (mkRat e.1 (2 ^ p), mkRat e.2 (2 ^ p))

/-- e^x for x ≤ 0 beside terms of size 1, with some p bits (0: those of the lane's own unit): below −20,000 every positive number under
2^−28,000 rounds alike. -/
def expIv (p : Nat) (x : Rat) : Iv :=
  if x < -20000 then (pow2 (-40000), pow2 (-28000)) else if x = 0 then (1, 1) else if p = 0 then ratExp x else fineExp p x

/-- A sum Σ c e^x as (M, s): it is e^M s, with M the largest exponent of a term that is not 0. -/
def expSum (p : Nat) (ts : List (Rat × Rat)) : Rat × Iv :=
  match ts.filter fun t => t.2 ≠ 0 with
  | [] => (0, (0, 0))
  | u :: us =>
    let M := us.foldl (fun m t => max m t.1) u.1
    (M, ivLin 0 ((u :: us).map fun t => (t.2, expIv p (t.1 - M))))

/-- The product of an interval with one of positive numbers. -/
def ivScale (a e : Iv) : Iv :=
  (a.1 * (if a.1 < 0 then e.2 else e.1), a.2 * (if a.2 < 0 then e.1 else e.2))

/-- a / b for sums, b > 0, with an exponent of a that does not pass that of b, with some p bits: rounded. -/
def expQuot (p : Nat) (a b : List (Rat × Rat)) : Option (Word × Flags) :=
  let x := expSum p a
  let y := expSum p b
  ivRound a b (ivScale (ivScale x.2 (1 / y.2.2, 1 / y.2.1)) (expIv p (x.1 - y.1)))

/-- R309: Σ′11 or Σ′22 of terms, by a choice of coefficient. -/
def CovTerms.diag (ts : CovTerms) (f : Rat × Rat × Rat → Rat) : List (Rat × Rat) := (0, 3 / 10) :: ts.map fun t => (t.1, f t.2)

/-- The pairs of a list, each once. -/
def pairsOf {α : Type} : List α → List (α × α)
  | [] => []
  | x :: xs => xs.map (fun y => (x, y)) ++ pairsOf xs

/-- R309: the determinant of Σ′ with k for 3/10 as a sum of terms; for 3/10 it is det, and none is negative. -/
def CovTerms.detAt (ts : CovTerms) (k : Rat) : List (Rat × Rat) :=
  (0, k * k) :: ts.map (fun t => (t.1, k * (t.2.1 + t.2.2.1)))
    ++ ts.map (fun t => (2 * t.1, t.2.1 * t.2.2.1 - t.2.2.2 * t.2.2.2))
    ++ (pairsOf ts).map fun e =>
      (e.1.1 + e.2.1, e.1.2.1 * e.2.2.2.1 + e.2.2.1 * e.1.2.2.1 - 2 * (e.1.2.2.2 * e.2.2.2.2))

/-- The precisions of enclosures, in bits, until one settles a value. -/
def firstSettled {α : Type} (f : Nat → Option α) : Option α := [0, 512, 2048].findSome? f

/-- R309: the conic of a covariance; `none` for a rounding that the enclosures leave open. -/
def conicOf (ts : CovTerms) : List (Option (Word × Flags)) :=
  let s11 := ts.diag fun c => c.1
  let s22 := ts.diag fun c => c.2.1
  if ts.all fun t => t.2.2.2 = 0 then
    [firstSettled fun p => expQuot p [(0, 1)] s11, some (roundF32 (.fin false 0) ⟨false, .near⟩), firstSettled fun p => expQuot p [(0, 1)] s22]
  else
    let det := ts.detAt (3 / 10)
    [firstSettled fun p => expQuot p s22 det, firstSettled fun p => expQuot p (ts.map fun t => (t.1, -t.2.2.2)) det,
     firstSettled fun p => expQuot p s11 det]

/-- R309: the radius of a covariance (2^20 for every larger one), with some p bits; `none` where the enclosures leave it open. Where they
leave open whether λ passes (r/3)², it does not if that is the larger eigenvalue. -/
def radiusAt (ts : CovTerms) (p : Nat) : Option Nat :=
  if ts.any fun t => 20000 < t.1 && (t.2.1 ≠ 0 || t.2.2.1 ≠ 0) then some (2 ^ 20)
  else
    let es := ts.map fun t => (t, expIv p (min t.1 20000))
    let s11 := ivLin (3 / 10) (es.map fun e => (e.1.2.1, e.2))
    let s22 := ivLin (3 / 10) (es.map fun e => (e.1.2.2.1, e.2))
    let s12 := ivLin 0 (es.map fun e => (e.1.2.2.2, e.2))
    let zero := ts.all fun t => t.2.2.2 = 0
    let q := ivSq s12
    let d : Iv := ((s11.1 - s22.2) / 2, (s11.2 - s22.1) / 2)
    let X : Iv := if zero then (max s11.1 s22.1, max s11.2 s22.2) else ((s11.1 + s22.1) / 2, (s11.2 + s22.2) / 2)
    let D : Iv := if zero then (0, 0) else ((ivSq d).1 + q.1, (ivSq d).2 + q.2)
    let r := radOf X.1 D.1
    let m : Rat := mkRat (r * r) 9
    if r = radOf X.2 D.2 || (expZero (ts.detAt (3 / 10 - m)) && X.2 ≤ m && radOf X.2 D.2 = r + 1) then some r else none

/-- R309: the radius of a covariance. -/
def radiusOf (ts : CovTerms) : Option Nat := firstSettled (radiusAt ts)

/-- R303: an invalid record with a reason bit. -/
def badRecord (bit : Nat) : List Word := List.replicate 12 0 ++ [BitVec.ofNat 32 bit] ++ List.replicate 3 0

/-- An f32 infinity. -/
def isInf32 (w : Word) : Bool := w &&& 0x7FFFFFFF = 0x7F800000

/-- R309, R303: the box words of a record, or none when it misses every tile. -/
def boxOf (c : Camera) (mx my : Rat) (rad : Nat) : Option (Word × Word) :=
  let lo (m : Rat) : Int := max 0 ((m - rad) / 16).floor
  let hi (m : Rat) (n : Nat) : Int := min ((n : Int) - 1) ((m + rad) / 16).floor
  let x0 := lo mx
  let y0 := lo my
  let x1 := hi mx c.tilesX
  let y1 := hi my c.tilesY
  if x1 < x0 || y1 < y0 then none else some (BitVec.ofInt 32 (x0 + y0 * 65536), BitVec.ofInt 32 (x1 + y1 * 65536))

/-- R309: the record written for an accepted Gaussian whose outputs are known. -/
def goodRecord (c : Camera) (ws : List Word) (outs : List Word) (rad : Nat) : List Word :=
  let box := boxOf c (ratOf (outs.getD 0 0)) (ratOf (outs.getD 1 0)) rad
  let b := box.getD (0, 0)
  outs ++ [BitVec.ofNat 32 rad, ws.getD 8 0, ws.getD 9 0, ws.getD 10 0, ws.getD 11 0, ws.getD 12 0,
    (if box.isSome then 1 else 33), b.1, b.2, 0]

/-- R309: the projected record of a Gaussian record of sixteen words, with its flags. -/
def project (c : Camera) (ws : List Word) : List Word × Flags :=
  let half (i : Nat) : XReal := fpValue .f16 ((ws.getD (6 + i / 2) 0).toNat / 2 ^ (16 * (i % 2)) % 2 ^ 16)
  let qs := (List.range 4).map half
  let fin (x : XReal) : Bool := match x with | .fin _ _ => true | _ => false
  let r (i : Nat) : Rat := ratOf (ws.getD i 0)
  if !((ws.take 6 ++ (ws.drop 8).take 4).all isFin) || !qs.all fin || qs.all (fun q => decide (q.toRat = 0)) then (badRecord 4, fInv)
  else
    let p := (List.range 3).map fun i => dot3 ((c.v.drop (3 * i)).take 3) [r 0, r 1, r 2] + c.tau.getD i 0
    let pz := p.getD 2 0
    if pz < c.near then (badRecord 2, 0)
    else
      let q (i : Nat) : Rat := (qs.getD i (.fin false 0)).toRat
      let ts := covTerms c p (quatRows (q 0) (q 1) (q 2) (q 3)) [r 3, r 4, r 5]
      let one (x : Rat) : Word × Flags := roundF32 (XReal.ofRat false x) ⟨false, .near⟩
      let free (i : Nat) : Word := Config.unsettled (32 + i) (leValue (bytesOf ws))
      let conic := (conicOf ts).mapIdx fun i o => o.getD (free i, fInx)
      let rad := (radiusOf ts).getD (free 3).toNat
      let outs := [one (c.fx * p.getD 0 0 / pz + c.cx), one (c.fy * p.getD 1 0 / pz + c.cy)] ++ conic ++ [one pz]
      let fl := outs.foldl (fun (a : Flags) o => a ||| o.2) 0
      if outs.any (fun o => isInf32 o.1) || 2 ^ 20 ≤ rad then (badRecord 8, fl ||| fOvf)
      else (goodRecord c ws (outs.map fun o => o.1) rad, fl)

/-! ## A pixel (R311) -/

/-- A splat as SBLEND reads it: its record's index and words. -/
abbrev Splat := Nat × List Word

/-- One splat that a pixel has added, as SGRAD keeps it (R314). -/
structure Step where
  sp    : Splat
  dx    : Word
  dy    : Word
  gv    : Word
  alpha : Word
  clamp : Bool
  t     : Word

/-- A pixel as it is blended. -/
structure Pixel where
  c     : List Word := [0, 0, 0]
  t     : Word := 0x3F800000
  cnt   : Nat := 0
  stop  : Bool := false
  flags : Flags := 0
  trace : List Step := []

/-- RoundNE into f32 of an exact value. -/
def rne (x : XReal) : Word × Flags := roundF32 x ⟨false, .near⟩

/-- R311: a > b on f32 words; false for a NaN. -/
def gt32 (a b : Word) : Bool := (fpCompare .lt (f32v b) (f32v a)).1

/-- R311: pw of a splat at a distance. -/
def powOf (sp : List Word) (dx dy : Word) : Word × Flags :=
  let x := f32v dx
  let y := f32v dy
  let two : XReal := .fin false 2
  let q := XReal.add .near (XReal.add .near (XReal.mul (f32v (sp.getD 2 0)) (XReal.mul x x))
    (XReal.mul two (XReal.mul (f32v (sp.getD 3 0)) (XReal.mul x y)))) (XReal.mul (f32v (sp.getD 4 0)) (XReal.mul y y))
  match XReal.mul q.neg (.fin false (1 / 2)) with
  | .fin n m => rne (if m = 0 then .fin false 0 else .fin n m)
  | z => rne z

/-- R311: the splat `sp` at pixel (x, y). -/
def blendStep (cut : Word) (px py : Nat) (a : Pixel) (sp : Splat) : Pixel :=
  if a.stop then a
  else
    let w (i : Nat) : Word := sp.2.getD i 0
    let centre (n : Nat) : XReal := .fin false ((n : Rat) + 1 / 2)
    let (dx, f1) := rne (XReal.add .near (centre px) (f32v (w 0)).neg)
    let (dy, f2) := rne (XReal.add .near (centre py) (f32v (w 1)).neg)
    let (pw, f3) := powOf sp.2 dx dy
    let a := { a with flags := a.flags ||| f1 ||| f2 ||| f3 }
    if gt32 pw 0 then a
    else
      let (e, f4) := rne (XReal.mul (f32v pw) (f32v 0x3FB8AA3B))
      let (gv, f5) := f32Ex2 e ⟨false, .near⟩
      let (al, f6) := rne (XReal.mul (f32v (w 7)) (f32v gv))
      let clamp := gt32 al 0x3F7D70A4
      let al := if clamp then 0x3F7D70A4 else al
      let a := { a with flags := a.flags ||| f4 ||| f5 ||| f6 }
      if !(fpCompare .ge (f32v al) (f32v 0x3B808081)).1 then a
      else
        let (om, f7) := rne (XReal.add .near (.fin false 1) (f32v al).neg)
        let (tn, f8) := rne (XReal.mul (f32v a.t) (f32v om))
        let a := { a with flags := a.flags ||| f7 ||| f8 }
        if gt32 cut tn then { a with stop := true }
        else
          let (at_, f9) := rne (XReal.mul (f32v al) (f32v a.t))
          let cs := (List.range 3).map fun i =>
            rne (XReal.add .near (f32v (a.c.getD i 0)) (XReal.mul (f32v at_) (f32v (w (8 + i)))))
          { a with
            c := cs.map fun c => c.1, t := tn, cnt := a.cnt + 1,
            flags := cs.foldl (fun (x : Flags) c => x ||| c.2) (a.flags ||| f9),
            trace := a.trace ++ [{ sp := sp, dx := dx, dy := dy, gv := gv, alpha := al, clamp := clamp, t := a.t }] }

/-- R311: a pixel over its tile's list; `none` is a splat skipped for an error (R318). -/
def blendPixel (cut : Word) (sps : List (Option Splat)) (px py : Nat) : Pixel :=
  sps.foldl (fun a o => match o with | none => a | some sp => blendStep cut px py a sp) {}

/-- R312: the 32 bytes of a pixel. -/
def pixelBytes (a : Pixel) : List Byte := bytesOf (a.c ++ [a.t, BitVec.ofNat 32 a.cnt, 0, 0, 0])

/-- A NaN word. -/
def isNaN32 (w : Word) : Bool := (f32v w).isNaN

/-! ## Backwards (R314) -/

/-- A sum of exact values as IEEE 754 forms it. -/
def sumX (l : List XReal) : XReal := l.foldl (XReal.add .near) (.fin false 0)

/-- A product of exact values. -/
def prodX (l : List XReal) : XReal := l.foldl XReal.mul (.fin false 1)

/-- R314: the adds of one step, with S after it. `g` are gR, gG, gB; `gt` is gT; `tf` the final T. -/
def backStep (g : List XReal) (gt tf : XReal) (S : List XReal) (k : Step) : List (Nat × Nat × XReal) × List XReal :=
  let w (i : Nat) : XReal := f32v (k.sp.2.getD i 0)
  let al := f32v k.alpha
  let ti := f32v k.t
  let om : XReal := XReal.add .near (.fin false 1) al.neg
  let gi := k.sp.1
  let s (i : Nat) : XReal := S.getD i (.fin false 0)
  let gk (i : Nat) : XReal := g.getD i (.fin false 0)
  let dA := XReal.add .near
    (sumX ((List.range 3).map fun i => XReal.mul (gk i) (XReal.add .near (XReal.mul (w (8 + i)) ti) (XReal.div (s i) om).1.neg)))
    (XReal.div (XReal.mul gt tf) om).1.neg
  let cols := (List.range 3).map fun i => (gi, 24 + 4 * i, prodX [gk i, al, ti])
  let dx := f32v k.dx
  let dy := f32v k.dy
  let dP := XReal.mul dA al
  let rest :=
    if k.clamp then []
    else
      [(gi, 20, XReal.mul dA (f32v k.gv)),
       (gi, 0, XReal.mul dP (XReal.add .near (XReal.mul (w 2) dx) (XReal.mul (w 3) dy))),
       (gi, 4, XReal.mul dP (XReal.add .near (XReal.mul (w 3) dx) (XReal.mul (w 4) dy))),
       (gi, 8, prodX [dP.neg, dx, dx, .fin false (1 / 2)]), (gi, 12, prodX [dP.neg, dx, dy]),
       (gi, 16, prodX [dP.neg, dy, dy, .fin false (1 / 2)])]
  (cols ++ rest, (List.range 3).map fun i => XReal.add .near (s i) (prodX [w (8 + i), al, ti]))

/-- R314: the adds of a pixel, in order: record, offset, value. -/
def backPixel (g : List XReal) (gt : XReal) (a : Pixel) : List (Nat × Nat × XReal) :=
  (a.trace.reverse.foldl (fun (acc : List (Nat × Nat × XReal) × List XReal) k =>
    let r := backStep g gt (f32v a.t) acc.2 k
    (acc.1 ++ r.1, r.2)) ([], List.replicate 3 (.fin false 0))).1

/-- R314: Add: the rounded value with its flags; a NaN sets inv. -/
def addValue (x : XReal) : Word × Flags :=
  match x with
  | .nan _ => (0x7FC00000, fInv)
  | y => rne y

end Sys2Proof.Machine
end

