-- ==== Sys2Proof/Machine/Flowstone.lean ====
section
/-! DEFINITION. Flowstone (R300–R320): the SPLAT words, the start of a command, and its granules. A team's commands form
one sequence; the oldest runs, one granule an event. -/

namespace Sys2Proof.Machine

/-! ## The words (R304, R305) -/

/-- R304: the registers of a command's run. -/
def splatRun (fn : Nat) : Nat := match fn with | 0 => 1 | 1 => 1 | 2 => 6 | _ => 8

/-- R305: the objects a command names. -/
def splatObjs (fn : Nat) (run : List Word) : List (Nat × Nat × Bool) :=
  let ids := (run.getD (if fn < 2 then 0 else 2) 0).toNat
  [(ids % 2 ^ 16, 6, true), (ids / 2 ^ 16, 7, false)]
    ++ (if fn = 3 then [((run.getD 6 0).toNat % 2 ^ 16, 8, true)] else [])

/-- R305 step 3: the first object that fails its check: the code and the index. -/
def objsFault (s : State) (ctx : Nat) : List (Nat × Nat × Bool) → Option (Nat × Nat)
  | [] => none
  | o :: os =>
    match objCheck s ctx o.1 o.2.1 true o.2.2 with
    | .fault code => some (code, o.1)
    | .ok _ => objsFault s ctx os

/-- R305 step 4: a reserved bit, no tiles, or a base that is not a multiple of 256. -/
def splatBad (fn : Nat) (run : List Word) : Bool :=
  2 ≤ fn && (run.getD 4 0 = 0 || (run.getD 0 0).toNat % 256 ≠ 0
    || (fn = 3 && ((run.getD 6 0).toNat / 2 ^ 16 ≠ 0 || run.getD 7 0 ≠ 0)))

/-- R304–R306: a SPLAT word: its checks, then its place in the team's sequence; issue is a release at prt scope (R153). -/
def splatIssue (w : Bool) (fn : Nat) (a b : SReg) (s : State) : Res :=
  let n := splatRun fn
  let run := s.g.rdRun s.tick a n
  let bar := (s.g.rdS s.tick b).toNat
  if illegalHere s || 64 < a.toNat + n || (2 ≤ fn && a.toNat % 2 ≠ 0) then illegalC s
  else match barOffsetFault s bar with
    | some code => faultC s code bar
    | none =>
      let s := s.objAcquire
      match objsFault s s.g.ctx (splatObjs fn run) with
      | some (code, idx) => faultC s code idx
      | none =>
        if splatBad fn run then faultC s 0x0B 0
        else if 8 ≤ s.t.splat.length then .next (s.parkC .engine)
        else
          let c : SplatCmd := { fn := BitVec.ofNat 2 fn, gid := s.g.gid, cpc := s.g.pc, run := run, bar := bar, seq := s.tick }
          .next (((s.scopeWriteBack .prt).mapT fun t => { t with splat := t.splat ++ [c] }).endC w 4)

/-- SPROJ. -/
def execSproj (w : Bool) (a b : SReg) (s : State) : Res := splatIssue w 0 a b s
/-- SBIN. -/
def execSbin (w : Bool) (a b : SReg) (s : State) : Res := splatIssue w 1 a b s
/-- SBLEND. -/
def execSblend (w : Bool) (a b : SReg) (s : State) : Res := splatIssue w 2 a b s
/-- SGRAD. -/
def execSgrad (w : Bool) (a b : SReg) (s : State) : Res := splatIssue w 3 a b s

/-! ## The oldest command -/

/-- Replaces the oldest command of a team, or removes it. -/
def setSplat (s : State) (uid : Nat) (o : Option SplatCmd) : State :=
  s.mapTeams (fun t => t.uid = uid) fun t => { t with splat := o.toList ++ t.splat.drop 1 }

/-- The partition slice of a team's units. -/
def relOf (s : State) (t : Team) : Nat := t.ppos / 128 - (s.vf (t.ctx / 64)).first

/-- R158: the decrement of a Flowstone command of a team. -/
def SplatCmd.decr (c : SplatCmd) (t : Team) (k : Nat) : Decr :=
  { uid := t.uid, slice := t.ppos / 128, ctx := t.ctx, bar := c.bar, pc := c.cpc, gid := c.gid, k := k }

/-- R308: a charge at the command's barrier. -/
def splatCharge (s : State) (t : Team) (c : SplatCmd) (k : Nat) : State :=
  (engineCount s (c.decr t k)).countEvent t.ctx 0x0F 1

/-- R307, R317: the controller abandons a command: Misuse on its barrier, and a record. -/
def abandonSplat (s : State) (t : Team) (c : SplatCmd) (code : Nat) (addr : DWord) : State :=
  let sl := t.ppos / 128
  let s := s.escalate sl
    { code := 0x44, inner := BitVec.ofNat 8 code, pasid := (s.ctx t.ctx).pasid, pc := c.cpc, addr := addr }
  reapTeam (setSplat (abandonBarrier s (c.decr t 0)) t.uid none) t.uid

/-- R317: a fault inside a granule: it goes to the issuing group, or the controller abandons the command. -/
def splatFault (s : State) (t : Team) (c : SplatCmd) (code : Nat) (addr : DWord) : State :=
  match issuerOf s t.uid c.gid with
  | some g => deliverFault (setSplat s t.uid (some { c with stopped := true })) g.uid (BitVec.ofNat 8 code) addr
  | none => abandonSplat s t c code addr

/-- What a granule leads to: the command as it goes on (`none` once complete) with the bytes charged, a fault with the
command as it stands then, or a wait. -/
inductive Granule where
  | done (s : State) (c : Option SplatCmd) (charge : Nat)
  | fault (s : State) (c : SplatCmd) (code : Nat) (addr : DWord)
  | wait (s : State)

/-- A fault of an engine's access, or a wait for a full dirty log. -/
def granuleFault (s : State) (c : SplatCmd) (e : Nat × DWord) : Granule :=
  if e.1 = 0 then .wait s else .fault s c e.1 e.2

/-- Fields of the scene entry. -/
def SplatCmd.scene (c : SplatCmd) (i : Nat) : DWord := wordPair c.fields i
/-- N. -/
def SplatCmd.gaussians (c : SplatCmd) : Nat := (c.fields.getD 4 0).toNat % 2 ^ 24
/-- The base of the projected records. -/
def SplatCmd.proj (c : SplatCmd) : DWord := c.scene 6
/-- The tile list. -/
def SplatCmd.list (c : SplatCmd) : DWord := c.scene 8
/-- Its capacity. -/
def SplatCmd.cap (c : SplatCmd) : Nat := (c.fields.getD 10 0).toNat
/-- The range table. -/
def SplatCmd.range (c : SplatCmd) : DWord := c.scene 12
/-- The gradient array. -/
def SplatCmd.grads (c : SplatCmd) : DWord := wordPair c.fields 18
/-- m. -/
def SplatCmd.count (c : SplatCmd) : Nat := (c.run.getD 4 0).toNat
/-- The output or upstream base. -/
def SplatCmd.out (c : SplatCmd) : DWord := wordPair c.run 0
/-- The cut-off. -/
def SplatCmd.cut (c : SplatCmd) : Word := if c.run.getD 5 0 = 0 then 0x3B800000 else c.run.getD 5 0

/-- R123, R315: a Flowstone status word. -/
def splatStatus (flags : BitVec 5) (nrep kfirst opnd steps : Nat) : List Byte :=
  let z := nrep = 0
  leBytes 4 (0x01020000 + (flags ||| (if z then 0 else 16)).toNat) ++ leBytes 4 (min nrep (2 ^ 32 - 1))
    ++ leBytes 4 (if z then 0 else kfirst) ++ leBytes 4 (if z then 0 else opnd * 2 ^ 16) ++ leBytes 4 0
    ++ leBytes 4 (min steps (2 ^ 32 - 1)) ++ leBytes 8 0

/-- A record of n bytes, aligned to its size, with whether it is poisoned (R318). -/
def readRec (s : State) (ctx rel : Nat) (va : DWord) (n : Nat) : State × Except (Nat × DWord) (List Byte × Bool) :=
  match translateVA s ctx va n .rd true rel with
  | (s, .fault code) => (s, .error (code, va))
  | (s, .full) => (s, .error (0, va))
  | (s, .ok key _) => (s, .ok (s.rdMemN key n, s.poisoned key n))

/-! ## Start (R307) -/

/-- R300, R307: the limits of the entries, for a camera. -/
def splatFieldsOk (c : SplatCmd) (cam camEntry : List Word) : Bool :=
  let fn := c.fn.toNat
  let al (x : DWord) : Bool := x.toNat % 64 = 0
  1 ≤ c.gaussians && (c.fields.getD 4 0).toNat / 2 ^ 24 = 0 && c.fields.getD 5 0 = 0 && c.fields.getD 11 0 = 0
    && c.fields.getD 14 0 = 0 && c.fields.getD 15 0 = 0
    && al (c.scene 2) && al c.proj && al c.list && al c.range && al (wordPair camEntry 2) && (camEntry.drop 4).all (· = 0)
    && (fn ≠ 3 || (al c.grads && (c.fields.getD 20 0).toNat / 2 ^ 24 = 0 && (c.fields.drop 21).all (· = 0)
          && c.gaussians ≤ (c.fields.getD 20 0).toNat))
    && (match cameraOf cam with | none => false | some k => fn < 2 || c.first + c.count ≤ k.tiles)

/-- The words of the entries of a list, or none. -/
def objWords (s : State) (ctx : Nat) : List (Nat × Nat × Bool) → Option (List (List Word))
  | [] => some []
  | o :: os =>
    match objCheck s ctx o.1 o.2.1 true o.2.2 with
    | .fault _ => none
    | .ok ws => (objWords s ctx os).map fun r => ws :: r

/-- R307: the start of a team's oldest command. -/
def splatStart (s : State) (t : Team) (c : SplatCmd) : State :=
  match objWords s t.ctx (splatObjs c.fn.toNat c.run) with
  | some (scene :: cam :: rest) =>
    let c1 := { c with fields := scene ++ rest.headD [] }
    let base := wordPair cam 2
    if base.toNat % 64 ≠ 0 then abandonSplat s t c 0x0B 0
    else
      (match readRec s t.ctx (relOf s t) base 64 with
       | (s, .error e) => splatFault s t c e.1 e.2
       | (s, .ok (b0, p0)) =>
         match readRec s t.ctx (relOf s t) (base + 64) 64 with
         | (s, .error e) => splatFault s t c e.1 e.2
         | (s, .ok (b1, p1)) =>
           let ws := wordsOf (b0 ++ b1)
           if p0 || p1 || !splatFieldsOk c1 ws cam then abandonSplat s t c 0x0B 0
           else setSplat s t.uid (some { c1 with started := true, camera := ws }))
  | _ => abandonSplat s t c 0x0B 0

/-- The Flowstone unit of its slice that runs a team's commands (log 23). -/
def splatUnit (t : Team) : Nat := t.uid % 4

/-- R319: an add stage that has begun: it completes before its team is saved. -/
def SplatCmd.adding (c : SplatCmd) : Bool := c.inAdd && !c.stopped && !c.status.isEmpty

/-- The oldest command of a team, where nothing but its unit's order holds it: neither its unit nor its context is frozen (R379), it
is not stopped, and its team is not halted. -/
def splatHead (s : State) (t : Team) : Option SplatCmd :=
  match t.splat with
  | [] => none
  | c :: _ =>
    if !t.live || c.stopped || (s.slice (t.ppos / 128)).splFrozen.contains (splatUnit t) || ctxFrozen s t.ctx then none
    else if c.adding || s.allGroups.all fun g => !(g.team = t.uid && g.live && g.halted) then some c
    else none

/-- R306: whether an older command goes first on the unit of a team: one of another team there that may run and is not held by a
full dirty log. -/
def splatBehind (s : State) (t : Team) (c : SplatCmd) : Bool :=
  s.allTeams.any fun u => u.uid ≠ t.uid && u.ppos / 128 = t.ppos / 128 && splatUnit u = splatUnit t
    && !(s.logq.any fun e => e.2 = .splat u.uid) && (match splatHead s u with | some d => d.seq < c.seq | none => false)

/-- The oldest command of a team, when its unit takes it next. -/
def headSplat (s : State) (uid : Nat) : Option (Team × SplatCmd) :=
  (s.team? uid).bind fun t => (splatHead s t).bind fun c => if splatBehind s t c then none else some (t, c)

/-- SPLAT_COMMAND_START. -/
def execSplatCommandStart (team : Nat) (s : State) : Res :=
  match headSplat s team with
  | none => .next s
  | some (t, c) => .next (if c.started then s else splatStart { s with writer := some (.splat team) } t c)

/-! ## Granules -/

/-- The camera of a started command. -/
def SplatCmd.cam (c : SplatCmd) : Camera :=
  (cameraOf c.camera).getD { v := [], tau := [], fx := 0, fy := 0, cx := 0, cy := 0, near := 1, w := 1, h := 1 }

/-- What SPROJ gathers over a granule. -/
structure ProjAcc where
  s      : State
  out    : List Byte
  flags  : BitVec 5
  nrep   : Nat
  kfirst : Nat
  ok     : Nat
  err    : Option (Nat × DWord)

/-- R309, R318: record g of a granule. -/
def projOne (t : Team) (c : SplatCmd) (cam : Camera) (a : ProjAcc) (g : Nat) : ProjAcc :=
  if a.err.isSome then a
  else match readRec a.s t.ctx (relOf a.s t) (c.scene 2 + BitVec.ofNat 64 (64 * g)) 64 with
    | (s, .error e) => { a with s := s, err := some e }
    | (s, .ok (bs, bad)) =>
      let (ws, fl) := if bad then (badRecord 16, 0) else project cam (wordsOf bs)
      { a with
        s := s, out := a.out ++ bytesOf ws, flags := a.flags ||| statusFlags fl,
        nrep := if bad then a.nrep + 1 else a.nrep, kfirst := if bad && a.nrep = 0 then g else a.kfirst,
        ok := a.ok + (ws.getD 12 0).toNat % 2 }

/-- R309, R316: SPROJ's granule from record `next`. -/
def sprojGranule (s : State) (t : Team) (c : SplatCmd) : Granule :=
  let n := c.gaussians
  let k := min 256 (n - c.next)
  let a := ((List.range k).map fun i => c.next + i).foldl (projOne t c c.cam)
    { s := s, out := [], flags := c.flags, nrep := c.nrep, kfirst := c.kfirst, ok := c.cnt, err := none }
  match a.err with
  | some e => granuleFault a.s c e
  | none =>
    let last := n ≤ c.next + k
    let tail := if last then splatStatus a.flags a.nrep a.kfirst 1 a.ok else []
    match engWriteN a.s t.ctx (relOf s t) (c.proj + BitVec.ofNat 64 (64 * c.next)) (a.out ++ tail) with
    | (s, some e) => granuleFault s c e
    | (s, none) =>
      if last then .done s none (64 * n + 32)
      else .done s (some { c with next := c.next + k, flags := a.flags, nrep := a.nrep, kfirst := a.kfirst, cnt := a.ok }) 0

/-- R310: the box of a projected record that is binned: depth bits, id, and the tiles it touches. -/
def binOf (cam : Camera) (ws : List Word) : Option (Nat × Nat × List Nat) :=
  let f := (ws.getD 12 0).toNat
  if f % 2 = 0 || f / 32 % 2 = 1 then none
  else
    let x0 := (ws.getD 13 0).toNat % 2 ^ 16
    let y0 := (ws.getD 13 0).toNat / 2 ^ 16
    let x1 := (ws.getD 14 0).toNat % 2 ^ 16
    let y1 := (ws.getD 14 0).toNat / 2 ^ 16
    some ((ws.getD 5 0).toNat, (ws.getD 11 0).toNat, [x0, y0, min x1 (cam.tilesX - 1), min y1 (cam.tilesY - 1)])

/-- The tiles of a box. -/
def boxTiles (b : List Nat) : Nat := (b.getD 2 0 + 1 - b.getD 0 0) * (b.getD 3 0 + 1 - b.getD 1 0)
/-- R310: whether a tile lies in a box. -/
def inBox (cam : Camera) (b : List Nat) (t : Nat) : Bool :=
  b.getD 0 0 ≤ t % cam.tilesX && t % cam.tilesX ≤ b.getD 2 0 && b.getD 1 0 ≤ t / cam.tilesX && t / cam.tilesX ≤ b.getD 3 0

/-- The records of a granule of SBIN as they read now: index and box entry, with the uncorrectable ones. -/
structure BinAcc where
  s   : State
  ok  : List (Nat × Nat × Nat × List Nat)
  bad : List Nat
  err : Option (Nat × DWord)

/-- R310: record g is read. -/
def binOne (t : Team) (c : SplatCmd) (cam : Camera) (a : BinAcc) (g : Nat) : BinAcc :=
  if a.err.isSome then a
  else match readRec a.s t.ctx (relOf a.s t) (c.proj + BitVec.ofNat 64 (64 * g)) 64 with
    | (s, .error e) => { a with s := s, err := some e }
    | (s, .ok (bs, true)) => ignore s bs g
    | (s, .ok (bs, false)) =>
      match binOf cam (wordsOf bs) with
      | none => { a with s := s }
      | some (d, id, box) => { a with s := s, ok := a.ok ++ [(g, d, id, box)] }
where
  /-- R315: a poisoned record is not binned. -/
  ignore (s : State) (_bs : List Byte) (g : Nat) : BinAcc := { a with s := s, bad := a.bad ++ [g] }

/-- The order of a tile's list. -/
def binLess (a b : Nat × Nat × Nat × List Nat) : Bool :=
  a.2.1 < b.2.1 || (a.2.1 = b.2.1 && (a.2.2.1 < b.2.2.1 || (a.2.2.1 = b.2.2.1 && a.1 < b.1)))

/-- Insertion into a sorted list. -/
def binInsert (x : Nat × Nat × Nat × List Nat) : List (Nat × Nat × Nat × List Nat) → List (Nat × Nat × Nat × List Nat)
  | [] => [x]
  | y :: ys => if binLess x y then x :: y :: ys else y :: binInsert x ys

/-- R310: the list of a tile, sorted. -/
def tileList (cam : Camera) (bs : List (Nat × Nat × Nat × List Nat)) (t : Nat) : List (Nat × Nat × Nat × List Nat) :=
  (bs.filter fun b => inBox cam b.2.2.2 t).foldl (fun l x => binInsert x l) []

/-- R310: the number of entries that precede a tile's list. -/
def tileStart (cam : Camera) (bs : List (Nat × Nat × Nat × List Nat)) (t : Nat) : Nat :=
  ((List.range t).map fun u => bs.countP fun b => inBox cam b.2.2.2 u).sum

/-- R310: the entries of a tile's list that have been placed: those of the records before the next one. -/
def placedIn (cam : Camera) (c : SplatCmd) (t : Nat) : Nat :=
  c.binned.countP fun b => inBox cam b.2.2.2 t && (c.phase ≠ 1 || b.1 < c.next)

/-- R310: the range entry of a tile (start, count), within the bounds the rule gives. -/
def boundEntry (c : SplatCmd) (start n : Nat) : Nat × Nat := (min start c.cap, min n (c.cap - start))

/-- R310, R483: what the range table holds of a tile between granules: its count so far in counting, its start and what has been placed
in placing, its start and count then (DESIGN CHOICE, log 23: the layout is the model's); 0 once the list is too long. -/
def tableEntry (c : SplatCmd) (cam : Camera) (t : Nat) : Nat × Nat :=
  if c.phase = 0 then boundEntry c 0 (placedIn cam c t)
  else if c.cap < c.cnt then (0, 0)
  else boundEntry c (tileStart cam c.binned t) (placedIn cam c t)

/-- R310: whether the range table holds what a command has left there, tile by tile from `t`: an entry is as one of two commands leaves it.
An entry that cannot be read is passed over. -/
def tableHolds (s : State) (t : Team) (cam : Camera) (c c1 : SplatCmd) (tile : Nat) : Bool :=
  match (translateVA s t.ctx (c.range + BitVec.ofNat 64 (8 * tile)) 8 .rd true (relOf s t)).2 with
  | .ok key _ =>
    let e := (s.rdMemNat key 4, s.rdMemNat (key + 4) 4)
    !s.poisoned key 8 && (e = tableEntry c cam tile || e = tableEntry c1 cam tile)
  | _ => true

/-- R310: what a sorting granule writes for tile `t`: its start and its list entries. Where another agent wrote the
records or the range table meanwhile, both are free within the bounds the rule gives. -/
def tileEntries (s : State) (c : SplatCmd) (cam : Camera) (t : Nat) : Nat × List Nat :=
  if c.cap < c.cnt then (0, [])
  else if c.raced then
    let start := Config.sbinRace (s.tick + t) % (c.cap + 1)
    let n := Config.sbinRace (s.tick + t + 1) % (c.cap + 1 - start)
    (start, (List.range n).map fun i => Config.sbinRace (s.tick + t + i) % c.gaussians)
  else (tileStart cam c.binned t, (tileList cam c.binned t).map fun b => b.1)

/-- R310, R316: a sorting granule: tile `next`; the last one writes the status word. -/
def sbinSort (s : State) (t : Team) (c : SplatCmd) (cam : Camera) : Granule :=
  let rel := relOf s t
  let c := { c with raced := c.raced || !tableHolds s t cam c c c.next }
  let (start, es) := tileEntries s c cam c.next
  let T := cam.tiles
  let tail := (8 * T + 31) / 32 * 32
  let E := if c.raced then Config.sbinRace s.tick else c.cnt
  let ovf : BitVec 5 := if c.cap < c.cnt then 2 else 0
  match engWriteN s t.ctx rel (c.list + BitVec.ofNat 64 (4 * start)) (es.flatMap (leBytes 4)) with
  | (s, some e) => granuleFault s c e
  | (s, none) =>
    match engWriteN s t.ctx rel (c.range + BitVec.ofNat 64 (8 * c.next)) (leBytes 4 start ++ leBytes 4 es.length) with
    | (s, some e) => granuleFault s c e
    | (s, none) =>
      if c.next + 1 < T then .done s (some { c with next := c.next + 1 }) 0
      else
        match engWriteN s t.ctx rel (c.range + BitVec.ofNat 64 tail) (splatStatus ovf c.nrep c.kfirst 1 E) with
        | (s, some e) => granuleFault s c e
        | (s, none) => .done s none (tail + 32)

/-- R310, R315: a command of SBIN after a counting or placing granule of k records, as they read now. A record that is first unreadable
in placing is not binned; another difference between the two readings is a race. -/
def binStep (c : SplatCmd) (k : Nat) (a : BinAcc) : SplatCmd :=
  let bads := c.bads ++ a.bad.filter fun g => !c.bads.contains g
  let size (bs : List (Nat × Nat × Nat × List Nat)) : Nat := (bs.map fun b => boxTiles b.2.2.2).sum
  let c1 : SplatCmd :=
    if c.phase = 0 then { c with binned := c.binned ++ a.ok, cnt := c.cnt + size a.ok }
    else
      let kept := c.binned.filter fun b => !a.bad.contains b.1
      let was := kept.filter fun b => c.next ≤ b.1 && b.1 < c.next + k
      { c with binned := kept, cnt := size kept, raced := c.raced || decide (was ≠ a.ok) }
  let c1 := { c1 with bads := bads, nrep := bads.length, kfirst := bads.foldl min (bads.headD 0) }
  if c.gaussians ≤ c.next + k then { c1 with phase := c.phase + 1, next := 0 } else { c1 with next := c.next + k }

/-- R310, R316: SBIN's granule: counting, placing, sorting. Counts and starts stand in the range table between granules (R483). -/
def sbinGranule (s : State) (t : Team) (c : SplatCmd) : Granule :=
  let cam := c.cam
  if c.phase = 2 then sbinSort s t c cam
  else
    let k := min 256 (c.gaussians - c.next)
    let a := ((List.range k).map fun i => c.next + i).foldl (binOne t c cam) { s := s, ok := [], bad := [], err := none }
    match a.err with
    | some e => granuleFault a.s c e
    | none =>
      let c1 := binStep c k a
      let first := c.phase = 0 && c.next = 0
      let c1 := { c1 with raced := c1.raced || !(first || (List.range cam.tiles).all (tableHolds a.s t cam c c1)) }
      let table := (List.range cam.tiles).flatMap fun i => let e := tableEntry c1 cam i; leBytes 4 e.1 ++ leBytes 4 e.2
      match engWriteN a.s t.ctx (relOf s t) c.range table with
      | (s, some e) => granuleFault s c e
      | (s, none) => .done s (some c1) 0

/-- What a tile's list read gives: the splats, n, and the first error. -/
structure TileList where
  s      : State
  sps    : List (Option Splat) := []
  n      : Nat := 0
  nrep   : Nat := 0
  kfirst : Nat := 0
  opnd   : Nat := 0
  err    : Option (Nat × DWord) := none

/-- R311, R318: entry k of a tile's list, from start `st`. -/
def tileOne (t : Team) (c : SplatCmd) (st : Nat) (a : TileList) (k : Nat) : TileList :=
  let skip (a : TileList) (op : Nat) : TileList :=
    { a with sps := a.sps ++ [none], nrep := a.nrep + 1, kfirst := if a.nrep = 0 then k else a.kfirst,
             opnd := if a.nrep = 0 then op else a.opnd }
  if a.err.isSome then a
  else match readRec a.s t.ctx (relOf a.s t) (c.list + BitVec.ofNat 64 (4 * (st + k))) 4 with
    | (s, .error e) => { a with s := s, err := some e }
    | (s, .ok (_, true)) => skip { a with s := s } 2
    | (s, .ok (bs, false)) =>
      match readRec s t.ctx (relOf s t) (c.proj + BitVec.ofNat 64 (64 * leValue bs)) 64 with
      | (s, .error e) => { a with s := s, err := some e }
      | (s, .ok (_, true)) => skip { a with s := s } 1
      | (s, .ok (rec, false)) => { a with s := s, sps := a.sps ++ [some (leValue bs, wordsOf rec)] }

/-- R311: a tile's list. -/
def readTile (s : State) (t : Team) (c : SplatCmd) (tile : Nat) : TileList :=
  match readRec s t.ctx (relOf s t) (c.range + BitVec.ofNat 64 (8 * tile)) 8 with
  | (s, .error e) => { s := s, err := some e }
  | (s, .ok (bs, bad)) =>
    if bad then { s := s, err := some (0x0D, c.range + BitVec.ofNat 64 (8 * tile)) }
    else
      let n := leValue (bs.drop 4)
      let r := (List.range n).foldl (tileOne t c (leValue (bs.take 4))) { s := s }
      { r with n := n }

/-- The pixels of a tile in the order of its output, with whether each lies inside the image. -/
def tilePixels (cam : Camera) (tile : Nat) : List (Nat × Nat × Bool) :=
  let x0 := 16 * (tile % cam.tilesX)
  let y0 := 16 * (tile / cam.tilesX)
  (List.range 256).map fun k =>
    let x := x0 + k % 16
    let y := y0 + k / 16
    (x, y, decide (x < cam.w) && decide (y < cam.h))

/-- The next tile, or the end. -/
def nextTile (s : State) (c : SplatCmd) (charge : Nat) : Granule :=
  .done s (if c.count ≤ c.next + 1 then none else some { c with next := c.next + 1, inAdd := false, addIdx := 0, adds := [], status := [] }) charge

/-- R311, R312: SBLEND's granule: tile first + next. -/
def sblendTile (s : State) (t : Team) (c : SplatCmd) : Granule :=
  let cam := c.cam
  let tile := c.first + c.next
  let r := readTile s t c tile
  match r.err with
  | some e => granuleFault r.s c e
  | none =>
    let ps := (tilePixels cam tile).map fun p => if p.2.2 then blendPixel c.cut r.sps p.1 p.2.1 else {}
    let fl := statusFlags (ps.foldl (fun (a : Flags) p => a ||| p.flags) 0)
    let nan : BitVec 5 := if ps.any fun p => (p.c ++ [p.t]).any isNaN32 then 8 else 0
    match engWriteN r.s t.ctx (relOf s t) (c.out + BitVec.ofNat 64 (8224 * c.next))
        ((ps.flatMap pixelBytes) ++ splatStatus (fl ||| nan) r.nrep r.kfirst r.opnd r.n) with
    | (s, some e) => granuleFault s c e
    | (s, none) => nextTile s c 8224

/-- R314: SGRAD's read stage: every Add of the tile, in a fixed order (R483), and the status word. DESIGN CHOICE (log 23): the order, which
R153 and R314 leave open, is pixel by pixel and in each from the last splat to the first. -/
def gradRead (s : State) (t : Team) (c : SplatCmd) : State × Except (Nat × DWord) (List (Nat × Nat × Word) × List Byte) :=
  let cam := c.cam
  let tile := c.first + c.next
  let r := readTile s t c tile
  match r.err with
  | some e => (r.s, .error e)
  | none =>
    match engReadN r.s t.ctx (relOf s t) (c.out + BitVec.ofNat 64 (8224 * c.next)) 8192 with
    | (s, .error e) => (s, .error e)
    | (s, .ok up) =>
      let one (k : Nat) (p : Nat × Nat × Bool) : Flags × List (Nat × Nat × XReal) :=
        if !p.2.2 then (0, [])
        else
          let px := blendPixel c.cut r.sps p.1 p.2.1
          let w (i : Nat) : XReal := f32v (BitVec.ofNat 32 (leValue ((up.drop (32 * k + 4 * i)).take 4)))
          (px.flags, backPixel [w 0, w 1, w 2] (w 3) px)
      let all := (tilePixels cam tile).mapIdx one
      let vals := (all.flatMap fun x => x.2).map fun a => (a.1, a.2.1, addValue a.2.2)
      let fl := vals.foldl (fun (a : Flags) v => a ||| v.2.2.2) (all.foldl (fun (a : Flags) x => a ||| x.1) 0)
      let nan : BitVec 5 := if vals.any fun v => isNaN32 v.2.2.1 then 8 else 0
      (s, .ok ((vals.filter fun v => v.2.2.1 &&& 0x7FFFFFFF ≠ 0).map fun v => (v.1, v.2.1, v.2.2.1),
               splatStatus (statusFlags fl ||| nan) r.nrep r.kfirst r.opnd r.n))

/-- R314, R317: the adds from index `i` on; a fault stops at the faulting add. -/
def gradAdds (s : State) (t : Team) (c : SplatCmd) : Nat → List (Nat × Nat × Word) → State × Option (Nat × Nat × DWord)
  | _, [] => (s, none)
  | i, a :: as =>
    let va := c.grads + BitVec.ofNat 64 (64 * a.1 + a.2.1)
    match translateVA s t.ctx va 4 .at true (relOf s t) with
    | (s, .fault code) => (s, some (i, code, va))
    | (s, .full) => (s, some (i, 0, va))
    | (s, .ok key dup) =>
      if s.poisoned key 4 then (s, some (i, 0x0D, va))
      else
        let s := s.memWrite key (leBytes 4 (atomNew .add .f32 (s.rdMemNat key 4) a.2.2.toNat 0))
        gradAdds (if dup then s.syncDupN key 4 t.ctx else s) t c (i + 1) as

/-- R313, R314, R316: SGRAD's granule: the read stage, unless it is done, then the add stage. -/
def sgradTile (s : State) (t : Team) (c : SplatCmd) : Granule :=
  let prep : State × Except (Nat × DWord) (List (Nat × Nat × Word) × List Byte) :=
    if c.inAdd && !c.status.isEmpty then (s, .ok (c.adds, c.status)) else gradRead s t c
  match prep with
  | (s, .error e) => granuleFault s c e
  | (s, .ok (adds, st)) =>
    let c1 := { c with inAdd := true, adds := adds, status := st }
    match gradAdds s t c c.addIdx (adds.drop c.addIdx) with
    | (s, some (i, code, va)) =>
      if code = 0 then .done s (some { c1 with addIdx := i }) 0 else .fault s { c1 with addIdx := i } code va
    | (s, none) =>
      match engWriteN s t.ctx (relOf s t) (c.out + BitVec.ofNat 64 (8224 * c.next + 8192)) st with
      | (s, some e) =>
        if e.1 = 0 then .done s (some { c1 with addIdx := adds.length }) 0
        else .fault s { c1 with addIdx := adds.length } e.1 e.2
      | (s, none) => nextTile s c 32

/-- The granule of a command. -/
def granuleOf (s : State) (t : Team) (c : SplatCmd) : Granule :=
  match c.fn.toNat with
  | 0 => sprojGranule s t c
  | 1 => sbinGranule s t c
  | 2 => sblendTile s t c
  | _ => sgradTile s t c

/-- R316, R308: a granule runs: its work is committed and charged, or it is discarded. -/
def splatGranule (s : State) (t : Team) (c : SplatCmd) : State :=
  match granuleOf s t c with
  | .wait s => s
  | .fault s c code addr => splatFault s t c code addr
  | .done s c' k =>
    let s := setSplat s t.uid (c'.map fun x => { x with charge := x.charge + k })
    let s := if k = 0 then s.countEvent t.ctx 0x0F 1 else splatCharge s t c k
    reapTeam s t.uid

/-- The event of a granule: the oldest command of the team, if it is of that kind. -/
def granuleEvent (fn team : Nat) (s : State) : Res :=
  match headSplat s team with
  | none => .next s
  | some (t, c) => .next (if c.started && c.fn.toNat = fn then splatGranule { s with writer := some (.splat team) } t c else s)

/-- SPROJ_GRANULE. -/
def execSprojGranule (team : Nat) (s : State) : Res := granuleEvent 0 team s
/-- SBIN_GRANULE. -/
def execSbinGranule (team : Nat) (s : State) : Res := granuleEvent 1 team s
/-- SBLEND_TILE. -/
def execSblendTile (team : Nat) (s : State) : Res := granuleEvent 2 team s
/-- SGRAD_TILE. -/
def execSgradTile (team : Nat) (s : State) : Res := granuleEvent 3 team s

/-- SPLAT_GRANULE_FAULT (R317): the granule meets a translation fault: its work is discarded. -/
def execSplatGranuleFault (team : Nat) (s : State) : Res :=
  match headSplat s team with
  | none => .next s
  | some (t, c) =>
    if !c.started then .next s
    else match granuleOf { s with writer := some (.splat team) } t c with
      | .fault s c code addr => .next (splatFault s t c code addr)
      | _ => .next s

end Sys2Proof.Machine
end

