-- ==== Sys2Proof/Machine/Encoder.lean ====
section
/-! DEFINITION. The encoder lane of a slice (R295–R297, R482): ENCSUB binds a frame, a released tile row is read, and a
frame read whole is encoded into its session's ring. The AV1 bytes and the reference state are opaque. -/

namespace Sys2Proof.Machine

/-! ## Sessions -/

/-- R295: the limits of a session's entry. -/
def sessionOk (ws : List Word) : Bool :=
  let d := (ws.getD 2 0).toNat
  let f := (ws.getD 3 0).toNat
  let w := d % 2 ^ 16
  let h := d / 2 ^ 16
  w % 2 = 0 && 64 ≤ w && w ≤ 3840 && h % 2 = 0 && 64 ≤ h && h ≤ 2160 && f / 2 % 128 = 0 && f / 2 ^ 24 = 0
    && (wordPair ws 4).toNat % 128 = 0 && (ws.getD 6 0).toNat % 128 = 0 && (ws.getD 7 0).toNat ≤ 1000000000
    && (ws.drop 8).all (· = 0)

/-- R297: the object check of a session: its words, or the code of the fault. -/
def sessionCheck (s : State) (ctx idx : Nat) : ObjRes :=
  match objCheck s ctx idx 0x0A true true with
  | .fault code => .fault code
  | .ok ws => if sessionOk ws then .ok ws else .fault 0x1B

/-- The session of a context's index. -/
def EncSession.is (e : EncSession) (ctx : Nat) (idx : BitVec 16) : Bool := e.ctx = ctx && e.idx = idx
/-- A binding of the session. -/
def EncBind.isOf (b : EncBind) (ctx : Nat) (idx : BitVec 16) : Bool := b.ctx = ctx && b.idx = idx

/-- R297: the held session whose last binding is oldest among those with no frame bound. -/
def idleSession (c : Slice) : Option EncSession :=
  let idle := c.sessions.filter fun e => !(c.binds.any fun b => b.isOf e.ctx e.idx)
  match idle with
  | [] => none
  | e :: es => some (es.foldl (fun a x => if x.lastB < a.lastB then x else a) e)

/-- R297: the lane holds a session for (ctx, idx), newly taken if need be; none when every held one is busy. -/
def holdSession (c : Slice) (ctx : Nat) (idx : BitVec 16) (seq : Nat) : Option Slice :=
  if c.sessions.any fun e => e.is ctx idx then
    some { c with sessions := c.sessions.map fun e => if e.is ctx idx then { e with lastB := seq } else e }
  else
    let new : EncSession := { ctx := ctx, idx := idx, lastB := seq }
    if c.sessions.length < 4 then some { c with sessions := c.sessions ++ [new] }
    else (idleSession c).map fun o => { c with sessions := (c.sessions.filter fun e => !e.is o.ctx o.idx) ++ [new] }

/-- ENCSUB (R296): the binding is an update of the barrier with no change (R158, R159), which may complete its phase. -/
def execEncsub (w : Bool) (a b : SReg) (s : State) : Res :=
  let run := s.g.rdRun s.tick a 3
  let base := wordPair run 0
  let f := (run.getD 2 0).toNat
  let bar := (s.g.rdS s.tick b).toNat
  let idx := BitVec.ofNat 16 f
  if s.isRoof || s.g.inHandler || a.toNat % 2 ≠ 0 || 64 < a.toNat + 3 || 2 ^ 17 ≤ f then illegalC s
  else if base.toNat % 256 ≠ 0 then faultC s 0x03 base.toNat
  else match barOffsetFault s bar with
    | some code => faultC s code bar
    | none =>
      let s := s.objAcquire
      match sessionCheck s s.g.ctx idx.toNat with
      | .fault code => faultC s code idx.toNat
      | .ok ws =>
        let c := s.slice s.sliceId
        if 8 ≤ (c.binds.filter fun b => b.card.isNone).length then .next (s.parkC .engine)
        else match holdSession c s.g.ctx idx s.nextId with
          | none => .next (s.parkC .engine)
          | some c =>
            match barUpdate (s.bar bar) 0 0 0 with
            | none => faultC s 0x07 bar
            | some b =>
              let bind : EncBind :=
                { ctx := s.g.ctx, idx := idx, desc := ws, key := f.testBit 16, base := base, team := s.t.uid, gid := s.g.gid,
                  cpc := s.g.pc, bar := bar }
              let s1 := { s.setSlice { c with binds := c.binds ++ [bind] } with nextId := s.nextId + 1 }
              .next ((if b = s.bar bar then s1 else (noteFlip s1 s.g.ctx s.t.uid bar).setBar bar b).endC w 4)

/-! ## The lane -/

/-- A card's work has ended with a status; CARD_COMPLETE writes it (R178). -/
def endCard (s : State) (id : Nat) (status : Byte) : State :=
  { s with cards := s.cards.map fun c => if c.id = id && c.phase = .started then { c with phase := .done, status := status } else c }

/-- R482: a session stops: its bindings go, its started cards complete with FAULT, and the lane evicts it. -/
def stopSession (s : State) (sl : Nat) (b : EncBind) (code : Nat) (addr : DWord) : State :=
  let c := s.slice sl
  let mine := c.binds.filter fun x => x.isOf b.ctx b.idx
  let s := s.setSlice { c with
    binds := c.binds.filter fun x => !x.isOf b.ctx b.idx
    sessions := c.sessions.filter fun e => !e.is b.ctx b.idx }
  let s := s.escalate sl
    { code := 0x44, inner := BitVec.ofNat 8 code, pasid := (s.ctx b.ctx).pasid, pc := b.cpc, addr := addr }
  mine.foldl (fun s x => match x.card with
    | some id => endCard s id 7
    | none => reapTeam s x.team) s

/-- The first element of a list that satisfies `p`, with what stands before and after it. -/
def splitFirst {α : Type} (p : α → Bool) : List α → Option (List α × α × List α)
  | [] => none
  | x :: xs => if p x then some ([], x, xs) else (splitFirst p xs).map fun r => (x :: r.1, r.2.1, r.2.2)

/-- R295: the row pitch of a frame. -/
def EncBind.pitch (b : EncBind) : Nat :=
  let w := (b.desc.getD 2 0).toNat % 2 ^ 16
  (w * (if (b.desc.getD 3 0).getLsbD 0 then 2 else 1) + 127) / 128 * 128

/-- R295: the parts of tile row r: address and bytes, luma then chroma. -/
def EncBind.parts (b : EncBind) (r : Nat) : List (DWord × Nat) :=
  let h := (b.desc.getD 2 0).toNat / 2 ^ 16
  [(b.base + BitVec.ofNat 64 (b.pitch * 64 * r), b.pitch * min 64 (h - 64 * r)),
   (b.base + BitVec.ofNat 64 (b.pitch * (h + 32 * r)), b.pitch * min 32 (h / 2 - 32 * r))]

/-- Reads parts in order. -/
def readParts (s : State) (ctx rel : Nat) : List (DWord × Nat) → State × Except (Nat × DWord) (List Byte)
  | [] => (s, .ok [])
  | p :: ps =>
    match engReadN s ctx rel p.1 p.2 with
    | (s, .error e) => (s, .error e)
    | (s, .ok bs) =>
      match readParts s ctx rel ps with
      | (s, .error e) => (s, .error e)
      | (s, .ok cs) => (s, .ok (bs ++ cs))

/-- The partition slice of a device slice, for a context. -/
def relSl (s : State) (ctx sl : Nat) : Nat := sl - (s.vf (ctx / 64)).first

/-- R296, R379: a frame has a tile row that is released and not read; a frozen context's frames wait. -/
def EncBind.rowDue (s : State) (b : EncBind) : Bool := b.rows < b.tileRows && b.rows < b.released && !ctxFrozen s b.ctx

/-- TILE_ROW_READ (R296): the lane reads the next released tile row of its oldest frame that has one. -/
def execTileRowRead (slice : Nat) (s : State) : Res :=
  let c := s.slice slice
  match splitFirst (fun b => b.rowDue s) c.binds with
  | none => .next s
  | some (pre, b, post) =>
    if c.encFrozen then .next s
    else match readParts s b.ctx (relSl s b.ctx slice) (b.parts b.rows) with
      | (s, .error e) => .next (stopSession s slice b e.1 e.2)
      | (s, .ok bs) =>
        let s := s.setSlice { s.slice slice with binds := pre ++ [{ b with rows := b.rows + 1, input := b.input ++ bs }] ++ post }
        .next (match b.card with | none => reapTeam s b.team | some _ => s)

/-- R295, R297: whether the next frame of a session is a keyframe. -/
def keyNow (e : EncSession) (b : EncBind) : Bool :=
  let n := (b.desc.getD 3 0).toNat / 2 ^ 16 % 2 ^ 8
  e.fresh || b.key || (n ≠ 0 && n ≤ e.since)

/-- R295: bytes at an offset of the ring's data, which wraps. -/
def ringWrite (s : State) (ctx rel : Nat) (ring : DWord) (size off : Nat) (bs : List Byte) : State × Option (Nat × DWord) :=
  let o := off % size
  let k := size - o
  match engWriteN s ctx rel (ring + 128 + BitVec.ofNat 64 o) (bs.take k) with
  | (s, some e) => (s, some e)
  | (s, none) => engWriteN s ctx rel (ring + 128) (bs.drop k)

/-- What the ring lets the lane do with a frame of L bytes. -/
inductive RingRoom where
  | room | wait | bad
deriving DecidableEq, Repr

/-- R295: room for L bytes, from the counts written and read. -/
def ringRoom (wr rd L size : Nat) : RingRoom := if wr < rd || size < L then .bad else if size < wr - rd + L then .wait else .room

/-- R295, R296: the record of a frame is appended and the ring header updated. -/
def appendFrame (s : State) (slice : Nat) (c : Slice) (pre : List EncBind) (b : EncBind) (post : List EncBind) (e : EncSession)
    (frames wr rd : Nat) : State :=
  let ring := wordPair b.desc 4
  let size := (b.desc.getD 6 0).toNat
  let key := keyNow e b
  let desc := b.desc.map fun w => w.toNat
  let obu := Config.av1Frame desc e.ref key b.input
  let rec_ := leBytes 4 obu.length ++ leBytes 4 frames ++ obu ++ List.replicate ((8 - obu.length % 8) % 8) 0
  let rel := relSl s b.ctx slice
  match ringRoom wr rd rec_.length size with
  | .bad => stopSession s slice b 0 ring
  | .wait => s
  | .room =>
    match ringWrite s b.ctx rel ring size wr rec_ with
    | (s, some f) => if f.1 = 0 then s else stopSession s slice b f.1 f.2
    | (s, none) =>
      match engWriteN s b.ctx rel ring (leBytes 8 (frames + 1) ++ leBytes 8 (wr + rec_.length)) with
      | (s, some f) => if f.1 = 0 then s else stopSession s slice b f.1 f.2
      | (s, none) =>
        let e' := { e with ref := Config.av1Ref desc e.ref key b.input, fresh := false, since := if key then 1 else e.since + 1 }
        let s := s.setSlice { c with
          binds := pre ++ post
          sessions := c.sessions.map fun x => if x.is b.ctx b.idx then e' else x }
        match b.card with
        | some id => endCard s id 1
        | none => reapTeam s b.team

/-- R296, R379: a frame of a lane is read whole and has none of its session before it; a frozen context's frames wait. -/
def frameDue (s : State) (c : Slice) (b : EncBind) : Bool :=
  b.tileRows ≤ b.rows && !ctxFrozen s b.ctx
    && (match c.binds.find? fun x => x.isOf b.ctx b.idx with | some x => decide (x = b) | none => false)

/-- ENCODE_FRAME_DONE (R295, R296): the oldest frame that is read whole, and has none of its session before it, is
encoded. -/
def execEncodeFrameDone (slice : Nat) (s : State) : Res :=
  let s := { s with writer := some (.encoder slice) }
  let c := s.slice slice
  match splitFirst (frameDue s c) c.binds with
  | none => .next s
  | some (pre, b, post) =>
    match c.sessions.find? fun e => e.is b.ctx b.idx with
    | none =>
      -- a frame that a restore has bound again waits until the lane can hold its session (R297)
      .next ((holdSession c b.ctx b.idx s.nextId).elim s fun c => if c.encFrozen then s else s.setSlice c)
    | some e =>
      if c.encFrozen then .next s
      else match engReadN s b.ctx (relSl s b.ctx slice) (wordPair b.desc 4) 24 with
        | (s, .error f) => .next (stopSession s slice b f.1 f.2)
        | (s, .ok h) =>
          .next (appendFrame s slice c pre b post e (leValue (h.take 8)) (leValue ((h.drop 8).take 8)) (leValue (h.drop 16)))

end Sys2Proof.Machine
end

