-- ==== Sys2Proof/Machine/Place.lean ====
section
/-! DEFINITION. Where a team may be placed (R29, R32, R56, R58, R272, R410, R412): the cores of a slice, what is free for
a candidate, and the choice among cores. -/

namespace Sys2Proof.Machine

/-- A candidate of the dispatcher as a core sees it: a number of its own (`key`), its context, its attribute word, what it
needs. -/
structure Cand where
  key  : Nat
  ctx  : Nat
  attr : DWord
  need : Need

/-- The cores of a device slice whose cluster is present (R20), in ascending core.id. -/
def coresOf (s : State) (sl : Nat) : List Nat :=
  ((List.range 16).filter fun p => (s.clusterMask sl).getLsbD p).flatMap fun p =>
    (List.range 5).map fun c => 8 * (16 * sl + p) + c

/-- Whether a team is resident in a cluster. -/
def clusterUsed (s : State) (cl : Nat) : Bool := s.allTeams.any fun t => t.live && t.ppos / 8 = cl

/-- R29, R56, R272, R441: whether a core takes the candidate's teams at all now. -/
def coreTakes (s : State) (c : Cand) (p : Nat) : Bool :=
  let cl := p / 8
  kindAllows c.attr (p % 8 = 4)
    && ((s.cluster cl).fused = attrFuse c.attr || !clusterUsed s cl)
    && (p % 8 ≠ 4 || (roofFree s cl c.ctx && !lentCluster s cl))
where
  /-- R441: the cluster is lent. -/
  lentCluster (s : State) (cl : Nat) : Bool := s.leases.any fun l => l.state ≠ 0 && 16 * l.lslice + l.lpos = cl

/-- The difference of needs, truncated. -/
def Need.minus (a b : Need) : Need := ⟨a.slots - b.slots, a.units - b.units, a.window - b.window⟩
/-- The sum of needs. -/
def Need.plus (a b : Need) : Need := ⟨a.slots + b.slots, a.units + b.units, a.window + b.window⟩

/-- Strip topology. -/
def drawStrip (d : List Word) : Bool := (drawW d 5).testBit 7
/-- The number of triangles of a draw. -/
def primCount (d : List Word) : Nat := if drawStrip d then drawW d 4 - 2 else drawW d 4 / 3

/-- R57: a fragment group that the front end has made stands ready; one of a co-resident draw is held with the others. -/
def Launch.hold (l : Launch) (f : Option Frag) : Launch :=
  if attrCores l.attr then { l with held := l.held ++ f.toList } else { l with ready := f }

/-- R57: the fragment groups of a draw that may start now: all of a co-resident one, once all are made. -/
def Launch.frags? (l : Launch) : List Frag :=
  if attrCores l.attr then (if l.prim < primCount l.draw then [] else l.held) else l.ready.toList

/-- Whether the front end of a draw makes another fragment group before one starts. -/
def Launch.fragDue (l : Launch) : Bool := if attrCores l.attr then l.prim < primCount l.draw else l.ready.isNone

/-- Whether a launch has teams still to start; the front end of a draw has passed its last triangle (R58, R179). -/
def moreTeams (raster : Bool) (l : Launch) : Bool := if raster then l.ready.isSome || !l.held.isEmpty || l.prim < primCount l.draw else l.next < l.teams

/-- R58: what the producers of a consumer's tag withhold on a core. DESIGN CHOICE (log 16): the room of pres further teams,
whether or not teams of the producer are resident there. -/
def reserved (s : State) (c : Cand) (p : Nat) : Need :=
  s.cards.foldl (fun n k =>
    match k.launch with
    | none => n
    | some l =>
      if k.phase = .started && k.id ≠ c.key && k.vf = c.ctx / 64 && attrPres l.attr ≠ 0 && attrPtag l.attr = attrCtag c.attr
        && attrCtag c.attr ≠ 0 && moreTeams k.raster l && kindAllows l.attr (p % 8 = 4)
      then n.plus (l.need.times (attrPres l.attr)) else n) ⟨0, 0, 0⟩

/-- R412: what is held on a core for other candidates. -/
def heldFor (s : State) (c : Cand) (p : Nat) : Need :=
  s.holds.foldl (fun n h => if h.1 ≠ c.key && h.2.1 = p then n.plus ⟨h.2.2.1, h.2.2.2.1, h.2.2.2.2⟩ else n) ⟨0, 0, 0⟩

/-- What a core offers a candidate now. -/
def roomFor (s : State) (c : Cand) (p : Nat) : Need := ((coreFree s p).minus (reserved s c p)).minus (heldFor s c p)

/-- Whether a candidate's team fits on a core now. -/
def fitsOn (s : State) (c : Cand) (p : Nat) : Bool := coreTakes s c p && c.need.fits (roomFor s c p)

/-- R410: of a slice's cores that a test admits, the one that keeps the most register units free, the lowest first. -/
def pickIn (s : State) (ok : Nat → Bool) (sl : Nat) : Option Nat :=
  match (coresOf s sl).filter ok with
  | [] => none
  | p :: ps => some (ps.foldl (fun b q => if (coreFree s b).units < (coreFree s q).units then q else b) p)

/-- R410: the core in the first slice of a list that has one. -/
def pickCore (s : State) (ok : Nat → Bool) (sls : List Nat) : Option Nat := sls.findSome? (pickIn s ok)

/-- R56: a cluster changes its L1 mode: its four L1s are written back and invalidated first. -/
def setFuse (s : State) (cl : Nat) (f : Bool) : State :=
  let c := s.cluster cl
  if c.fused = f then s
  else
    let s := [0, 1, 2, 3, 7].foldl (fun (s : State) k => ((s.performDirty (8 * cl + k) fun _ => true).ackAllDup (8 * cl + k)).l1Invalidate (8 * cl + k)) s
    s.setCluster { s.cluster cl with fused := f }

end Sys2Proof.Machine
end

