-- ==== Sys2Proof/Machine/Raster.lean ====
section
/-! DEFINITION. The raster front end of a slice (R276–R278): the limits of a draw record, a primitive's vertices, clipping
and coverage in exact arithmetic, and FRAGMENT_GROUP_LAUNCH. -/

namespace Sys2Proof.Machine

/-! ## The draw record (R276) -/

/-- A viewport extent is a number from 1 to 16,384. -/
def extentOk (w : Word) : Bool := match finOf w with | some q => 1 ≤ q && q ≤ 16384 | none => false

/-- Whether every field of a draw record is within its limits. -/
def drawOk (d : List Word) : Bool :=
  let f := drawW d 5
  let g := drawW d 10
  let m := drawW d 11
  (wordPair d 0).toNat % 16 = 0 && (wordPair d 2).toNat % 4 = 0 && drawNa d ≤ 64
    && (f.testBit 7 || drawW d 4 % 3 = 0) && f / 2 ^ 8 % 4 ≤ 2 && f / 2 ^ 11 = 0
    && extentOk (d.getD 8 0) && extentOk (d.getD 9 0)
    && 1 ≤ g % 2 ^ 16 && g % 2 ^ 16 ≤ 16384 && 1 ≤ g / 2 ^ 16 && g / 2 ^ 16 ≤ 16384
    && m / 4 % 16 ≤ 8 && m / 2 ^ 11 = 0 && (wordPair d 12).toNat % 16 = 0 && wordPair d 14 = 0

/-- The vertices of triangle p; strip triangles alternate winding. -/
def primVerts (d : List Word) (p : Nat) : List Nat :=
  if drawStrip d then (if p % 2 = 0 then [p, p + 1, p + 2] else [p, p + 2, p + 1]) else [3 * p, 3 * p + 1, 3 * p + 2]

/-- The clip coordinates and the attributes of vertices, in order. -/
def fetchVerts (s : State) (ctx rel : Nat) (d : List Word) : List Nat →
    State × Except (Nat × DWord) (List Word × List (List Word))
  | [] => (s, .ok ([], []))
  | v :: vs =>
    match engReadN s ctx rel (wordPair d 0 + BitVec.ofNat 64 (16 * v)) 16 with
    | (s, .error e) => (s, .error e)
    | (s, .ok bs) =>
      match engReadN s ctx rel (wordPair d 2 + BitVec.ofNat 64 (4 * drawNa d * v)) (4 * drawNa d) with
      | (s, .error e) => (s, .error e)
      | (s, .ok as) =>
        match fetchVerts s ctx rel d vs with
        | (s, .error e) => (s, .error e)
        | (s, .ok r) => (s, .ok (wordsOf bs ++ r.1, wordsOf as :: r.2))

/-! ## Clipping (R277) -/

/-- A vertex in clip space. -/
structure ClipV where
  x : Rat
  y : Rat
  z : Rat
  w : Rat

/-- A point between two vertices. -/
def ClipV.between (a b : ClipV) (t : Rat) : ClipV :=
  ⟨a.x + t * (b.x - a.x), a.y + t * (b.y - a.y), a.z + t * (b.z - a.z), a.w + t * (b.w - a.w)⟩

/-- The polygon on the non-negative side of a plane. -/
def clipPlane (f : ClipV → Rat) (poly : List ClipV) : List ClipV :=
  let next := poly.drop 1 ++ poly.take 1
  (List.zip poly next).flatMap fun e =>
    let p := f e.1
    let q := f e.2
    (if 0 ≤ p then [e.1] else []) ++ (if (0 ≤ p) != (0 ≤ q) then [ClipV.between e.1 e.2 (p / (p - q))] else [])

/-- The part of a triangle in the view volume −w ≤ x, y ≤ w, 0 ≤ z ≤ w. -/
def clipPoly (vs : List Word) : List ClipV :=
  let v (i : Nat) : ClipV := ⟨(clipXYW vs i).x, (clipXYW vs i).y, clipZ vs i, (clipXYW vs i).z⟩
  let planes : List (ClipV → Rat) :=
    [fun a => a.w + a.x, fun a => a.w - a.x, fun a => a.w + a.y, fun a => a.w - a.y, fun a => a.z, fun a => a.w - a.z]
  (planes.foldl (fun p f => clipPlane f p) [v 0, v 1, v 2]).filter fun a => 0 < a.w

/-! ## Coverage (R277) -/

/-- A framebuffer point in 256ths of a pixel. -/
abbrev Pt := Int × Int

/-- The framebuffer position of a vertex, snapped to 8 sub-pixel bits. -/
def toPixel (d : List Word) (a : ClipV) : Pt :=
  let vp (i : Nat) : Rat := ratOf32 (d.getD (6 + i) 0)
  (ratNearest (256 * (vp 0 + (a.x / a.w + 1) * vp 2 / 2)), ratNearest (256 * (vp 1 + (a.y / a.w + 1) * vp 3 / 2)))

/-- Twice the signed area of a polygon, positive where it turns clockwise on the screen (y goes down). -/
def twiceArea (ps : List Pt) : Int :=
  (List.zip ps (ps.drop 1 ++ ps.take 1)).foldl (fun a e => a + (e.1.1 * e.2.2 - e.2.1 * e.1.2)) 0

/-- Whether a triangle that turns clockwise covers a point: inside, or on a top or left edge. -/
def triCovers (t : Pt × Pt × Pt) (p : Pt) : Bool :=
  let edge (a b : Pt) : Bool :=
    let dx := b.1 - a.1
    let dy := b.2 - a.2
    let e := dx * (p.2 - a.2) - dy * (p.1 - a.1)
    0 < e || (e = 0 && (dy < 0 || (dy = 0 && 0 < dx)))
  edge t.1 t.2.1 && edge t.2.1 t.2.2 && edge t.2.2 t.1

/-- The fan of a polygon, each triangle turned clockwise; those without area, or turned against the polygon, cover
nothing. -/
def fanOf (ps : List Pt) : List (Pt × Pt × Pt) :=
  let cw := 0 < twiceArea ps
  match ps with
  | [] => []
  | a :: rest =>
    ((List.zip rest (rest.drop 1)).filter fun e =>
      let k := twiceArea [a, e.1, e.2]
      if cw then 0 < k else k < 0).map fun e => if cw then (a, e.1, e.2) else (a, e.2, e.1)

/-- R277: whether a triangle of an area faces front, and whether it is culled. -/
def facesFront (d : List Word) (area : Int) : Bool := if (drawW d 5).testBit 10 then area < 0 else 0 < area
/-- The cull mode drops it. -/
def culled (d : List Word) (front : Bool) : Bool :=
  match drawW d 5 / 2 ^ 8 % 4 with | 0 => false | 1 => !front | _ => front

/-- The covered samples of a pixel, as a mask. -/
def pixelCov (d : List Word) (ts : List (Pt × Pt × Pt)) (x y : Nat) : Nat :=
  let w := drawW d 10 % 2 ^ 16
  let h := drawW d 10 / 2 ^ 16
  if w ≤ x || h ≤ y then 0
  else
    let ls := sampleLocs (drawLogS d)
    (List.range ls.length).foldl (fun m i =>
      let l := ls.getD i (8, 8)
      let p : Pt := (((256 * x + 16 * l.1 : Nat) : Int), ((256 * y + 16 * l.2 : Nat) : Int))
      if ts.any fun t => triCovers t p then m + 2 ^ i else m) 0

/-- The pixels of a quad, by lane. -/
def quadPixels (q : Nat × Nat) : List (Nat × Nat) :=
  [(2 * q.1, 2 * q.2), (2 * q.1 + 1, 2 * q.2), (2 * q.1, 2 * q.2 + 1), (2 * q.1 + 1, 2 * q.2 + 1)]

/-- A range of quad numbers that covers the coordinates of a polygon in one dimension, within the target. -/
def quadSpan (cs : List Int) (size : Nat) : List Nat :=
  let lo := cs.foldl min (cs.headD 0)
  let hi := cs.foldl max (cs.headD 0)
  (List.range ((size + 1) / 2)).filter fun i => lo ≤ 512 * (i : Int) + 512 && 512 * (i : Int) ≤ hi

/-- The present quads of a triangle in rows from the top, each row from the left, with the masks of its pixels. -/
def primQuads (d : List Word) (ps : List Pt) : List ((Nat × Nat) × List Nat) :=
  let ts := fanOf ps
  if ts = [] || culled d (facesFront d (twiceArea ps)) then []
  else
    (quadSpan (ps.map fun p => p.2) (drawW d 10 / 2 ^ 16)).flatMap fun y =>
      ((quadSpan (ps.map fun p => p.1) (drawW d 10 % 2 ^ 16)).map fun x =>
        ((x, y), (quadPixels (x, y)).map fun p => pixelCov d ts p.1 p.2)).filter fun q => q.2.any (· ≠ 0)

/-! ## Fragment groups (R278) -/

/-- What a fragment group starts with, for up to eight quads. -/
def fragOf (k : Card) (l : Launch) (front : Bool) (vs : List Word) (as : List (List Word)) (qs : List ((Nat × Nat) × List Nat)) :
    Frag :=
  let lanes : List (Nat × (Nat × Nat) × Nat) :=
    (List.zip (List.range qs.length) qs).flatMap fun e =>
      (List.range 4).map fun j => (4 * e.1 + j, (quadPixels e.2.1).getD j (0, 0), e.2.2.getD j 0)
  { card := k.id, prim := l.prim, draw := l.draw, front := front, verts := vs, attrs := as,
    pix := lanes.foldl (fun m e => SMap.insert m e.1 e.2.1) [], cov := lanes.foldl (fun m e => SMap.set 0 m e.1 e.2.2) [] }

/-- R278: what the front end of a draw's slice makes next: a triangle that has no more quads is passed, else the next eight
present quads stand ready as a fragment group. Those of a co-resident draw are held until all are made (R57). -/
def makeFrag (s : State) (k : Card) (l : Launch) : State :=
  match fetchVerts s k.ctx (relSl s k.ctx k.slice) l.draw (primVerts l.draw l.prim) with
  | (s, .error e) => abandonLaunch s k e.1 e.2
  | (s, .ok (vs, as)) =>
    let ps := (clipPoly vs).map (toPixel l.draw)
    let rest := (primQuads l.draw ps).drop (8 * l.chunk)
    let l1 : Launch :=
      if rest.length ≤ 8 then { l with prim := l.prim + 1, chunk := 0 } else { l with chunk := l.chunk + 1 }
    let f := fragOf k l (facesFront l.draw (twiceArea ps)) vs as (rest.take 8)
    mapCard s k.id fun c => { c with launch := some (l1.hold (if rest = [] then none else some f)) }

end Sys2Proof.Machine
end

