-- ==== Sys2Proof/Machine/Queues.lean ====
section
/-! DEFINITION. Queues and the completion of cards (R171–R178, R402, R405–R407). -/

namespace Sys2Proof.Machine

/-! ## Queues -/

/-- A queue descriptor of a slice. -/
def queueOf (s : State) (sl qi : Nat) : QDesc := SMap.get {} (s.slice sl).queues qi
/-- Replaces a queue descriptor. -/
def setQueueOf (s : State) (sl qi : Nat) (q : QDesc) : State :=
  let c := s.slice sl
  s.setSlice { c with queues := SMap.set {} c.queues qi q }
/-- The context of a queue. -/
def queueCtx (s : State) (sl qi : Nat) : Nat := 64 * (s.slice sl).vf + (queueOf s sl qi).ctx.toNat

/-- R171: the address of the slot of an index. -/
def slotAddr (q : QDesc) (i : Nat) : DWord := q.base + BitVec.ofNat 64 (64 * (i % 2 ^ q.logn))

/-- R171: claim, when the header can be read. -/
def claimOf (s : State) (sl qi : Nat) : State × Option Nat :=
  let ctx := queueCtx s sl qi
  match engReadN s ctx (relSl s ctx sl) (queueOf s sl qi).hdr 8 with
  | (s, .error _) => (s, none)
  | (s, .ok bs) => (s, some (leValue bs))

/-- R397: bytes that the controller of a slice writes for a context; while a full dirty log holds one of its writes it owes
them all, in order. A write that fails otherwise changes nothing. -/
def ctrlWrite (s : State) (ctx sl : Nat) (va : DWord) (bs : List Byte) : State :=
  let owe (s : State) : State := { s with owed := s.owed ++ [(ctx, sl, va, bs)] }
  if s.owed.any fun o => o.2.1 = sl then owe s
  else
    match engWriteN { s with writer := some (.control sl) } ctx (relSl s ctx sl) va bs with
    | (s1, some (0, _)) => owe { s1 with writer := s.writer }
    | (s1, _) => { s1 with writer := s.writer }

/-- R397: a write that a controller owes is made, if it is the first of its controller, in its turn. -/
def payOne (s : State) (o : Nat × Nat × DWord × List Byte) : State :=
  let w : Writer := .control o.2.1
  let s0 := { s with writer := some w }
  if (s.owed.find? fun x => x.2.1 = o.2.1) ≠ some o || !logTurn s0 (o.1 / 64) then s
  else
    match engWriteN s0 o.1 (relSl s o.1 o.2.1) o.2.2.1 o.2.2.2 with
    | (s1, some (0, _)) => { s1 with writer := s.writer }
    | (s1, _) =>
      let s2 := { s1 with owed := s1.owed.erase o }
      if s2.owed.any fun x => x.2.1 = o.2.1 then { s2 with writer := s.writer } else s2.served s.writer w

/-- R397: the writes that the controllers of a partition owe are made, in order, as far as the log goes. -/
def payOwed (s : State) (vf : Nat) : State := (s.owed.filter fun o => o.1 / 64 = vf).foldl payOne s

/-- R174: retire written to the header, with release at sys scope. -/
def writeRetire (s : State) (sl qi : Nat) : State :=
  let q := queueOf s sl qi
  ctrlWrite s (queueCtx s sl qi) sl (q.hdr + 64) (leBytes 8 q.retire)

/-- R176: the status byte of the slot of index i, while the slot still holds that index (R405); a failing write changes
nothing. -/
def writeStatus (s : State) (ctx sl : Nat) (a : DWord) (i : Nat) (status : Byte) : State :=
  let rel := relSl s ctx sl
  match engReadN s ctx rel a 4 with
  | (s, .error _) => s
  | (s, .ok bs) => if leValue bs = (i + 1) % 2 ^ 32 then ctrlWrite s ctx sl (a + 7) [status] else s

/-- The leading run of completed indices from `r`: how far retire goes, within a fuel. -/
def retireTo (fin : List Nat) (r : Nat) : Nat → Nat
  | 0 => r
  | fuel + 1 => if fin.contains r then retireTo fin (r + 1) fuel else r

/-- R174: indices of a queue have completed: retire advances over each leading run. -/
def finishIndices (s : State) (sl qi idx n : Nat) : State :=
  let q := queueOf s sl qi
  let fin := q.fin ++ (List.range n).map fun i => idx + i
  let r := retireTo fin q.retire fin.length
  let s1 := setQueueOf s sl qi { q with retire := r, fin := fin.filter fun i => r ≤ i }
  if idx + n ≤ q.retire || r = q.retire then (if idx + n ≤ q.retire then s else s1) else writeRetire s1 sl qi

/-! ## The header of a card (R175) -/

/-- Word 1 of a card. -/
def Card.w1 (k : Card) : Nat := (k.words.getD 1 0).toNat
/-- kind. -/
def Card.kind (k : Card) : Nat := k.w1 % 2 ^ 8
/-- irq. -/
def Card.irq (k : Card) : Bool := k.w1.testBit 17
/-- serial. -/
def Card.serial (k : Card) : Bool := k.w1.testBit 16
/-- A 64-bit field at a byte offset. -/
def Card.at8 (k : Card) (o : Nat) : DWord := wordPair k.words (o / 4)

/-! ## Deadlines (R406) -/

/-- R406: dl after a frame-end card that completes at time c. -/
def frameDl (dl period c : Nat) (skip : Bool) : Nat :=
  if period = 0 then dl
  else
    let d := dl + period
    if skip && d ≤ c then d + period * ((c - d) / period + 1) else d

/-- R407: the payload of a frame-end card is sound. -/
def Card.frameOk (k : Card) : Bool := !((k.at8 8).toNat / 4 ≠ 0 || (!(k.at8 8).getLsbD 1 && k.at8 16 ≠ 0))

/-- R406, R407: a frame-end card of a queue completes, whatever its status; with a reserved bit it is no frame end. -/
def frameEnd (s : State) (k : Card) : State :=
  let q := queueOf s k.slice k.queue
  if q.vsync || k.kind ≠ 7 || k.bad || !k.frameOk then s
  else
    let late := q.dl.toNat < s.now
    let dl := if (k.at8 8).getLsbD 1 then k.at8 16
      else BitVec.ofNat 64 (frameDl q.dl.toNat q.period.toNat s.now ((k.at8 8).getLsbD 0))
    setQueueOf s k.slice k.queue { q with dl := dl, misses := if late then q.misses + 1 else q.misses }

/-! ## Completion -/

/-- The number that stands for the MSI-X vector of a queue: the manual gives it none. -/
def queueVec (s : State) (ctx sl qi : Nat) : Nat := 256 + 128 * relSl s ctx sl + qi

/-- R452: a card of a VF that completes with FAULT is counted. -/
def countFault (s : State) (vf : Nat) (status : Byte) : State :=
  if status = 7 then s.setVf { s.vf vf with faultCards := (s.vf vf).faultCards + 1 } else s

/-- R439, R452: a collective or compression card that an engine has served is counted there. -/
def countEngine (s : State) (k : Card) : State :=
  match k.engine with
  | none => s
  | some e => if k.status = 6 then s else { s with engDone := SMap.set 0 s.engDone e (SMap.get 0 s.engDone e + 1) }

/-- R154, R437: every L1 of a partition is written back, at sys scope: at the completion of a launch, whose groups and cores are
gone, and before chunks move. -/
def launchRelease (s : State) (vf : Nat) : State :=
  let parts := s.partSlices vf
  ((s.l1s.filter fun l => parts.contains (l.id / 128)).map fun l => l.id).foldl (fun (s : State) id =>
    (s.performDirty id fun _ => true).ackAllDup id) s

/-- R176, R178: a card whose work has ended completes: its status is written in each of its slots, it leaves the queue
group, retire advances, and its vector is raised. -/
def completeCard (s : State) (k : Card) : State :=
  let q := queueOf s k.slice k.queue
  let s := if k.launch.isSome then launchRelease s k.vf else s
  let s := (List.range k.slots).foldl (fun s i =>
    writeStatus s k.ctx k.slice (if i = 0 then k.addr else slotAddr q (k.idx + i)) (k.idx + i) k.status) s
  let s := countEngine (countFault s k.vf k.status) k
  let s := { s with cards := s.cards.filter fun c => c.id ≠ k.id, holds := s.holds.filter fun h => h.1 ≠ k.id }
  let s := frameEnd s k
  let s := finishIndices s k.slice k.queue k.idx k.slots
  if k.irq then s.raise k.vf (queueVec s k.ctx k.slice k.queue) else s

/-- R179, R280: a team has ended without a successor, its copies have completed and its fragments are committed; what its window is
still kept for does not count. -/
def teamDone (s : State) (t : Team) : Bool :=
  t.ended && t.succ.isNone && !(s.copies.any fun c => c.team = t.uid && c.card.isNone)
    && !(s.allGroups.any fun g => g.team = t.uid && g.frag.isSome)

/-- R415, R417: whether a team of a card stands in its context's sump. -/
def savedOf (s : State) (k : Card) : Bool :=
  let b := (s.ctx k.ctx).sb
  let sump := memKey (k.ctx / 64) b.sump.toNat
  b.sump ≠ 0 && (List.range b.nslot.toNat).any fun i =>
    (s.rdMem (sump + 64 + i / 8)).getLsbD (i % 8) && s.rdMemNat (sump + 2 ^ 24 + (b.nclu.toNat + i) * 2 ^ 21 + 8) 8 = k.addr.toNat

/-- R179: whether a launch card's teams have all started and ended, the saved ones too. -/
def launchDone (s : State) (k : Card) (l : Launch) : Bool :=
  !moreTeams k.raster l
    && s.allTeams.all (fun t => !(t.live && t.card = k.id && t.ctx = k.ctx) || teamDone s t)
    && s.keptT.all (fun t => t.t.card ≠ k.id) && !savedOf s k

/-- Whether a card's work has ended, and its status then. -/
def cardEnded (s : State) (k : Card) : Option Byte :=
  match k.phase, k.launch with
  | .done, _ => some k.status
  | .started, some l => if launchDone s k l then some (if k.status = 0 then 1 else k.status) else none
  | _, _ => none

/-! ## Queue reset (R405) -/

/-- The words of the slot of an index, once its ticket is published. -/
def slotWords (s : State) (sl qi i : Nat) : State × Option (List Word) :=
  let ctx := queueCtx s sl qi
  match engReadN s ctx (relSl s ctx sl) (slotAddr (queueOf s sl qi) i) 64 with
  | (s, .error _) => (s, none)
  | (s, .ok bs) =>
    let ws := wordsOf bs
    (s, if (ws.headD 0).toNat = (i + 1) % 2 ^ 32 then some ws else none)

/-- ext. -/
def extBit (ws : List Word) : Bool := (ws.getD 1 0).getLsbD 11

/-- R405, R175: a published card of an index that was not admitted completes with FAULT. -/
def failCard (s : State) (sl qi i : Nat) (ws : List Word) : State :=
  let q := queueOf s sl qi
  let ctx := queueCtx s sl qi
  let k : Card := { vf := ctx / 64, slice := sl, queue := qi, idx := i, ctx := ctx, words := ws, addr := slotAddr q i }
  let s := frameEnd (countFault s (ctx / 64) 7) k
  if k.irq then s.raise k.vf (queueVec s ctx sl qi) else s

/-- The published slots of a queue among the indices from i, n of them, get status FAULT, and their cards complete; `ext` says
that the card before goes on in this slot. -/
def failPublished (s : State) (sl qi i : Nat) (ext : Bool) : Nat → State
  | 0 => s
  | n + 1 =>
    match slotWords s sl qi i with
    | (s, none) => failPublished s sl qi (i + 1) false n
    | (s, some ws) =>
      let s := if ext && (ws.getD 1 0).toNat % 2 ^ 8 = 8 then s else failCard s sl qi i ws
      failPublished (writeStatus s (queueCtx s sl qi) sl (slotAddr (queueOf s sl qi) i) i 7) sl qi (i + 1) (extBit ws) n

/-- R405: a queue reset. -/
def resetQueue (s : State) (sl qi : Nat) : State :=
  match claimOf s sl qi with
  | (s, none) => s
  | (s, some claim) =>
    let s := { s with extCpyq := s.extCpyq.filter fun e => e.1 ≠ sl || e.2.1 ≠ qi || claim ≤ e.2.2 }
    let waiting := s.cards.filter fun k => k.slice = sl && k.queue = qi && k.phase = .admitted
    let s := waiting.foldl (fun s k => completeCard s { k with status := 7 }) s
    let q := queueOf s sl qi
    let s := failPublished s sl qi q.nextAdm false (claim - q.nextAdm)
    let q := queueOf s sl qi
    writeRetire (setQueueOf s sl qi { q with nextAdm := max claim q.nextAdm, retire := max claim q.retire, fin := [] }) sl qi

end Sys2Proof.Machine
end

