-- ==== Sys2Proof/Machine/Sump.lean ====
section
/-! DEFINITION. Saving a team into a slot and restoring it (R377, R378, R415–R418, R421, R422, R483). -/

namespace Sys2Proof.Machine

/-! ## The sump of a context (R415) -/

/-- The key of a team slot of a context's sump. -/
def sumpSlot (s : State) (ctx i : Nat) : Nat :=
  let x := (s.ctx ctx).sb
  memKey (ctx / 64) (x.sump.toNat + 2 ^ 24 + (x.nclu.toNat + i) * 2 ^ 21)

/-- The number of the team slot that a key begins. -/
def slotNumber (s : State) (ctx key : Nat) : Option Nat :=
  if (s.ctx ctx).sb.sump = 0 then none
  else (List.range (s.ctx ctx).sb.nslot.toNat).find? fun i => sumpSlot s ctx i = key

/-- The key of a byte of the sump's header. -/
def sumpByte (s : State) (ctx o : Nat) : Nat := memKey (ctx / 64) ((s.ctx ctx).sb.sump.toNat + o)

/-- Whether a team slot is in use. -/
def slotUsed (s : State) (ctx i : Nat) : Bool := (s.rdMem (sumpByte s ctx (64 + i / 8))).getLsbD (i % 8)

/-- R412: the lowest free team slot of a context. -/
def freeSumpSlot (s : State) (ctx : Nat) : Option Nat :=
  if (s.ctx ctx).sb.sump = 0 then none
  else (List.range (s.ctx ctx).sb.nslot.toNat).find? fun i => !slotUsed s ctx i

/-- R415: marks a slot used or free, and counts. -/
def markSlot (s : State) (ctx i : Nat) (on : Bool) : State :=
  if slotUsed s ctx i = on then s
  else
    let k := sumpByte s ctx (64 + i / 8)
    let s := s.memWrite k [setBit8 (s.rdMem k) (i % 8) on]
    let n := s.rdMemNat (sumpByte s ctx 0) 2
    s.memWrite (sumpByte s ctx 0) (leBytes 2 (if on then n + 1 else n - 1))

/-- Marks the slot of a key, where it is one. -/
def markKey (s : State) (ctx key : Nat) (on : Bool) : State :=
  match slotNumber s ctx key with
  | none => s
  | some i => markSlot s ctx i on

/-- The used team slots of a context, by their keys. -/
def usedSlots (s : State) (ctx : Nat) : List Nat :=
  if (s.ctx ctx).sb.sump = 0 then []
  else ((List.range (s.ctx ctx).sb.nslot.toNat).filter fun i => slotUsed s ctx i).map fun i => sumpSlot s ctx i

/-! ## Stale registers (R388, R389) -/

/-- Every bound register of a group is stale, the captured ones too. -/
def Group.staleAll (g : Group) : Group :=
  let st (m : SMap TReg) : SMap TReg := m.map fun e => (e.1, if e.2.rights = 0 then e.2 else { e.2 with stale := true })
  let blocks (bs : List Block) : List Block := bs.map fun b => { b with caps := st b.caps }
  { g with
    tr := st g.tr, ht15 := if g.ht15.rights = 0 then g.ht15 else { g.ht15 with stale := true }
    laneq := blocks g.laneq, hlaneq := blocks g.hlaneq }

/-! ## What a team holds -/

/-- The groups of a team, by number. -/
def groupsOf (s : State) (uid : Nat) : List Group :=
  (List.range 16).filterMap fun i => s.allGroups.find? fun g => g.live && g.team = uid && g.gid.toNat = i

/-- The banks a team holds, each with its cluster. -/
def heldBanks (s : State) (t : Team) : List (Nat × Nat) :=
  (List.range 4).filterMap fun n => (bankOf s t n).bind fun cl =>
    if ((s.cluster cl).bank n).holder = some t.uid then some (n, cl) else none

/-- The L1 of a team's core. -/
def teamL1 (s : State) (t : Team) : Nat := if (s.cluster (t.ppos / 8)).fused then t.ppos / 8 * 8 + 7 else t.ppos

/-- The frames bound to a team's barriers whose tile rows are not all read. -/
def openBinds (s : State) (t : Team) : List EncBind :=
  (s.slice (t.ppos / 128)).binds.filter fun b => b.card.isNone && b.team = t.uid && b.rows < b.tileRows

/-- R319, R421, R444: a save waits until every released row has been read, an MSTORE in progress has completed, a step under way has committed, and an add stage of SGRAD
has ended or stopped. -/
def saveReady (s : State) (t : Team) : Bool :=
  (openBinds s t).all (fun b => min b.released b.tileRows ≤ b.rows)
    && s.clusters.all (fun c => c.queue.all fun m => m.team ≠ t.uid || !m.storing && !m.under)
    && t.splat.all fun c => !c.adding

/-- R376: every unended group of a team is halted or frozen. -/
def teamStopped (s : State) (uid : Nat) : Bool := (groupsOf s uid).all fun g => g.ended || g.halted || g.frozen

/-- R376, R156: the groups of a team stop at an instruction boundary, with their outstanding loads complete. -/
def haltTeam (s : State) (uid : Nat) : State :=
  s.mapGroups (fun g => g.live && g.team = uid) fun g => { settleResults g with halted := true }

/-- R376: every unended group of a team is halted. -/
def teamHalted (s : State) (uid : Nat) : Bool := (groupsOf s uid).all fun g => g.ended || g.halted

/-- R413: the ladder halts a team that is not halted yet, and marks that it did. -/
def ladderHalt (s : State) (uid : Nat) : State :=
  if teamHalted s uid then s else (haltTeam s uid).mapTeams (fun t => t.uid = uid) fun t => { t with laddered := true }

/-- R436, R453: what the ladder asked of a team is withdrawn: the team goes on unless it was halted, or is frozen, apart from that. -/
def ladderUndo (s : State) (uid : Nat) : State :=
  let on (t : Team) : Bool := t.laddered && !t.frozen
  let s := s.mapGroups (fun g => g.live && g.team = uid && (match s.team? uid with | some t => on t | none => false)) fun g =>
    { g with halted := false }
  s.mapTeams (fun t => t.uid = uid) fun t => { t with softReq := none, hardAt := none, laddered := false }

/-- R379: a team is halted and marked frozen, and its groups with it. -/
def freezeTeam (s : State) (uid : Nat) : State :=
  ((haltTeam s uid).mapGroups (fun g => g.live && g.team = uid) fun g => { g with frozen := true }).mapTeams
    (fun t => t.uid = uid) fun t => { t with frozen := true }

/-- R57: the teams that are preempted with a team: its whole grid, where that is co-resident. -/
def victimGrid (s : State) (t : Team) : List Team :=
  if t.cores then s.allTeams.filter fun u => u.live && !u.ended && u.ctx = t.ctx && u.cardAddr = t.cardAddr else [t]

/-- R436, R454: a resize or a checkpoint asks a team, or its co-resident grid, to go: the kill rung does not apply to it. -/
def sparedTeam (s : State) (t : Team) : Bool :=
  (victimGrid s t).any (fun u => (s.slice (u.ppos / 128)).draining) || (s.slice (t.ppos / 128)).draining || (s.ctx t.ctx).quiesce

/-- R379, R380: a team that is frozen, itself or with its context: what a preemption asks of it stays pending through the thaw. A
team that only holds a group frozen by its fault is not (R360), nor is one that a resize or a checkpoint moves. -/
def teamFrozen (s : State) (uid : Nat) : Bool :=
  match s.team? uid with
  | none => false
  | some t => (t.frozen || ctxFrozen s t.ctx) && !sparedTeam s t

/-- R413: a group that meets the soft rung where it is parked. -/
def softParked (g : Group) : Bool :=
  g.ended || [ParkKind.yieldc, .sleep, .waitb, .heaptake, .heapadd, .exit, .teambar].contains g.park

/-- R413: the teams that meet their soft request where they are parked are stopped. -/
def meetSoft (s : State) : State :=
  let due := s.allTeams.filter fun t => t.live && !t.ended && t.softReq.isSome && !teamFrozen s t.uid && !teamHalted s t.uid
    && (groupsOf s t.uid).all fun g => softParked g || g.halted
  (due.map fun t => t.uid).foldl ladderHalt s

/-! ## Save -/

/-- R417: the team header. -/
def headerPieces (s : State) (t : Team) : List Piece :=
  let b (x : Bool) (n : Nat) : Nat := if x then 2 ^ n else 0
  let home := s.partCluster t.ctx (t.ppos / 8)
  let banks := ((heldBanks s t).map fun p => 2 ^ (18 + p.1)).sum
  [pc4 4 (1 + t.ngrp * 2 ^ 8 + b t.cores 13 + b t.chain 14 + b t.l1fuse 15 + b t.roof 16 + banks),
   pc8 8 t.cardAddr.toNat, pc8 16 t.lin, pc4 24 (t.wsize / 4096 + home * 2 ^ 8),
   pc8 32 (t.qidx + relSl s t.ctx t.qslice * 2 ^ 8), pc8 40 (t.gx - 1 + (t.gy - 1) * 2 ^ 20 + (t.gz - 1) * 2 ^ 36),
   pc8 48 t.ltext.toNat, pc8 56 t.attr.toNat, pc8 64 t.constB.toNat]

/-- R416: an encoder binding. -/
def bindPieces (o : Nat) (b : EncBind) : List Piece :=
  [pc8 o b.base.toNat, pc4 (o + 8) (b.idx.toNat + (if b.key then 2 ^ 16 else 0)), pc4 (o + 12) b.bar, pc4 (o + 16) b.released]

/-- The bytes of the full/empty bitmap: bit n is set where line n is full. -/
def fullPieces (t : Team) : List Piece :=
  (List.range ((t.wsize / 128 + 7) / 8)).map fun j =>
    (0x1100 + j, 1, ((List.range 8).map fun i =>
      if 8 * j + i < t.wsize / 128 && !t.emptyL.contains (8 * j + i) then 2 ^ i else 0).sum)

/-- The matrix commands of a team: its own engine's, then a leased one's, in queue order. -/
def teamCmds (s : State) (t : Team) : List MCmd :=
  let own := t.ppos / 8
  ((s.cluster own).queue ++ (s.clusters.filter fun c => c.id ≠ own).flatMap fun c => c.queue).filter fun m => m.team = t.uid

/-- R416: a team slot, but for the group records. -/
def slotPieces (s : State) (t : Team) : List Piece :=
  headerPieces s t
    ++ ((List.range 16).map fun i => chanPieces (0x100 + 48 * i) (SMap.get [] t.chans i)).flatten
    ++ ((teamCmds s t).mapIdx fun i m => mcmdPieces (0x400 + 64 * i) m).flatten
    ++ (t.splat.mapIdx fun i c => splatPieces (0x800 + 128 * i) c).flatten
    ++ ((openBinds s t).mapIdx fun i b => bindPieces (0xC00 + 32 * i) b).flatten
    ++ fullPieces t
    ++ (heldBanks s t).flatMap (fun p =>
      let b := (s.cluster p.2).bank p.1
      bankPieces (0x1000 + 64 * p.1) b true ++ b.acc.map fun e => pc4 (0x2000 + 0x20000 * p.1 + 4 * e.1) e.2.toNat)
    ++ t.sp.map fun e => (0x82000 + e.1, 1, e.2.toNat)

/-- Whether a key lies in the slot that begins at another. -/
def inSlot (key k : Nat) : Bool := key ≤ k && k < key + 2 ^ 21

/-- What a saved team leaves behind is removed: its commands and bindings, its groups, its resources. -/
def releaseTeam (s : State) (t : Team) : State :=
  let s := { s with
    clusters := s.clusters.map fun c => { c with queue := c.queue.filter fun m => m.team ≠ t.uid }
    slices := s.slices.map fun c => { c with
      binds := c.binds.filter fun b => !(b.card.isNone && b.team = t.uid && b.rows < b.tileRows) } }
  removeTeam s t.uid

/-- R401, R416: the sectors of a slot that hold what an uncorrectable error has taken: accumulator elements, lines of the window,
register elements, the state of a group (log 15). Poison stays poison. -/
def badSectors (s : State) (t : Team) (key : Nat) : List Nat :=
  let rec_ (g : Group) : Nat := key + 0x100000 + 0x10000 * g.gid.toNat
  ((heldBanks s t).flatMap (fun p =>
      ((s.cluster p.2).bank p.1).bad.map fun e => (key + 0x2000 + 0x20000 * p.1 + 4 * e) / 32)
    ++ t.lostL.flatMap (fun l => (List.range 4).map fun i => (key + 0x82000) / 32 + 4 * l + i)
    ++ ((groupsOf s t.uid).filter fun g => !g.ended).flatMap fun g =>
      (g.badRegs.map fun e => (rec_ g + 0x8000 + 4 * e) / 32) ++ (if g.lost then [rec_ g / 32] else [])).eraseDups

/-- R377: a stopped team is written into the slot at a key, and its resources are released. -/
def saveTeam (s : State) (uid key : Nat) : State :=
  let s := haltTeam s uid
  match s.team? uid with
  | none => s
  | some t =>
    let s := (s.performDirty (teamL1 s t) fun _ => true).ackAllDup (teamL1 s t)
    let gs := groupsOf s uid
    let rec_ (g : Group) : Nat := key + 0x100000 + 0x10000 * g.gid.toNat
    let kt : KeptTeam :=
      { key := key, t := t, cmds := teamCmds s t,
        last := (s.clusters.flatMap fun c => c.last).filter fun l => l.team = uid, binds := openBinds s t,
        gen := (s.ctx t.ctx).xb.gen }
    let bad := badSectors s t key
    let s := writePieces s key (2 ^ 21) (slotPieces s t)
    let s := { s with poison := bad ++ s.poison }
    let s := gs.foldl (fun s g => writeGroup s (rec_ g) g) s
    let s := resealSlot s key
    let s := { s with
      kept := (s.kept.filter fun k => !inSlot key k.key) ++ gs.map fun g => keptOf (rec_ g) g
      keptT := (s.keptT.filter fun k => k.key ≠ key) ++ [kt]
      redir := (s.redir.filter fun r => r.2 ≠ key) ++ [(uid, key)] }
    markKey (settleRedir (releaseTeam s t) uid) t.ctx key true

/-! ## Restore -/

/-- The groups of a slot. -/
def slotGroups (s : State) (key : Nat) : Nat := recNat s key 5 1 % 32
/-- The key of a group record. -/
def slotGroup (key i : Nat) : Nat := key + 0x100000 + 0x10000 * i
/-- R422: whether a check word of a slot fails or a byte of it is poisoned. -/
def slotCorrupt (s : State) (key : Nat) : Bool :=
  !checkOk s key 0x1200 || s.poisoned key (2 ^ 21)
    || (List.range (slotGroups s key)).any fun i => !checkOk s (slotGroup key i) 0x8000

/-- What the team of a slot needs: ended groups hold nothing. -/
def slotNeed (s : State) (key : Nat) : Need :=
  let gs := (List.range (slotGroups s key)).filter fun i => !(recNat s (slotGroup key i) 7 1).testBit 3
  ⟨gs.length, (gs.map fun i => recNat s (slotGroup key i) 6 1).sum, 4096 * (recNat s key 24 1 % 128)⟩

/-- The launch attribute word of a slot, with the kind of core it ran on. -/
def slotAttr (s : State) (key : Nat) : DWord :=
  let a := recNat s key 56 8
  BitVec.ofNat 64 (a % 2 ^ 48 + (recNat s key 6 1 % 4) * 2 ^ 48)

/-- A saved team as a candidate for cores. -/
def slotCand (s : State) (ctx key : Nat) : Cand := ⟨2 ^ 64 + key, ctx, slotAttr s key, slotNeed s key⟩

/-- R483: the command of a code. -/
def kindOf (n : Nat) : MKind := match n with | 1 => .mloop | 2 => .mconv | 3 => .mstore | _ => .mzero

/-- A valid matrix command entry i of a slot, over what was kept of it. -/
def cmdOf (s : State) (key i uid ctx : Nat) (base : MCmd) : Option MCmd :=
  let o := 0x400 + 64 * i
  let f := recNat s key (o + 44) 1
  if !f.testBit 4 then none
  else
    let kind := kindOf (f % 8)
    let n : Nat := match kind with | .mloop => 4 | .mconv => 4 | .mstore => 2 | .mzero => 0
    let ctl : Word := BitVec.ofNat 32 (recNat s key (o + 32) 4)
    some { base with
      kind := kind, team := uid, ctx := ctx, gid := BitVec.ofNat 4 (recNat s key (o + 45) 1),
      cpc := BitVec.ofNat 64 (recNat s key (o + 48) 8), fmt := BitVec.ofNat 128 (recNat s key o 16),
      run := (List.range n).map fun j => BitVec.ofNat 32 (recNat s key (o + 16 + 4 * j) 4),
      ctl := if kind = .mzero then base.ctl else ctl,
      bank := (match kind with | .mloop => ctl.toNat / 2 ^ 16 % 4 | .mconv => ctl.toNat / 2 ^ 16 % 4 | _ => ctl.toNat % 4), bar := recNat s key (o + 36) 4,
      next := recNat s key (o + 40) 4,
      fault := if f.testBit 3 then some (base.fault.getD (0x0A, 0)) else none }

/-- A valid Flowstone entry i of a slot, over what was kept of it; an add stage runs its read stage again. -/
def splatOf (s : State) (key i : Nat) (base : SplatCmd) : Option SplatCmd :=
  let o := 0x800 + 128 * i
  let f := recNat s key (o + 36) 1
  if !f.testBit 4 then none
  else
    let n := match f % 4 with | 0 => 1 | 1 => 1 | 2 => 6 | _ => 8
    let x := recNat s key (o + 56) 4
    let c : SplatCmd := { base with
      fn := BitVec.ofNat 2 f, gid := BitVec.ofNat 4 (recNat s key (o + 37) 1), cpc := BitVec.ofNat 64 (recNat s key (o + 64) 8),
      run := (List.range n).map fun j => BitVec.ofNat 32 (recNat s key (o + 4 * j) 4), bar := recNat s key (o + 32) 4,
      started := f.testBit 2, inAdd := f.testBit 3, charge := recNat s key (o + 40) 8,
      phase := recNat s key (o + 52) 1 % 4, cnt := if f % 4 = 1 then x else base.cnt, addIdx := if f.testBit 3 then x else 0,
      adds := [], status := [] }
    some { c with next := recNat s key (o + 48) 4 - c.first }

/-- R416: binding i of a slot, over what was kept of it; without that, a binding that the slot holds has its session's descriptor as it
stands, and its rows are read again. -/
def bindOf (s : State) (key i uid ctx : Nat) (kept : Option EncBind) : Option EncBind :=
  let o := 0xC00 + 32 * i
  let f := recNat s key (o + 8) 4
  let b : EncBind := kept.getD
    { ctx := ctx, idx := BitVec.ofNat 16 f, desc := wordsOf (s.rdMemN (memKey (ctx / 64) ((s.ctx ctx).otab.toNat + 64 * (f % 2 ^ 16))) 64) }
  if (s.rdMemN (key + o) 32).all (· = 0) then none
  else some { b with
    base := BitVec.ofNat 64 (recNat s key o 8), idx := BitVec.ofNat 16 f, key := f.testBit 16, bar := recNat s key (o + 12) 4,
    released := recNat s key (o + 16) 4, team := uid }

/-- The lines of a slot's window that are empty. -/
def slotEmpty (s : State) (key : Nat) : List Nat :=
  (List.range (32 * (recNat s key 24 1 % 128))).filter fun n => !(s.rdMem (key + 0x1100 + n / 8)).getLsbD (n % 8)

/-- The register units of the team of a slot, those of its ended groups among them (R62). -/
def slotUnits (s : State) (key : Nat) : Nat := ((List.range (slotGroups s key)).map fun i => recNat s (slotGroup key i) 6 1).sum

/-- The team of a slot, on a core, from a clock on. -/
def teamOfSlot (s : State) (key uid ctx card p startAt : Nat) : Team :=
  let n (o len : Nat) : Nat := recNat s key o len
  let w := n 4 4
  let grid := n 40 8
  let wsize := 4096 * (n 24 1 % 128)
  { uid := uid, live := true, ctx := ctx, ngrp := w / 2 ^ 8 % 32, cores := w.testBit 13, chain := w.testBit 14,
    l1fuse := w.testBit 15, roof := w.testBit 16, card := card, cardAddr := BitVec.ofNat 64 (n 8 8), lin := n 16 8,
    qidx := n 32 1 % 128, qslice := (s.vf (ctx / 64)).first + n 33 1 % 16 % 2 ^ (s.vf (ctx / 64)).j,
    gx := grid % 2 ^ 20 + 1, gy := grid / 2 ^ 20 % 2 ^ 16 + 1, gz := grid / 2 ^ 36 % 2 ^ 16 + 1,
    ltext := BitVec.ofNat 64 (n 48 8), attr := BitVec.ofNat 64 (n 56 8), constB := BitVec.ofNat 64 (n 64 8), ppos := p,
    wsize := wsize,
    sp := (SMap.slice s.mem (key + 0x82000) (key + 0x82000 + wsize)).map fun e => (e.1 - (key + 0x82000), e.2),
    emptyL := slotEmpty s key,
    chans := (List.range 16).foldl (fun m i => SMap.set [] m i (chanOf s key (0x100 + 48 * i))) [],
    started := max s.clk startAt, lastIssue := s.now, regs := slotUnits s key, startAt := startAt }

/-- The banks of a slot: their numbers. -/
def slotBanks (s : State) (key : Nat) : List Nat := (List.range 4).filter fun n => (recNat s key 4 4).testBit (18 + n)

/-- The banks that a slot's team holds or has commands for. -/
def slotUses (s : State) (key : Nat) : List Nat :=
  slotBanks s key ++ (List.range 16).filterMap fun i => (cmdOf s key i 0 0 {}).map fun m => m.bank

/-- R441, R444: whether the engine of a bank takes commands of a context's team on a core: its own while it is not lent, a leased one
while the lease is active. -/
def engineOpen (s : State) (ctx p n : Nat) : Bool :=
  if n < 2 then !lentOut s (p / 8)
  else s.leases.any fun l => l.state = 2 && 64 * l.vf + l.intf = ctx && l.pslice = p / 128 - (s.vf (ctx / 64)).first

/-- R419, R256, R462: where a team that holds banks or commands, or whose home lies beyond the partition, may be restored, that its engines
take them, and that its banks are free there. -/
def homeOk (s : State) (ctx key p : Nat) : Bool :=
  let t := teamOfSlot s key 0 ctx 0 p 0
  let home := recNat s key 25 1
  let ties := !(slotUses s key).isEmpty || 16 * 2 ^ (s.vf (ctx / 64)).j ≤ home
  (!ties || s.partCluster ctx (p / 8) = home || !(s.allTeams.any fun u => u.live && u.ctx = ctx && u.ppos / 8 = p / 8))
    && (slotUses s key).all (engineOpen s ctx p)
    && (slotBanks s key).all fun n => match bankOf s t n with
      | none => false
      | some cl => match ((s.cluster cl).bank n).holder with
        | none => true
        | some u => (s.team? u).isNone

/-- Whether a saved team may be restored on a core now. -/
def restoreFits (s : State) (ctx key p : Nat) : Bool := fitsOn s (slotCand s ctx key) p && homeOk s ctx key p

/-- R340, R419: the context's saved state of a cluster comes back with its first team there. -/
def enterCluster (s : State) (ctx cl home : Nat) : State :=
  let c := s.cluster cl
  let s := match areaKey s ctx home with
    | none => s
    | some k =>
      let f := s.rdMemNat k 1 % 4
      if f = 0 || c.roofOwner = some ctx || c.areaDue.any (fun e => e.1 = ctx) then s
      else s.setCluster { c with areaDue := c.areaDue ++ [(ctx, k + f)] }
  placeSlots s ctx cl

/-- The launch card of a saved team. -/
def slotCard (s : State) (ctx key : Nat) : Nat :=
  match s.keptT.find? fun k => k.key = key && k.t.ctx = ctx with
  | some k => k.t.card
  | none => ((s.cards.find? fun c => c.ctx = ctx && c.launch.isSome && c.addr = BitVec.ofNat 64 (recNat s key 8 8)).map
      fun c => c.id).getD 0

/-- R378, R422: the team of a sound slot with room is restored on a core; its unended groups take the lowest free slots (R480), and
the sessions of its bound frames are held (R297). -/
def restoreTeam (s : State) (ctx key p : Nat) : State :=
  let kt := s.keptT.find? fun k => k.key = key && k.t.ctx = ctx
  let uid := match kt with | some k => k.t.uid | none => s.nextId
  let card := slotCard s ctx key
  let n := slotGroups s key
  let base := kt.getD {}
  let (s, startAt) := wakeRoofFor (dropRemains s p) p base.t.startAt
  let t := teamOfSlot s key uid ctx card p startAt
  let cmds := (List.range 16).filterMap fun i => cmdOf s key i uid ctx (base.cmds.getD i {})
  let t := { t with splat := (List.range 8).filterMap fun i => splatOf s key i (base.t.splat.getD i {}), frozen := base.t.frozen }
  let binds := (List.range 8).filterMap fun i => bindOf s key i uid ctx base.binds[i]?
  let banks := (slotBanks s key).filterMap fun b => (bankOf s t b).map fun cl => (b, cl)
  -- the cluster and the core take the team in
  let s := setFuse s (p / 8) t.l1fuse
  let s := s.l1Invalidate (teamL1 s t)
  let live (i : Nat) : Bool := !(recNat s (slotGroup key i) 7 1).testBit 3
  let slots := freeSlots s p n
  let slotFor (i : Nat) : Nat := slots.getD (((List.range i).filter live).length) 0
  let gs := (List.range n).map fun i => groupOf s (slotGroup key i) (s.nextId + 1 + i) uid ctx (slotFor i)
  let gs := if (kt.map fun k => k.gen).getD (s.ctx ctx).xb.gen = (s.ctx ctx).xb.gen then gs else gs.map fun (g : Group) => g.staleAll
  let s := enterCluster s ctx (p / 8) (recNat s key 25 1)
  let s := if p % 8 = 4 then takeRoof s (p / 8) ctx else s
  let s := { s with nextId := s.nextId + 1 + n, ts := s.ts ++ [t], gs := s.gs ++ gs }
  -- R404: each scratch area goes into the area of the new slot
  let s := ((List.range n).zip gs).foldl (fun (s : State) (e : Nat × Group) =>
    if e.2.ended || (s.ctx ctx).sb.hscr = 0 then s
    else
      let k := groupPieces.scratchKeyOf s e.2
      (s.memWrite k (s.rdMemN (slotGroup key e.1 + 0x4000) 4096)).mapGroups (fun g => g.uid = e.2.uid && g.inHandler) fun g =>
        g.setScratch (BitVec.ofNat 36 (k % 2 ^ 48 / 2 ^ 12))) s
  -- engines
  let s := banks.foldl (fun (s : State) (e : Nat × Nat) =>
    s.setCluster ((s.cluster e.2).setBank e.1 (bankOfSlot s key e.1 uid ctx))) s
  let s := cmds.foldl (fun (s : State) (m : MCmd) =>
    match bankOf s t m.bank with
    | none => s
    | some cl => let c := s.cluster cl; s.setCluster { c with queue := c.queue ++ [m] }) s
  let s := base.last.foldl (fun (s : State) (l : LastLoop) =>
    match bankOf s t l.bank with
    | none => s
    | some cl => s.setCluster ((s.cluster cl).setLast l)) s
  let sl := s.slice (p / 128)
  let sl := binds.foldl (fun (c : Slice) (b : EncBind) => (holdSession c ctx b.idx s.nextId).getD c) sl
  let s := s.setSlice { sl with binds := sl.binds ++ binds }
  markKey { s with
    kept := s.kept.filter fun k => !inSlot key k.key
    keptT := s.keptT.filter fun k => k.key ≠ key
    redir := s.redir.filter fun r => r.2 ≠ key } ctx key false

/-- R421: copies that still run into a slot. -/
def slotRedir (s : State) (key : Nat) : Bool :=
  s.copies.any fun c => c.card.isNone && c.fault.isNone && s.redir.any fun r => r.2 = key && r.1 = c.team

end Sys2Proof.Machine
end

