-- ==== Sys2Proof/Machine/Resets.lean ====
section
/-! DEFINITION. Resets: of a team, a grid (R414), a context (R413), and of the engines that FREEZE names (R379). -/

namespace Sys2Proof.Machine

/-! ## Teams and grids -/

/-- A resident team's work is discarded: its copies, commands and bindings, its banks, which are cleared, its window. -/
def discardTeam (s : State) (uid : Nat) : State :=
  match s.team? uid with
  | none => s
  | some t =>
    let wipe (b : Bank) : Bank := if b.holder = some uid then {} else b
    let s := { s with
      copies := s.copies.filter fun c => !(c.card.isNone && c.team = uid)
      clusters := s.clusters.map fun c =>
        { c with queue := c.queue.filter fun m => m.team ≠ uid, bank0 := wipe c.bank0, bank1 := wipe c.bank1 }
      slices := s.slices.map fun c => { c with binds := c.binds.filter fun b => !(b.card.isNone && b.team = uid) } }
    removeTeam s t.uid

/-- A saved team is forgotten, and its slot freed. -/
def discardSaved (s : State) (k : KeptTeam) : State :=
  markKey { s with
    copies := s.copies.filter fun c => !(c.card.isNone && c.team = k.t.uid)
    kept := s.kept.filter fun x => !inSlot k.key x.key
    keptT := s.keptT.filter fun x => x.key ≠ k.key
    redir := s.redir.filter fun r => r.2 ≠ k.key } k.t.ctx k.key false

/-- R414: a grid is reset in the whole partition, resident and saved teams, those that have its card's address (R417), and its card completes
with FAULT. -/
def resetGrid (s : State) (ctx card : Nat) (addr : DWord) : State :=
  let mine := (s.allTeams.filter fun t => t.live && t.ctx = ctx && t.cardAddr = addr).map fun t => t.uid
  let s := mine.foldl discardTeam s
  let s := (s.keptT.filter fun k => k.t.ctx = ctx && k.t.cardAddr = addr).foldl discardSaved s
  let s := (usedSlots s ctx).foldl (fun (s : State) key => if recNat s key 8 8 = addr.toNat then markKey s ctx key false else s) s
  match card? s card with
  | none => s
  | some k => completeCard s { k with status := 7 }

/-- The grid of a team is reset. -/
def resetGridOf (s : State) (t : Team) : State := resetGrid s t.ctx t.card t.cardAddr

/-- R379: FREEZE resets a team: its work is discarded, no further team of its card starts, and the card completes with
FAULT. -/
def resetTeam (s : State) (t : Team) : State :=
  let s := discardTeam s t.uid
  mapCard s t.card fun c => { c with
    status := 7
    launch := c.launch.map fun l => { l with next := l.teams, prim := drawW l.draw 4, ready := none, held := [] } }

/-! ## Contexts -/

/-- R413: what a context holds in a cluster is discarded and zeroed. -/
def Cluster.dropCtx (c : Cluster) (ctx : Nat) : Cluster :=
  let wipe (b : Bank) : Bank := if b.ctx = ctx then {} else b
  let owns := c.roofOwner = some ctx
  { c with
    queue := c.queue.filter fun m => m.ctx ≠ ctx
    bank0 := wipe c.bank0, bank1 := wipe c.bank1
    roof := if owns || c.roofData = some ctx then [] else c.roof
    badRoof := if owns || c.roofData = some ctx then [] else c.badRoof
    roofData := if c.roofData = some ctx then none else c.roofData
    roofOwner := if owns then none else c.roofOwner
    areaDue := c.areaDue.filter fun e => e.1 ≠ ctx
    chim := (List.range 4).map fun n => if c.chimOwner.getD n 0 = ctx then [] else c.chim.getD n []
    slots := c.slots.map fun o => match o with
      | some sl => if sl.ctx = ctx then none else o
      | none => none
    inbox := c.inbox.filter fun a => a.ctx ≠ ctx }

/-- What a context holds in a slice is discarded. -/
def Slice.dropCtx (c : Slice) (ctx : Nat) : Slice :=
  { c with
    heap := c.heap.filter fun e => e.ctx ≠ ctx
    sessions := c.sessions.filter fun e => e.ctx ≠ ctx
    binds := c.binds.filter fun b => b.ctx ≠ ctx }

/-- R413: a context's queue is reset and disabled: cards published by now complete with FAULT. -/
def stopQueue (s : State) (sl qi : Nat) : State :=
  let s := resetQueue s sl qi
  setQueueOf s sl qi { queueOf s sl qi with en := false }

/-- The queues of a context: slice and index. -/
def queuesOf (s : State) (ctx : Nat) : List (Nat × Nat) :=
  (s.partSlices (ctx / 64)).flatMap fun sl =>
    ((s.slice sl).queues.filter fun e => 64 * (s.slice sl).vf + e.2.ctx.toNat = ctx && (s.slice sl).state = 1).map fun e => (sl, e.1)

/-- R413: the masters of a context are reset in every slice of its partition, its cards complete with FAULT, and its
queues are disabled. -/
def resetContext (s : State) (ctx : Nat) : State :=
  let s := ((s.allTeams.filter fun t => t.live && t.ctx = ctx).map fun t => t.uid).foldl discardTeam s
  let s := (s.keptT.filter fun k => k.t.ctx = ctx).foldl discardSaved s
  let s := (List.range (s.ctx ctx).sb.nslot.toNat).foldl (fun (s : State) i =>
    if (s.ctx ctx).sb.sump = 0 then s else markSlot s ctx i false) s
  let s := { s with
    copies := s.copies.filter fun c => c.ctx ≠ ctx
    clusters := s.clusters.map fun (c : Cluster) => c.dropCtx ctx
    slices := s.slices.map fun (c : Slice) => c.dropCtx ctx }
  let s := (savedRegions s ctx).foldl (fun (s : State) r => setSinterBit (s.memWrite (sinterKey s ctx r) [0]) ctx r false) s
  let s := s.setCtx { s.ctx ctx with savedSl := [] }
  let s := (s.cards.filter fun k => k.ctx = ctx && k.phase ≠ .admitted).foldl (fun (s : State) (k : Card) => completeCard s { k with status := 7 }) s
  let s := (queuesOf s ctx).foldl (fun (s : State) (q : Nat × Nat) => stopQueue s q.1 q.2) s
  (s.cards.filter fun k => k.ctx = ctx).foldl (fun (s : State) (k : Card) => completeCard s { k with status := 7 }) s

/-- The numbers of a VF's contexts. -/
def ctxsOf (s : State) (vf : Nat) : List Nat := (s.ctxs.filter fun c => c.id / 64 = vf).map fun c => c.id

/-! ## Engines -/

/-- R379: a copy engine's work is discarded. -/
def resetCopies (s : State) (sl eng : Nat) : State :=
  let mine := s.copies.filter fun c => c.slice = sl && c.id % 2 = eng
  mine.foldl (fun (s : State) (c : Copy) =>
    let s := s.dropCopy c.id
    match c.card with
    | some id => endCard s id 7
    | none => reapTeam (settleRedir (abandonBarrier s (c.decr 0)) c.team) c.team) s

/-- A matrix engine's work is discarded, and its banks are zeroed. -/
def resetMatrix (s : State) (cl : Nat) : State :=
  let c := s.cluster cl
  let q := c.queue
  let s := s.setCluster { c with queue := [], bank0 := {}, bank1 := {}, last := [], mfrozen := false }
  q.foldl (fun (s : State) (m : MCmd) =>
    let s := if m.kind = .mzero then s else abandonBarrier s (m.decr (cl / 16) 0)
    reapTeam s m.team) s

/-- A Flowstone unit's work is discarded: the started commands of the teams it serves. -/
def resetSplat (s : State) (sl unit : Nat) : State :=
  let mine := s.allTeams.filter fun t => t.live && t.ppos / 128 = sl && splatUnit t = unit
  mine.foldl (fun (s : State) (t : Team) =>
    match t.splat with
    | c :: _ => if c.started then setSplat (abandonBarrier s (c.decr t 0)) t.uid none else s
    | [] => s) s

/-- An encoder lane's work is discarded: sessions and frames; encode cards complete with FAULT. -/
def resetEncoder (s : State) (sl : Nat) : State :=
  let c := s.slice sl
  let s := s.setSlice { c with sessions := [], binds := [], encFrozen := false }
  c.binds.foldl (fun (s : State) (b : EncBind) => match b.card with
    | some id => endCard s id 7
    | none => reapTeam s b.team) s

end Sys2Proof.Machine
end

