-- ==== Sys2Proof/Machine/Control.lean ====
section
/-! DEFINITION. Preemption and control: master handles (R373), HALT, CTXSAVE, CTXLOAD and FREEZE (R376–R380), the ladder
(R413, R414) with YIELD (R204), and RETT (R363, R395). -/

namespace Sys2Proof.Machine

/-! ## Master handles (R373) -/

/-- A master handle. -/
structure Handle where
  kind  : Nat
  unit  : Nat
  core  : Nat
  gslot : Nat
  slice : Nat

/-- The fields of a handle; `none` where a reserved bit is set, or a field that must be 0 is not. -/
def handleOf (w : Word) : Option Handle :=
  let n := w.toNat
  let h : Handle := ⟨n / 2 ^ 28, n / 2 ^ 24 % 16, n / 2 ^ 21 % 8, n / 2 ^ 15 % 64, n / 2 ^ 11 % 16⟩
  if n % 2 ^ 11 ≠ 0 || (h.kind ≠ 0 && (h.core ≠ 0 || h.gslot ≠ 0)) || 7 ≤ h.kind then none else some h

/-- What a handle names: a core of a cluster with a slot, an engine of a slice, or a virtual function. -/
inductive Master where
  | core (p slot : Nat)
  | copy (sl unit : Nat)
  | matrix (cl : Nat)
  | splat (sl unit : Nat)
  | sinter (cl : Nat)
  | encoder (sl : Nat)
  | vf (n : Nat)

/-- R373: the present master a handle names, to a controller in its mode. -/
def masterOf (s : State) (w : Word) : Option Master :=
  match handleOf w with
  | none => none
  | some h =>
    let dev := s.g.mode = .device
    let sl := if dev then h.slice else s.sliceId
    let cl := 16 * sl + h.unit
    let here := (s.clusterMask sl).getLsbD h.unit
    if !dev && h.slice ≠ 0 then none
    else match h.kind with
      | 0 => if here && h.core < 5 then some (.core (8 * cl + h.core) h.gslot) else none
      | 1 => if h.unit < 2 then some (.copy sl h.unit) else none
      | 2 => if here then some (.matrix cl) else none
      | 3 => if h.unit < 4 then some (.splat sl h.unit) else none
      | 4 => if here then some (.sinter cl) else none
      | 5 => if h.unit = 0 then some (.encoder sl) else none
      | _ => if dev && (s.vf h.unit).present then some (.vf h.unit) else none

/-- The team of the group in a slot of a core. -/
def teamAt (s : State) (p slot : Nat) : Option Team :=
  (s.allGroups.find? fun g => g.live && !g.ended && g.slot = slot &&
    (match s.team? g.team with | some t => t.ppos = p && g.mode ≠ .slice && g.mode ≠ .device | none => false)).bind
      fun g => s.team? g.team

/-- The controller's word ends with q. -/
def endQ (w : Bool) (q : QReg) (b : Bool) (s : State) : Res := .next ((s.mapG fun g => g.wrQ q b).endC w 4)

/-! ## Stopping and resuming -/

/-- Sets or clears a number in a list. -/
def markIn (n : Nat) (on : Bool) (l : List Nat) : List Nat := if on then n :: l.filter (· ≠ n) else l.filter (· ≠ n)

/-- R379: a virtual function and its contexts freeze or thaw. -/
def freezeVf (s : State) (vf : Nat) (on : Bool) : State :=
  let s := s.setVf { s.vf vf with frozen := on }
  { s with ctxs := s.ctxs.map fun c => if c.id / 64 = vf then { c with frozen := on } else c }

/-- R376, R379: a master other than a team stops (`on`) or resumes. -/
def freezeEngine (s : State) (on : Bool) : Master → State
  | .core _ _ => s
  | .copy sl u => let c := s.slice sl; s.setSlice { c with cpyFrozen := markIn u on c.cpyFrozen }
  | .matrix cl => s.setCluster { s.cluster cl with mfrozen := on }
  | .splat sl u => let c := s.slice sl; s.setSlice { c with splFrozen := markIn u on c.splFrozen }
  | .sinter cl => s.setCluster { s.cluster cl with sfrozen := on }
  | .encoder sl => s.setSlice { s.slice sl with encFrozen := on }
  | .vf n => freezeVf s n on

/-- R363: the first element of a list that `f` changes is changed. -/
def mapFirst {α : Type} (f : α → Option α) : List α → List α
  | [] => []
  | x :: xs => match f x with
    | some y => y :: xs
    | none => x :: mapFirst f xs

/-- R363: the stopped command whose fault stands in a group's hs registers runs on: a copy, a matrix command, or a Flowstone
command of the group. -/
def resumeCommand (s : State) (g : Group) : State :=
  let f : Byte × DWord := (g.hs.cause.extractLsb' 0 8, g.hs.addr)
  if s.copies.any fun c => c.team = g.team && c.gid = g.gid && c.fault = some f then
    { s with copies := mapFirst (fun c : Copy =>
        if c.team = g.team && c.gid = g.gid && c.fault = some f then some { c with fault := none } else none) s.copies }
  else
    match (s.clusters.flatMap fun c => c.queue.map fun m => (c.id, m)).find? fun e =>
        e.2.team = g.team && e.2.gid = g.gid && e.2.fault = some f with
    | some (cl, m) =>
      let c := s.cluster cl
      s.setCluster (noteLoop (c.setHead m.bank (some { m with fault := none })) m false m.next)
    | none => s.mapTeams (fun t => t.uid = g.team) fun t => { t with splat := mapFirst (fun c : SplatCmd =>
        if c.gid = g.gid && c.stopped then some { c with stopped := false } else none) t.splat }

/-- R360: whether a group stands frozen on an engine's fault taken from user mode. -/
def Group.frozenByEngine (g : Group) : Bool :=
  g.live && g.frozen && g.mode = .user && !g.lost && g.hs.cause.extractLsb' 10 2 = 2

/-- R379, R360: a team's halted and frozen groups go on; a command stopped by an engine's fault that was escalated from user mode
resumes. -/
def thawTeam (s : State) (uid : Nat) : State :=
  let s := (s.allGroups.filter fun g => g.team = uid && g.frozenByEngine).foldl resumeCommand s
  (s.mapGroups (fun g => g.live && g.team = uid) fun g => { g with halted := false, frozen := false }).mapTeams
    (fun t => t.uid = uid) fun t => { t with hardAt := none, laddered := false, frozen := false }

/-- R379: the work of a master is discarded. -/
def resetEngine (s : State) : Master → State
  | .core _ _ => s
  | .copy sl u => freezeEngine (resetCopies s sl u) false (.copy sl u)
  | .matrix cl => resetMatrix s cl
  | .splat sl u => freezeEngine (resetSplat s sl u) false (.splat sl u)
  | .sinter cl => s.setCluster { s.cluster cl with slots := List.replicate 8 none, inbox := [], sfrozen := false }
  | .encoder sl => resetEncoder s sl
  | .vf n => freezeVf ((ctxsOf s n).foldl resetContext s) n false

/-! ## HALT -/

/-- R413, R57: the soft request is posted to a team, and to every team of its co-resident grid. -/
def softHalt (s : State) (uid : Nat) : State :=
  match s.team? uid with
  | none => s
  | some t =>
    let grid := (victimGrid s t).map fun u => u.uid
    s.mapTeams (fun u => u.live && grid.contains u.uid && u.softReq.isNone) fun u => { u with softReq := some s.now }

/-- HALT (R376). -/
def haltRun (w hard : Bool) (a : SReg) (q : QReg) (s : State) : Res :=
  if s.g.mode ≠ .slice then illegalC s
  else match masterOf s (s.g.rdS s.tick a) with
    | none => endQ w q false s
    | some (.core p slot) =>
      (match teamAt s p slot with
       | none => endQ w q false s
       | some t =>
         if teamStopped s t.uid then endQ w q true s
         else if hard then endQ w q true (haltTeam s t.uid)
         else endQ w q true (softHalt s t.uid))
    | some (.vf _) => endQ w q false s
    | some m => endQ w q true (freezeEngine s true m)

/-- HALT with b[0] = 0. -/
def execHaltSoft (w : Bool) (a : SReg) (q : QReg) (s : State) : Res := haltRun w false a q s
/-- HALT with b[0] = 1. -/
def execHaltHard (w : Bool) (a : SReg) (q : QReg) (s : State) : Res := haltRun w true a q s

/-! ## CTXSAVE and CTXLOAD -/

/-- The key of a device physical address of the controller's slice. -/
def sliceKey (s : State) (pa : DWord) : Nat := memKey (s.slice s.sliceId).vf pa.toNat

/-- CTXSAVE (R377). A record that is not 4 KiB aligned is a misaligned access, once the handle names a team (R373). -/
def execCtxsave (w : Bool) (a b : SReg) (q : QReg) (s : State) : Res :=
  let pa := s.g.rdP s.tick b
  if s.g.mode ≠ .slice then illegalC s
  else match masterOf s (s.g.rdS s.tick a) with
    | some (.core p slot) =>
      (match teamAt s p slot with
       | none => endQ w q false s
       | some t =>
         if pa.toNat % 4096 ≠ 0 then faultC s 0x03 pa.toNat
         else if !teamStopped s t.uid then endQ w q false s
         else if !saveReady s t then .next (s.parkC .engine)
         else endQ w q true (saveTeam s t.uid (sliceKey s pa)))
    | _ => endQ w q false s

/-- The context of a record: that whose sump holds it, else the one sys.ctxsel names. -/
def recordCtx (s : State) (key : Nat) : Nat :=
  match s.keptT.find? fun k => k.key = key with
  | some k => k.t.ctx
  | none => ((ctxsOf s (s.slice s.sliceId).vf).find? fun c => (slotNumber s c key).isSome).getD s.g.ctx

/-- R378, R414: an unsound record: its grid is reset, its card completes with FAULT, record 0x46, and its slot is freed. The grid is the one
whose team was saved there, whatever the record's bytes have become. -/
def refuseRecord (s : State) (ctx sl key : Nat) (pa : DWord) : State :=
  let addr := match s.keptT.find? fun k => k.key = key with
    | some k => k.t.cardAddr
    | none => BitVec.ofNat 64 (recNat s key 8 8)
  let card := slotCard s ctx key
  let s := { s with
    kept := s.kept.filter fun k => !inSlot key k.key
    keptT := s.keptT.filter fun k => k.key ≠ key
    redir := s.redir.filter fun r => r.2 ≠ key }
  let s := resetGrid s ctx card addr
  markKey (s.escalate sl { code := 0x46, pasid := (s.ctx ctx).pasid, addr := pa }) ctx key false

/-- CTXLOAD (R378, R421, R422). -/
def execCtxload (w : Bool) (a b : SReg) (q : QReg) (s : State) : Res :=
  let pa := s.g.rdP s.tick b
  let key := sliceKey s pa
  if s.g.mode ≠ .slice then illegalC s
  else match masterOf s (s.g.rdS s.tick a) with
    | some (.core p _) =>
      let ctx := recordCtx s key
      if pa.toNat % 4096 ≠ 0 then faultC s 0x03 pa.toNat
      else if slotRedir s key then .next (s.parkC .engine)
      else if slotCorrupt s key then endQ w q false (refuseRecord s ctx s.sliceId key pa)
      else if restoreFits s ctx key p then endQ w q true (restoreTeam s ctx key p)
      else endQ w q false s
    | _ => endQ w q false s

/-! ## FREEZE -/

/-- What FREEZE does to a master once it is found. -/
def freezeRun (w : Bool) (a : SReg) (q : QReg) (f : State → Team → State) (e : State → Master → State) (s : State) : Res :=
  if s.g.mode ≠ .slice && s.g.mode ≠ .device then illegalC s
  else match masterOf s (s.g.rdS s.tick a) with
    | none => endQ w q false s
    | some (.core p slot) =>
      (match teamAt s p slot with
       | none => endQ w q false s
       | some t => endQ w q true (f s t))
    | some m => endQ w q true (e s m)

/-- FREEZE with op 0. -/
def execFreezeFreeze (w : Bool) (a : SReg) (q : QReg) (s : State) : Res :=
  freezeRun w a q (fun s t => freezeTeam s t.uid) (fun s m => freezeEngine s true m) s
/-- FREEZE with op 1. -/
def execFreezeThaw (w : Bool) (a : SReg) (q : QReg) (s : State) : Res :=
  freezeRun w a q (fun s t => thawTeam s t.uid) (fun s m => freezeEngine s false m) s
/-- FREEZE with op 2. -/
def execFreezeReset (w : Bool) (a : SReg) (q : QReg) (s : State) : Res :=
  freezeRun w a q resetTeam resetEngine s

/-! ## The ladder (R413) -/

/-- R413: a team is saved into a free slot of its sump, if it can be now. -/
def ladderSave (s : State) (uid : Nat) : State :=
  match s.team? uid with
  | none => s
  | some t =>
    match freeSumpSlot s t.ctx with
    | none => s
    | some i => if saveReady s t then saveTeam s uid (sumpSlot s t.ctx i) else s

/-- R413: the teams that have met their soft request, and are halted for it, are saved, those that can be. -/
def pollSoft (s : State) : State :=
  let s := meetSoft s
  let due := s.allTeams.filter fun t => t.live && !t.ended && t.softReq.isSome && !teamFrozen s t.uid && teamHalted s t.uid
  (due.map fun t => t.uid).foldl ladderSave s

/-- R204: the groups that issue a word of their C-stream before a group that yields issues its next: the other ready ones of its core. -/
def yieldsTo (s : State) : List Nat :=
  ((s.gs.filter fun g => readyAlone s g && (match s.team? g.team with | some t => t.ppos = s.coreId | none => false)).map fun g => g.uid)

/-- YIELD (R204): with a soft request pending, the team is halted and saved at this word (R413), now or once it can be. -/
def execYield (w : Bool) (s : State) : Res :=
  let s := s.endC w 4
  if s.t.softReq.isSome then .next (ladderSave (ladderHalt s s.t.uid) s.t.uid)
  else .next (s.mapG fun g => { g with yieldTo := yieldsTo s })

/-- GRACE_EXPIRE: the soft rung wins a tie, and a team that has met it gets no hard halt; else the team is halted and saved. -/
def execGraceExpire (team : Nat) (s : State) : Res :=
  let s := pollSoft s
  match s.team? team with
  | none => .next s
  | some t =>
    match t.softReq with
    | none => .next s
    | some at_ =>
      if t.ended || t.hardAt.isSome || teamFrozen s team || teamHalted s team || s.now < at_ + 1000 * max 1 (s.ctx t.ctx).sb.grace.toNat then .next s
      else
        let s := (ladderHalt s team).mapTeams (fun u => u.uid = team) fun u => { u with hardAt := some s.now }
        .next (ladderSave s team)

/-- KILL_EXPIRE: a team that is still not saved costs its context a reset, with record 0x45. -/
def execKillExpire (team : Nat) (s : State) : Res :=
  match s.team? team with
  | none => .next s
  | some t =>
    match t.hardAt with
    | none => .next s
    | some at_ =>
      if s.now < at_ + 1000000 * max 1 (s.ctx t.ctx).sb.kill.toNat || sparedTeam s t then .next s
      else
        let s := ladderSave s team
        if (s.team? team).isNone then .next s
        else
          let s := resetContext s t.ctx
          .next (s.escalate (t.ppos / 128) { code := 0x45, pasid := (s.ctx t.ctx).pasid, addr := 1 })

/-- WATCHDOG_EXPIRE (R414). -/
def execWatchdogExpire (team : Nat) (s : State) : Res :=
  match s.team? team with
  | none => .next s
  | some t =>
    let wd := (s.ctx t.ctx).sb.wdog.toNat
    if wd = 0 || t.ended || s.now < t.lastIssue + 1000000 * wd then .next s
    else
      let s := resetGridOf s t
      .next (s.escalate (t.ppos / 128) { code := 0x45, pasid := (s.ctx t.ctx).pasid, addr := 0 })

/-! ## RETT -/

/-- RETT (R363, R366, R395). -/
def execRett (_w : Bool) (s : State) : Res :=
  let src := s.g.hs.cause.extractLsb' 10 2
  let trap := src = 0 && s.g.hs.cause.extractLsb' 0 8 = 8
  if s.g.mode ≠ .handler || (trap && s.g.hs.pc.extractLsb' 0 2 ≠ 0) then illegalC s
  else if !handlerDone s.g then .next (s.parkC .again)
  else
    let s := s.fence .ar .prt
    .next ((if src = 2 then resumeCommand s s.g else s).mapG fun g => settleSplits (rettGroup g))

end Sys2Proof.Machine
end

