-- ==== Sys2Proof/Machine/Inflate.lean ====
section
/-! DEFINITION. Decompression (R180): raw Deflate as RFC 1951 gives it, and the LZ4 block format. Output is built with its
last byte first. -/

namespace Sys2Proof.Machine

/-! ## Deflate -/

/-- n bits of a stream from a bit position, the first bit lowest. -/
def bitsAt (d pos n : Nat) : Nat := d / 2 ^ pos % 2 ^ n

/-- A canonical code: how many codes each length 1 to 15 has, and the symbols in order of code. -/
structure Huff where
  count : List Nat
  syms  : List Nat

/-- The code of a list of lengths; 0 means no code. -/
def huffOf (lens : List Nat) : Huff :=
  let at_ (l : Nat) : List Nat := (List.range lens.length).filter fun i => lens.getD i 0 = l
  let ls := (List.range 15).map (· + 1)
  ⟨ls.map fun l => (at_ l).length, ls.flatMap at_⟩

/-- Reads one symbol: the remaining counts, the position, the code read, the first code of this length, its index. -/
def symFrom (h : Huff) (d : Nat) : List Nat → Nat → Nat → Nat → Nat → Option (Nat × Nat)
  | [], _, _, _, _ => none
  | c :: cs, pos, code, first, idx =>
    let code := code + bitsAt d pos 1
    if code < first + c then some (h.syms.getD (idx + (code - first)) 0, pos + 1)
    else symFrom h d cs (pos + 1) (2 * code) (2 * (first + c)) (idx + c)

/-- Reads one symbol at a position. -/
def huffSym (h : Huff) (d pos : Nat) : Option (Nat × Nat) := symFrom h d h.count pos 0 0 0

/-- n bytes from `dist` back are appended. -/
def copyBack (out : List Byte) (dist : Nat) : Nat → List Byte
  | 0 => out
  | n + 1 => copyBack (out.getD (dist - 1) 0 :: out) dist n

/-- RFC 1951: base and extra bits of length symbols 257 to 285. -/
def lengthCode (sym : Nat) : Option (Nat × Nat) :=
  let k := sym - 257
  if 285 < sym then none
  else if sym = 285 then some (258, 0)
  else if k < 8 then some (k + 3, 0)
  else let e := k / 4 - 1; some ((4 + k % 4) * 2 ^ e + 3, e)

/-- RFC 1951: base and extra bits of a distance symbol. -/
def distCode (sym : Nat) : Option (Nat × Nat) :=
  if 29 < sym then none
  else if sym < 4 then some (sym + 1, 0)
  else let e := sym / 2 - 1; some ((2 + sym % 2) * 2 ^ e + 1, e)

/-- The symbols of a block, to its end: the position and the output. -/
def inflateCodes (lit dist : Huff) (d size : Nat) : Nat → Nat → List Byte → Option (Nat × List Byte)
  | 0, _, _ => none
  | fuel + 1, pos, out =>
    match huffSym lit d pos with
    | none => none
    | some (sym, pos) =>
      if size < pos then none
      else if sym < 256 then inflateCodes lit dist d size fuel pos (BitVec.ofNat 8 sym :: out)
      else if sym = 256 then some (pos, out)
      else
        match lengthCode sym with
        | none => none
        | some (lb, le) =>
          match huffSym dist d (pos + le) with
          | none => none
          | some (ds, p2) =>
            match distCode ds with
            | none => none
            | some (db, de) =>
              let n := lb + bitsAt d pos le
              let k := db + bitsAt d p2 de
              if out.length < k then none else inflateCodes lit dist d size fuel (p2 + de) (copyBack out k n)

/-- The fixed literal code. -/
def fixedLit : Huff := huffOf (List.replicate 144 8 ++ List.replicate 112 9 ++ List.replicate 24 7 ++ List.replicate 8 8)
/-- The fixed distance code. -/
def fixedDist : Huff := huffOf (List.replicate 30 5)

/-- The code lengths of a dynamic block: n of them. -/
def readLens (h : Huff) (d : Nat) (n : Nat) : Nat → Nat → List Nat → Option (Nat × List Nat)
  | 0, _, _ => none
  | fuel + 1, pos, ls =>
    if n ≤ ls.length then (if ls.length = n then some (pos, ls) else none)
    else match huffSym h d pos with
      | none => none
      | some (s, p) =>
        if s < 16 then readLens h d n fuel p (ls ++ [s])
        else if s = 16 then
          (match ls.getLast? with
           | none => none
           | some l => readLens h d n fuel (p + 2) (ls ++ List.replicate (3 + bitsAt d p 2) l))
        else if s = 17 then readLens h d n fuel (p + 3) (ls ++ List.replicate (3 + bitsAt d p 3) 0)
        else readLens h d n fuel (p + 7) (ls ++ List.replicate (11 + bitsAt d p 7) 0)

/-- The order of the code-length code. -/
def lenOrder : List Nat := [16, 17, 18, 0, 8, 7, 9, 6, 10, 5, 11, 4, 12, 3, 13, 2, 14, 1, 15]

/-- The codes of a dynamic block. -/
def readDynamic (d pos : Nat) : Option (Nat × Huff × Huff) :=
  let nl := bitsAt d pos 5 + 257
  let nd := bitsAt d (pos + 5) 5 + 1
  let nc := bitsAt d (pos + 10) 4 + 4
  let cl (s : Nat) : Nat := match (lenOrder.take nc).findIdx? (· = s) with | some i => bitsAt d (pos + 14 + 3 * i) 3 | none => 0
  match readLens (huffOf ((List.range 19).map cl)) d (nl + nd) (nl + nd + 1) (pos + 14 + 3 * nc) [] with
  | none => none
  | some (p, ls) => some (p, huffOf (ls.take nl), huffOf (ls.drop nl))

/-- The blocks of a stream of `size` bits. -/
def inflateBlocks (d size : Nat) : Nat → Nat → List Byte → Option (List Byte)
  | 0, _, _ => none
  | fuel + 1, pos, out =>
    let last := bitsAt d pos 1 = 1
    let go (r : Option (Nat × List Byte)) : Option (List Byte) :=
      match r with
      | none => none
      | some (p, o) => if size < p then none else if last then some o else inflateBlocks d size fuel p o
    if size < pos + 3 then none
    else match bitsAt d (pos + 1) 2 with
      | 0 =>
        let p := (pos + 3 + 7) / 8 * 8
        let n := bitsAt d p 16
        if bitsAt d (p + 16) 16 ≠ 65535 - n || size < p + 32 + 8 * n then none
        else go (some (p + 32 + 8 * n, (List.range n).foldl (fun o i => BitVec.ofNat 8 (bitsAt d (p + 32 + 8 * i) 8) :: o) out))
      | 1 => go (inflateCodes fixedLit fixedDist d size (size + 1) (pos + 3) out)
      | 2 => (match readDynamic d (pos + 3) with
        | none => none
        | some (p, l, t) => go (inflateCodes l t d size (size + 1) p out))
      | _ => none

/-- The output of a raw Deflate stream; `none` where it is malformed. -/
def inflate (bs : List Byte) : Option (List Byte) :=
  (inflateBlocks (leValue bs) (8 * bs.length) (8 * bs.length + 1) 0 []).map List.reverse

/-! ## LZ4 -/

/-- A length that continues over bytes of 255. -/
def lz4Len (n : Nat) : List Byte → Option (Nat × List Byte)
  | [] => none
  | b :: bs => if b = 255 then lz4Len (n + 255) bs else some (n + b.toNat, bs)

/-- A length of four bits, with its continuation. -/
def lz4Field (n : Nat) (bs : List Byte) : Option (Nat × List Byte) := if n = 15 then lz4Len 15 bs else some (n, bs)

/-- The sequences of an LZ4 block. -/
def lz4From : Nat → List Byte → List Byte → Option (List Byte)
  | 0, _, _ => none
  | _ + 1, [], _ => none
  | fuel + 1, tok :: bs, out =>
    match lz4Field (tok.toNat / 16) bs with
    | none => none
    | some (n, bs) =>
      if bs.length < n then none
      else
        let out := (bs.take n).reverse ++ out
        match bs.drop n with
        | [] => some out
        | o0 :: o1 :: rest =>
          let dist := o0.toNat + 256 * o1.toNat
          (match lz4Field (tok.toNat % 16) rest with
           | none => none
           | some (m, rest) => if dist = 0 || out.length < dist then none else lz4From fuel rest (copyBack out dist (m + 4)))
        | _ => none

/-- The output of an LZ4 block; `none` where it is malformed. -/
def lz4Block (bs : List Byte) : Option (List Byte) := (lz4From (bs.length + 1) bs []).map List.reverse

end Sys2Proof.Machine
end

