-- ==== Sys2Proof/Machine/Cards.lean ====
section
/-! DEFINITION. Job cards: admission (R174–R177), the start (R178) and the work of every kind (R54, R179, R180, R296, R407,
R474), and CPYQ (R170, R173). -/

namespace Sys2Proof.Machine

/-! ## Admission -/

/-- nreg. -/
def nregOf (ws : List Word) : Nat := (ws.getD 1 0).toNat / 2 ^ 8 % 8

/-- R176: the card of an index with its extension cards; `none` while one of them is claimed but not published. A card that a CPYQ published
with ext = 1 ends the chain, which is malformed then (R170). -/
def chainOf (s : State) (sl qi : Nat) : Nat → Nat → State × Option (List (List Word))
  | _, 0 => (s, none)
  | i, left + 1 =>
    match slotWords s sl qi i with
    | (s, none) => (s, none)
    | (s, some ws) =>
      if s.extCpyq.contains (sl, qi, i) then ({ s with extCpyq := s.extCpyq.filter fun e => e ≠ (sl, qi, i) }, some [ws])
      else if !extBit ws then (s, some [ws])
      else
        match slotWords s sl qi (i + 1) with
        | (s, none) => (s, none)
        | (s, some nx) =>
          if (nx.getD 1 0).toNat % 2 ^ 8 ≠ 8 then (s, some [ws])
          else match chainOf s sl qi (i + 1) left with
            | (s, none) => (s, none)
            | (s, some cs) => (s, some (ws :: cs))

/-- R176–R180: where the payload of a kind ends; `none` for a reserved kind. -/
def payloadEnd (kind : Nat) : Option Nat :=
  match kind with
  | 1 => some 48 | 2 => some 32 | 3 => some 32 | 4 => some 40 | 5 => some 40 | 6 => some 40 | 7 => some 24 | 8 => some 8
  | _ => none

/-- R177: the regions of a card, in its last bytes. -/
def cardRegions (ws : List Word) : List (Bool × Nat × Nat) :=
  (List.range (nregOf ws)).map fun i =>
    let r := (wordPair ws (16 - 2 * nregOf ws + 2 * i)).toNat
    (r / 2 ^ 63 = 1, r / 2 ^ 57 % 64, r % 2 ^ 57)

/-- R175–R177: a card of a chain is malformed. DESIGN CHOICE (log 17): so is a region with n above 57, for which only n below 6 has a stated
outcome. -/
def cardBad (first : Bool) (ws : List Word) : Bool :=
  let w := (ws.getD 1 0).toNat
  let kind := w % 2 ^ 8
  (match payloadEnd kind with
   | none => true
   | some e => 64 < e + 8 * nregOf ws || (kind ≠ 8 && 4 < nregOf ws))
    || w / 2 ^ 18 ≠ 0 || w / 2 ^ 12 % 16 ≠ 0 || (first && kind = 8)
    || (cardRegions ws).any fun r => r.2.1 < 6 || 57 < r.2.1

/-- R176: a chain is malformed: a card of it is, it has more than 64 regions, or it goes on to a card that is no
extension. -/
def chainBad (cs : List (List Word)) : Bool :=
  cardBad true (cs.headD []) || (cs.drop 1).any (cardBad false) || 64 < (cs.flatMap cardRegions).length
    || extBit (cs.getLastD [])

/-- Whether a context works: neither it nor its virtual function is frozen (R379), and no checkpoint quiesces it. -/
def ctxRuns (s : State) (ctx : Nat) : Bool := !(s.ctx ctx).frozen && !(s.ctx ctx).quiesce && !(s.vf (ctx / 64)).frozen

/-- CARD_ADMIT (R174): the next index of a queue is admitted once its card is published. -/
def execCardAdmit (slice queue : Nat) (s : State) : Res :=
  let q := queueOf s slice queue
  let ctx := queueCtx s slice queue
  if !q.en || (s.slice slice).state ≠ 1 || (s.slice slice).resetting || !ctxRuns s ctx || s.updating slice then .next s
  else match claimOf s slice queue with
    | (s, none) => .next s
    | (s, some claim) =>
      match chainOf s slice queue q.nextAdm (claim - q.nextAdm) with
      | (s, none) => .next s
      | (s, some cs) =>
        let bad := chainBad cs
        let k : Card :=
          { id := s.nextId, vf := (s.slice slice).vf, slice := slice, queue := queue, qgroup := q.qgroup, idx := q.nextAdm,
            slots := cs.length, addr := slotAddr q q.nextAdm, ctx := ctx, words := cs.headD [],
            regions := if bad then [] else cs.flatMap cardRegions, bad := bad,
            phase := if bad then .done else .admitted, status := if bad then 6 else 0, order := s.nextId,
            cls := q.cls, raster := q.raster, chainok := q.chainok }
        .next { setQueueOf s slice queue { q with nextAdm := q.nextAdm + cs.length } with
          nextId := s.nextId + 1, cards := s.cards ++ [k] }

/-! ## The start (R178) -/

/-- R177: two regions overlap, and one of them is a write. -/
def regionsMeet (a b : Bool × Nat × Nat) : Bool :=
  let n := max a.2.1 b.2.1
  (a.1 || b.1) && a.2.2 / 2 ^ n = b.2.2 / 2 ^ n

/-- The cards of a queue group admitted before a card and not completed. -/
def earlierCards (s : State) (k : Card) : List Card :=
  s.cards.filter fun c => c.slice = k.slice && c.qgroup = k.qgroup && c.order < k.order

/-- R178, R276, R407: whether a card may start. -/
def mayStart (s : State) (k : Card) : Bool :=
  let early := earlierCards s k
  k.phase = .admitted && ctxRuns s k.ctx && !s.updating k.slice
    && early.all (fun c => !(c.regions.any fun a => k.regions.any fun b => regionsMeet a b))
    && !((k.serial || (k.raster && k.kind = 1)) && !early.isEmpty)
    && !(k.kind = 7 && s.cards.any fun c => c.slice = k.slice && c.queue = k.queue && c.order < k.order)
    && s.cards.countP (fun c => c.slice = k.slice && c.qgroup = k.qgroup) < 256

/-- What the work of a card comes to at its start: it has ended with a status, it goes on, or it has not started (a full
dirty log, a busy encoder lane). -/
inductive Started where
  | ended (s : State) (status : Byte)
  | runs (s : State)
  | waits (s : State)

/-- R179, R180: the controller abandons a card whose access fails; a full dirty log (code 0) makes it wait. -/
def cardFault (s s' : State) (k : Card) (e : Nat × DWord) : Started :=
  if e.1 = 0 then .waits (keepHold s s' k.vf)
  else .ended (s'.escalate k.slice
    { code := 0x44, inner := BitVec.ofNat 8 e.1, pasid := (s'.ctx k.ctx).pasid, pc := k.addr, addr := e.2 }) 7

/-! ## Launch cards (R54, R179, R276) -/

/-- R32: the teams of a need that an empty core of a kind holds. -/
def teamsPer (n : Need) (roof : Bool) : Nat :=
  let o := coreOffer roof
  let per (have_ need : Nat) : Nat := if need = 0 then 1000 else have_ / need
  min (per o.slots n.slots) (min (per o.units n.units) (per o.window n.window))

/-- The present cores of a partition of the kinds a launch names. -/
def launchCores (s : State) (vf : Nat) (attr : DWord) : List Nat :=
  ((s.partSlices vf).flatMap fun sl => coresOf s sl).filter fun p => kindAllows attr (p % 8 = 4)

/-- R54: SHAPE. DESIGN CHOICE (log 16): a queue that qbind names is a deadline queue by its class bit, enabled or not. -/
def shapeBad (s : State) (k : Card) (l : Launch) : Bool :=
  let a := l.attr
  !shapeOk l a || a.toNat / 2 ^ 50 ≠ 0 || a.getLsbD 19 || attrKind a = 3
    || (attrBind a && !(queueOf s k.slice (attrQ a)).cls) || (attrPres a ≠ 0 && attrPtag a = 0)
    || (k.raster && (l.ngrp ≠ 1 || k.at8 32 ≠ 0 || attrKind a ≠ 0 || !drawOk l.draw))

/-- R54: FITFAIL. -/
def fitBad (s : State) (k : Card) (l : Launch) : Bool :=
  let cores := launchCores s k.vf l.attr
  (attrCores l.attr && (cores.map fun p => teamsPer l.need (p % 8 = 4)).sum < l.teams)
    || (attrPres l.attr ≠ 0 && cores.all fun p => teamsPer l.need (p % 8 = 4) < attrPres l.attr)

/-- R417, R462: the teams of a context that a restore has brought back, whose launch card lies at an address: those that run and those that
stand in the sump, by their linear numbers. -/
def restoredLins (s : State) (ctx : Nat) (addr : DWord) : List Nat :=
  ((s.allTeams.filter fun t => t.live && t.ctx = ctx && t.cardAddr = addr).map fun t => t.lin)
    ++ (usedSlots s ctx).filterMap fun key => if recNat s key 8 8 = addr.toNat then some (recNat s key 16 8) else none

/-- R462: a launch card that a restored queue has admitted again takes its restored teams for its own, and goes on after them. -/
def adoptTeams (s : State) (k : Card) : State :=
  let mine (t : Team) : Bool := t.ctx = k.ctx && t.cardAddr = k.addr
  { s.mapTeams (fun t => t.live && mine t) (fun t => { t with card := k.id }) with
    keptT := s.keptT.map fun e => if mine e.t then { e with t := { e.t with card := k.id } } else e }

/-- A launch card's start: BADCARD, the descriptor and the draw record, then R54's tests in their order. -/
def startLaunch (s : State) (k : Card) : Started :=
  let rel := relSl s k.ctx k.slice
  if launchBad k.words then .ended s 6
  else match engReadN s k.ctx rel (cardKernel k.words) 64 with
    | (s', .error e) => cardFault s s' k e
    | (s1, .ok ks) =>
      let l := launchOf k.words (wordsOf ks)
      match (if k.raster then engReadN s1 k.ctx rel l.args 64 else (s1, .ok [])) with
      | (s', .error e) => cardFault s s' k e
      | (s2, .ok d) =>
        let l := { l with draw := wordsOf d }
        if shapeBad s2 k l then .ended s2 2
        else if fitBad s2 k l then .ended s2 3
        else if attrChain l.attr && !k.chainok then .ended s2 4
        else
          let next := (restoredLins s2 k.ctx k.addr).foldl (fun m n => max m (n + 1)) 0
          .runs (mapCard (adoptTeams s2 k) k.id fun c => { c with launch := some { l with next := next } })

/-! ## The other kinds (R180) -/

/-- A copy card becomes a copy of one row. -/
def startCopyCard (s : State) (k : Card) : Started :=
  let w := (k.at8 24).toNat
  let n := w % 2 ^ 40
  if n = 0 || 5 < w / 2 ^ 40 % 8 || w / 2 ^ 43 ≠ 0 then .ended s 6
  else
    let c : Copy :=
      { id := s.nextId, ctx := k.ctx, cpc := k.addr, slice := k.slice, card := some k.id, sbase := (k.at8 8).toNat, dbase := (k.at8 16).toNat, plan := .rows n 1 0 0, total := n }
    .runs { s with nextId := s.nextId + 1, copies := s.copies ++ [c] }

/-- A signal card: a store or an atomic add at sys scope. -/
def startSignal (s : State) (k : Card) : Started :=
  let a := k.at8 8
  let rel := relSl s k.ctx k.slice
  let put (s1 : State) (v : DWord) : Started :=
    match engWriteN s1 k.ctx rel a (leBytes 8 v.toNat) with
    | (s', some e) => cardFault s s' k e
    | (s', none) => .ended s' 1
  if a.toNat % 8 ≠ 0 || (k.at8 24).toNat / 2 ≠ 0 then .ended s 6
  else if (k.at8 24).getLsbD 0 then
    match engReadN s k.ctx rel a 8 with
    | (s', .error e) => cardFault s s' k e
    | (s1, .ok bs) => put s1 (BitVec.ofNat 64 (leValue bs) + k.at8 16)
  else if s.poisoned (match translateVA s k.ctx a 8 .wr true rel with | (_, .ok key _) => key | _ => 2 ^ 62) 8 then
    cardFault s s k (0x0D, a)
  else put s (k.at8 16)

/-- R474: the fields of a communicator. -/
def commOk (ws : List Word) : Bool :=
  let n := (ws.getD 2 0).toNat % 2 ^ 16
  2 ≤ n && n ≤ 9216 && (ws.getD 2 0).toNat / 2 ^ 16 < n && (ws.getD 3 0).toNat < 3 && (ws.drop 6).all (· = 0)

/-- R84, R180: the element types of a collective. -/
def collType (code : Nat) : Option NType :=
  (NType.ofCode (BitVec.ofNat 4 code)).filter fun ty => [NType.f32, .bf16, .f16, .s32, .n32].contains ty

/-- DESIGN CHOICE (log 26): the element count is that of the source. The elements that a member of rank r writes: all of them,
its own share of a reduce-scatter, or every member's joined. -/
def collCount (op n r count : Nat) : Nat :=
  match op with
  | 1 => let share := (count + n - 1) / n; min share (count - min count (r * share))
  | 2 => n * count
  | _ => count

/-- R180, R122: two elements of a type combined: a sum rounded nearest-even into the type, a minimum or a maximum. -/
def collPair (red : Nat) (ty : NType) (a b : Nat) : Nat :=
  let flt := ty = .f32 || ty = .bf16 || ty = .f16
  match red with
  | 0 => if flt then (fpRoundNE (XReal.add .near (fpValue ty a) (fpValue ty b)) ty).1 else (a + b) % 2 ^ ty.bits
  | 1 => if flt then (fpMinMax ty false a b).1 else if intValue ty a ≤ intValue ty b then a else b
  | _ => if flt then (fpMinMax ty true a b).1 else if intValue ty a ≤ intValue ty b then b else a

/-- Elements combined in an order that `pick` draws. -/
def collFold (f : Nat → Nat → Nat) (pick : Nat → Nat) : Nat → List Nat → Option Nat → Nat
  | 0, _, acc => acc.getD 0
  | n + 1, xs, acc =>
    let i := pick n % xs.length
    match xs[i]? with
    | none => acc.getD 0
    | some x => collFold f pick n (xs.eraseIdx i) (some (match acc with | none => x | some a => f a x))

/-- A collective as a card gives it: the reduction and the operation, the element type, the members, the own rank, the source. -/
structure Coll where
  red   : Nat
  op    : Nat
  ty    : NType
  n     : Nat
  r     : Nat
  count : Nat
  src   : List Byte

/-- The size of its elements. -/
def Coll.size (c : Coll) : Nat := c.ty.bits / 8

/-- Element j of the source of a member: the own one, or another's, which is free. -/
def Coll.elem (c : Coll) (tick m j : Nat) : Nat :=
  leValue ((List.range c.size).map fun i =>
    if m = c.r then c.src.getD (c.size * j + i) 0 else Config.collective tick m (c.size * j + i))

/-- R180: element j of all members combined; the order is not stated. -/
def Coll.reduced (c : Coll) (tick j : Nat) : Nat :=
  collFold (collPair c.red c.ty) (Config.collOrder tick j) c.n ((List.range c.n).map fun m => c.elem tick m j) none

/-- R180: the elements that a member writes: everyone's combined, its share of them, every member's joined, or those of one. -/
def Coll.result (c : Coll) (tick : Nat) : List Nat :=
  (List.range (collCount c.op c.n c.r c.count)).map fun j =>
    match c.op with
    | 0 => c.reduced tick j
    | 1 => c.reduced tick (c.r * ((c.count + c.n - 1) / c.n) + j)
    | 2 => c.elem tick (j / c.count) (j % c.count)
    | _ => c.elem tick (Config.collRoot tick % c.n) j

/-- A collective card: the sources of the other members are free. A communicator that the object check refuses fails its checks too: BADCARD
(R474). DESIGN CHOICE (log 26): so does one whose entry is poisoned or changed (R369), which is not abandoned with FAULT (R176). -/
def startCollective (s : State) (k : Card) : Started :=
  let rel := relSl s k.ctx k.slice
  let w := (k.at8 32).toNat
  let op := w / 2 ^ 8 % 16
  if State.popCount (s.vf k.vf).coll = 0 then .ended s 5
  else match collType (w % 16) with
    | none => .ended s 6
    | some ty =>
      let size := ty.bits / 8
     
      if 2 < w / 16 % 16 || 3 < op || w / 2 ^ 28 ≠ 0 then .ended s 6
      else match objCheck s k.ctx (w / 2 ^ 12 % 2 ^ 16) 0x0B true false with
        | .fault _ => .ended s 6
        | .ok ws =>
          let n := (ws.getD 2 0).toNat % 2 ^ 16
          let r := (ws.getD 2 0).toNat / 2 ^ 16
          let count := (k.at8 24).toNat
          if !commOk ws then .ended s 6
          else match engReadN s k.ctx rel (wordPair ws 4) (16 * n) with
            | (s', .error e) => cardFault s s' k e
            | (s1, .ok tab) =>
              let gone (i : Nat) : Bool :=
                (tab.getD (16 * i) 0).toNat % 64 = s.peerId.1 && s1.lost.contains (tab.getD (16 * i + 1) 0).toNat
              if (List.range n).any gone then .ended s1 7
              else match engReadN s1 k.ctx rel (k.at8 8) (size * count) with
                | (s', .error e) => cardFault s s' k e
                | (s2, .ok src) =>
                  match engWriteN s2 k.ctx rel (k.at8 16)
                    (((⟨w / 16 % 16, op, ty, n, r, count, src⟩ : Coll).result s.tick).flatMap fun v => leBytes size v) with
                  | (s', some e) => cardFault s s' k e
                  | (s', none) => .ended s' 1

/-- The output of a compression card. -/
def codecOut (w : Nat) (input : List Byte) : List Byte :=
  let fmt := w % 4
  if w.testBit 2 then
    (if fmt = 0 then inflate input else lz4Block input).getD (Config.badStream fmt input)
  else Config.compress fmt input

/-- A compression card: the output, its length at offset 36, or OVERFLOW. -/
def startCompress (s : State) (k : Card) : Started :=
  let rel := relSl s k.ctx k.slice
  let w := (k.at8 32).toNat % 2 ^ 32
  let cap := (k.at8 24).toNat / 2 ^ 32
  if State.popCount (s.vf k.vf).comp = 0 then .ended s 5
  else if 1 < w % 4 || w / 8 ≠ 0 then .ended s 6
  else match engReadN s k.ctx rel (k.at8 8) ((k.at8 24).toNat % 2 ^ 32) with
    | (s', .error e) => cardFault s s' k e
    | (s1, .ok input) =>
      let out := codecOut w input
      let big := cap < out.length
      let bytes := if big then (List.range cap).map fun i => Config.overflowByte s.tick i else out
      match engWriteN s1 k.ctx rel (k.at8 16) bytes with
      | (s', some e) => cardFault s s' k e
      | (s2, none) =>
        match engWriteN s2 k.ctx rel (k.addr + 36) (leBytes 4 out.length) with
        | (s', some e) => cardFault s s' k e
        | (s3, none) => .ended s3 (if big then 8 else 1)

/-- An encode card binds a frame whose rows are all released (R296, R297). -/
def startEncode (s : State) (k : Card) : Started :=
  let w := (k.at8 16).toNat
  let idx := BitVec.ofNat 16 w
  if (k.at8 8).toNat % 256 ≠ 0 || w / 2 ^ 17 ≠ 0 || k.at8 24 ≠ 0 || k.at8 32 ≠ 0 then .ended s 6
  else match sessionCheck s k.ctx idx.toNat with
    | .fault _ => .ended s 6
    | .ok ws =>
      match holdSession (s.slice k.slice) k.ctx idx s.nextId with
      | none => .waits s
      | some c =>
        let b : EncBind :=
          { ctx := k.ctx, idx := idx, desc := ws, key := w.testBit 16, base := k.at8 8, cpc := k.addr, card := some k.id }
        let b := { b with released := b.tileRows }
        .runs { s.setSlice { c with binds := c.binds ++ [b] } with nextId := s.nextId + 1 }

/-- R407: the payload of a frame-end card. -/
def startFrameEnd (s : State) (k : Card) : Started :=
  .ended s (if k.frameOk then 1 else 6)

/-- The work of a card by its kind. -/
def startCard (s : State) (k : Card) : Started :=
  match k.kind with
  | 1 => startLaunch s k
  | 2 => startCopyCard s k
  | 3 => startSignal s k
  | 4 => startCollective s k
  | 5 => startCompress s k
  | 6 => startEncode s k
  | _ => startFrameEnd s k

/-- R439: the engines of a card's kind that its VF holds: collective 0–3, compression 4 and 5. -/
def enginesOf (v : Vf) (kind : Nat) : List Nat :=
  if kind = 4 then (List.range 4).filter fun i => v.coll.getLsbD i
  else if kind = 5 then ((List.range 2).filter fun i => v.comp.getLsbD i).map fun i => i + 4 else []

/-- R439: a collective or compression card that starts goes to an idle engine of its VF; none when all are busy. -/
def takeEngine (s : State) (k : Card) : Option Card :=
  let es := enginesOf (s.vf k.vf) k.kind
  if es.isEmpty || k.engine.isSome then some k
  else match es.filter fun e => s.cards.all fun c => c.engine ≠ some e with
    | [] => none
    | i :: is => some { k with engine := (i :: is)[Config.idleEngine s.tick % (is.length + 1)]? }

/-- CARD_START. -/
def execCardStart (card : Nat) (s : State) : Res :=
  match (card? s card).bind fun k => if mayStart s k then takeEngine s k else none with
  | none => .next s
  | some k =>
    match startCard (mapCard { s with writer := some (.card card) } card fun _ => k) k with
      | .waits s => .next s
      | .ended s st =>
        .next (if k.kind = 7 then completeCard s { k with status := st, bad := st = 6 }
          else mapCard s card fun c => { c with phase := .done, status := st })
      | .runs s => .next (mapCard s card fun c => { c with phase := .started, pos := s.tick })

/-! ## Completion -/

/-- A copy card's copy that has ended gives the card its status. -/
def settleCopyCard (s : State) (id : Nat) : State :=
  match s.copies.find? fun c => c.card = some id with
  | none => s
  | some c =>
    if c.fault.isSome then endCard (s.dropCopy c.id) id 7
    else if c.total ≤ c.done then endCard (s.dropCopy c.id) id 1
    else s

/-- CARD_COMPLETE. -/
def execCardComplete (card : Nat) (s : State) : Res :=
  let s := settleCopyCard (commitTeams s card) card
  match card? s card with
  | none => .next s
  | some k =>
    match cardEnded s k with
    | none => .next s
    | some st => .next (completeCard s { k with status := st })

/-! ## CPYQ -/

/-- The header of a queue as a writer reads it: base, n, retire. -/
def queueHeader (s : State) (h : DWord) : State × Except (Nat × DWord) (DWord × Nat × Nat) :=
  let rd (s : State) (o n : Nat) : State × Except (Nat × DWord) Nat :=
    match s.xlate (h + BitVec.ofNat 64 o) n .rd with
    | (s, .fault code) => (s, .error (code, h + BitVec.ofNat 64 o))
    | (s, .full) => (s, .error (0x10, h))
    | (s, .ok key _) => if s.poisoned key n then (s, .error (0x0D, h + BitVec.ofNat 64 o)) else (s, .ok (s.rdMemNat key n))
  match rd s 8 8 with
  | (s, .error e) => (s, .error e)
  | (s, .ok base) =>
    match rd s 16 8 with
    | (s, .error e) => (s, .error e)
    | (s, .ok n) =>
      match rd s 64 8 with
      | (s, .error e) => (s, .error e)
      | (s, .ok r) => (s, .ok (BitVec.ofNat 64 base, n % 32, r))

/-- Where a context's tables map an address. -/
def vaPlace (s : State) (ctx : Nat) (va : DWord) : Option Nat :=
  match walk s ctx (va.toNat % 2 ^ 57) with
  | .fail _ => none
  | .leaf e sz _ => some (leafKey ctx (va.toNat % 2 ^ 57) e sz)

/-- R170: the ring places of a card that a CPYQ has published with ext = 1: those of the queues whose header lies where the CPYQ's does,
under whatever address or context. -/
def extPlaces (s : State) (h : DWord) (i : Nat) : List (Nat × Nat × Nat) :=
  let at_ := vaPlace s s.g.ctx h
  (s.partSlices s.vfId).flatMap fun sl =>
    ((s.slice sl).queues.filter fun e => at_.isSome && vaPlace s (queueCtx s sl e.1) e.2.hdr = at_).map fun e => (sl, e.1, i)

/-- R173: the card of an index is written into its slot, the ticket last. -/
def publish (w : Bool) (c : SReg) (h i : DWord) (slot : DWord) (card : List Word) (s : State) : Res :=
  let s := s.scopeWriteBack .sys
  match s.xlate slot 64 .wr with
  | (s, .fault code) => faultC s code slot.toNat
  | (s, .full) => .next (s.parkC .cpyq)
  | (s, .ok key dup) =>
    if s.poisoned key 64 then faultC s 0x0D slot.toNat
    else
      let ticket : Word := i.setWidth 32 + 1
      let s := s.memWrite (key + 4) ((bytesOf card).drop 4)
      let s := s.memWrite key (leBytes 4 ticket.toNat)
      let s := if dup then s.syncDupN key 64 s.g.ctx else s
      let l := s.l1 s.l1Id
      let s := s.setL1 { l with clean := SMap.erase l.clean (key / 128) }
      let s := if extBit card then { s with extCpyq := s.extCpyq ++ extPlaces s h i.toNat } else s
      .next ((s.mapG fun g => { g.wrS c (i.setWidth 32) with claim := none }).endC w 4)

/-- CPYQ with its claim held: the wait for a free slot, then the writes. -/
def cpyqClaimed (w : Bool) (a b c : SReg) (i : DWord) (s : State) : Res :=
  let h := s.g.rdP s.tick a
  let card := s.g.rdRun s.tick b 16
  match queueHeader s h with
  | (s, .error e) => faultC s e.1 e.2.toNat
  | (s, .ok (base, n, retire)) =>
    if (i.toNat : Int) - 2 ^ n < retire then publish w c h i (base + BitVec.ofNat 64 (64 * (i.toNat % 2 ^ n))) card s
    else .next (s.parkC .cpyq)

/-- CPYQ (R170): the claim is an atomic add of 1 at sys scope. -/
def execCpyq (w : Bool) (a b c : SReg) (s : State) : Res :=
  let h := s.g.rdP s.tick a
  if a.toNat % 2 ≠ 0 || 64 < b.toNat + 16 then illegalC s
  else if h.toNat % 128 ≠ 0 then faultC s 0x03 h.toNat
  else match s.g.claim with
    | some i => cpyqClaimed w a b c i s
    | none =>
      match s.xlate h 8 .at with
      | (s, .fault code) => faultC s code h.toNat
      | (s, .full) => .next (s.parkC .cpyq)
      | (s, .ok key dup) =>
        if s.poisonedHere key 8 then faultC s 0x0D h.toNat
        else
          let (s, old) := s.atomicBytes key 8 .plain .sys dup (fun v => (v + 1) % 2 ^ 64)
          cpyqClaimed w a b c (BitVec.ofNat 64 old) (s.mapG fun g => { g with claim := some (BitVec.ofNat 64 old) })

end Sys2Proof.Machine
end

