-- ==== Sys2Proof/Machine/Leases.lean ====
section
/-! DEFINITION. Lease records (R440) and the course of a revocation (R444). -/

namespace Sys2Proof.Machine

/-- A change of one lease record. -/
def mapLease (s : State) (i : Nat) (f : Lease → Lease) : State :=
  { s with leases := s.leases.mapIdx fun j l => if i = j then f l else l }

/-- The cluster a lease lends. -/
def Lease.cluster (l : Lease) : Nat := 16 * l.lslice + l.lpos
/-- The context that holds a lease. -/
def Lease.ctx (l : Lease) : Nat := 64 * l.vf + l.intf

/-- R441, R444: the roof store and the chimneys of a cluster become free and 0. -/
def wipeRoof (s : State) (cl : Nat) : State :=
  s.setCluster { s.cluster cl with
    roof := [], badRoof := [], roofData := none, roofOwner := none, chim := [[], [], [], []] }

/-- R444: the lessee teams that hold a bank of the lent engine, or whose commands it queues. -/
def lesseeTeams (s : State) (l : Lease) : List Team :=
  let c := s.cluster l.cluster
  s.allTeams.filter fun t => t.live && t.ctx = l.ctx
    && (c.bank0.holder = some t.uid || c.bank1.holder = some t.uid || c.queue.any fun m => m.team = t.uid && 2 ≤ m.bank)

/-- R444: a revocation of a lease begins; one that is still starting has taken nothing yet, and ends at once. -/
def Lease.revoked (l : Lease) : Lease := if l.state = 1 then {} else { l with state := 3 }

/-- R444: a revocation goes on: lessee teams pass the ladder; once they are gone the record is free. -/
def settleLease (s : State) (i : Nat) : State :=
  match s.leases[i]? with
  | none => s
  | some l =>
    if l.state ≠ 3 then s
    else
      let ts := lesseeTeams s l
      if ts.isEmpty then mapLease (wipeRoof s l.cluster) i fun _ => ({} : Lease)
      else pollSoft ((ts.map fun t => t.uid).foldl softHalt s)

/-- Every revocation in progress goes on. -/
def settleLeases (s : State) : State := (List.range s.leases.length).foldl settleLease s

/-- R449: every lease to or from a slice is revoked. -/
def revokeOf (s : State) (p : Lease → Bool) : State :=
  settleLeases { s with leases := s.leases.map fun l => if l.state ≠ 0 && p l then l.revoked else l }

end Sys2Proof.Machine
end

