-- ==== Sys2Proof/Machine/Sched.lean ====
section
/-! DEFINITION. Ranks and deadlines (R406, R408), the dispatcher (R27, R55–R58, R409, R410), partial eviction (R412),
the order of issue (R411), and the retry after a full dirty log (R397). -/

namespace Sys2Proof.Machine

/-! ## Ranks (R408) -/

/-- A rank key. -/
abbrev Rank := Nat × Nat × Nat

/-- The first key is the lower, which ranks higher. -/
def rankLt (a b : Rank) : Bool :=
  a.1 < b.1 || (a.1 = b.1 && (a.2.1 < b.2.1 || (a.2.1 = b.2.1 && a.2.2 < b.2.2)))

/-- R408: the rank key of a grid with an attribute word, of a queue whose class at admission was `cls`. -/
def launchRank (s : State) (attr : DWord) (cls : Bool) (sl qi : Nat) : Rank :=
  let q := queueOf s sl qi
  if attrBind attr then (0, (queueOf s sl (attrQ attr)).dl.toNat, attrQ attr)
  else if cls then (0, q.dl.toNat, qi)
  else if q.synth ≠ 0 then (0, q.synth.toNat, qi)
  else (1, 0, 0)

/-- The class a card was admitted with; the queue's where the card is not known. -/
def classOf (s : State) (card sl qi : Nat) : Bool :=
  match card? s card with
  | some k => k.cls
  | none => (queueOf s sl qi).cls

/-- R408: the rank key of a team. -/
def teamRank (s : State) (t : Team) : Rank := launchRank s t.attr (classOf s t.card t.qslice t.qidx) t.qslice t.qidx

/-- Whether a team is best-effort whatever synthetic deadline is in force. -/
def plainTeam (s : State) (t : Team) : Bool := !attrBind t.attr && !classOf s t.card t.qslice t.qidx

/-- The slices of a partition that take teams: a departing slice of a SPLIT takes none (R436), nor does one that is reset (R449). -/
def openSlices (s : State) (vf : Nat) : List Nat :=
  (s.partSlices vf).filter fun sl => (s.slice sl).state = 1 && !(s.slice sl).draining && !(s.slice sl).resetting

/-! ## Candidates (R409) -/

/-- A saved team as its slot describes it. -/
def savedTeam (s : State) (ctx key : Nat) : Team := teamOfSlot s key 0 ctx (slotCard s ctx key) 0 0

/-- The saved teams of a partition: context and slot. -/
def savedTeams (s : State) (vf : Nat) : List (Nat × Nat) :=
  (ctxsOf s vf).flatMap fun c => (usedSlots s c).map fun k => (c, k)

/-- A candidate: saved teams to restore (`saved`, all of a co-resident grid), or the next unstarted team of a card, or
its whole co-resident grid. `key` names it to the cores, `n` is its team count, `pos` when its card was started; `plain` that
it is best-effort, whatever synthetic deadline is in force (R409 step 4). -/
structure Job where
  saved : List (Nat × Nat)
  card  : Nat
  key   : Nat
  ctx   : Nat
  rank  : Rank
  sl    : Nat
  qi    : Nat
  n     : Nat
  pos   : Nat
  lin   : Nat
  plain : Bool

/-- The saved teams as candidates; a co-resident grid is one candidate once no team of it is on its way out. -/
def savedJobs (s : State) (vf : Nat) : List Job :=
  (savedTeams s vf).filterMap fun e =>
    let t := savedTeam s e.1 e.2
    let mates := if t.cores then (savedTeams s vf).filter fun f => f.1 = e.1 && recNat s f.2 8 8 = t.cardAddr.toNat else [e]
    let leaving := t.cores && s.allTeams.any fun u => u.live && u.ctx = e.1 && u.cardAddr = t.cardAddr && u.softReq.isSome
    if mates.head? ≠ some e || leaving || mates.any (fun f => slotRedir s f.2) || !ctxRuns s e.1 || s.updating t.qslice then none
    else some
      { saved := mates, card := t.card, key := 2 ^ 64 + e.2, ctx := e.1, rank := teamRank s t, sl := t.qslice, qi := t.qidx,
        n := mates.length, pos := ((card? s t.card).map fun k => k.pos).getD 0, lin := t.lin,
        plain := plainTeam s t }

/-- The linear number of the next unstarted team of a launch; a draw's launch sequence number (R278). -/
def Launch.nextLin (raster : Bool) (l : Launch) : Nat := if raster then l.frags else l.next

/-- Whether the next team of a launch can start; a draw's, once the front end has made its fragment group. -/
def Launch.hasNext (raster : Bool) (l : Launch) : Bool := if raster then !l.frags?.isEmpty else l.next < l.teams

/-- The teams of a launch that start at once: all of a co-resident grid (R57). -/
def Launch.atOnce (raster : Bool) (l : Launch) : Nat :=
  if attrCores l.attr then (if raster then l.held.length else l.teams - l.next) else 1

/-- The unstarted teams as candidates. -/
def freshJobs (s : State) (vf : Nat) : List Job :=
  s.cards.filterMap fun k =>
    match k.launch with
    | none => none
    | some l =>
      if k.vf ≠ vf || k.phase ≠ .started || !l.hasNext k.raster || !ctxRuns s k.ctx || s.updating k.slice then none
      else some
        { saved := [], card := k.id, key := k.id, ctx := k.ctx, rank := launchRank s l.attr k.cls k.slice k.queue,
          sl := k.slice, qi := k.queue, n := l.atOnce k.raster, pos := k.pos, lin := l.nextLin k.raster,
          plain := !attrBind l.attr && !k.cls }

/-! ## Waiting and synthetic deadlines (R409 step 5) -/

/-- The best-effort candidates of a queue, whether or not their card has started: admission order and linear number. -/
def waiters (s : State) (sl qi : Nat) : List (Nat × Nat) :=
  (s.cards.filterMap fun k =>
    if k.slice ≠ sl || k.queue ≠ qi || k.cls || k.kind ≠ 1 || k.phase = .done || attrBind (wordPair k.words 4) then none
    else match k.launch with
      | none => some (k.order, 0)
      | some l => if moreTeams k.raster l then some (k.order, l.nextLin k.raster) else none)
  ++ (savedTeams s (s.slice sl).vf).filterMap fun e =>
    let t := savedTeam s e.1 e.2
    if t.qslice = sl && t.qidx = qi && plainTeam s t then some (((card? s t.card).map fun k => k.order).getD 0, t.lin) else none

/-- The oldest of a list of candidates. -/
def oldestOf : List (Nat × Nat) → Option (Nat × Nat)
  | [] => none
  | x :: xs => some (xs.foldl (fun a b => if b.1 < a.1 || (b.1 = a.1 && b.2 < a.2) then b else a) x)

/-- A queue's wait: its oldest candidate waits from the instant it became that; a synthetic deadline stays until the team
it was given to starts. -/
def QDesc.rewait (q : QDesc) (now : Nat) (ws : List (Nat × Nat)) : QDesc :=
  let fresh (synth : DWord) : QDesc :=
    match oldestOf ws with
    | none => { q with waitAt := none, synth := 0 }
    | some i => { q with waitAt := some (now, i), synth := synth }
  match q.waitAt with
  | some (_, i) => if ws.contains i && (q.synth ≠ 0 || oldestOf ws = some i) then q else fresh 0
  | none => fresh q.synth

/-- The waits of every queue of a partition are brought up to date. -/
def refreshWaits (s : State) (vf : Nat) : State :=
  (s.partSlices vf).foldl (fun (s : State) sl =>
    (s.slice sl).queues.foldl (fun (s : State) e =>
      setQueueOf s sl e.1 ((queueOf s sl e.1).rewait s.now (waiters s sl e.1))) s) s

/-- The waits of every partition. -/
def refreshAll (s : State) : State :=
  (s.vfs.filter fun v => v.present).foldl (fun (s : State) v => refreshWaits s v.id) s

/-- STARVE_EXPIRE: the oldest candidate of a best-effort queue has waited starve µs and receives a synthetic deadline:
the instant its limit expired. -/
def execStarveExpire (slice queue : Nat) (s : State) : Res :=
  let s := refreshWaits s (s.slice slice).vf
  let q := queueOf s slice queue
  match q.waitAt with
  | none => .next s
  | some (t, _) =>
    let limit := t + 1000 * q.starve.toNat
    if q.starve = 0 || q.synth ≠ 0 || s.now < limit then .next s
    else .next (setQueueOf s slice queue { q with synth := BitVec.ofNat 64 limit })

/-! ## Weighted round robin (R409 step 4) -/

/-- The weight of a queue; 0 reads as 1. -/
def QDesc.share (q : QDesc) : Int := if q.weight = 0 then 1 else (q.weight.toNat : Int)

/-- Whether a pair (index, slice) comes first. -/
def pairLt (a b : Nat × Nat) : Bool := a.1 < b.1 || (a.1 = b.1 && a.2 < b.2)

/-- A pair inserted in ascending order, once. -/
def insertPair (x : Nat × Nat) : List (Nat × Nat) → List (Nat × Nat)
  | [] => [x]
  | y :: ys => if x = y then y :: ys else if pairLt x y then x :: y :: ys else y :: insertPair x ys

/-- The queues with a waiting best-effort candidate, (index, slice) ascending. -/
def waitingQueues (js : List Job) : List (Nat × Nat) :=
  (js.filter fun j => j.plain).foldl (fun l j => insertPair (j.qi, j.sl) l) []

/-- Rounds begin until a waiting queue holds positive credit: each adds the weight of every waiting queue; a queue that
does not wait drops a positive credit. -/
def beginRounds (s : State) (vf : Nat) (ws : List (Nat × Nat)) : State :=
  let qs := ws.map fun w => queueOf s w.2 w.1
  if ws.isEmpty || qs.any (fun q => 0 < q.credit) then s
  else
    let rounds (q : QDesc) : Int := -q.credit / q.share + 1
    let n := (qs.drop 1).foldl (fun m q => min m (rounds q)) ((qs.head?.map rounds).getD 0)
    let s := (s.partSlices vf).foldl (fun (s : State) sl =>
      (s.slice sl).queues.foldl (fun (s : State) e =>
        if ws.contains (e.1, sl) || e.2.credit ≤ 0 then s else setQueueOf s sl e.1 { queueOf s sl e.1 with credit := 0 }) s) s
    ws.foldl (fun (s : State) w =>
      let q := queueOf s w.2 w.1
      setQueueOf s w.2 w.1 { q with credit := q.credit + n * q.share }) s

/-- The order in which the waiting queues are served: those that hold positive credit first. -/
def serveOrder (s : State) (ws : List (Nat × Nat)) : List (Nat × Nat) :=
  let pos (w : Nat × Nat) : Bool := 0 < (queueOf s w.2 w.1).credit
  ws.filter pos ++ ws.filter fun w => !pos w

/-! ## The order of candidates -/

/-- Lists of numbers in lexicographic order. -/
def listLt : List Nat → List Nat → Bool
  | a :: as, b :: bs => a < b || (a = b && listLt as bs)
  | _, _ => false

/-- An item inserted behind those whose key is not greater. -/
def insertBy {α : Type} (x : List Nat × α) : List (List Nat × α) → List (List Nat × α)
  | [] => [x]
  | y :: ys => if listLt x.1 y.1 then x :: y :: ys else y :: insertBy x ys

/-- Items in ascending order of their keys; equal keys keep their order. -/
def orderBy {α : Type} (f : α → List Nat) (xs : List α) : List α :=
  (xs.foldl (fun l x => insertBy (f x, x) l) []).map fun e => e.2

/-- R409 steps 1–4: the order of the candidates. -/
def Job.place (order : List (Nat × Nat)) (j : Job) : List Nat :=
  [j.rank.1, j.rank.2.1, j.rank.2.2, if j.saved.isEmpty then 1 else 0,
   if j.rank.1 = 1 then (order.findIdx fun w => w = (j.qi, j.sl)) else 0, j.pos, j.lin]

/-! ## Starting a candidate (R410) -/

/-- The next unstarted team of a card starts on a core at a clock; a draw's is its fragment group that stands ready (R278). -/
def startFresh (s : State) (k : Card) (l : Launch) (p at_ : Nat) : State :=
  let s := setFuse s (p / 8) (attrFuse l.attr)
  let s := if p % 8 = 4 then takeRoof s (p / 8) k.ctx else s
  let uid := s.nextId
  let s := startTeam s l k.ctx k.id k.addr.toNat (l.nextLin k.raster) p at_ (k.queue, k.slice) (attrChain l.attr && k.chainok)
  let s := if k.raster then s.mapGroups (fun g => g.team = uid) fun g => { g with frag := l.frags?.head? } else s
  mapCard s k.id fun c => { c with launch := c.launch.map fun l =>
    { l with
      next := if k.raster then l.next else l.next + 1, frags := if k.raster then l.frags + 1 else l.frags,
      ready := none, held := l.held.drop 1, last := SMap.insert l.last (p / 128) at_ } }

/-- R55: the clock from which a grid may start another team in a slice. -/
def staggerClock (l : Launch) (sl : Nat) : Nat :=
  match SMap.find l.last sl with
  | none => 0
  | some c => c + attrStagger l.attr

/-- A launch as a candidate for cores. -/
def launchCand (key : Nat) (k : Card) (l : Launch) : Cand := ⟨key, k.ctx, l.attr, l.need⟩

/-- One team starts in the first slice with room that stagger allows now. -/
def startOne (s : State) (k : Card) (l : Launch) : Option State :=
  (pickCore s (fitsOn s (launchCand k.id k l)) ((openSlices s k.vf).filter fun sl => staggerClock l sl ≤ s.clk)).map fun p =>
    startFresh s k l p s.clk

/-- R57, R55, R27: the n teams of a co-resident grid take their places at once; each starts no earlier than the one
before it, and s clocks after the last in its slice. -/
def startGrid (s : State) (id from_ : Nat) : Nat → Option State
  | 0 => some s
  | n + 1 =>
    match card? s id with
    | none => none
    | some k =>
      match k.launch with
      | none => none
      | some l =>
        match pickCore s (fitsOn s (launchCand k.id k l)) (openSlices s k.vf) with
        | none => none
        | some p =>
          let at_ := max from_ (staggerClock l (p / 128))
          startGrid (startFresh s k l p at_) id at_ n

/-- R410, R419: the core for a saved team. -/
def pickRestore (s : State) (vf key ctx slot : Nat) : Option Nat :=
  pickCore s (fun p => fitsOn s { slotCand s ctx slot with key := key } p && homeOk s ctx slot p) (openSlices s vf)

/-- R409, R422: saved teams are restored, all of them or none. -/
def restoreAll (s : State) (vf key : Nat) : List (Nat × Nat) → Option State
  | [] => some s
  | e :: es =>
    match pickRestore s vf key e.1 e.2 with
    | none => none
    | some p => restoreAll (restoreTeam s e.1 e.2 p) vf key es

/-- A candidate starts, if it can. -/
def runJob (s : State) (vf : Nat) (j : Job) : Option State :=
  if j.saved.isEmpty then
    match card? s j.card with
    | none => none
    | some k =>
      match k.launch with
      | none => none
      | some l =>
        if !l.hasNext k.raster then none
        else if attrCores l.attr then startGrid s k.id s.clk j.n
        else startOne s k l
  else
    match j.saved.find? fun e => slotCorrupt s e.2 with
    | some e => some (refuseRecord s e.1 j.sl e.2 (BitVec.ofNat 64 (e.2 % 2 ^ 48)))
    | none => restoreAll s vf j.key j.saved

/-- A candidate has started: its queue pays, and what was held for it is free. -/
def chargeJob (s : State) (j : Job) : State :=
  let s := { s with holds := s.holds.filter fun h => h.1 ≠ j.key }
  if j.plain then
    let q := queueOf s j.sl j.qi
    setQueueOf s j.sl j.qi { q with credit := q.credit - j.n }
  else s

/-! ## Partial eviction (R412) -/

/-- The state without some teams, to see what their going would free. -/
def without (s : State) (uids : List Nat) : State :=
  { s with
    t := if uids.contains s.t.uid then { s.t with live := false } else s.t
    ts := s.ts.filter fun t => !uids.contains t.uid
    g := if uids.contains s.g.team then { s.g with live := false } else s.g
    gs := s.gs.filter fun g => !uids.contains g.team }

/-- Whether a team is on its way out already. -/
def leavingTeam (t : Team) : Bool := t.softReq.isSome || t.ended

/-- R412 step 4: the free team slots of a context that no team on its way out will take. -/
def slotsLeft (s : State) (ctx : Nat) : Nat :=
  if (s.ctx ctx).sb.sump = 0 then 0
  else (List.range (s.ctx ctx).sb.nslot.toNat).countP (fun i => !slotUsed s ctx i)
    - s.allTeams.countP fun t => t.live && t.ctx = ctx && !t.ended && t.softReq.isSome

/-- R412 steps 3 and 4: the victims on a core, youngest first, until the candidate fits. -/
def victimsFrom (s : State) (rank : Rank) (c : Cand) (p : Nat) (taken : List Team) : List Team → List Team → Option (List Team)
  | [], vs => if c.need.fits (roomFor (without s (vs.map fun t => t.uid)) c p) then some vs else none
  | t :: ts, vs =>
    if c.need.fits (roomFor (without s (vs.map fun t => t.uid)) c p) then some vs
    else
      let grid := victimGrid s t
      let mine := (vs ++ taken).countP fun u => u.ctx = t.ctx
      if vs.any (fun u => u.uid = t.uid) || !rankLt rank (teamRank s t) || grid.any leavingTeam
        || slotsLeft s t.ctx < mine + grid.length then victimsFrom s rank c p taken ts vs
      else victimsFrom s rank c p taken ts (vs ++ grid)

/-- The groups that a list of victims counts. -/
def victimGroups (s : State) (vs : List Team) : Nat := (vs.map fun t => (groupsOf s t.uid).countP fun g => !g.ended).sum

/-- What the dispatcher has to place of a candidate: one team of it, and the saved team (context, slot) that it is, if it is
one. -/
abbrev Part := Cand × Option (Nat × Nat)

/-- R419: whether a core may have the team whatever its room: a saved one stays at its home. -/
def Part.mayBe (s : State) (c : Part) (p : Nat) : Bool :=
  match c.2 with
  | none => true
  | some e => homeOk s e.1 e.2 p

/-- R412 steps 1 and 2: the core with the fewest groups to evict, and the victims. -/
def evictOne (s : State) (vf : Nat) (rank : Rank) (d : Part) (taken : List Team) : Option (Nat × List Team) :=
  let c := d.1
  match pickCore s (fun p => fitsOn s c p && d.mayBe s p) (openSlices s vf) with
  | some p => some (p, [])
  | none =>
    let ways := ((openSlices s vf).flatMap fun sl => coresOf s sl).filterMap fun p =>
      if !coreTakes s c p || !d.mayBe s p then none
      else
        let young := (orderBy (fun t : Team => [t.started, t.uid]) (teamsOn s p)).reverse
        (victimsFrom s rank c p taken young []).map fun vs => (victimGroups s vs, p, vs)
    match ways with
    | [] => none
    | w :: ws => some (ws.foldl (fun a b => if b.1 < a.1 then b else a) w).2

/-- R412, R57: the cores and victims for every team of a candidate, on a state that others' claims have changed. -/
def evictAll (s : State) (vf key : Nat) (rank : Rank) (taken : List Team) :
    List Part → Option (List Team × List (Nat × Nat × Nat × Nat × Nat))
  | [] => some (taken, [])
  | c :: cs =>
    match evictOne s vf rank c taken with
    | none => none
    | some (p, vs) =>
      let h := (key, p, c.1.need.slots, c.1.need.units, c.1.need.window)
      let s := without s (vs.map fun t => t.uid)
      (evictAll { s with holds := s.holds ++ [h] } vf key rank (taken ++ vs) cs).map fun r => (r.1, h :: r.2)

/-- The needs of a candidate's teams, under a number that every hold counts against. -/
def Job.parts (s : State) (j : Job) : List Part :=
  if j.saved.isEmpty then
    match (card? s j.card).bind fun k => k.launch.map fun l => launchCand (2 ^ 200) k l with
    | none => []
    | some c => List.replicate j.n (c, none)
  else j.saved.map fun e => ({ slotCand s e.1 e.2 with key := 2 ^ 200 }, some e)

/-- R412: a candidate of class 0 that fits nowhere evicts; while its victims go, nothing further happens. One that needs no
victim, and only its stagger delays (R55), holds nothing, but keeps what its victims have left it. -/
def evictFor (s : State) (vf : Nat) (j : Job) : State :=
  let pending := s.holds.any fun h => h.1 = j.key && s.allTeams.any fun t => t.live && t.ppos = h.2.1 && t.softReq.isSome
  if pending then s
  else
    let s0 := { s with holds := s.holds.filter fun h => h.1 ≠ j.key }
    match evictAll s0 vf j.key j.rank [] (j.parts s) with
    | none => s0
    | some ([], hs) => if s.holds.any fun h => h.1 = j.key then { s0 with holds := s0.holds ++ hs } else s0
    | some (vs, hs) => (vs.map fun t => t.uid).foldl softHalt { s0 with holds := s0.holds ++ hs }

/-! ## The dispatcher -/

/-- R409: the candidates are tried in order, and the one that starts; one that fits nowhere blocks none that fits. -/
def tryJobs (s : State) (vf : Nat) : List Job → State × Option Job
  | [] => (s, none)
  | j :: js =>
    match runJob s vf j with
    | some s => (refreshWaits (chargeJob s j) vf, some j)
    | none => tryJobs (if j.rank.1 = 0 then evictFor s vf j else s) vf js

/-- What is held for candidates that are gone is free. -/
def dropHolds (s : State) (vf : Nat) (js : List Job) : State :=
  let parts := s.partSlices vf
  { s with holds := s.holds.filter fun h => !parts.contains (h.2.1 / 128) || js.any fun j => j.key = h.1 }

/-- R409: the dispatcher chooses among the candidates of a partition, and what it starts. -/
def dispatch (vf : Nat) (s : State) : State × Option Job :=
  let s := refreshWaits s vf
  let js := savedJobs s vf ++ freshJobs s vf
  let ws := waitingQueues js
  let s := beginRounds (dropHolds s vf js) vf ws
  tryJobs s vf (orderBy (Job.place (serveOrder s ws)) js)

/-- DISPATCH_TEAM (R409): the next team of a partition starts or is restored. -/
def execDispatchTeam (vf : Nat) (s : State) : Res :=
  let v := s.vf vf
  let s := pollSoft (settleLeases s)
  if !v.present || v.frozen then .next s else .next (dispatch vf s).1

/-- R54, R57: a co-resident draw with more fragment groups than the present cores can hold at once completes with FITFAIL. -/
def fitDraw (s : State) (card : Nat) : State :=
  match card? s card with
  | none => s
  | some k =>
    match k.launch with
    | none => s
    | some l =>
      if attrCores l.attr && ((launchCores s k.vf l.attr).map fun p => teamsPer l.need (p % 8 = 4)).sum < l.held.length then
        mapCard s card fun c => { c with phase := .done, status := 3, launch := some { l with prim := primCount l.draw, held := [] } }
      else s

/-- FRAGMENT_GROUP_LAUNCH (R278): the front end of a started draw makes the next fragment group, or passes a triangle that has
no more; the one that stands ready starts, if the dispatcher's choice falls on it (R409). -/
def execFragmentGroupLaunch (card : Nat) (s : State) : Res :=
  match card? s card with
  | none => .next s
  | some k =>
    match k.launch with
    | none => .next s
    | some l =>
      if k.phase ≠ .started || !k.raster || !moreTeams true l || (s.vf k.vf).frozen || !ctxRuns s k.ctx then .next s
      else if l.fragDue then .next (fitDraw (makeFrag s k l) card)
      else
        match dispatch k.vf s with
        | (s1, some j) => .next (if j.saved.isEmpty && j.card = card then s1 else s)
        | (_, none) => .next s

/-! ## VSYNC -/

/-- R406, R299: a vsync event of a partition: at the instant its virtual display gives once that has come, and the next a period
later; of a display whose period the driver has not set, at the present instant (DESIGN CHOICE, log 25). -/
def execVsync (vf : Nat) (s : State) : Res :=
  let v := s.vf vf
  let due := if v.vperiod = 0 then s.now else v.vnext
  if !v.present || s.now < due then .next s
  else
    let s := if v.vperiod = 0 then s else s.setVf { v with vnext := due + v.vperiod }
    .next ((s.partSlices vf).foldl (fun (s : State) sl =>
      (s.slice sl).queues.foldl (fun (s : State) e =>
        let q := queueOf s sl e.1
        if !q.vsync then s
        else
          let late := s.cards.any fun k => k.slice = sl && k.queue = e.1 && k.kind = 7 && !k.bad && k.phase ≠ .done
          setQueueOf s sl e.1
            { q with
              misses := if late then q.misses + 1 else q.misses
              dl := if q.period = 0 then q.dl else BitVec.ofNat 64 (due + q.period.toNat) }) s) s)

/-! ## The order of issue (R411) -/

/-- What issues: a group's C-stream, or one of its splits. -/
abbrev Stream := Nat × Option Nat

/-- R411: the ready streams of a group: those that no wait holds. -/
def readyStreams (s : State) (g : Group) : List Stream :=
  if !groupRuns s g then []
  else
    (if g.park = .none && !holdsBack s g then [(g.uid, none)] else [])
      ++ (g.curSplits.filter fun x => x.park = .ready && !x.ending).map fun x => (g.uid, some x.idx)

/-- R408: a context's rank on a core: that of its highest-ranked team there. -/
def ctxRank (s : State) (p ctx : Nat) : Rank :=
  match ((teamsOn s p).filter fun t => t.ctx = ctx).map fun t => teamRank s t with
  | [] => (1, 0, 0)
  | r :: rs => rs.foldl (fun a b => if rankLt b a then b else a) r

/-- R411: the age of a stream of a group: the team's start, the group slot, the split. -/
def streamAge (s : State) (x : Stream) : List Nat :=
  match s.group? x.1 with
  | none => []
  | some g => [((s.team? g.team).map fun t => t.started).getD 0, g.slot, match x.2 with | none => 0 | some i => i + 1]

/-- The core of a group: that of its team. -/
def coreOf (s : State) (g : Group) : Nat := ((s.team? g.team).map fun t => t.ppos).getD 0

/-- The clock in which a stream last issued. -/
def streamLast (s : State) (x : Stream) : Nat :=
  match s.group? x.1, x.2 with
  | none, _ => s.clk
  | some g, none => g.lastC
  | some g, some i => ((g.split? i).map fun y => y.last).getD s.clk

/-- R411: a stream that has not issued for 4,096 clocks. -/
def starved (s : State) (x : Stream) : Bool := streamLast s x + 4096 ≤ s.clk

/-- R411: the order of issue of ready streams: those that starve, by age; then by the rank of their context on their core,
and age. -/
def streamPlace (s : State) (x : Stream) : List Nat :=
  match s.group? x.1 with
  | none => []
  | some g =>
    if starved s x then 0 :: streamAge s x
    else
      let r := ctxRank s (coreOf s g) g.ctx
      [1, r.1, r.2.1, r.2.2] ++ streamAge s x

/-- The ready streams of one kind on a core: its C-streams, or its splits. Controllers have cores of their own. -/
def rivals (s : State) (p : Nat) (lane : Bool) : List Stream :=
  (s.allGroups.filter fun g => g.live && (g.mode = .user || g.mode = .handler) && coreOf s g = p).flatMap fun g =>
    (readyStreams s g).filter fun x => x.2.isSome = lane

/-- R411: how many ready streams of its kind on its core an issue slot takes before a stream of a group. -/
def ahead (s : State) (g : Group) (x : Stream) : Nat :=
  if g.mode = .slice || g.mode = .device then 0
  else
    let k := streamPlace s x
    (rivals s (coreOf s g) x.2.isSome).countP fun y => y ≠ x && listLt (streamPlace s y) k

/-- R411, R40: whether a slot takes a stream now: one C-stream and two lane words (of two pipes) of a core. -/
def issuesNow (s : State) (g : Group) (x : Stream) : Bool := ahead s g x < (if x.2.isSome then 2 else 1)

/-- The actions that issue one word of a stream. -/
def issueActions (x : Stream) : List Action :=
  [.select x.1, match x.2 with | none => .issueC | some i => .issueL i]

/-- ISSUE_AGE_LIMIT: of the ready streams that have not issued for 4,096 clocks the oldest issues next. -/
def execIssueAgeLimit (s : State) : Res :=
  match orderBy (streamAge s) ((s.allGroups.flatMap (readyStreams s)).filter (starved s)) with
  | [] => .next s
  | x :: _ => .next { s with agenda := issueActions x ++ s.agenda }

/-! ## Full logs and the first-touch pool -/

/-- Whether a VF's dirty log has room. -/
def logRoom (s : State) (vf : Nat) : Bool := (s.vf vf).logHdr = 0 || logUsed s vf ≠ logSize s vf

/-- R397: the stream of a group that the log has held, if it is one; the engines try again of themselves, in their turn. -/
def Writer.stream? (s : State) : Writer → Option Stream
  | .c uid => some (uid, none)
  | .l uid n => some (uid, some n)
  | .late uid q => ((s.group? uid).bind fun g => g.pend.findIdx? fun p => p.seq = q).map fun k => (uid, some (16 + k))
  | _ => none

/-- LOG_RETRY (R397): once the log has room, the controllers' writes are made and the parked writers try again, in the order
they parked. -/
def execLogRetry (vf : Nat) (s : State) : Res :=
  if !logRoom s vf then .next s
  else
    let s := payOwed (s.setVf { s.vf vf with logFull := false }) vf
    .next { s with agenda := (s.logq.filter fun e => e.1 = vf).flatMap (fun e => ((e.2.stream? s).map issueActions).getD []) ++ s.agenda }

/-- An access of the slice controller to a mapping that is its own (hnd). -/
def poolKey (s : State) (ctx : Nat) (va : DWord) (acc : Acc) : State × Option Nat :=
  match translateVA s ctx va 8 acc false 0 with
  | (s, .ok key _) => (s, some key)
  | (s, _) => (s, none)

/-- POOL_REFILL (R392): a zeroed frame is supplied to a context's first-touch pool, if it has room; none where its header is
poisoned (R401). -/
def execPoolRefill (ctx frame : Nat) (s : State) : Res :=
  let pool : DWord := (s.ctx ctx).xb.pool.signExtend 64
  if (s.ctx ctx).xb.pool = 0 || s.partBytes (ctx / 64) < 4096 * (frame + 1) then .next s
  else match poolKey s ctx pool .rd with
    | (s, none) => .next s
    | (s, some k) =>
      let head := s.rdMemNat k 8
      let tail := s.rdMemNat (k + 8) 8
      let p := s.rdMemNat (k + 16) 1 % 32
      if s.poisoned k 64 || 2 ^ p ≤ tail - head then .next s
      else match poolKey s ctx (pool + BitVec.ofNat 64 (64 + 8 * (tail % 2 ^ p))) .wr with
        | (s, none) => .next s
        | (s, some slot) =>
          match poolKey s ctx (pool + 8) .wr with
          | (s, none) => .next s
          | (s, some kt) =>
            let f := memKey (ctx / 64) (4096 * frame)
            let s := zeroRange s f (f + 4096)
            .next ((s.memWriteNat slot 8 (4096 * frame)).memWriteNat kt 8 (tail + 1))

end Sys2Proof.Machine
end

