-- ==== Sys2Proof/Machine/Window.lean ====
section
/-! DEFINITION. The table window of a context (R391): the slice controller maps every level-0 table there. -/

namespace Sys2Proof.Machine

/-- R391: the page of the table window that shows a level-0 table. -/
def windowVa (ptwin x : Nat) : Nat := (ptwin + 4096 * x) % 2 ^ 57

/-- The level-0 tables under a table of a level at an address: the first virtual address of each, and where it lies. -/
def tablesUnder (s : State) (vf size : Nat) : Nat → Nat → Nat → List (Nat × Nat)
  | 0, base, va => [(va, base)]
  | lvl + 1, base, va =>
    (List.range 512).flatMap fun i =>
      let k := memKey vf (base + 8 * i)
      let e := s.rdMemNat k 8
      if s.poisoned k 8 || !pteBit e 0 || pteBit e 1 || pteMalformed size e (lvl + 1) i then []
      else tablesUnder s vf size lvl (pteFrame e) (va + i * 2 ^ (12 + 9 * (lvl + 1)))

/-- R391: the controller brings the window of a context up to date: every level-0 table stands there, and pages of absent tables are
unmapped. DESIGN CHOICE (log 35): it writes the entries in the level-0 tables that exist; where the window's own table is absent, for
which no rule gives a frame, a walk finds the page itself (`windowLeaf`). -/
def refreshWindow (s : State) (ctx : Nat) : State :=
  let vf := ctx / 64
  let ptwin := (s.ctx ctx).xb.ptwin.toNat
  if ptwin = 0 then s
  else
    let tabs := tablesUnder s vf (s.partBytes vf) 4 (s.ctx ctx).xb.root.toNat 0
    let mine := tabs.filter fun t => t.1 + 2 ^ 21 > ptwin && t.1 < ptwin + 2 ^ 48
    mine.foldl (fun (s : State) t => (List.range 512).foldl (fun (s : State) i =>
      let w := t.1 + 4096 * i
      if !inWindow ptwin w then s
      else
        let k := memKey vf (t.2 + 8 * i)
        let e := s.rdMemNat k 8
        match tabs.find? fun u => windowVa ptwin (u.1 / 2 ^ 21) = w with
        | some u => if e ||| 256 = windowEntry u.2 ||| 256 then s else s.memWriteNat k 8 (windowEntry u.2)
        | none => if pteBit e 0 then s.memWriteNat k 8 0 else s) s) s

end Sys2Proof.Machine
end

