-- ==== Sys2Proof/Machine/Mailbox.lean ====
section
/-! DEFINITION. Mailboxes (R469), their commands in order (R433), and the commands of a VF's mailbox over its own queues,
contexts and memory (R470, R405, R447, R388, R433 ZERO). -/

namespace Sys2Proof.Machine

/-! ## Commands -/

/-- R433, R470, R453: the command codes of a VF's mailbox. -/
def vfCodes : List Nat := [0x01, 0x02, 0x03, 0x04, 0x05, 0x07, 0x08, 0x15, 0x1B, 0x20, 0x21]
/-- R433, R470: the command codes of the PF's mailbox. -/
def pfCodes : List Nat := [0x06, 0x10, 0x11, 0x12, 0x13, 0x14, 0x16, 0x17, 0x18, 0x19, 0x1A, 0x30, 0x31]

/-- R452: the slice and the VF of a command's device event. DESIGN CHOICE (log 28): those that its operands name, else 0. -/
def eventPlace (s : State) (fn : Nat) (run : Byte × Byte × List DWord) : Nat × Nat :=
  let op (i : Nat) : Nat := (run.2.2.getD i 0).toNat % 16
  if fn < 16 then (0, fn)
  else match run.1.toNat with
    | 0x17 => (op 0, op 2)
    | 0x18 => (0, 0)
    | 0x19 => (op 0, (s.slice (op 0)).vf)
    | 0x1A => (0, 0)
    | 0x30 => (op 0, 0)
    | 0x31 => (0, 0)
    | _ => (0, op 0)

/-- R469: the completion of the command in progress, with MSI-X vector 0. -/
def finishCmd (s : State) (fn status : Nat) (result : DWord) : State :=
  let m := s.mbox fn
  let op := m.run.2.2.headD 0
  let (sl, vf) := eventPlace s fn m.run
  let s := (s.setMbox fn { m with
    status := BitVec.ofNat 8 status, rtag := m.run.2.1, done := true, result := result, busy := false, stage := 0 }).raise fn 0
  s.deviceEvent m.run.1 sl vf status op

/-- R433: statuses. -/
def stOk : Nat := 0
/-- BADARG. -/
def stBadArg : Nat := 1
/-- NOTFREE. -/
def stNotFree : Nat := 2
/-- BUSY. -/
def stBusy : Nat := 3
/-- NOROOM. -/
def stNoRoom : Nat := 4
/-- NOSUMP. -/
def stNoSump : Nat := 5
/-- R453: BADIMG. -/
def stBadImg : Nat := 6
/-- R453: ABORT. -/
def stAbort : Nat := 7
/-- R470: BADSIG. -/
def stBadSig : Nat := 8
/-- R470: ROLLBACK. -/
def stRollback : Nat := 9

/-- R478: whether the device manager answers a command of a code now: it runs, and bring-up has ended, or the command is REPORT, which reads
that it has not (R452). -/
def answers (s : State) (code : Nat) : Bool := !s.mgrDown && (s.devState ≠ 1 || code = 0x1A)

/-- R433, R470: whether a mailbox has a command of a code. -/
def knownCode (fn code : Nat) : Bool := (if fn < 16 then vfCodes else pfCodes).contains code

/-- A command that is none: NOTFREE on the mailbox of a VF without a partition (R429), else BADARG. -/
def refuseCmd (s : State) (fn : Nat) : State := finishCmd s fn (if fn < 16 && !(s.vf fn).present then stNotFree else stBadArg) 0

/-- R469: what a read of the 8-byte register at an offset of a mailbox gives: go, which is only written, and what is reserved read 0. -/
def mailboxRead (s : State) (fn off : Nat) : DWord :=
  let m := s.mbox fn
  let e := SMap.get {} m.events ((off - 256) / 32)
  let b (p : Bool) (n : Nat) : Nat := if p then 2 ^ n else 0
  if off = 0 then BitVec.ofNat 64 (m.code.toNat + m.tag.toNat * 2 ^ 8)
  else if 8 ≤ off && off < 64 && off % 8 = 0 then SMap.get 0 m.ops (off / 8 - 1)
  else if off = 64 then BitVec.ofNat 64 (m.status.toNat + m.rtag.toNat * 2 ^ 8 + b m.done 16)
  else if off = 72 then m.result
  else if off = 192 then m.ehead.setWidth 64
  else if off = 200 then m.etail.setWidth 64
  else if off < 256 || 512 ≤ off then 0
  else match off % 32 with
    | 0 => BitVec.ofNat 64 (e.code.toNat + e.vf.toNat * 2 ^ 8)
    | 8 => e.time
    | 16 => e.op0
    | 24 => e.op1
    | _ => 0

/-- R469: a read of a mailbox register is answered. -/
def readMailbox (fn off : Nat) (s : State) : Res := .next { s with linkResp := leBytes 8 (mailboxRead s fn off).toNat, linkOk := true }

/-- R469: the offsets of a mailbox at which a register stands. -/
def mailboxReg (off : Nat) : Bool := off < 80 || off / 8 = 16 || off / 8 = 24 || off / 8 = 25 || (256 ≤ off && off < 512)

/-- MAILBOX_REGISTER_WRITE (R469). A virtual function that writes a reserved register is frozen (R400). A go with a code that the mailbox does not have completes with BADARG,
one on the mailbox of a VF without a partition with NOTFREE (R429), once the device manager answers (R478). -/
def execMailboxRegisterWrite (fn off : Nat) (v : DWord) (s : State) : Res :=
  let m := s.mbox fn
  if 16 < fn then .next s
  else if !mailboxReg off then .next (if fn < 16 && (s.vf fn).present then freezeVf s fn true else s)
  else if off = 0 then .next (s.setMbox fn { m with code := v.extractLsb' 0 8, tag := v.extractLsb' 8 8 })
  else if off % 8 = 0 && 8 ≤ off && off < 64 then .next (s.setMbox fn { m with ops := SMap.set 0 m.ops (off / 8 - 1) v })
  else if off = 64 then .next (s.setMbox fn { m with done := m.done && !v.getLsbD 16 })
  else if off = 200 then .next (s.setMbox fn { m with etail := v.extractLsb' 0 3 })
  else if off = 128 && v.getLsbD 0 && !m.busy then
    let s := s.setMbox fn { m with
      busy := true, stage := 0, seq := s.tick, run := (m.code, m.tag, (List.range 7).map fun i => SMap.get 0 m.ops i) }
    if answers s m.code.toNat && ((fn < 16 && !(s.vf fn).present) || !knownCode fn m.code.toNat) then .next (refuseCmd s fn)
    else .next s
  else .next s

/-- R433: a mailbox's command of a code is in progress, and has begun or may begin: commands of different mailboxes begin
in their order of arrival, and while the device manager answers. -/
def cmdTurn (s : State) (fn code : Nat) : Bool :=
  let m := s.mbox fn
  m.busy && m.run.1.toNat = code && answers s code
    && (m.stage ≠ 0 || s.mboxes.all fun e => !(e.2.busy && e.2.stage = 0 && e.2.seq < m.seq))

/-- Operand i of the command in progress. -/
def cmdOp (s : State) (fn i : Nat) : Nat := ((s.mbox fn).run.2.2.getD i 0).toNat

/-- The command in progress goes on at a stage. -/
def setStage (s : State) (fn stage : Nat) : State := s.setMbox fn { s.mbox fn with stage := stage }

/-- What a command comes to: it ends with a status and a result, or goes on. A status other than OK leaves the state. -/
inductive CmdEnd where
  | done (s : State) (status result : Nat)
  | more (s : State)

/-- A command of a VF's mailbox, of a code; a VF that has lost its partition answers NOTFREE (R429). -/
def vfCmd (fn code : Nat) (f : State → CmdEnd) (s : State) : Res :=
  if 16 ≤ fn || !cmdTurn s fn code then .next s
  else if !(s.vf fn).present && (s.mbox fn).stage = 0 then .next (finishCmd s fn stNotFree 0)
  else match f s with
    | .done s1 st r => .next (finishCmd s1 fn st (BitVec.ofNat 64 r))
    | .more s1 => .next s1

/-- A command of the PF's mailbox, of a code. -/
def pfCmd (fn code : Nat) (f : State → CmdEnd) (s : State) : Res :=
  if fn ≠ 16 || !cmdTurn s fn code then .next s
  else match f s with
    | .done s1 st r => .next (finishCmd s1 fn st (BitVec.ofNat 64 r))
    | .more s1 => .next s1

/-- The key of a host address. -/
def hostKey (a : Nat) : Nat := 2 ^ 60 + a % 2 ^ 47
/-- A little-endian field of a block of bytes. -/
def fieldOf (bs : List Byte) (o n : Nat) : Nat := leValue ((bs.drop o).take n)
/-- R430: an interface is in use. -/
def inUse (s : State) (ctx : Nat) : Bool := s.ctxs.any fun c => c.id = ctx
/-- The context of an interface of a VF. -/
def intfCtx (vf intf : Nat) : Nat := 64 * vf + intf

/-! ## Queues -/

/-- R402, R406: a descriptor written over the one a queue has: misses and synth stay. -/
def QDesc.write (q : QDesc) (bs : List Byte) : QDesc :=
  let w := fieldOf bs 0 4
  { q with
    en := w.testBit 0, cls := w.testBit 1, raster := w.testBit 2, chainok := w.testBit 3, qgroup := BitVec.ofNat 4 (w / 2 ^ 4),
    weight := if w / 2 ^ 8 % 2 ^ 8 = 0 then 1 else BitVec.ofNat 8 (w / 2 ^ 8), vsync := w.testBit 16,
    ctx := BitVec.ofNat 6 (fieldOf bs 4 4), hdr := BitVec.ofNat 64 (fieldOf bs 8 8), dl := BitVec.ofNat 64 (fieldOf bs 16 8),
    period := BitVec.ofNat 32 (fieldOf bs 24 4), starve := BitVec.ofNat 16 (fieldOf bs 28 2) }

/-- R171: the base, n and retire of a queue's header, when they can be read. -/
def headerOf (s : State) (ctx sl : Nat) (h : DWord) : State × Option (Nat × Nat × Nat) :=
  match engReadN s ctx (relSl s ctx sl) h 128 with
  | (s, .error _) => (s, none)
  | (s, .ok bs) => (s, some (fieldOf bs 8 8, fieldOf bs 16 1 % 32, fieldOf bs 64 8))

/-- R171: the controller takes base and n of the header; a header that is no queue's leaves the queue disabled. The indices
go on from retire (R435). DESIGN CHOICE (log 28): a header that cannot be read answers BADARG and leaves the queue disabled where
en = 1, and is not read where en = 0; a descriptor written again with the same header and context resumes at the greater of the index
that it had come to and the header's retire. -/
def captureQueue (s : State) (sl qi : Nat) (old new : QDesc) : CmdEnd :=
  let ctx := 64 * (s.slice sl).vf + new.ctx.toNat
  let bad (s : State) : CmdEnd := .done (setQueueOf s sl qi { new with en := false }) stBadArg 0
  match headerOf s ctx sl new.hdr with
  | (s, none) => if new.en then bad s else .done (setQueueOf s sl qi new) stOk 0
  | (s, some (base, n, retire)) =>
    if base % 64 ≠ 0 || n < 3 || 16 < n then bad s
    else
      let same := old.hdr = new.hdr && old.ctx = new.ctx
      let adm := if same then max old.nextAdm retire else retire
      let ret := if same then max old.retire retire else retire
      .done (setQueueOf s sl qi { new with
        base := BitVec.ofNat 64 base, logn := n, nextAdm := adm, retire := ret, fin := if same then old.fin else [] }) stOk 0

/-- QDESC. -/
def execQdesc (fn : Nat) : State → Res := vfCmd fn 0x01 fun s =>
  let rel := cmdOp s fn 0
  let qi := cmdOp s fn 1
  let sl := (s.vf fn).first + rel
  if 2 ^ (s.vf fn).j ≤ rel || 128 ≤ qi then .done s stBadArg 0
  else
    let old := queueOf s sl qi
    captureQueue s sl qi old (old.write (s.rdMemN (hostKey (cmdOp s fn 2)) 64))

/-- QRESET (R405). -/
def execQreset (fn : Nat) : State → Res := vfCmd fn 0x02 fun s =>
  let rel := cmdOp s fn 0
  let qi := cmdOp s fn 1
  if 2 ^ (s.vf fn).j ≤ rel || 128 ≤ qi then .done s stBadArg 0
  else .done (resetQueue s ((s.vf fn).first + rel) qi) stOk 0

/-! ## Contexts -/

/-- R386: a translation block of 64 bytes. -/
def xblockOf (bs : List Byte) : XBlock :=
  { root := BitVec.ofNat 48 (fieldOf bs 0 8), gen := BitVec.ofNat 32 (fieldOf bs 8 4), dstride := BitVec.ofNat 48 (fieldOf bs 16 8),
    ptwin := BitVec.ofNat 57 (fieldOf bs 24 8), pool := BitVec.ofNat 57 (fieldOf bs 32 8) }

/-- XBLOCK (R386); the controller maps the table window that the block names (R391). -/
def execXblock (fn : Nat) : State → Res := vfCmd fn 0x03 fun s =>
  let ctx := intfCtx fn (cmdOp s fn 0)
  let x := xblockOf (s.rdMemN (hostKey (cmdOp s fn 1)) 64)
  if 64 ≤ cmdOp s fn 0 || !inUse s ctx || x.root.toNat % 4096 ≠ 0 then .done s stBadArg 0
  else .done (refreshWindow (s.setCtx { s.ctx ctx with xb := x }) ctx) stOk 0

/-- R403: a scheduling block of 64 bytes; a timer of 0 reads as 1. -/
def sblockOf (bs : List Byte) : SBlock :=
  let one (n : Nat) : BitVec 16 := if n % 2 ^ 16 = 0 then 1 else BitVec.ofNat 16 n
  { sump := BitVec.ofNat 64 (fieldOf bs 0 8), nslot := BitVec.ofNat 16 (fieldOf bs 8 2), nclu := BitVec.ofNat 16 (fieldOf bs 10 2),
    grace := one (fieldOf bs 12 2), kill := one (fieldOf bs 14 2), wdog := BitVec.ofNat 32 (fieldOf bs 16 4),
    hscr := BitVec.ofNat 64 (fieldOf bs 24 8) }

/-- SBLOCK. -/
def execSblock (fn : Nat) : State → Res := vfCmd fn 0x04 fun s =>
  let ctx := intfCtx fn (cmdOp s fn 0)
  let b := sblockOf (s.rdMemN (hostKey (cmdOp s fn 1)) 64)
  if 64 ≤ cmdOp s fn 0 || !inUse s ctx || b.sump.toNat % 2 ^ 21 ≠ 0 || b.hscr.toNat % 4096 ≠ 0 || 1024 < b.nslot.toNat then
    .done s stBadArg 0
  else .done (s.setCtx { s.ctx ctx with sb := b }) stOk 0

/-- R332: a shoot-down of the binding context whose range meets a guard region of a slot puts the slot into INVALID. -/
def shootSlots (s : State) (ctx va n : Nat) : State :=
  let meets (r : DWord) : Bool :=
    let w := 2 ^ (r.toNat / 2 ^ 57 % 64)
    let base := r.toNat % 2 ^ 57 / w * w
    r ≠ 0 && (n = 0 || (base < va + n && va < base + w))
  { s with clusters := s.clusters.map fun c =>
      { c with slots := c.slots.map fun o => o.map fun sl =>
          if sl.state ≠ .invalid && sl.ctx = ctx && (slotGuards sl).any meets then sl.invalidate else sl } }

/-- R388: a shoot-down of a context over a range of n bytes, or the whole space. Every translated access is performed at
sys scope, and every load has returned, before it ends. -/
def shootDown (s : State) (ctx : Nat) (va n : Nat) : State :=
  let x := s.ctx ctx
  let gen := x.xb.gen + 1
  let hit (t : TlbEntry) : Bool := n = 0 || (t.va < va + n && va < t.va + leafBytes t.size)
  let s := s.setCtx { x with xb := { x.xb with gen := gen }, tlb := x.tlb.filter fun t => !hit t }
  let mine (g : Group) : Bool := g.live && g.ctx = ctx
  let s := if gen.setWidth 12 = 0#12 then s.mapGroups mine Group.staleAll else s
  let s := if gen.setWidth 12 = 0#12 then
      { s with clusters := s.clusters.map fun c => { c with
          queue := c.queue.map fun m => if m.ctx = ctx then { m with tr := { m.tr with stale := true } } else m } }
    else s
  let s := s.mapGroups mine fun g => (settleResults g).wake
  let s := shootSlots s ctx va n
  let parts := s.partSlices (ctx / 64)
  let ids := (s.l1s.filter fun l => parts.contains (l.id / 128)).map fun l => l.id
  ids.foldl (fun (s : State) id => (s.performDirty id fun _ => true).ackAllDup id) s

/-- SHOOT. -/
def execShoot (fn : Nat) : State → Res := vfCmd fn 0x05 fun s =>
  let ctx := intfCtx fn (cmdOp s fn 0)
  if 64 ≤ cmdOp s fn 0 || !inUse s ctx then .done s stBadArg 0
  else .done (shootDown s ctx (cmdOp s fn 1 % 2 ^ 57) (cmdOp s fn 2)) stOk 0

/-- DIRTYLOG. -/
def execDirtylog (fn : Nat) : State → Res := pfCmd fn 0x06 fun s =>
  let v := cmdOp s fn 0
  let h := cmdOp s fn 1
  if 16 ≤ v || !(s.vf v).present || h % 64 ≠ 0 then .done s stBadArg 0
  else .done (s.setVf { s.vf v with logHdr := h, logFull := false }) stOk 0

/-- QUOTA (R63): the quotas of a VF's contexts sum to at most 65,536. -/
def execQuota (fn : Nat) : State → Res := vfCmd fn 0x07 fun s =>
  let ctx := intfCtx fn (cmdOp s fn 0)
  let q := cmdOp s fn 1
  let others := ((s.ctxs.filter fun c => c.id / 64 = fn && c.id ≠ ctx).map fun c => c.quota).sum
  if 64 ≤ cmdOp s fn 0 || !inUse s ctx || 65536 < others + q then .done s stBadArg 0
  else .done (s.setCtx { s.ctx ctx with quota := q }) stOk 0

/-- INTF (R430, R438): an assigned interface begins with every register of its own 0; PASID 0 releases it. -/
def execIntf (fn : Nat) : State → Res := vfCmd fn 0x08 fun s =>
  let ctx := intfCtx fn (cmdOp s fn 0)
  let p := cmdOp s fn 1
  if 64 ≤ cmdOp s fn 0 || 2 ^ 20 ≤ p then .done s stBadArg 0
  else
    let s := { s with ctxs := s.ctxs.filter fun c => c.id ≠ ctx }
    .done (if p = 0 then s else s.setCtx { id := ctx, pasid := BitVec.ofNat 20 p, frozen := (s.vf fn).frozen }) stOk 0

/-- WAYS (R447). -/
def execWays (fn : Nat) : State → Res := vfCmd fn 0x15 fun s =>
  let ctx := intfCtx fn (cmdOp s fn 0)
  let rel := cmdOp s fn 1
  let m := cmdOp s fn 2
  if 64 ≤ cmdOp s fn 0 || !inUse s ctx || 2 ^ (s.vf fn).j ≤ rel || m = 0 || 2 ^ 16 ≤ m then .done s stBadArg 0
  else
    let x := s.ctx ctx
    .done (s.setCtx { x with ways := SMap.set (BitVec.allOnes 16) x.ways rel (BitVec.ofNat 16 m) }) stOk 0

/-! ## ZERO -/

/-- ZERO (R433). -/
def execZero (fn : Nat) : State → Res := vfCmd fn 0x1B fun s =>
  let b := cmdOp s fn 0
  let n := cmdOp s fn 1
  if b % 2 ^ 16 ≠ 0 || n % 2 ^ 16 ≠ 0 || s.partBytes fn < b + n then .done s stBadArg 0
  else .done (zeroRange s (memKey fn b) (memKey fn b + n)) stOk 0

end Sys2Proof.Machine
end

