-- ==== Sys2Proof/Machine/Partition.lean ====
section
/-! DEFINITION. Partitions: the chunk map (R431), PMAKE, PFREE, FUSE, SPLIT, ENGINES and BWCLASS (R433–R439, R445), zeroing
(R438), leases (R440–R444), the per-slice reset (R449), REPORT (R452), bandwidth windows (R446) and the snoop filter (R448). -/

namespace Sys2Proof.Machine

/-! ## The chunk map (R431, R434, R436) -/

/-- The chunks a slice can hold. -/
def sliceChunks (s : State) (sl : Nat) : Nat := 512 * State.popCount (s.channelMask sl)

/-- The slice of item i of a round robin over slices with what each can hold; a full slice is passed over. -/
def roundRobin : Nat → List (Nat × Nat) → Nat → Option Nat
  | 0, _, _ => none
  | fuel + 1, ss, i =>
    match ss.filter fun x => 0 < x.2 with
    | [] => none
    | x :: xs =>
      let m := xs.foldl (fun a b => min a b.2) x.2
      let n := xs.length + 1
      if i < m * n then ((x :: xs)[i % n]?).map fun y => y.1
      else roundRobin fuel ((x :: xs).map fun y => (y.1, y.2 - m)) (i - m * n)

/-- The slice on which a chunk was placed, by the segments of a map. -/
def segSlice (s : State) (segs : List (Nat × List Nat)) (c : Nat) : Option Nat :=
  match (segs.filter fun e => e.1 ≤ c).getLast? with
  | none => none
  | some (first, ss) => roundRobin 17 (ss.map fun sl => (sl, sliceChunks s sl)) (c - first)

/-- R436: each chunk that moves takes one of the blocks that have become free, whichever (`f`). -/
def drawBlocks (f : Nat → Nat) : List Nat → List Nat → List (Nat × Nat)
  | [], _ => []
  | c :: cs, fs =>
    let i := f c % fs.length
    match fs[i]? with
    | none => []
    | some sl => (c, sl) :: drawBlocks f cs (fs.eraseIdx i)

/-- R431, R436: the slice of a chunk after the moves of a list, the latest first: a SPLIT moved those below its new size that lay on a
departing slice into blocks of the remaining slices that held addresses from the new size on. -/
def chunkAfter (s : State) (segs : List (Nat × List Nat)) : List ChunkMove → Nat → Option Nat
  | [], c => segSlice s segs c
  | m :: ms, c =>
    if m.lim ≤ c then segSlice s segs c
    else
      let old := chunkAfter s m.segs ms
      let stays (x : Nat) : Bool := match old x with | some sl => m.stay.contains sl | none => false
      if stays c then old c
      else
        let free := (((List.range m.hi).drop m.lim).filter stays).filterMap old
        let moved := (List.range m.lim).filter fun x => !stays x
        ((drawBlocks (Config.chunkHome m.seq) moved free).find? fun e => e.1 = c).map fun e => e.2

/-- The slice that holds a chunk of a partition. -/
def chunkSlice (s : State) (vf c : Nat) : Option Nat := chunkAfter s (s.vf vf).chunks (s.vf vf).moves c

/-! ## Zeroing of a slice (R438) -/

/-- R364: the controllers of a slice select interface 0 of a VF, and their hs registers are 0: sys.ctxsel and hs are zeroed when the slice
changes its owner. -/
def selectFirst (s : State) (sl vf : Nat) : State :=
  s.mapGroups (fun g => g.live && g.mode = .slice && (match s.team? g.team with | some t => t.ppos / 128 = sl | none => false)) fun g =>
    { g with ctx := 64 * vf, hs := {} }

/-- R438: a slice's own state is zeroed and it is free once that has ended; what it has counted stays. -/
def zeroSlice (s : State) (sl : Nat) : State :=
  let c := s.slice sl
  let here (id : Nat) : Bool := id / 16 = sl
  let s := s.setSlice
    { id := sl, state := 4, vf := c.vf, corr := c.corr, uncorr := c.uncorr, cause := c.cause,
      clk0 := c.clk0 }
  let s := dropRemainsOf (selectFirst s sl 0) fun t => t.ppos / 128 = sl
  { s with
    clusters := s.clusters.filter fun k => !here k.id
    l1s := s.l1s.filter fun l => !(l.id / 128 = sl)
    copies := s.copies.filter fun k => k.slice ≠ sl
    cards := s.cards.filter fun k => k.slice ≠ sl }

/-- ZEROING_DONE: the slice is free, once no checkpoint stream needs the frames of its partition any more (R457). -/
def execZeroingDone (slice : Nat) (s : State) : Res :=
  let c := s.slice slice
  if c.state = 4 && !(s.ckpts.any fun k => k.ctx / 64 = c.vf) then .next (s.setSlice { c with state := 0, vf := 0, draining := false }) else .next s

/-! ## Leases (R440–R444) -/

/-- R441: the lender's teams that must go: those that hold a0 or a1 of the cluster, and those on its roof core. -/
def lenderTeams (s : State) (cl : Nat) : List Team :=
  let c := s.cluster cl
  s.allTeams.filter fun t => t.live && t.ppos / 8 = cl
    && (t.ppos % 8 = 4 || c.bank0.holder = some t.uid || c.bank1.holder = some t.uid || c.queue.any fun m => m.team = t.uid)

/-- R441: the lender contexts' roof store and chimneys are saved to their areas, and zeroed. -/
def saveLender (s : State) (cl : Nat) : State :=
  let c := s.cluster cl
  let owners := (List.range 4).foldl (fun l n =>
    if (c.chim.getD n []).isEmpty || l.contains (c.chimOwner.getD n 0) then l else c.chimOwner.getD n 0 :: l) []
  let owners := match c.roofOwner with | some o => if owners.contains o then owners else o :: owners | none => owners
  wipeRoof (owners.foldl (fun (s : State) ctx => saveArea s ctx cl) s) cl

/-- R453: a checkpoint of a VF's contexts is in progress. -/
def vfCkpt (s : State) (vf : Nat) : Bool :=
  s.ckpts.any (fun c => c.ctx / 64 = vf) || s.ctxs.any fun c => c.id / 64 = vf && c.quiesce

/-- The records of leases: sixteen. -/
def leaseRecords (s : State) : List Lease := s.leases ++ List.replicate (16 - s.leases.length) ({} : Lease)

/-- R441: a LEASE of the given operands is taken up, or refused. -/
def beginLease (s : State) (l : Lease) : CmdEnd :=
  let v := s.vf l.vf
  let rs := leaseRecords s
  if 16 ≤ l.lslice || 16 ≤ l.lpos || 16 ≤ l.vf || 64 ≤ l.intf || !v.present || !inUse s l.ctx || 2 ^ v.j ≤ l.pslice
    || (v.first ≤ l.lslice && l.lslice < v.first + 2 ^ v.j) || !(s.clusterMask l.lslice).getLsbD l.lpos then .done s stBadArg 0
  else if rs.any fun r => r.state ≠ 0 && r.cluster = l.cluster then .done s stNotFree 0
  else if vfCkpt s l.vf || rs.any fun r => r.state ≠ 0 && r.ctx = l.ctx && r.pslice = l.pslice then .done s stBusy 0
  else match rs.findIdx? fun r => r.state = 0 with
    | none => .done s stNotFree 0
    | some i => .more (setStage { s with leases := rs.set i { l with state := 1 } } 16 (i + 1))

/-- R441, R442: a starting lease goes on; it is active once the lender's teams have gone, and the lessee context owns the roof store.
DESIGN CHOICE (log 27): the command of a lease that a slice's reset revokes meanwhile ends with OK. -/
def goLease (s : State) (i : Nat) : CmdEnd :=
  match s.leases[i]? with
  | none => .done s stBadArg 0
  | some l =>
    let ts := lenderTeams s l.cluster
    if l.state ≠ 1 then .done s stOk i
    else if ts.isEmpty then
      let s := saveLender s l.cluster
      let s := s.setCluster { s.cluster l.cluster with roofOwner := some l.ctx }
      .done (mapLease s i fun l => { l with state := 2, start := BitVec.ofNat 64 s.now }) stOk i
    else .more (pollSoft ((ts.map fun t => t.uid).foldl softHalt s))

/-- LEASE: the result is the index of its record. -/
def execLease (fn : Nat) : State → Res := pfCmd fn 0x17 fun s =>
  let stage := (s.mbox fn).stage
  if stage = 0 then
    beginLease s { lslice := cmdOp s fn 0, lpos := cmdOp s fn 1, vf := cmdOp s fn 2, intf := cmdOp s fn 3, pslice := cmdOp s fn 4,
                   limit := BitVec.ofNat 64 (cmdOp s fn 5) }
  else goLease s (stage - 1)

/-- REVOKE (R444). -/
def execRevoke (fn : Nat) : State → Res := pfCmd fn 0x18 fun s =>
  let i := cmdOp s fn 0
  match s.leases[i]? with
  | none => .done s (if i < 16 then stOk else stBadArg) 0
  | some l =>
    let s := settleLease (if l.state = 0 then s else mapLease s i Lease.revoked) i
    if ((s.leases[i]?).map fun l => l.state) = some 0 then .done s stOk 0 else .more (setStage s fn 1)

/-! ## PMAKE and PFREE -/

/-- R429: a block of 2^j slices. -/
def blockOk (first j : Nat) : Bool := j ≤ 4 && first % 2 ^ j = 0 && first + 2 ^ j ≤ 16

/-- R478: a slice whose controller has no valid image is absent from every partition. -/
def sliceFree (s : State) (sl : Nat) : Bool :=
  let f := SMap.get {} s.fws sl
  (s.slice sl).state = 0 && (f.ok0 || f.ok1)

/-- R439: an engine of the masks belongs to another VF. -/
def enginesTaken (s : State) (vf : Nat) (coll : BitVec 4) (comp : BitVec 2) : Bool :=
  s.vfs.any fun v => v.id ≠ vf && v.present && (v.coll &&& coll ≠ 0 || v.comp &&& comp ≠ 0)

/-- PMAKE. A sixth operand states the cluster positions that the partition will hold after a later FUSE (R435). -/
def execPmake (fn : Nat) : State → Res := pfCmd fn 0x10 fun s =>
  let vf := cmdOp s fn 0
  let first := cmdOp s fn 1
  let j := cmdOp s fn 2
  let slices := (List.range (2 ^ j)).map fun i => first + i
  if 16 ≤ vf || (s.vf vf).present || !blockOk first j || 16 ≤ cmdOp s fn 3 || 4 ≤ cmdOp s fn 4 then .done s stBadArg 0
  else
    let coll := BitVec.ofNat 4 (cmdOp s fn 3)
    let comp := BitVec.ofNat 2 (cmdOp s fn 4)
    if !slices.all (sliceFree s) || enginesTaken s vf coll comp then .done s stNotFree 0
    else
      let s := slices.foldl (fun (s : State) sl => selectFirst (s.setSlice { s.slice sl with state := 1, vf := vf, heap := [] }) sl vf) s
      .done (s.setVf { id := vf, present := true, first := first, j := j, coll := coll, comp := comp, chunks := [(0, slices)],
                       ncluMax := cmdOp s fn 5 }) stOk 0

/-- PFREE's first part: the contexts are reset, and the slices and the memory are zeroed. -/
def freePartition (s : State) (vf : Nat) : State :=
  let slices := s.partSlices vf
  let s := (ctxsOf s vf).foldl resetContext s
  let s := revokeOf s fun l => l.vf = vf || slices.contains l.lslice
  let s := touchRange s (memKey vf 0) (memKey (vf + 1) 0)
  let s := slices.foldl zeroSlice s
  let m := s.mbox vf
  let s := s.setMbox vf { m with dropped := 0 }
  ({ s with
    mem := SMap.clear s.mem (memKey vf 0) (memKey (vf + 1) 0)
    poison := s.poison.filter fun x => !(memKey vf 0 ≤ 32 * x && 32 * x < memKey (vf + 1) 0)
    ctxs := s.ctxs.filter fun c => c.id / 64 ≠ vf } : State).setVf { id := vf }

/-- PFREE: it completes once the slices are zeroed. -/
def execPfree (fn : Nat) : State → Res := pfCmd fn 0x11 fun s =>
  let vf := cmdOp s fn 0
  let wait (s : State) : CmdEnd :=
    if s.slices.any fun c => c.state = 4 && c.vf = vf then .more (setStage s fn 1) else .done s stOk 0
  if (s.mbox fn).stage = 1 then wait s
  else if 16 ≤ vf || !(s.vf vf).present then .done s stBadArg 0
  else wait (freePartition s vf)

/-! ## FUSE and SPLIT -/

/-- The renumbered index of a partition cluster, when n slices rotate by d. -/
def turnCluster (d n k : Nat) : Nat := 16 * ((k / 16 + d) % n) + k % 16

/-- R434: the saved cluster areas of a context move to their new indices; one that has no area any more is dropped. -/
def moveAreas (s : State) (ctx d n : Nat) : State :=
  let b := (s.ctx ctx).sb
  let base := memKey (ctx / 64) (b.sump.toNat + 2 ^ 24)
  let size := b.nclu.toNat * 2 ^ 21
  let to_ (o : Nat) : Nat := turnCluster d n (o / 2 ^ 21) * 2 ^ 21 + o % 2 ^ 21
  if b.sump = 0 || d % n = 0 then s
  else
    let s := touchRange s base (base + size)
    let mine := SMap.slice s.mem base (base + size)
    let bad := s.poison.filter fun x => base ≤ 32 * x && 32 * x < base + size
    let moved := mine.foldl (fun m e =>
      let o := to_ (e.1 - base)
      if o < size then SMap.set 0 m (base + o) e.2 else m) (SMap.clear s.mem base (base + size))
    let s := { s with
      mem := moved
      poison := (s.poison.filter fun x => !bad.contains x) ++ (bad.map fun x => (base + to_ (32 * x - base)) / 32) }
    { s with clusters := s.clusters.map fun c => { c with areaDue := c.areaDue.map fun e =>
        if e.1 = ctx then (e.1, base + to_ (e.2 - base)) else e } }

/-- R434: the team headers of a context's saved teams get their new home and queue slice. -/
def turnHeaders (s : State) (ctx d n : Nat) : State :=
  (usedSlots s ctx).foldl (fun (s : State) key =>
    let home := turnCluster d n (recNat s key 25 1)
    let q := (recNat s key 33 1 + d) % n
    resealSlot ((s.memWrite (key + 25) (leBytes 1 home)).memWrite (key + 33) (leBytes 1 q)) key) s

/-- R434: the values that partition slices number in a context. -/
def turnCtx (x : Ctx) (d n : Nat) : Ctx :=
  { x with
    ways := x.ways.foldl (fun m e => SMap.set (BitVec.allOnes 16) m ((e.1 + d) % n) e.2) []
    crit := x.crit.foldl (fun m e => SMap.set 0 m ((e.1 + d) % n) e.2) [] }

/-- R445, R447: what a context had of a partition's departed slices is reset: way mask 0xFFFF, class best-effort. -/
def dropSlices (x : Ctx) (n : Nat) : Ctx := { x with ways := x.ways.filter fun e => e.1 < n, crit := x.crit.filter fun e => e.1 < n }

/-- R404: the scratch areas of groups in the handler go where their new numbers place them. -/
def moveScratch (s s' : State) (vf : Nat) : State :=
  let gs := s.allGroups.filter fun g => g.live && g.inHandler && g.ctx / 64 = vf && (s.ctx g.ctx).sb.hscr ≠ 0
  let data := gs.map fun g => (g.uid, groupPieces.scratchKeyOf s' g, s.rdMemN (groupPieces.scratchKeyOf s g) 4096)
  data.foldl (fun (s : State) e =>
    (s.memWrite e.2.1 e.2.2).mapGroups (fun g => g.uid = e.1) fun g => g.setScratch (BitVec.ofNat 36 (e.2.1 % 2 ^ 48 / 2 ^ 12))) s'

/-- R434: a partition takes a new block; n slices in all, old or new, and the first moves by d slices round them. -/
def renumber (s : State) (vf first j d n : Nat) : State :=
  let cs := ctxsOf s vf
  let s1 := cs.foldl (fun (s : State) c => turnHeaders (moveAreas s c d n) c d n) s
  let s1 := cs.foldl (fun (s : State) c => s.setCtx (turnCtx (s.ctx c) d n)) s1
  let s1 := { s1 with leases := s1.leases.map fun (l : Lease) => if l.state ≠ 0 && l.vf = vf then { l with pslice := (l.pslice + d) % n } else l }
  moveScratch s (s1.setVf { s1.vf vf with first := first, j := j }) vf

/-- FUSE. -/
def execFuse (fn : Nat) : State → Res := pfCmd fn 0x12 fun s =>
  let vf := cmdOp s fn 0
  let first := cmdOp s fn 1
  let j := cmdOp s fn 2
  let v := s.vf vf
  let added := ((List.range (2 ^ j)).map fun i => first + i).filter fun sl => !(v.first ≤ sl && sl < v.first + 2 ^ v.j)
  if 16 ≤ vf || !v.present || !blockOk first j || j ≤ v.j || v.first < first || first + 2 ^ j < v.first + 2 ^ v.j then .done s stBadArg 0
  else if !added.all (sliceFree s) then .done s stNotFree 0
  else if vfCkpt s vf then .done s stBusy 0
  else
    let old := s.partBytes vf
    let s := added.foldl (fun (s : State) sl => selectFirst (s.setSlice { s.slice sl with state := 1, vf := vf }) sl vf) s
    let s := s.setVf { s.vf vf with chunks := (s.vf vf).chunks ++ [(old / 2 ^ 21, added)] }
    .done (renumber s vf first j (v.first - first) (2 ^ j)) stOk 0

/-- R435: the heap entries of a context that a slice of the smaller partition will hold. -/
def heapAfter (s : State) (vf first j ctx sl : Nat) : Nat :=
  ((s.partSlices vf).map fun o =>
    let i := o - (s.vf vf).first
    if (if first ≤ o && o < first + 2 ^ j then o else first + i % 2 ^ j) = sl then (s.slice o).heap.countP fun e => e.ctx = ctx else 0).sum

/-- R435: the checks of SPLIT once the block is in order. -/
def splitCheck (s : State) (vf first j : Nat) (gone : List Nat) : Option Nat :=
  let stay := (List.range (2 ^ j)).map fun i => first + i
  if gone.any (fun sl => (s.slice sl).queues.any (fun e => e.2.en) || s.cards.any fun k => k.slice = sl)
    || s.leases.any (fun l => l.state ≠ 0 && (gone.contains l.lslice || (l.vf = vf && gone.contains ((s.vf vf).first + l.pslice))))
    || vfCkpt s vf then some stBusy
  else if s.cards.any (fun k => k.vf = vf && (match k.launch with
      | none => false
      | some l => attrCores l.attr &&
        (((stay.flatMap fun sl => coresOf s sl).filter fun p => kindAllows l.attr (p % 8 = 4)).map fun p =>
          teamsPer l.need (p % 8 = 4)).sum < (if k.raster then l.frags + l.held.length else l.teams)))
    || (ctxsOf s vf).any (fun c => stay.any fun sl => (s.ctx c).quota < heapAfter s vf first j c sl) then some stNoRoom
  else if (ctxsOf s vf).any fun c => (s.ctx c).sb.nclu.toNat < (s.vf vf).ncluMax then some stNoSump
  else none

/-- R436 step 2: the heap entries of the departing slices move, in their old add order. -/
def moveHeaps (s : State) (vf first j : Nat) (gone : List Nat) : State :=
  gone.foldl (fun (s : State) sl =>
    let to_ := first + (sl - (s.vf vf).first) % 2 ^ j
    let es := orderBy (fun e : HeapEntry => [e.seq]) (s.slice sl).heap
    let c := s.slice to_
    let n := c.heap.length
    let s := s.setSlice { c with heap := c.heap ++ es.mapIdx fun i e => { e with seq := 65536 * s.tick + n + i } }
    s.setSlice { s.slice sl with heap := [] }) s

/-- The departing slices of a SPLIT. -/
def departing (s : State) (vf first j : Nat) : List Nat := (s.partSlices vf).filter fun sl => !(first ≤ sl && sl < first + 2 ^ j)

/-- R436: a SPLIT that could not end: the departing slices admit work again, and their teams, with the rest of their co-resident grids, go
on. -/
def undoSplit (s : State) (vf : Nat) (gone : List Nat) : State :=
  let s := gone.foldl (fun (s : State) sl => s.setSlice { s.slice sl with draining := false }) s
  let uids := ((s.allTeams.filter fun t => t.live && gone.contains (t.ppos / 128)).flatMap (victimGrid s)).map fun t => t.uid
  (uids.foldl ladderUndo s).setVf { s.vf vf with resize := false }

/-- R436 steps 1 to 4: the teams go, the heaps and chunks move, the slices are zeroed. -/
def drainSplit (s : State) (fn vf first j : Nat) : CmdEnd :=
  let gone := departing s vf first j
  let mine := s.allTeams.filter fun t => t.live && gone.contains (t.ppos / 128) && t.ngrp ≠ 0
  let s := pollSoft ((mine.map fun t => t.uid).foldl softHalt s)
  let left := s.allTeams.filter fun t => t.live && gone.contains (t.ppos / 128) && t.ngrp ≠ 0
  let late (t : Team) : Bool := match t.hardAt with
    | none => false
    | some h => h + 1000000 * max 1 (s.ctx t.ctx).sb.kill.toNat ≤ s.now
  if left.any late then .done (undoSplit s vf gone) stBusy 0
  else if !left.isEmpty || s.copies.any fun c => gone.contains c.slice && c.fault.isNone then .more s
  else
    -- R421: a stopped copy of a saved team goes on from a remaining slice
    let s := { s with copies := s.copies.map fun c =>
      if gone.contains c.slice && c.fault.isSome && c.card.isNone then { c with slice := first + (c.slice - (s.vf vf).first) % 2 ^ j } else c }
    .more (setStage (gone.foldl zeroSlice (moveHeaps (launchRelease s vf) vf first j gone)) fn 2)

/-- R432, R437: after a partition has become smaller every translation of its contexts is made anew, so that none passes the new size:
no TLB entry stands, every bound register is stale, a saved team's too; and no L1 of the partition holds a line of a chunk that has
moved. -/
def forgetSizes (s : State) (vf : Nat) : State :=
  let parts := s.partSlices vf
  let s := s.mapGroups (fun g => g.live && g.ctx / 64 = vf) Group.staleAll
  { s with
    ctxs := s.ctxs.map fun c => if c.id / 64 = vf then { c with tlb := [] } else c
    clusters := s.clusters.map fun c => { c with
      queue := c.queue.map fun m => if m.ctx / 64 = vf then { m with tr := { m.tr with stale := true } } else m }
    keptT := s.keptT.map fun k => if k.t.ctx / 64 = vf then { k with gen := ~~~(s.ctx k.t.ctx).xb.gen } else k
    l1s := s.l1s.map fun l => if parts.contains (l.id / 128) then { l with clean := [] } else l }

/-- R436 step 5: the smaller partition stands, and each interface hears of it. -/
def endSplit (s : State) (vf first j : Nat) : State :=
  let v := s.vf vf
  let n := 2 ^ v.j
  let gone := departing s vf first j
  let was := s.partBytes vf / 2 ^ 21
  let s := gone.foldl (fun (s : State) sl => s.setSlice { s.slice sl with draining := false }) s
  let s := forgetSizes (renumber s vf first j ((n - (first - v.first)) % n) n) vf
  let stay := s.partSlices vf
  let x := s.vf vf
  let size := s.partBytes vf / 2 ^ 21
  let move : ChunkMove := { seq := s.tick, lim := size, hi := was, stay := stay, segs := x.chunks }
  let s := s.setVf { x with resize := false, chunks := x.chunks.filter fun e => e.1 < size, moves := move :: x.moves }
  let lo := memKey vf (s.partBytes vf)
  let hi := memKey (vf + 1) 0
  let s := (ctxsOf s vf).foldl (fun (s : State) c => s.setCtx (dropSlices (s.ctx c) (2 ^ j))) s
  let s := { s with mem := SMap.clear s.mem lo hi, poison := s.poison.filter fun x => !(lo ≤ 32 * x && 32 * x < hi) }
  (ctxsOf s vf).foldl (fun (s : State) _ => s.mailEvent vf 0x01 vf (BitVec.ofNat 64 first) (BitVec.ofNat 64 (2 ^ j))) s

/-- SPLIT. -/
def execSplit (fn : Nat) : State → Res := pfCmd fn 0x13 fun s =>
  let vf := cmdOp s fn 0
  let first := cmdOp s fn 1
  let j := cmdOp s fn 2
  let v := s.vf vf
  match (s.mbox fn).stage with
  | 0 =>
    if 16 ≤ vf || !v.present || !blockOk first j || v.j ≤ j || first < v.first || v.first + 2 ^ v.j < first + 2 ^ j then .done s stBadArg 0
    else
      let gone := departing s vf first j
      (match splitCheck s vf first j gone with
       | some st => .done s st 0
       | none =>
         let s := gone.foldl (fun (s : State) sl => s.setSlice { s.slice sl with draining := true }) s
         .more (setStage (s.setVf { s.vf vf with resize := true }) fn 1))
  | 1 => drainSplit s fn vf first j
  | _ => if (departing s vf first j).any fun sl => (s.slice sl).state = 4 then .more s else .done (endSplit s vf first j) stOk 0

/-- ENGINES (R439). -/
def execEngines (fn : Nat) : State → Res := pfCmd fn 0x14 fun s =>
  let vf := cmdOp s fn 0
  let v := s.vf vf
  if 16 ≤ vf || !v.present || 16 ≤ cmdOp s fn 1 || 4 ≤ cmdOp s fn 2 then .done s stBadArg 0
  else
    let coll := BitVec.ofNat 4 (cmdOp s fn 1)
    let comp := BitVec.ofNat 2 (cmdOp s fn 2)
    let gone := (enginesOf v 4 ++ enginesOf v 5).filter fun e =>
      !(enginesOf { v with coll := coll, comp := comp } 4 ++ enginesOf { v with coll := coll, comp := comp } 5).contains e
    if enginesTaken s vf coll comp then .done s stNotFree 0
    else if s.cards.any (fun k => match k.engine with | some e => gone.contains e | none => false) then .done s stBusy 0
    else .done (s.setVf { v with coll := coll, comp := comp }) stOk 0

/-! ## Bandwidth (R445, R446) -/

/-- BWCLASS: a context's class in every slice of its partition. -/
def execBwclass (fn : Nat) : State → Res := pfCmd fn 0x16 fun s =>
  let vf := cmdOp s fn 0
  let ctx := intfCtx vf (cmdOp s fn 1)
  let w := cmdOp s fn 2
  let target := w / 2 ^ 16 % 2 ^ 16
  if 16 ≤ vf || !(s.vf vf).present || 64 ≤ cmdOp s fn 1 || !inUse s ctx || (w.testBit 0 && target < 100) then .done s stBadArg 0
  else
    let all := (List.range (2 ^ (s.vf vf).j)).map fun i => (i, target)
    .done (s.setCtx { s.ctx ctx with crit := if w.testBit 0 then all else [] }) stOk 0

/-- R445: a judged context of a slice whose window has missed its target. -/
def missed (s : State) (sl : Nat) (e : Nat × Nat × Nat) : Bool :=
  let t := SMap.get 0 (s.ctx e.1).crit (relSl s e.1 sl)
  t ≠ 0 && 100 ≤ e.2.1 && t < e.2.2

/-- BW_WINDOW_END: `p99` gives for each context the reads counted in the window and their p99. A window ends at a multiple of
100,000 ns. -/
def execBwWindowEnd (slice : Nat) (p99 : List (Nat × Nat × Nat)) (s : State) : Res :=
  let c := s.slice slice
  let bad := p99.filter (missed s slice)
  if s.now % 100000 ≠ 0 then .next s
  else if bad.isEmpty then
    let n := min 4 (c.goodWin + 1)
    .next (s.setSlice { c with goodWin := n, throttle := if 4 ≤ n then min 16 (c.throttle + 1) else c.throttle })
  else
    let a := max 1 (c.throttle - 1)
    let s := s.setSlice { c with goodWin := 0, throttle := a }
    .next (if a = 1 then bad.foldl (fun (s : State) e => s.setCtx { s.ctx e.1 with bwMiss := (s.ctx e.1).bwMiss + 1 }) s else s)

/-- THROTTLE_PERIOD: the requests that best-effort contexts may issue in the next 1,000 ns. -/
def execThrottlePeriod (slice : Nat) (s : State) : Res :=
  let c := s.slice slice
  .next (s.setSlice { c with allowed := c.throttle * (750 * State.popCount (s.channelMask slice)) / 16 })

/-- SNOOP_PARITY_ERROR (R448): the lines of host memory that may map to the set are written back and dropped. -/
def execSnoopParityError (set : Nat) (s : State) : Res :=
  let host (k : Nat) : Bool := keyIsHost k
  let s := (s.l1s.map fun l => l.id).foldl (fun (s : State) id =>
    let s := s.performDirty id host
    let l := s.l1 id
    s.setL1 { l with clean := l.clean.filter fun e => !host (128 * e.1) }) s
  .next { s with snoopErr := s.snoopErr + 1, snoopSet := set }

/-! ## The per-slice reset (R449) -/

/-- R449: the contexts that a reset of a slice resets, a lessee's with a command on its engines among them. -/
def sliceCtxs (s : State) (sl : Nat) : List Nat :=
  (s.ctxs.map fun c => c.id).filter fun c =>
    s.allTeams.any (fun t => t.live && t.ctx = c && t.ppos / 128 = sl && t.ngrp ≠ 0)
      || s.clusters.any (fun k => k.id / 16 = sl && k.queue.any fun m => m.ctx = c)
      || s.copies.any (fun k => k.slice = sl && k.ctx = c) || s.cards.any (fun k => k.slice = sl && k.ctx = c)
      || (s.slice sl).binds.any fun b => b.ctx = c && b.rows < b.tileRows

/-- A controller core starts anew from its image. DESIGN CHOICE (log 2): sys.ctxsel, for which R364 gives no value at a reset, keeps the one
it has. -/
def restartCore (s : State) (mode : Mode) (ctl : Nat) (p : Group → Bool) : State :=
  s.mapGroups (fun g => g.live && g.mode = mode && p g) fun g =>
    { uid := g.uid, live := true, mode := mode, ctx := g.ctx, team := g.team, gid := g.gid, pc := Config.fwEntry ctl }

/-- R359, R449, R477: the controller of a slice starts anew from its image. -/
def restartSlice (s : State) (sl : Nat) : State :=
  restartCore s .slice sl fun g => match s.team? g.team with
    | some t => t.ppos / 128 = sl
    | none => false

/-- R449: a slice that was reset admits work again. -/
def sliceReady (s : State) (sl : Nat) : State :=
  let c := s.slice sl
  if c.resetting then s.setSlice { c with resetting := false } else s

/-- R457: the checkpoint streams of a VF end with ABORT. -/
def abortStreams (s : State) (vf : Nat) : State :=
  let mine := s.ckpts.filter fun c => c.ctx / 64 = vf
  mine.foldl (fun (s : State) c => finishCmd s c.fn stAbort 0) { s with ckpts := s.ckpts.filter fun c => c.ctx / 64 ≠ vf }

/-- R449: one slice is reset; `cause` is kept for REPORT. -/
def resetSlice (s : State) (sl : Nat) (cause : Byte) : State :=
  let c := s.slice sl
  let s := if c.state = 1 then
      let s := abortStreams s c.vf
      (sliceCtxs s sl).foldl resetContext s
    else s
  let ids := (s.l1s.filter fun l => l.id / 128 = sl).map fun l => l.id
  let s := ids.foldl (fun (s : State) id => ((s.performDirty id fun _ => true).ackAllDup id).l1Invalidate id) s
  let s := revokeOf s fun l => l.lslice = sl || (c.state = 1 && l.vf = c.vf && (s.vf l.vf).first + l.pslice = sl)
  let s := s.setSlice { s.slice sl with cause := cause, clk0 := s.clk, throttle := 16, goodWin := 0, resetting := true, cpyFrozen := [], splFrozen := [], encFrozen := false }
  let s := { s with clusters := s.clusters.map fun (k : Cluster) => if k.id / 16 = sl then { k with mfrozen := false, sfrozen := false } else k }
  restartSlice s sl

end Sys2Proof.Machine
end

