-- ==== Sys2Proof/Machine/Firmware.lean ====
section
/-! DEFINITION. Firmware and trust (R475–R477), the restart of controllers (R359, R449), bring-up and power (R478, R479),
and REPORT (R452). -/

namespace Sys2Proof.Machine

/-! ## Images and measurements -/

/-- The image of a slot. -/
def Fw.img (f : Fw) (slot : Nat) : List Byte := if slot = 0 then f.img0 else f.img1
/-- Whether the image of a slot is valid. -/
def Fw.ok (f : Fw) (slot : Nat) : Bool := if slot = 0 then f.ok0 else f.ok1
/-- A slot's contents replaced. -/
def Fw.put (f : Fw) (slot : Nat) (img : List Byte) (ok : Bool) : Fw :=
  if slot = 0 then { f with img0 := img, ok0 := ok } else { f with img1 := img, ok1 := ok }

/-- R476: an image that starts extends the register. -/
def Fw.extend (f : Fw) (img : List Byte) : Fw := { f with measure := extendMeasure f.measure img }

/-- FWSTAGE (R475). -/
def execFwstage (fn : Nat) : State → Res := pfCmd fn 0x30 fun s =>
  let target := cmdOp s fn 0
  let slot := cmdOp s fn 1
  if 17 ≤ target || 2 ≤ slot || (s.fw target).active = slot then .done s stBadArg 0
  else if (s.fw target).update = 1 then .done s stBusy 0
  else
    let img := s.rdMemN (hostKey (cmdOp s fn 2)) (cmdOp s fn 3)
    let ok := Config.imageValid img
    .done (s.setFw target ((s.fw target).put slot img ok)) (if ok then stOk else stBadSig) 0

/-- R477 step 5: the old image of a slice restarts, its digest extends the register again, and event 0x03 is posted. -/
def rollback (s : State) (sl : Nat) : State :=
  let f := s.fw sl
  if f.update ≠ 1 then s
  else restartSlice ((s.setFw sl { f.extend (f.img f.active) with update := 3 }).mailEvent 16 0x03 0 (BitVec.ofNat 64 sl) 0) sl

/-- R477 steps 1 to 4 for a slice: the state with the new image started, or the status of its failure. -/
def startUpdate (s : State) (sl : Nat) : State × Option Nat :=
  let f := s.fw sl
  let slot := 1 - f.active
  if !f.ok slot || !Config.imageValid (f.img slot) then (s, some stBadSig)
  else
    let s := restartSlice (s.setFw sl { f.extend (f.img slot) with update := 1, since := s.now }) sl
    if Config.imageReads (f.img slot) (f.img f.active) then (s, none)
    else
      let s := rollback s sl
      (s.setFw sl { s.fw sl with update := 0 }, some stRollback)

/-- R477: the update goes on with the first slice of the mask from `sl`. -/
def nextUpdate (s : State) (fn mask sl : Nat) : CmdEnd :=
  match (List.range 16).find? fun i => sl ≤ i && mask.testBit i with
  | none => .done s stOk 0
  | some i =>
    match startUpdate s i with
    | (s, some st) => .done s st 0
    | (s, none) => .more (setStage s fn (i + 1))

/-- FWUPDATE (R477): slice by slice, each until its heartbeat or its rollback. -/
def execFwupdate (fn : Nat) : State → Res := pfCmd fn 0x31 fun s =>
  let mask := cmdOp s fn 0
  match (s.mbox fn).stage with
  | 0 => if 2 ^ 16 ≤ mask then .done s stBadArg 0 else nextUpdate s fn mask 0
  | i + 1 =>
    let f := s.fw i
    match f.update with
    | 1 => .more s
    | 3 => .done (s.setFw i { f with update := 0 }) stRollback 0
    | _ => nextUpdate (s.setFw i { f with update := 0 }) fn mask (i + 1)

/-- R477: the time in which a new image posts its heartbeat, in ns. -/
def heartbeatLimit : Nat := 50000000

/-- FW_HEARTBEAT: within 50 ms of its start; the new image's slot becomes active. -/
def execFwHeartbeat (slice : Nat) (s : State) : Res :=
  let f := s.fw slice
  if f.update = 1 && s.now ≤ f.since + heartbeatLimit then .next (s.setFw slice { f with active := 1 - f.active, update := 2 }) else .next s

/-- FW_HEARTBEAT_TIMEOUT: 50 ms have passed. -/
def execFwHeartbeatTimeout (slice : Nat) (s : State) : Res :=
  .next (if s.now < (s.fw slice).since + heartbeatLimit then s else rollback s slice)

/-! ## Controllers that stop -/

/-- R449, R477, R476: a slice is reset; an update of it ends as a rollback; its controller starts again from the active image, which
extends the register. -/
def resetSliceFw (s : State) (sl : Nat) (cause : Byte) : State :=
  let s := resetSlice (rollback s sl) sl cause
  let f := s.fw sl
  s.setFw sl (if f.ok f.active then f.extend (f.img f.active) else f)

/-- SRESET. -/
def execSreset (fn : Nat) : State → Res := pfCmd fn 0x19 fun s =>
  let sl := cmdOp s fn 0
  if 16 ≤ sl then .done s stBadArg 0 else .done (resetSliceFw s sl 0x19) stOk 0

/-- SLICE_CONTROLLER_FAULT (R359): the device manager resets the slice. -/
def execSliceControllerFault (slice code : Nat) (s : State) : Res := .next (resetSliceFw s slice (BitVec.ofNat 8 code))

/-! ## Bring-up and power (R478, R479) -/

/-- R478: the slot a controller starts from: the valid one of higher version. -/
def Fw.bootSlot (f : Fw) : Option Nat :=
  match f.ok0, f.ok1 with
  | true, true => some (if Config.imageVersion f.img0 < Config.imageVersion f.img1 then 1 else 0)
  | true, false => some 0
  | false, true => some 1
  | false, false => none

/-- R476, R478: a controller starts from its valid slot of higher version, whose image extends its register. -/
def Fw.start (f : Fw) : Fw :=
  match f.bootSlot with
  | none => f
  | some i => { f.extend (f.img i) with active := i }

/-- R476, R478: a controller at power-on: its register is 0 before its image starts. -/
def Fw.boot (f : Fw) : Fw := Fw.start { f with measure := List.replicate 48 0, update := 0 }

/-- DEVICE_MANAGER_FAULT (R359, R478): the manager alone goes through steps 1 and 2 of bring-up again; without a valid image it
stays there. -/
def execDeviceManagerFault (s : State) : Res :=
  let s := restartCore s .device 16 fun _ => true
  let down := (s.fw 16).bootSlot.isNone
  .next { s.setFw 16 (s.fw 16).start with mgrDown := down, devState := if down || s.devState = 1 then 1 else 2 }

/-- R479: a device without power: nothing is kept but the images in flash, the fused masks, and what is not its own (host memory, inputs
to come). -/
def powerDown (s : State) : State :=
  { State.reset with
    tick := s.tick, agenda := s.agenda, powered := false, hostMem := s.hostMem, manifests := s.manifests, cmask := s.cmask, chmask := s.chmask,
    fws := (List.range 17).map fun n => (n, { s.fw n with measure := List.replicate 48 0, update := 0 }) }

/-- POWER_LOSS. -/
def execPowerLoss (s : State) : Res := .next (powerDown s)

/-- R478: the links have trained, and bring-up ends. -/
def endBringUp (s : State) : State := if s.devState = 1 && !s.mgrDown then { s with devState := 0 } else s

/-- POWER_ON (R478): bring-up, up to the training of the links, with which it ends (`endBringUp`); a device whose manager has no valid
image stays in it. -/
def execPowerOn (s : State) : Res :=
  if s.powered then .next s
  else
    let s1 := { powerDown s with powered := true }
    if (s1.fw 16).bootSlot.isNone then .next { s1 with devState := 1, mgrDown := true }
    else .next { (List.range 17).foldl (fun (s : State) n => s.setFw n (s.fw n).boot) s1 with devState := 1 }

/-- POWER_CAP_ADJUST (R479): the arithmetic clock of all slices changes; results never do. -/
def execPowerCapAdjust (mhz : Nat) (s : State) : Res := .next { s with mhz := max 1 (min 1200 mhz) }

/-! ## REPORT (R452) -/

/-- R452: the states of a slice: one that is being reset, or is still being zeroed, which is not free. -/
def reportState (c : Slice) : Nat := if c.resetting then 2 else if c.state = 4 then 1 else c.state

/-- R452: whether the controller of a slice answers: it has not stopped on a fault of its own (R359). -/
def sliceAnswers (s : State) (sl : Nat) : Bool :=
  !(s.allGroups.any fun g => g.live && g.mode = .slice && g.frozen && (match s.team? g.team with | some t => t.ppos / 128 = sl | none => false))

/-- The entry of a VF. -/
def vfPieces (s : State) (v : Nat) : List Piece :=
  let o := 0x40 + 48 * v
  let x := s.vf v
  let b (p : Bool) (n : Nat) : Nat := if p then 2 ^ n else 0
  let mine := s.ctxs.filter fun c => c.id / 64 = v
  if !x.present then [pc4 (o + 40) (s.mbox v).dropped.toNat]
  else
    [pc4 o (1 + x.first * 2 + x.j * 2 ^ 5 + b x.frozen 8 + x.coll.toNat * 2 ^ 9 + x.comp.toNat * 2 ^ 13 + b x.resize 15),
     pc8 (o + 8) (mine.map fun c => 2 ^ (c.id % 64)).sum, pc4 (o + 16) (s.partBytes v / 2 ^ 20),
     pc4 (o + 20) ((s.partSlices v).map fun sl => (s.slice sl).escal.length).sum, pc8 (o + 24) (mine.map fun c => c.bwMiss.toNat).sum,
     pc8 (o + 32) x.faultCards.toNat, pc4 (o + 40) (s.mbox v).dropped.toNat]

/-- R440: a lease record. -/
def leasePieces (i : Nat) (l : Lease) : List Piece :=
  let o := 0x340 + 32 * i
  [pc4 o (l.lslice + l.lpos * 2 ^ 4 + l.vf * 2 ^ 8 + l.intf * 2 ^ 12 + l.pslice * 2 ^ 18 + l.state * 2 ^ 22), pc8 (o + 8) l.limit.toNat,
   pc8 (o + 16) l.meter.toNat, pc8 (o + 24) l.start.toNat]

/-- The entry of an engine: collective 0–3, then compression 0–1. -/
def enginePieces (s : State) (e : Nat) : List Piece :=
  let o := 0x540 + 16 * e
  let holds (v : Vf) : Bool := v.present && (if e < 4 then v.coll.getLsbD e else v.comp.getLsbD (e - 4))
  let busy := s.cards.any fun k => k.engine = some e
  [pc4 o ((match s.vfs.find? holds with | some v => v.id + 16 | none => 0) + (if busy then 32 else 0)), pc8 (o + 8) (SMap.get 0 s.engDone e).toNat]

/-- The entry of a slice. -/
def slicePieces (s : State) (sl : Nat) : List Piece :=
  let o := 0x600 + 128 * sl
  let c := s.slice sl
  if !sliceAnswers s sl then [pc4 o 3]
  else
  [pc4 o (reportState c + c.vf * 4 + (s.clusterMask sl).toNat * 2 ^ 6), pc4 (o + 4) ((s.channelMask sl).toNat + c.throttle * 2 ^ 16),
   pc8 (o + 8) (Config.clockCount (s.tick + sl)).toNat, pc8 (o + 16) c.corr.toNat, pc8 (o + 24) c.uncorr.toNat, pc4 (o + 32) c.escal.length,
   pc4 (o + 36) (s.fw sl).active, (o + 40, 16, (c.queues.map fun e => if e.2.en then 2 ^ e.1 else 0).sum),
   pc4 (o + 56) (s.cards.countP fun k => k.slice = sl), pc4 (o + 60) (s.allTeams.countP fun t => t.live && t.ppos / 128 = sl && t.ngrp ≠ 0),
   pc8 (o + 64) s.now, pc4 (o + 72) c.heap.length, pc4 (o + 76) c.cause.toNat]

/-- A device event. -/
def eventPieces (i : Nat) (e : Byte × Nat × Nat × Nat × DWord × DWord) : List Piece :=
  let o := 0xE10 + 32 * i
  [pc4 o (e.1.toNat + e.2.1 * 2 ^ 8 + e.2.2.1 * 2 ^ 12 + e.2.2.2.1 % 256 * 2 ^ 16), pc8 (o + 8) e.2.2.2.2.1.toNat, pc8 (o + 16) e.2.2.2.2.2.toNat]

/-- R452: the summary. -/
def reportPieces (s : State) : List Piece :=
  [pc4 0 (1 + s.devState * 2 ^ 8), pc8 8 s.now, pc8 16 s.reports, pc4 24 0x00B00900, pc4 28 0x00092600,
   pc8 32 ((List.range 17).map fun n => (s.fw n).active * 4 ^ n).sum, pc4 40 (s.mbox 16).dropped.toNat]
    ++ (List.range 16).flatMap (vfPieces s)
    ++ ((s.leases.mapIdx leasePieces).flatten)
    ++ (List.range 6).flatMap (enginePieces s)
    ++ (List.range 16).flatMap (slicePieces s)
    ++ [pc8 0xE00 s.snoopErr, pc4 0xE08 s.snoopRec, pc4 0xE0C s.snoopSet]
    ++ (s.log.mapIdx eventPieces).flatten

/-- The bytes of pieces over n zero bytes. -/
def piecesBytes (n : Nat) (ps : List Piece) : List Byte :=
  let m : SMap Byte := ps.foldl (fun m p => SMap.setRun 0 m p.1 (leBytes p.2.1 p.2.2)) []
  SMap.getRun 0 m 0 n

/-- REPORT. -/
def execReport (fn : Nat) : State → Res := pfCmd fn 0x1A fun s =>
  let a := cmdOp s fn 0
  if a % 4096 ≠ 0 then .done s stBadArg 0
  else
    let s := { s with reports := s.reports + 1 }
    .done (s.memWrite (hostKey a) (piecesBytes 4096 (reportPieces s))) stOk 0

/-! ## SPDM (R476) -/

/-- A response of the SPDM responder. -/
def spdmAnswer (request : Nat) (s : State) : Res := .next { s with spdm := Config.spdmResponse s.tick request }

/-- GET_VERSION. -/
def execGetVersion : State → Res := spdmAnswer 0x84
/-- GET_CAPABILITIES. -/
def execGetCapabilities : State → Res := spdmAnswer 0xE1
/-- NEGOTIATE_ALGORITHMS. -/
def execNegotiateAlgorithms : State → Res := spdmAnswer 0xE3
/-- GET_DIGESTS. -/
def execGetDigests : State → Res := spdmAnswer 0x81
/-- GET_CERTIFICATE. -/
def execGetCertificate : State → Res := spdmAnswer 0x82
/-- CHALLENGE. -/
def execChallenge : State → Res := spdmAnswer 0x83
/-- GET_MEASUREMENTS: index 1 is the device manager's register, 2–17 the slice controllers'. -/
def execGetMeasurements (index : Nat) (s : State) : Res :=
  if index = 1 then .next { s with spdm := (s.fw 16).measure }
  else if 2 ≤ index && index ≤ 17 then .next { s with spdm := (s.fw (index - 2)).measure }
  else spdmAnswer 0xE0 s
/-- KEY_EXCHANGE. -/
def execKeyExchange : State → Res := spdmAnswer 0xE4
/-- FINISH. -/
def execFinish : State → Res := spdmAnswer 0xE5

end Sys2Proof.Machine
end

