-- ==== Sys2Proof/Machine/HostPort.lean ====
section
/-! DEFINITION. What arrives from outside: host requests over CXL (R467, R468, R400), peers (R471–R473), Ethernet (R474),
and the moments when stores and invalidations are performed (R134, R149). -/

namespace Sys2Proof.Machine

/-! ## Requests -/

/-- The bytes a request covers. -/
def reqBytes : MemReq → Nat
  | .read n => n
  | .write bs => bs.length
  | .add _ => 8
  | .cas _ _ => 8
  | .exch _ => 8
  | .send bs => bs.length

/-- R468, R472: whether a request is an atomic. -/
def reqAtomic : MemReq → Bool
  | .read _ => false
  | .write _ => false
  | .add _ => true
  | .cas _ _ => true
  | .exch _ => true
  | .send _ => false

/-- A request is answered with bytes. -/
def answer (s : State) (bs : List Byte) : State := { s with linkResp := bs, linkOk := true }
/-- A request is not served. -/
def refuse (s : State) : State := { s with linkResp := [], linkOk := false }

/-- The value an atomic leaves. -/
def reqNew (old : DWord) : MemReq → DWord
  | .add v => old + v
  | .cas c v => if old = c then v else old
  | .exch v => v
  | .read _ => old
  | .write _ => old
  | .send _ => old

/-- A request is performed at the point of coherence, at sys scope; poison is answered as a failure. -/
def serve (s : State) (key : Nat) (req : MemReq) : State :=
  match req with
  | .read n => if s.poisoned key n then refuse s else answer s (s.rdMemN key n)
  | .write bs => answer (s.memWrite key bs) []
  | .send _ => refuse s
  | r =>
    if s.poisoned key 8 then refuse s
    else
      let old : DWord := BitVec.ofNat 64 (s.rdMemNat key 8)
      answer (s.memWriteNat key 8 (reqNew old r).toNat) (leBytes 8 old.toNat)

/-- A request to a partition's physical space. -/
def servePart (s : State) (vf addr : Nat) (req : MemReq) : State :=
  if !(s.vf vf).present || s.partBytes vf < addr + reqBytes req || (reqAtomic req && addr % 8 ≠ 0) then refuse s
  else serve s (memKey vf addr) req

/-! ## The host -/

/-- HOST_MEM_ACCESS: `vf` 16 is the host's own memory. A VF's request names an interface by its PASID; one that names none
freezes the VF (R430, R400). -/
def execHostMemAccess (vf : Nat) (pasid : Option Nat) (addr : Nat) (req : MemReq) (s : State) : Res :=
  if reqAtomic req then .next (refuse s)
  else if 16 ≤ vf then .next (serve s (hostKey addr) req)
  else match pasid with
    | none => .next (refuse s)
    | some p =>
      if s.ctxs.any fun c => c.id / 64 = vf && c.pasid.toNat = p then .next (servePart s vf addr req)
      else if (s.vf vf).present then .next (refuse (freezeVf s vf true))
      else .next (refuse s)

/-- HOST_ATOMIC (R468): the host's update of a line it owns is a sys-scope atomic. -/
def execHostAtomic (vf addr : Nat) (req : MemReq) (s : State) : Res :=
  if reqAtomic req then .next (servePart s vf addr req) else .next (refuse s)

/-- HOST_UNSUPPORTED_REQUEST (R467). -/
def execHostUnsupportedRequest (s : State) : Res := .next (refuse s)

/-! ## Peers and Ethernet -/

/-- PEER_ACCESS (R472). -/
def execPeerAccess (vf addr : Nat) (req : MemReq) (s : State) : Res := .next (servePart s vf addr req)

/-- R474: the VF to which a queue pair is allotted. -/
def pairVf (s : State) (qp : Nat) : Option Nat :=
  (s.qpairs.find? fun q => q.1 ≤ qp && qp < q.1 + q.2.1).map fun q => q.2.2

/-- R474: the PF allots queue pairs of the device's 16,384 to VFs (first, count, VF), none of them twice. -/
def setQueuePairs (s : State) (qs : List (Nat × Nat × Nat)) : State :=
  let apart (a b : Nat × Nat × Nat) : Bool := a.1 + a.2.1 ≤ b.1 || b.1 + b.2.1 ≤ a.1
  let ok := qs.all (fun q => q.1 + q.2.1 ≤ 16384 && q.2.2 < 16)
    && (List.range qs.length).all fun i => (List.range i).all fun j => apart (qs.getD i (0, 0, 0)) (qs.getD j (0, 0, 0))
  if s.mgrDown || !ok then s else { s with qpairs := qs }

/-- ROCE_RECEIVE (R474): an operation for a queue pair that a VF with a collective engine has; EXCH is none of those that are supported.
DESIGN CHOICE (log 26): the bytes of a SEND go to the collective engine, and change no memory. -/
def execRoceReceive (qp addr : Nat) (req : MemReq) (s : State) : Res :=
  match pairVf s qp with
  | none => .next (refuse s)
  | some vf =>
    if State.popCount (s.vf vf).coll = 0 then .next (refuse s)
    else match req with
      | .exch _ => .next (refuse s)
      | .send _ => .next (answer s [])
      | r => .next (servePart s vf addr r)

/-- R471: the peer number of the device, which the device manager sets at bring-up. -/
def setPeerNumber (s : State) (domain peer : Nat) : State :=
  if s.devState = 1 && !s.mgrDown && domain < 64 && peer < 144 then { s with peerId := (domain, peer) } else s

/-- R471: the window registers of the device manager: at most 256, of multiples of 1 GiB, for peers 0 to 143. -/
def setPeerWindows (s : State) (ws : List (Nat × Nat × Nat)) : State :=
  if !s.mgrDown && ws.length ≤ 256 && ws.all fun w => w.1 % 2 ^ 30 = 0 && w.2.1 % 2 ^ 30 = 0 && w.2.2 < 144 then { s with peers := ws } else s

/-- R473, R474: whether a communicator of a context names a peer of the own domain. -/
def namesPeer (s : State) (ctx peer : Nat) : Bool :=
  (List.range (s.ctx ctx).ocount.toNat).any fun i =>
    match objCheck s ctx i 0x0B true false with
    | .fault _ => false
    | .ok ws =>
      let n := (ws.getD 2 0).toNat % 2 ^ 16
      commOk ws && (match engReadN s ctx 0 (wordPair ws 4) (16 * n) with
        | (_, .error _) => false
        | (_, .ok bs) => (List.range n).any fun m => fieldOf bs (16 * m) 1 % 64 = s.peerId.1 && fieldOf bs (16 * m + 1) 1 = peer)

/-- PEER_ACK_TIMEOUT (R473): the peer is lost; the PF and every VF with a communicator that names it hear of it. -/
def execPeerAckTimeout (peer : Nat) (s : State) : Res :=
  if s.lost.contains peer then .next s
  else
    let s := { s with lost := peer :: s.lost }
    let fns := 16 :: ((s.vfs.filter fun v => v.present && (ctxsOf s v.id).any fun c => namesPeer s c peer).map fun v => v.id)
    .next (fns.foldl (fun (s : State) fn => s.mailEvent fn 0x04 (fn % 16) (BitVec.ofNat 64 s.peerId.1) (BitVec.ofNat 64 peer)) s)

/-- PEER_PROBE (R473): an answered probe finds the peer again. -/
def execPeerProbe (peer : Nat) (answered : Bool) (s : State) : Res :=
  .next (if answered then { s with lost := s.lost.filter (· ≠ peer) } else s)

/-- WOREN_PORT_LOSS (R471): one port's loss lowers bandwidth only. -/
def execWorenPortLoss (port : Nat) (s : State) : Res := .next { s with ports := s.ports &&& ~~~(1#16 <<< port) }

/-! ## Stores on their way -/

/-- STORE_PERFORMED: the bytes of one 16-byte unit that an L1 holds dirty are performed. -/
def execStorePerformed (core key : Nat) (s : State) : Res := .next (s.performDirty core fun k => k / 16 = key / 16)

/-- DUPLICATE_ACKNOWLEDGE: an L1 acknowledges the invalidation of a line of a duplicated page. -/
def execDuplicateAcknowledge (core key : Nat) (s : State) : Res := .next (s.ackDup core (key / 128))

end Sys2Proof.Machine
end

