-- ==== Sys2Proof/Machine/Ckpt.lean ====
section
/-! DEFINITION. Checkpoints (R453–R460): the cut, the snapshot set, the stream and its commit. -/

namespace Sys2Proof.Machine

/-! ## The leaves of a context (R455) -/

/-- What a table entry is to a checkpoint. -/
inductive LeafKind where
  | device (e sz : Nat)
  | host (e sz : Nat)
  | first
  | bad (lvl : Nat)
deriving DecidableEq, Repr

/-- The entries that a table at `base` of level `lvl`, for addresses from `va`, gives the snapshot set. -/
def captureTable (s : State) (vf size ptwin : Nat) : Nat → Nat → Nat → List (Nat × LeafKind)
  | lvl, base, va =>
    (List.range 512).flatMap fun i =>
      let k := memKey vf (base + 8 * i)
      let e := s.rdMemNat k 8
      let at_ := va + i * 2 ^ (12 + 9 * lvl)
      let g := s.rdMemNat (memKey vf (base + 8 * (i / 16 * 16))) 8
      if lvl = 0 && i % 16 ≠ 0 && pteBit g 0 && pteBit g 6 then []
      else if !pteBit e 0 then (if lvl = 0 && pteBit e 9 then [(at_, .first)] else [])
      else if pteMalformed size e lvl i then [(at_, .bad lvl)]
      else if pteBit e 1 then
        (let sz := leafSize lvl (pteBit e 6)
         if pteBit e 47 then [(at_, .host e sz)] else if inWindow ptwin at_ then [] else [(at_, .device e sz)])
      else match lvl with
        | 0 => []
        | l + 1 => captureTable s vf size ptwin l (pteFrame e) at_

/-- R460: the flags of a leaf. -/
def leafFlags (e sz : Nat) : Nat :=
  let b (i n : Nat) : Nat := if pteBit e i then 2 ^ n else 0
  sz + b 3 2 + b 4 3 + b 5 4 + b 10 5 + b 7 6 + b 8 7

/-- A virtual address as a record's key. -/
def vaKey (va : Nat) : DWord := (BitVec.ofNat 57 va).signExtend 64

/-- R460: the records of a captured entry. -/
def leafRecs (vf : Nat) (x : Nat × LeafKind) : List CkptRec :=
  match x.2 with
  | .device e sz =>
    let k := memKey vf (pteFrame e)
    [{ kind := 0x01, flags := leafFlags e sz, rkey := vaKey x.1, frame := some (k, leafBytes sz), len := leafBytes sz }]
  | .host e sz => [{ kind := 0x03, flags := leafFlags e sz, rkey := vaKey x.1, data := leBytes 8 (pteFrame e), len := 8 }]
  | .first => [{ kind := 0x02, rkey := vaKey x.1 }]
  | .bad lvl => [{ kind := 0x0D, rkey := vaKey x.1, data := leBytes 8 lvl, len := 8 }]

/-! ## The other records -/

/-- A record with data at hand. -/
def dataRec (kind key : Nat) (bs : List Byte) : CkptRec :=
  { kind := BitVec.ofNat 8 kind, rkey := BitVec.ofNat 64 key, data := bs, len := bs.length }

/-- R386: a translation block. -/
def xblockBytes (x : XBlock) : List Byte :=
  leBytes 8 x.root.toNat ++ leBytes 8 x.gen.toNat ++ leBytes 8 x.dstride.toNat ++ leBytes 8 x.ptwin.toNat ++ leBytes 8 x.pool.toNat
    ++ List.replicate 24 0
/-- R403: a scheduling block. -/
def sblockBytes (b : SBlock) : List Byte :=
  leBytes 8 b.sump.toNat ++ leBytes 2 b.nslot.toNat ++ leBytes 2 b.nclu.toNat ++ leBytes 2 b.grace.toNat ++ leBytes 2 b.kill.toNat
    ++ leBytes 8 b.wdog.toNat ++ leBytes 8 b.hscr.toNat ++ List.replicate 32 0
/-- The context blocks: the translation and scheduling blocks, then the registers of R364 in their order and the offset of
the timebase (R463), 8 bytes each. -/
def ctxBytes (x : Ctx) : List Byte :=
  xblockBytes x.xb ++ sblockBytes x.sb ++ leBytes 8 x.hvec.toNat ++ leBytes 8 x.hlbase.toNat ++ leBytes 8 (if x.ucnt then 1 else 0)
    ++ leBytes 8 x.otab.toNat ++ leBytes 8 x.ocount.toNat ++ leBytes 8 x.clkOff.toNat ++ List.replicate 80 0

/-- R402: a queue descriptor. -/
def queueBytes (q : QDesc) : List Byte :=
  let b (p : Bool) (n : Nat) : Nat := if p then 2 ^ n else 0
  leBytes 4 (b q.en 0 + b q.cls 1 + b q.raster 2 + b q.chainok 3 + q.qgroup.toNat * 2 ^ 4 + q.weight.toNat * 2 ^ 8 + b q.vsync 16)
    ++ leBytes 4 q.ctx.toNat ++ leBytes 8 q.hdr.toNat ++ leBytes 8 q.dl.toNat ++ leBytes 4 q.period.toNat ++ leBytes 4 q.starve.toNat
    ++ leBytes 8 q.misses.toNat ++ leBytes 8 q.synth.toNat ++ List.replicate 16 0

/-- The key of a context's cluster areas' valid bits. -/
def validAreas (s : State) (ctx : Nat) : List (Nat × Nat) :=
  (List.range (s.ctx ctx).sb.nclu.toNat).filterMap fun k =>
    match areaKey s ctx k with
    | none => none
    | some a => if s.rdMemNat a 1 % 4 = 0 then none else some (k, a)

/-- R455, R460: the records of a context at the cut, in the order of their kinds. -/
def captureRecs (s : State) (ctx : Nat) : List CkptRec :=
  let vf := ctx / 64
  let x := s.ctx ctx
  let leaves := (captureTable s vf (s.partBytes vf) x.xb.ptwin.toNat 4 x.xb.root.toNat 0).flatMap (leafRecs vf)
  let parts := s.partSlices vf
  let queues := parts.flatMap fun sl => ((s.slice sl).queues.filter fun e => 64 * vf + e.2.ctx.toNat = ctx).map fun e =>
    dataRec 0x05 (relSl s ctx sl + 2 ^ 8 * e.1) (queueBytes e.2)
  let heaps := parts.filterMap fun sl =>
    match orderBy (fun e : HeapEntry => [e.seq]) ((s.slice sl).heap.filter fun e => e.ctx = ctx) with
    | [] => none
    | es => some (dataRec 0x06 (relSl s ctx sl) (es.flatMap fun e => leBytes 4 e.key.toNat ++ leBytes 4 e.val.toNat))
  let frameRec (kind key a n : Nat) : CkptRec :=
    { kind := BitVec.ofNat 8 kind, rkey := BitVec.ofNat 64 key, frame := some (a, n), len := n }
  let slots := ((List.range x.sb.nslot.toNat).filter fun i => x.sb.sump ≠ 0 && slotUsed s ctx i).map fun i =>
    frameRec 0x08 i (sumpSlot s ctx i) (2 ^ 21)
  let areas := (validAreas s ctx).map fun e => frameRec 0x09 e.1 e.2 (2 ^ 21)
  let sinter := (savedRegions s ctx).map fun r => frameRec 0x0A r.toNat (sinterKey s ctx r) 0x8000
  let counts := ((List.range 20).flatMap fun n => leBytes 8 (SMap.get 0 x.cnt n).toNat)
    ++ (List.range 16).flatMap fun n => leBytes 4 (SMap.get 0 x.sel n).toNat
  leaves ++ [dataRec 0x04 0 (ctxBytes x)] ++ queues ++ heaps
    ++ [{ dataRec 0x07 0 (s.rdMemN (memKey vf x.otab.toNat) (64 * x.ocount.toNat)) with
          flags := if s.poisoned (memKey vf x.otab.toNat) (64 * x.ocount.toNat) then 1 else 0 }] ++ slots ++ areas ++ sinter ++ [dataRec 0x0B 0 counts]

/-- A number rounded up to a multiple. -/
def alignUp (n m : Nat) : Nat := (n + m - 1) / m * m

/-- R455, R460: a record once its frame has been read: with the frame's bytes, and marked where poison stood in it, a page by a record
of its own. -/
def settledRec (snaps : List Snap) (r : CkptRec) : List CkptRec :=
  match r.frame.bind fun f => snaps.find? fun p => p.frame = f with
  | none => [r]
  | some p =>
    if r.kind = 0x01 then { r with data := p.bytes } :: (if p.bad then [{ kind := 0x0C, rkey := r.rkey }] else [])
    else [{ r with data := p.bytes, flags := if p.bad then 1 else 0 }]

/-- R460: the records with their places: pages at multiples of 4 KiB, other data at multiples of 64; an alias has the place
and the check of the first leaf of its frame and no length. Also the end of the data. -/
def placeRecs : List CkptRec → List CkptRec → Nat → List CkptRec × Nat
  | [], done, at_ => (done.reverse, at_)
  | r :: rs, done, at_ =>
    match (if r.kind = 0x01 then done.find? fun d => d.kind = 0x01 && d.frame = r.frame else none) with
    | some d => placeRecs rs ({ r with off := d.off, crc := d.crc, len := 0 } :: done) at_
    | none =>
      if r.len = 0 then placeRecs rs (r :: done) at_
      else
        let o := alignUp at_ (if r.frame.isSome then 4096 else 64)
        placeRecs rs ({ r with off := o, crc := crc32c r.data } :: done) (o + r.len)

/-- R460: the records of a stream that has read every frame, in their places, and the end of the data. -/
def Ckpt.placed (c : Ckpt) : List CkptRec × Nat :=
  let rs := c.recs.flatMap (settledRec c.snaps)
  placeRecs rs [] (0x1000 + 32 * rs.length)

/-! ## The commit (R458, R459) -/

/-- A commit of a slot is valid. -/
def commitValid (s : State) (slot : Nat) : Bool :=
  let bs := s.rdMemN (hostKey slot) 64
  fieldOf bs 0 4 = (crc32c (bs.drop 4)).toNat && fieldOf bs 4 1 = 1
/-- A commit's generation. -/
def commitGen (s : State) (slot : Nat) : Nat := s.rdMemNat (hostKey slot + 8) 8
/-- R458: the slot a checkpoint writes. -/
def targetSlot (s : State) (m0 m1 : Nat) : Nat :=
  match commitValid s m0, commitValid s m1 with
  | false, _ => m0
  | true, false => m1
  | true, true => if commitGen s m1 < commitGen s m0 then m1 else m0

/-- R460: a record of the table. -/
def recBytes (r : CkptRec) : List Byte :=
  leBytes 4 (r.kind.toNat + r.flags * 2 ^ 8) ++ leBytes 4 r.crc.toNat ++ leBytes 8 r.rkey.toNat ++ leBytes 8 r.off ++ leBytes 8 r.len

/-- R459: the commit over the records. -/
def commitBytes (c : Ckpt) (recs : List CkptRec) : List Byte :=
  let table := recs.flatMap recBytes
  let body := leBytes 4 (1 + c.nsl * 2 ^ 8) ++ leBytes 8 c.gen.toNat ++ leBytes 8 c.tcut.toNat ++ leBytes 4 recs.length
    ++ leBytes 4 (crc32c table).toNat ++ leBytes 8 (recs.map fun r => r.len).sum ++ leBytes 8 c.pasid.toNat
    ++ List.replicate 16 0
  leBytes 4 (crc32c body).toNat ++ body

/-! ## The cut (R454) -/

/-- What a cut keeps beside the records. -/
def keepOf (s : State) (ctx slot : Nat) (gen : DWord) : Manifest :=
  let keys := usedSlots s ctx
  let rank (k : Nat) : Nat := 2 ^ 21 * (keys.findIdx fun x => inSlot x k)
  let off (k : Nat) : Nat := match keys.find? fun x => inSlot x k with | some x => k - x | none => 0
  { host := slot, gen := gen, slots := (s.ctx ctx).savedSl
    cards := (s.cards.filter fun k => k.ctx = ctx).map fun k => { k with slice := relSl s ctx k.slice }
    queues := (s.partSlices (ctx / 64)).foldl (fun m sl =>
      ((s.slice sl).queues.filter fun e => 64 * (ctx / 64) + e.2.ctx.toNat = ctx).foldl (fun m e => SMap.insert m (relSl s ctx sl + 2 ^ 8 * e.1) e.2) m) []
    kept := (s.kept.filter fun k => keys.any fun x => inSlot x k.key).map fun k => { k with key := rank k.key + off k.key }
    keptT := (s.keptT.filter fun k => keys.contains k.key).map fun k => { k with key := rank k.key } }

/-- R454 steps 2 to 4: the cut is taken, with every byte that stands last in coherence order performed first (R455), and the context
resumes. -/
def takeCut (s : State) (fn ctx m0 m1 cap : Nat) : State :=
  let s := launchRelease s fn
  let slot := targetSlot s m0 m1
  let x := s.ctx ctx
  let gen := x.snapGen + 1
  let recs := captureRecs s ctx
  let frames := orderBy (fun f : Nat × Nat => [f.1, f.2]) (recs.filterMap fun r => r.frame).eraseDups
  let c : Ckpt :=
    { ctx := ctx, fn := fn, slot := slot, cap := cap, gen := gen, tcut := BitVec.ofNat 64 s.now, nsl := 2 ^ (s.vf fn).j, recs := recs,
      uncopied := frames, pasid := x.pasid, keep := keepOf s ctx slot gen }
  let s := s.memWrite (hostKey slot) (List.replicate 64 0)
  { s.setCtx { s.ctx ctx with snapGen := gen, quiesce := false } with ckpts := s.ckpts ++ [c] }

/-- R454 step 1: whether the context stands still: no team of it is resident, its started cards of other kinds have run to
completion, and no copy runs into a slot. -/
def cutReady (s : State) (ctx : Nat) : Bool :=
  s.allTeams.all (fun t => !(t.live && t.ctx = ctx && t.ngrp ≠ 0))
    && s.cards.all (fun k => !(k.ctx = ctx && k.launch.isNone && k.phase ≠ .admitted))
    && (usedSlots s ctx).all fun key => !slotRedir s key

/-- R453: a hard halt outlived the kill timer: admission resumes. -/
def undoCut (s : State) (ctx : Nat) : State :=
  let s := s.setCtx { s.ctx ctx with quiesce := false }
  ((s.allTeams.filter fun t => t.live && t.ctx = ctx).map fun t => t.uid).foldl ladderUndo s

/-- CKPT: it quiesces the context, takes the cut, and goes on until its stream ends. -/
def execCkpt (fn : Nat) : State → Res := vfCmd fn 0x20 fun s =>
  let ctx := intfCtx fn (cmdOp s fn 0)
  let m0 := cmdOp s fn 1
  let m1 := cmdOp s fn 2
  let cap := cmdOp s fn 3
  let leasing := s.leases.any fun l => l.state = 1 && l.vf = fn
  match (s.mbox fn).stage with
  | 0 =>
    if 64 ≤ cmdOp s fn 0 || !inUse s ctx || m0 % 4096 ≠ 0 || m1 % 4096 ≠ 0 || cap % 4096 ≠ 0 || cap < 8192 then .done s stBadArg 0
    else if (s.vf fn).resize || leasing || s.ckpts.any fun c => c.ctx = ctx then .done s stBusy 0
    else .more (setStage (s.setCtx { s.ctx ctx with quiesce := true }) fn 1)
  | 1 =>
    let mine := s.allTeams.filter fun t => t.live && t.ctx = ctx && t.ngrp ≠ 0
    let s := pollSoft ((mine.map fun t => t.uid).foldl softHalt s)
    let late (t : Team) : Bool := t.live && t.ctx = ctx && (match t.hardAt with
      | none => false
      | some h => h + 1000000 * max 1 (s.ctx ctx).sb.kill.toNat ≤ s.now)
    if s.allTeams.any late then .done (undoCut s ctx) stBusy 0
    else if cutReady s ctx then .more (setStage (takeCut s fn ctx m0 m1 cap) fn 2)
    else .more s
  | _ => .more s

/-! ## The stream (R456–R458) -/

/-- R456: the writers that wait for a frame. -/
def frameWaiters (s : State) (f : Nat × Nat) : List Writer :=
  (s.logq.filter fun e => frameLock f.1 ≤ e.1 && e.1 < frameLock (f.1 + f.2) && stillHeld s e.2).map fun e => e.2

/-- The frame that is copied next: one that a held write waits for, else the lowest. -/
def nextFrame (s : State) (c : Ckpt) : Option (Nat × Nat) :=
  match c.uncopied.find? fun f => c.snaps.any (fun p => p.frame = f) || !(frameWaiters s f).isEmpty with
  | some f => some f
  | none => c.uncopied.head?

/-- CKPT_FRAME_COPIED: the stream has read a frame; the writers that the frame has held try again, in the order they were held. -/
def execCkptFrameCopied (ctx : Nat) (s : State) : Res :=
  match s.ckpts.find? fun c => c.ctx = ctx with
  | none => .next s
  | some c =>
    match nextFrame s c with
    | none => .next s
    | some f =>
      let snaps := if c.snaps.any fun p => p.frame = f then c.snaps else readFrame s f :: c.snaps
      let again := (frameWaiters s f).flatMap fun w => ((w.stream? s).map issueActions).getD []
      .next { s with
        agenda := again ++ s.agenda
        ckpts := s.ckpts.map fun d => if d.ctx = ctx then { d with uncopied := d.uncopied.filter (· ≠ f), snaps := snaps } else d }

/-- CKPT_STREAM_END: the data, the table and then the commit are written, unless a host write has failed (`ok`) or they do not fit. -/
def execCkptStreamEnd (ctx : Nat) (ok : Bool) (s : State) : Res :=
  match s.ckpts.find? fun c => c.ctx = ctx with
  | none => .next s
  | some c =>
    let over_ := { s with ckpts := s.ckpts.filter fun d => d.ctx ≠ ctx }
    if !ok then .next (finishCmd over_ c.fn stAbort 0)
    else if !c.uncopied.isEmpty then .next s
    else if c.cap < c.placed.2 then .next (finishCmd over_ c.fn stNoRoom 0)
    else
      let recs := c.placed.1
      let s1 := recs.foldl (fun (s : State) r =>
        if r.len ≠ 0 then s.memWrite (hostKey (c.slot + r.off)) r.data else s) over_
      let s1 := s1.memWrite (hostKey (c.slot + 0x1000)) (recs.flatMap recBytes)
      let s1 := s1.memWrite (hostKey c.slot) (commitBytes c recs)
      .next (finishCmd { s1 with manifests := c.keep :: s1.manifests.filter fun m => m.host ≠ c.slot } c.fn stOk c.gen)

end Sys2Proof.Machine
end

