-- ==== Sys2Proof/Machine/FragMatrix.lean ====
section
/-! DEFINITION. The fragment matrix of a core (R270, R271): FMMA, FMLD and FMST, on tiles spread over the 32 lanes. -/

namespace Sys2Proof.Machine

/-! ## Fragments -/

/-- The bytes of a fragment that one lane holds: an operand fragment's 16, an accumulator fragment's 32. -/
def fragLane (acc : Bool) : Nat := if acc then 32 else 16

/-- The offset from the base of the fragment byte f, by row stride (R271); `bw` is the element's bytes for `.tr`. -/
def fragOffset (acc : Bool) (tr : Option Nat) (stride f : Nat) : Nat :=
  match tr with
  | some bw => f % 32 / bw * stride + f / 32 * bw + f % bw
  | none => let rb := if acc then 64 else 32; f / rb * stride + f % rb

/-- The register value of lane l at run register k of a list of fragment bytes kept by unit: (first byte, value, bytes). -/
def fragReg (units : List (Nat × Nat × Nat)) (f : Nat) : Word :=
  units.foldl (fun w u => if f ≤ u.1 && u.1 < f + 4 then w ||| BitVec.ofNat 32 (u.2.1 * 2 ^ (8 * (u.1 - f))) else w) 0

/-! ## FMMA -/

/-- R260: the type codes of a format block. -/
def fmtType (fmt : QWord) (lo : Nat) : Option NType := NType.ofCode (fmt.extractLsb' lo 4)

/-- R270: a type FMMA takes. -/
def fragType : NType → Bool
  | .bf16 => true | .f16 => true | .e4m3 => true | .e5m2 => true | _ => false

/-- The byte f of an operand fragment, and the code of the element of `w` bits that begins there. -/
def fragElem (w : Nat) (rd : Nat → Nat → Word) (f : Nat) : Nat :=
  (rd (f % 16 / 4) (f / 16)).toNat / 2 ^ (8 * (f % 4)) % 2 ^ w

/-- R270: element (i, j) of C + A × B with its flags. -/
def fragDot (ta tb : NType) (a b : Nat → Nat → Word) (c : Word) (i j : Nat) : Word × Flags :=
  let wide := ta.bits = 16 || tb.bits = 16
  let ps := (List.range (if wide then 16 else 32)).map fun k =>
    XReal.mul (fpValue ta (fragElem ta.bits a (32 * i + k * (ta.bits / 8))))
      (fpValue tb (fragElem tb.bits b (32 * j + k * (tb.bits / 8))))
  accRun (if wide then 8 else 16) c ps

/-- R270, R401: whether an uncorrectable error stands in register k of an operand in a lane. -/
def fragBad (s : State) (o : Src) (k l : Nat) : Bool :=
  match o with
  | .vec r => s.g.badRegs.contains (32 * (r.toNat + k) + l)
  | .chan _ _ => false

/-- R270: register k of source i of an FMMA in a lane; zero where an error stands in it. -/
def LCtx.fragVal (c : LCtx) (s : State) (i : Nat) (o : Src) (k l : Nat) : Word := if fragBad s o k l then 0 else c.val s i o k l

/-- R270: whether an FMMA replaces a register element by zero: of A or B in any lane, of C in an active one. -/
def LCtx.fragZrep (c : LCtx) (s : State) (ra rb rc : Src) : Bool :=
  (List.range 32).any (fun l => (List.range 4).any fun k => fragBad s ra k l || fragBad s rb k l)
    || c.lanes.any fun l => (List.range 8).any fun k => fragBad s rc k l

/-- R270, R401: the errors of the registers that an FMMA writes are gone. -/
def clearBad (d : Dst) (ls : List Nat) (s : State) : State :=
  match d with
  | .chan _ => s
  | .vec r => s.mapG fun g =>
    { g with badRegs := g.badRegs.filter fun e => !(r.toNat ≤ e / 32 && e / 32 < r.toNat + 8 && ls.contains (e % 32)) }

/-- FMMA (R270): A, B and C are read from every lane, D is written in the active ones. A register element that an uncorrectable
error has taken counts as zero, and sets zrep (R73). -/
def execFmma (h : LHdr) (d : Dst) (a b c : Src) (s : State) : Res :=
  match fmtType s.g.fmt 0, fmtType s.g.fmt 4 with
  | some ta, some tb =>
    if !(fragType ta && fragType tb) || s.g.fmt.extractLsb' 8 4 ≠ 0 then illegalL h s
    else
      laneRunT true false h (vDs 8 d) (dstRun 8 d ++ srcRun 4 a ++ srcRun 4 b ++ srcRun 8 c) [a, b, c] (some d) (fun x s =>
        let rs := x.lanes.map fun l => (l, (List.range 8).map fun r =>
          let e := 8 * l + r
          fragDot ta tb (x.fragVal s 0 a) (x.fragVal s 1 b) (x.fragVal s 2 c r l) (e / 16) (e % 16))
        let fs := (if x.act ≠ 0 && x.fragZrep s a b c then [fZrep] else []) ++ rs.flatMap fun o => o.2.map fun v => v.2
        x.endL (flagAll fs (x.put true d (rs.map fun o => (o.1, o.2.map fun v => v.1)) (clearBad d x.lanes s)))) s
  | _, _ => illegalL h s

/-! ## FMLD and FMST -/

/-- R271: the source of the address, its displacement, and the virtual address or offset of an offset from it. -/
def addrSrc : MAddr → Src
  | .glob _ a _ => a | .sp a _ => a | .rf a _ => a

/-- The displacement of an address operand. -/
def addrDisp : MAddr → BitVec 20
  | .glob _ _ d => d | .sp _ d => d | .rf _ d => d

/-- The access of n bytes at an offset of an address operand's space. -/
def placeM (s : State) (m : MAddr) (off : Int) (n : Nat) (acc : Acc) : State × Placed :=
  match m with
  | .glob t _ _ => placeT s t.toNat off n acc
  | .sp _ _ => (s, placeIn s.t.wsize off n .sp)
  | .rf _ _ => (s, placeIn roofSize off n .rf)

/-- R271, R390: the address that must be a multiple of 16. -/
def fragAddr (s : State) (m : MAddr) (off : Int) : DWord :=
  match m with
  | .glob t _ _ => (s.g.blockT t.toNat).baseVA + BitVec.ofInt 64 off
  | _ => BitVec.ofInt 64 off

/-- The units of the active lanes, placed: lane, fragment byte and place. -/
structure FragPlaced where
  s      : State
  units  : List (Nat × Nat × Place)
  faults : SMap (Byte × DWord)
  full   : Bool

/-- R271: the units of `u` bytes of every active lane, placed; a lane's first fault is its fault. -/
def placeFrag (m : MAddr) (acc : Bool) (tr : Option Nat) (u : Nat) (base : Int) (stride : Nat) (a : Acc) (ls : List Nat)
    (s : State) : FragPlaced :=
  let n := fragLane acc
  let fs := ls.flatMap fun l => (List.range (n / u)).map fun i => (l, n * l + u * i)
  fs.foldl (fun r lf =>
    match placeM r.s m (base + fragOffset acc tr stride lf.2) u a with
    | (s, .at_ p) => { r with s := s, units := r.units ++ [(lf.1, lf.2, p)] }
    | (s, .fault code addr) =>
      { r with s := s, faults := if (SMap.find r.faults lf.1).isSome then r.faults
          else SMap.insert r.faults lf.1 (BitVec.ofNat 8 code, addr) }
    | (s, .full) => { r with s := s, full := true }) { s := s, units := [], faults := [], full := false }

/-- R271: the misaligned base or stride of the lowest active lane, a fault of every active lane. -/
def fragMisaligned (c : LCtx) (addr : DWord) (stride : Nat) (s : State) : Option Res :=
  if addr.toNat % 16 = 0 && stride % 16 = 0 then none
  else some (c.endOr (c.lanes.map fun l => (l, ((0x03 : Byte), addr))) s)

/-- R10: the units of a fragment access in the order in which they take effect: lane by lane, in any order of the lanes. -/
def FragPlaced.inOrder (r : FragPlaced) : List (Nat × Nat × Place) :=
  (laneSeq r.s (r.units.map fun x => x.1).eraseDups).flatMap fun l => r.units.filter fun x => x.1 = l

/-- R401: the units read, with the faults of their data. -/
def readFrag (u : Nat) (r : FragPlaced) : State × List (Nat × Nat × Nat) × SMap (Byte × DWord) :=
  r.inOrder.foldl (fun a x =>
    match placePoison a.1 u x.2.2 with
    | some va => (a.1, a.2.1, if (SMap.find a.2.2 x.1).isSome then a.2.2 else SMap.insert a.2.2 x.1 ((0x0D : Byte), va))
    | none =>
      let rd := readPlace a.1 u .plain .grp x.2.2
      (rd.1, a.2.1 ++ [(x.2.1, rd.2, u)], a.2.2)) (r.s, [], r.faults)

/-- FMLD (R271). DESIGN CHOICE (log 7): R271 does not say whether the row stride is signed; it is read as a natural number. -/
def execFmld (h : LHdr) (ty : NType) (acc tr : Bool) (d : Dst) (m : MAddr) (b : Src) (s : State) : Res :=
  let n := if acc then 8 else 4
  let bw := ty.bits / 8
  let u := if tr then bw else 4
  if !spaceLegal s (.ofM m) then illegalL h s
  else
    laneMem h (vDs n d) (dstRun n d ++ srcRun 1 (addrSrc m) ++ srcRun 1 b) [(addrSrc m), b] (some d) (fun c s =>
      match c.lanes with
      | [] => c.endL s
      | _ :: _ =>
        let l0 := c.lead
        let off := (c.val s 0 (addrSrc m) 0 l0).toInt + (addrDisp m).toInt
        let stride := (c.val s 1 b 0 l0).toNat
        match fragMisaligned c (fragAddr s m off) stride s with
        | some r => r
        | none =>
          let r := placeFrag m acc (if tr then some bw else none) u off stride .rd c.lanes s
          if r.full then c.waitLog r.s
          else if !placesFull r.s (r.units.map fun x => (x.1, x.2.2)) u then c.wait
          else
            let (s, units, faults) := readFrag u r
            let ok := c.lanes.filter fun l => (SMap.find faults l).isNone
            let outs : Outs := ok.map fun l => (l, (List.range n).map fun k => fragReg units (fragLane acc * l + 4 * k))
            c.endOr faults (c.put true d outs s)) s

/-- FMST (R271): the bytes of active lanes, by lane and register of the run from C; a helper lane's too, which R279 does not except.
Where lanes write one place, any of their values stands (R143, log 7). The row stride is read as FMLD reads it (log 7). -/
def execFmst (h : LHdr) (_ty : NType) (acc : Bool) (m : MAddr) (b c : Src) (s : State) : Res :=
  let n := if acc then 8 else 4
  if !spaceLegal s (.ofM m) then illegalL h s
  else
    laneMem h [] (srcRun n c ++ srcRun 1 (addrSrc m) ++ srcRun 1 b) [(addrSrc m), b, c] none (fun x s =>
      match x.lanes with
      | [] => x.endL s
      | _ :: _ =>
        let l0 := x.lead
        let off := (x.val s 0 (addrSrc m) 0 l0).toInt + (addrDisp m).toInt
        let stride := (x.val s 1 b 0 l0).toNat
        match fragMisaligned x (fragAddr s m off) stride s with
        | some r => r
        | none =>
          let r := placeFrag m acc none 4 off stride .wr x.lanes s
          if r.full then x.waitLog r.s
          else
            let s := r.inOrder.foldl (fun s e =>
              let k := e.2.1 % fragLane acc / 4
              if (SMap.find r.faults e.1).isSome then s
              else writePlace s .grp (bytesOf [x.val x.s0 2 c k e.1]) e.2.2) r.s
            x.endOr r.faults s) s

end Sys2Proof.Machine
end

