-- ==== Sys2Proof/Machine/Restore.lean ====
section
/-! DEFINITION. Restore (R461–R463): the checks of a manifest, new tables and frames, and the state that comes back. -/

namespace Sys2Proof.Machine

/-! ## Reading a manifest -/

/-- The records of a slot. -/
def readRecs (s : State) (slot : Nat) : List CkptRec :=
  let n := s.rdMemNat (hostKey slot + 24) 4
  (List.range n).map fun i =>
    let bs := s.rdMemN (hostKey (slot + 0x1000 + 32 * i)) 32
    { kind := BitVec.ofNat 8 (fieldOf bs 0 1), flags := fieldOf bs 1 1, crc := BitVec.ofNat 32 (fieldOf bs 4 4),
      rkey := BitVec.ofNat 64 (fieldOf bs 8 8), off := fieldOf bs 16 8, len := fieldOf bs 24 8 }

/-- The bytes that a record's check covers: an alias has those of its page. -/
def recSize (r : CkptRec) : Nat := if r.kind = 0x01 then leafBytes (r.flags % 4) else r.len

/-- R461: the checks of a record, in a slot whose data ends at `stop`. -/
def recOk (s : State) (slot stop : Nat) (r : CkptRec) : Bool :=
  let k := r.kind.toNat
  let n := recSize r
  1 ≤ k && k ≤ 0x0D && ((k ≠ 1 && k ≠ 3) || r.rkey.toNat % leafBytes (r.flags % 4) = 0) && (k ≠ 1 || r.len = 0 || r.len = n)
    && (n = 0 || (r.off + n ≤ stop && crc32c (s.rdMemN (hostKey (slot + r.off)) n) = r.crc))

/-- R461: a slot has a valid commit, and its records pass their checks. -/
def slotGood (s : State) (slot : Nat) : Bool :=
  let rs := readRecs s slot
  let n := rs.length
  let stop := rs.foldl (fun m r => max m (r.off + r.len)) 0
  commitValid s slot && crc32c (s.rdMemN (hostKey (slot + 0x1000)) (32 * n)) = BitVec.ofNat 32 (s.rdMemNat (hostKey slot + 28) 4)
    && (rs.map fun r => r.len).sum = s.rdMemNat (hostKey slot + 32) 8 && rs.all (recOk s slot stop)

/-- R461: the slot that a restore uses: of the good ones the one of higher generation. -/
def pickSlot (s : State) (m0 m1 : Nat) : Option Nat :=
  match slotGood s m0, slotGood s m1 with
  | true, true => some (if commitGen s m0 < commitGen s m1 then m1 else m0)
  | true, false => some m0
  | false, true => some m1
  | false, false => none

/-- The records of a kind. -/
def ofKind (rs : List CkptRec) (k : Nat) : List CkptRec := rs.filter fun r => r.kind.toNat = k
/-- The data of a record. -/
def recData (s : State) (slot : Nat) (r : CkptRec) : List Byte := s.rdMemN (hostKey (slot + r.off)) r.len

/-! ## Frames and tables (R462) -/

/-- A piece of the frame region for n bytes aligned to m: its address, and the place after it. -/
def takeFrame (at_ n m : Nat) : Nat × Nat := (alignUp at_ m, alignUp at_ m + n)

/-- The frames of the pages, by the place of their data: larger pages first. The result also gives the place after them. -/
def placePages (at_ : Nat) : List CkptRec → List (Nat × Nat) × Nat
  | [] => ([], at_)
  | r :: rs =>
    let n := leafBytes (r.flags % 4)
    let (f, at1) := takeFrame at_ n n
    let (m, at2) := placePages at1 rs
    ((r.off, f) :: m, at2)

/-- Device pages once each, larger first. -/
def pageRecs (rs : List CkptRec) (dup : Bool) : List CkptRec :=
  orderBy (fun r : CkptRec => [3 - r.flags % 4, r.off]) ((ofKind rs 1).filter fun r => r.len ≠ 0 && r.flags.testBit 6 = dup)

/-- A leaf-level entry of the new tables: its address, its level, its bits. -/
structure NewEntry where
  va  : Nat
  lvl : Nat
  ent : Nat

/-- The level of a leaf of a size. -/
def sizeLevel (sz : Nat) : Nat := match sz with | 0 => 0 | 1 => 0 | 2 => 1 | _ => 2

/-- The entry bits of a leaf record, but for v. -/
def flagBits (f : Nat) : Nat :=
  let b (i n : Nat) : Nat := if f.testBit i then 2 ^ n else 0
  2 + b 2 3 + b 3 4 + b 4 5 + b 5 10 + b 6 7 + b 7 8 + (if f % 4 = 1 then 2 ^ 6 else 0)

/-- R462: the entry of a record, with the frames of the pages by the place of their data. -/
def newEntry (s : State) (slot : Nat) (frames : List (Nat × Nat)) (r : CkptRec) : Option NewEntry :=
  let va := r.rkey.toNat % 2 ^ 57
  match r.kind.toNat with
  | 0x01 =>
    let f := ((frames.find? fun e => e.1 = r.off).map fun e => e.2).getD 0
    some ⟨va, sizeLevel (r.flags % 4), f + flagBits r.flags + 1⟩
  | 0x02 => some ⟨va, 0, 2 ^ 9⟩
  | 0x03 => some ⟨va, sizeLevel (r.flags % 4), leValue (recData s slot r) + flagBits r.flags⟩
  | 0x0D => some ⟨va, leValue (recData s slot r) % 8, 1 + 4⟩
  | _ => none

/-- A number added to a list once. -/
def addOnce (x : Nat) (l : List Nat) : List Nat := if l.contains x then l else l ++ [x]

/-- The level-0 tables that entries need, by their 2 MiB of address. -/
def leafTables (es : List NewEntry) : List Nat := (es.filter fun e => e.lvl = 0).foldl (fun l e => addOnce (e.va / 2 ^ 21) l) []

/-- R391, R462: the level-0 tables, those that the window itself needs included. -/
def windowTables (ptwin : Nat) : Nat → List Nat → List Nat
  | 0, l => l
  | fuel + 1, l =>
    if ptwin = 0 then l else windowTables ptwin fuel (l.foldl (fun m x => addOnce (windowVa ptwin x / 2 ^ 21) m) l)

/-- The tables above: level and index of each, the root last. -/
def tableNodes (es : List NewEntry) (l0 : List Nat) : List (Nat × Nat) :=
  let put (l : List (Nat × Nat)) (x : Nat × Nat) : List (Nat × Nat) := if l.contains x then l else l ++ [x]
  let up (l : List (Nat × Nat)) (lvl va : Nat) : List (Nat × Nat) :=
    (List.range 5).foldl (fun l k => if lvl ≤ k then put l (k, va / 2 ^ (21 + 9 * k)) else l) l
  put (l0.foldl (fun l x => up l 0 (x * 2 ^ 21)) (es.foldl (fun l e => up l e.lvl e.va) [])) (4, 0)

/-- Everything a restore puts into the frame region: what it writes (address and bytes), the root, the object table, the
distance of slice copies, and where it ends. -/
structure Rebuilt where
  writes : List (Nat × List Byte)
  bad    : List (Nat × Nat)
  root   : Nat
  otab   : Nat
  stride : Nat
  stop   : Nat

/-- R462: the frames and tables of a restore from a slot, in a region from `base`, for n slices. -/
def rebuild (s : State) (slot base n : Nat) (x : XBlock) (rs : List CkptRec) : Rebuilt :=
  let pageBytes (r : CkptRec) : List Byte := recData s slot r
  -- duplicated pages: n copies of one block
  let dups := pageRecs rs true
  let align := dups.foldl (fun m r => max m (leafBytes (r.flags % 4))) 4096
  let d0 := if dups.isEmpty then base else alignUp base align
  let (df, d1) := placePages d0 dups
  let stride := if dups.isEmpty then 0 else alignUp (d1 - d0) align
  let (pf, p1) := placePages (d0 + n * stride) (pageRecs rs false)
  let frames := df ++ pf
  let obj := (ofKind rs 7).flatMap pageBytes
  let (otab, o1) := takeFrame p1 obj.length 4096
  let es := rs.filterMap (newEntry s slot frames)
  let es := es.filter fun e => !inWindow x.ptwin.toNat e.va
  let l0 := windowTables x.ptwin.toNat 8 (leafTables es)
  let nodes0 := tableNodes es l0
  let wes : List NewEntry := if x.ptwin = 0 then [] else l0.map fun t => ⟨windowVa x.ptwin.toNat t, 0, 0⟩
  let nodes := tableNodes (es ++ wes) (nodes0.filterMap fun e => if e.1 = 0 then some e.2 else none)
  let t0 := alignUp o1 4096
  let tableAt (k : Nat × Nat) : Nat := t0 + 4096 * nodes.findIdx (fun y => y = k)
  let wins : List NewEntry := if x.ptwin = 0 then [] else l0.map fun t => ⟨windowVa x.ptwin.toNat t, 0, windowEntry (tableAt (0, t))⟩
  let leafW := (es ++ wins).map fun e => (tableAt (e.lvl, e.va / 2 ^ (21 + 9 * e.lvl)) + 8 * (e.va / 2 ^ (12 + 9 * e.lvl) % 512), leBytes 8 e.ent)
  let links := (nodes.filter fun k => k.1 < 4).map fun k =>
    (tableAt (k.1 + 1, k.2 / 512) + 8 * (k.2 % 512), leBytes 8 (tableAt k + 1))
  let copies := dups.flatMap fun r => (List.range n).map fun i =>
    ((((df.find? fun e => e.1 = r.off).map fun e => e.2).getD 0) + i * stride, pageBytes r)
  let pages := (pageRecs rs false).map fun r => ((((pf.find? fun e => e.1 = r.off).map fun e => e.2).getD 0), pageBytes r)
  let hurt := (ofKind rs 0x0C).filterMap fun r =>
    (((ofKind rs 1).find? fun p => p.rkey = r.rkey).bind fun p => (frames.find? fun e => e.1 = p.off).map fun e => (p, e.2))
  let poisoned := hurt.flatMap fun e => (List.range (if e.1.flags.testBit 6 then n else 1)).map fun i =>
    (e.2 + i * stride, leafBytes (e.1.flags % 4))
  { writes := copies ++ pages ++ [(otab, obj)] ++ links ++ leafW, bad := poisoned, root := tableAt (4, 0), otab := otab, stride := stride,
    stop := t0 + 4096 * nodes.length }

/-! ## The checks of RESTORE (R461) -/

/-- R462: the heap entries that a slice of the target will hold for the context, those it holds already among them. -/
def heapRestored (s : State) (ctx : Nat) (rs : List CkptRec) (n i : Nat) : Nat :=
  ((s.slice ((s.vf (ctx / 64)).first + i)).heap.countP fun e => e.ctx = ctx) + (((ofKind rs 6).filter fun r => r.rkey.toNat % n = i).map fun r => r.len / 8).sum

/-- BUSY: a team of the interface is resident or saved, a queue of it is enabled, or it is being checkpointed. -/
def restoreBusy (s : State) (ctx : Nat) : Bool :=
  s.allTeams.any (fun t => t.live && t.ctx = ctx && t.ngrp ≠ 0) || !(usedSlots s ctx).isEmpty
    || (queuesOf s ctx).any (fun q => (queueOf s q.1 q.2).en) || s.ckpts.any fun c => c.ctx = ctx

/-- The translation block of a context-block record. -/
def savedBlock (bs : List Byte) : XBlock := xblockOf bs

/-! ## What comes back (R462, R463) -/

/-- R463: a deadline carried over. -/
def shiftTime (old tcut now : Nat) : DWord := BitVec.ofNat 64 (now + old + 2 ^ 64 - tcut % 2 ^ 64)

/-- R462: poison comes back with the data of a record that is marked so, at a key. -/
def restorePoison (s : State) (r : CkptRec) (key : Nat) : State :=
  if r.flags.testBit 0 then { s with poison := key / 32 :: s.poison.filter fun x => x ≠ key / 32 } else s

/-- R462: a queue descriptor goes to slice s mod n, and takes its ring anew; its admission goes on where it stood. -/
def restoreQueue (s : State) (slot ctx n tcut : Nat) (m : Manifest) (r : CkptRec) : State :=
  let sl := (s.vf (ctx / 64)).first + r.rkey.toNat % 16 % n
  let qi := r.rkey.toNat / 2 ^ 8 % 128
  let bs := recData s slot r
  let q := ({} : QDesc).write bs
  let synth := fieldOf bs 40 8
  let q := { q with
    ctx := BitVec.ofNat 6 (ctx % 64), misses := BitVec.ofNat 64 (fieldOf bs 32 8), dl := shiftTime q.dl.toNat tcut s.now,
    synth := if synth = 0 then 0 else shiftTime synth tcut s.now }
  match captureQueue s sl qi {} q with
  | .done s _ _ => queueGoesOn s sl qi (SMap.find m.queues (r.rkey.toNat % 2 ^ 15))
  | .more s => s
where
  /-- R174: the admission goes on where it stood at the cut, if the header says no other. -/
  queueGoesOn (s : State) (sl qi : Nat) (old : Option QDesc) : State :=
    let q := queueOf s sl qi
    match old with
    | none => s
    | some o =>
      if o.retire = q.retire && o.hdr = q.hdr then setQueueOf s sl qi { q with nextAdm := o.nextAdm, fin := o.fin } else s

/-- R462: the cards that the slices had admitted stand admitted again, as far as they had come; a card's number is new, from `id0` on. -/
def restoreCards (s : State) (ctx n id0 : Nat) (m : Manifest) : State :=
  let mine := m.cards.mapIdx fun i k =>
    { k with
      id := id0 + i, vf := ctx / 64, ctx := ctx, slice := (s.vf (ctx / 64)).first + k.slice % n, order := id0 + i, engine := none,
      launch := k.launch.map fun l => { l with last := [] } }
  { s with cards := s.cards ++ mine.filter fun k => (queueOf s k.slice k.queue).retire ≤ k.idx && k.idx < (queueOf s k.slice k.queue).nextAdm }

/-- The new number of a card of a manifest. -/
def newCard (id0 : Nat) (m : Manifest) (old : Nat) : Nat :=
  match m.cards.findIdx? fun k => k.id = old with
  | none => 0
  | some i => id0 + i

/-- R462: heap entries go to slice s mod n, after the entries there. -/
def restoreHeap (s : State) (slot ctx n : Nat) (r : CkptRec) : State :=
  let sl := (s.vf (ctx / 64)).first + r.rkey.toNat % n
  let bs := recData s slot r
  let c := s.slice sl
  let es := (List.range (r.len / 8)).map fun i =>
    ({ ctx := ctx, key := BitVec.ofNat 32 (fieldOf bs (8 * i) 4), val := BitVec.ofNat 32 (fieldOf bs (8 * i + 4) 4),
       seq := 65536 * s.tick + c.heap.length + i } : HeapEntry)
  s.setSlice { c with heap := c.heap ++ es }

/-- R463: an instant after the cut, as far after the restore. -/
def shiftEnd (now tcut old : Nat) : Nat := if tcut ≤ old then now + (old - tcut) else now

/-- R463: a parked SLEEP of a saved team keeps the time it had to run. -/
def shiftSleeps (s : State) (key tcut : Nat) : State :=
  (List.range (slotGroups s key)).foldl (fun (s : State) i =>
    let k := slotGroup key i
    if parkOf (recNat s k 12 4) = .sleep then
      writeCheck (s.memWrite (k + 32) (leBytes 8 (shiftEnd s.now tcut (recNat s k 32 8)))) k 0x8000
    else s) s

/-- R462: a saved team goes into a team slot, with the slice of its queue renumbered; what its records have no place for
comes from `m`. -/
def restoreSlot (s : State) (slot ctx n tcut i id0 : Nat) (m : Manifest) (r : CkptRec) : State :=
  let key := sumpSlot s ctx i
  let s := s.memWrite key (recData s slot r)
  let s := resealSlot (s.memWrite (key + 33) (leBytes 1 (recNat s key 33 1 % n))) key
  let s := shiftSleeps s key tcut
  let mine (k : Nat) : Bool := 2 ^ 21 * i ≤ k && k < 2 ^ 21 * (i + 1)
  let s := { s with
    kept := s.kept ++ (m.kept.filter fun k => mine k.key).map fun k =>
      { k with key := key + (k.key - 2 ^ 21 * i), g := { k.g with
        usleep := k.g.usleep.map (shiftEnd s.now tcut)
        frag := k.g.frag.map fun f => { f with card := newCard id0 m f.card } } }
    keptT := s.keptT ++ (m.keptT.filter fun k => mine k.key).mapIdx fun j k =>
      { k with key := key, t := { k.t with uid := s.nextId + j, ctx := ctx, card := newCard id0 m k.t.card }, binds := k.binds.map fun b => { b with ctx := ctx }, cmds := k.cmds.map fun c => { c with ctx := ctx } }
    nextId := s.nextId + 1 }
  markSlot (restorePoison s r key) ctx i true

/-- R462, R463: the whole restore, after its checks. -/
def restoreCtx (s : State) (ctx slot base : Nat) : State :=
  let vf := ctx / 64
  let n := 2 ^ (s.vf vf).j
  let rs := readRecs s slot
  let tcut := s.rdMemNat (hostKey slot + 16) 8
  let gen : DWord := BitVec.ofNat 64 (commitGen s slot)
  let blk := (ofKind rs 4).flatMap (recData s slot)
  let sx := savedBlock blk
  let b := rebuild s slot base n sx rs
  let m := (s.manifests.find? fun m => m.host = slot && m.gen = gen).getD {}
  let id0 := s.nextId
  let s := { s with nextId := s.nextId + m.cards.length }
  -- frames and tables
  let s := zeroRange s (memKey vf base) (memKey vf b.stop)
  let s := b.writes.foldl (fun (s : State) e => s.memWrite (memKey vf e.1) e.2) s
  let s := (ofKind rs 7).foldl (fun (s : State) r => restorePoison s r (memKey vf b.otab)) s
  let s := { s with poison := s.poison ++ b.bad.flatMap fun e => (List.range (e.2 / 32)).map fun i => memKey vf e.1 / 32 + i }
  -- context blocks and counters
  let x := s.ctx ctx
  let cnt := (ofKind rs 0x0B).flatMap (recData s slot)
  let off := fieldOf blk 168 8
  let s := s.setCtx { x with
    xb := { sx with root := BitVec.ofNat 48 b.root, gen := sx.gen + 1, dstride := BitVec.ofNat 48 b.stride }
    hvec := BitVec.ofNat 64 (fieldOf blk 128 8), hlbase := BitVec.ofNat 64 (fieldOf blk 136 8), ucnt := fieldOf blk 144 1 % 2 = 1
    otab := BitVec.ofNat 64 b.otab, ocount := BitVec.ofNat 17 (fieldOf blk 160 4)
    clkOff := BitVec.ofNat 64 (tcut + off - s.now)
    cnt := (List.range 20).foldl (fun c i => SMap.set 0 c i (BitVec.ofNat 64 (fieldOf cnt (8 * i) 8))) []
    sel := (List.range 16).foldl (fun c i => SMap.set 0 c i (BitVec.ofNat 8 (fieldOf cnt (160 + 4 * i) 4))) []
    tlb := [], savedSl := m.slots.map fun e => (e.1, { e.2 with ctx := ctx }) }
  -- the sump
  let sb := (s.ctx ctx).sb
  let s := if sb.sump = 0 then s else zeroRange s (memKey vf sb.sump.toNat) (memKey vf (sb.sump.toNat + 4096))
  let s := ((ofKind rs 8).mapIdx fun i r => (i, r)).foldl (fun (s : State) e => restoreSlot s slot ctx n tcut e.1 id0 m e.2) s
  let s := (ofKind rs 9).foldl (fun (s : State) r => match areaKey s ctx r.rkey.toNat with
    | some k => restorePoison (s.memWrite k (recData s slot r)) r k
    | none => s) s
  let s := (ofKind rs 0x0A).foldl (fun (s : State) r =>
    let g := BitVec.ofNat 8 r.rkey.toNat
    setSinterBit (restorePoison (s.memWrite (sinterKey s ctx g) (recData s slot r)) r (sinterKey s ctx g)) ctx g true) s
  -- heaps, the pool, queues
  let s := (ofKind rs 6).foldl (fun (s : State) r => restoreHeap s slot ctx n r) s
  let s := match walk s ctx (s.ctx ctx).xb.pool.toNat with
    | .fail _ => s
    | .leaf e sz _ =>
      let k := leafKey ctx (s.ctx ctx).xb.pool.toNat e sz
      if (s.ctx ctx).xb.pool = 0 then s else s.memWrite k (s.rdMemN (k + 8) 8)
  restoreCards ((ofKind rs 5).foldl (fun (s : State) r => restoreQueue s slot ctx n tcut m r) s) ctx n id0 m

/-- RESTORE: the result is the generation that was used. -/
def execRestore (fn : Nat) : State → Res := vfCmd fn 0x21 fun s =>
  let ctx := intfCtx fn (cmdOp s fn 0)
  let base := cmdOp s fn 3
  let len := cmdOp s fn 4
  let n := 2 ^ (s.vf fn).j
  if 64 ≤ cmdOp s fn 0 || !inUse s ctx || cmdOp s fn 1 % 4096 ≠ 0 || cmdOp s fn 2 % 4096 ≠ 0 || base % 2 ^ 21 ≠ 0 || len % 2 ^ 21 ≠ 0 then
    .done s stBadArg 0
  else if restoreBusy s ctx then .done s stBusy 0
  else match pickSlot s (cmdOp s fn 1) (cmdOp s fn 2) with
    | none => .done s stBadImg 0
    | some slot =>
      let rs := readRecs s slot
      let sb := (s.ctx ctx).sb
      let b := rebuild s slot base n (savedBlock ((ofKind rs 4).flatMap (recData s slot))) rs
      if sb.nslot.toNat < (ofKind rs 8).length || (ofKind rs 9).any (fun r => sb.nclu.toNat ≤ r.rkey.toNat)
        || (sb.sump = 0 && !(ofKind rs 8 ++ ofKind rs 9).isEmpty) then .done s stNoSump 0
      else if base + len < b.stop || s.partBytes fn < base + len || (List.range n).any fun i => (s.ctx ctx).quota < heapRestored s ctx rs n i then
        .done s stNoRoom 0
      else .done (restoreCtx s ctx slot base) stOk (commitGen s slot)

end Sys2Proof.Machine
end

