-- ==== Sys2Proof/Machine/SinterLane.lean ====
section
/-! DEFINITION. The Sinter lane words (R339): APXENTER, APXIN, APXOUT and APXEXIT, on the invocation of each lane
(R331). -/

namespace Sys2Proof.Machine

/-- A buffer of words by index, from a list. -/
def bufOf (ws : List Word) : SMap Word := SMap.setRun 0 [] 0 ws

/-- The first n words of a buffer. -/
def bufWords (n : Nat) (b : SMap Word) : List Word := SMap.getRun 0 b 0 n

/-- R16: the Sinter words on a roof core, and in handler mode, are illegal; elsewhere the word runs. -/
def apxRun (h : LHdr) (regs : List (Nat × Nat)) (os : List Src) (d : Option Dst) (k : LCtx → State → Res) (s : State) :
    Res :=
  if illegalHere s then illegalL h s else laneRun h [] regs os d k s

/-- R339: an invocation opened in region r; `sv` is what a serving slot gives the lane: whether it samples, and Eval. -/
def Invocation.enter (i : Invocation) (r : Byte) (sv : Option (Bool × List Word)) : Invocation :=
  let j := { i with isOpen := true, served := false, sample := false, discarded := false, region := r, outb := [] }
  match sv with
  | none => j
  | some (true, ev) => { j with sample := true, cmp := bufOf ev }
  | some (false, ev) => { j with served := true, outb := bufOf ev }

/-- R339: APXENTER on the q-th active lane, with the slot as it was. -/
def enterLane (r : Byte) (slot : Option Slot) (g : Group) (lq : Nat × Nat) : Group :=
  let inv := g.rdInv lq.1
  let sv := slot.map fun sl =>
    (decide ((sl.ctr + BitVec.ofNat 32 lq.2).toNat % sl.interval = 0), sl.eval (bufWords 16 inv.inb))
  g.wrInv lq.1 (inv.enter r sv)

/-- APXENTER (R339). -/
def execApxenter (h : LHdr) (m : BitVec 4) (r : BitVec 8) (s : State) : Res :=
  apxRun h [] [] none (fun c s =>
    let cl := s.cluster s.clusterId
    let slot := (slotFor cl s.g.ctx r).bind fun sl => if sl.state = .serve then some sl else none
    let s := match slot, findSlot cl s.g.ctx r with
      | some sl, some i =>
        s.setCluster (cl.setSlot i (some { sl with ctr := sl.ctr + BitVec.ofNat 32 c.lanes.length }))
      | _, _ => s
    let s := s.mapG fun g => (c.lanes.mapIdx fun q l => (l, q)).foldl (enterLane r slot) g
    let served := c.lanes.filter fun l => (s.g.rdInv l).served
    let s := s.countEvent s.g.ctx 0x10 served.length
    c.endL (c.putM true m.toNat (c.lanes.map fun l => (l, !(s.g.rdInv l).served)) s)) s

/-- APXIN (R339). -/
def execApxin (h : LHdr) (a : Src) (i : BitVec 4) (s : State) : Res :=
  apxRun h (srcRun 1 a) [a] none (fun c s =>
    c.endL (s.mapG fun g => c.lanes.foldl (fun g l =>
      let inv := g.rdInv l
      g.wrInv l { inv with inb := SMap.set 0 inv.inb i.toNat (c.val s 0 a 0 l) }) g)) s

/-- APXOUT (R339): the lanes whose invocation is open and served take the output. -/
def execApxout (h : LHdr) (d : Dst) (j : BitVec 3) (s : State) : Res :=
  apxRun h (dstRun 1 d) [] (some d) (fun c s =>
    let ls := c.lanes.filter fun l => (s.g.rdInv l).isOpen && (s.g.rdInv l).served
    c.endL (c.put true d (ls.map fun l => (l, [SMap.get 0 (s.g.rdInv l).outb j.toNat])) s)) s

/-- APXOUT.probe (R339). -/
def execApxoutProbe (h : LHdr) (d : Dst) (j : BitVec 3) (r : BitVec 8) (s : State) : Res :=
  apxRun h (dstRun 1 d) [] (some d) (fun c s =>
    let slot := slotFor (s.cluster s.clusterId) s.g.ctx r
    let out (l : Nat) : Word :=
      match slot with
      | none => 0
      | some sl => (sl.eval (bufWords 16 (s.g.rdInv l).inb)).getD j.toNat 0
    c.endL (c.put true d (c.lanes.map fun l => (l, [out l])) s)) s

/-- R339: the true output of a lane that is not served. -/
def exitLane (j : Nat) (g : Group) (lv : Nat × Word) : Group :=
  let inv := g.rdInv lv.1
  if inv.served then g else g.wrInv lv.1 { inv with tru := SMap.set 0 inv.tru j lv.2 }

/-- R339: the close of a lane's invocation. -/
def closeLane (g : Group) (l : Nat) : Group := g.wrInv l { g.rdInv l with isOpen := false, inb := [] }

/-- R328: a closed real invocation goes to the unit. -/
def Invocation.arrival (i : Invocation) (ctx word : Nat) : Arrival :=
  { word := word, ctx := ctx, region := i.region, inp := bufWords 16 i.inb, tru := bufWords 8 i.tru, cmp := bufWords 8 i.cmp,
    sample := i.sample }

/-- APXEXIT (R339). -/
def execApxexit (h : LHdr) (last : Bool) (a : Src) (j : BitVec 3) (s : State) : Res :=
  apxRun h (srcRun 1 a) [a] none (fun c s =>
    let ls := c.lanes.filter fun l => (s.g.rdInv l).isOpen
    let s := s.mapG fun g => (ls.map fun l => (l, c.val s 0 a 0 l)).foldl (exitLane j.toNat) g
    if !last then c.endL s
    else
      let real := ls.filter fun l => !(s.g.rdInv l).served && !(s.g.rdInv l).discarded
      let cl := s.cluster s.clusterId
      let s := s.setCluster { cl with inbox := cl.inbox ++ real.map fun l => (s.g.rdInv l).arrival s.g.ctx s.tick }
      let s := s.countEvent s.g.ctx 0x11 (ls.filter fun l => !(s.g.rdInv l).served).length
      c.endL (s.mapG fun g => ls.foldl closeLane g)) s

end Sys2Proof.Machine
end

