-- ==== Sys2Proof/Machine/Dispatch.lean ====
section
/-! DEFINITION. Dispatch: one arm per instruction, each a direct call of its meaning. -/

namespace Sys2Proof.Machine

/-- The meaning of an instruction in a state. -/
def exec (i : Instr) (s : State) : Host.Outcome State Fault Refusal :=
  match i with
  | .nop w => Sys2Proof.Machine.execNop w s
  | .sleep w a => Sys2Proof.Machine.execSleep w a s
  | .clock w d a => Sys2Proof.Machine.execClock w d a s
  | .query w d a => Sys2Proof.Machine.execQuery w d a s
  | .movsr w d im => Sys2Proof.Machine.execMovsr w d im s
  | .add w d a b => Sys2Proof.Machine.execAdd w d a b s
  | .sub w d a b => Sys2Proof.Machine.execSub w d a b s
  | .mul w d a b => Sys2Proof.Machine.execMul w d a b s
  | .mulhs w d a b => Sys2Proof.Machine.execMulhs w d a b s
  | .mulhn w d a b => Sys2Proof.Machine.execMulhn w d a b s
  | .divs w d a b => Sys2Proof.Machine.execDivs w d a b s
  | .divn w d a b => Sys2Proof.Machine.execDivn w d a b s
  | .rems w d a b => Sys2Proof.Machine.execRems w d a b s
  | .remn w d a b => Sys2Proof.Machine.execRemn w d a b s
  | .and w d a b => Sys2Proof.Machine.execAnd w d a b s
  | .or w d a b => Sys2Proof.Machine.execOr w d a b s
  | .xor w d a b => Sys2Proof.Machine.execXor w d a b s
  | .andn w d a b => Sys2Proof.Machine.execAndn w d a b s
  | .shl w d a b => Sys2Proof.Machine.execShl w d a b s
  | .shr w d a b => Sys2Proof.Machine.execShr w d a b s
  | .sar w d a b => Sys2Proof.Machine.execSar w d a b s
  | .rotl w d a b => Sys2Proof.Machine.execRotl w d a b s
  | .mins w d a b => Sys2Proof.Machine.execMins w d a b s
  | .maxs w d a b => Sys2Proof.Machine.execMaxs w d a b s
  | .minn w d a b => Sys2Proof.Machine.execMinn w d a b s
  | .maxn w d a b => Sys2Proof.Machine.execMaxn w d a b s
  | .clz w d a => Sys2Proof.Machine.execClz w d a s
  | .popc w d a => Sys2Proof.Machine.execPopc w d a s
  | .brev w d a => Sys2Proof.Machine.execBrev w d a s
  | .sel w d a n q => Sys2Proof.Machine.execSel w d a n q s
  | .addi w d a im => Sys2Proof.Machine.execAddi w d a im s
  | .muli w d a im => Sys2Proof.Machine.execMuli w d a im s
  | .andi w d a im => Sys2Proof.Machine.execAndi w d a im s
  | .ori w d a im => Sys2Proof.Machine.execOri w d a im s
  | .xori w d a im => Sys2Proof.Machine.execXori w d a im s
  | .shi w d a o n => Sys2Proof.Machine.execShi w d a o n s
  | .movi w d im => Sys2Proof.Machine.execMovi w d im s
  | .movhi w d im => Sys2Proof.Machine.execMovhi w d im s
  | .cmp w q a b c => Sys2Proof.Machine.execCmp w q a b c s
  | .cmpi w c q a im => Sys2Proof.Machine.execCmpi w c q a im s
  | .add64 w d a b => Sys2Proof.Machine.execAdd64 w d a b s
  | .sub64 w d a b => Sys2Proof.Machine.execSub64 w d a b s
  | .mul64 w d a b => Sys2Proof.Machine.execMul64 w d a b s
  | .add128 w d a b => Sys2Proof.Machine.execAdd128 w d a b s
  | .shl64 w d a b => Sys2Proof.Machine.execShl64 w d a b s
  | .shr64 w d a b => Sys2Proof.Machine.execShr64 w d a b s
  | .bfx w a b c => Sys2Proof.Machine.execBfx w a b c s
  | .bfi w a b c => Sys2Proof.Machine.execBfi w a b c s
  | .qand w a n b m c => Sys2Proof.Machine.execQand w a n b m c s
  | .qor w a n b m c => Sys2Proof.Machine.execQor w a n b m c s
  | .qxor w a n b m c => Sys2Proof.Machine.execQxor w a n b m c s
  | .qnot w a b => Sys2Proof.Machine.execQnot w a b s
  | .br w o => Sys2Proof.Machine.execBr w o s
  | .brq w q sense o => Sys2Proof.Machine.execBrq w q sense o s
  | .call w o => Sys2Proof.Machine.execCall w o s
  | .jmpi w a => Sys2Proof.Machine.execJmpi w a s
  | .calli w d a => Sys2Proof.Machine.execCalli w d a s
  | .ret w a => Sys2Proof.Machine.execRet w a s
  | .loop w d im => Sys2Proof.Machine.execLoop w d im s
  | .exit w => Sys2Proof.Machine.execExit w s
  | .exitto w a b => Sys2Proof.Machine.execExitto w a b s
  | .trap w c => Sys2Proof.Machine.execTrap w c s
  | .tstb w a b q sp t => Sys2Proof.Machine.execTstb w a b q sp t s
  | .lds w d a im => Sys2Proof.Machine.execLds w d a im s
  | .sts w d a im => Sys2Proof.Machine.execSts w d a im s
  | .ldc w d a im => Sys2Proof.Machine.execLdc w d a im s
  | .atoms w a b c op sc => Sys2Proof.Machine.execAtoms w a b c op sc s
  | .lrun w a im => Sys2Proof.Machine.execLrun w a im s
  | .chsend w a b => Sys2Proof.Machine.execChsend w a b s
  | .chrecv w a b peek => Sys2Proof.Machine.execChrecv w a b peek s
  | .chstat w a b => Sys2Proof.Machine.execChstat w a b s
  | .fence w sc k => Sys2Proof.Machine.execFence w sc k s
  | .bari w a b => Sys2Proof.Machine.execBari w a b s
  | .barx w a b c => Sys2Proof.Machine.execBarx w a b c s
  | .bara w a b => Sys2Proof.Machine.execBara w a b s
  | .waitb w a b => Sys2Proof.Machine.execWaitb w a b s
  | .yield w => Sys2Proof.Machine.execYield w s
  | .yieldc w a b c => Sys2Proof.Machine.execYieldc w a b c s
  | .teambar w => Sys2Proof.Machine.execTeambar w s
  | .gridbar w => Sys2Proof.Machine.execGridbar w s
  | .lwait w => Sys2Proof.Machine.execLwait w s
  | .tbind w t b c => Sys2Proof.Machine.execTbind w t b c s
  | .tdrop w t => Sys2Proof.Machine.execTdrop w t s
  | .objld w t b => Sys2Proof.Machine.execObjld w t b s
  | .cpyb w a b c => Sys2Proof.Machine.execCpyb w a b c s
  | .cpyg w a b c => Sys2Proof.Machine.execCpyg w a b c s
  | .cpyq w a b c => Sys2Proof.Machine.execCpyq w a b c s
  | .empty w a b => Sys2Proof.Machine.execEmpty w a b s
  | .heapadd w a b wait q => Sys2Proof.Machine.execHeapadd w a b wait q s
  | .heaptake w a b wait q => Sys2Proof.Machine.execHeaptake w a b wait q s
  | .mfmt w a => Sys2Proof.Machine.execMfmt w a s
  | .mloop w a b c => Sys2Proof.Machine.execMloop w a b c s
  | .mconv w a b c => Sys2Proof.Machine.execMconv w a b c s
  | .mstore w a b c => Sys2Proof.Machine.execMstore w a b c s
  | .mzero w n => Sys2Proof.Machine.execMzero w n s
  | .mstat w a n => Sys2Proof.Machine.execMstat w a n s
  | .sproj w a b => Sys2Proof.Machine.execSproj w a b s
  | .sbin w a b => Sys2Proof.Machine.execSbin w a b s
  | .sblend w a b => Sys2Proof.Machine.execSblend w a b s
  | .sgrad w a b => Sys2Proof.Machine.execSgrad w a b s
  | .apxdef w a q => Sys2Proof.Machine.execApxdef w a q s
  | .apxkill w a => Sys2Proof.Machine.execApxkill w a s
  | .encsub w a b => Sys2Proof.Machine.execEncsub w a b s
  | .chimgate w a => Sys2Proof.Machine.execChimgate w a s
  | .movsw w a im => Sys2Proof.Machine.execMovsw w a im s
  | .pcntRd w a n => Sys2Proof.Machine.execPcntRd w a n s
  | .pcntWr w a n => Sys2Proof.Machine.execPcntWr w a n s
  | .pcntSel w a n => Sys2Proof.Machine.execPcntSel w a n s
  | .rett w => Sys2Proof.Machine.execRett w s
  | .ctxsave w a b q => Sys2Proof.Machine.execCtxsave w a b q s
  | .ctxload w a b q => Sys2Proof.Machine.execCtxload w a b q s
  | .haltSoft w a q => Sys2Proof.Machine.execHaltSoft w a q s
  | .haltHard w a q => Sys2Proof.Machine.execHaltHard w a q s
  | .freezeFreeze w a q => Sys2Proof.Machine.execFreezeFreeze w a q s
  | .freezeThaw w a q => Sys2Proof.Machine.execFreezeThaw w a q s
  | .freezeReset w a q => Sys2Proof.Machine.execFreezeReset w a q s
  | .limm im => Sys2Proof.Machine.execLimm im s
  | .fadd h d a b r => Sys2Proof.Machine.execFadd h d a b r s
  | .fsub h d a b r => Sys2Proof.Machine.execFsub h d a b r s
  | .fmul h d a b r => Sys2Proof.Machine.execFmul h d a b r s
  | .ffma h d a b c r => Sys2Proof.Machine.execFfma h d a b c r s
  | .ffms h d a b c r => Sys2Proof.Machine.execFfms h d a b c r s
  | .fmin h d a b => Sys2Proof.Machine.execFmin h d a b s
  | .fmax h d a b => Sys2Proof.Machine.execFmax h d a b s
  | .fcmp h d c a b => Sys2Proof.Machine.execFcmp h d c a b s
  | .fclass h d a => Sys2Proof.Machine.execFclass h d a s
  | .fdiv h d a b r => Sys2Proof.Machine.execFdiv h d a b r s
  | .frcp h d a r => Sys2Proof.Machine.execFrcp h d a r s
  | .frsq h d a r => Sys2Proof.Machine.execFrsq h d a r s
  | .fsqrt h d a r => Sys2Proof.Machine.execFsqrt h d a r s
  | .ex2 h d a r => Sys2Proof.Machine.execEx2 h d a r s
  | .lg2 h d a r => Sys2Proof.Machine.execLg2 h d a r s
  | .fsint h d a r => Sys2Proof.Machine.execFsint h d a r s
  | .fcost h d a r => Sys2Proof.Machine.execFcost h d a r s
  | .frint h d a rm => Sys2Proof.Machine.execFrint h d a rm s
  | .ffloor h d a => Sys2Proof.Machine.execFfloor h d a s
  | .fceil h d a => Sys2Proof.Machine.execFceil h d a s
  | .ftrunc h d a => Sys2Proof.Machine.execFtrunc h d a s
  | .ffract h d a rm => Sys2Proof.Machine.execFfract h d a rm s
  | .fscale h d a b r => Sys2Proof.Machine.execFscale h d a b r s
  | .fgetexp h d a => Sys2Proof.Machine.execFgetexp h d a s
  | .fcopysign h d a b => Sys2Proof.Machine.execFcopysign h d a b s
  | .hadd2 h ty d a b r => Sys2Proof.Machine.execHadd2 h ty d a b r s
  | .hsub2 h ty d a b r => Sys2Proof.Machine.execHsub2 h ty d a b r s
  | .hmul2 h ty d a b r => Sys2Proof.Machine.execHmul2 h ty d a b r s
  | .hfma2 h ty d a b c r => Sys2Proof.Machine.execHfma2 h ty d a b c r s
  | .hmin2 h ty d a b => Sys2Proof.Machine.execHmin2 h ty d a b s
  | .hmax2 h ty d a b => Sys2Proof.Machine.execHmax2 h ty d a b s
  | .hcmp2 h ty d c a b => Sys2Proof.Machine.execHcmp2 h ty d c a b s
  | .hdot2 h ty d a b c r => Sys2Proof.Machine.execHdot2 h ty d a b c r s
  | .cvt h ty sty shi sr d a r => Sys2Proof.Machine.execCvt h ty sty shi sr d a r s
  | .cvt2 h ty sty sr d a r => Sys2Proof.Machine.execCvt2 h ty sty sr d a r s
  | .cvt4 h ty sty sr d a b r => Sys2Proof.Machine.execCvt4 h ty sty sr d a b r s
  | .cvt8 h ty sty sr d a b r => Sys2Proof.Machine.execCvt8 h ty sty sr d a b r s
  | .qdec h ty sr d a b c r => Sys2Proof.Machine.execQdec h ty sr d a b c r s
  | .qenc h d a b c im => Sys2Proof.Machine.execQenc h d a b c im s
  | .ftoi h ty sty shi d a rm => Sys2Proof.Machine.execFtoi h ty sty shi d a rm s
  | .itof h ty sty shi sr d a r => Sys2Proof.Machine.execItof h ty sty shi sr d a r s
  | .icvt h ty sty shi d a sat => Sys2Proof.Machine.execIcvt h ty sty shi d a sat s
  | .iadd h ty d a b sat => Sys2Proof.Machine.execIadd h ty d a b sat s
  | .isub h ty d a b sat => Sys2Proof.Machine.execIsub h ty d a b sat s
  | .imul h ty d a b sat => Sys2Proof.Machine.execImul h ty d a b sat s
  | .imulh h ty d a b => Sys2Proof.Machine.execImulh h ty d a b s
  | .imad h ty d a b c sat => Sys2Proof.Machine.execImad h ty d a b c sat s
  | .imin h ty d a b => Sys2Proof.Machine.execImin h ty d a b s
  | .imax h ty d a b => Sys2Proof.Machine.execImax h ty d a b s
  | .iabs h ty d a sat => Sys2Proof.Machine.execIabs h ty d a sat s
  | .ishl h ty d a n => Sys2Proof.Machine.execIshl h ty d a n s
  | .ishr h ty d a n => Sys2Proof.Machine.execIshr h ty d a n s
  | .isar h ty d a n => Sys2Proof.Machine.execIsar h ty d a n s
  | .fshl h d a b n => Sys2Proof.Machine.execFshl h d a b n s
  | .fshr h d a b n => Sys2Proof.Machine.execFshr h d a b n s
  | .logic3 h d a b c tt => Sys2Proof.Machine.execLogic3 h d a b c tt s
  | .laneBfx h ty d a b => Sys2Proof.Machine.execLaneBfx h ty d a b s
  | .laneBfi h ty d a b c => Sys2Proof.Machine.execLaneBfi h ty d a b c s
  | .lanePopc h d a => Sys2Proof.Machine.execLanePopc h d a s
  | .laneClz h d a => Sys2Proof.Machine.execLaneClz h d a s
  | .laneBrev h d a => Sys2Proof.Machine.execLaneBrev h d a s
  | .icmp h ty d c a b => Sys2Proof.Machine.execIcmp h ty d c a b s
  | .laneSel h ty d a b m neg => Sys2Proof.Machine.execLaneSel h ty d a b m neg s
  | .idot4 h ty d a b c sat => Sys2Proof.Machine.execIdot4 h ty d a b c sat s
  | .isad h d a b c => Sys2Proof.Machine.execIsad h d a b c s
  | .iaddc h sub d a b m => Sys2Proof.Machine.execIaddc h sub d a b m s
  | .mov h ty d a => Sys2Proof.Machine.execMov h ty d a s
  | .laneMovi h d hi im => Sys2Proof.Machine.execLaneMovi h d hi im s
  | .shfl h ty d a b => Sys2Proof.Machine.execShfl h ty d a b s
  | .shflx h ty d a x => Sys2Proof.Machine.execShflx h ty d a x s
  | .shfld h ty dn d a n => Sys2Proof.Machine.execShfld h ty dn d a n s
  | .bcast h ty d a n => Sys2Proof.Machine.execBcast h ty d a n s
  | .vote h op d a => Sys2Proof.Machine.execVote h op d a s
  | .reduce h op ty d a => Sys2Proof.Machine.execReduce h op ty d a s
  | .prefixOp h op excl ty d a => Sys2Proof.Machine.execPrefixOp h op excl ty d a s
  | .brl h t j => Sys2Proof.Machine.execBrl h t j s
  | .join w => Sys2Proof.Machine.execJoin w s
  | .lend w => Sys2Proof.Machine.execLend w s
  | .kill h => Sys2Proof.Machine.execKill h s
  | .ltrap h c => Sys2Proof.Machine.execLtrap h c s
  | .movs h d im => Sys2Proof.Machine.execMovs h d im s
  | .ld h ty o sc d dh m => Sys2Proof.Machine.execLd h ty o sc d dh m s
  | .st h ty o sc ch m c => Sys2Proof.Machine.execSt h ty o sc ch m c s
  | .ldx h ty o sc d dh x => Sys2Proof.Machine.execLdx h ty o sc d dh x s
  | .stx h ty o sc ch x c => Sys2Proof.Machine.execStx h ty o sc ch x c s
  | .atom h op ty o sc d m c => Sys2Proof.Machine.execAtom h op ty o sc d m c s
  | .atomx h op ty o sc d x c => Sys2Proof.Machine.execAtomx h op ty o sc d x c s
  | .red h op ty o sc m c => Sys2Proof.Machine.execRed h op ty o sc m c s
  | .lcpy h sc m b c => Sys2Proof.Machine.execLcpy h sc m b c s
  | .pref h sc t a disp => Sys2Proof.Machine.execPref h sc t a disp s
  | .rng h d a b => Sys2Proof.Machine.execRng h d a b s
  | .rngNext h d => Sys2Proof.Machine.execRngNext h d s
  | .rngSeed h a b => Sys2Proof.Machine.execRngSeed h a b s
  | .rngCtr h d => Sys2Proof.Machine.execRngCtr h d s
  | .rngKey h d => Sys2Proof.Machine.execRngKey h d s
  | .add128l h d a b => Sys2Proof.Machine.execAdd128l h d a b s
  | .add128lCtr h a => Sys2Proof.Machine.execAdd128lCtr h a s
  | .attr h m d im => Sys2Proof.Machine.execAttr h m d im s
  | .deriv h y fine d a => Sys2Proof.Machine.execDeriv h y fine d a s
  | .texs h dim d a t => Sys2Proof.Machine.execTexs h dim d a t s
  | .texl h dim d a b t => Sys2Proof.Machine.execTexl h dim d a b t s
  | .texg h dim comp d a t => Sys2Proof.Machine.execTexg h dim comp d a t s
  | .texq h ext d b t => Sys2Proof.Machine.execTexq h ext d b t s
  | .trace h any d a b t => Sys2Proof.Machine.execTrace h any d a b t s
  | .expc h bl a n => Sys2Proof.Machine.execExpc h bl a n s
  | .expz h a => Sys2Proof.Machine.execExpz h a s
  | .apxenter h m r => Sys2Proof.Machine.execApxenter h m r s
  | .apxin h a im => Sys2Proof.Machine.execApxin h a im s
  | .apxout h d j => Sys2Proof.Machine.execApxout h d j s
  | .apxoutProbe h d j r => Sys2Proof.Machine.execApxoutProbe h d j r s
  | .apxexit h last a j => Sys2Proof.Machine.execApxexit h last a j s
  | .fmma h d a b c => Sys2Proof.Machine.execFmma h d a b c s
  | .fmld h ty acc tr d m b => Sys2Proof.Machine.execFmld h ty acc tr d m b s
  | .fmst h ty acc m b c => Sys2Proof.Machine.execFmst h ty acc m b c s
  | .longLatencyReturn k => Sys2Proof.Machine.execLongLatencyReturn k s
  | .blockStart => Sys2Proof.Machine.execBlockStart s
  | .groupEnd => Sys2Proof.Machine.execGroupEnd s
  | .successorStart => Sys2Proof.Machine.execSuccessorStart s
  | .cardAdmit slice queue => Sys2Proof.Machine.execCardAdmit slice queue s
  | .cardStart card => Sys2Proof.Machine.execCardStart card s
  | .cardComplete card => Sys2Proof.Machine.execCardComplete card s
  | .dispatchTeam vf => Sys2Proof.Machine.execDispatchTeam vf s
  | .fragmentGroupLaunch card => Sys2Proof.Machine.execFragmentGroupLaunch card s
  | .issueAgeLimit => Sys2Proof.Machine.execIssueAgeLimit s
  | .copyUnitArrive copy => Sys2Proof.Machine.execCopyUnitArrive copy s
  | .copyPageFault copy => Sys2Proof.Machine.execCopyPageFault copy s
  | .matrixStep cluster bank => Sys2Proof.Machine.execMatrixStep cluster bank s
  | .mstoreRun cluster bank => Sys2Proof.Machine.execMstoreRun cluster bank s
  | .mzeroRun cluster bank => Sys2Proof.Machine.execMzeroRun cluster bank s
  | .splatCommandStart team => Sys2Proof.Machine.execSplatCommandStart team s
  | .sprojGranule team => Sys2Proof.Machine.execSprojGranule team s
  | .sbinGranule team => Sys2Proof.Machine.execSbinGranule team s
  | .sblendTile team => Sys2Proof.Machine.execSblendTile team s
  | .sgradTile team => Sys2Proof.Machine.execSgradTile team s
  | .splatGranuleFault team => Sys2Proof.Machine.execSplatGranuleFault team s
  | .invocationArrive cluster => Sys2Proof.Machine.execInvocationArrive cluster s
  | .guardWrite key => Sys2Proof.Machine.execGuardWrite key s
  | .encodeFrameDone slice => Sys2Proof.Machine.execEncodeFrameDone slice s
  | .tileRowRead slice => Sys2Proof.Machine.execTileRowRead slice s
  | .handlerEntry => Sys2Proof.Machine.execHandlerEntry s
  | .logRetry vf => Sys2Proof.Machine.execLogRetry vf s
  | .poolRefill ctx frame => Sys2Proof.Machine.execPoolRefill ctx frame s
  | .sleepExpire => Sys2Proof.Machine.execSleepExpire s
  | .graceExpire team => Sys2Proof.Machine.execGraceExpire team s
  | .killExpire team => Sys2Proof.Machine.execKillExpire team s
  | .watchdogExpire team => Sys2Proof.Machine.execWatchdogExpire team s
  | .starveExpire slice queue => Sys2Proof.Machine.execStarveExpire slice queue s
  | .vsync vf => Sys2Proof.Machine.execVsync vf s
  | .roofAreaLoad cluster => Sys2Proof.Machine.execRoofAreaLoad cluster s
  | .roofGate cluster => Sys2Proof.Machine.execRoofGate cluster s
  | .roofWake cluster => Sys2Proof.Machine.execRoofWake cluster s
  | .bwWindowEnd slice p99 => Sys2Proof.Machine.execBwWindowEnd slice p99 s
  | .throttlePeriod slice => Sys2Proof.Machine.execThrottlePeriod slice s
  | .snoopParityError set => Sys2Proof.Machine.execSnoopParityError set s
  | .ckptFrameCopied ctx => Sys2Proof.Machine.execCkptFrameCopied ctx s
  | .ckptStreamEnd ctx ok => Sys2Proof.Machine.execCkptStreamEnd ctx ok s
  | .peerAckTimeout peer => Sys2Proof.Machine.execPeerAckTimeout peer s
  | .peerProbe peer answered => Sys2Proof.Machine.execPeerProbe peer answered s
  | .fwHeartbeat slice => Sys2Proof.Machine.execFwHeartbeat slice s
  | .fwHeartbeatTimeout slice => Sys2Proof.Machine.execFwHeartbeatTimeout slice s
  | .sliceControllerFault slice code => Sys2Proof.Machine.execSliceControllerFault slice code s
  | .deviceManagerFault => Sys2Proof.Machine.execDeviceManagerFault s
  | .powerOn => Sys2Proof.Machine.execPowerOn s
  | .powerCapAdjust mhz => Sys2Proof.Machine.execPowerCapAdjust mhz s
  | .hostMemAccess vf pasid addr req => Sys2Proof.Machine.execHostMemAccess vf pasid addr req s
  | .hostAtomic vf addr req => Sys2Proof.Machine.execHostAtomic vf addr req s
  | .hostUnsupportedRequest => Sys2Proof.Machine.execHostUnsupportedRequest s
  | .peerAccess vf addr req => Sys2Proof.Machine.execPeerAccess vf addr req s
  | .mailboxRegisterWrite fn off v => Sys2Proof.Machine.execMailboxRegisterWrite fn off v s
  | .qdesc fn => Sys2Proof.Machine.execQdesc fn s
  | .qreset fn => Sys2Proof.Machine.execQreset fn s
  | .xblock fn => Sys2Proof.Machine.execXblock fn s
  | .sblock fn => Sys2Proof.Machine.execSblock fn s
  | .shoot fn => Sys2Proof.Machine.execShoot fn s
  | .dirtylog fn => Sys2Proof.Machine.execDirtylog fn s
  | .quota fn => Sys2Proof.Machine.execQuota fn s
  | .intf fn => Sys2Proof.Machine.execIntf fn s
  | .pmake fn => Sys2Proof.Machine.execPmake fn s
  | .pfree fn => Sys2Proof.Machine.execPfree fn s
  | .fuse fn => Sys2Proof.Machine.execFuse fn s
  | .split fn => Sys2Proof.Machine.execSplit fn s
  | .engines fn => Sys2Proof.Machine.execEngines fn s
  | .ways fn => Sys2Proof.Machine.execWays fn s
  | .bwclass fn => Sys2Proof.Machine.execBwclass fn s
  | .lease fn => Sys2Proof.Machine.execLease fn s
  | .revoke fn => Sys2Proof.Machine.execRevoke fn s
  | .sreset fn => Sys2Proof.Machine.execSreset fn s
  | .report fn => Sys2Proof.Machine.execReport fn s
  | .zero fn => Sys2Proof.Machine.execZero fn s
  | .ckpt fn => Sys2Proof.Machine.execCkpt fn s
  | .restore fn => Sys2Proof.Machine.execRestore fn s
  | .fwstage fn => Sys2Proof.Machine.execFwstage fn s
  | .fwupdate fn => Sys2Proof.Machine.execFwupdate fn s
  | .getVersion => Sys2Proof.Machine.execGetVersion s
  | .getCapabilities => Sys2Proof.Machine.execGetCapabilities s
  | .negotiateAlgorithms => Sys2Proof.Machine.execNegotiateAlgorithms s
  | .getDigests => Sys2Proof.Machine.execGetDigests s
  | .getCertificate => Sys2Proof.Machine.execGetCertificate s
  | .challenge => Sys2Proof.Machine.execChallenge s
  | .getMeasurements index => Sys2Proof.Machine.execGetMeasurements index s
  | .keyExchange => Sys2Proof.Machine.execKeyExchange s
  | .finish => Sys2Proof.Machine.execFinish s
  | .illegalInstruction lane => Sys2Proof.Machine.execIllegalInstruction lane s
  | .storePerformed core key => Sys2Proof.Machine.execStorePerformed core key s
  | .duplicateAcknowledge core key => Sys2Proof.Machine.execDuplicateAcknowledge core key s
  | .zeroingDone slice => Sys2Proof.Machine.execZeroingDone slice s
  | .powerLoss => Sys2Proof.Machine.execPowerLoss s
  | .worenPortLoss port => Sys2Proof.Machine.execWorenPortLoss port s
  | .roceReceive qp addr req => Sys2Proof.Machine.execRoceReceive qp addr req s

end Sys2Proof.Machine
end

