-- ==== Sys2Proof/Machine/Upset.lean ====
section
/-! DEFINITION. Errors of the stored bits (R400, R401, R450, R452): where an input says that an error is found, what it does to
the state. What a poisoned sector does to a later access stands with that access. -/

namespace Sys2Proof.Machine

/-- R401: a dirty line of an L1 is lost: the sectors that hold its dirty bytes are poisoned at their home. -/
def dirtyUpset (s : State) (core line : Nat) : State :=
  let l := s.l1 core
  let secs := ((List.range 4).map fun i => 4 * line + i).filter fun sec =>
    (List.range 32).any fun i => (SMap.find l.dirty (32 * sec + i)).isSome
  let s := s.setL1 { l with
    dirty := l.dirty.filter fun e => e.1 / 128 ≠ line
    clean := SMap.erase l.clean line
    whole := l.whole.filter fun sec => !secs.contains sec }
  { s with poison := secs ++ s.poison.filter fun sec => !secs.contains sec }

/-- R450: the slice of a group counts an uncorrectable error. -/
def uncorrectedOf (s : State) (uid : Nat) : State :=
  match (s.group? uid).bind fun g => s.team? g.team with
  | none => s
  | some t => uncorrected s (t.ppos / 128)

/-- R401, R450: an error is found, or, in a register or the roof store, stands where the next access finds it. -/
def upset (u : Upset) (s : State) : State :=
  match u with
  | .sector sl sec => { uncorrected s sl with poison := sec :: s.poison.filter fun x => x ≠ sec }
  | .cleanLine core line =>
    let l := s.l1 core
    (uncorrected s (core / 128)).setL1 { l with clean := SMap.erase l.clean line }
  | .dirtyLine core line => dirtyUpset (uncorrected s (core / 128)) core line
  | .group uid => groupUpset (uncorrectedOf s uid) uid
  | .reg uid e => s.mapGroups (fun g => g.uid = uid) fun g => { g with badRegs := e :: g.badRegs.filter fun x => x ≠ e }
  | .window team line => windowUpset s team line
  | .roof cl o n =>
    let c := s.cluster cl
    let r := (o, min n (32 - o % 32))
    s.setCluster { c with badRoof := r :: c.badRoof.filter fun x => x ≠ r }
  | .weights cl n =>
    let c := s.cluster cl
    (uncorrected s (cl / 16)).setCluster { c with slots := c.slots.mapIdx fun i o => if i = n then o.map Slot.invalidate else o }
  | .accum cl bank e =>
    let c := s.cluster cl
    let b := c.bank bank
    (uncorrected s (cl / 16)).setCluster (c.setBank bank { b with bad := e :: b.bad.filter fun x => x ≠ e })
  | .control sl => resetSliceFw (uncorrected s sl) sl 0x46
  | .tags core line =>
    -- R449: a dirty line that no tag names any more cannot be attributed
    let vf := (s.slice (core / 128)).vf
    let part := (s.slice (core / 128)).state = 1
    let l := s.l1 core
    let s := s.setL1 { l with dirty := l.dirty.filter fun e => e.1 / 128 ≠ line, clean := SMap.erase l.clean line }
    let s := resetSliceFw (uncorrected s (core / 128)) (core / 128) 0x46
    if part then (ctxsOf s vf).foldl resetContext s else s
  | .corrected sl ctx =>
    let c := s.slice sl
    (s.setSlice { c with corr := c.corr + 1 }).countEvent ctx 0x15 1

end Sys2Proof.Machine
end

