-- ==== Sys2Proof/Machine/Issue.lean ====
section
/-! DEFINITION. Issue: fetching, decoding and executing the next word of a stream (R39, R76, R81, R411, R450), the actions of
the agenda, and what happens where no input says what does. -/

namespace Sys2Proof.Machine

/-! ## Counting -/

/-- R450, R375, R414: a word of a team of a context has issued: the events it counts (fixed counter and events with their
amounts), and the moment. -/
def counted (s : State) (team ctx fixed : Nat) (evs : List (Byte × Nat)) : State :=
  let s := evs.foldl (fun (s : State) e => s.countEvent ctx e.1 e.2) (s.bumpCounter ctx fixed 1)
  s.mapTeams (fun t => t.uid = team) fun t => { t with lastIssue := s.now }

/-- R411, R204: a C-stream has issued: the moment; the groups that have yielded to it wait for it no longer. -/
def issuedC (s : State) (uid : Nat) : State :=
  s.mapGroups (fun _ => true) fun g =>
    { g with lastC := if g.uid = uid then s.clk else g.lastC, yieldTo := g.yieldTo.filter fun u => u ≠ uid }

/-- R411: a split has issued: the moment, for it and for what it has become (the splits not in `old`). -/
def issuedL (s : State) (uid idx : Nat) (old : List Nat) : State :=
  s.mapGroups (fun g => g.uid = uid) fun g =>
    g.setSplits (g.curSplits.map fun x => if x.idx = idx || !old.contains x.idx then { x with last := s.clk } else x)

/-- Whether a control word that was tried by a group, as the group stood, still waits at its PC, and so has not issued. A RETT has
issued where its group has left the handler, whatever its user stream then waits for; an EXIT has when it is first tried. -/
def waitsC (s : State) (g0 : Group) : Bool :=
  match s.group? g0.uid with
  | none => false
  | some g => g0.exiting || (g.park ≠ .none && g.park ≠ .drain && g.mode = g0.mode && !g.exiting)

/-- Whether a lane word that was tried still waits. -/
def waitsL (s : State) (uid idx : Nat) : Bool :=
  match s.group? uid with
  | none => false
  | some g => match g.split? idx with
    | none => false
    | some x => x.park = .word

/-- The outcome with a change of its next state. -/
def Res.map (r : Res) (f : State → State) : Res :=
  match r with
  | .next s => .next (f s)
  | .fault r => .fault r
  | .refused r => .refused r

/-! ## The C-stream -/

/-- R76, R192: the word at the PC of the C-stream, executed. -/
def runC (s : State) : Res :=
  match fetchC s s.g.pc with
  | .fault s code addr => faultC s code addr.toNat
  | .word s w =>
    match decodeC w with
    | .error _ => illegalC s
    | .ok i => exec i s

/-- Whether the C-stream of the issuing group may be tried: it runs, does not wait for results, and holds back for no group it
has yielded to (R204); a RETT waits in handler mode until the handler is done (R363). -/
def mayIssueC (s : State) : Bool :=
  groupRuns s s.g && ((s.g.park ≠ .drain && s.g.park ≠ .again) || (s.g.park = .again && s.g.inHandler && handlerDone s.g))
    && !holdsBack s s.g

/-- R423: notes that a word of a group has issued in this clock. -/
def noteIssued (s : State) (g : Group) (i : Option Nat) : State :=
  { s with issued := ⟨g.uid, i, coreOf s g, g.ctx⟩ :: s.issued }

/-- R375: the counters of a word of a group that runs for a context; a controller counts for none. -/
def countedC (s : State) (g : Group) : State :=
  issuedC (if g.mode = .slice || g.mode = .device then s else counted (noteIssued s g none) g.team g.ctx 17 [(0x01, 1)]) g.uid

/-- One try of the C-stream's next word, in its turn (R411); a fault that an engine has delivered is taken first, at this
boundary (R79). -/
def issueC (s : State) : Res :=
  if !mayIssueC s then .next s
  else if lostHere s then .next (meetLost s)
  else if s.g.mode = .user && !s.g.faults.isEmpty then .next (takeEngineFault s)
  else if s.g.park = .none && !issuesNow s s.g (s.g.uid, none) then .next s
  else
    let g := s.g
    (runC { s with writer := some (.c g.uid) }).map fun s1 => if waitsC s1 g then s1 else countedC s1 g

/-! ## Lane words -/

/-- R83: the lanes of a word, decodable or not, in a split. -/
def wordLanes (s : State) (x : Split) (w : LWord) : Word :=
  let f := LFields.ofWord w
  let m := s.g.rdM s.tick f.pm.toNat
  x.redoLanes (x.mask &&& (if f.pn = 1 then ~~~m else m))

/-- R199: whether a split stands at the start of its block, which it alone makes. -/
def atBlockStart (g : Group) (x : Split) : Bool :=
  g.curSplits.length = 1 && x.idx = 0 && (match g.curQueue with | b :: _ => b.addr = x.pc | [] => false)

/-- R199, R211: a fetch of a lane word that fails: for every lane of the group at the start of a block, of the split later; where the
word was to execute again, for the lanes left, which keep what the word had taken. -/
def fetchFaultL (s : State) (x : Split) (code : Nat) (addr : DWord) : Res :=
  let r : Redo := x.redo.getD { lanes := if atBlockStart s.g x then BitVec.allOnes 32 else x.mask, fresh := true }
  let f := laneFaultInfo x code 0 r.lanes ((lanesOf r.lanes).map fun l => (l, (BitVec.ofNat 8 code, addr)))
  .next (takeFault s { f with fresh := r.fresh, taken := r.chans.isSome, act := r.act } (r.chans.getD []))

/-- The word that is tried, for the record of one that will wait (R38). -/
def State.withWord (s : State) (w : LWord) : State := s.mapG fun g => { g with curWord := w }

/-- R16, R411: whether a word may issue with `n` ready splits of its core before it: a roof core's second lane word of a clock
is one of the FP32 group. -/
def slotTakes (s : State) (n : Nat) (w : LWord) : Bool := n = 0 || !s.isRoof || (LFields.ofWord w).op.toNat ≤ 0x18

/-- The lane word at the PC of a split, executed, with the lanes it had; none while no slot takes it. -/
def runL (s : State) (x : Split) (n : Nat) : Option (Res × Nat) :=
  match fetchL s x.pc with
  | .fault s code addr => some (fetchFaultL s x code addr, 0)
  | .word s w =>
    let act := wordLanes s x w
    if !slotTakes s n w then none
    else match decodeL w with
      | .error _ => some (wordFaultL s x 0x01 act, (lanesOf act).length)
      | .ok i => some (exec i (s.withWord w), (lanesOf act).length)

/-- R45: before it issues, a split merges with those that stand ready at its PC: the group, and the index it then has. -/
def mergedAt (g : Group) (n : Nat) : Group × Nat :=
  match g.split? n with
  | none => (g, n)
  | some x =>
    let h := mergeReady g n
    (h, match h.split? n with
      | some _ => n
      | none => ((h.curSplits.find? fun y => y.pc = x.pc && y.park = .ready).map fun y => y.idx).getD n)

/-- R411, R450: what a lane word that has issued counts. -/
def countedL (s : State) (g : Group) (i k : Nat) : State :=
  issuedL (if g.mode = .slice || g.mode = .device then s else counted (noteIssued s g (some i)) g.team g.ctx 18 [(0x02, 1), (0x03, k)]) g.uid i
    (g.curSplits.map fun y => y.idx)

/-- One try of the next lane word of a split, in its turn (R411). -/
def issueSplit (n : Nat) (s0 : State) : Res :=
  let (g, i) := mergedAt s0.g n
  let s := { s0 with g := { g with curSplit := i }, writer := some (.l g.uid i) }
  match s.g.split? i with
  | none => .next s0
  | some x =>
    if x.ending || x.park = .drain || x.park = .join then .next s0
    else if x.park = .ready && !issuesNow s s.g (s.g.uid, some i) then .next s0
    else
      let g := s.g
      match runL s x (if x.park = .ready then ahead s s.g (s.g.uid, some i) else 0) with
      | none => .next s0
      | some (r, k) => r.map fun s1 => if waitsL s1 g.uid i then s1 else countedL s1 g i k

/-- R38: one try of the lane word that waits as the k-th result of the issuing group; it has issued, and is not counted again. -/
def issueLate (k : Nat) (s : State) : Res :=
  match s.g.pend[k]? with
  | none => .next s
  | some p =>
    match p.late with
    | none => .next s
    | some w =>
      if p.ofHandler ≠ s.g.inHandler then .next s
      else
        let s := { s with g := { s.g with curSplit := 16 + k }, writer := some (.late s.g.uid p.seq) }
        match decodeL w.word with
        | .error _ => .next s
        | .ok i => exec i (s.withWord w.word)

/-- One try of a lane word: the next one of a split, or from 16 on one that waits. -/
def issueL (n : Nat) (s : State) : Res :=
  if !groupRuns s s.g then .next s
  else if lostHere s then .next (meetLost s)
  else if s.g.mode = .user && !s.g.faults.isEmpty then .next (takeEngineFault s)
  else if n < 16 then issueSplit n s
  else issueLate (n - 16) s

/-! ## Actions -/

/-- R423: a ready stream of a group was passed over in the present clock: it has not issued, and a word of its kind of another
context has, on its core. -/
def passedOver (s : State) (g : Group) : Bool :=
  (readyStreams s g).any fun x =>
    !(s.issued.any fun e => (e.group, e.split) = x)
      && s.issued.any fun e => e.core = coreOf s g && e.split.isSome = x.2.isSome && e.ctx ≠ g.ctx

/-- R451: a matrix word of a group stands parked because another context holds its bank, or because the engine is lent. -/
def bankTaken (s : State) (g : Group) : Bool :=
  match g.waitBank with
  | none => false
  | some (cl, n) =>
    let b := (s.cluster cl).bank n
    (g.park = .engine || g.park = .mstat) && ((b.holder.isSome && b.ctx ≠ g.ctx) || (n < 2 && lentOut s cl))

/-- R423, R451: counter 19 of a context: for each slice the clock in which a stream of it was passed over, or those in which a matrix
word of it was parked. -/
def countInterference (clocks : Nat) (s : State) (c : Nat) : State :=
  let mine := s.allGroups.filter fun g => g.live && !g.ended && g.ctx = c && (g.mode = .user || g.mode = .handler)
  (s.partSlices (c / 64)).foldl (fun (s : State) sl =>
    let here := mine.filter fun g => coreOf s g / 128 = sl
    s.bumpCounter c 19 (if here.any (bankTaken s) then clocks else if here.any (passedOver s) then min 1 clocks else 0)) s

/-- R375, R450: the clocks a context counts: with a group of it resident, and with one parked by W. -/
def countClocks (clocks : Nat) (s : State) (c : Nat) : State :=
  let mine := s.allGroups.filter fun g => g.live && !g.ended && g.ctx = c && (g.mode = .user || g.mode = .handler)
  let parked := mine.any fun g => g.park = .drain || g.park = .again || g.curSplits.any fun x => x.park = .drain
  let s := if mine.isEmpty then s else s.bumpCounter c 16 clocks
  if parked then s.countEvent c 0x13 clocks else s

/-- Time passes: ns of the slice timebase and clocks of the arithmetic clock. Waits for a synthetic deadline are brought up
to date first (R409). -/
def passTime (ns clocks : Nat) (s : State) : State :=
  let ids := s.ctxs.map fun c => c.id
  let s := ids.foldl (countInterference clocks) (ids.foldl (countClocks clocks) (refreshAll s))
  { s with now := s.now + ns, clk := s.clk + clocks, issued := if clocks = 0 then s.issued else [] }

/-- R134: a line leaves an L1: its dirty bytes are performed, and it is dropped. -/
def evictLine (core line : Nat) (s : State) : State :=
  let s := s.performDirty core fun k => k / 128 = line
  let l := s.l1 core
  s.setL1 { l with clean := SMap.erase l.clean line }

/-- Engine events one after another. -/
def runAll : List Instr → State → Res
  | [], s => .next s
  | e :: es, s =>
    match exec e s with
    | .next s => runAll es s
    | r => r

/-- R159: engine events whose decrements fall in one bank clock: the decrements are summed. -/
def together (es : List Instr) (s : State) : Res := (runAll es { s with decs := some [] }).map applyDecrs

/-- An action of the agenda. -/
def perform (a : Action) (s : State) : Res :=
  match a with
  | .issueC => issueC s
  | .issueL n => issueL n s
  | .select uid => .next (s.focus uid)
  | .event i => exec i s
  | .ctlFault sl code => execSliceControllerFault sl code s
  | .evict core line => .next (evictLine core line s)
  | .time ns clocks => .next (passTime ns clocks s)
  | .upset u => .next (upset u s)
  | .overlap k bs => .next { s with race := s.race ++ [(k, bs)] }
  | .together es => together es s
  | .display vf period next => .next (s.setVf { s.vf vf with vperiod := period, vnext := next })
  | .window ctx => .next (refreshWindow s ctx)
  | .mailRead fn off => readMailbox fn off s
  | .sliceReady sl => .next (sliceReady s sl)
  | .trained => .next (endBringUp s)
  | .peerNumber d p => .next (setPeerNumber s d p)
  | .peerWindows ws => .next (setPeerWindows s ws)
  | .queuePairs qs => .next (setQueuePairs s qs)

/-- What ends with a step: a group whose barrier has become invalid has lost it (R160), TSTBs that can read their line do (R196), teams
that meet their soft request are stopped (R413), the writes that overlapped it are performed
(R369, R370), roof domains gate (R275), and a writer that the log has not held waits no longer (R397). -/
def endStep (s : State) : State :=
  let s := meetSoft (performTests (noteLost s))
  let s := gateRoofs (s.race.foldl (fun s w => s.memWrite w.1 w.2) { s with race := [], guardW := [] })
  { s with
    logq := match s.writer with
      | some w => if s.logHeld then s.logq else s.logq.filter fun e => e.2 ≠ w
      | none => s.logq
    writer := none
    logHeld := false
    guardW := [] }

/-- A step is done; a write that overlaps the next one is kept for it. -/
def Action.done (a : Action) (s : State) : State :=
  match a with
  | .overlap _ _ => s
  | _ => endStep s

/-! ## Where no input says what happens -/

/-- What a group can do beside issuing a ready word: results, blocks, ends, and words that wait. -/
def groupPolls (g : Group) : List (State → Res) :=
  let at_ (f : State → Res) : State → Res := fun s => f (s.focus g.uid)
  ((List.range g.pend.length).map fun k => at_ (execLongLatencyReturn k))
    ++ [at_ execBlockStart, at_ execGroupEnd, at_ execSuccessorStart, at_ execSleepExpire, at_ execHandlerEntry]
    ++ (if g.park ≠ .none then [at_ issueC] else [])
    ++ ((g.curSplits.filter fun x => x.park = .word).map fun x => at_ (issueL x.idx))
    ++ ((List.range g.pend.length).filter fun k => match g.pend[k]? with | some p => p.late.isSome | none => false).map fun k => at_ (issueL (16 + k))

/-- What a team's engines and timers can do. -/
def teamPolls (uid : Nat) : List (State → Res) :=
  [execSplatCommandStart uid, execSprojGranule uid, execSbinGranule uid, execSblendTile uid, execSgradTile uid,
   execSplatGranuleFault uid, execGraceExpire uid, execKillExpire uid, execWatchdogExpire uid]

/-- What a cluster's units can do. -/
def clusterPolls (c : Cluster) : List (State → Res) :=
  (c.queue.map fun m => m.bank).flatMap (fun b => [execMatrixStep c.id b, execMstoreRun c.id b, execMzeroRun c.id b])
    ++ (if c.inbox.isEmpty then [] else [execInvocationArrive c.id])
    ++ [execRoofAreaLoad c.id, execRoofGate c.id, execRoofWake c.id]

/-- What a slice can do. -/
def slicePolls (c : Slice) : List (State → Res) :=
  (c.queues.flatMap fun e => [execCardAdmit c.id e.1, execStarveExpire c.id e.1])
    ++ [execTileRowRead c.id, execEncodeFrameDone c.id, execZeroingDone c.id, fun s => .next (sliceReady s c.id)]

/-- The command in progress in a mailbox. -/
def mailPoll (fn : Nat) (s : State) : Res :=
  let code := (s.mbox fn).run.1.toNat
  if !knownCode fn code then .next (if answers s code then refuseCmd s fn else s)
  else match code with
  | 0x01 => execQdesc fn s | 0x02 => execQreset fn s | 0x03 => execXblock fn s | 0x04 => execSblock fn s
  | 0x05 => execShoot fn s | 0x06 => execDirtylog fn s | 0x07 => execQuota fn s | 0x08 => execIntf fn s
  | 0x10 => execPmake fn s | 0x11 => execPfree fn s | 0x12 => execFuse fn s | 0x13 => execSplit fn s
  | 0x14 => execEngines fn s | 0x15 => execWays fn s | 0x16 => execBwclass fn s | 0x17 => execLease fn s
  | 0x18 => execRevoke fn s | 0x19 => execSreset fn s | 0x1A => execReport fn s | 0x1B => execZero fn s
  | 0x20 => execCkpt fn s | 0x21 => execRestore fn s | 0x30 => execFwstage fn s | 0x31 => execFwupdate fn s
  | _ => .next s

/-- What an L1 can do: perform a held store, or have a duplicate acknowledged. -/
def l1Polls (l : L1) : List (State → Res) :=
  (l.dirty.take 1).map (fun e => execStorePerformed l.id e.1)
    ++ (l.dup.take 1).map (fun d => execDuplicateAcknowledge l.id (128 * d.1))

/-- Everything that can happen of itself. -/
def polls (s : State) : List (State → Res) :=
  ((s.allGroups.filter fun g => g.live).flatMap groupPolls)
    ++ ((s.allTeams.filter fun t => t.live).flatMap fun t => teamPolls t.uid)
    ++ ((s.vfs.filter fun v => v.present).flatMap fun v =>
      [execDispatchTeam v.id, execLogRetry v.id] ++ (if v.vperiod = 0 then [] else [execVsync v.id]))
    ++ s.slices.flatMap slicePolls
    ++ s.cards.flatMap (fun k => [execCardStart k.id, execFragmentGroupLaunch k.id, execCardComplete k.id])
    ++ s.copies.map (fun c => execCopyUnitArrive c.id)
    ++ s.clusters.flatMap clusterPolls
    ++ ((s.mboxes.filter fun e => e.2.busy).map fun e => mailPoll e.1)
    ++ s.ckpts.map (fun c => if c.uncopied.isEmpty then execCkptStreamEnd c.ctx true else execCkptFrameCopied c.ctx)
    ++ s.l1s.flatMap l1Polls
    ++ ((s.ctxs.filter fun c => c.xb.ptwin ≠ 0).map fun c s => .next (refreshWindow s c.id))
    ++ [fun s => .next (endBringUp s), fun s => .next (passTime 1 1 s)]

/-- R411: the ready streams that an issue slot of their core takes. -/
def takable (s : State) : List Stream :=
  s.allGroups.flatMap fun g => (readyStreams s g).filter (issuesNow s g)

/-- One step that no input determines: a ready word, of every core in turn, and something else by turns. -/
def auto (s : State) : Res :=
  let s1 := { s with turn := s.turn + 1 }
  let other (s1 : State) : Res :=
    let ps := polls s1
    (ps.getD (s.turn / 2 % ps.length) fun s => .next s) s1
  if s.turn % 2 = 0 then
    let xs := takable s1
    match xs[s.turn / 2 % xs.length]? with
    | some (uid, none) => issueC (s1.focus uid)
    | some (uid, some n) => issueL n (s1.focus uid)
    | none => other s1
  else other s1

/-! ## Placing a word where the next step fetches it -/

/-- Bytes put into device memory, whatever stood there. -/
def placeBytes (k : Nat) (bs : List Byte) (s : State) : State :=
  { s.putBytes k bs with poison := s.poison.filter fun x => !(k < 32 * x + 32 && 32 * x < k + bs.length) }

/-- A page of a context mapped to partition address 0x6000 with every right, through tables of its own at 0x1000–0x5000. -/
def placePage (ctx va : Nat) (s : State) : State :=
  let k (a : Nat) : Nat := memKey (ctx / 64) a
  let i (lvl : Nat) : Nat := 8 * (va / 2 ^ (12 + 9 * lvl) % 512)
  let x := s.ctx ctx
  let s := s.setCtx { x with xb := { x.xb with root := 0x1000 }, tlb := [] }
  let s := placeBytes (k (0x1000 + i 4)) (leBytes 8 0x2001) s
  let s := placeBytes (k (0x2000 + i 3)) (leBytes 8 0x3001) s
  let s := placeBytes (k (0x3000 + i 2)) (leBytes 8 0x4001) s
  let s := placeBytes (k (0x4000 + i 1)) (leBytes 8 0x5001) s
  placeBytes (k (0x5000 + i 0)) (leBytes 8 0x613B) s

/-- A group that can issue: the one that issues where it lives, else one of its own in a team of its own. -/
def placeGroup (s : State) : State :=
  let s := if s.g.live && s.t.live && s.g.team = s.t.uid then s
    else
      let uid := s.nextId
      { s with
        g := { uid := uid, live := true, team := uid + 1, budget := 256, srCtr := startCtr 0 0 }
        t := { uid := uid + 1, live := true, wsize := 0x40000 }
        nextId := uid + 2 }
  let x := s.gctx
  let s := s.setCtx { x with frozen := false }
  let s := s.setVf { s.vf s.vfId with frozen := false }
  { s with
    powered := true
    g := { s.g with ended := false, frozen := false, halted := false, lost := false, park := .none, faults := [], yieldTo := [] }
    t := { s.t with ended := false, startAt := 0, lostL := [] } }

/-- A control word at the PC of the C-stream. -/
def placeC (w : Nat) (s : State) : State :=
  let s := placeGroup s
  let pc : DWord := if canonical s.g.pc && s.g.pc.toNat % 4 = 0 then s.g.pc else 0
  let s := s.mapG fun g => { g with pc := pc }
  let s := placePage s.g.ctx (pc.toNat % 2 ^ 57) s
  { placeBytes (memKey s.vfId (0x6000 + pc.toNat % 4096)) (leBytes 4 w) s with agenda := .issueC :: s.agenda }

/-- A lane word at the PC of split 0 of a block of user mode. -/
def placeL (w : Nat) (s : State) : State :=
  let s := placeGroup s
  let s := s.mapG fun g => { g with mode := .user, laneq := [{}], splits := [{ mask := BitVec.allOnes 32 }] }
  let s := s.mapT fun t => { t with ltext := 0 }
  let s := placePage s.g.ctx 0 s
  { placeBytes (memKey s.vfId 0x6000) (leBytes 12 w) s with agenda := .issueL 0 :: s.agenda }

end Sys2Proof.Machine
end

