-- ==== Sys2Proof/Machine/Step.lean ====
section
/-! DEFINITION. One step of the machine. -/

namespace Sys2Proof.Machine

/-- A step: the next action of the agenda, else one that no input determines. A device without power wakes only by
bring-up (R479). -/
def step (s : State) : Host.Outcome State Fault Refusal :=
  match s.agenda with
  | [] => if s.powered then Res.map (auto { s with tick := s.tick + 1 }) endStep else .fault .poweredDown
  | a :: rest =>
    if s.powered || a = .event .powerOn then Res.map (perform a { s with tick := s.tick + 1, agenda := rest }) a.done
    else .fault .poweredDown

/-- The state with an instruction where the next step fetches it: 32 bits are a control word, more are a lane word. -/
def State.withFetchWord (s : State) (nbits w : Nat) : State := if nbits ≤ 32 then placeC w s else placeL w s

end Sys2Proof.Machine
end

