-- ==== Sys2Proof/Safety.lean ====
section
/-! DEFINITION. What a safe run is, and the notions that claims name: what may differ between two states, and the
invariant of memory. -/

namespace Sys2Proof.Machine

/-- A step is safe where the machine goes on: it answers a next state. -/
def Safe (s : State) : Prop := ∃ t, step s = .next t

/-- A run of n steps, each of them safe. -/
def SafeRun (n : Nat) (s : State) : Prop := ∃ t, Host.Core.run Sys2Proof.core n s = .next t

/-- Device memory and host memory are in canonical form. -/
def State.MemWf (s : State) : Prop := Memory.wf s.mem = true ∧ Memory.wf s.hostMem = true

/-- Nothing outside the group that issues differs. -/
def State.OnlyGroup (s t : State) : Prop := { t with g := s.g } = s

/-- Every byte of memory, of the host and of the device, reads as before. -/
def State.SameMem (s t : State) : Prop := ∀ k, t.rdMem k = s.rdMem k

/-- Of a group, only scalar register d, the PC and what ends with a word (parking and its notes, results on their way) differ. -/
def Group.OnlyS (g h : Group) (d : SReg) : Prop :=
  { h with s := g.s, hb := g.hb, pc := g.pc, pend := g.pend, park := g.park, sleepEnd := g.sleepEnd, arrived := g.arrived,
           waitBar := g.waitBar, barLost := g.barLost, heapW := g.heapW } = g
    ∧ ∀ (i : SReg) (tick : Nat), i ≠ d → g.undrained (g.sKey i.toNat) = false → h.rdS tick i = g.rdS tick i

/-- Of a group, only predicate d, the PC and what ends with a word differ. -/
def Group.OnlyQ (g h : Group) (d : QReg) : Prop :=
  { h with q := g.q, hq7 := g.hq7, pc := g.pc, pend := g.pend, park := g.park, sleepEnd := g.sleepEnd, arrived := g.arrived,
           waitBar := g.waitBar, barLost := g.barLost, heapW := g.heapW } = g
    ∧ ∀ (i : QReg) (tick : Nat), i ≠ d → g.undrained (g.qKey i.toNat) = false → h.rdQ tick i = g.rdQ tick i

/-- Of a group, only the PC and what ends with a word differ. -/
def Group.OnlyPc (g h : Group) : Prop :=
  { h with pc := g.pc, pend := g.pend, park := g.park, sleepEnd := g.sleepEnd, arrived := g.arrived, waitBar := g.waitBar,
           barLost := g.barLost, heapW := g.heapW } = g

/-! ## Lane words -/

/-- A lane word with a header, the registers it may write and names, sources and destination issues at the split that issues next: its
static checks hold, its registers bear no error, its channel entries are there and taken, no word before it that group order puts
first still waits, and its destination has room. `c` is the word in execution, `popped` the channels it pops; `mem` where it accesses
memory. -/
structure LaneIssues (h : LHdr) (ds : List (Nat × Word)) (regs : List (Nat × Nat)) (os : List Src) (d : Option Dst) (s : State)
    (c : LCtx) (popped : List Nat) (mem : Bool := false) : Prop where
  low : s.g.curSplit < 16
  split : s.g.split? s.g.curSplit = some c.sp
  act : c.act = activeLanes s h c.sp
  mark : c.w = h.w
  start : c.s0 = s
  srcs : c.os = os
  dests : c.ds = ds
  first : c.late = none
  lanes : c.all = firstLanes s h c.sp
  turn : c.act = 0 ∨ earlierWords s.g c.sp ⟨mem, pushes d⟩ = []
  budget : inBudget s regs = true
  legal : os.all (srcLegal s) = true
  dst : ∀ x, d = some x → dstLegal s x = true
  clean : namesBad s regs = false
  take : takeEntries s c.sp none os = some (c.chv, popped)
  room : c.act = 0 ∨ dstRoom s d popped = true

/-- The state in which a lane word reads its operands: its channel entries are popped. -/
def LaneAt (os : List Src) (popped : List Nat) (s : State) : State := popEntries s os popped

/-- Where a lane word has issued and its split has passed it. -/
def LCtx.past (c : LCtx) (s : State) : State := s.mapG fun g => g.endL c.sp.idx c.w

/-- Whenever it issues, the word writes to its destination of n registers, in each active lane, what `f` gives for that
lane's operands, sets the flags `f` gives, and its split passes it. -/
def Computes (i : Instr) (h : LHdr) (long : Bool) (d : Dst) (n : Nat) (os : List Opd) (f : LaneFn) : Prop :=
  ∀ (s : State) (c : LCtx) (popped : List Nat),
    LaneIssues h (vDs n d) (dstRun n d ++ os.flatMap fun o => srcRun o.2 o.1) (os.map fun o => o.1) (some d) s c popped →
    let s1 := LaneAt (os.map fun o => o.1) popped s
    let rs := c.lanes.map fun l => (l, f fun j k => c.val s1 j ((os.map fun o => o.1).getD j (.vec 0)) k l)
    exec i s = .next (c.past (flagAll (rs.map fun r => r.2.2) (c.put long d (rs.map fun r => (r.1, r.2.1)) s1)))

/-- Whenever it issues, the word does `k`, in the state in which it reads its operands, and its split passes it. -/
def Does (i : Instr) (h : LHdr) (ds : List (Nat × Word)) (regs : List (Nat × Nat)) (os : List Src) (d : Option Dst)
    (k : LCtx → State → State) : Prop :=
  ∀ (s : State) (c : LCtx) (popped : List Nat), LaneIssues h ds regs os d s c popped →
    exec i s = .next (c.past (k c (LaneAt os popped s)))

/-- One result register and its flags. -/
abbrev oneReg (x : Word × Flags) : List Word × Flags := ([x.1], x.2)

end Sys2Proof.Machine
end

