-- ==== Sys2Proof/Certificates/Slice0/Obligations.lean ====
section
/-! DEFINITION. The statements for the provers. Each names the rules of the spec it comes from. -/

section

open Sys2Proof Sys2Proof.Machine

/-- R74, R75, R82, R83. Every word that encodes a well-formed instruction decodes to that instruction, whatever its
operands; for every instruction of the table that has a word. -/
def Obligations.DecodeEncode : Prop :=
  ∀ i : Instr, i.wf = true →
    (∀ x, encodeC i = some x → decodeC x = .ok i) ∧ (∀ x, encodeL i = some x → decodeL x = .ok i)

/-- R74, R75, R80–R83. What decodes is well-formed, and its encoding is the word it was decoded from: no bit of a word is
ignored. -/
def Obligations.EncodeDecode : Prop :=
  (∀ (x : Word) (i : Instr), decodeC x = .ok i → i.wf = true ∧ encodeC i = some x)
  ∧ (∀ (x : LWord) (i : Instr), decodeL x = .ok i → i.wf = true ∧ encodeL i = some x)

/-- R74, R75, R80, R82, R83. A few words of both streams, written out from the encodings of 03_encodings, decode to the instructions they
stand for; two that are not instructions do not decode. -/
def Obligations.DecodeWords : Prop :=
  decodeC 0x04188280 = .ok (.add false 3 4 5)
  ∧ decodeC 0x0A105FFF = .ok (.addi true 2 2 (-1))
  ∧ decodeC 0x44BFFFFB = .ok (.brq false 2 true (-5))
  ∧ decodeC 0xFC0091A2 = .ok (.limm 0x91A2)
  ∧ decodeC 0x28106202 = .ok (.cmp false 2 3 4 .lts)
  ∧ decodeC 0x6C20C404 = .ok (.atoms false 4 6 8 .add .prt)
  ∧ decodeC 0x8C20A501 = .ok (.heaptake false 4 5 true 2)
  ∧ decodeC 0xC0000002 = .ok (.rett false)
  ∧ decodeL 0x038006008040200800000000 = .ok (.ffma ⟨true, 0, false⟩ (.vec 3) (.vec 1) (.vec 2) (.vec 4) ⟨false, .zero⟩)
  ∧ decodeL 0x800010028000030000200010 = .ok (.ld ⟨false, 0, false⟩ .n32 .plain .grp 8 false (.glob 2 (.vec 5) 16))
  ∧ decodeL 0x4D00080080401B0000000096 = .ok (.logic3 ⟨false, 0, false⟩ (.vec 4) (.vec 1) (.vec 2) (.vec 3) 0x96)
  ∧ decodeC 0x041882FF = .error .reserved
  ∧ decodeL 0xFF0000000000000000000000 = .error .reserved

/-- R199, R411, R450; the agenda, the turn of a stream and its slots are the model's (log 3), and so is that a lane word waits as
the (16 + k)th (log 5). A step whose agenda tries the C-stream of a group that may issue in its turn, where the word
fetched at its PC decodes to i, executes i; a word that went through is counted. The same for a lane word of a split, and for a
lane word that has waited.
R74, R192, R384. What a C-stream fetch reads: the four bytes at the translated address, low byte first; off a multiple of 4 it
is an illegal instruction. -/
def Obligations.StepRuns : Prop :=
  (∀ (s s1 : State) (rest : List Action) (i : Instr),
     s.powered = true → (s.g.mode ≠ .user ∨ s.g.faults = []) →
     let s0 : State := { s with tick := s.tick + 1, agenda := rest }
     lostHere s0 = false →
     (∀ w, s.agenda = .issueC :: rest → mayIssueC s0 = true → (s.g.park = .none → issuesNow s0 s.g (s.g.uid, none) = true) →
       fetchC { s0 with writer := some (.c s.g.uid) } s.g.pc = .word s1 w → decodeC w = .ok i →
       step s = Res.map (exec i s1) fun t => endStep (if waitsC t s.g then t else countedC t s.g))
     ∧ (∀ n w x,
         let m := mergedAt s.g n
         let g : Group := { m.1 with curSplit := m.2 }
         let s2 : State := { s0 with g := g, writer := some (.l m.1.uid m.2) }
         n < 16 → s.agenda = .issueL n :: rest → groupRuns s0 s.g = true →
         g.split? m.2 = some x → x.ending = false → x.park ≠ .drain → x.park ≠ .join →
         (x.park = .ready → issuesNow s2 g (g.uid, some m.2) = true) → fetchL s2 x.pc = .word s1 w →
         slotTakes s1 (if x.park = .ready then ahead s2 g (g.uid, some m.2) else 0) w = true → decodeL w = .ok i →
         step s = Res.map (exec i (s1.withWord w)) fun t =>
           endStep (if waitsL t g.uid m.2 then t else countedL t g m.2 (lanesOf (wordLanes s1 x w)).length))
     ∧ (∀ k p x, s.agenda = .issueL (16 + k) :: rest → groupRuns s0 s.g = true → s.g.pend[k]? = some p → p.late = some x →
         p.ofHandler = s.g.inHandler → decodeL x.word = .ok i →
         let s2 : State := { s0 with g := { s.g with curSplit := 16 + k }, writer := some (.late s.g.uid p.seq) }
         step s = Res.map (exec i (s2.withWord x.word)) endStep))
  ∧ (∀ (s s1 : State) (pc : DWord) (key : Nat) (dup : Bool), pc.toNat % 4 = 0 → s.xlate pc 4 .ex = (s1, .ok key dup) →
       s1.poisoned key 4 = false →
       fetchC s pc = .word s1 (s1.rdMem (key + 3) ++ s1.rdMem (key + 2) ++ s1.rdMem (key + 1) ++ s1.rdMem key))
  ∧ ∀ (s : State) (pc : DWord), pc.toNat % 4 ≠ 0 → fetchC s pc = .fault s 0x01 pc

/-- R81, R479. Every instruction answers a next state, for every operand and every state; a step of a device with power is
safe, and one without power is safe only where it is bring-up, and stops as powered down elsewhere. -/
def Obligations.StepSafe : Prop :=
  (∀ (i : Instr) (s : State), ∃ t, exec i s = .next t)
  ∧ ∀ s : State, ((s.powered = true ∨ ∃ rest, s.agenda = .event .powerOn :: rest) → Safe s)
      ∧ (s.powered = false → (∀ rest, s.agenda ≠ .event .powerOn :: rest) → step s = .fault .poweredDown)

/-- R478, R67, R402, R403, R446, R470. What the spec gives for a device after bring-up: power on and running, device memory zero and whole,
no partition, queue, lease or checkpoint, no group or team resident; the default scheduling limits. The clock at 1,200 MHz with no time
passed, and the registers of the group that stands in the focus before any starts (q0 true, m0 to m14 all ones, the others zero), are
log 2's choice.
R34, R27, R116. A team that starts has an empty scratchpad with every line full and no channel entry; each of its groups
starts in user mode at the kernel's entry, with every register as the spec gives it, its own number in its team, and its
stochastic counters of that number and the team's linear number. -/
def Obligations.StartStates : Prop :=
  (let s := State.reset
   s.powered = true ∧ s.devState = 0 ∧ s.clk = 0 ∧ s.mhz = 1200
     ∧ (∀ k, k < 2 ^ 60 → s.rdMem k = 0) ∧ (∀ k n, s.poisoned k n = false) ∧ s.MemWf
     ∧ (∀ vf, (s.vf vf).present = false) ∧ s.allGroups.all (fun g => !g.live) = true ∧ s.allTeams.all (fun t => !t.live) = true
     ∧ s.leases.all (fun l => l.state = 0) = true ∧ s.ckpts = [] ∧ s.cards = [] ∧ s.copies = []
     ∧ (∀ c, (s.ctx c).sb.grace = 250 ∧ (s.ctx c).sb.kill = 10 ∧ (s.ctx c).sb.wdog = 2000 ∧ (s.ctx c).sb.hscr = 0
         ∧ (s.ctx c).hvec = 0 ∧ (s.ctx c).xb.root = 0 ∧ inUse s c = false)
     ∧ (∀ sl, (s.slice sl).state = 0 ∧ (s.slice sl).throttle = 16 ∧ (s.slice sl).heap = [] ∧ (s.slice sl).queues = [])
     ∧ (∀ fn, (s.mbox fn).busy = false ∧ (s.mbox fn).status = 0 ∧ (s.mbox fn).done = false ∧ (s.mbox fn).dropped = 0)
     ∧ (∀ tick i, s.g.rdS tick i = 0) ∧ (∀ tick i, s.g.rdQ tick i = decide (i = 0))
     ∧ (∀ tick i, i < 15 → s.g.rdM tick i = 0xFFFFFFFF) ∧ (∀ tick, s.g.rdM tick 15 = 0)
     ∧ (∀ tick r l, s.g.rdV tick r l = 0) ∧ s.g.gsr = 0 ∧ s.g.fmt = 0 ∧ s.g.mode = .user)
  ∧ (∀ (s : State) (l : Launch) (ctx card addr lin p at_ : Nat) (q : Nat × Nat) (chain : Bool),
       (l.roles.map fun r => r.1).sum ≤ 16 →
       let u := startTeam s l ctx card addr lin p at_ q chain
       (∀ g, g ∈ u.allGroups → g ∉ (dropRemains s p).allGroups →
         g.live = true ∧ g.ended = false ∧ g.frozen = false ∧ g.halted = false ∧ g.mode = .user ∧ g.pc = l.entry ∧ g.ctx = ctx
         ∧ (∀ tick i, g.rdS tick i = 0) ∧ (∀ tick i, g.rdQ tick i = decide (i = 0)) ∧ (∀ tick r n, g.rdV tick r n = 0)
         ∧ (∀ tick i, i < 15 → g.rdM tick i = 0xFFFFFFFF) ∧ (∀ tick, g.rdM tick 15 = 0)
         ∧ g.gsr = 0 ∧ (∀ i, g.rdT i = {}) ∧ g.ch16 = [] ∧ g.ch17 = [] ∧ g.laneq = [] ∧ g.fmt = 0 ∧ g.srKey = 0 ∧ g.inv = []
         ∧ g.pend = [] ∧ g.splits = []
         ∧ ∀ n, n < 32 → (g.rdCtr n).toNat = n * 2 ^ 32 + g.gid.toNat * 2 ^ 37 + lin % 2 ^ 32 * 2 ^ 64)
       ∧ ∀ t, t ∈ u.allTeams → t ∉ (dropRemains s p).allTeams →
         t.live = true ∧ t.lin = lin ∧ t.sp = [] ∧ t.emptyL = [] ∧ t.chans = [] ∧ t.wsize = l.smem)

/-- R125, R134, R381, R401. A performed write of device memory: the bytes written read back, every other byte reads as before,
the canonical form is kept, and a sector stays poisoned unless every byte of it was written. -/
def Obligations.MemoryWrites : Prop :=
  ∀ (s : State) (k : Nat) (bs : List Byte),
    (k + bs.length ≤ 2 ^ 60 → ∀ a, (s.memWrite k bs).rdMem a = if k ≤ a ∧ a < k + bs.length then bs.getD (a - k) 0 else
      s.rdMem a)
    ∧ (2 ^ 60 ≤ k → (∀ a, k ≤ a → a < k + bs.length → s.peerOf a = none) → s.peerOf k = none → ∀ a,
      (s.memWrite k bs).rdMem a = if k ≤ a ∧ a < k + bs.length then bs.getD (a - k) 0 else s.rdMem a)
    ∧ (s.MemWf → (s.memWrite k bs).MemWf)
    ∧ (∀ sec, sec ∈ (s.memWrite k bs).poison ↔ sec ∈ s.poison ∧ ¬(k ≤ 32 * sec ∧ 32 * sec + 32 ≤ k + bs.length))

/-- R125, R81. Device memory and host memory hold one byte at each address that was written and list no address twice or out of
order; every step of the machine, whatever its action, keeps them so. The canonical form of the lists is log 8's choice. -/
def Obligations.MemoryForm : Prop :=
  ∀ s t : State, s.MemWf → step s = .next t → t.MemWf

/-- R67, R68, R91, R92, R361. A register that was written reads as the value written, whatever was on its way to it; other
registers read as before. q0 reads true and m0 all ones, and a write to either changes nothing. In handler mode a write of
s48 to s63 leaves the user's registers as they were. -/
def Obligations.RegisterLaws : Prop :=
  ∀ (g : Group) (tick : Nat),
    (∀ d i v, (g.wrS d v).rdS tick i = if i = d then v else g.rdS tick i)
    ∧ (∀ d i b, d ≠ 0 → (g.wrQ d b).rdQ tick i = if i = d then b else g.rdQ tick i)
    ∧ (∀ b, g.wrQ 0 b = g) ∧ g.rdQ tick 0 = true
    ∧ (∀ r r' l l' x, l < 32 → l' < 32 → r' < 256 → r < 256 →
        (g.wrV r l x).rdV tick r' l' = if r' = r ∧ l' = l then x else g.rdV tick r' l')
    ∧ g.rdM tick 0 = 0xFFFFFFFF ∧ (∀ w, g.setM 0 w = g) ∧ (∀ l b, g.wrMBit 0 l b = g)
    ∧ (∀ i w, 0 < i → i < 16 → g.pend = [] → (g.setM i w).rdM tick i = w)
    ∧ (∀ d v, (g.wrP d v).rdP tick d = v)
    ∧ (∀ i r j, i < 16 → j < 16 → (g.wrT i r).rdT j = if j = i then r else g.rdT j)
    ∧ (∀ (d : SReg) v, g.mode = .handler → 48 ≤ d.toNat → (g.wrS d v).s = g.s)

/-- R67, R91, R92, R186–R193. The frame of the scalar words of one destination, of the predicate words and of the branches: a next
state that differs only in the group that issues, there only in the destination, the PC and what a W changes. All of memory is
unchanged. -/
def Obligations.ScalarFrame : Prop :=
  ∀ (w n m sense : Bool) (d a b : SReg) (p q r : QReg) (i : BitVec 13) (j : BitVec 19) (u : BitVec 16) (o : BitVec 21)
    (c : Cond) (k : ShiftKind) (x : BitVec 5) (s : State) (ins : Instr),
    (ins ∈ ([.add w d a b, .sub w d a b, .mul w d a b, .mulhs w d a b, .mulhn w d a b, .divs w d a b, .divn w d a b,
        .rems w d a b, .remn w d a b, .and w d a b, .or w d a b, .xor w d a b, .andn w d a b, .shl w d a b, .shr w d a b,
        .sar w d a b, .rotl w d a b, .mins w d a b, .maxs w d a b, .minn w d a b, .maxn w d a b, .clz w d a, .popc w d a,
        .brev w d a, .sel w d a n q, .addi w d a i, .muli w d a i, .andi w d a i, .ori w d a i, .xori w d a i, .shi w d a k x,
        .movi w d j, .movhi w d u, .bfx w d a b, .bfi w d a b, .loop w d i, .query w d a, .chstat w d a] : List Instr) →
      ∃ t, exec ins s = .next t ∧ s.OnlyGroup t ∧ s.g.OnlyS t.g d ∧ s.SameMem t)
    ∧ (ins ∈ ([.cmp w p a b c, .cmpi w c p a i, .qand w p n q m r, .qor w p n q m r, .qxor w p n q m r, .qnot w p q] : List Instr) →
      ∃ t, exec ins s = .next t ∧ s.OnlyGroup t ∧ s.g.OnlyQ t.g p ∧ s.SameMem t)
    ∧ (ins ∈ ([.nop w, .br w o, .brq w p sense o] : List Instr) →
      ∃ t, exec ins s = .next t ∧ s.OnlyGroup t ∧ s.g.OnlyPc t.g ∧ s.SameMem t)
    ∧ ∃ t, exec (.call w o) s = .next t ∧ s.OnlyGroup t ∧ s.g.OnlyS t.g 63 ∧ s.SameMem t

/-- R134, R196, R247, R248, R401. The frame of stores. STS writes the four bytes at the translated address of P(a) + disp: every other
byte that the group reads is as before, and memory itself does not change before the store is performed; so with a lane
store and the bytes its lanes were placed at, on the state after their translation. -/
def Obligations.StoreFrame : Prop :=
  (∀ (w : Bool) (d a : SReg) (i : BitVec 13) (s s1 : State) (key : Nat) (dup : Bool),
    s.xlate (s.g.rdP s.tick a + BitVec.ofInt 64 i.toInt) 4 .wr = (s1, .ok key dup) →
    ∃ t, exec (.sts w d a i) s = .next t ∧ s1.SameMem t
      ∧ (∀ k, (k < key ∨ key + 4 ≤ k) → t.l1Byte t.l1Id k k = s1.l1Byte s1.l1Id k k)
      ∧ (∀ j, j < 4 → t.l1Byte t.l1Id (key + j) (key + j) = (s.g.rdS s.tick d).extractLsb' (8 * j) 8)
      ∧ t.g.s = s1.g.s ∧ t.g.hb = s1.g.hb ∧ t.g.q = s1.g.q ∧ t.g.v = s1.g.v ∧ t.g.m = s1.g.m ∧ t.g.gsr = s1.g.gsr
      ∧ t.g.hs = s1.g.hs ∧ t.g.mode = s1.g.mode ∧ t.t = s1.t ∧ t.gs = s1.gs ∧ t.ts = s1.ts)
  ∧ (∀ (h : LHdr) (ty : NType) (hi : Bool) (m : MAddr) (data : Src) (s : State) (c : LCtx) (popped : List Nat),
    let os := (LAddr.ofM m).opds ++ [(data, ty.regs)]
    let s1 := LaneAt (os.map fun o => o.1) popped s
    let r := c.placeAll (.ofM m) (ty.bits / 8) .wr (c.lanes.filter fun l => !helperLane s1.g l) s1
    LaneIssues h [] (os.flatMap fun o => srcRun o.2 o.1) (os.map fun o => o.1) none s c popped true → spaceLegal s (.ofM m) = true →
    r.full = false → r.faults = [] →
    ∃ t, exec (.st h ty .plain .grp hi m data) s = .next t ∧ r.s.SameMem t
      ∧ (∀ k, (∀ p ∈ r.places, ∀ key dup va, p.2 = .glob key dup va → k < key ∨ key + ty.bits / 8 ≤ k) →
          t.l1Byte t.l1Id k k = r.s.l1Byte r.s.l1Id k k)
      ∧ (∀ k, (∀ p ∈ r.places, ∀ o, p.2 = .sp o → k < o ∨ o + ty.bits / 8 ≤ k) →
          SMap.get 0 t.t.sp k = SMap.get 0 r.s.t.sp k)
      ∧ t.g.s = r.s.g.s ∧ t.g.hb = r.s.g.hb ∧ t.g.q = r.s.g.q ∧ t.g.v = r.s.g.v ∧ t.g.m = r.s.g.m ∧ t.g.hs = r.s.g.hs
      ∧ t.gs = r.s.gs ∧ t.ts = r.s.ts)

/-- R209, R210, R120. The frame of a lane word that computes one register in each active lane: where it issues, the next state
has the same memory, teams and other groups as the state in which it reads its operands; of the group, no scalar
register, predicate, mask or mode changes, no vector register but the destination in the active lanes, and gsr only gains flags. -/
def Obligations.LaneFrame : Prop :=
  ∀ (h : LHdr) (d : VReg) (a b c : Src) (r : RS) (sat : Bool) (tt : BitVec 8) (n : BitVec 5) (os : List Opd) (ins : Instr) (s : State)
    (x : LCtx) (popped : List Nat),
    (os, ins) ∈ ([([(a, 1), (b, 1)], .fadd h (.vec d) a b r), ([(a, 1), (b, 1)], .fsub h (.vec d) a b r),
      ([(a, 1), (b, 1)], .fmul h (.vec d) a b r), ([(a, 1), (b, 1), (c, 1)], .ffma h (.vec d) a b c r),
      ([(a, 1), (b, 1)], .fmin h (.vec d) a b), ([(a, 1), (b, 1)], .fmax h (.vec d) a b), ([(a, 1), (b, 1)], .fdiv h (.vec d) a b r),
      ([(a, 1)], .fsqrt h (.vec d) a r), ([(a, 1)], .fclass h (.vec d) a),
      ([(a, 1), (b, 1)], .iadd h .s32 (.vec d) a b sat), ([(a, 1), (b, 1)], .imul h .n32 (.vec d) a b sat),
      ([(a, 1), (b, 1), (c, 1)], .logic3 h (.vec d) a b c tt), ([(a, 1)], .lanePopc h (.vec d) a),
      ([(a, 1)], .mov h .n32 (.vec d) a), ([(a, 1), (b, 1)], .shfl h .n32 (.vec d) a b),
      ([(a, 1)], .shflx h .n32 (.vec d) a n)] : List (List Opd × Instr)) →
    LaneIssues h (vDs 1 (.vec d)) (dstRun 1 (.vec d) ++ os.flatMap fun o => srcRun o.2 o.1) (os.map fun o => o.1) (some (.vec d)) s x popped →
    let s1 := LaneAt (os.map fun o => o.1) popped s
    ∃ t, exec ins s = .next t ∧ s1.OnlyGroup t ∧ s1.SameMem t
      ∧ t.g.s = s.g.s ∧ t.g.hb = s.g.hb ∧ t.g.q = s.g.q ∧ t.g.m = s.g.m ∧ t.g.tr = s.g.tr ∧ t.g.hs = s.g.hs ∧ t.g.mode = s.g.mode
      ∧ t.g.fmt = s.g.fmt ∧ t.g.srKey = s.g.srKey ∧ t.g.srCtr = s.g.srCtr ∧ s.g.gsr ||| t.g.gsr = t.g.gsr
      ∧ ∀ k l tick, l < 32 → (k ≠ d.toNat ∨ l ∉ x.lanes) → s.g.undrained (vKey k l) = false → t.g.rdV tick k l = s.g.rdV tick k l

/-- R361, R363. RETT of an idle handler: user mode, the user's s48 to s63, q7 and m15 read again, and the PC at the faulting
word, after it for a trap, or at the boundary the fault was taken at. -/
def Obligations.HandlerReturn : Prop :=
  ∀ (w : Bool) (s : State),
    s.g.mode = .handler → ¬(s.g.hs.cause.extractLsb' 10 2 = 0 ∧ s.g.hs.cause.extractLsb' 0 8 = 8 ∧ s.g.hs.pc.extractLsb' 0 2 ≠ 0) →
    handlerDone s.g = true → ∃ t, exec (.rett w) s = .next t
      ∧ t.g.mode = .user ∧ t.g.s = s.g.s ∧ t.g.q = s.g.q ∧ t.g.v = s.g.v ∧ t.g.tr = s.g.tr ∧ t.g.hs = s.g.hs
      ∧ SMap.get (mDefault 15) t.g.m 15 = s.g.m15user
      ∧ (∀ i, i ≠ 15 → SMap.get (mDefault i) t.g.m i = SMap.get (mDefault i) s.g.m i)
      ∧ (s.g.hs.cause.extractLsb' 10 2 = 0 → t.g.pc = if s.g.hs.cause.extractLsb' 0 8 = 8 then s.g.hs.pc + 4 else s.g.hs.pc)
      ∧ (s.g.hs.cause.extractLsb' 10 2 ≠ 0 → t.g.pc = s.g.upc)

/-- R186. The value each member of the integer group writes to s[d], as arithmetic on its operands; CLZ, POPC, BREV and SEL by
bits. No member changes gsr or faults. A word of CLZ, POPC or BREV with a b field that is not 0, and of SEL with b[5:4]
not 0, is no instruction.
Every member completes here. -/
def Obligations.IntegerResults : Prop :=
  (∀ (w : Bool) (d a b : SReg) (s : State),
    let A := s.g.rdS s.tick a
    let B := s.g.rdS s.tick b
    let n := B.toNat % 32
    let ret (v : Word) : Res := .next ((s.mapG fun g => g.wrS d v).endC w 4)
    exec (.add w d a b) s = ret (BitVec.ofNat 32 (A.toNat + B.toNat))
    ∧ exec (.sub w d a b) s = ret (BitVec.ofInt 32 (A.toInt - B.toInt))
    ∧ exec (.mul w d a b) s = ret (BitVec.ofNat 32 (A.toNat * B.toNat))
    ∧ exec (.mulhs w d a b) s = ret (BitVec.ofInt 32 (A.toInt * B.toInt / 2 ^ 32))
    ∧ exec (.mulhn w d a b) s = ret (BitVec.ofNat 32 (A.toNat * B.toNat / 2 ^ 32))
    ∧ exec (.divs w d a b) s = ret (if B = 0 then 0xFFFFFFFF else BitVec.ofInt 32 (A.toInt.tdiv B.toInt))
    ∧ exec (.divn w d a b) s = ret (if B = 0 then 0xFFFFFFFF else BitVec.ofNat 32 (A.toNat / B.toNat))
    ∧ exec (.rems w d a b) s = ret (if B = 0 then A else BitVec.ofInt 32 (A.toInt.tmod B.toInt))
    ∧ exec (.remn w d a b) s = ret (BitVec.ofNat 32 (A.toNat % B.toNat))
    ∧ exec (.and w d a b) s = ret (A &&& B)
    ∧ exec (.or w d a b) s = ret (A ||| B)
    ∧ exec (.xor w d a b) s = ret (A ^^^ B)
    ∧ exec (.andn w d a b) s = ret (A &&& ~~~B)
    ∧ exec (.shl w d a b) s = ret (BitVec.ofNat 32 (A.toNat * 2 ^ n))
    ∧ exec (.shr w d a b) s = ret (BitVec.ofNat 32 (A.toNat / 2 ^ n))
    ∧ exec (.sar w d a b) s = ret (BitVec.ofInt 32 (A.toInt / 2 ^ n))
    ∧ exec (.rotl w d a b) s = ret ((A <<< n) ||| (A >>> (32 - n)))
    ∧ exec (.mins w d a b) s = ret (if A.toInt ≤ B.toInt then A else B)
    ∧ exec (.maxs w d a b) s = ret (if B.toInt ≤ A.toInt then A else B)
    ∧ exec (.minn w d a b) s = ret (if A.toNat ≤ B.toNat then A else B)
    ∧ exec (.maxn w d a b) s = ret (if B.toNat ≤ A.toNat then A else B)
    ∧ (∃ k, k ≤ 32 ∧ (∀ i, i < k → A.getLsbD (31 - i) = false) ∧ (k < 32 → A.getLsbD (31 - k) = true)
        ∧ exec (.clz w d a) s = ret (BitVec.ofNat 32 k))
    ∧ exec (.popc w d a) s = ret (BitVec.ofNat 32 ((List.range 32).countP fun i => A.getLsbD i))
    ∧ (∃ r : Word, (∀ i, i < 32 → r.getLsbD i = A.getLsbD (31 - i)) ∧ exec (.brev w d a) s = ret r)
    ∧ (∀ (m : Bool) (q : QReg), exec (.sel w d a m q) s =
        if s.g.rdQ s.tick q ≠ m then ret A else .next (s.endC w 4))
    ∧ (∀ v, ((s.mapG fun g => g.wrS d v).endC w 4).g.gsr = s.g.gsr))
  ∧ ∀ x : Word, x.extractLsb' 26 6 = 1 →
      (x.extractLsb' 0 7 ∈ [21, 22, 23] → x.extractLsb' 7 6 ≠ 0 → ∃ e, decodeC x = .error e)
      ∧ (x.extractLsb' 0 7 = 24 → x.extractLsb' 11 2 ≠ 0 → ∃ e, decodeC x = .error e)

/-- R187. The immediate group; I is SignExtend32(imm13).
R77, R78. A LIMM and the word after it issue as one word of 8 bytes, whose immediate is the 32-bit value
(imm26 ## imm13)[31:0]; LDS and STS take the 39-bit value. -/
def Obligations.ImmediateResults : Prop :=
  (∀ (w : Bool) (d a : SReg) (i : BitVec 13) (s : State),
     let A := s.g.rdS s.tick a
     let I : Word := BitVec.ofInt 32 i.toInt
     let ret (v : Word) : Res := .next ((s.mapG fun g => g.wrS d v).endC w 4)
     exec (.addi w d a i) s = ret (A + I)
     ∧ exec (.muli w d a i) s = ret (A * I)
     ∧ exec (.andi w d a i) s = ret (A &&& I)
     ∧ exec (.ori w d a i) s = ret (A ||| I)
     ∧ exec (.xori w d a i) s = ret (A ^^^ I)
     ∧ (∀ n : BitVec 5,
         exec (.shi w d a .shl n) s = ret (A <<< n.toNat) ∧ exec (.shi w d a .shr n) s = ret (A >>> n.toNat)
         ∧ exec (.shi w d a .sar n) s = ret (A.sshiftRight n.toNat)
         ∧ exec (.shi w d a .rotl n) s = ret ((A <<< n.toNat) ||| (A >>> (32 - n.toNat))))
     ∧ (∀ k : BitVec 19, exec (.movi w d k) s = ret (BitVec.ofInt 32 k.toInt))
     ∧ (∀ k : BitVec 16, exec (.movhi w d k) s = ret (k ++ (s.g.rdS s.tick d).extractLsb' 0 16)))
  ∧ (∀ (hi : BitVec 26) (j : BitVec 13) (w : Bool) (d a : SReg) (q : QReg) (c : Cond) (s s1 : State) (x : Word) (i : Instr),
       fetchC s (s.g.pc + 4) = .word s1 x → decodeC x = .ok i →
       let I : Word := BitVec.ofNat 32 (hi.toNat * 2 ^ 13 + j.toNat)
       let A := s1.g.rdS s1.tick a
       let ret (v : Word) : Res := .next ((s1.mapG fun g => g.wrS d v).endC w 8)
       (i = .addi w d a j → exec (.limm hi) s = ret (A + I))
       ∧ (i = .muli w d a j → exec (.limm hi) s = ret (A * I))
       ∧ (i = .andi w d a j → exec (.limm hi) s = ret (A &&& I))
       ∧ (i = .ori w d a j → exec (.limm hi) s = ret (A ||| I))
       ∧ (i = .xori w d a j → exec (.limm hi) s = ret (A ^^^ I))
       ∧ (i = .movi w d (j.setWidth 19) → exec (.limm hi) s = ret I)
       ∧ (i = .cmpi w c q a j → exec (.limm hi) s = .next ((s1.mapG fun g => g.wrQ q (condHolds c A I)).endC w 8))
       ∧ (i = .lds w d a j → exec (.limm hi) s = ldsAt w 8 d a (BitVec.ofInt 64 (hi ++ j).toInt) s1)
       ∧ (i = .sts w d a j → exec (.limm hi) s = stsAt w 8 d a (BitVec.ofInt 64 (hi ++ j).toInt) s1)
       ∧ (i = .ldc w d a j → exec (.limm hi) s = ldcAt w 8 d a I s1))

/-- R188. What CMP and CMPI write to q[d]: S conditions read both operands signed, N conditions natural; at once, and q0
ignores it. A CMP word with d[5:3] not 0 or a function from 10 is no instruction, and CMPI has the first eight conditions. -/
def Obligations.CompareResults : Prop :=
  (∀ (w : Bool) (q : QReg) (c : Cond) (a b : SReg) (i : BitVec 13) (s : State),
    let holds (x y : Word) : Bool := match c with
      | .eq => x = y | .ne => x ≠ y
      | .lts => x.toInt < y.toInt | .les => x.toInt ≤ y.toInt | .gts => x.toInt > y.toInt | .ges => x.toInt ≥ y.toInt
      | .ltn => x.toNat < y.toNat | .len => x.toNat ≤ y.toNat | .gtn => x.toNat > y.toNat | .gen => x.toNat ≥ y.toNat
    let ret (v : Bool) : Res := .next ((s.mapG fun g => g.wrQ q v).endC w 4)
    exec (.cmp w q a b c) s = ret (holds (s.g.rdS s.tick a) (s.g.rdS s.tick b))
    ∧ exec (.cmpi w c q a i) s = ret (holds (s.g.rdS s.tick a) (BitVec.ofInt 32 i.toInt))
    ∧ (∀ v tick, q ≠ 0 → (s.g.wrQ q v).rdQ tick q = v) ∧ (∀ v, s.g.wrQ 0 v = s.g))
  ∧ ∀ x : Word, x.extractLsb' 26 6 = 0x0A →
      (x.extractLsb' 22 3 ≠ 0 → ∃ e, decodeC x = .error e) ∧ (10 ≤ (x.extractLsb' 0 7).toNat → ∃ e, decodeC x = .error e)
      ∧ (∀ (y : Word) w c q a i, decodeC y = .ok (.cmpi w c q a i) → c ≠ .gtn ∧ c ≠ .gen)

/-- R189. The wide group, on pairs and quads. -/
def Obligations.WideResults : Prop :=
  ∀ (w : Bool) (d a b : SReg) (s : State),
    let A := (s.g.rdP s.tick a).toNat
    let B := (s.g.rdP s.tick b).toNat
    let n := (s.g.rdS s.tick b).toNat % 64
    let ret (v : DWord) : Res := .next ((s.mapG fun g => g.wrP d v).endC w 4)
    exec (.add64 w d a b) s = ret (BitVec.ofNat 64 (A + B))
    ∧ exec (.sub64 w d a b) s = ret (BitVec.ofInt 64 ((A : Int) - B))
    ∧ exec (.mul64 w d a b) s = ret (BitVec.ofNat 64 (A * B))
    ∧ exec (.shl64 w d a b) s = ret (BitVec.ofNat 64 (A * 2 ^ n))
    ∧ exec (.shr64 w d a b) s = ret (BitVec.ofNat 64 (A / 2 ^ n))
    ∧ exec (.add128 w d a b) s = .next ((s.mapG fun g => g.wrQuad d
        (BitVec.ofNat 128 ((s.g.rdQuad s.tick a).toNat + (s.g.rdQuad s.tick b).toNat))).endC w 4)

/-- R190. BFX and BFI, bit by bit: pos = s[c][4:0], w = Min(s[c][13:8], 32), sx = s[c][16]. -/
def Obligations.BitFieldResults : Prop :=
  ∀ (m : Bool) (a b c : SReg) (s : State),
    let A := s.g.rdS s.tick a
    let B := s.g.rdS s.tick b
    let C := s.g.rdS s.tick c
    let pos := C.toNat % 32
    let w := min (C.toNat / 2 ^ 8 % 64) 32
    let sx := C.getLsbD 16
    let ret (v : Word) : Res := .next ((s.mapG fun g => g.wrS a v).endC m 4)
    (∃ f : Word, exec (.bfx m a b c) s = ret f ∧ ∀ i, i < 32 →
      f.getLsbD i = if i < w then B.getLsbD (pos + i) else sx && decide (0 < w) && B.getLsbD (pos + w - 1))
    ∧ (∃ f : Word, exec (.bfi m a b c) s = ret f ∧ ∀ i, i < 32 →
      f.getLsbD i = if pos ≤ i ∧ i < pos + w then B.getLsbD (i - pos) else A.getLsbD i)

/-- R191. The predicate group; a write to q0 is ignored, and a word with a[5:3], b[5:4] or c[5:4] not 0, or a QNOT with b[3] or
c not 0, is no instruction. -/
def Obligations.PredicateResults : Prop :=
  (∀ (w : Bool) (a b c : QReg) (n m : Bool) (s : State),
    let qb := xor (s.g.rdQ s.tick b) n
    let qc := xor (s.g.rdQ s.tick c) m
    let ret (v : Bool) : Res := .next ((s.mapG fun g => g.wrQ a v).endC w 4)
    exec (.qand w a n b m c) s = ret (qb && qc)
    ∧ exec (.qor w a n b m c) s = ret (qb || qc)
    ∧ exec (.qxor w a n b m c) s = ret (xor qb qc)
    ∧ exec (.qnot w a b) s = ret (!s.g.rdQ s.tick b)
    ∧ (∀ v tick, a ≠ 0 → (s.g.wrQ a v).rdQ tick a = v) ∧ (∀ v, s.g.wrQ 0 v = s.g))
  ∧ ∀ (x : Word) w a b c n m, 
      (decodeC x = .ok (.qand w a n b m c) ∨ decodeC x = .ok (.qor w a n b m c) ∨ decodeC x = .ok (.qxor w a n b m c)
        ∨ decodeC x = .ok (.qnot w a b)) →
      x.extractLsb' 22 3 = 0 ∧ x.extractLsb' 17 2 = 0 ∧ x.extractLsb' 11 2 = 0
        ∧ (decodeC x = .ok (.qnot w a b) → x.extractLsb' 16 1 = 0 ∧ x.extractLsb' 7 6 = 0)

/-- R192. Branches and calls: where the PC goes, and what a link register takes. An indirect target that is not a
multiple of 4 raises the illegal-instruction fault, and no register changes.
R193. LOOP: the count less one, and the branch while it is not 0, a count of 0 wrapping. A LOOP word with an a field that is
not 0 is no instruction, and one after a LIMM is illegal. -/
def Obligations.BranchTargets : Prop :=
  (∀ (w : Bool) (q : QReg) (sense : Bool) (o : BitVec 21) (d a : SReg) (s : State),
    let pc := s.g.pc
    let T := s.g.rdS s.tick a
    let target := pc + BitVec.ofInt 64 (4 * o.toInt)
    let link := (pc + 4).extractLsb' 0 32
    let far := pc.extractLsb' 32 32 ++ T
    exec (.br w o) s = .next (s.mapG fun g => g.jumpC w target)
    ∧ exec (.brq w q sense o) s =
        (if s.g.rdQ s.tick q = sense then .next (s.mapG fun g => g.jumpC w target) else .next (s.endC w 4))
    ∧ exec (.call w o) s = .next (s.mapG fun g => (g.wrS 63 link).jumpC w target)
    ∧ (T.toNat % 4 = 0 →
        exec (.jmpi w a) s = .next (s.mapG fun g => g.jumpC w far)
        ∧ exec (.calli w d a) s = .next (s.mapG fun g => (g.wrS d link).jumpC w far)
        ∧ exec (.ret w a) s = .next (s.mapG fun g => g.jumpC w far))
    ∧ (T.toNat % 4 ≠ 0 →
        let f := Host.Outcome.next (takeFault s { code := 1, pc := pc } [])
        exec (.jmpi w a) s = f ∧ exec (.calli w d a) s = f ∧ exec (.ret w a) s = f))
  ∧ (∀ (w : Bool) (d : SReg) (i : BitVec 13) (s : State),
    let n := s.g.rdS s.tick d
    let s1 := s.mapG fun g => g.wrS d (n - 1)
    exec (.loop w d i) s =
      if n = 1 then .next (s1.endC w 4)
      else .next (s1.mapG fun g => g.jumpC w (s.g.pc + BitVec.ofInt 64 (4 * i.toInt))))
  ∧ (∀ x : Word, x.extractLsb' 26 6 = 0x14 → x.extractLsb' 13 6 ≠ 0 → ∃ e, decodeC x = .error e)
  ∧ ∀ (hi : BitVec 26) (x : Word) (w : Bool) (d : SReg) (i : BitVec 13) (s s1 : State),
      fetchC s (s.g.pc + 4) = .word s1 x → decodeC x = .ok (.loop w d i) →
      exec (.limm hi) s = .next (takeFault s1 { code := 1, pc := s1.g.pc } [])

/-- R184, R185, R21, R72. NOP; SLEEP, which goes on once its time has passed and waits at its word before; CLOCK;
QUERY; and MOVSR of every readable register.
R374, R375. MOVSW and the counters in the modes that may write them; elsewhere they are illegal.
NOP, SLEEP, CLOCK, QUERY, MOVSR, MOVSW and the counter words complete here. -/
def Obligations.SpecialRegisters : Prop :=
  (∀ (w : Bool) (d a : SReg) (s : State),
     let A := s.g.rdS s.tick a
     exec (.nop w) s = .next (s.endC w 4)
     ∧ (A = 0 → exec (.sleep w a) s = .next (s.endC w 4))
     ∧ (∀ e, s.g.sleepEnd = some e → e ≤ s.now → exec (.sleep w a) s = .next (s.endC w 4))
     ∧ (A ≠ 0 → s.g.sleepEnd = none → exec (.sleep w a) s =
         .next ((s.mapG fun g => { g with sleepEnd := some (s.now + A.toNat) }).parkC .sleep))
     ∧ exec (.clock w d 0) s = .next ((s.mapG fun g => g.wrP d (BitVec.ofNat 64 s.now + s.gctx.clkOff)).endC w 4)
     ∧ exec (.clock w d 1) s =
         .next ((s.mapG fun g => g.wrP d (BitVec.ofNat 64 (s.clk - (s.slice s.sliceId).clk0))).endC w 4)
     ∧ (A.toNat < 2 ^ 16 → exec (.query w d a) s =
         .next ((s.mapG fun g => g.wrS d (queryLeaf s (A.toNat % 256) (A.toNat / 256))).endC w 4))
     ∧ (2 ^ 16 ≤ A.toNat → exec (.query w d a) s = .next ((s.mapG fun g => g.wrS d 0).endC w 4))
     ∧ (∀ (i : BitVec 12) (v : Word), readSpecial s i.toNat none = some v →
         exec (.movsr w d i) s = .next ((s.mapG fun g => g.wrS d v).endC w 4)))
  ∧ (∀ (w : Bool) (a : SReg) (i : BitVec 12) (n : BitVec 5) (s : State),
       let A := s.g.rdS s.tick a
       let illegal := Host.Outcome.next (takeFault s { code := 1, pc := s.g.pc } [])
       let controller := s.g.mode = .slice ∨ s.g.mode = .device
       (∀ t, writeSpecial s i.toNat A = some t → exec (.movsw w a i) s = .next (t.endC w 4))
       ∧ (writeSpecial s i.toNat A = none → exec (.movsw w a i) s = illegal)
       ∧ (∀ g, i.toNat = 0x010 → g = { s.g with gsr := s.g.gsr &&& ~~~(A.setWidth 10) } →
           exec (.movsw w a i) s = .next (({ s with g := g } : State).endC w 4))
       ∧ ((s.g.mode ≠ .user ∨ s.gctx.ucnt = true) → countsFree s n.toNat = false →
           exec (.pcntRd w a n) s = .next ((s.mapG fun g => g.wrP a (SMap.get 0 s.gctx.cnt n.toNat)).endC w 4))
       ∧ (s.g.mode = .user → s.gctx.ucnt = false → exec (.pcntRd w a n) s = illegal)
       ∧ (controller → exec (.pcntWr w a n) s =
           .next ((s.setCtx { s.gctx with cnt := SMap.set 0 s.gctx.cnt n.toNat (s.g.rdP s.tick a) }).endC w 4))
       ∧ (controller → A.toNat ≤ 0x15 → exec (.pcntSel w a n) s =
           .next ((s.setCtx { s.gctx with sel := SMap.set 0 s.gctx.sel n.toNat (A.extractLsb' 0 8) }).endC w 4))
       ∧ (¬controller → exec (.pcntWr w a n) s = illegal ∧ exec (.pcntSel w a n) s = illegal))

/-- R128, R130, R141, R196–R198, R401. LDS, STS, LDC, TSTB and ATOMS whose access is granted: the value read is a long-latency
result, the store goes to the translated bytes, the atomic is one read-modify-write of order ar, once the loads before it have
returned. A refused access faults with its code and address, of poisoned bytes with code 0x0D; an LDC outside the bank with code 6.
LDS, STS, LDC, TSTB and ATOMS complete here. -/
def Obligations.ScalarMemory : Prop :=
  ∀ (w : Bool) (d a b c : SReg) (i : BitVec 13) (q : QReg) (t : TestKind) (op : AtomOp) (sc : Scope) (s s1 : State)
    (key : Nat) (dup : Bool),
    let va := s.g.rdP s.tick a + BitVec.ofInt 64 i.toInt
    let word (bs : List Byte) : Word := BitVec.ofNat 32 (leValue bs)
    let read (s1 : State) (d : SReg) : State :=
      let r := s1.loadBytes key 4 .plain .grp dup
      r.1.resultC [(r.1.g.sKey d.toNat, word r.2)]
    let off : Int := (s.g.rdS s.tick a).toNat + i.toInt
    let bank := constBase s.t + BitVec.ofInt 64 off
    let mask := s.g.rdS s.tick b
    let fault (s1 : State) (code : Nat) (x : DWord) : Res :=
      .next (takeFault s1 { code := BitVec.ofNat 8 code, pc := s1.g.pc, addr := x } [])
    (s.xlate va 4 .rd = (s1, .ok key dup) →
        (s1.poisonedHere key 4 = false → exec (.lds w d a i) s = .next ((read s1 d).endC w 4))
        ∧ (s1.poisonedHere key 4 = true → exec (.lds w d a i) s = fault s1 0x0D va))
    ∧ (∀ code, s.xlate va 4 .rd = (s1, .fault code) → exec (.lds w d a i) s = fault s1 code va)
    ∧ (s.xlate va 4 .wr = (s1, .ok key dup) →
        exec (.sts w d a i) s = .next ((s1.storeBytes key (leBytes 4 (s.g.rdS s.tick d).toNat) .grp dup).endC w 4))
    ∧ (∀ code, s.xlate va 4 .wr = (s1, .fault code) → exec (.sts w d a i) s = fault s1 code va)
    ∧ (bank.toNat % 4 = 0 → 0 ≤ off → off + 4 ≤ (constSize s.t : Int) →
        (s.xlate bank 4 .rd = (s1, .ok key dup) → s1.poisoned key 4 = false →
          exec (.ldc w d a i) s = .next ((s1.resultC [(s1.g.sKey d.toNat, BitVec.ofNat 32 (s1.rdMemNat key 4))]).endC w 4))
        ∧ (s.xlate bank 4 .rd = (s1, .ok key dup) → s1.poisoned key 4 = true → exec (.ldc w d a i) s = fault s1 0x0D bank)
        ∧ ∀ code, s.xlate bank 4 .rd = (s1, .fault code) → exec (.ldc w d a i) s = fault s1 code bank)
    ∧ (bank.toNat % 4 ≠ 0 → exec (.ldc w d a i) s = fault s 3 bank)
    ∧ (bank.toNat % 4 = 0 → (off < 0 ∨ (constSize s.t : Int) < off + 4) →
        exec (.ldc w d a i) s = fault s 6 (BitVec.ofInt 64 off))
    ∧ (let A := s.g.rdP s.tick a
       s.xlate A 4 .rd = (s1, .ok key dup) → s1.poisonedHere key 4 = false →
        let r := s1.loadBytes key 4 .plain .grp dup
        exec (.tstb w a b q false t) s =
          .next ((r.1.resultC [(r.1.g.qKey q.toNat, if tstbHolds t (word r.2) mask then 1 else 0)]).endC w 4))
    ∧ (let A := s.g.rdP s.tick a
       (s.xlate A 4 .rd = (s1, .ok key dup) → s1.poisonedHere key 4 = true → exec (.tstb w a b q false t) s = fault s1 0x0D A)
       ∧ ∀ code, s.xlate A 4 .rd = (s1, .fault code) → exec (.tstb w a b q false t) s = fault s1 code A)
    ∧ (let o := (s.g.rdS s.tick a).toNat
       (o % 4 ≠ 0 → exec (.tstb w a b q true t) s = fault s 3 (BitVec.ofNat 64 o))
       ∧ (o % 4 = 0 → s.t.wsize < o + 4 → exec (.tstb w a b q true t) s = fault s 5 (BitVec.ofNat 64 o)))
    ∧ (let o := (s.g.rdS s.tick a).toNat
       o % 4 = 0 → o + 4 ≤ s.t.wsize → s.spFull o 4 = true → exec (.tstb w a b q true t) s =
          .next ((s.resultC [(s.g.qKey q.toNat, if tstbHolds t (word (s.spBytes o 4)) mask then 1 else 0)]).endC w 4))
    ∧ (let o := (s.g.rdS s.tick a).toNat
       o % 4 = 0 → o + 4 ≤ s.t.wsize → s.spFull o 4 = false → exec (.tstb w a b q true t) s =
          .next ((s.mapG fun g => g.addPend { strm := g.cStrm, dests := wholes [(g.qKey q.toNat, 0)], test := some (o, t, mask),
                                              seq := s.tick }).endC w 4))
    ∧ (s.g.loadsDue = true → exec (.atoms w a b c op sc) s = .next (s.parkC .again))
    ∧ (let B := s.g.rdP s.tick b
       let carried : Prop := op.carried = true ∨ (s1.peerOf key).isSome = false
       s.g.loadsDue = false →
        (s.xlate B 8 .at = (s1, .ok key dup) → carried → s1.poisonedHere key 8 = true →
          exec (.atoms w a b c op sc) s = fault s1 0x0D B)
        ∧ (s.xlate B 8 .at = (s1, .ok key dup) → ¬carried → exec (.atoms w a b c op sc) s = fault s1 0x13 B)
        ∧ ∀ code, s.xlate B 8 .at = (s1, .fault code) → exec (.atoms w a b c op sc) s = fault s1 code B)
    ∧ (let B := s.g.rdP s.tick b
       s.g.loadsDue = false → s.xlate B 8 .at = (s1, .ok key dup) → (op.carried = true ∨ (s1.peerOf key).isSome = false) →
        s1.poisonedHere key 8 = false →
        let r := s1.atomicBytes key 8 .ar sc dup fun o =>
          (atomsNew op (BitVec.ofNat 64 o) (s.g.rdP s.tick c) (s.g.rdP s.tick (c + 2))).toNat
        exec (.atoms w a b c op sc) s = .next ((r.1.resultC (pairDests r.1.g a (BitVec.ofNat 64 r.2))).endC w 4))

/-- R49, R81, R195, R361, R404. TRAP and an illegal word: in user mode with a handler, the group enters it: the saved cause, PC
and address, an empty handler bank, an empty handler lane queue, and the PC at the handler's address; without one, or with no handler
scratch (hscr = 0, R404), it is frozen.
TRAP's own effect is the trap: it completes here, and so does the illegal word. -/
def Obligations.TrapAndIllegal : Prop :=
  ∀ (w : Bool) (c : BitVec 12) (s : State),
    exec (.trap w c) s = .next (takeFault s { code := 0x08, tcode := c, pc := s.g.pc } [])
    ∧ exec (.illegalInstruction false) s = .next (takeFault s { code := 0x01, pc := s.g.pc } [])
    ∧ (∀ sp, s.g.split? s.g.curSplit = some sp → exec (.illegalInstruction true) s = .next (takeFault s
        (laneFaultInfo sp 1 0 sp.mask ((lanesOf sp.mask).map fun l => (l, (1, 0)))) []))
    ∧ (s.g.mode = .user → s.gctx.hvec.getLsbD 0 = true → s.gctx.sb.hscr ≠ 0 → ∃ t, exec (.trap w c) s = .next t
        ∧ t.g.mode = .handler ∧ t.g.pc = s.gctx.hvec &&& ~~~3#64 ∧ t.g.hs.pc = s.g.pc ∧ t.g.hs.addr = 0
        ∧ t.g.hs.cause.extractLsb' 0 8 = 0x08 ∧ t.g.upc = s.g.pc ∧ t.g.hb = [] ∧ t.g.hq7 = false
        ∧ t.g.hlaneq = [] ∧ t.g.hsplits = [] ∧ t.g.s = s.g.s ∧ t.g.v = s.g.v)
    ∧ (s.g.mode = .user → (s.gctx.hvec.getLsbD 0 = false ∨ s.gctx.sb.hscr = 0) → ∃ t, exec (.trap w c) s = .next t
        ∧ t.g.frozen = true ∧ t.g.mode = .user)

/-- R35, R36, R199, R200, R362. LRUN, in user mode with room for eight blocks and in handler mode for one, LWAIT and the start of a block.
R37, R38, R201. The channel words: a send pushes at the tail or waits while eight entries stand; a receive takes the
head, or keeps it for a peek, as a long-latency result; CHSTAT counts.
LRUN, LWAIT, BLOCK_START, CHSEND, CHRECV and CHSTAT complete here. -/
def Obligations.DispatchAndChannels : Prop :=
  (∀ (w : Bool) (a : SReg) (i : BitVec 19) (s : State),
     let room := if s.g.mode = .handler then 1 else 8
     let block : Block := { addr := s.g.rdS s.tick a + i.setWidth 32, caps := captureT s.g }
     (s.g.curQueue.length < room →
       exec (.lrun w a i) s = .next ((s.mapG fun g => g.setQueue (g.curQueue ++ [block])).endC w 4))
     ∧ (room ≤ s.g.curQueue.length → exec (.lrun w a i) s = .next (s.parkC .lrun))
     ∧ (s.g.curQueue = [] → exec (.lwait w) s = .next (s.endC w 4))
     ∧ (s.g.curQueue ≠ [] → exec (.lwait w) s = .next (s.parkC .lwait))
     ∧ (∀ b bs, s.g.curQueue = b :: bs → s.g.curSplits = [] →
         exec .blockStart s = .next (s.mapG fun g => g.setSplits [{ idx := 0, pc := b.addr, mask := blockMask g }])))
  ∧ (∀ (w peek : Bool) (a b : SReg) (s : State),
       let c := b.toNat
       let es := chEntries s c
       (es.length < 8 → exec (.chsend w a b) s = .next ((setCh s c (es ++ [s.g.rdS s.tick a])).endC w 4))
       ∧ (8 ≤ es.length → exec (.chsend w a b) s = .next (s.parkC .chsend))
       ∧ (∀ v, chHead s c s.tick = some v →
           let s1 := if peek then s else setCh s c (es.drop 1)
           exec (.chrecv w a b peek) s = .next ((s1.mapG fun g =>
             g.addPend { strm := g.cStrm, dests := [{ key := s.g.sKey a.toNat, val := v }], seq := s1.tick }).endC w 4))
       ∧ (chHead s c s.tick = none → exec (.chrecv w a b peek) s = .next ((s.mapG fun g => g.addPend
           { strm := g.cStrm, dests := [{ key := s.g.sKey a.toNat, val := 0 }], recv := some (c, peek), seq := s.tick }).endC w 4))
       ∧ exec (.chstat w a b) s = .next ((s.mapG fun g => g.wrS a (BitVec.ofNat 32 (es.length + 256 * (8 - es.length)))).endC w 4))

/-- R52, R141, R202, R205, R362. FENCE, which waits for the loads before it, and the barriers of a team and of a grid: a group that
arrives is counted once its blocks have ended, and waits; it goes on once every group has arrived; GRIDBAR releases before and acquires after, at prt scope. In handler mode they
are illegal, and GRIDBAR in a grid that is not co-resident.
FENCE, TEAMBAR and GRIDBAR complete here. -/
def Obligations.GroupBarriers : Prop :=
  ∀ (w : Bool) (sc : Scope) (k : FenceKind) (s : State),
    let counted := (s.mapG fun g => { g with barCnt := g.barCnt + 1, arrived := true }).parkC .teambar
    let arrived := ((s.fence .rel .prt).mapG fun g => { g with gridCnt := g.gridCnt + 1, arrived := true }).parkC .gridbar
    (s.g.loadsDue = false → exec (.fence w sc k) s = .next ((s.fence k sc).endC w 4))
    ∧ (s.g.loadsDue = true → exec (.fence w sc k) s = .next (s.parkC .again))
    ∧ (s.g.mode ≠ .handler → s.g.arrived = true → exec (.teambar w) s =
        .next (if allReached s.teamGroups (·.barCnt) s.g.barCnt then s.endC w 4 else s))
    ∧ (s.g.mode ≠ .handler → s.g.arrived = false → s.g.curQueue = [] → s.g.loadsDue = false →
        allReached counted.teamGroups (·.barCnt) counted.g.barCnt = true → exec (.teambar w) s = .next (counted.endC w 4))
    ∧ (s.g.mode ≠ .handler → s.g.arrived = false → s.g.curQueue = [] → s.g.loadsDue = false →
        allReached counted.teamGroups (·.barCnt) counted.g.barCnt = false → exec (.teambar w) s = .next counted)
    ∧ (s.g.mode ≠ .handler → s.g.arrived = false → (s.g.curQueue ≠ [] ∨ s.g.loadsDue = true) →
        exec (.teambar w) s = .next (s.parkC .teambar))
    ∧ (s.g.mode ≠ .handler → s.t.cores = true → s.g.arrived = false → (s.g.curQueue ≠ [] ∨ s.g.loadsDue = true) →
        exec (.gridbar w) s = .next (s.parkC .gridbar))
    ∧ (s.g.mode = .handler → exec (.teambar w) s = .next (takeFault s { code := 1, pc := s.g.pc } [])
        ∧ exec (.gridbar w) s = .next (takeFault s { code := 1, pc := s.g.pc } []))
    ∧ (s.t.cores = false → exec (.gridbar w) s = .next (takeFault s { code := 1, pc := s.g.pc } []))
    ∧ (s.g.mode ≠ .handler → s.t.cores = true → s.g.arrived = true → allReached (gridGroups s) (·.gridCnt) s.g.gridCnt = true →
        exec (.gridbar w) s = .next ((s.fence .acq .prt).endC w 4))
    ∧ (s.g.mode ≠ .handler → s.t.cores = true → s.g.arrived = false → s.g.curQueue = [] → s.g.loadsDue = false →
        allReached (gridGroups arrived) (·.gridCnt) arrived.g.gridCnt = true →
        exec (.gridbar w) s = .next ((arrived.fence .acq .prt).endC w 4))
    ∧ (s.g.mode ≠ .handler → s.t.cores = true → s.g.arrived = false → s.g.curQueue = [] → s.g.loadsDue = false →
        allReached (gridGroups arrived) (·.gridCnt) arrived.g.gridCnt = false → exec (.gridbar w) s = .next arrived)

/-- R206, R207, R369, R371, R398, R450. TBIND and OBJLD bind what the walk or the entry gives, and count its walk, or fault with its
code, OBJLD at the index or the base as the code says, once it has acquired at sys scope; TDROP unbinds.
TBIND, TDROP and OBJLD complete here. -/
def Obligations.TranslationRegisters : Prop :=
  ∀ (w : Bool) (t : BitVec 4) (b c : SReg) (s : State),
    let base := s.g.rdP s.tick b
    let want := s.g.rdS s.tick c
    let idx := s.g.rdS s.tick b
    let sb := if canonical base then s.countEvent s.g.ctx 0x0D 1 else s
    let so := s.objAcquire
    let walked := so.countEvent so.g.ctx 0x0D 1
    let fault (u : State) (code : Nat) : Res := .next (takeFault u { code := BitVec.ofNat 8 code, pc := u.g.pc, addr := BitVec.ofNat 64 (objldAddr so idx.toNat code) } [])
    (∀ r, want.toNat ∈ [1, 2, 3] → bindBase sb sb.g.ctx base (want.extractLsb' 0 2) = .ok r →
      exec (.tbind w t b c) s = .next ((sb.mapG fun g => g.wrT t.toNat r).endC w 4))
    ∧ (∀ code, want.toNat ∈ [1, 2, 3] → bindBase sb sb.g.ctx base (want.extractLsb' 0 2) = .error code →
      exec (.tbind w t b c) s = .next (takeFault sb { code := BitVec.ofNat 8 code, pc := sb.g.pc, addr := base } []))
    ∧ (want.toNat ∉ [1, 2, 3] → exec (.tbind w t b c) s = .next (takeFault s { code := 1, pc := s.g.pc } []))
    ∧ exec (.tdrop w t) s = .next ((s.mapG fun g => g.wrT t.toNat {}).endC w 4)
    ∧ (∀ r, idx.toNat < 2 ^ 16 → bindObj so so.g.ctx idx.toNat = .ok r →
      exec (.objld w t b) s = .next ((walked.mapG fun g => g.wrT t.toNat r).endC w 4))
    ∧ (∀ code, idx.toNat < 2 ^ 16 → bindObj so so.g.ctx idx.toNat = .error code →
      exec (.objld w t b) s = fault (if 0x18 ≤ code then so else walked) code)
    ∧ (2 ^ 16 ≤ idx.toNat → exec (.objld w t b) s = .next (takeFault s { code := 1, pc := s.g.pc } []))

/-- R63–R66, R141, R208. The task heap. A heap serves its waiters, the one that has waited longest first, whenever a word of it finds
entries for takers or room for adders: an entry goes to the oldest taker, and the oldest adder's entry goes in. After them HEAPADD, with
the loads before it returned, inserts below the quota, releases at slc scope and sets the predicate; a full heap makes the waiting form
wait with its entry and clears the predicate of the other. HEAPTAKE takes one of the entries of the eight lowest ranks, acquires at slc
scope, and returns key, value and predicate; an empty heap makes the waiting form wait, and the other returns a clear predicate. A word
that was served while it waited ends so.
HEAPADD and HEAPTAKE complete here. -/
def Obligations.TaskHeap : Prop :=
  (∀ (w wait : Bool) (a b : SReg) (q : QReg) (s : State),
     let h := s.heapServe
     let sl := h.sliceId
     let n := ((h.slice sl).heap.filter fun e => e.ctx = h.g.ctx).length
     let e : Word × Word := (h.g.rdS h.tick a, h.g.rdS h.tick b)
     let back (ds : List (Nat × Word)) (s : State) : State :=
       s.mapG fun g => g.addPend { strm := g.cStrm, dests := wholes ds, seq := s.tick }
     let took (e : Word × Word) (u : State) : Res :=
       let t := u.acquire .slc
       .next ((back [(t.g.sKey a.toNat, e.1), (t.g.sKey b.toNat, e.2), (t.g.qKey q.toNat, 1)] t).endC w 4)
     (s.g.loadsDue = true → exec (.heapadd w a b wait q) s = .next (s.parkC .again))
     ∧ (s.g.loadsDue = false → h.g.park = .heapadd → h.g.heapW.got.isSome = true →
         exec (.heapadd w a b wait q) s = .next ((h.mapG fun g => g.wrQ q true).endC w 4))
     ∧ (s.g.loadsDue = false → (h.g.park ≠ .heapadd ∨ h.g.heapW.got = none) →
         (n < (h.ctx h.g.ctx).quota → exec (.heapadd w a b wait q) s =
           .next (((heapPut (h.scopeWriteBack .slc) sl h.g.ctx e).heapServe.mapG fun g => g.wrQ q true).endC w 4))
         ∧ ((h.ctx h.g.ctx).quota ≤ n →
           exec (.heapadd w a b true q) s =
             .next (((h.scopeWriteBack .slc).parkC .heapadd).mapG fun g => { g with heapW := { put := some e } })
           ∧ exec (.heapadd w a b false q) s = .next ((h.mapG fun g => g.wrQ q false).endC w 4)))
     ∧ (∀ e, h.g.park = .heaptake → h.g.heapW.got = some e → exec (.heaptake w a b wait q) s = took e h)
     ∧ ((h.g.park ≠ .heaptake ∨ h.g.heapW.got = none) →
         (∀ e, heapPick h sl h.g.ctx = some e →
           exec (.heaptake w a b wait q) s = took (e.key, e.val) (heapDrop h sl h.g.ctx e).heapServe)
         ∧ (heapPick h sl h.g.ctx = none → exec (.heaptake w a b true q) s = .next (h.parkC .heaptake)
           ∧ exec (.heaptake w a b false q) s = .next ((back [(h.g.qKey q.toNat, 0)] h).endC w 4))))
  ∧ ∀ (sl ctx n : Nat) (s : State),
      (oldestWaiter s sl ctx .heaptake = none → oldestWaiter s sl ctx .heapadd = none → serveHeap sl ctx n s = s)
      ∧ (∀ e g, heapPick s sl ctx = some e → oldestWaiter s sl ctx .heaptake = some g →
          serveHeap sl ctx (n + 1) s = serveHeap sl ctx n (heapGive (heapDrop s sl ctx e) g.uid (e.key, e.val)))
      ∧ (∀ g e, (heapPick s sl ctx = none ∨ oldestWaiter s sl ctx .heaptake = none) → heapRoom s sl ctx = true →
          oldestWaiter s sl ctx .heapadd = some g → g.heapW.put = some e →
          serveHeap sl ctx (n + 1) s = serveHeap sl ctx n (heapGive (heapPut s sl ctx e) g.uid e))
      ∧ (∀ e, heapPick s sl ctx = some e → e ∈ heapOf (s.slice sl) ctx
          ∧ ((heapOf (s.slice sl) ctx).take 8).contains e = true)
      ∧ (heapPick s sl ctx = none ↔ heapOf (s.slice sl) ctx = [])

/-- R141, R157–R162, R203, R204. Stage barriers. An update applies to the sixteen bytes at an offset that is a multiple of 16
inside the window; a value out of its range, for BARA 0 too, and an update of a barrier that is not valid, are misuse (code 7). A wait
goes on, or waits, as its test says; a barrier that has become invalid meanwhile is misuse. YIELDC drains first, then tests, and goes
on at its continuation. YIELD with no soft request advances, and lets the other ready groups of its core issue first.
BARI, BARX, BARA, WAITB, YIELDC and YIELD complete here. -/
def Obligations.StageBarriers : Prop :=
  (∀ (w : Bool) (a b c : SReg) (s : State),
    let o := (s.g.rdS s.tick a).toNat
    let B := (s.g.rdS s.tick b).toNat
    let C := s.g.rdS s.tick c
    let x := s.bar o
    let misuse (s : State) := Host.Outcome.next (takeFault s { code := 7, pc := s.g.pc, addr := BitVec.ofNat 64 o } [])
    let flip (y : Bar) : State := if y.phase != x.phase then noteFlip s s.g.ctx s.t.uid o else s
    let test := if s.g.barLost then none else barTest x ((s.g.rdS s.tick b).getLsbD 0)
    let acq := s.l1Invalidate s.l1Id
    let dry := s.mapG fun g => g.dropReturned g.cStrm
    let on (k : ParkKind) (s : State) : Res := .next ((s.parkC k).mapG fun g => { g with waitBar := some o })
    o % 16 = 0 → o + 16 ≤ s.t.wsize →
      (B ≤ 65535 → exec (.bari w a b) s = .next ((s.setBar o (barInit B)).endC w 4))
      ∧ (∀ y, C.toNat ≤ 65535 → barUpdate x B 0 C.toNat = some y →
          exec (.barx w a b c) s = .next (((flip y).setBar o y).endC w 4))
      ∧ (s.g.loadsDue = true → exec (.bara w a b) s = .next (s.parkC .again))
      ∧ (∀ y, s.g.loadsDue = false → 1 ≤ B → B ≤ 65535 → barUpdate x 0 B 0 = some y →
          exec (.bara w a b) s = .next (((flip y).setBar o y).endC w 4))
      ∧ (65535 < B → exec (.bari w a b) s = misuse s)
      ∧ (s.g.loadsDue = false → (B = 0 ∨ 65535 < B) → exec (.bara w a b) s = misuse s)
      ∧ (65535 < C.toNat → exec (.barx w a b c) s = misuse s)
      ∧ (x.valid = false → exec (.barx w a b c) s = misuse s ∧ (s.g.loadsDue = false → exec (.bara w a b) s = misuse s))
      ∧ (test = some true → exec (.waitb w a b) s = .next (acq.endC w 4))
      ∧ (test = some false → exec (.waitb w a b) s = on .waitb s)
      ∧ (test = none → exec (.waitb w a b) s = misuse s)
      ∧ (s.g.mode ≠ .handler → C.extractLsb' 0 2 = 0 → s.g.drained s.g.cStrm = false →
          exec (.yieldc w a b c) s = .next (s.parkC .again))
      ∧ (s.g.mode ≠ .handler → C.extractLsb' 0 2 = 0 → s.g.drained s.g.cStrm = true →
          (test = some true → exec (.yieldc w a b c) s = .next (acq.mapG fun g =>
            { g.dropReturned g.cStrm with pc := g.pc.extractLsb' 32 32 ++ C, park := .none, waitBar := none, barLost := false }))
          ∧ (test = some false → exec (.yieldc w a b c) s = on .yieldc dry)
          ∧ (test = none → exec (.yieldc w a b c) s = misuse dry)))
  ∧ ∀ (w : Bool) (s : State), s.t.softReq = none → exec (.yield w) s =
      let t := s.endC w 4
      .next (t.mapG fun g => { g with yieldTo := yieldsTo t })

/-- R48, R60–R62, R194, R362. EXIT and EXITTO end the group once its blocks have ended and its results have returned; until then
it waits and GROUP_END ends it; in handler mode they are illegal. A successor whose card passes every check takes the place of its team, or waits for it; one that cannot be read or
fails a check ends the chain.
EXIT, EXITTO, GROUP_END and SUCCESSOR_START complete here. -/
def Obligations.GroupEnds : Prop :=
  ∀ (w : Bool) (a b : SReg) (s : State),
    let card := s.g.rdP s.tick a
    let named := s.mapG fun g => { g with exitto := some (card, s.g.rdS s.tick b) }
    let quiet := ctxFrozen s s.t.ctx = false ∧ (s.clusters.any fun c => c.queue.any fun m => m.team = s.t.uid) = false
    (s.g.mode ≠ .handler → mayEnd s.g = true → exec (.exit w) s = .next (endGroup s))
    ∧ (s.g.mode ≠ .handler → mayEnd s.g = false →
        exec (.exit w) s = .next ((s.mapG fun g => { g with exiting := true }).parkC .exit))
    ∧ (s.g.mode ≠ .handler → s.t.chain = true → card.toNat % 64 = 0 → mayEnd s.g = true →
        exec (.exitto w a b) s = .next (endGroup named))
    ∧ (s.g.mode ≠ .handler → s.t.chain = true → card.toNat % 64 = 0 → mayEnd s.g = false →
        exec (.exitto w a b) s = .next ((named.mapG fun g => { g with exiting := true }).parkC .exit))
    ∧ (s.t.chain = false → exec (.exitto w a b) s = .next (takeFault s { code := 1, pc := s.g.pc } []))
    ∧ (s.g.mode = .handler → exec (.exit w) s = .next (takeFault s { code := 1, pc := s.g.pc } [])
        ∧ exec (.exitto w a b) s = .next (takeFault s { code := 1, pc := s.g.pc } []))
    ∧ (s.g.exiting = true → s.g.park = .exit → mayEnd s.g = true → groupRuns s s.g = true → s.g.faults = [] →
        exec .groupEnd s = .next (endGroup s))
    ∧ (∀ (x : DWord) (arg : Word) (s1 : State) (e : Nat × DWord), s.t.succ = some (x, arg) → s.t.ended = true → quiet →
        engReadN s s.t.ctx (s.t.ppos / 128 - (s.vf (s.t.ctx / 64)).first) x 64 = (s1, .error e) →
        exec .successorStart s = .next (chainFault s1 s.t x))
    ∧ (∀ (x : DWord) (arg : Word) (s1 s2 : State) (bs ks : List Byte), s.t.succ = some (x, arg) → s.t.ended = true → quiet →
        let rel := s.t.ppos / 128 - (s.vf (s.t.ctx / 64)).first
        let ws := wordsOf bs
        let l := launchOf ws (wordsOf ks)
        let sound : Prop := (ws.getD 1 0).toNat % 256 = 1 ∧ launchBad ws = false ∧ shapeOk l s.t.attr = true ∧ l.ngrp ≤ s.t.ngrp
          ∧ l.need.units ≤ s.t.regs ∧ l.smem ≤ s.t.wsize
        engReadN s s.t.ctx rel x 64 = (s1, .ok bs) → engReadN s1 s.t.ctx rel (cardKernel ws) 64 = (s2, .ok ks) →
        (sound → successorFits s2 s.t l = true → exec .successorStart s = .next (placeSuccessor s2 s.t l
          (attrChain l.attr && (SMap.get {} (s2.slice s.t.qslice).queues s.t.qidx).chainok) arg))
        ∧ (sound → successorFits s2 s.t l = false → exec .successorStart s = .next s2)
        ∧ (¬sound → exec .successorStart s = .next (chainFault s2 s.t x)))

/-- R163–R169, R369. The copies of a group start once their operands are in their limits, their barrier is valid and their bytes
lie in their spaces, after the lines of a CPYB that asks for it became empty; CPYG waits while its index line is empty; a shape record is read at sys
scope with acquire; EMPTY empties the lines it names, its bounds tested first (the model's choice, log 18).
R163, R376, R379. A unit of a copy arrives while its engine and its context run; a copy whose next unit cannot be
translated stops. CPYB, CPYG and EMPTY complete here, and so do COPY_UNIT_ARRIVE and COPY_PAGE_FAULT. -/
def Obligations.Copies : Prop :=
  (∀ (w : Bool) (a b c : SReg) (s : State),
     let ctl := (s.g.rdS s.tick c).toNat
     let bar := (s.g.rdS s.tick b).toNat
     let A := (s.g.rdS s.tick a).toNat
     let lines := (List.range (s.t.wsize / 128)).filter fun l => A / 128 ≤ l && l ≤ (A + bar - 1) / 128
     let raw := s.g.rdRun s.tick a 8
     let rec_ := s.g.rdRun s.tick a 5
     let six := s.g.rdRun s.tick a 6
     let near (run : List Word) : Prop := (ctl % 4 = 0 ∨ (wordPair run 0).toNat < 2 ^ 32) ∧ (ctl / 4 % 4 = 0 ∨ (wordPair run 2).toNat < 2 ^ 32)
     let src (u : State) := copySpaceOf u (ctl % 4)
     let goal (u : State) (run : List Word) : CopySpace × Int := roofTarget u (copySpaceOf u (ctl / 4 % 4)) (wordPair run 2).toNat
     let fits (u : State) (run : List Word) (p : CopyPlan) : Prop :=
       p.rowLen * p.rowCount < 2 ^ 32 ∧ inSpace u (src u) (wordPair run 0).toNat p.spans.1 = true
         ∧ inSpace u (goal u run).1 (goal u run).2 p.spans.2 = true
     let began (u : State) (run : List Word) (p : CopyPlan) : Res :=
       let c := groupCopy u bar (src u) (goal u run).1 (wordPair run 0).toNat (goal u run).2 p
       let s1 := if ctl.testBit 8 then
         u.emptyLines ((List.range (u.t.wsize / 128)).filter fun l => p.touches (goal u run).2 0 0 l) else u
       .next ((startCopy s1 c).endC w 4)
     let so := s.objAcquire
     (∀ p, ctl.testBit 7 = false → a.toNat + 8 ≤ 64 → cpybBad ctl = false → near raw → checkBarrier s bar = none →
       rawPlan raw = some p → fits s raw p → exec (.cpyb w a b c) s = began s raw p)
     ∧ (∀ ws p, ctl.testBit 7 = true → a.toNat + 5 ≤ 64 → cpybBad ctl = false → near rec_ → checkBarrier s bar = none →
       objCheck so so.g.ctx ((rec_.getD 4 0).toNat % 2 ^ 16) 2 true false = .ok ws → shapePlan ws = some p → fits so rec_ p →
       exec (.cpyb w a b c) s = began so rec_ p)
     ∧ (let rb := (six.getD 3 0).toNat
        let io := (six.getD 4 0).toNat
        let d := (six.getD 5 0).toNat
        a.toNat % 2 = 0 → a.toNat + 6 ≤ 64 → cpygOk ctl rb io d = true → checkBarrier s bar = none → s.spIn io 128 = true →
        s.spIn d (32 * rb) = true →
          (s.spFull io 128 = true → exec (.cpyg w a b c) s =
            .next ((startCopy s (groupCopy s bar .glob .sp (wordPair six 0).toNat d
              (.gather rb (six.getD 2 0).toNat ((List.range 32).map fun i => s.spNat (io + 4 * i) 4)))).endC w 4))
          ∧ (s.spFull io 128 = false → exec (.cpyg w a b c) s = .next (s.parkC .held)))
     ∧ (A + bar ≤ s.t.wsize → bar ≠ 0 → exec (.empty w a b) s = .next ((s.emptyLines lines).endC w 4))
     ∧ (A + bar ≤ s.t.wsize → bar = 0 → exec (.empty w a b) s = .next (s.endC w 4))
     ∧ (s.t.wsize < A + bar → exec (.empty w a b) s =
         .next (takeFault s { code := 5, pc := s.g.pc, addr := BitVec.ofNat 64 A } [])))
  ∧ (∀ (n : Nat) (s : State) (c : Copy), (s.copies.find? fun c => c.id = n) = some c →
       ((s.slice c.slice).cpyFrozen.contains (c.id % 2) = false → copyTeamRuns s c = true →
         exec (.copyUnitArrive n) s = .next (settleRedir (reapTeam (copyAdvance s c) c.team) c.team))
       ∧ ((s.slice c.slice).cpyFrozen.contains (c.id % 2) = true ∨ copyTeamRuns s c = false →
         exec (.copyUnitArrive n) s = .next s)
       ∧ (∀ s1 code addr, c.fault = none → c.done < c.total → copyUnit s c (copyStep c) = .fault s1 code addr →
           exec (.copyPageFault n) s = .next (settleRedir (stopCopy s1 c code addr) c.team)))

/-- R170–R173. CPYQ claims an index with one atomic add at sys scope, keeps the claim while it waits for a free slot, and
publishes its card, the ticket last, releasing at sys scope before. A card with ext = 1 is noted as one that nothing extends. CPYQ
completes here. -/
def Obligations.QueueCopy : Prop :=
  ∀ (w : Bool) (a b c : SReg) (s s0 s1 s2 s3 : State) (i slot base : DWord) (n retire key : Nat) (dup : Bool),
    let h := s.g.rdP s.tick a
    let claims : Prop := ∃ r key dup, s.xlate h 8 .at = (r, .ok key dup) ∧ r.poisonedHere key 8 = false ∧
      (let x := r.atomicBytes key 8 .plain .sys dup fun v => (v + 1) % 2 ^ 64
       i = BitVec.ofNat 64 x.2 ∧ s0 = x.1.mapG fun g => { g with claim := some i })
    let card := s0.g.rdRun s0.tick b 16
    a.toNat % 2 = 0 → b.toNat + 16 ≤ 64 → h.toNat % 128 = 0 →
      (s.g.claim = some i ∧ s0 = s) ∨ (s.g.claim = none ∧ claims) →
      queueHeader s0 (s0.g.rdP s0.tick a) = (s1, .ok (base, n, retire)) →
      (retire + 2 ^ n ≤ i.toNat → exec (.cpyq w a b c) s = .next (s1.parkC .cpyq))
      ∧ (i.toNat < retire + 2 ^ n → slot = base + BitVec.ofNat 64 (64 * (i.toNat % 2 ^ n)) → s1.scopeWriteBack .sys = s2 →
        s2.xlate slot 64 .wr = (s3, .ok key dup) → s3.poisoned key 64 = false →
        let ticket : Word := i.setWidth 32 + 1
        let t := (s3.memWrite (key + 4) ((bytesOf card).drop 4)).memWrite key (leBytes 4 ticket.toNat)
        let t1 := if dup then t.syncDupN key 64 t.g.ctx else t
        let l := t1.l1 t1.l1Id
        let t2 := t1.setL1 { l with clean := SMap.erase l.clean (key / 128) }
        let t3 : State := if extBit card then { t2 with extCpyq := t2.extCpyq ++ extPlaces t2 (s0.g.rdP s0.tick a) i.toNat } else t2
        exec (.cpyq w a b c) s = .next ((t3.mapG fun g => { g.wrS c (i.setWidth 32) with claim := none }).endC w 4))

/-- R174–R180, R407, R449. A queue's next card is admitted, with its extension cards, by a slice that is not resetting; one that may start, with an engine for its kind, starts its work; one whose
work has ended completes. CARD_ADMIT, CARD_START and CARD_COMPLETE complete here. -/
def Obligations.Cards : Prop :=
  ∀ (sl qi n : Nat) (s : State),
    let q := queueOf s sl qi
    let k1 (cs : List (List Word)) (t : State) : Card :=
      { id := t.nextId, vf := (t.slice sl).vf, slice := sl, queue := qi, qgroup := q.qgroup, idx := q.nextAdm, slots := cs.length,
        addr := slotAddr q q.nextAdm, ctx := queueCtx s sl qi, words := cs.headD [],
        regions := if chainBad cs then [] else cs.flatMap cardRegions, bad := chainBad cs,
        phase := if chainBad cs then .done else .admitted, status := if chainBad cs then 6 else 0, order := t.nextId,
        cls := q.cls, raster := q.raster, chainok := q.chainok }
    let with_ (k : Card) : State := mapCard { s with writer := some (.card n) } n fun _ => k
    (∀ s1 s2 claim cs, q.en = true → (s.slice sl).state = 1 → (s.slice sl).resetting = false → ctxRuns s (queueCtx s sl qi) = true → s.updating sl = false →
      claimOf s sl qi = (s1, some claim) → chainOf s1 sl qi q.nextAdm (claim - q.nextAdm) = (s2, some cs) →
      exec (.cardAdmit sl qi) s = .next { setQueueOf s2 sl qi { q with nextAdm := q.nextAdm + cs.length } with
        nextId := s2.nextId + 1, cards := s2.cards ++ [k1 cs s2] })
    ∧ (∀ k0 k s1, card? s n = some k0 → mayStart s k0 = true → takeEngine s k0 = some k → startCard (with_ k) k = .runs s1 →
        exec (.cardStart n) s = .next (mapCard s1 n fun c => { c with phase := .started, pos := s1.tick }))
    ∧ (∀ k0 k s1 st, card? s n = some k0 → mayStart s k0 = true → takeEngine s k0 = some k → startCard (with_ k) k = .ended s1 st →
        (k.kind ≠ 7 → exec (.cardStart n) s = .next (mapCard s1 n fun c => { c with phase := .done, status := st }))
        ∧ (k.kind = 7 → exec (.cardStart n) s = .next (completeCard s1 { k with status := st, bad := decide (st = 6) })))
    ∧ (∀ k0 k s1, card? s n = some k0 → mayStart s k0 = true → takeEngine s k0 = some k → startCard (with_ k) k = .waits s1 →
        exec (.cardStart n) s = .next s1)
    ∧ (∀ k, card? s n = some k → (mayStart s k = false ∨ takeEngine s k = none) → exec (.cardStart n) s = .next s)
    ∧ (let t := settleCopyCard (commitTeams s n) n
       ∀ k st, card? t n = some k → cardEnded t k = some st →
        exec (.cardComplete n) s = .next (completeCard t { k with status := st }))

/-- R258, R260–R262, R266, R268, R269. The matrix words of the C-stream: MFMT takes a format block in its limits; a command
with sound operands, a place for its barrier and a bank its team may take enters the queue while there are fewer than sixteen, and waits else;
MSTAT reads the bank's word and count of the latest loop, the group's last (log 22). A bad format, control word or offset faults with
code 0x0A, and so does a barrier's place with its own code, all before the barrier is used: its validity is tested later, where the
command counts there (log 22).
R258, R263, R266, R268. The engine's side: the oldest command of a bank runs while it may; MZERO clears the bank; an
MSTORE writes its tile, counts its bytes at its barrier, or stops. MFMT, MLOOP, MCONV, MSTORE, MZERO, MSTAT, MATRIX_STEP,
MSTORE_RUN and MZERO_RUN complete here. -/
def Obligations.MatrixEngine : Prop :=
  (∀ (w : Bool) (a b c : SReg) (n : BitVec 2) (s : State),
     let run := s.g.rdRun s.tick a 4
     let f : QWord := run.getD 3 0 ++ run.getD 2 0 ++ run.getD 1 0 ++ run.getD 0 0
     let ctl := s.g.rdS s.tick b
     let lo := s.g.rdS s.tick a
     let hi := s.g.rdS s.tick (a + 1)
     let bar := (s.g.rdS s.tick c).toNat
     let bank := (ctl.extractLsb' 16 2).toNat
     let asp := ctl.getLsbD 19
     let tix := ctl.extractLsb' 20 4
     let idx := (ctl.extractLsb' 0 16).toNat
     let r3 := (run.getD 3 0).toNat
     let K := stepK (fmtA s.g.fmt) (fmtB s.g.fmt)
     let bad := Host.Outcome.next (takeFault s { code := 0x0A, pc := s.g.pc } [])
     let enters (s : State) (m : MCmd) (r : Res) : Prop :=
       (∀ cl, bankCluster s m.bank = some (cl, false) → mayTake s cl m.bank = true →
         let t := takeBank s cl m.bank
         let k := t.cluster cl
         let k1 : Cluster := { k with queue := k.queue ++ [m] }
         let k2 := if m.isLoop then k1.setLast { team := m.team, gid := m.gid, bank := m.bank } else k1
         let u := if m.isLoop && m.ctl.getLsbD 19 then (t.performDirty t.l1Id fun _ => true).ackAllDup t.l1Id else t
         (k.queue.length < 16 → r = .next ((u.setCluster k2).endC w 4))
         ∧ (16 ≤ k.queue.length → r = .next (s.parkC .engine)))
       ∧ ∀ cl held, bankCluster s m.bank = some (cl, held) → (held = true ∨ mayTake s cl m.bank = false) →
           r = .next ((s.parkC .engine).mapG fun g => { g with waitBank := some (cl, m.bank) })
     let so := s.objAcquire
     let place (x : Instr) : Prop := ∀ code, barOffsetFault s bar = some code →
       exec x s = .next (takeFault s { code := BitVec.ofNat 8 code, pc := s.g.pc, addr := BitVec.ofNat 64 bar } [])
     (s.g.mode ≠ .handler → a.toNat + 4 ≤ 64 →
       exec (.mfmt w a) s = if fmtOk f then .next ((s.mapG fun g => { g with fmt := f }).endC w 4) else bad)
     ∧ (a.toNat + 4 ≤ 64 → bankNamed s bank = true →
         (ctl.extractLsb' 24 8 ≠ 0 ∨ ctl.extractLsb' 0 16 = 0 ∨ (asp = false ∧ tix ≠ 0) ∨ fmtOk s.g.fmt = false
           ∨ (run.any fun x => x.toNat % 64 ≠ 0) = true) → exec (.mloop w a b c) s = bad)
     ∧ (let m := (ctl.extractLsb' 0 2).toNat
        a.toNat % 2 = 0 → bankNamed s m = true → mstoreBad lo hi ctl = true → exec (.mstore w a b c) s = bad)
     ∧ (a.toNat + 4 ≤ 64 → bankNamed s bank = true →
         (ctl.extractLsb' 19 13 ≠ 0 ∨ fmtOk s.g.fmt = false ∨ fmtABlk s.g.fmt ≠ 0 ∨ r3 / 2 ^ 16 = 0
           ∨ ((run.take 2).any fun x => x.toNat % 64 ≠ 0) = true) → exec (.mconv w a b c) s = bad)
     ∧ (a.toNat + 4 ≤ 64 → bankNamed s bank = true → ctl.extractLsb' 24 8 = 0 → ctl.extractLsb' 0 16 ≠ 0 →
         (asp = true ∨ tix = 0) → fmtOk s.g.fmt = true → (run.any fun x => x.toNat % 64 ≠ 0) = false →
         place (.mloop w a b c) ∧ (barOffsetFault s bar = none →
          enters s { newCmd s .mloop run ctl bank bar with tr := if asp then s.g.rdT tix.toNat else {} } (exec (.mloop w a b c) s)))
     ∧ (∀ ws, a.toNat + 4 ≤ 64 → bankNamed s bank = true → ctl.extractLsb' 19 13 = 0 → fmtOk s.g.fmt = true →
         fmtABlk s.g.fmt = 0 → r3 / 2 ^ 16 ≠ 0 → ((run.take 2).any fun x => x.toNat % 64 ≠ 0) = false → barOffsetFault s bar = none →
         objCheck so so.g.ctx idx 3 true false = .ok ws → convOk ws K = true → r3 % 2 ^ 16 + r3 / 2 ^ 16 ≤ (convOf ws).steps K →
         enters so { newCmd so .mconv run ctl bank bar with conv := ws } (exec (.mconv w a b c) s))
     ∧ (let m := (ctl.extractLsb' 0 2).toNat
        a.toNat % 2 = 0 → bankNamed s m = true → mstoreBad lo hi ctl = false →
         (ctl.getLsbD 4 = false ∨ s.spIn lo.toNat (32768 * outBytes ctl + 32) = true) → barOffsetFault s bar = none →
         enters s (newCmd s .mstore [lo, hi] ctl m bar) (exec (.mstore w a b c) s))
     ∧ (bankNamed s n.toNat = true → enters s (newCmd s .mzero [] 0 n.toNat 0) (exec (.mzero w n) s))
     ∧ (∀ cl, a.toNat % 2 = 0 → bankNamed s n.toNat = true → s.g.mode ≠ .handler → bankCluster s n.toNat = some (cl, false) →
         mayTake s cl n.toNat = true →
         let t := takeBank s cl n.toNat
         let k := t.cluster cl
         (k.queue.any fun m => m.team = s.t.uid && m.gid = s.g.gid && m.bank = n.toNat && m.fault.isNone) = false →
         exec (.mstat w a n) s = .next ((t.mapG fun g => (g.wrS a (mstatWord k s.t.uid s.g.gid n.toNat)).wrS (a + 1)
           (BitVec.ofNat 32 (min (k.bank n.toNat).steps (2 ^ 32 - 1)))).endC w 4)))
  ∧ (∀ (cl bank : Nat) (s : State) (m : MCmd) (t : Team),
       let c := s.cluster cl
       headCmd c bank = some m → s.team? m.team = some t →
         let s0 : State := { s with writer := some (.matrix cl m.bank) }
         (m.isLoop = true → cmdRuns s c m = true → exec (.matrixStep cl bank) s = .next (loopStep s0 cl t m))
         ∧ (m.kind = .mzero → cmdRuns s c m = true → exec (.mzeroRun cl bank) s =
             .next (reapTeam (s.setCluster ((c.setBank m.bank (c.bank m.bank).clear).setHead m.bank none)) m.team))
         ∧ (∀ s1, m.kind = .mstore → cmdRuns s c m = true → writeTile s0 t m (storePieces m (c.bank m.bank)) = .done s1 →
             let s2 := s1.setCluster ((s1.cluster cl).setHead m.bank none)
             let s3 := engineCount s2 (m.decr (t.ppos / 128) (32768 * outBytes m.ctl + 32 - m.next))
             exec (.mstoreRun cl bank) s = .next (reapTeam (chargeLease s3 cl m 128) m.team))
         ∧ (∀ s1 off code addr, m.kind = .mstore → cmdRuns s c m = true → code ≠ 0 →
             writeTile s0 t m (storePieces m (c.bank m.bank)) = .stop s1 off code addr →
             let s2 := if off = m.next then s1 else engineCount s1 (m.decr (t.ppos / 128) (off - m.next))
             let m1 : MCmd := { m with next := off }
             exec (.mstoreRun cl bank) s =
               .next (stopCmd (s2.setCluster ((s2.cluster cl).setHead m.bank (some m1))) cl m1 code addr))
         ∧ (cmdRuns s c m = false → exec (.matrixStep cl bank) s = .next s ∧ exec (.mzeroRun cl bank) s = .next s
             ∧ exec (.mstoreRun cl bank) s = .next s))

/-- R304–R308, R317. The SPLAT words pass their checks and enter the team's sequence, releasing at prt scope, or wait while it is
full; the unit starts the oldest command and runs its granules; a granule's fault goes to its group. SPROJ, SBIN, SBLEND, SGRAD,
SPLAT_COMMAND_START, the four granules and SPLAT_GRANULE_FAULT complete here. -/
def Obligations.SplatWords : Prop :=
  ∀ (w : Bool) (a b : SReg) (team : Nat) (s : State),
    let bar := (s.g.rdS s.tick b).toNat
    let enters (fn n : Nat) (r : Res) : Prop :=
      let run := s.g.rdRun s.tick a n
      illegalHere s = false → a.toNat + n ≤ 64 → (fn < 2 ∨ a.toNat % 2 = 0) → barOffsetFault s bar = none →
        let u := s.objAcquire
        objsFault u u.g.ctx (splatObjs fn run) = none → splatBad fn run = false →
        (u.t.splat.length < 8 → r = .next (((u.scopeWriteBack .prt).mapT fun t => { t with splat := t.splat ++
          [{ fn := BitVec.ofNat 2 fn, gid := u.g.gid, cpc := u.g.pc, run := run, bar := bar, seq := u.tick }] }).endC w 4))
        ∧ (8 ≤ u.t.splat.length → r = .next (u.parkC .engine))
    enters 0 (splatRun 0) (exec (.sproj w a b) s)
    ∧ enters 1 (splatRun 1) (exec (.sbin w a b) s)
    ∧ enters 2 (splatRun 2) (exec (.sblend w a b) s)
    ∧ enters 3 (splatRun 3) (exec (.sgrad w a b) s)
    ∧ ∀ t c, headSplat s team = some (t, c) →
        let s0 : State := { s with writer := some (.splat team) }
        (c.started = false → exec (.splatCommandStart team) s = .next (splatStart s0 t c))
        ∧ (c.started = true → c.fn = 0 → exec (.sprojGranule team) s = .next (splatGranule s0 t c))
        ∧ (c.started = true → c.fn = 1 → exec (.sbinGranule team) s = .next (splatGranule s0 t c))
        ∧ (c.started = true → c.fn = 2 → exec (.sblendTile team) s = .next (splatGranule s0 t c))
        ∧ (c.started = true → c.fn = 3 → exec (.sgradTile team) s = .next (splatGranule s0 t c))
        ∧ (∀ s1 c1 code addr, c.started = true → granuleOf s0 t c = .fault s1 c1 code addr →
            exec (.splatGranuleFault team) s = .next (splatFault s1 t c1 code addr))

/-- R322–R332. APXDEF binds a region from its descriptor and image, APXKILL invalidates or frees a slot; an invocation that
arrives goes to its slot, the lanes of one word in ascending order and different words in any order; a write to a guarded byte makes
the slots that guard it invalid.
R331, R333, R334, R339. The Sinter lane words on a core that is no roof, outside the handler: APXIN fills the input
buffer, APXOUT gives a served lane's output, the probe evaluates the slot, APXENTER opens the invocations and sets the mask
of the lanes that run their body, APXEXIT stores an output and, with its end mark, closes the invocations and sends what
they observed. APXDEF, APXKILL, INVOCATION_ARRIVE, GUARD_WRITE and the APX lane words complete here. -/
def Obligations.Sinter : Prop :=
  (∀ (w : Bool) (a : SReg) (q : QReg) (cl key : Nat) (s : State),
     let v := (s.g.rdS s.tick a).toNat
     let r : Byte := BitVec.ofNat 8 (v / 2 ^ 16)
     let named (r : Byte) (s : State) : State := s.mapG fun g => { g with apxRegion := some r }
     (let so := s.objAcquire
      ∀ ws, illegalHere s = false → v < 2 ^ 24 → objCheck so so.g.ctx (v % 2 ^ 16) 9 true false = .ok ws → descOk ws = true →
       let n := weightCount (Slot.dims { desc := ws })
       (descImage ws = 0 →
         let p := apxBind so r (v % 2 ^ 16) ws (wordsOf (List.replicate (4 * n) 0))
         exec (.apxdef w a q) s = .next ((p.1.mapG fun g => { g.wrQ q p.2 with apxRegion := some r }).endC w 4))
       ∧ (∀ s1 bs, descImage ws ≠ 0 → readImage so (descImage ws) n = (s1, .ok bs) →
         let p := apxBind s1 r (v % 2 ^ 16) ws (wordsOf bs)
         exec (.apxdef w a q) s = .next ((p.1.mapG fun g => { g.wrQ q p.2 with apxRegion := some r }).endC w 4)))
     ∧ (∀ i, illegalHere s = false → v < 2 ^ 9 →
       let c := s.cluster s.clusterId
       let r0 : Byte := BitVec.ofNat 8 v
       findSlot c s.g.ctx r0 = some i → exec (.apxkill w a) s = .next ((named r0 (s.setCluster
         (c.setSlot i (if v.testBit 8 then none else (c.slots.getD i none).map Slot.invalidate)))).endC w 4))
     ∧ (illegalHere s = false → v < 2 ^ 9 → findSlot (s.cluster s.clusterId) s.g.ctx (BitVec.ofNat 8 v) = none →
       exec (.apxkill w a) s = .next ((named (BitVec.ofNat 8 v) s).endC w 4))
     ∧ (let c := s.cluster cl
        arrivals s c ≠ [] → c.sfrozen = false → ∃ e ∈ arrivals s c,
          let c1 : Cluster := { c with inbox := c.inbox.erase e }
          (∀ i, findSlot c1 e.ctx e.region = some i → exec (.invocationArrive cl) s =
            .next (s.setCluster (c1.setSlot i ((c1.slots.getD i none).map fun sl => sl.arrive e))))
          ∧ (findSlot c1 e.ctx e.region = none → exec (.invocationArrive cl) s = .next (s.setCluster c1)))
     ∧ exec (.guardWrite key) s = .next (guardCheck s key))
  ∧ (∀ (h : LHdr) (d : Dst) (a : Src) (m i : BitVec 4) (j : BitVec 3) (r : Byte) (s : State) (c : LCtx) (popped : List Nat),
       let s0 := LaneAt [] popped s
       let s1 := LaneAt [a] popped s
       illegalHere s = false →
         (LaneIssues h [] (srcRun 1 a) [a] none s c popped →
           exec (.apxin h a i) s = .next (c.past (s1.mapG fun g => c.lanes.foldl (fun g l =>
             g.wrInv l { g.rdInv l with inb := SMap.set 0 (g.rdInv l).inb i.toNat (c.val s1 0 a 0 l) }) g)))
         ∧ (LaneIssues h [] (dstRun 1 d) [] (some d) s c popped →
           exec (.apxout h d j) s = .next (c.past (c.put true d
             ((c.lanes.filter fun l => (s0.g.rdInv l).isOpen && (s0.g.rdInv l).served).map fun l =>
               (l, [SMap.get 0 (s0.g.rdInv l).outb j.toNat])) s0))
           ∧ exec (.apxoutProbe h d j r) s = .next (c.past (c.put true d (c.lanes.map fun l =>
               (l, [match slotFor (s0.cluster s0.clusterId) s0.g.ctx r with
                 | none => 0
                 | some sl => (sl.eval (bufWords 16 (s0.g.rdInv l).inb)).getD j.toNat 0])) s0)))
         ∧ (LaneIssues h [] (srcRun 1 a) [a] none s c popped →
           let ls := c.lanes.filter fun l => (s1.g.rdInv l).isOpen
           let out := s1.mapG fun g => (ls.map fun l => (l, c.val s1 0 a 0 l)).foldl (exitLane j.toNat) g
           let real := ls.filter fun l => !(out.g.rdInv l).served && !(out.g.rdInv l).discarded
           let cl := out.cluster out.clusterId
           let sent := out.setCluster { cl with inbox := cl.inbox ++ real.map fun l => (out.g.rdInv l).arrival out.g.ctx out.tick }
           let counted := sent.countEvent sent.g.ctx 0x11 (ls.filter fun l => !(out.g.rdInv l).served).length
           exec (.apxexit h false a j) s = .next (c.past out)
           ∧ exec (.apxexit h true a j) s = .next (c.past (counted.mapG fun g => ls.foldl closeLane g)))
         ∧ (LaneIssues h [] [] [] none s c popped → (∀ sl, slotFor (s0.cluster s0.clusterId) s0.g.ctx r = some sl → sl.state ≠ .serve) →
           let t := s0.mapG fun g => (c.lanes.mapIdx fun q l => (l, q)).foldl (enterLane r none) g
           let u := t.countEvent t.g.ctx 0x10 (c.lanes.filter fun l => (t.g.rdInv l).served).length
           exec (.apxenter h m r) s =
             .next (c.past (c.putM true m.toNat (c.lanes.map fun l => (l, !(u.g.rdInv l).served)) u)))
         ∧ (∀ sl k, LaneIssues h [] [] [] none s c popped → slotFor (s0.cluster s0.clusterId) s0.g.ctx r = some sl → sl.state = .serve →
           findSlot (s0.cluster s0.clusterId) s0.g.ctx r = some k →
           let s2 := s0.setCluster ((s0.cluster s0.clusterId).setSlot k (some { sl with ctr := sl.ctr + BitVec.ofNat 32 c.lanes.length }))
           let t := s2.mapG fun g => (c.lanes.mapIdx fun q l => (l, q)).foldl (enterLane r (some sl)) g
           let u := t.countEvent t.g.ctx 0x10 (c.lanes.filter fun l => (t.g.rdInv l).served).length
           exec (.apxenter h m r) s =
             .next (c.past (c.putM true m.toNat (c.lanes.map fun l => (l, !(u.g.rdInv l).served)) u))))

/-- R157–R159, R295–R298, R369, R379, R482. ENCSUB, once it has acquired and checked its session, binds a frame of it to a barrier, as an
update of that barrier with no change, which may complete its phase, and may make the lane leave another session (log 25); tile
rows are read as they are released; a frame whose rows are all read is coded and appended to the session's stream; those of a frozen
context wait. ENCSUB, TILE_ROW_READ and ENCODE_FRAME_DONE complete here. -/
def Obligations.Encoder : Prop :=
  ∀ (w : Bool) (a b : SReg) (sl : Nat) (s : State),
    let run := s.g.rdRun s.tick a 3
    let base := wordPair run 0
    let f := (run.getD 2 0).toNat
    let bar := (s.g.rdS s.tick b).toNat
    (let u := s.objAcquire
     ∀ ws c, s.isRoof = false → s.g.mode ≠ .handler → a.toNat % 2 = 0 → a.toNat + 3 ≤ 64 → f < 2 ^ 17 → base.toNat % 256 = 0 →
      barOffsetFault s bar = none → sessionCheck u u.g.ctx (f % 2 ^ 16) = .ok ws →
      ((u.slice u.sliceId).binds.filter fun b => b.card.isNone).length < 8 →
      holdSession (u.slice u.sliceId) u.g.ctx (BitVec.ofNat 16 f) u.nextId = some c →
      let bind : EncBind :=
        { ctx := u.g.ctx, idx := BitVec.ofNat 16 f, desc := ws, key := f.testBit 16, base := base, team := u.t.uid, gid := u.g.gid,
          cpc := u.g.pc, bar := bar }
      let bound : State := { u.setSlice { c with binds := c.binds ++ [bind] } with nextId := u.nextId + 1 }
      (∀ y, barUpdate (u.bar bar) 0 0 0 = some y → exec (.encsub w a b) s =
        .next ((if y = u.bar bar then bound else (noteFlip bound u.g.ctx u.t.uid bar).setBar bar y).endC w 4))
      ∧ (barUpdate (u.bar bar) 0 0 0 = none → exec (.encsub w a b) s =
          .next (takeFault u { code := 7, pc := u.g.pc, addr := BitVec.ofNat 64 bar } [])))
    ∧ (∀ pre b post s1 bs, (s.slice sl).encFrozen = false →
      splitFirst (fun b : EncBind => b.rowDue s) (s.slice sl).binds = some (pre, b, post) →
      readParts s b.ctx (relSl s b.ctx sl) (b.parts b.rows) = (s1, .ok bs) →
      let s2 := s1.setSlice { s1.slice sl with binds := pre ++ [{ b with rows := b.rows + 1, input := b.input ++ bs }] ++ post }
      exec (.tileRowRead sl) s = .next (match b.card with | none => reapTeam s2 b.team | some _ => s2))
    ∧ (let c := s.slice sl
       let s0 : State := { s with writer := some (.encoder sl) }
       ∀ pre b post e s1 h, c.encFrozen = false →
        splitFirst (frameDue s0 c) c.binds = some (pre, b, post) →
        (c.sessions.find? fun e => e.is b.ctx b.idx) = some e →
        engReadN s0 b.ctx (relSl s0 b.ctx sl) (wordPair b.desc 4) 24 = (s1, .ok h) →
        exec (.encodeFrameDone sl) s =
          .next (appendFrame s1 sl c pre b post e (leValue (h.take 8)) (leValue ((h.drop 8).take 8)) (leValue (h.drop 16))))

/-- R272, R275, R419. CHIMGATE requests or withdraws gating; a roof domain that may gate loses its store, at the end of the step in which it
may; a wake that is due
ends; a saved area is loaded where the roof is free. CHIMGATE, ROOF_GATE, ROOF_WAKE and ROOF_AREA_LOAD complete here. -/
def Obligations.RoofDomain : Prop :=
  ∀ (w : Bool) (a : SReg) (cl : Nat) (s : State),
    let v := s.g.rdS s.tick a
    let here := s.cluster s.clusterId
    let c := s.cluster cl
    (v.toNat < 2 → exec (.chimgate w a) s = .next ((s.setCluster { here with gateReq := v.getLsbD 0 }).endC w 4))
    ∧ (2 ≤ v.toNat → exec (.chimgate w a) s = .next (takeFault s { code := 1, pc := s.g.pc } []))
    ∧ (canGate s cl = true → exec (.roofGate cl) s =
        .next (s.setCluster { c with gated := true, gateReq := false, roof := [], badRoof := [], roofData := none, wakeAt := none }))
    ∧ (canGate s cl = false → exec (.roofGate cl) s = .next s)
    ∧ (∀ t, c.wakeAt = some t → t ≤ s.clk → exec (.roofWake cl) s = .next (s.setCluster { c with gated := false, wakeAt := none }))
    ∧ (∀ e, (c.areaDue.find? fun e => roofFree s cl e.1) = some e →
        exec (.roofAreaLoad cl) s = .next (loadArea (takeRoof s cl e.1) cl))

/-- R358, R363, R373, R376–R380, R395. RETT returns from the handler once it is idle, and waits, to be issued again, before; the
controller's words act on the master a handle names, with the predicate true where they have. Outside the modes they belong to they are
illegal. A record's context is the one whose sump holds it, and its slice the one its key lies in (log 35); FREEZE reset ends the
card of the team's grid (log 33).
RETT, CTXSAVE, CTXLOAD, HALT and FREEZE complete here. -/
def Obligations.ControllerWords : Prop :=
  ∀ (w : Bool) (a b : SReg) (q : QReg) (s : State),
    let h := masterOf s (s.g.rdS s.tick a)
    let pa := s.g.rdP s.tick b
    let key := sliceKey s pa
    let ret (v : Bool) (t : State) : Res := .next ((t.mapG fun g => g.wrQ q v).endC w 4)
    let illegal := Host.Outcome.next (takeFault s { code := 1, pc := s.g.pc } [])
    (s.g.mode = .handler → ¬(s.g.hs.cause.extractLsb' 10 2 = 0 ∧ s.g.hs.cause.extractLsb' 0 8 = 8 ∧ s.g.hs.pc.extractLsb' 0 2 ≠ 0) →
      handlerDone s.g = true →
      let t := s.fence .ar .prt
      exec (.rett w) s = .next ((if s.g.hs.cause.extractLsb' 10 2 = 2 then resumeCommand t t.g else t).mapG fun g => settleSplits (rettGroup g)))
    ∧ (s.g.mode = .handler → ¬(s.g.hs.cause.extractLsb' 10 2 = 0 ∧ s.g.hs.cause.extractLsb' 0 8 = 8 ∧ s.g.hs.pc.extractLsb' 0 2 ≠ 0) →
      handlerDone s.g = false → exec (.rett w) s = .next (s.parkC .again))
    ∧ (s.g.mode ≠ .handler → exec (.rett w) s = illegal)
    ∧ (s.g.mode ≠ .slice → exec (.ctxsave w a b q) s = illegal ∧ exec (.ctxload w a b q) s = illegal
        ∧ exec (.haltSoft w a q) s = illegal ∧ exec (.haltHard w a q) s = illegal)
    ∧ (s.g.mode ≠ .slice → s.g.mode ≠ .device → exec (.freezeFreeze w a q) s = illegal ∧ exec (.freezeThaw w a q) s = illegal
        ∧ exec (.freezeReset w a q) s = illegal)
    ∧ (∀ p slot t, s.g.mode = .slice → h = some (.core p slot) → teamAt s p slot = some t →
        (teamStopped s t.uid = false → exec (.haltSoft w a q) s = ret true (softHalt s t.uid)
          ∧ exec (.haltHard w a q) s = ret true (haltTeam s t.uid))
        ∧ exec (.freezeFreeze w a q) s = ret true (freezeTeam s t.uid)
        ∧ exec (.freezeThaw w a q) s = ret true (thawTeam s t.uid)
        ∧ exec (.freezeReset w a q) s = ret true (resetTeam s t)
        ∧ (pa.toNat % 4096 = 0 → teamStopped s t.uid = true → saveReady s t = true →
            exec (.ctxsave w a b q) s = ret true (saveTeam s t.uid key))
        ∧ (pa.toNat % 4096 = 0 → teamStopped s t.uid = false → exec (.ctxsave w a b q) s = ret false s))
    ∧ (∀ p slot, s.g.mode = .slice → h = some (.core p slot) → pa.toNat % 4096 = 0 → slotRedir s key = false →
        (slotCorrupt s key = true → exec (.ctxload w a b q) s = ret false (refuseRecord s (recordCtx s key) s.sliceId key pa))
        ∧ (slotCorrupt s key = false → restoreFits s (recordCtx s key) key p = true →
            exec (.ctxload w a b q) s = ret true (restoreTeam s (recordCtx s key) key p))
        ∧ (slotCorrupt s key = false → restoreFits s (recordCtx s key) key p = false → exec (.ctxload w a b q) s = ret false s))
    ∧ (∀ m, s.g.mode = .slice → h = some m → (∀ p slot, m ≠ .core p slot) → exec (.freezeFreeze w a q) s = ret true (freezeEngine s true m)
        ∧ exec (.freezeThaw w a q) s = ret true (freezeEngine s false m) ∧ exec (.freezeReset w a q) s = ret true (resetEngine s m))
    ∧ (s.g.mode = .slice → h = none → exec (.freezeFreeze w a q) s = ret false s ∧ exec (.haltSoft w a q) s = ret false s)

/-- R413, R414. The ladder: past its grace a team is halted and saved; past its kill limit its context is reset with record
0x45; past its watchdog limit its grid is reset with record 0x45.
GRACE_EXPIRE, KILL_EXPIRE and WATCHDOG_EXPIRE complete here. -/
def Obligations.Ladder : Prop :=
  ∀ (team : Nat) (s : State) (t : Team),
    (let p := pollSoft s
     ∀ at_, p.team? team = some t → t.softReq = some at_ → t.ended = false → t.hardAt = none → teamFrozen p team = false →
      teamHalted p team = false →
      at_ + 1000 * max 1 (p.ctx t.ctx).sb.grace.toNat ≤ p.now → exec (.graceExpire team) s =
        .next (ladderSave ((ladderHalt p team).mapTeams (fun u => u.uid = team) fun u => { u with hardAt := some p.now }) team))
    ∧ (∀ at_, s.team? team = some t → t.hardAt = some at_ → at_ + 1000000 * max 1 (s.ctx t.ctx).sb.kill.toNat ≤ s.now →
        sparedTeam s t = false → ((ladderSave s team).team? team).isNone = false →
        let r := resetContext (ladderSave s team) t.ctx
        exec (.killExpire team) s = .next (r.escalate (t.ppos / 128) { code := 0x45, pasid := (r.ctx t.ctx).pasid, addr := 1 }))
    ∧ (s.team? team = some t → t.ended = false → (s.ctx t.ctx).sb.wdog ≠ 0 →
        t.lastIssue + 1000000 * (s.ctx t.ctx).sb.wdog.toNat ≤ s.now →
        let r := resetGridOf s t
        exec (.watchdogExpire team) s = .next (r.escalate (t.ppos / 128) { code := 0x45, pasid := (r.ctx t.ctx).pasid, addr := 0 }))
    ∧ (s.team? team = some t → (s.ctx t.ctx).sb.wdog = 0 → exec (.watchdogExpire team) s = .next s)

/-- R41–R46, R241–R244, R279. BRL diverges the split or moves it; JOIN pops its entry or waits; LEND ends the split once
its stack has run; KILL removes lanes for good; LTRAP traps in the active lanes. The active lanes are those of the word's predicate,
or, of a word that a fault has made execute again, those it is left for. BRL, JOIN, LEND and KILL complete here; LTRAP's own effect is
the trap. -/
def Obligations.LaneControl : Prop :=
  ∀ (h : LHdr) (w : Bool) (t j k : BitVec 12) (s : State),
    (∀ x, s.g.split? s.g.curSplit = some x →
      let m := s.g.rdM s.tick h.pm.toNat
      let taken := activeLanes s h x
      let fits := taken = 0 ∨ taken = x.mask ∨ x.stack.length < 8
      let named := x.mask &&& (if h.pn then ~~~m else m)
      (x.redo = none → taken = named)
      ∧ (∀ r, x.redo = some r → taken = if r.fresh then named &&& r.lanes else r.lanes)
      ∧ (fits → exec (.brl h t j) s = .next (s.mapG fun g =>
        (branchSplit (g.clearRedo x.idx) x (x.pc + BitVec.ofInt 32 t.toInt) (x.pc + BitVec.ofNat 32 j.toNat) taken).parkW x.idx h.w))
      ∧ (taken ≠ 0 → taken ≠ x.mask → x.stack.length = 8 → exec (.brl h t j) s = wordFaultL s x 0x02 x.mask)
      ∧ (∀ e es, x.stack = e :: es → exec (.join w) s = .next (s.mapG fun g => ((g.clearRedo x.idx).mapSplit x.idx fun y =>
          if e.jpc = y.pc then popEntry y else { y with pc := y.pc + 1 }).parkW x.idx w))
      ∧ (x.stack = [] → exec (.join w) s = .next (s.mapG fun g =>
          settleSplits ((if w then (g.clearRedo x.idx).parkW x.idx w else g.clearRedo x.idx).mapSplit x.idx fun y =>
            if y.park = .drain then y else { y with park := .join })))
      ∧ (let on := unwind (2 * x.stack.length + 1) { x with redo := none }
         exec (.lend w) s = .next (s.mapG fun g =>
          settleSplits (if on.ending then g.mapSplit x.idx fun _ => on else (g.mapSplit x.idx fun _ => on).parkW x.idx w))))
    ∧ ∀ c popped, LaneIssues h [] [] [] none s c popped →
        let s1 := LaneAt [] popped s
        (c.act = 0 → exec (.ltrap h k) s = .next (c.past s1))
        ∧ (c.act ≠ 0 → exec (.ltrap h k) s =
            .next (takeFault s1 (laneFaultInfo c.sp 8 k.toNat c.act ((lanesOf c.act).map fun l => (l, (8, 0)))) []))
        ∧ exec (.kill h) s = .next (s1.mapG fun g =>
            let g1 := { g with frag := if g.inHandler then g.frag else g.frag.map (killFrag c.act) }
            let g2 := (g1.endL c.sp.idx h.w).mapSplit c.sp.idx fun y =>
              { y with mask := y.mask &&& ~~~c.act, stack := y.stack.map (killIn c.act) }
            settleSplits (g2.mapSplit c.sp.idx fun y => if y.mask = 0 then unwind (2 * y.stack.length + 1) y else y))

/-- R130, R143, R246, R247, R249, R401. LD and LDX: every active lane's access is placed, then read; the values are
long-latency results. Lanes that fault are reported together; the others have had their effect.
LD and LDX complete here. -/
def Obligations.LaneLoads : Prop :=
  ∀ (h : LHdr) (ty : NType) (o : Order) (sc : Scope) (d : VReg) (hi : Bool) (i : Instr) (a : LAddr) (s : State) (c : LCtx)
    (popped : List Nat),
    (∃ m, a = .ofM m ∧ i = .ld h ty o sc d hi m) ∨ (∃ x, a = .ofX x ∧ i = .ldx h ty o sc d hi x) →
    spaceLegal s a = true →
    LaneIssues h (loadDs ty d hi) ((d.toNat, ty.regs) :: a.opds.flatMap fun o => srcRun o.2 o.1) (a.opds.map fun o => o.1) none s c popped true →
    let r := c.placeAll a (ty.bits / 8) .rd c.lanes (LaneAt (a.opds.map fun o => o.1) popped s)
    let v := readAll (ty.bits / 8) o sc r
    let outs : Outs := v.vals.map fun x => (x.1, loadRegs ty x.2)
    let t := if ty.bits = 16 then c.putHalf true d.toNat hi outs v.s else c.putV true d.toNat (BitVec.allOnes 32) outs v.s
    r.full = false → placesFull r.s r.places (ty.bits / 8) = true →
      (v.faults = [] → exec i s = .next (c.past t))
      ∧ (∀ f fs, v.faults = f :: fs → exec i s = .next (takeFault t
          { laneFaultInfo c.sp f.2.1.toNat 0 (maskOf (v.faults.map fun e => e.1)) v.faults with taken := true, act := c.all } c.saved))

/-- R134, R143, R246, R248, R249, R279, R333. ST and STX: the lanes that are no helpers store at their placed bytes; a
release writes back first; lanes that store inside an open invocation are impure. The bytes of a value are its type's, low
byte first.
ST and STX complete here. -/
def Obligations.LaneStores : Prop :=
  ∀ (h : LHdr) (ty : NType) (o : Order) (sc : Scope) (hi : Bool) (i : Instr) (a : LAddr) (data : Src) (s : State) (c : LCtx)
    (popped : List Nat),
    (∃ m, a = .ofM m ∧ i = .st h ty o sc hi m data) ∨ (∃ x, a = .ofX x ∧ i = .stx h ty o sc hi x data) →
    spaceLegal s a = true →
    let os := a.opds ++ [(data, ty.regs)]
    LaneIssues h [] (os.flatMap fun o => srcRun o.2 o.1) (os.map fun o => o.1) none s c popped true →
    let s1 := LaneAt (os.map fun o => o.1) popped s
    let r := c.placeAll a (ty.bits / 8) .wr (c.lanes.filter fun l => !helperLane s1.g l) s1
    let s2 := if o = .rel && !r.places.isEmpty then r.s.scopeWriteBack sc else r.s
    let t := (laneOrder s2 r.places).foldl (fun s p =>
      writePlace s sc (storeVal ty hi (natOf ty.regs fun k => c.val c.s0 a.opds.length data k p.1)) p.2) s2
    let t1 := impure (c.lanes.filter fun l => (SMap.find r.faults l).isNone) (t.markWhole (globKeys r.places) (ty.bits / 8))
    r.full = false →
      (r.faults = [] → exec i s = .next (c.past t1))
      ∧ (∀ f fs, r.faults = f :: fs → exec i s = .next (takeFault t1
          { laneFaultInfo c.sp f.2.1.toNat 0 (maskOf (r.faults.map fun e => e.1)) r.faults with taken := true, act := c.all } c.saved))

/-- R147, R148, R250, R251, R279. ATOM, ATOMX and RED: one read-modify-write per lane, in any order; ATOM and ATOMX return
the old values, and zero to helper lanes. An operation that no fabric carries is a rights fault in a peer's window (log 31).
ATOM, ATOMX and RED complete here. -/
def Obligations.LaneAtomics : Prop :=
  ∀ (h : LHdr) (op : AtomOp) (ty : NType) (o : Order) (sc : Scope) (d : Option VReg) (i : Instr) (a : LAddr) (data : Src)
    (s : State) (c : LCtx) (popped : List Nat),
    (∃ r m, d = some r ∧ a = .ofM m ∧ i = .atom h op ty o sc r m data) ∨ (∃ r x, d = some r ∧ a = .ofX x ∧ i = .atomx h op ty o sc r x data)
      ∨ (∃ m, d = none ∧ a = .ofM m ∧ i = .red h op ty o sc m data) →
    spaceLegal s a = true →
    let os := a.opds ++ [(data, op.regs ty)]
    LaneIssues h (match d with | some r => vDs ty.regs (.vec r) | none => []) ((d.toList.map fun r => (r.toNat, ty.regs)) ++ os.flatMap fun o => srcRun o.2 o.1) (os.map fun o => o.1) none s c popped true →
    let s1 := LaneAt (os.map fun o => o.1) popped s
    let r := (c.placeAll a (ty.bits / 8) .at (c.lanes.filter fun l => !helperLane s1.g l) s1).carriedOnly op
    let v := atomAll c op ty o sc a.opds.length data r
    let t := impure (c.lanes.filter fun l => (SMap.find v.faults l).isNone) v.s
    let outs : Outs := ((c.lanes.filter fun l => helperLane s1.g l).map fun l => (l, regsOf ty.regs 0))
      ++ v.vals.map fun x => (x.1, regsOf ty.regs x.2)
    r.full = false → placesFull r.s r.places (ty.bits / 8) = true → v.faults = [] →
      exec i s = .next (c.past (match d with | none => t | some r => c.putV true r.toNat (BitVec.allOnes 32) outs t))

/-- R168, R245, R252. LCPY starts a 16-byte copy per lane that is no helper; PREF fills a line of the L1 and drops what
fails; MOVS reads a special register in each lane.
LCPY, PREF and MOVS complete here. -/
def Obligations.LaneCopies : Prop :=
  ∀ (h : LHdr) (sc : Scope) (m : MAddr) (a b c : Src) (t : BitVec 4) (disp : BitVec 20) (d : Dst) (n : BitVec 12),
    (∀ (s : State) (x : LCtx) (popped : List Nat),
      let os := (LAddr.ofM m).opds ++ [(b, 1), (c, 1)]
      spaceLegal s (.ofM m) = true → LaneIssues h [] (os.flatMap fun o => srcRun o.2 o.1) (os.map fun o => o.1) none s x popped true →
      let s1 := LaneAt (os.map fun o => o.1) popped s
      let start (p : State × SMap (Byte × DWord)) (l : Nat) : State × SMap (Byte × DWord) :=
        match x.lcpyLane m b c p.1 l with
        | (s, .error e) => (s, SMap.insert p.2 l (BitVec.ofNat 8 e.1, e.2))
        | (s, .ok (src, sa, dst, br)) =>
          (startCopy s { groupCopy s br src .sp sa dst (.rows 16 1 0 0) with cpc := x.sp.pc.setWidth 64 }, p.2)
      let r := (x.lanes.filter fun l => !helperLane s1.g l).foldl start (s1, [])
      r.2 = [] → exec (.lcpy h sc m b c) s = .next (x.past (impure x.lanes r.1)))
    ∧ Does (.pref h sc t a disp) h [] (srcRun 1 a) [a] none (fun x s => x.lanes.foldl (fun s l =>
        match placeT s t.toNat ((x.val x.s0 0 a 0 l).toInt + disp.toInt) 1 .rd with
        | (s', .at_ (.glob key _ _)) => if sc.stays then s'.l1Fill s'.l1Id (key / 128) else s'
        | _ => s) s)
    ∧ (∀ (s : State) (x : LCtx) (popped : List Nat), (readSpecial s n.toNat (some 0)).isSome = true →
        LaneIssues h [] (dstRun 1 d) [] (some d) s x popped →
        let s1 := LaneAt [] popped s
        exec (.movs h d n) s =
          .next (x.past (x.put false d (x.lanes.map fun l => (l, [(readSpecial s1 n.toNat (some l)).getD 0])) s1)))

/-- R277–R284. Attributes, derivatives and exports of a fragment group's lanes: a derivative is a rounded difference within
the quad; an export of a lane that is no helper replaces the one before. On a roof core, with an attribute or a target that the draw
has not, and, for attributes and exports, outside a fragment group they are illegal.
R277–R279, R57, R409. The next fragment group of a draw: its vertices are fetched (a fetch that fails abandons the draw, log 20), its
primitive is clipped and rasterised, and its next eight quads, in log 20's order, stand ready as a group; a primitive without quads
left gives way to the next; the groups of a co-resident draw are all made before one starts; a group that stands ready starts where the
dispatcher's choice falls on it. ATTR, DERIV, EXPC, EXPZ and FRAGMENT_GROUP_LAUNCH complete here. -/
def Obligations.Fragments : Prop :=
  (∀ (h : LHdr) (md : AttrMode) (y fine : Bool) (d : Dst) (a : Src) (i : BitVec 6) (bl : Blend) (n : BitVec 3) (s : State)
     (c : LCtx) (popped : List Nat),
     let covered (f : Frag) : List Nat := c.lanes.filter fun l => SMap.get 0 f.cov l ≠ 0
     let s1 := LaneAt [a] popped s
     let colored (f : Frag) : Option Frag :=
       some ((covered f).foldl (fun f l => setColor f l n.toNat bl ((List.range 4).map fun k => c.val s1 0 a k l)) f)
     let deepened (f : Frag) : Option Frag :=
       some { f with depth := (covered f).foldl (fun m l => SMap.insert m l (c.val s1 0 a 0 l)) f.depth }
     (∀ f, s.g.frag = some f → s.isRoof = false → i.toNat < (if md = .builtin then 8 else drawNa f.draw) →
       LaneIssues h [] (dstRun 1 d) [] (some d) s c popped → exec (.attr h md d i) s =
         .next (c.past (c.put false d (c.lanes.map fun l => (l, [attrValue f md i.toNat l])) (LaneAt [] popped s))))
     ∧ (s.isRoof = false → LaneIssues h (vDs 1 d) (dstRun 1 d ++ srcRun 1 a) [a] (some d) s c popped →
         let diff (l : Nat) := f32Diff (c.val s1 0 a 0 (derivLanes y fine l).1) (c.val s1 0 a 0 (derivLanes y fine l).2)
         exec (.deriv h y fine d a) s = .next (c.past (flagAll (c.lanes.map fun l => (diff l).2)
           (c.put false d (c.lanes.map fun l => (l, [(diff l).1])) s1))))
     ∧ (∀ f, s.g.frag = some f → s.isRoof = false → n.toNat < drawTargets f.draw → LaneIssues h [] (srcRun 4 a) [a] none s c popped →
         exec (.expc h bl a n) s = .next (c.past (s1.mapG fun g => { g with frag := colored f })))
     ∧ (∀ f, s.g.frag = some f → s.isRoof = false → LaneIssues h [] (srcRun 1 a) [a] none s c popped →
         exec (.expz h a) s = .next (c.past (s1.mapG fun g => { g with frag := deepened f })))
     ∧ (∀ x, s.g.split? s.g.curSplit = some x →
         let stop := wordFaultL s x 1 (activeLanes s h x)
         (s.g.frag = none → exec (.attr h md d i) s = stop ∧ exec (.expc h bl a n) s = stop ∧ exec (.expz h a) s = stop)
         ∧ (s.isRoof = true → exec (.attr h md d i) s = stop ∧ exec (.deriv h y fine d a) s = stop ∧ exec (.expc h bl a n) s = stop
             ∧ exec (.expz h a) s = stop)
         ∧ (∀ f, s.g.frag = some f → ((if md = .builtin then 8 else drawNa f.draw) ≤ i.toNat → exec (.attr h md d i) s = stop)
             ∧ (drawTargets f.draw ≤ n.toNat → exec (.expc h bl a n) s = stop))))
  ∧ (∀ (n : Nat) (s : State) (k : Card) (l : Launch), card? s n = some k → k.launch = some l →
       (k.phase = .started → k.raster = true → moreTeams true l = true → (s.vf k.vf).frozen = false → ctxRuns s k.ctx = true →
         (l.fragDue = true → exec (.fragmentGroupLaunch n) s = .next (fitDraw (makeFrag s k l) n)
           ∧ (∀ s1 e, fetchVerts s k.ctx (relSl s k.ctx k.slice) l.draw (primVerts l.draw l.prim) = (s1, .error e) →
               makeFrag s k l = abandonLaunch s1 k e.1 e.2)
           ∧ (∀ s1 vs as, fetchVerts s k.ctx (relSl s k.ctx k.slice) l.draw (primVerts l.draw l.prim) = (s1, .ok (vs, as)) →
               let ps := (clipPoly vs).map (toPixel l.draw)
               let rest := (primQuads l.draw ps).drop (8 * l.chunk)
               let l1 := if rest.length ≤ 8 then { l with prim := l.prim + 1, chunk := 0 } else { l with chunk := l.chunk + 1 }
               let f := fragOf k l (facesFront l.draw (twiceArea ps)) vs as (rest.take 8)
               makeFrag s k l = mapCard s1 k.id fun c => { c with launch := some (l1.hold (if rest = [] then none else some f)) }))
         ∧ (∀ s1 j, l.fragDue = false → dispatch k.vf s = (s1, some j) → j.saved = [] → j.card = n →
             exec (.fragmentGroupLaunch n) s = .next s1))
       ∧ (moreTeams true l = false → exec (.fragmentGroupLaunch n) s = .next s))

/-- R285–R291, R369. Texture words and TRACE with a sound descriptor of the word's kind, which they acquire and check: each lane's
registers are what the sampling, the gather, the query or the traversal gives for its operands, as long-latency results. The arithmetic
of the filter and of the level of detail where an infinity takes part, and coordinates that have no stated result, are as log 20 has
them; the order of the traversal is log 21's. TEXS, TEXL, TEXG, TEXQ and TRACE complete here. -/
def Obligations.TextureAndRays : Prop :=
  ∀ (h : LHdr) (dim : TexDim) (comp : BitVec 2) (ext any : Bool) (d : Dst) (a b : Src) (t : BitVec 16) (s : State) (c : LCtx)
    (popped : List Nat) (x : Tex),
    let regs (n : Nat) := dstRun 4 d ++ (srcRun n a)
    let at_ (os : List Src) := (LaneAt os popped s).objAcquire
    let sampled (i : Instr) (os : List Src) (f : State → Nat → Except (Nat × DWord) (List Word)) : Prop :=
      texLookup (at_ os) t.toNat = .ok x → x.kind = dimKind dim →
      ∀ ws : Nat → List Word, (∀ l ∈ c.lanes, f (at_ os) l = .ok (ws l)) →
        exec i s = .next (c.past (c.put true d (c.lanes.map fun l => (l, ws l)) (at_ os)))
    s.isRoof = false →
      (LaneIssues h (vDs 4 d) (regs dim.regs) [a] none s c popped true →
        sampled (.texg h dim comp d a t) [a] (fun s l =>
          let cs := coordsOf c s dim a l
          if farAway dim cs then .ok (freeRegs s l 4) else gatherTex s x comp.toNat (cs.map farOf))
        ∧ sampled (.texs h dim d a t) [a] (fun s l =>
          let cs := coordsOf c s dim a l
          let diff (y : Bool) : List Word := (List.range (lodCoords dim)).map fun k =>
            (f32Diff (nanZero (c.val s 0 a k (derivLanes y false l).1)) (nanZero (c.val s 0 a k (derivLanes y false l).2))).1
          let ds := diff false ++ diff true
          let steep := ds.any isInfinite
          if farAway dim cs || ds.any (fun w => (f32v w).isNaN) || (steep && x.bias = 0xFF800000) then .ok (freeRegs s l 4)
          else sampleTex s x (cs.map farOf) (if steep then 2 ^ 200 else
            match lodOf x ((diff false).map coordOf) ((diff true).map coordOf) with
            | none => if isInfinite x.bias then farOf x.bias else -32768
            | some q => q + farOf x.bias)))
      ∧ (LaneIssues h (vDs 4 d) (regs dim.regs ++ srcRun 1 b) [a, b] none s c popped true →
        sampled (.texl h dim d a b t) [a, b] (fun s l =>
          let cs := coordsOf c s dim a l
          let v := c.val s 1 b 0 l
          if farAway dim cs || opposed v x.bias then .ok (freeRegs s l 4)
          else sampleTex s x (cs.map farOf) (farOf v + farOf x.bias)))
      ∧ (LaneIssues h (vDs 2 d) (dstRun 2 d ++ srcRun 1 b) [b] none s c popped true → texLookup (at_ [b]) t.toNat = .ok x →
        exec (.texq h ext d b t) s = .next (c.past
          (c.put true d (c.lanes.map fun l => (l, texQuery x ext (c.val (at_ [b]) 0 b 0 l).toNat)) (at_ [b]))))
      ∧ (LaneIssues h (vDs 8 d) (dstRun 8 d ++ srcRun 4 a ++ srcRun 4 b) [a, b] none s c popped true →
        let s1 := at_ [a, b]
        let run (i : Nat) (o : Src) (l : Nat) : List Word := (List.range 4).map fun k => c.val s1 i o k l
        ∀ base (hit : Nat → List Word × Flags), bvhBase s1 t.toNat = .ok base →
          (∀ l ∈ c.lanes, traceRay s1 base any l (run 0 a l) (run 1 b l) = .ok (hit l)) → ∃ fl : List Flags,
          fl.foldl (· ||| ·) 0 = (c.lanes.map fun l => (hit l).2).foldl (· ||| ·) 0 ∧
          exec (.trace h any d a b t) s = .next (c.past
            ((flagAll fl (c.put true d (c.lanes.map fun l => (l, (hit l).1)) s1)).countEvent s1.g.ctx 0x12 c.lanes.length)))

/-- R270, R271. The fragment matrix: FMMA computes each element of C + A × B in its lane; FMLD and FMST move the bytes of a
tile between memory and the active lanes' registers, helper lanes among them, the lanes in any order (log 7); the base and the stride,
read as a natural number (log 7), are those of the lowest lane that was active when the word first executed. FMMA, FMLD and FMST complete here. -/
def Obligations.FragmentMatrix : Prop :=
  ∀ (h : LHdr) (ty ta tb : NType) (acc tr : Bool) (d : Dst) (a b c : Src) (m : MAddr) (s : State) (x : LCtx) (popped : List Nat),
    let n := if acc then 8 else 4
    let bw := ty.bits / 8
    let u := if tr then bw else 4
    (fmtType s.g.fmt 0 = some ta → fmtType s.g.fmt 4 = some tb → fragType ta = true → fragType tb = true →
      s.g.fmt.extractLsb' 8 4 = 0 →
      LaneIssues h (vDs 8 d) (dstRun 8 d ++ srcRun 4 a ++ srcRun 4 b ++ srcRun 8 c) [a, b, c] (some d) s x popped →
      let s1 := LaneAt [a, b, c] popped s
      let e (l r : Nat) := fragDot ta tb (x.val s1 0 a) (x.val s1 1 b) (x.val s1 2 c r l) ((8 * l + r) / 16) ((8 * l + r) % 16)
      exec (.fmma h d a b c) s = .next (x.past (flagAll (x.lanes.flatMap fun l => (List.range 8).map fun r => (e l r).2)
        (x.put true d (x.lanes.map fun l => (l, (List.range 8).map fun r => (e l r).1)) s1))))
    ∧ (spaceLegal s (.ofM m) = true → x.lanes ≠ [] →
      LaneIssues h (vDs n d) (dstRun n d ++ srcRun 1 (addrSrc m) ++ srcRun 1 b) [addrSrc m, b] (some d) s x popped true →
      let l0 := x.lead
      let s1 := LaneAt [addrSrc m, b] popped s
      let off := (x.val s1 0 (addrSrc m) 0 l0).toInt + (addrDisp m).toInt
      let stride := (x.val s1 1 b 0 l0).toNat
      let r := placeFrag m acc (if tr then some bw else none) u off stride .rd x.lanes s1
      let q := readFrag u r
      (fragAddr s1 m off).toNat % 16 = 0 → stride % 16 = 0 → r.full = false →
      placesFull r.s (r.units.map fun x => (x.1, x.2.2)) u = true → q.2.2 = [] →
      exec (.fmld h ty acc tr d m b) s = .next (x.past (x.put true d (x.lanes.map fun l =>
        (l, (List.range n).map fun k => fragReg q.2.1 (fragLane acc * l + 4 * k))) q.1)))
    ∧ (spaceLegal s (.ofM m) = true → x.lanes ≠ [] →
      LaneIssues h [] (srcRun n c ++ srcRun 1 (addrSrc m) ++ srcRun 1 b) [addrSrc m, b, c] none s x popped true →
      let l0 := x.lead
      let s1 := LaneAt [addrSrc m, b, c] popped s
      let off := (x.val s1 0 (addrSrc m) 0 l0).toInt + (addrDisp m).toInt
      let stride := (x.val s1 1 b 0 l0).toNat
      let r := placeFrag m acc none 4 off stride .wr x.lanes s1
      (fragAddr s1 m off).toNat % 16 = 0 → stride % 16 = 0 → r.full = false → r.faults = [] →
      exec (.fmst h ty acc m b c) s = .next (x.past (r.inOrder.foldl (fun s e =>
        writePlace s .grp (bytesOf [x.val x.s0 2 c (e.2.1 % fragLane acc / 4) e.1]) e.2.2) r.s)))

/-- R214, R118. FP32 arithmetic: the exact result of the operands' exact values, rounded once into the mode of the word;
FMIN and FMAX (R216); FDIV to FCOST are long-latency (R90).
R215, R217–R219. FP32 compares, classes, integral values, fractions, scaling, exponents and signs. -/
def Obligations.LaneFp32 : Prop :=
  (∀ (h : LHdr) (d : Dst) (a b c : Src) (r : RS),
     let os2 : List Opd := [(a, 1), (b, 1)]
     let os3 : List Opd := [(a, 1), (b, 1), (c, 1)]
     let x (v : Nat → Nat → Word) (j : Nat) : XReal := f32v (v j 0)
     Computes (.fadd h d a b r) h false d 1 os2 (fun v => oneReg (roundF32 (XReal.add r.rm (x v 0) (x v 1)) r))
     ∧ Computes (.fsub h d a b r) h false d 1 os2 (fun v => oneReg (roundF32 (XReal.add r.rm (x v 0) (x v 1).neg) r))
     ∧ Computes (.fmul h d a b r) h false d 1 os2 (fun v => oneReg (roundF32 (XReal.mul (x v 0) (x v 1)) r))
     ∧ Computes (.ffma h d a b c r) h false d 1 os3
         (fun v => oneReg (roundF32 (XReal.add r.rm (XReal.mul (x v 0) (x v 1)) (x v 2)) r))
     ∧ Computes (.ffms h d a b c r) h false d 1 os3
         (fun v => oneReg (roundF32 (XReal.add r.rm (XReal.mul (x v 0) (x v 1)) (x v 2).neg) r))
     ∧ Computes (.fmin h d a b) h false d 1 os2 (fun v => oneReg (f32MinMax false (v 0 0) (v 1 0)))
     ∧ Computes (.fmax h d a b) h false d 1 os2 (fun v => oneReg (f32MinMax true (v 0 0) (v 1 0)))
     ∧ Computes (.fdiv h d a b r) h true d 1 os2 (fun v => oneReg (f32Div (v 0 0) (v 1 0) r))
     ∧ Computes (.frcp h d a r) h true d 1 [(a, 1)] (fun v => oneReg (f32Div 0x3F800000 (v 0 0) r))
     ∧ Computes (.frsq h d a r) h true d 1 [(a, 1)] (fun v => oneReg (f32Rsqrt (v 0 0) r))
     ∧ Computes (.fsqrt h d a r) h true d 1 [(a, 1)] (fun v => oneReg (f32Sqrt (v 0 0) r))
     ∧ Computes (.ex2 h d a r) h true d 1 [(a, 1)] (fun v => oneReg (f32Ex2 (v 0 0) r))
     ∧ Computes (.lg2 h d a r) h true d 1 [(a, 1)] (fun v => oneReg (f32Lg2 (v 0 0) r))
     ∧ Computes (.fsint h d a r) h true d 1 [(a, 1)] (fun v => oneReg (f32Sint (v 0 0) r))
     ∧ Computes (.fcost h d a r) h true d 1 [(a, 1)] (fun v => oneReg (f32Cost (v 0 0) r)))
  ∧ (∀ (h : LHdr) (d : Dst) (a b : Src) (r : RS) (rm : RMode) (cc : FCond) (m : BitVec 4),
       Computes (.fclass h d a) h false d 1 [(a, 1)] (fun v => ([f32Class (v 0 0)], 0))
       ∧ Computes (.frint h d a rm) h false d 1 [(a, 1)] (fun v => oneReg (f32Integral rm true (v 0 0)))
       ∧ Computes (.ffloor h d a) h false d 1 [(a, 1)] (fun v => oneReg (f32Integral .down false (v 0 0)))
       ∧ Computes (.fceil h d a) h false d 1 [(a, 1)] (fun v => oneReg (f32Integral .up false (v 0 0)))
       ∧ Computes (.ftrunc h d a) h false d 1 [(a, 1)] (fun v => oneReg (f32Integral .zero false (v 0 0)))
       ∧ Computes (.ffract h d a rm) h false d 1 [(a, 1)] (fun v => oneReg (f32Fract rm (v 0 0)))
       ∧ Computes (.fscale h d a b r) h false d 1 [(a, 1), (b, 1)] (fun v => oneReg (f32Scale (v 0 0) (v 1 0) r))
       ∧ Computes (.fgetexp h d a) h false d 1 [(a, 1)] (fun v => oneReg (f32GetExp (v 0 0)))
       ∧ Computes (.fcopysign h d a b) h false d 1 [(a, 1), (b, 1)]
           (fun v => ([((v 1 0).extractLsb' 31 1 ++ (v 0 0).extractLsb' 0 31 : BitVec 32)], 0))
       ∧ Computes (.fcmp h (.reg d) cc a b) h false d 1 [(a, 1), (b, 1)] (fun v =>
           let p := fpCompare cc (f32v (v 0 0)) (f32v (v 1 0))
           ([if p.1 then 0xFFFFFFFF else 0], p.2))
       ∧ Does (.fcmp h (.mask m) cc a b) h (mDs m.toNat) (srcRun 1 a ++ srcRun 1 b) [a, b] none (fun c s =>
           let p (l : Nat) := fpCompare cc (f32v (c.val s 0 a 0 l)) (f32v (c.val s 1 b 0 l))
           flagAll (c.lanes.map fun l => (p l).2) (c.putM false m.toNat (c.lanes.map fun l => (l, (p l).1)) s)))

/-- R220, R221. The packed 16-bit group acts on both halves; HDOT2 rounds the exact sum once into f32. -/
def Obligations.LanePacked : Prop :=
  ∀ (h : LHdr) (ty : NType) (d : Dst) (a b c : Src) (r : RS) (cc : FCond),
    let os2 : List Opd := [(a, 1), (b, 1)]
    let os3 : List Opd := [(a, 1), (b, 1), (c, 1)]
    let both (f : Nat → Nat × Flags) : List Word × Flags :=
      ([BitVec.ofNat 32 ((f 0).1 + 65536 * (f 1).1)], (f 0).2 ||| (f 1).2)
    let code (v : Nat → Nat → Word) (j k : Nat) : Nat := if k = 0 then (v j 0).toNat % 65536 else (v j 0).toNat / 65536
    let x (v : Nat → Nat → Word) (j k : Nat) : XReal := fpValue ty (code v j k)
    let rnd (y : XReal) : Nat × Flags := fpRound y ty r.rm r.sat
    Computes (.hadd2 h ty d a b r) h false d 1 os2 (fun v => both fun k => rnd (XReal.add r.rm (x v 0 k) (x v 1 k)))
    ∧ Computes (.hsub2 h ty d a b r) h false d 1 os2 (fun v => both fun k => rnd (XReal.add r.rm (x v 0 k) (x v 1 k).neg))
    ∧ Computes (.hmul2 h ty d a b r) h false d 1 os2 (fun v => both fun k => rnd (XReal.mul (x v 0 k) (x v 1 k)))
    ∧ Computes (.hfma2 h ty d a b c r) h false d 1 os3
        (fun v => both fun k => rnd (XReal.add r.rm (XReal.mul (x v 0 k) (x v 1 k)) (x v 2 k)))
    ∧ Computes (.hmin2 h ty d a b) h false d 1 os2 (fun v => both fun k => fpMinMax ty false (code v 0 k) (code v 1 k))
    ∧ Computes (.hmax2 h ty d a b) h false d 1 os2 (fun v => both fun k => fpMinMax ty true (code v 0 k) (code v 1 k))
    ∧ Computes (.hcmp2 h ty d cc a b) h false d 1 os2
        (fun v => both fun k => let p := fpCompare cc (x v 0 k) (x v 1 k); (if p.1 then 0xFFFF else 0, p.2))
    ∧ Computes (.hdot2 h ty d a b c r) h false d 1 os3 (fun v => oneReg (roundF32
        (XReal.sum r.rm [XReal.mul (x v 0 0) (x v 1 0), XReal.mul (x v 0 1) (x v 1 1), f32v (v 2 0)]) r))

/-- R222–R228, R117. Conversions: one exact value rounded once into its type, by the mode of the word or stochastically,
which steps each active lane's counter once. A 16-bit result goes to one half of its register. -/
def Obligations.LaneConversions : Prop :=
  ∀ (h : LHdr) (ty sty : NType) (shi sr : Bool) (d : Dst) (hi : Bool) (a b c : Src) (bo : Option Src) (rg : VReg) (k : BitVec 3)
    (r : RS) (rm : RMode) (sat : Bool),
    let put (i : Instr) (sr : Bool) (f : (Nat → Nat) → Nat → List Word × Flags) : Prop :=
      let rs (x : LCtx) (s : State) := x.lanes.map fun l =>
        (l, f (randomHalf s l) (natOf sty.regs fun k => x.val s 0 a k l))
      (ty.bits ≠ 16 → Does i h (vDs ty.regs d) (dstRun ty.regs d ++ srcRun sty.regs a) [a] (some d) (fun x s =>
        flagAll ((rs x s).map fun o => o.2.2) (x.put false d ((rs x s).map fun o => (o.1, o.2.1)) (x.stepCtr sr s))))
      ∧ (ty.bits = 16 → d = .vec rg → Does i h [(vKey rg.toNat 0, halfBits hi)] ((rg.toNat, 1) :: srcRun sty.regs a) [a] none (fun x s =>
        flagAll ((rs x s).map fun o => o.2.2) (x.putHalf false rg.toNat hi ((rs x s).map fun o => (o.1, o.2.1)) (x.stepCtr sr s))))
    let code (n : Nat × Flags) : List Word × Flags := ([BitVec.ofNat 32 n.1], n.2)
    put (.cvt h ty sty shi sr ⟨d, hi⟩ a r) sr (fun u x => code (roundTo ty r sr (u 0) (fpValue sty (srcBits sty shi x))))
    ∧ put (.itof h ty sty shi sr ⟨d, hi⟩ a r) sr
        (fun u x => code (roundTo ty r sr (u 0) (XReal.ofRat false (intValue sty (srcBits sty shi x) : Rat))))
    ∧ put (.ftoi h ty sty shi ⟨d, hi⟩ a rm) false (fun _ x =>
        let p := fpToInt (fpValue sty (srcBits sty shi x)) ty rm
        (intRegs ty p.1, p.2))
    ∧ put (.icvt h ty sty shi ⟨d, hi⟩ a sat) false (fun _ x =>
        let p := intNarrow ty sat (intValue sty (srcBits sty shi x))
        (intRegs ty (intValue ty p.1), p.2))
    ∧ (∀ n i nd ns, (n = 2 ∧ bo = none ∧ i = .cvt2 h ty sty sr d a r) ∨ (n = 4 ∧ i = .cvt4 h ty sty sr d a bo r)
          ∨ (n = 8 ∧ i = .cvt8 h ty sty sr d a bo r) → cvtTable n ty sty = some (nd, ns) →
        Does i h (vDs nd d) (dstRun nd d ++ srcRun ns a ++ bo.toList.flatMap (srcRun 1)) (a :: bo.toList) (some d) (fun x s =>
          let e (l : Nat) : Nat := match bo with | some b => (x.val s 1 b 0 l).toNat % 256 | none => 127
          let p (l : Nat) := cvtRun n ty sty r sr (randomHalf s l) (e l) (natOf ns fun k => x.val s 0 a k l)
          flagAll (x.lanes.map fun l => (p l).2)
            (x.put false d (x.lanes.map fun l => (l, regsOf nd (p l).1)) (x.stepCtr sr s))))
    ∧ (let n := if ty.bits = 8 then 2 else 4
       Does (.qdec h ty sr d a b c r) h (vDs n d) (dstRun n d ++ (srcRun 1 a ++ (srcRun 1 b ++ srcRun 1 c))) [a, b, c] (some d) (fun x s =>
        let p (l : Nat) := (List.range 8).foldl (fun acc i =>
          let q := roundTo ty r sr (randomHalf s l i) (decodeQN4 ((x.val s 0 a 0 l).toNat / 16 ^ i % 16)
            ((x.val s 1 b 0 l).toNat % 256) (x.val s 2 c 0 l))
          (acc.1 + q.1 * 2 ^ (ty.bits * i), acc.2 ||| q.2)) (0, (0 : Flags))
        flagAll (x.lanes.map fun l => (p l).2)
          (x.put false d (x.lanes.map fun l => (l, regsOf n (p l).1)) (x.stepCtr sr s))))
    ∧ Does (.qenc h (.vec rg) a b c k) h [(vKey rg.toNat 0, 15#32 <<< (4 * k.toNat))] ((rg.toNat, 1) :: (srcRun 1 a ++ (srcRun 1 b ++ srcRun 1 c))) [a, b, c] none (fun x s =>
        let p (l : Nat) := encodeQN4 (x.val s 0 a 0 l) ((x.val s 1 b 0 l).toNat % 256) (x.val s 2 c 0 l)
        flagAll (x.lanes.map fun l => (p l).2) (x.putV false rg.toNat (15#32 <<< (4 * k.toNat))
          (x.lanes.map fun l => (l, [BitVec.ofNat 32 (p l).1 <<< (4 * k.toNat)])) s))

/-- R229, R230. Lane integer arithmetic: the exact integer result, kept modulo the type's width or saturated; shifts and
funnel shifts.
R231–R236. Lane logic, bit fields, selection, dot products, carries and moves. -/
def Obligations.LaneInteger : Prop :=
  (∀ (h : LHdr) (ty : NType) (d : Dst) (a b c : Src) (sat : Bool) (n : BitVec 6),
     let int (v : Nat → Nat → Word) (j : Nat) : Int := intValue ty (natOf ty.regs (v j))
     let nat (v : Nat → Nat → Word) (j : Nat) : Nat := natOf ty.regs (v j)
     let fit (sat : Bool) (x : Int) : List Word × Flags := (regsOf ty.regs (intNarrow ty sat x).1, (intNarrow ty sat x).2)
     let w (x : Nat) : List Word × Flags := (regsOf ty.regs x, 0)
     let o1 : List Opd := [(a, ty.regs)]
     let o2 : List Opd := [(a, ty.regs), (b, ty.regs)]
     let o3 : List Opd := [(a, ty.regs), (b, ty.regs), (c, ty.regs)]
     let on : List Opd := [(a, ty.regs), (b, 1)]
     let k (v : Nat → Nat → Word) : Nat := (v 1 0).toNat % ty.bits
     let wide (v : Nat → Nat → Word) : Nat := (v 0 0).toNat * 2 ^ 32 + (v 1 0).toNat
     Computes (.iadd h ty d a b sat) h false d ty.regs o2 (fun v => fit sat (int v 0 + int v 1))
     ∧ Computes (.isub h ty d a b sat) h false d ty.regs o2 (fun v => fit sat (int v 0 - int v 1))
     ∧ Computes (.imul h ty d a b sat) h false d ty.regs o2 (fun v => fit sat (int v 0 * int v 1))
     ∧ Computes (.imulh h ty d a b) h false d ty.regs o2 (fun v => fit false (int v 0 * int v 1 / 2 ^ 32))
     ∧ Computes (.imad h ty d a b c sat) h false d ty.regs o3 (fun v => fit sat (int v 0 * int v 1 + int v 2))
     ∧ Computes (.imin h ty d a b) h false d ty.regs o2 (fun v => fit false (if int v 0 ≤ int v 1 then int v 0 else int v 1))
     ∧ Computes (.imax h ty d a b) h false d ty.regs o2 (fun v => fit false (if int v 0 ≤ int v 1 then int v 1 else int v 0))
     ∧ Computes (.iabs h ty d a sat) h false d ty.regs o1 (fun v => fit sat (if int v 0 < 0 then -int v 0 else int v 0))
     ∧ Computes (.ishl h ty d a (.src b)) h false d ty.regs on (fun v => w (nat v 0 * 2 ^ k v % 2 ^ ty.bits))
     ∧ Computes (.ishr h ty d a (.src b)) h false d ty.regs on (fun v => w (nat v 0 / 2 ^ k v))
     ∧ Computes (.isar h ty d a (.src b)) h false d ty.regs on (fun v => w (intBits ty.bits (int v 0 / (2 ^ k v : Nat))))
     ∧ Computes (.ishl h ty d a (.imm n)) h false d ty.regs o1 (fun v => w (nat v 0 * 2 ^ n.toNat % 2 ^ ty.bits))
     ∧ Computes (.ishr h ty d a (.imm n)) h false d ty.regs o1 (fun v => w (nat v 0 / 2 ^ n.toNat))
     ∧ Computes (.isar h ty d a (.imm n)) h false d ty.regs o1 (fun v => w (intBits ty.bits (int v 0 / (2 ^ n.toNat : Nat))))
     ∧ Computes (.fshl h d a b (.src c)) h false d 1 [(a, 1), (b, 1), (c, 1)]
         (fun v => ([BitVec.ofNat 32 (wide v * 2 ^ ((v 2 0).toNat % 32) / 2 ^ 32)], 0))
     ∧ Computes (.fshr h d a b (.src c)) h false d 1 [(a, 1), (b, 1), (c, 1)]
         (fun v => ([BitVec.ofNat 32 (wide v / 2 ^ ((v 2 0).toNat % 32))], 0))
     ∧ Computes (.fshl h d a b (.imm n)) h false d 1 [(a, 1), (b, 1)]
         (fun v => ([BitVec.ofNat 32 (wide v * 2 ^ n.toNat / 2 ^ 32)], 0))
     ∧ Computes (.fshr h d a b (.imm n)) h false d 1 [(a, 1), (b, 1)]
         (fun v => ([BitVec.ofNat 32 (wide v / 2 ^ n.toNat)], 0)))
  ∧ (∀ (h : LHdr) (ty : NType) (d : Dst) (a b c : Src) (m : BitVec 4) (neg sub sat : Bool) (cc : ICond) (tt : BitVec 8)
       (i : BitVec 24) (rg : VReg),
       let os1 : List Opd := [(a, 1)]
       let os2 : List Opd := [(a, 1), (b, 1)]
       let os3 : List Opd := [(a, 1), (b, 1), (c, 1)]
       let int (v : Nat → Nat → Word) (j : Nat) : Int := intValue ty (natOf ty.regs (v j))
       (∀ x y z k, k < 32 → (logic3 tt x y z).getLsbD k =
           tt.getLsbD (4 * (x.getLsbD k).toNat + 2 * (y.getLsbD k).toNat + (z.getLsbD k).toNat))
       ∧ Computes (.logic3 h d a b c tt) h false d 1 os3 (fun v => ([logic3 tt (v 0 0) (v 1 0) (v 2 0)], 0))
       ∧ Computes (.laneBfx h ty d a b) h false d 1 os2 (fun v => ([bfx (v 0 0) (v 1 0)], 0))
       ∧ Computes (.laneBfi h ty d a b c) h false d 1 os3 (fun v => ([bfi (v 2 0) (v 0 0) (v 1 0)], 0))
       ∧ Computes (.lanePopc h d a) h false d 1 os1 (fun v => ([BitVec.ofNat 32 ((List.range 32).countP fun k => (v 0 0).getLsbD k)], 0))
       ∧ Computes (.laneClz h d a) h false d 1 os1 (fun v => ([clz32 (v 0 0)], 0))
       ∧ Computes (.laneBrev h d a) h false d 1 os1 (fun v => ([brev32 (v 0 0)], 0))
       ∧ Computes (.icmp h ty (.reg d) cc a b) h false d 1 [(a, ty.regs), (b, ty.regs)]
           (fun v => ([if icondHolds cc (int v 0) (int v 1) then 0xFFFFFFFF else 0], 0))
       ∧ Does (.icmp h ty (.mask m) cc a b) h (mDs m.toNat) (srcRun ty.regs a ++ srcRun ty.regs b) [a, b] none (fun x s =>
           let p (l : Nat) := icondHolds cc (intValue ty (natOf ty.regs fun k => x.val s 0 a k l))
             (intValue ty (natOf ty.regs fun k => x.val s 1 b k l))
           x.putM false m.toNat (x.lanes.map fun l => (l, p l)) s)
       ∧ Does (.laneSel h ty d a b m neg) h (vDs ty.regs d) (dstRun ty.regs d ++ srcRun ty.regs a ++ srcRun ty.regs b) [a, b] (some d) (fun x s =>
           x.put false d (x.lanes.map fun l => (l, (List.range ty.regs).map fun k =>
             if xor ((s.g.rdM s.tick m.toNat).getLsbD l) neg then x.val s 0 a k l else x.val s 1 b k l)) s)
       ∧ Computes (.idot4 h ty d a b c sat) h false d 1 os3 (fun v =>
           let t : NType := if ty = .s8 then .s32 else .n32
           let p (j : Nat) : Int := byteOf ty (v 0 0) j * byteOf ty (v 1 0) j
           let q := intNarrow t sat (intValue t (v 2 0).toNat + p 0 + p 1 + p 2 + p 3)
           ([BitVec.ofNat 32 q.1], q.2))
       ∧ Computes (.isad h d a b c) h false d 1 os3 (fun v =>
           let p (j : Nat) : Nat := (byteOf .n8 (v 0 0) j - byteOf .n8 (v 1 0) j).natAbs
           ([BitVec.ofNat 32 ((v 2 0).toNat + p 0 + p 1 + p 2 + p 3)], 0))
       ∧ Does (.iaddc h sub d a b m) h (vDs 1 d ++ mDs m.toNat) (dstRun 1 d ++ srcRun 1 a ++ srcRun 1 b) [a, b] (some d) (fun x s =>
           let t (l : Nat) : Nat := (x.val s 0 a 0 l).toNat
             + (if sub then 2 ^ 32 - 1 - (x.val s 1 b 0 l).toNat else (x.val s 1 b 0 l).toNat)
             + (if (s.g.rdM s.tick m.toNat).getLsbD l then 1 else 0)
           x.putM false m.toNat (x.lanes.map fun l => (l, decide (2 ^ 32 ≤ t l)))
             (x.put false d (x.lanes.map fun l => (l, [BitVec.ofNat 32 (t l)])) s))
       ∧ Computes (.mov h ty d a) h false d ty.regs [(a, ty.regs)] (fun v => ((List.range ty.regs).map fun k => v 0 k, 0))
       ∧ Computes (.laneMovi h d false i) h false d 1 [] (fun _ => ([BitVec.ofInt 32 i.toInt], 0))
       ∧ Does (.laneMovi h (.vec rg) true i) h [] [(rg.toNat, 1)] [] none (fun x s =>
           x.putV false rg.toNat 0xFFFF0000 (x.lanes.map fun l => (l, [i.extractLsb' 0 16 ++ (0 : BitVec 16)])) s))

/-- R253–R255. The random generator and the 128-bit lane sum.
R237–R240. Words across lanes. -/
def Obligations.LaneRandomAndCrossing : Prop :=
  (∀ (h : LHdr) (d : Dst) (a b : Src),
     Computes (.rng h d a b) h false d 4 [(a, 4), (b, 2)]
       (fun v => (regsOf 4 (rngBlock (quadOf (v 0)) (pairOf (v 1))).toNat, 0))
     ∧ Does (.rngNext h d) h [] (dstRun 4 d) [] none (fun x s =>
         x.put false d (x.lanes.map fun l => (l, regsOf 4 (rngBlock (s.g.rdCtr l) s.g.srKey).toNat))
           (s.mapG fun g => x.lanes.foldl (fun g l => g.wrCtr l (g.rdCtr l + 1)) g))
     ∧ Does (.rngSeed h a b) h [] (srcRun 4 a ++ srcRun 2 b) [a, b] none (fun x s => s.mapG fun g =>
         let g1 := x.lanes.foldl (fun g l => g.wrCtr l (quadOf fun k => x.val s 0 a k l)) g
         match x.lanes with
         | [] => g1
         | l :: _ => { g1 with srKey := pairOf fun k => x.val s 1 b k l })
     ∧ Does (.rngCtr h d) h [] (dstRun 4 d) [] none (fun x s =>
         x.put false d (x.lanes.map fun l => (l, regsOf 4 (s.g.rdCtr l).toNat)) s)
     ∧ Does (.rngKey h d) h [] (dstRun 2 d) [] none (fun x s =>
         x.put false d (x.lanes.map fun l => (l, regsOf 2 s.g.srKey.toNat)) s)
     ∧ Computes (.add128l h d a b) h false d 4 [(a, 4), (b, 4)]
         (fun v => (regsOf 4 (((quadOf (v 0)).toNat + (quadOf (v 1)).toNat) % 2 ^ 128), 0))
     ∧ Does (.add128lCtr h a) h [] (srcRun 4 a) [a] none (fun x s =>
         s.mapG fun g => x.lanes.foldl (fun g l => g.wrCtr l (g.rdCtr l + quadOf fun k => x.val s 0 a k l)) g))
  ∧ (∀ (h : LHdr) (ty : NType) (d : Dst) (a b : Src) (n : BitVec 5) (dn excl : Bool) (vo : VoteOp) (fo : FoldOp),
       let take (i : Instr) (os : List Src) (from_ : LCtx → State → Nat → Nat) : Prop :=
         Does i h (vDs ty.regs d) (dstRun ty.regs d ++ srcRun ty.regs a ++ (os.drop 1).flatMap (srcRun 1)) os (some d) (fun x s =>
           x.put false d (x.lanes.map fun l => (l, (List.range ty.regs).map fun k => x.val s 0 a k (from_ x s l))) s)
       let vals (x : LCtx) (s : State) : List Word := x.lanes.map fun l => x.val s 0 a 0 l
       let regs := dstRun 1 d ++ srcRun 1 a
       take (.shfl h ty d a b) [a, b] (fun x s l => (x.val s 1 b 0 l).toNat % 32)
       ∧ take (.shflx h ty d a n) [a] (fun _ _ l => l ^^^ n.toNat)
       ∧ take (.shfld h ty dn d a n) [a] (fun _ _ l =>
           if dn then (if l + n.toNat ≤ 31 then l + n.toNat else l) else (if n.toNat ≤ l then l - n.toNat else l))
       ∧ take (.bcast h ty d a n) [a] (fun _ _ _ => n.toNat)
       ∧ Does (.vote h vo d a) h (vDs 1 d) regs [a] (some d) (fun x s =>
           let v : Word := match vo with
             | .any => if (vals x s).any (fun v => v ≠ 0) then 0xFFFFFFFF else 0
             | .all => if (vals x s).all (fun v => v ≠ 0) then 0xFFFFFFFF else 0
             | .ballot => maskOf (x.lanes.filter fun l => x.val s 0 a 0 l ≠ 0)
             | .uni => if (vals x s).all (fun v => v = (vals x s).headD v) then 0xFFFFFFFF else 0
           x.put false d (x.lanes.map fun l => (l, [v])) s)
       ∧ Does (.reduce h fo ty d a) h (vDs 1 d) regs [a] (some d) (fun x s =>
           let fs := foldsOf fo ty (vals x s)
           flagAll (fs.map fun r => r.2) (x.put false d (x.lanes.map fun l => (l, [(fs.getLastD (0, 0)).1])) s))
       ∧ Does (.prefixOp h fo excl ty d a) h (vDs 1 d) regs [a] (some d) (fun x s =>
           let fs := foldsOf fo ty (vals x s)
           let used := if excl then (foldUnit fo ty, (0 : Flags)) :: fs.dropLast else fs
           flagAll (used.map fun r => r.2) (x.put false d ((List.zip x.lanes used).map fun p => (p.1, [p.2.1])) s)))

/-- R38, R91, R196, R359, R184. A long-latency result of the issuing group returns and is written; one that waits for a channel
entry returns with the head once its turn has come, one that waits for a full line once the line is full; a delivered fault is taken in
user mode; a sleep ends. LONG_LATENCY_RETURN, HANDLER_ENTRY and SLEEP_EXPIRE complete here. -/
def Obligations.ResultsReturn : Prop :=
  ∀ (k : Nat) (s : State),
    (∀ p, s.g.pend[k]? = some p → p.returned = false → p.late = none →
      let with_ (v : Word) : Pend := { p with dests := p.dests.map fun d => { d with val := v } }
      (p.recv = none → p.test = none → exec (.longLatencyReturn k) s = .next (landResult s k p))
      ∧ (∀ c peek v, p.recv = some (c, peek) → chHead s c p.seq = some v →
          exec (.longLatencyReturn k) s = .next (landResult (if peek then s else chDrop s c 1) k (with_ v)))
      ∧ (∀ c peek, p.recv = some (c, peek) → chHead s c p.seq = none → exec (.longLatencyReturn k) s = .next s)
      ∧ (∀ o t x, p.recv = none → p.test = some (o, t, x) →
          (s.spFull o 4 = true → exec (.longLatencyReturn k) s =
            .next (landResult s k (with_ (if tstbHolds t (BitVec.ofNat 32 (s.spNat o 4)) x then 1 else 0))))
          ∧ (s.spFull o 4 = false → exec (.longLatencyReturn k) s = .next s)))
    ∧ (s.g.mode = .user → groupRuns s s.g = true → exec .handlerEntry s = .next (takeEngineFault s))
    ∧ (s.g.mode ≠ .user ∨ groupRuns s s.g = false → exec .handlerEntry s = .next s)
    ∧ (∀ t, s.g.park = .sleep → s.g.sleepEnd = some t → t ≤ s.now →
        exec .sleepExpire s = .next (s.mapG fun g => { g with park := .none }))
    ∧ (s.g.park ≠ .sleep → exec .sleepExpire s = .next s)

/-- R392, R397, R406, R409–R411. Dispatch, starvation, vsync, the age limit, the retry of a full log and the refill of a
first-touch pool, whose header an uncorrectable error has not taken. The ties of the dispatcher are log 16's choice; a display without
a period, whose vsync comes at the present instant, is log 25's.
DISPATCH_TEAM, STARVE_EXPIRE, VSYNC, ISSUE_AGE_LIMIT, LOG_RETRY and POOL_REFILL complete here. -/
def Obligations.Scheduling : Prop :=
  ∀ (vf sl qi ctx frame : Nat) (s : State),
    (let p := pollSoft (settleLeases s)
     (s.vf vf).present = true → (s.vf vf).frozen = false →
      let r := refreshWaits p vf
      let js := savedJobs r vf ++ freshJobs r vf
      let b := beginRounds (dropHolds r vf js) vf (waitingQueues js)
      exec (.dispatchTeam vf) s = .next (tryJobs b vf (orderBy (Job.place (serveOrder b (waitingQueues js))) js)).1)
    ∧ ((s.vf vf).frozen = true → exec (.dispatchTeam vf) s = .next (pollSoft (settleLeases s)))
    ∧ (let r := refreshWaits s (s.slice sl).vf
       let q := queueOf r sl qi
       ∀ t x, q.waitAt = some (t, x) → q.starve ≠ 0 → q.synth = 0 → t + 1000 * q.starve.toNat ≤ r.now →
        exec (.starveExpire sl qi) s =
          .next (setQueueOf r sl qi { q with synth := BitVec.ofNat 64 (t + 1000 * q.starve.toNat) }))
    ∧ ((s.vf vf).present = false → exec (.vsync vf) s = .next s)
    ∧ (let v := s.vf vf
       let due := if v.vperiod = 0 then s.now else v.vnext
       let s1 := if v.vperiod = 0 then s else s.setVf { v with vnext := due + v.vperiod }
       let synced (sl : Nat) (s : State) (e : Nat × QDesc) : State :=
         let q := queueOf s sl e.1
         let late := s.cards.any fun k => k.slice = sl && k.queue = e.1 && k.kind = 7 && !k.bad && k.phase ≠ .done
         let dl := if q.period = 0 then q.dl else BitVec.ofNat 64 (due + q.period.toNat)
         if q.vsync then setQueueOf s sl e.1 { q with misses := if late then q.misses + 1 else q.misses, dl := dl } else s
       (v.present = true → due ≤ s.now → exec (.vsync vf) s =
        .next ((s1.partSlices vf).foldl (fun (s : State) sl => (s.slice sl).queues.foldl (synced sl) s) s1))
       ∧ (s.now < due → exec (.vsync vf) s = .next s))
    ∧ (∀ x xs, orderBy (streamAge s) ((s.allGroups.flatMap (readyStreams s)).filter (starved s)) = x :: xs →
        exec .issueAgeLimit s = .next { s with agenda := issueActions x ++ s.agenda })
    ∧ (let p := payOwed (s.setVf { s.vf vf with logFull := false }) vf
       logRoom s vf = true → exec (.logRetry vf) s = .next { p with
        agenda := (p.logq.filter fun e => e.1 = vf).flatMap (fun e => ((e.2.stream? p).map issueActions).getD []) ++ p.agenda })
    ∧ (logRoom s vf = false → exec (.logRetry vf) s = .next s)
    ∧ (let pool : DWord := (s.ctx ctx).xb.pool.signExtend 64
       ∀ s1 s2 s3 k slot kt, (s.ctx ctx).xb.pool ≠ 0 → 4096 * (frame + 1) ≤ s.partBytes (ctx / 64) →
        poolKey s ctx pool .rd = (s1, some k) → s1.poisoned k 64 = false →
        let tail := s1.rdMemNat (k + 8) 8
        let p := s1.rdMemNat (k + 16) 1 % 32
        tail - s1.rdMemNat k 8 < 2 ^ p →
        poolKey s1 ctx (pool + BitVec.ofNat 64 (64 + 8 * (tail % 2 ^ p))) .wr = (s2, some slot) →
        poolKey s2 ctx (pool + 8) .wr = (s3, some kt) →
        let f := memKey (ctx / 64) (4096 * frame)
        let z := zeroRange s3 f (f + 4096)
        exec (.poolRefill ctx frame) s = .next ((z.memWriteNat slot 8 (4096 * frame)).memWriteNat kt 8 (tail + 1)))

/-- R7, R469, R400, R478. The mailbox registers, written and read: code and tag, operands, the acknowledgement of a completion, the event
tail, and go, which reads 0; a virtual function that writes a reserved one is frozen. A go waits while the device manager does not
answer; a code that the mailbox does not have completes with BADARG (log 28), and every code of a VF without a partition with NOTFREE.
XBLOCK writes the context's table window anew (log 35).
R433, R470, R388, R405, R447. The commands of a VF's mailbox, in their turn and with sound operands, have their effect
and complete with OK, QDESC with its own status. MAILBOX_REGISTER_WRITE, QDESC, QRESET, XBLOCK, SBLOCK, SHOOT, QUOTA, INTF, WAYS and
ZERO complete here. -/
def Obligations.MailboxCommands : Prop :=
  (∀ (fn i : Nat) (v : DWord) (s : State), fn ≤ 16 →
     let m := s.mbox fn
     let went := s.setMbox fn { m with
       busy := true, stage := 0, seq := s.tick, run := (m.code, m.tag, (List.range 7).map fun i => SMap.get 0 m.ops i) }
     exec (.mailboxRegisterWrite fn 0 v) s = .next (s.setMbox fn { m with code := v.extractLsb' 0 8, tag := v.extractLsb' 8 8 })
     ∧ (i < 7 → exec (.mailboxRegisterWrite fn (8 * (i + 1)) v) s = .next (s.setMbox fn { m with ops := SMap.set 0 m.ops i v }))
     ∧ exec (.mailboxRegisterWrite fn 64 v) s = .next (s.setMbox fn { m with done := m.done && !v.getLsbD 16 })
     ∧ exec (.mailboxRegisterWrite fn 200 v) s = .next (s.setMbox fn { m with etail := v.extractLsb' 0 3 })
     ∧ (v.getLsbD 0 = true → m.busy = false →
         (answers s m.code.toNat = false → exec (.mailboxRegisterWrite fn 128 v) s = .next went)
         ∧ (answers s m.code.toNat = true → (fn = 16 ∨ (s.vf fn).present = true) →
             (knownCode fn m.code.toNat = true → exec (.mailboxRegisterWrite fn 128 v) s = .next went)
             ∧ (knownCode fn m.code.toNat = false →
                 exec (.mailboxRegisterWrite fn 128 v) s = .next (finishCmd went fn stBadArg 0)))
         ∧ (answers s m.code.toNat = true → fn < 16 → (s.vf fn).present = false →
             exec (.mailboxRegisterWrite fn 128 v) s = .next (finishCmd went fn stNotFree 0)))
     ∧ mailboxRead s fn 128 = 0
     ∧ mailboxRead s fn 0 = BitVec.ofNat 64 (m.code.toNat + m.tag.toNat * 2 ^ 8)
     ∧ (i < 7 → mailboxRead s fn (8 * (i + 1)) = SMap.get 0 m.ops i)
     ∧ mailboxRead s fn 72 = m.result ∧ mailboxRead s fn 192 = m.ehead.setWidth 64 ∧ mailboxRead s fn 200 = m.etail.setWidth 64
     ∧ (∀ off, fn < 16 → (s.vf fn).present = true → mailboxReg off = false →
         exec (.mailboxRegisterWrite fn off v) s = .next (freezeVf s fn true))
     ∧ ((v.getLsbD 0 = false ∨ m.busy = true) → exec (.mailboxRegisterWrite fn 128 v) s = .next s))
  ∧ (∀ (fn : Nat) (s : State), fn < 16 → (s.vf fn).present = true →
       let o (i : Nat) := cmdOp s fn i
       let ctx := intfCtx fn (o 0)
       let known := o 0 < 64 ∧ inUse s ctx = true
       let sl := (s.vf fn).first + o 0
       let done (t : State) : Res := .next (finishCmd t fn stOk 0)
       let queue := o 0 < 2 ^ (s.vf fn).j ∧ o 1 < 128
       (∀ t st r, cmdTurn s fn 1 = true → queue →
         captureQueue s sl (o 1) (queueOf s sl (o 1)) ((queueOf s sl (o 1)).write (s.rdMemN (hostKey (o 2)) 64)) = .done t st r →
         exec (.qdesc fn) s = .next (finishCmd t fn st (BitVec.ofNat 64 r)))
       ∧ (cmdTurn s fn 2 = true → queue → exec (.qreset fn) s = done (resetQueue s sl (o 1)))
       ∧ (let x := xblockOf (s.rdMemN (hostKey (o 1)) 64)
          cmdTurn s fn 3 = true → known → x.root.toNat % 4096 = 0 → exec (.xblock fn) s = done (refreshWindow (s.setCtx { s.ctx ctx with xb := x }) ctx))
       ∧ (let b := sblockOf (s.rdMemN (hostKey (o 1)) 64)
          cmdTurn s fn 4 = true → known → b.sump.toNat % 2 ^ 21 = 0 → b.hscr.toNat % 4096 = 0 → b.nslot.toNat ≤ 1024 →
           exec (.sblock fn) s = done (s.setCtx { s.ctx ctx with sb := b }))
       ∧ (cmdTurn s fn 5 = true → known → exec (.shoot fn) s = done (shootDown s ctx (o 1 % 2 ^ 57) (o 2)))
       ∧ (cmdTurn s fn 7 = true → known →
           ((s.ctxs.filter fun c => c.id / 64 = fn && c.id ≠ ctx).map fun c => c.quota).sum + o 1 ≤ 65536 →
           exec (.quota fn) s = done (s.setCtx { s.ctx ctx with quota := o 1 }))
       ∧ (let t := { s with ctxs := s.ctxs.filter fun c => c.id ≠ ctx }
          cmdTurn s fn 8 = true → o 0 < 64 → o 1 < 2 ^ 20 → exec (.intf fn) s =
           done (if o 1 = 0 then t else t.setCtx { id := ctx, pasid := BitVec.ofNat 20 (o 1), frozen := (t.vf fn).frozen }))
       ∧ (cmdTurn s fn 0x15 = true → known → o 1 < 2 ^ (s.vf fn).j → o 2 ≠ 0 → o 2 < 2 ^ 16 → exec (.ways fn) s =
           done (s.setCtx { s.ctx ctx with ways := SMap.set (BitVec.allOnes 16) (s.ctx ctx).ways (o 1) (BitVec.ofNat 16 (o 2)) }))
       ∧ (cmdTurn s fn 0x1B = true → o 0 % 2 ^ 16 = 0 → o 1 % 2 ^ 16 = 0 → o 0 + o 1 ≤ s.partBytes fn →
           exec (.zero fn) s = done (zeroRange s (memKey fn (o 0)) (memKey fn (o 0) + o 1)))
       ∧ (cmdTurn s fn 2 = false → exec (.qreset fn) s = .next s))

/-- R429–R445, R457. The partition commands of the PF's mailbox, in their turn and with sound operands; PMAKE takes the cluster limit as
its operand 5 and refuses a VF that holds a partition with BADARG, and LEASE answers its record's index (log 27).
R438, R446, R448. A zeroed slice that no checkpoint still reads is free; a bandwidth window, which ends at multiples of 100 microseconds,
counts where it is met, as one with no judged context is (log 39), and lowers the throttle where it is missed; a period renews the allowance; a snoop-filter error drops the host's lines. DIRTYLOG, PMAKE, PFREE, FUSE, SPLIT,
ENGINES, BWCLASS, LEASE, REVOKE, ZEROING_DONE, BW_WINDOW_END, THROTTLE_PERIOD and SNOOP_PARITY_ERROR complete here. -/
def Obligations.Partitions : Prop :=
  (∀ (s : State),
     let o (i : Nat) := cmdOp s 16 i
     let v := s.vf (o 0)
     let done (t : State) (st r : Nat) : Res := .next (finishCmd t 16 st (BitVec.ofNat 64 r))
     let slices := (List.range (2 ^ o 2)).map fun i => o 1 + i
     let added := slices.filter fun sl => !(v.first ≤ sl && sl < v.first + 2 ^ v.j)
     let ends (r : CmdEnd) (x : Res) : Prop := (∀ t st n, r = .done t st n → x = done t st n) ∧ ∀ t, r = .more t → x = .next t
     (cmdTurn s 16 0x06 = true → o 0 < 16 → v.present = true → o 1 % 64 = 0 →
       exec (.dirtylog 16) s = done (s.setVf { v with logHdr := o 1, logFull := false }) 0 0)
     ∧ (cmdTurn s 16 0x10 = true → o 0 < 16 → v.present = false → blockOk (o 1) (o 2) = true → o 3 < 16 → o 4 < 4 →
         slices.all (sliceFree s) = true → enginesTaken s (o 0) (BitVec.ofNat 4 (o 3)) (BitVec.ofNat 2 (o 4)) = false →
         let t := slices.foldl (fun (s : State) sl => selectFirst (s.setSlice { s.slice sl with state := 1, vf := o 0, heap := [] }) sl (o 0)) s
         let made : Vf :=
           { id := o 0, present := true, first := o 1, j := o 2, coll := BitVec.ofNat 4 (o 3), comp := BitVec.ofNat 2 (o 4),
             chunks := [(0, slices)], ncluMax := o 5 }
         exec (.pmake 16) s = done (t.setVf made) 0 0)
     ∧ (cmdTurn s 16 0x10 = true → v.present = true → exec (.pmake 16) s = done s 1 0)
     ∧ (cmdTurn s 16 0x11 = true → (s.mbox 16).stage ≠ 1 → o 0 < 16 → v.present = true →
         let t := freePartition s (o 0)
         ((t.slices.any fun c => c.state = 4 && c.vf = o 0) = true → exec (.pfree 16) s = .next (setStage t 16 1))
         ∧ ((t.slices.any fun c => c.state = 4 && c.vf = o 0) = false → exec (.pfree 16) s = done t 0 0))
     ∧ (cmdTurn s 16 0x11 = true → (s.mbox 16).stage = 1 → (s.slices.any fun c => c.state = 4 && c.vf = o 0) = false →
         exec (.pfree 16) s = done s 0 0)
     ∧ (cmdTurn s 16 0x12 = true → o 0 < 16 → v.present = true → blockOk (o 1) (o 2) = true → v.j < o 2 → o 1 ≤ v.first →
         v.first + 2 ^ v.j ≤ o 1 + 2 ^ o 2 → added.all (sliceFree s) = true → vfCkpt s (o 0) = false →
         let t := added.foldl (fun (s : State) sl => selectFirst (s.setSlice { s.slice sl with state := 1, vf := o 0 }) sl (o 0)) s
         let u := t.setVf { t.vf (o 0) with chunks := (t.vf (o 0)).chunks ++ [(s.partBytes (o 0) / 2 ^ 21, added)] }
         exec (.fuse 16) s = done (renumber u (o 0) (o 1) (o 2) (v.first - o 1) (2 ^ o 2)) 0 0)
     ∧ (let gone := departing s (o 0) (o 1) (o 2)
        cmdTurn s 16 0x13 = true →
         ((s.mbox 16).stage = 0 → o 0 < 16 → v.present = true → blockOk (o 1) (o 2) = true → o 2 < v.j → v.first ≤ o 1 →
           o 1 + 2 ^ o 2 ≤ v.first + 2 ^ v.j → splitCheck s (o 0) (o 1) (o 2) gone = none →
           let t := gone.foldl (fun (s : State) sl => s.setSlice { s.slice sl with draining := true }) s
           exec (.split 16) s = .next (setStage (t.setVf { t.vf (o 0) with resize := true }) 16 1))
         ∧ ((s.mbox 16).stage = 1 → ends (drainSplit s 16 (o 0) (o 1) (o 2)) (exec (.split 16) s))
         ∧ ((s.mbox 16).stage = 2 → (gone.any fun sl => (s.slice sl).state = 4) = false →
           exec (.split 16) s = done (endSplit s (o 0) (o 1) (o 2)) 0 0))
     ∧ (let coll := BitVec.ofNat 4 (o 1)
        let comp := BitVec.ofNat 2 (o 2)
        cmdTurn s 16 0x14 = true → o 0 < 16 → v.present = true → o 1 < 16 → o 2 < 4 → enginesTaken s (o 0) coll comp = false →
         (∀ k ∈ s.cards, ∀ e, k.engine = some e → e ∈ enginesOf v 4 ++ enginesOf v 5 →
           e ∈ enginesOf { v with coll := coll, comp := comp } 4 ++ enginesOf { v with coll := coll, comp := comp } 5) → exec (.engines 16) s = done (s.setVf { v with coll := coll, comp := comp }) 0 0)
     ∧ (let ctx := intfCtx (o 0) (o 1)
        let target := o 2 / 2 ^ 16 % 2 ^ 16
        cmdTurn s 16 0x16 = true → o 0 < 16 → v.present = true → o 1 < 64 → inUse s ctx = true →
         ((o 2).testBit 0 = false ∨ 100 ≤ target) → exec (.bwclass 16) s = done (s.setCtx { s.ctx ctx with
           crit := if (o 2).testBit 0 then (List.range (2 ^ v.j)).map fun i => (i, target) else [] }) 0 0)
     ∧ (cmdTurn s 16 0x17 = true →
         (let l : Lease := { lslice := o 0, lpos := o 1, vf := o 2, intf := o 3, pslice := o 4, limit := BitVec.ofNat 64 (o 5) }
          let rs := leaseRecords s
          let x := s.vf l.vf
          ∀ i, (s.mbox 16).stage = 0 → l.lslice < 16 → l.lpos < 16 → l.vf < 16 → l.intf < 64 → x.present = true → inUse s l.ctx = true →
            l.pslice < 2 ^ x.j → ¬(x.first ≤ l.lslice ∧ l.lslice < x.first + 2 ^ x.j) → (s.clusterMask l.lslice).getLsbD l.lpos = true →
            (rs.any fun r => r.state ≠ 0 && r.cluster = l.cluster) = false → vfCkpt s l.vf = false →
            (rs.any fun r => r.state ≠ 0 && r.ctx = l.ctx && r.pslice = l.pslice) = false → rs.findIdx? (fun r => r.state = 0) = some i →
            exec (.lease 16) s = .next (setStage { s with leases := rs.set i { l with state := 1 } } 16 (i + 1)))
         ∧ (∀ i, (s.mbox 16).stage = i + 1 → ends (goLease s i) (exec (.lease 16) s))
         ∧ (∀ i l, (s.mbox 16).stage = i + 1 → s.leases[i]? = some l → l.state = 1 → lenderTeams s l.cluster = [] →
             let u := saveLender s l.cluster
             let w := u.setCluster { u.cluster l.cluster with roofOwner := some l.ctx }
             exec (.lease 16) s = done (mapLease w i fun l => { l with state := 2, start := BitVec.ofNat 64 u.now }) 0 i))
     ∧ (∀ l, cmdTurn s 16 0x18 = true → s.leases[o 0]? = some l → l.state ≠ 0 →
         let t := settleLease (mapLease s (o 0) Lease.revoked) (o 0)
         (((t.leases[o 0]?).map fun l => l.state) = some 0 → exec (.revoke 16) s = done t 0 0)
         ∧ (((t.leases[o 0]?).map fun l => l.state) ≠ some 0 → exec (.revoke 16) s = .next (setStage t 16 1)))
     ∧ (cmdTurn s 16 0x17 = false → exec (.lease 16) s = .next s))
  ∧ (∀ (sl set : Nat) (p99 : List (Nat × Nat × Nat)) (s : State),
       let c := s.slice sl
       let held := s.ckpts.any fun k => k.ctx / 64 = c.vf
       (c.state = 4 → held = false → exec (.zeroingDone sl) s = .next (s.setSlice { c with state := 0, vf := 0, draining := false }))
       ∧ ((c.state ≠ 4 ∨ held = true) → exec (.zeroingDone sl) s = .next s)
       ∧ (s.now % 100000 ≠ 0 → exec (.bwWindowEnd sl p99) s = .next s)
       ∧ (s.now % 100000 = 0 → p99.all (fun e => !missed s sl e) = true → ∃ t, exec (.bwWindowEnd sl p99) s = .next t
           ∧ (t.slice sl).goodWin = min 4 (c.goodWin + 1))
       ∧ (s.now % 100000 = 0 → p99.any (missed s sl) = true → 2 < c.throttle → exec (.bwWindowEnd sl p99) s =
           .next (s.setSlice { c with goodWin := 0, throttle := c.throttle - 1 }))
       ∧ exec (.throttlePeriod sl) s =
           .next (s.setSlice { c with allowed := c.throttle * (750 * State.popCount (s.channelMask sl)) / 16 })
       ∧ (∃ t, exec (.snoopParityError set) s = .next t ∧ t.snoopErr = s.snoopErr + 1 ∧ t.snoopSet = set))

/-- R453–R458, R461. CKPT asks the context to stop, cuts once it has, and copies its frames while it runs on; the stream's end
writes and commits the image, or abandons it (that its bytes reach host memory only there is log 29's choice). RESTORE rebuilds a context from the image it picks.
CKPT, RESTORE, CKPT_FRAME_COPIED and CKPT_STREAM_END complete here. -/
def Obligations.Checkpoints : Prop :=
  ∀ (fn ctx : Nat) (s : State) (c : Ckpt),
    let o (i : Nat) := cmdOp s fn i
    let x := intfCtx fn (o 0)
    (fn < 16 → (s.vf fn).present = true → cmdTurn s fn 0x20 = true → (s.mbox fn).stage = 0 → o 0 < 64 → inUse s x = true →
      o 1 % 4096 = 0 → o 2 % 4096 = 0 → o 3 % 4096 = 0 → 8192 ≤ o 3 → (s.vf fn).resize = false →
      (s.leases.any fun l => l.state = 1 && l.vf = fn) = false → (s.ckpts.any fun c => c.ctx = x) = false →
      exec (.ckpt fn) s = .next (setStage (s.setCtx { s.ctx x with quiesce := true }) fn 1))
    ∧ (∀ f, (s.ckpts.find? fun c => c.ctx = ctx) = some c → nextFrame s c = some f →
        let snaps := if c.snaps.any fun p => p.frame = f then c.snaps else
          { frame := f, bytes := s.rdMemN f.1 f.2, bad := s.poisoned f.1 f.2 } :: c.snaps
        let again := (frameWaiters s f).flatMap fun w => ((w.stream? s).map issueActions).getD []
        let copied (d : Ckpt) : Ckpt := { d with uncopied := d.uncopied.filter (· ≠ f), snaps := snaps }
        exec (.ckptFrameCopied ctx) s = .next { s with
          agenda := again ++ s.agenda, ckpts := s.ckpts.map fun d => if d.ctx = ctx then copied d else d })
    ∧ ((s.ckpts.find? fun c => c.ctx = ctx) = some c → exec (.ckptStreamEnd ctx false) s =
        .next (finishCmd { s with ckpts := s.ckpts.filter fun d => d.ctx ≠ ctx } c.fn stAbort 0))
    ∧ ((s.ckpts.find? fun c => c.ctx = ctx) = some c → c.uncopied ≠ [] → exec (.ckptStreamEnd ctx true) s = .next s)
    ∧ (let over_ := { s with ckpts := s.ckpts.filter fun d => d.ctx ≠ ctx }
       let recs := c.placed.1
       let t := recs.foldl (fun (s : State) r => if r.len ≠ 0 then s.memWrite (hostKey (c.slot + r.off)) r.data else s) over_
       let t := (t.memWrite (hostKey (c.slot + 0x1000)) (recs.flatMap recBytes)).memWrite (hostKey c.slot) (commitBytes c recs)
       (s.ckpts.find? fun c => c.ctx = ctx) = some c → c.uncopied = [] →
       (c.cap < c.placed.2 → exec (.ckptStreamEnd ctx true) s = .next (finishCmd over_ c.fn stNoRoom 0))
       ∧ (c.placed.2 ≤ c.cap → exec (.ckptStreamEnd ctx true) s =
        .next (finishCmd { t with manifests := c.keep :: t.manifests.filter fun m => m.host ≠ c.slot } c.fn stOk c.gen)))
    ∧ (∀ slot, fn < 16 → (s.vf fn).present = true → cmdTurn s fn 0x21 = true → o 0 < 64 → inUse s x = true → o 1 % 4096 = 0 →
        o 2 % 4096 = 0 → o 3 % 2 ^ 21 = 0 → o 4 % 2 ^ 21 = 0 → restoreBusy s x = false → pickSlot s (o 1) (o 2) = some slot →
        let rs := readRecs s slot
        let b := rebuild s slot (o 3) (2 ^ (s.vf fn).j) (savedBlock ((ofKind rs 4).flatMap (recData s slot))) rs
        (ofKind rs 8).length ≤ (s.ctx x).sb.nslot.toNat → (ofKind rs 9).all (fun r => r.rkey.toNat < (s.ctx x).sb.nclu.toNat) = true →
        (s.ctx x).sb.sump ≠ 0 → b.stop ≤ o 3 + o 4 → o 3 + o 4 ≤ s.partBytes fn →
        ((List.range (2 ^ (s.vf fn).j)).any fun i => (s.ctx x).quota < heapRestored s x rs (2 ^ (s.vf fn).j) i) = false →
        exec (.restore fn) s = .next (finishCmd (restoreCtx s x slot (o 3)) fn stOk (BitVec.ofNat 64 (commitGen s slot))))

/-- R400, R467, R468, R471–R474, R134, R149. Requests from outside: served at the point of coherence, or refused; lost and
found peers; a lost port; a store performed, 16 bytes at a time, and an invalidation acknowledged. The event of a lost peer names the own
domain and the peer, and a store performed covers 16 bytes (log 31); a request from the network needs a queue pair of a virtual function
that has a collective engine, and a SEND is taken without an effect that the spec states (log 26).
Each of these events completes here. -/
def Obligations.OutsideRequests : Prop :=
  ∀ (vf addr peer port core key p : Nat) (req : MemReq) (s : State),
    (reqAtomic req = false → exec (.hostMemAccess 16 none addr req) s = .next (serve s (hostKey addr) req))
    ∧ (reqAtomic req = false → vf < 16 → (s.ctxs.any fun c => c.id / 64 = vf && c.pasid.toNat = p) = true →
        exec (.hostMemAccess vf (some p) addr req) s = .next (servePart s vf addr req))
    ∧ (reqAtomic req = false → vf < 16 → (s.ctxs.any fun c => c.id / 64 = vf && c.pasid.toNat = p) = false → (s.vf vf).present = true →
        exec (.hostMemAccess vf (some p) addr req) s = .next (refuse (freezeVf s vf true)))
    ∧ (reqAtomic req = true → exec (.hostAtomic vf addr req) s = .next (servePart s vf addr req))
    ∧ exec .hostUnsupportedRequest s = .next (refuse s)
    ∧ exec (.peerAccess vf addr req) s = .next (servePart s vf addr req)
    ∧ (∀ owner, pairVf s vf = some owner →
        (State.popCount (s.vf owner).coll ≠ 0 → (∀ x, req ≠ .exch x) → (∀ x, req ≠ .send x) →
          exec (.roceReceive vf addr req) s = .next (servePart s owner addr req))
        ∧ (∀ x, State.popCount (s.vf owner).coll ≠ 0 → req = .send x → exec (.roceReceive vf addr req) s =
            .next { s with linkResp := [], linkOk := true })
        ∧ (∀ x, req = .exch x → exec (.roceReceive vf addr req) s = .next (refuse s))
        ∧ (State.popCount (s.vf owner).coll = 0 → exec (.roceReceive vf addr req) s = .next (refuse s)))
    ∧ (pairVf s vf = none → exec (.roceReceive vf addr req) s = .next (refuse s))
    ∧ (let t := { s with lost := peer :: s.lost }
       let told := 16 :: ((t.vfs.filter fun v => v.present && (ctxsOf t v.id).any fun c => namesPeer t c peer).map fun v => v.id)
       s.lost.contains peer = false → exec (.peerAckTimeout peer) s = .next (told.foldl (fun (s : State) fn =>
        s.mailEvent fn 0x04 (fn % 16) (BitVec.ofNat 64 s.peerId.1) (BitVec.ofNat 64 peer)) t))
    ∧ (s.lost.contains peer = true → exec (.peerAckTimeout peer) s = .next s)
    ∧ exec (.peerProbe peer true) s = .next { s with lost := s.lost.filter (· ≠ peer) }
    ∧ exec (.peerProbe peer false) s = .next s
    ∧ exec (.worenPortLoss port) s = .next { s with ports := s.ports &&& ~~~(1#16 <<< port) }
    ∧ exec (.storePerformed core key) s = .next (s.performDirty core fun k => k / 16 = key / 16)
    ∧ exec (.duplicateAcknowledge core key) s = .next (s.ackDup core (key / 128))

/-- R359, R449, R452, R475–R479. Firmware: an image is staged and its signature judged, an update starts and ends with its
heartbeat or its rollback, a controller that stops is reset; power goes and comes; the clock is capped; a report is written;
the attestation answers. Image headers, SPDM payloads and the slot from which a stopped manager starts are as log 30 has them.
Each of these commands, events and requests completes here. -/
def Obligations.FirmwareAndPower : Prop :=
  ∀ (sl code mhz idx : Nat) (s : State),
    let o (i : Nat) := cmdOp s 16 i
    let f := s.fw sl
    let m := s.fw 16
    let done (t : State) (st : Nat) : Res := .next (finishCmd t 16 st 0)
    (cmdTurn s 16 0x30 = true → o 0 < 17 → o 1 < 2 → (s.fw (o 0)).active ≠ o 1 → (s.fw (o 0)).update ≠ 1 →
      let img := s.rdMemN (hostKey (o 2)) (o 3)
      exec (.fwstage 16) s = done (s.setFw (o 0) ((s.fw (o 0)).put (o 1) img (Config.imageValid img)))
        (if Config.imageValid img then stOk else stBadSig))
    ∧ (let ends (r : CmdEnd) : Prop := (∀ t st n, r = .done t st n → exec (.fwupdate 16) s = .next (finishCmd t 16 st (BitVec.ofNat 64 n)))
         ∧ ∀ t, r = .more t → exec (.fwupdate 16) s = .next t
       cmdTurn s 16 0x31 = true →
        ((s.mbox 16).stage = 0 → o 0 < 2 ^ 16 → ends (nextUpdate s 16 (o 0) 0))
        ∧ ((s.mbox 16).stage = 0 → o 0 = 0 → exec (.fwupdate 16) s = done s stOk)
        ∧ (∀ i, (s.mbox 16).stage = i + 1 → (s.fw i).update = 1 → exec (.fwupdate 16) s = .next s)
        ∧ (∀ i, (s.mbox 16).stage = i + 1 → (s.fw i).update = 3 →
            exec (.fwupdate 16) s = done (s.setFw i { s.fw i with update := 0 }) stRollback)
        ∧ (∀ i, (s.mbox 16).stage = i + 1 → (s.fw i).update ≠ 1 → (s.fw i).update ≠ 3 →
            ends (nextUpdate (s.setFw i { s.fw i with update := 0 }) 16 (o 0) (i + 1))))
    ∧ (f.update = 1 → s.now ≤ f.since + heartbeatLimit →
        exec (.fwHeartbeat sl) s = .next (s.setFw sl { f with active := 1 - f.active, update := 2 }))
    ∧ (f.since + heartbeatLimit < s.now → exec (.fwHeartbeat sl) s = .next s)
    ∧ (s.now < f.since + heartbeatLimit → exec (.fwHeartbeatTimeout sl) s = .next s)
    ∧ (f.update = 1 → f.since + heartbeatLimit ≤ s.now → exec (.fwHeartbeatTimeout sl) s = .next
        (restartSlice ((s.setFw sl { f.extend (f.img f.active) with update := 3 }).mailEvent 16 0x03 0 (BitVec.ofNat 64 sl) 0) sl))
    ∧ (f.update ≠ 1 → exec (.fwHeartbeat sl) s = .next s ∧ exec (.fwHeartbeatTimeout sl) s = .next s)
    ∧ heartbeatLimit = 50000000
    ∧ (cmdTurn s 16 0x19 = true → o 0 < 16 → exec (.sreset 16) s = done (resetSliceFw s (o 0) 0x19) 0)
    ∧ exec (.sliceControllerFault sl code) s = .next (resetSliceFw s sl (BitVec.ofNat 8 code))
    ∧ (let t := restartCore s .device 16 fun _ => true
       (∀ i, m.bootSlot = some i → exec .deviceManagerFault s =
         .next { t.setFw 16 { m.extend (m.img i) with active := i } with mgrDown := false, devState := if s.devState = 1 then 1 else 2 })
       ∧ (m.bootSlot = none → exec .deviceManagerFault s = .next { t.setFw 16 m with mgrDown := true, devState := 1 }))
    ∧ exec .powerLoss s = .next (powerDown s)
    ∧ (s.powered = false →
        let p : State := { powerDown s with powered := true }
        ((p.fw 16).bootSlot.isSome = true → exec .powerOn s =
          .next { (List.range 17).foldl (fun (s : State) n => s.setFw n (s.fw n).boot) p with devState := 1 })
        ∧ ((p.fw 16).bootSlot = none → exec .powerOn s = .next { p with devState := 1, mgrDown := true }))
    ∧ (s.powered = true → exec .powerOn s = .next s)
    ∧ exec (.powerCapAdjust mhz) s = .next { s with mhz := max 1 (min 1200 mhz) }
    ∧ (let t := { s with reports := s.reports + 1 }
       cmdTurn s 16 0x1A = true → o 0 % 4096 = 0 →
        exec (.report 16) s = done (t.memWrite (hostKey (o 0)) (piecesBytes 4096 (reportPieces t))) 0)
    ∧ (let answers (n : Nat) : Res := .next { s with spdm := Config.spdmResponse s.tick n }
       exec .getVersion s = answers 0x84 ∧ exec .getCapabilities s = answers 0xE1 ∧ exec .negotiateAlgorithms s = answers 0xE3
        ∧ exec .getDigests s = answers 0x81 ∧ exec .getCertificate s = answers 0x82 ∧ exec .challenge s = answers 0x83
        ∧ exec .keyExchange s = answers 0xE4 ∧ exec .finish s = answers 0xE5)
    ∧ exec (.getMeasurements 1) s = .next { s with spdm := m.measure }
    ∧ (2 ≤ idx → idx ≤ 17 → exec (.getMeasurements idx) s = .next { s with spdm := (s.fw (idx - 2)).measure })

/-- R48, R65, R158–R162, R194–R198, R202–R208, R258. Where the words of a group complete, under conditions on the state and the
operands alone: the word has its effect, the group keeps its mode, is not stopped, and goes on at the next word (YIELDC at its
continuation, TRAP in its handler; EXIT and EXITTO end the group). EXIT, EXITTO, TRAP, TSTB, LDS, STS, LDC, ATOMS, FENCE, BARI,
BARX, BARA, WAITB, YIELD, YIELDC, TEAMBAR, GRIDBAR, LWAIT, TBIND, TDROP, OBJLD, EMPTY, HEAPADD, HEAPTAKE, MFMT, PCNT.rd, PCNT.wr,
PCNT.sel, APXKILL and GROUP_END complete here. -/
def Obligations.GroupWordsComplete : Prop :=
  ∀ (w v : Bool) (a b c : SReg) (i : BitVec 13) (k : BitVec 12) (n : BitVec 5) (q : QReg) (j : BitVec 4) (ck : TestKind) (op : AtomOp)
    (sc : Scope) (fk : FenceKind) (s : State),
    let A := s.g.rdS s.tick a
    let B := s.g.rdS s.tick b
    let C := s.g.rdS s.tick c
    let Pa := s.g.rdP s.tick a
    let goes (x : Instr) (u : State) : Prop :=
      ∃ t, exec x s = .next t ∧ t = u.endC w 4 ∧ t.g.pc = u.g.pc + 4 ∧ t.g.mode = u.g.mode ∧ t.g.frozen = u.g.frozen ∧ t.g.s = u.g.s
    let word (bs : List Byte) : Word := BitVec.ofNat 32 (leValue bs)
    let o := A.toNat
    let x := s.bar o
    let sound : Prop := o % 16 = 0 ∧ o + 16 ≤ s.t.wsize
    let flip (y : Bar) : State := if y.phase != x.phase then noteFlip s s.g.ctx s.t.uid o else s
    let last : State := (s.mapG fun g => { g with barCnt := g.barCnt + 1, arrived := true }).parkC .teambar
    let lastGrid : State := ((s.fence .rel .prt).mapG fun g => { g with gridCnt := g.gridCnt + 1, arrived := true }).parkC .gridbar
    let controller : Prop := s.g.mode = .slice ∨ s.g.mode = .device
    -- memory: R130, R196–R198
    (∀ s1 key dup, s.xlate (Pa + BitVec.ofInt 64 i.toInt) 4 .rd = (s1, .ok key dup) → s1.poisonedHere key 4 = false →
        let r := s1.loadBytes key 4 .plain .grp dup
        goes (.lds w b a i) (r.1.resultC [(r.1.g.sKey b.toNat, word r.2)]))
    ∧ (∀ s1 key dup, s.xlate (Pa + BitVec.ofInt 64 i.toInt) 4 .wr = (s1, .ok key dup) →
        goes (.sts w b a i) (s1.storeBytes key (leBytes 4 B.toNat) .grp dup))
    ∧ (let off : Int := (A.toNat : Int) + i.toInt
       let bank := constBase s.t + BitVec.ofInt 64 off
       ∀ s1 key dup, bank.toNat % 4 = 0 → 0 ≤ off → off + 4 ≤ (constSize s.t : Int) → s.xlate bank 4 .rd = (s1, .ok key dup) →
         s1.poisoned key 4 = false → goes (.ldc w b a i) (s1.resultC [(s1.g.sKey b.toNat, BitVec.ofNat 32 (s1.rdMemNat key 4))]))
    ∧ (∀ s1 key dup, s.xlate Pa 4 .rd = (s1, .ok key dup) → s1.poisonedHere key 4 = false →
        let r := s1.loadBytes key 4 .plain .grp dup
        goes (.tstb w a b q false ck) (r.1.resultC [(r.1.g.qKey q.toNat, if tstbHolds ck (word r.2) B then 1 else 0)]))
    ∧ (o % 4 = 0 → o + 4 ≤ s.t.wsize → s.spFull o 4 = true →
        goes (.tstb w a b q true ck) (s.resultC [(s.g.qKey q.toNat, if tstbHolds ck (word (s.spBytes o 4)) B then 1 else 0)]))
    ∧ (∀ s1 key dup, s.g.loadsDue = false → s.xlate (s.g.rdP s.tick b) 8 .at = (s1, .ok key dup) →
        (op.carried = true ∨ (s1.peerOf key).isSome = false) → s1.poisonedHere key 8 = false →
        let r := s1.atomicBytes key 8 .ar sc dup fun y =>
          (atomsNew op (BitVec.ofNat 64 y) (s.g.rdP s.tick c) (s.g.rdP s.tick (c + 2))).toNat
        goes (.atoms w a b c op sc) (r.1.resultC (pairDests r.1.g a (BitVec.ofNat 64 r.2))))
    -- fences, barriers and yields: R157–R162, R202–R205
    ∧ (s.g.loadsDue = false → goes (.fence w sc fk) (s.fence fk sc))
    ∧ (sound → B.toNat ≤ 65535 → goes (.bari w a b) (s.setBar o (barInit B.toNat)))
    ∧ (∀ y, sound → C.toNat ≤ 65535 → barUpdate x B.toNat 0 C.toNat = some y → goes (.barx w a b c) ((flip y).setBar o y))
    ∧ (∀ y, s.g.loadsDue = false → sound → 1 ≤ B.toNat → B.toNat ≤ 65535 → barUpdate x 0 B.toNat 0 = some y → goes (.bara w a b) ((flip y).setBar o y))
    ∧ (sound → s.g.barLost = false → barTest x (B.getLsbD 0) = some true → goes (.waitb w a b) (s.l1Invalidate s.l1Id))
    ∧ (s.t.softReq = none → ∃ t, exec (.yield w) s = .next t ∧ t.g.pc = s.g.pc + 4 ∧ t.g.mode = s.g.mode ∧ t.g.s = s.g.s)
    ∧ (sound → s.g.mode ≠ .handler → C.extractLsb' 0 2 = 0 → s.g.drained s.g.cStrm = true → s.g.barLost = false →
        barTest x (B.getLsbD 0) = some true → ∃ t, exec (.yieldc w a b c) s = .next t ∧ t.g.pc = s.g.pc.extractLsb' 32 32 ++ C
          ∧ t.g.park = .none ∧ t.g.mode = s.g.mode ∧ t.g.frozen = s.g.frozen ∧ t.g.s = s.g.s)
    ∧ (s.g.mode ≠ .handler → s.g.arrived = true → allReached s.teamGroups (·.barCnt) s.g.barCnt = true → goes (.teambar w) s)
    ∧ (s.g.mode ≠ .handler → s.g.arrived = false → s.g.curQueue = [] → s.g.loadsDue = false → allReached last.teamGroups (·.barCnt) last.g.barCnt = true →
        goes (.teambar w) last)
    ∧ (s.g.mode ≠ .handler → s.t.cores = true → s.g.arrived = true → allReached (gridGroups s) (·.gridCnt) s.g.gridCnt = true →
        goes (.gridbar w) (s.fence .acq .prt))
    ∧ (s.g.mode ≠ .handler → s.t.cores = true → s.g.arrived = false → s.g.curQueue = [] → s.g.loadsDue = false →
        allReached (gridGroups lastGrid) (·.gridCnt) lastGrid.g.gridCnt = true → goes (.gridbar w) (lastGrid.fence .acq .prt))
    ∧ (s.g.curQueue = [] → goes (.lwait w) s)
    -- translation registers, lines and the heap: R65, R169, R206–R208
    ∧ (let u := if canonical Pa then s.countEvent s.g.ctx 0x0D 1 else s
       ∀ r, B.toNat ∈ [1, 2, 3] → bindBase u u.g.ctx Pa (B.extractLsb' 0 2) = .ok r →
        goes (.tbind w j a b) (u.mapG fun g => g.wrT j.toNat r))
    ∧ goes (.tdrop w j) (s.mapG fun g => g.wrT j.toNat {})
    ∧ (let u := s.objAcquire
       ∀ r, A.toNat < 2 ^ 16 → bindObj u u.g.ctx A.toNat = .ok r →
        goes (.objld w j a) ((u.countEvent u.g.ctx 0x0D 1).mapG fun g => g.wrT j.toNat r))
    ∧ (o + B.toNat ≤ s.t.wsize → B.toNat ≠ 0 → goes (.empty w a b) (s.emptyLines
        ((List.range (s.t.wsize / 128)).filter fun l => o / 128 ≤ l && l ≤ (o + B.toNat - 1) / 128)))
    ∧ (let h := s.heapServe
       let n := ((h.slice h.sliceId).heap.filter fun e => e.ctx = h.g.ctx).length
       s.g.loadsDue = false → (h.g.park ≠ .heapadd ∨ h.g.heapW.got = none) → n < (h.ctx h.g.ctx).quota →
        goes (.heapadd w a b v q) ((heapPut (h.scopeWriteBack .slc) h.sliceId h.g.ctx (h.g.rdS h.tick a, h.g.rdS h.tick b)).heapServe.mapG
          fun g => g.wrQ q true))
    ∧ (let h := s.heapServe
       ∀ e, heapPick h h.sliceId h.g.ctx = some e →
        ∃ t, exec (.heaptake w a b v q) s = .next t ∧ t.g.pc = s.g.pc + 4 ∧ t.g.mode = s.g.mode)
    -- the format block, the counters and the Sinter: R258, R329, R375
    ∧ (let run := s.g.rdRun s.tick a 4
       let f : QWord := run.getD 3 0 ++ run.getD 2 0 ++ run.getD 1 0 ++ run.getD 0 0
       s.g.mode ≠ .handler → a.toNat + 4 ≤ 64 → fmtOk f = true → goes (.mfmt w a) (s.mapG fun g => { g with fmt := f }))
    ∧ ((s.g.mode ≠ .user ∨ s.gctx.ucnt = true) → countsFree s n.toNat = false →
        goes (.pcntRd w a n) (s.mapG fun g => g.wrP a (SMap.get 0 s.gctx.cnt n.toNat)))
    ∧ (controller → goes (.pcntWr w a n) (s.setCtx { s.gctx with cnt := SMap.set 0 s.gctx.cnt n.toNat Pa }))
    ∧ (controller → A.toNat ≤ 0x15 →
        goes (.pcntSel w a n) (s.setCtx { s.gctx with sel := SMap.set 0 s.gctx.sel n.toNat (A.extractLsb' 0 8) }))
    ∧ (illegalHere s = false → A.toNat < 2 ^ 9 → findSlot (s.cluster s.clusterId) s.g.ctx (BitVec.ofNat 8 A.toNat) = none →
        goes (.apxkill w a) (s.mapG fun g => { g with apxRegion := some (BitVec.ofNat 8 A.toNat) }))
    -- the end of a group, and the trap: R48, R194, R195
    ∧ (s.g.mode ≠ .handler → mayEnd s.g = true → ∃ t, exec (.exit w) s = .next t ∧ t = endGroup s)
    ∧ (s.g.mode ≠ .handler → s.t.chain = true → Pa.toNat % 64 = 0 → mayEnd s.g = true →
        ∃ t, exec (.exitto w a b) s = .next t ∧ t = endGroup (s.mapG fun g => { g with exitto := some (Pa, B) }))
    ∧ (s.g.exiting = true → s.g.park = .exit → mayEnd s.g = true → groupRuns s s.g = true → s.g.faults = [] →
        ∃ t, exec .groupEnd s = .next t ∧ t = endGroup s)
    ∧ (s.g.mode = .user → s.gctx.hvec.getLsbD 0 = true → s.gctx.sb.hscr ≠ 0 → ∃ t, exec (.trap w k) s = .next t
        ∧ t.g.mode = .handler ∧ t.g.pc = s.gctx.hvec &&& ~~~3#64 ∧ t.g.hs.pc = s.g.pc ∧ t.g.hs.cause.extractLsb' 0 8 = 0x08)

end
end

