-- ==== Sys2Proof/Laws/Codec.lean ====
section
/-! SUPPORT. What the encodings of fields, operands and words do: each is read back as it was written. -/

namespace Sys2Proof

/-! ## Bits -/

/-- Bits taken from the low part of an append. -/
theorem extract_append_lo {w v : Nat} (x : BitVec w) (y : BitVec v) (s n : Nat) (h : s + n ≤ v) :
    (x ++ y).extractLsb' s n = y.extractLsb' s n := by
  apply BitVec.eq_of_getLsbD_eq; intro i hi
  simp only [BitVec.getLsbD_extractLsb', BitVec.getLsbD_append, hi, decide_true, Bool.true_and]
  rw [if_pos (by omega)]

/-- Bits taken from the high part of an append. -/
theorem extract_append_hi {w v : Nat} (x : BitVec w) (y : BitVec v) (s n : Nat) (h : v ≤ s) :
    (x ++ y).extractLsb' s n = x.extractLsb' (s - v) n := by
  apply BitVec.eq_of_getLsbD_eq; intro i hi
  simp only [BitVec.getLsbD_extractLsb', BitVec.getLsbD_append, hi, decide_true, Bool.true_and]
  rw [if_neg (by omega)]; congr 1; omega

/-- A field cut in two and put together again. -/
theorem extract_join {w : Nat} (x : BitVec w) (a b : Nat) (h : w = a + b) :
    (x.extractLsb' b a ++ x.extractLsb' 0 b) = x.cast h := by
  apply BitVec.eq_of_getLsbD_eq; intro i hi
  simp only [BitVec.getLsbD_extractLsb', BitVec.getLsbD_append, BitVec.getLsbD_cast]
  by_cases hb : i < b
  · simp [hb]
  · rw [if_neg hb]
    have : i - b < a := by omega
    simp [this, show b + (i - b) = i by omega]

/-- Bits of bits. -/
theorem extract_extract {w : Nat} (x : BitVec w) (s n s' n' : Nat) (h : s' + n' ≤ n) :
    (x.extractLsb' s n).extractLsb' s' n' = x.extractLsb' (s + s') n' := by
  apply BitVec.eq_of_getLsbD_eq; intro i hi
  simp only [BitVec.getLsbD_extractLsb', hi, decide_true, Bool.true_and, show s' + i < n by omega]
  congr 1; omega

/-- The low bits of a widened field. -/
theorem extract_setWidth {w v : Nat} (x : BitVec w) (h : w ≤ v) : (x.setWidth v).extractLsb' 0 w = x := by
  apply BitVec.eq_of_getLsbD_eq; intro i hi
  simp only [BitVec.getLsbD_extractLsb', BitVec.getLsbD_setWidth, hi, decide_true, Bool.true_and, Nat.zero_add,
    show i < v by omega]

/-- Bits of a widened field. -/
theorem extract_setWidth_sub {w v : Nat} (x : BitVec w) (s n : Nat) (h : s + n ≤ v) :
    (x.setWidth v).extractLsb' s n = x.extractLsb' s n := by
  apply BitVec.eq_of_getLsbD_eq; intro i hi
  simp only [BitVec.getLsbD_extractLsb', BitVec.getLsbD_setWidth, hi, decide_true, Bool.true_and, show s + i < v by omega]

/-- One bit as a truth value. -/
@[simp] theorem isOne_bit1 (b : Bool) : isOne (bit1 b) = b := by cases b <;> rfl

/-- The bit of a truth value. -/
@[simp] theorem extract_bit1 (b : Bool) : (bit1 b).extractLsb' 0 1 = bit1 b := by cases b <;> rfl

/-! ## Codes -/

@[simp] theorem NType.ofCode_code (t : NType) : NType.ofCode t.code = some t := by cases t <;> rfl
@[simp] theorem Scope.ofCode_code (t : Scope) : Scope.ofCode t.code = some t := by cases t <;> rfl
@[simp] theorem Order.ofCode_code (t : Order) : Order.ofCode t.code = some t := by cases t <;> rfl
@[simp] theorem RMode.ofCode_code (t : RMode) : RMode.ofCode t.code = some t := by cases t <;> rfl
@[simp] theorem Cond.ofCode_code (t : Cond) : Cond.ofCode t.code = some t := by cases t <;> rfl
@[simp] theorem FCond.ofCode_code (t : FCond) : FCond.ofCode t.code = some t := by cases t <;> rfl
@[simp] theorem ICond.ofCode_code (t : ICond) : ICond.ofCode t.code = some t := by cases t <;> rfl
@[simp] theorem AtomOp.ofCode_code (t : AtomOp) : AtomOp.ofCode t.code = some t := by cases t <;> rfl
@[simp] theorem ShiftKind.ofCode_code (t : ShiftKind) : ShiftKind.ofCode t.code = some t := by cases t <;> rfl
@[simp] theorem TestKind.ofCode_code (t : TestKind) : TestKind.ofCode t.code = some t := by cases t <;> rfl
@[simp] theorem FenceKind.ofCode_code (t : FenceKind) : FenceKind.ofCode t.code = some t := by cases t <;> rfl
@[simp] theorem VoteOp.ofCode_code (t : VoteOp) : VoteOp.ofCode t.code = some t := by cases t <;> rfl
@[simp] theorem FoldOp.ofCode_code (t : FoldOp) : FoldOp.ofCode t.code = some t := by cases t <;> rfl
@[simp] theorem AttrMode.ofCode_code (t : AttrMode) : AttrMode.ofCode t.code = some t := by cases t <;> rfl
@[simp] theorem TexDim.ofCode_code (t : TexDim) : TexDim.ofCode t.code = some t := by cases t <;> rfl
@[simp] theorem Blend.ofCode_code (t : Blend) : Blend.ofCode t.code = some t := by cases t <;> rfl

/-! ## Operands -/

@[simp] theorem Src.src_opn (a : Src) : a.opn.src = a := by
  cases a <;> simp only [Src.opn, LOpn.src, isOne_bit1] <;> rfl
@[simp] theorem Dst.dst_opn (d : Dst) : d.opn.dst = d := by cases d <;> rfl
@[simp] theorem HDst.hdst_opn (d : HDst) : d.opn.hdst = d := by
  obtain ⟨d, h⟩ := d
  cases d <;> simp only [HDst.opn, LOpn.hdst, Dst.opn, LOpn.dst, isOne_bit1] <;> rfl
@[simp] theorem PDst.pdst_opn (d : PDst) : d.opn.pdst d.isMask = d := by
  cases d with
  | reg d => simp [PDst.opn, PDst.isMask, LOpn.pdst]
  | mask m => simp [PDst.opn, PDst.isMask, LOpn.pdst, extract_setWidth]

/-! ## Words -/

/-- The fields of a control word are read back. -/
theorem CFields.ofWord_toWord (f : CFields) : CFields.ofWord f.toWord = f := by
  change CFields.mk ((f.maj ++ f.w ++ f.d ++ f.a ++ f.b ++ f.fn).extractLsb' 26 6)
    ((f.maj ++ f.w ++ f.d ++ f.a ++ f.b ++ f.fn).extractLsb' 25 1)
    ((f.maj ++ f.w ++ f.d ++ f.a ++ f.b ++ f.fn).extractLsb' 19 6)
    ((f.maj ++ f.w ++ f.d ++ f.a ++ f.b ++ f.fn).extractLsb' 13 6)
    ((f.maj ++ f.w ++ f.d ++ f.a ++ f.b ++ f.fn).extractLsb' 7 6)
    ((f.maj ++ f.w ++ f.d ++ f.a ++ f.b ++ f.fn).extractLsb' 0 7) = f
  simp (disch := omega) only [extract_append_lo, extract_append_hi, Nat.reduceSub, BitVec.extractLsb'_eq_self]

/-- The bits of an operand are read back. -/
theorem LOpn.ofBits_toBits (o : LOpn) : LOpn.ofBits o.toBits = o := by
  change LOpn.mk ((o.cls ++ o.idx ++ o.x).extractLsb' 9 1) ((o.cls ++ o.idx ++ o.x).extractLsb' 1 8)
    ((o.cls ++ o.idx ++ o.x).extractLsb' 0 1) = o
  simp (disch := omega) only [extract_append_lo, extract_append_hi, Nat.reduceSub, BitVec.extractLsb'_eq_self]

/-- The bits of a lane word, as one append. -/
def LFields.bits (f : LFields) :=
  f.op ++ f.w ++ f.pm ++ f.pn ++ f.d.toBits ++ f.a.toBits ++ f.b.toBits ++ f.c.toBits ++ f.ty ++ f.sat ++ f.rm ++
    f.sub ++ f.sc ++ f.od ++ f.imm

/-- The fields of a lane word are read back. -/
theorem LFields.ofWord_toWord (f : LFields) : LFields.ofWord f.toWord = f := by
  change LFields.mk (f.bits.extractLsb' 88 8) (f.bits.extractLsb' 87 1) (f.bits.extractLsb' 83 4) (f.bits.extractLsb' 82 1)
    (.ofBits (f.bits.extractLsb' 72 10)) (.ofBits (f.bits.extractLsb' 62 10)) (.ofBits (f.bits.extractLsb' 52 10))
    (.ofBits (f.bits.extractLsb' 42 10)) (f.bits.extractLsb' 38 4) (f.bits.extractLsb' 37 1) (f.bits.extractLsb' 35 2)
    (f.bits.extractLsb' 29 6) (f.bits.extractLsb' 26 3) (f.bits.extractLsb' 24 2) (f.bits.extractLsb' 0 24) = f
  simp (disch := omega) only [LFields.bits, extract_append_lo, extract_append_hi, Nat.reduceSub, BitVec.extractLsb'_eq_self,
    LOpn.ofBits_toBits]

/-! ## Fields cut and joined -/

/-- A 12-bit field in two halves. -/
@[simp] theorem join12 (i : BitVec 12) : (i.extractLsb' 6 6 ++ i.extractLsb' 0 6 : BitVec 12) = i := extract_join i 6 6 rfl

/-- imm13 is read back. -/
@[simp] theorem ci_i13 (m : Nat) (w : Bool) (d a : BitVec 6) (i : BitVec 13) : (ci m w d a i).i13 = i :=
  extract_join i 6 7 rfl

/-- imm19 is read back. -/
@[simp] theorem ci_i19 (m : Nat) (w : Bool) (d : BitVec 6) (i : BitVec 19) :
    (ci m w d (i.extractLsb' 13 6) (i.extractLsb' 0 13)).i19 = i := by
  change ((i.extractLsb' 13 6 ++ (i.extractLsb' 0 13).extractLsb' 7 6) ++ (i.extractLsb' 0 13).extractLsb' 0 7) = i
  apply BitVec.eq_of_getLsbD_eq; intro k hk
  simp only [BitVec.getLsbD_append, BitVec.getLsbD_extractLsb']
  split_ifs <;> simp <;> grind

/-- b, c and fn of LRUN are read back. -/
@[simp] theorem cr_i19 (m : Nat) (w : Bool) (d : BitVec 6) (i : BitVec 19) :
    (cr m w d (i.extractLsb' 13 6) (i.extractLsb' 7 6) (i.extractLsb' 0 7)).i19 = i := by
  change ((i.extractLsb' 13 6 ++ i.extractLsb' 7 6) ++ i.extractLsb' 0 7) = i
  apply BitVec.eq_of_getLsbD_eq; intro k hk
  simp only [BitVec.getLsbD_append, BitVec.getLsbD_extractLsb']
  split_ifs <;> simp <;> grind

/-- imm16 of MOVHI is read back. -/
@[simp] theorem join16 (i : BitVec 16) : (i.extractLsb' 13 3 ++ i.extractLsb' 0 13 : BitVec 16) = i := extract_join i 3 13 rfl

/-- off21 is read back. -/
@[simp] theorem cb_o21 (m : Nat) (w : Bool) (q : BitVec 3) (n : Bool) (o : BitVec 21) : (cb m w q n o).o21 = o := by
  change (((q ++ bit1 n ++ o.extractLsb' 19 2).extractLsb' 0 2 ++ o.extractLsb' 13 6 ++ o.extractLsb' 7 6) ++ o.extractLsb' 0 7) = o
  apply BitVec.eq_of_getLsbD_eq; intro k hk
  simp only [BitVec.getLsbD_append, BitVec.getLsbD_extractLsb']
  split_ifs <;> simp <;> grind

/-- imm26 is read back. -/
@[simp] theorem limm_bits (i : BitVec 26) :
    ((limmFields i).w ++ (limmFields i).d ++ (limmFields i).a ++ (limmFields i).b ++ (limmFields i).fn : BitVec 26) = i := by
  change (i.extractLsb' 25 1 ++ i.extractLsb' 19 6 ++ i.extractLsb' 13 6 ++ i.extractLsb' 7 6 ++ i.extractLsb' 0 7) = i
  apply BitVec.eq_of_getLsbD_eq; intro k hk
  simp only [BitVec.getLsbD_append, BitVec.getLsbD_extractLsb']
  split_ifs <;> simp <;> grind

/-- The fields of a conversion's subop. -/
@[simp] theorem cvtSub_sr (hi : Bool) (t : NType) (sr : Bool) : isOne ((cvtSub hi t sr).extractLsb' 0 1) = sr := by
  cases hi <;> cases sr <;> cases t <;> rfl
@[simp] theorem cvtSub_hi (hi : Bool) (t : NType) (sr : Bool) : isOne ((cvtSub hi t sr).extractLsb' 5 1) = hi := by
  cases hi <;> cases sr <;> cases t <;> rfl
@[simp] theorem cvtSub_ty (hi : Bool) (t : NType) (sr : Bool) : (cvtSub hi t sr).extractLsb' 1 4 = t.code := by
  cases hi <;> cases sr <;> cases t <;> rfl

/-- Two 12-bit fields in imm24. -/
@[simp] theorem imm24_lo (j t : BitVec 12) : (j ++ t : BitVec 24).extractLsb' 0 12 = t := by
  simp (disch := omega) only [extract_append_lo, BitVec.extractLsb'_eq_self]
@[simp] theorem imm24_hi (j t : BitVec 12) : (j ++ t : BitVec 24).extractLsb' 12 12 = j := by
  simp (disch := omega) only [extract_append_hi, Nat.reduceSub, BitVec.extractLsb'_eq_self]
/-- t and disp in imm24. -/
@[simp] theorem imm24_disp (t : BitVec 4) (d : BitVec 20) : (t ++ d : BitVec 24).extractLsb' 0 20 = d := by
  simp (disch := omega) only [extract_append_lo, BitVec.extractLsb'_eq_self]
@[simp] theorem imm24_t (t : BitVec 4) (d : BitVec 20) : (t ++ d : BitVec 24).extractLsb' 20 4 = t := by
  simp (disch := omega) only [extract_append_hi, Nat.reduceSub, BitVec.extractLsb'_eq_self]

/-- A memory operand is read back from the three fields that hold it. -/
theorem maddr_of_parts (f : LFields) (m : MAddr) (ha : f.a = m.parts.1) (hs : f.sub.extractLsb' 0 2 = m.parts.2.1)
    (hi : f.imm = m.parts.2.2) : f.maddr = some m := by
  unfold LFields.maddr
  rw [ha, hs, hi]
  cases m <;> simp [MAddr.parts, extract_setWidth]

/-- A count is read back. -/
@[simp] theorem cnt_of_parts (n : Cnt) :
    (if n.parts.2.1.extractLsb' 0 1 = 1#1 then Cnt.imm (n.parts.2.2.extractLsb' 0 6) else Cnt.src n.parts.1.src) = n := by
  cases n <;> simp [Cnt.parts, extract_setWidth]

/-- A scale is read back. -/
@[simp] theorem scale_of_opn (b : Option Src) : (if b.isSome = true then some (scaleOpn b).src else none) = b := by
  cases b <;> simp [scaleOpn]

/-- A 64-bit lane address is read back. -/
@[simp] theorem xaddr_of_opn (x : XAddr) :
    (XAddr.mk x.a (if x.b.isSome = true then some x.bopn.src else none) x.disp) = x := by
  obtain ⟨a, b, d⟩ := x
  cases b <;> simp [XAddr.bopn]

/-- The fields every lane word has. -/
def LFields.hdr (f : LFields) : LHdr := ⟨isOne f.w, f.pm, isOne f.pn⟩

@[simp] theorem lw_hdr (op : BitVec 8) (h : LHdr) (d a b c : LOpn) (ty : NType) (sat : Bool) (rm : RMode) (sub : BitVec 6)
    (sc : Scope) (od : Order) (imm : BitVec 24) : (lw op h d a b c ty sat rm sub sc od imm).hdr = h := by
  obtain ⟨w, m, n⟩ := h
  simp [lw, LFields.hdr]

/-- A control word decodes to the well-formed instruction whose fields name it. -/
theorem decodeC_of_parse {i : Instr} {f : CFields} (hp : parseC f = some i) (hf : fieldsC i = some f) (hw : i.wf = true) :
    decodeC f.toWord = .ok i := by
  simp only [decodeC, CFields.ofWord_toWord, hp, hf, hw, if_true]

/-- A lane word decodes to the well-formed instruction whose fields name it. -/
theorem decodeL_of_parse {i : Instr} {f : LFields} (hp : parseL f = some i) (hf : fieldsL i = some f) (hw : i.wf = true) :
    decodeL f.toWord = .ok i := by
  simp only [decodeL, LFields.ofWord_toWord, hp, hf, hw, if_true]

end Sys2Proof
end

