-- ==== Sys2Proof/Laws/Lane.lean ====
section
/-! SUPPORT. What a lane word does when it issues. -/

namespace Sys2Proof.Machine

/-- A lane word that issues does its effect, on the state after its pops. -/
theorem laneRunT_of_issues {mem : Bool} {h : LHdr} {ds : List (Nat × Word)} {regs : List (Nat × Nat)} {os : List Src} {d : Option Dst}
    {s : State} {c : LCtx} {popped : List Nat} (H : LaneIssues h ds regs os d s c popped mem) (k : LCtx → State → Res) :
    laneRunT false mem h ds regs os d k s = k c (popEntries s os popped) := by
  obtain ⟨h0, h1, h2, h3, h4, h5, h6, h7, ha, ht, h8, h9, h10, h11, h12, h13⟩ := H
  obtain ⟨sp, act, w, chv, s0, os', ds', late, all⟩ := c
  dsimp only at h1 h2 h3 h4 h5 h6 h7 ha ht h12 h13
  subst h2 h3 h4 h5 h6 h7 ha
  have hr : s0.g.tried = some (sp, none) := by rw [Group.tried, if_pos h0, h1]; rfl
  have legal : (inBudget s0 regs && os'.all (srcLegal s0)) = true := by rw [h8, h9]; rfl
  cases d with
  | none =>
    simp only [laneRunT, hr, legal, h11, h12, heldBack, Bool.and_true, Bool.and_false, Bool.not_true, Bool.false_eq_true, if_false]
    rcases ht with ht | ht
    · simp [ht]
    · rcases h13 with h | h <;> simp [ht, h]
  | some x =>
    simp only [laneRunT, hr, legal, h10 x rfl, h11, h12, heldBack, Bool.and_true, Bool.and_false, Bool.not_true, Bool.false_eq_true,
      if_false]
    rcases ht with ht | ht
    · simp [ht]
    · rcases h13 with h | h <;> simp [ht, h]

/-- The same for a word that accesses no memory. -/
theorem laneRun_of_issues {h : LHdr} {ds : List (Nat × Word)} {regs : List (Nat × Nat)} {os : List Src} {d : Option Dst} {s : State}
    {c : LCtx} {popped : List Nat} (H : LaneIssues h ds regs os d s c popped) (k : LCtx → State → Res) :
    laneRun h ds regs os d k s = k c (popEntries s os popped) := laneRunT_of_issues H k

/-- The same for a word that accesses memory. -/
theorem laneMem_of_issues {h : LHdr} {ds : List (Nat × Word)} {regs : List (Nat × Nat)} {os : List Src} {d : Option Dst} {s : State}
    {c : LCtx} {popped : List Nat} (H : LaneIssues h ds regs os d s c popped true) (k : LCtx → State → Res) :
    laneMem h ds regs os d k s = k c (popEntries s os popped) := laneRunT_of_issues H k

/-- R143, R250: the order in which atomics take effect names no access that is not there. -/
theorem laneOrder_mem {s : State} {ps : List (Nat × Place)} {p : Nat × Place} (h : p ∈ laneOrder s ps) : p ∈ ps := by
  obtain ⟨l, -, hl⟩ := List.mem_filterMap.1 h
  exact List.mem_of_find?_eq_some hl

/-- R401: atomics in the scratchpad meet no poison: the faults are those of their placement. -/
theorem atomAll_window_faults (c : LCtx) (op : AtomOp) (ty : NType) (o : Order) (sc : Scope) (k : Nat) (data : Src) (r : PlacedAll)
    (h : ∀ p ∈ r.places, ∃ x, p.2 = .sp x) : (atomAll c op ty o sc k data r).faults = r.faults := by
  have key : ∀ (l : List (Nat × Place)) (a : ReadAll), (∀ p ∈ l, ∃ x, p.2 = .sp x) → (l.foldl (fun a p =>
      match placePoison a.s (ty.bits / 8) p.2 with
      | some va => { a with faults := SMap.insert a.faults p.1 (0x0D, va) }
      | none =>
        let v := natOf ty.regs fun i => c.val c.s0 k data i p.1
        let x := natOf ty.regs fun i => c.val c.s0 k data (ty.regs + i) p.1
        let (s, old) := atomPlace a.s (ty.bits / 8) o sc (fun old => atomNew op ty old v x) p.2
        { a with s := flagAll [atomFlags op ty old v] s, vals := a.vals ++ [(p.1, old)] }) a).faults = a.faults := by
    intro l
    induction l with
    | nil => exact fun _ _ => rfl
    | cons p l ih =>
      intro a hl
      obtain ⟨x, hx⟩ := hl p List.mem_cons_self
      rw [List.foldl_cons, ih _ fun q hq => hl q (List.mem_cons_of_mem _ hq)]
      rw [hx]
      simp only [placePoison]
  exact key _ _ fun p hp => h p (laneOrder_mem hp)

/-- R401: loads from the scratchpad meet no poison: the faults are those of their placement. -/
theorem readAll_window_faults (n : Nat) (o : Order) (sc : Scope) (r : PlacedAll) (h : ∀ p ∈ r.places, ∃ x, p.2 = .sp x) :
    (readAll n o sc r).faults = r.faults := by
  have key : ∀ (l : List (Nat × Place)) (a : ReadAll), (∀ p ∈ l, ∃ x, p.2 = .sp x) → (l.foldl (fun a p =>
      match placePoison a.s n p.2 with
      | some va => { a with faults := SMap.insert a.faults p.1 (0x0D, va) }
      | none =>
        let (s, v) := readPlace a.s n o sc p.2
        { a with s := s, vals := a.vals ++ [(p.1, v)] }) a).faults = a.faults := by
    intro l
    induction l with
    | nil => exact fun _ _ => rfl
    | cons p l ih =>
      intro a hl
      obtain ⟨x, hx⟩ := hl p List.mem_cons_self
      rw [List.foldl_cons, ih _ fun q hq => hl q (List.mem_cons_of_mem _ hq)]
      rw [hx]
      simp only [placePoison]
  exact key _ _ fun p hp => h p (laneOrder_mem hp)

/-- R271, R401: the units of a tile in the scratchpad meet no poison. -/
theorem readFrag_window_faults (u : Nat) (r : FragPlaced) (h : ∀ x ∈ r.units, ∃ o, x.2.2 = .sp o) : (readFrag u r).2.2 = r.faults := by
  have key : ∀ (l : List (Nat × Nat × Place)) (a : State × List (Nat × Nat × Nat) × SMap (Byte × DWord)), (∀ x ∈ l, ∃ o, x.2.2 = .sp o) →
      (l.foldl (fun a x =>
        match placePoison a.1 u x.2.2 with
        | some va => (a.1, a.2.1, if (SMap.find a.2.2 x.1).isSome then a.2.2 else SMap.insert a.2.2 x.1 ((0x0D : Byte), va))
        | none =>
          let rd := readPlace a.1 u .plain .grp x.2.2
          (rd.1, a.2.1 ++ [(x.2.1, rd.2, u)], a.2.2)) a).2.2 = a.2.2 := by
    intro l
    induction l with
    | nil => exact fun _ _ => rfl
    | cons p l ih =>
      intro a hl
      obtain ⟨x, hx⟩ := hl p List.mem_cons_self
      rw [List.foldl_cons, ih _ fun q hq => hl q (List.mem_cons_of_mem _ hq)]
      rw [hx]
      simp only [placePoison]
  refine key _ _ fun x hx => h x ?_
  obtain ⟨l, -, hl⟩ := List.mem_flatMap.1 hx
  exact (List.mem_filter.1 hl).1

end Sys2Proof.Machine
end

