-- ==== Sys2Proof/Laws/SMap.lean ====
section
/-! SUPPORT. Sparse maps: what a read after a write gives, and that every operation keeps the canonical form. -/

namespace Sys2Proof.Machine

/-! ## Reads after writes -/

theorem SMap.get_insert {β : Type} (d v : β) (m : SMap β) (k j : Nat) :
    SMap.get d (SMap.insert m k v) j = if j = k then v else SMap.get d m j := by
  induction m with
  | nil => simp [SMap.insert, SMap.get]
  | cons e m ih =>
    obtain ⟨a, u⟩ := e
    simp only [SMap.insert]
    split
    · subst a; by_cases h : j = k <;> simp [SMap.get, h]
    · split
      · simp [SMap.get]
      · simp only [SMap.get, ih]
        by_cases h : j = a
        · subst h; simp [Ne.symm ‹_›]
        · simp [h]

theorem SMap.get_erase {β : Type} (d : β) (m : SMap β) (k j : Nat) :
    SMap.get d (SMap.erase m k) j = if j = k then d else SMap.get d m j := by
  induction m with
  | nil => simp [SMap.erase, SMap.get]
  | cons e m ih =>
    obtain ⟨a, u⟩ := e
    simp only [SMap.erase] at ih ⊢
    by_cases h : a = k
    · subst h
      simp only [ne_eq, not_true_eq_false, decide_false, Bool.false_eq_true, not_false_eq_true, List.filter_cons_of_neg, ih,
        SMap.get]
      split <;> simp_all
    · simp only [ne_eq, h, not_false_eq_true, decide_true, List.filter_cons_of_pos, SMap.get, ih]
      by_cases h2 : j = a
      · subst h2; simp [h]
      · simp [h2]

/-- A read after a write gives the value written at its key, and what it gave before at every other. -/
@[simp] theorem SMap.get_set {β : Type} [DecidableEq β] (d v : β) (m : SMap β) (k j : Nat) :
    SMap.get d (SMap.set d m k v) j = if j = k then v else SMap.get d m j := by
  unfold SMap.set
  split
  · rename_i h; rw [SMap.get_erase, h]
  · exact SMap.get_insert d v m k j

/-- A read after a write of a run. -/
theorem SMap.get_setRun {β : Type} [DecidableEq β] (d : β) (vs : List β) (m : SMap β) (k j : Nat) :
    SMap.get d (SMap.setRun d m k vs) j = if k ≤ j ∧ j < k + vs.length then vs.getD (j - k) d else SMap.get d m j := by
  induction vs generalizing m k with
  | nil => simp [SMap.setRun]
  | cons v vs ih =>
    simp only [SMap.setRun, ih, SMap.get_set, List.length_cons]
    by_cases h : j = k
    · subst h; simp
    · by_cases h2 : k + 1 ≤ j ∧ j < k + 1 + vs.length
      · rw [if_pos h2, if_pos (by omega)]
        obtain ⟨i, rfl⟩ : ∃ i, j = k + 1 + i := ⟨j - (k + 1), by omega⟩
        simp [show k + 1 + i - k = i + 1 by omega]
      · rw [if_neg h2, if_neg h, if_neg (by omega)]

/-! ## The canonical form -/

theorem SMap.wfFrom_mono {β : Type} [DecidableEq β] {d : β} {l : Nat} {m : SMap β} (h : SMap.wfFrom d (some l) m = true)
    {lo : Option Nat} (hlo : ∀ x, lo = some x → x ≤ l) : SMap.wfFrom d lo m = true := by
  cases m with
  | nil => rfl
  | cons e m =>
    obtain ⟨j, v⟩ := e
    simp only [SMap.wfFrom, Bool.and_eq_true, decide_eq_true_eq] at h ⊢
    refine ⟨⟨?_, h.1.2⟩, h.2⟩
    cases lo with
    | none => rfl
    | some x => have := hlo x rfl; simp only [decide_eq_true_eq]; omega

/-- A filter keeps the canonical form: erasing, clearing and cutting do. -/
theorem SMap.wfFrom_filter {β : Type} [DecidableEq β] {d : β} (p : Nat × β → Bool) (m : SMap β) (lo : Option Nat)
    (h : SMap.wfFrom d lo m = true) : SMap.wfFrom d lo (m.filter p) = true := by
  induction m generalizing lo with
  | nil => rfl
  | cons e m ih =>
    obtain ⟨j, v⟩ := e
    simp only [SMap.wfFrom, Bool.and_eq_true] at h
    by_cases hp : p (j, v)
    · rw [List.filter_cons_of_pos hp]
      simp only [SMap.wfFrom, Bool.and_eq_true]
      exact ⟨h.1, ih _ h.2⟩
    · rw [List.filter_cons_of_neg hp]
      refine ih lo (SMap.wfFrom_mono h.2 ?_)
      rintro x rfl
      have := h.1.1
      simp only [decide_eq_true_eq] at this
      omega

/-- What the canonical form of a nonempty map says. -/
theorem SMap.wfFrom_cons {β : Type} [DecidableEq β] {d v : β} {m : SMap β} {k : Nat} {lo : Option Nat} :
    SMap.wfFrom d lo ((k, v) :: m) = true ↔ (∀ x, lo = some x → x < k) ∧ v ≠ d ∧ SMap.wfFrom d (some k) m = true := by
  cases lo <;> simp [SMap.wfFrom, and_assoc]

theorem SMap.wfFrom_insert {β : Type} [DecidableEq β] {d v : β} (hv : v ≠ d) (m : SMap β) (k : Nat) (lo : Option Nat)
    (hlo : ∀ x, lo = some x → x < k) (h : SMap.wfFrom d lo m = true) : SMap.wfFrom d lo (SMap.insert m k v) = true := by
  induction m generalizing lo with
  | nil => exact SMap.wfFrom_cons.2 ⟨hlo, hv, rfl⟩
  | cons e m ih =>
    obtain ⟨j, u⟩ := e
    obtain ⟨h1, h2, h3⟩ := SMap.wfFrom_cons.1 h
    simp only [SMap.insert]
    split
    · rename_i hk; subst hk; exact SMap.wfFrom_cons.2 ⟨hlo, hv, h3⟩
    · split
      · rename_i hk
        exact SMap.wfFrom_cons.2 ⟨hlo, hv, SMap.wfFrom_cons.2 ⟨by rintro x ⟨⟩; exact hk, h2, h3⟩⟩
      · exact SMap.wfFrom_cons.2 ⟨h1, h2, ih (some j) (by rintro x ⟨⟩; omega) h3⟩

/-- A write keeps the canonical form. -/
theorem SMap.wf_set {β : Type} [DecidableEq β] (d v : β) (m : SMap β) (k : Nat) (h : SMap.wf d m = true) :
    SMap.wf d (SMap.set d m k v) = true := by
  unfold SMap.set
  split
  · exact SMap.wfFrom_filter _ m none h
  · rename_i hv; exact SMap.wfFrom_insert hv m k none (by simp) h

/-- A write of a run keeps the canonical form. -/
theorem SMap.wf_setRun {β : Type} [DecidableEq β] (d : β) (vs : List β) (m : SMap β) (k : Nat) (h : SMap.wf d m = true) :
    SMap.wf d (SMap.setRun d m k vs) = true := by
  induction vs generalizing m k with
  | nil => exact h
  | cons v vs ih => exact ih _ _ (SMap.wf_set d v m k h)

/-- Clearing a range keeps the canonical form. -/
theorem SMap.wf_clear {β : Type} [DecidableEq β] (d : β) (m : SMap β) (lo hi : Nat) (h : SMap.wf d m = true) :
    SMap.wf d (SMap.clear m lo hi) = true := SMap.wfFrom_filter _ m none h

/-- Listing a value that is not the default keeps the canonical form. -/
theorem SMap.wf_insert {β : Type} [DecidableEq β] {d v : β} (hv : v ≠ d) (m : SMap β) (k : Nat) (h : SMap.wf d m = true) :
    SMap.wf d (SMap.insert m k v) = true := SMap.wfFrom_insert hv m k none (by simp) h

end Sys2Proof.Machine
end

