-- ==== Sys2Proof/Laws/State.lean ====
section
/-! SUPPORT. What each named update of the state leaves: one lemma per field, so that no proof unfolds a record update. -/

namespace Sys2Proof.Machine

/-! ## mapG -/

@[simp] theorem State.mapG_tick (s : State) (f : Group → Group) : (s.mapG f).tick = s.tick := rfl
@[simp] theorem State.mapG_now (s : State) (f : Group → Group) : (s.mapG f).now = s.now := rfl
@[simp] theorem State.mapG_clk (s : State) (f : Group → Group) : (s.mapG f).clk = s.clk := rfl
@[simp] theorem State.mapG_issued (s : State) (f : Group → Group) : (s.mapG f).issued = s.issued := rfl
@[simp] theorem State.mapG_mhz (s : State) (f : Group → Group) : (s.mapG f).mhz = s.mhz := rfl
@[simp] theorem State.mapG_agenda (s : State) (f : Group → Group) : (s.mapG f).agenda = s.agenda := rfl
@[simp] theorem State.mapG_turn (s : State) (f : Group → Group) : (s.mapG f).turn = s.turn := rfl
@[simp] theorem State.mapG_powered (s : State) (f : Group → Group) : (s.mapG f).powered = s.powered := rfl
@[simp] theorem State.mapG_devState (s : State) (f : Group → Group) : (s.mapG f).devState = s.devState := rfl
@[simp] theorem State.mapG_mgrDown (s : State) (f : Group → Group) : (s.mapG f).mgrDown = s.mgrDown := rfl
@[simp] theorem State.mapG_g (s : State) (f : Group → Group) : (s.mapG f).g = f s.g := rfl
@[simp] theorem State.mapG_t (s : State) (f : Group → Group) : (s.mapG f).t = s.t := rfl
@[simp] theorem State.mapG_gs (s : State) (f : Group → Group) : (s.mapG f).gs = s.gs := rfl
@[simp] theorem State.mapG_ts (s : State) (f : Group → Group) : (s.mapG f).ts = s.ts := rfl
@[simp] theorem State.mapG_mem (s : State) (f : Group → Group) : (s.mapG f).mem = s.mem := rfl
@[simp] theorem State.mapG_hostMem (s : State) (f : Group → Group) : (s.mapG f).hostMem = s.hostMem := rfl
@[simp] theorem State.mapG_poison (s : State) (f : Group → Group) : (s.mapG f).poison = s.poison := rfl
@[simp] theorem State.mapG_copies (s : State) (f : Group → Group) : (s.mapG f).copies = s.copies := rfl
@[simp] theorem State.mapG_clusters (s : State) (f : Group → Group) : (s.mapG f).clusters = s.clusters := rfl
@[simp] theorem State.mapG_l1s (s : State) (f : Group → Group) : (s.mapG f).l1s = s.l1s := rfl
@[simp] theorem State.mapG_slices (s : State) (f : Group → Group) : (s.mapG f).slices = s.slices := rfl
@[simp] theorem State.mapG_ctxs (s : State) (f : Group → Group) : (s.mapG f).ctxs = s.ctxs := rfl
@[simp] theorem State.mapG_vfs (s : State) (f : Group → Group) : (s.mapG f).vfs = s.vfs := rfl
@[simp] theorem State.mapG_mboxes (s : State) (f : Group → Group) : (s.mapG f).mboxes = s.mboxes := rfl
@[simp] theorem State.mapG_cards (s : State) (f : Group → Group) : (s.mapG f).cards = s.cards := rfl
@[simp] theorem State.mapG_leases (s : State) (f : Group → Group) : (s.mapG f).leases = s.leases := rfl
@[simp] theorem State.mapG_ckpts (s : State) (f : Group → Group) : (s.mapG f).ckpts = s.ckpts := rfl
@[simp] theorem State.mapG_manifests (s : State) (f : Group → Group) : (s.mapG f).manifests = s.manifests := rfl
@[simp] theorem State.mapG_fws (s : State) (f : Group → Group) : (s.mapG f).fws = s.fws := rfl
@[simp] theorem State.mapG_cmask (s : State) (f : Group → Group) : (s.mapG f).cmask = s.cmask := rfl
@[simp] theorem State.mapG_chmask (s : State) (f : Group → Group) : (s.mapG f).chmask = s.chmask := rfl
@[simp] theorem State.mapG_peers (s : State) (f : Group → Group) : (s.mapG f).peers = s.peers := rfl
@[simp] theorem State.mapG_peerId (s : State) (f : Group → Group) : (s.mapG f).peerId = s.peerId := rfl
@[simp] theorem State.mapG_qpairs (s : State) (f : Group → Group) : (s.mapG f).qpairs = s.qpairs := rfl
@[simp] theorem State.mapG_lost (s : State) (f : Group → Group) : (s.mapG f).lost = s.lost := rfl
@[simp] theorem State.mapG_ports (s : State) (f : Group → Group) : (s.mapG f).ports = s.ports := rfl
@[simp] theorem State.mapG_snoopErr (s : State) (f : Group → Group) : (s.mapG f).snoopErr = s.snoopErr := rfl
@[simp] theorem State.mapG_snoopSet (s : State) (f : Group → Group) : (s.mapG f).snoopSet = s.snoopSet := rfl
@[simp] theorem State.mapG_snoopRec (s : State) (f : Group → Group) : (s.mapG f).snoopRec = s.snoopRec := rfl
@[simp] theorem State.mapG_reports (s : State) (f : Group → Group) : (s.mapG f).reports = s.reports := rfl
@[simp] theorem State.mapG_msix (s : State) (f : Group → Group) : (s.mapG f).msix = s.msix := rfl
@[simp] theorem State.mapG_spdm (s : State) (f : Group → Group) : (s.mapG f).spdm = s.spdm := rfl
@[simp] theorem State.mapG_linkResp (s : State) (f : Group → Group) : (s.mapG f).linkResp = s.linkResp := rfl
@[simp] theorem State.mapG_linkOk (s : State) (f : Group → Group) : (s.mapG f).linkOk = s.linkOk := rfl
@[simp] theorem State.mapG_engDone (s : State) (f : Group → Group) : (s.mapG f).engDone = s.engDone := rfl
@[simp] theorem State.mapG_log (s : State) (f : Group → Group) : (s.mapG f).log = s.log := rfl
@[simp] theorem State.mapG_nextId (s : State) (f : Group → Group) : (s.mapG f).nextId = s.nextId := rfl
@[simp] theorem State.mapG_kept (s : State) (f : Group → Group) : (s.mapG f).kept = s.kept := rfl
@[simp] theorem State.mapG_keptT (s : State) (f : Group → Group) : (s.mapG f).keptT = s.keptT := rfl
@[simp] theorem State.mapG_redir (s : State) (f : Group → Group) : (s.mapG f).redir = s.redir := rfl
@[simp] theorem State.mapG_holds (s : State) (f : Group → Group) : (s.mapG f).holds = s.holds := rfl
@[simp] theorem State.mapG_race (s : State) (f : Group → Group) : (s.mapG f).race = s.race := rfl
@[simp] theorem State.mapG_extCpyq (s : State) (f : Group → Group) : (s.mapG f).extCpyq = s.extCpyq := rfl
@[simp] theorem State.mapG_owed (s : State) (f : Group → Group) : (s.mapG f).owed = s.owed := rfl
@[simp] theorem State.mapG_logq (s : State) (f : Group → Group) : (s.mapG f).logq = s.logq := rfl
@[simp] theorem State.mapG_writer (s : State) (f : Group → Group) : (s.mapG f).writer = s.writer := rfl
@[simp] theorem State.mapG_logHeld (s : State) (f : Group → Group) : (s.mapG f).logHeld = s.logHeld := rfl
@[simp] theorem State.mapG_guardW (s : State) (f : Group → Group) : (s.mapG f).guardW = s.guardW := rfl
@[simp] theorem State.mapG_decs (s : State) (f : Group → Group) : (s.mapG f).decs = s.decs := rfl

/-! ## mapT -/

@[simp] theorem State.mapT_tick (s : State) (f : Team → Team) : (s.mapT f).tick = s.tick := rfl
@[simp] theorem State.mapT_now (s : State) (f : Team → Team) : (s.mapT f).now = s.now := rfl
@[simp] theorem State.mapT_clk (s : State) (f : Team → Team) : (s.mapT f).clk = s.clk := rfl
@[simp] theorem State.mapT_issued (s : State) (f : Team → Team) : (s.mapT f).issued = s.issued := rfl
@[simp] theorem State.mapT_mhz (s : State) (f : Team → Team) : (s.mapT f).mhz = s.mhz := rfl
@[simp] theorem State.mapT_agenda (s : State) (f : Team → Team) : (s.mapT f).agenda = s.agenda := rfl
@[simp] theorem State.mapT_turn (s : State) (f : Team → Team) : (s.mapT f).turn = s.turn := rfl
@[simp] theorem State.mapT_powered (s : State) (f : Team → Team) : (s.mapT f).powered = s.powered := rfl
@[simp] theorem State.mapT_devState (s : State) (f : Team → Team) : (s.mapT f).devState = s.devState := rfl
@[simp] theorem State.mapT_mgrDown (s : State) (f : Team → Team) : (s.mapT f).mgrDown = s.mgrDown := rfl
@[simp] theorem State.mapT_g (s : State) (f : Team → Team) : (s.mapT f).g = s.g := rfl
@[simp] theorem State.mapT_t (s : State) (f : Team → Team) : (s.mapT f).t = f s.t := rfl
@[simp] theorem State.mapT_gs (s : State) (f : Team → Team) : (s.mapT f).gs = s.gs := rfl
@[simp] theorem State.mapT_ts (s : State) (f : Team → Team) : (s.mapT f).ts = s.ts := rfl
@[simp] theorem State.mapT_mem (s : State) (f : Team → Team) : (s.mapT f).mem = s.mem := rfl
@[simp] theorem State.mapT_hostMem (s : State) (f : Team → Team) : (s.mapT f).hostMem = s.hostMem := rfl
@[simp] theorem State.mapT_poison (s : State) (f : Team → Team) : (s.mapT f).poison = s.poison := rfl
@[simp] theorem State.mapT_copies (s : State) (f : Team → Team) : (s.mapT f).copies = s.copies := rfl
@[simp] theorem State.mapT_clusters (s : State) (f : Team → Team) : (s.mapT f).clusters = s.clusters := rfl
@[simp] theorem State.mapT_l1s (s : State) (f : Team → Team) : (s.mapT f).l1s = s.l1s := rfl
@[simp] theorem State.mapT_slices (s : State) (f : Team → Team) : (s.mapT f).slices = s.slices := rfl
@[simp] theorem State.mapT_ctxs (s : State) (f : Team → Team) : (s.mapT f).ctxs = s.ctxs := rfl
@[simp] theorem State.mapT_vfs (s : State) (f : Team → Team) : (s.mapT f).vfs = s.vfs := rfl
@[simp] theorem State.mapT_mboxes (s : State) (f : Team → Team) : (s.mapT f).mboxes = s.mboxes := rfl
@[simp] theorem State.mapT_cards (s : State) (f : Team → Team) : (s.mapT f).cards = s.cards := rfl
@[simp] theorem State.mapT_leases (s : State) (f : Team → Team) : (s.mapT f).leases = s.leases := rfl
@[simp] theorem State.mapT_ckpts (s : State) (f : Team → Team) : (s.mapT f).ckpts = s.ckpts := rfl
@[simp] theorem State.mapT_manifests (s : State) (f : Team → Team) : (s.mapT f).manifests = s.manifests := rfl
@[simp] theorem State.mapT_fws (s : State) (f : Team → Team) : (s.mapT f).fws = s.fws := rfl
@[simp] theorem State.mapT_cmask (s : State) (f : Team → Team) : (s.mapT f).cmask = s.cmask := rfl
@[simp] theorem State.mapT_chmask (s : State) (f : Team → Team) : (s.mapT f).chmask = s.chmask := rfl
@[simp] theorem State.mapT_peers (s : State) (f : Team → Team) : (s.mapT f).peers = s.peers := rfl
@[simp] theorem State.mapT_peerId (s : State) (f : Team → Team) : (s.mapT f).peerId = s.peerId := rfl
@[simp] theorem State.mapT_qpairs (s : State) (f : Team → Team) : (s.mapT f).qpairs = s.qpairs := rfl
@[simp] theorem State.mapT_lost (s : State) (f : Team → Team) : (s.mapT f).lost = s.lost := rfl
@[simp] theorem State.mapT_ports (s : State) (f : Team → Team) : (s.mapT f).ports = s.ports := rfl
@[simp] theorem State.mapT_snoopErr (s : State) (f : Team → Team) : (s.mapT f).snoopErr = s.snoopErr := rfl
@[simp] theorem State.mapT_snoopSet (s : State) (f : Team → Team) : (s.mapT f).snoopSet = s.snoopSet := rfl
@[simp] theorem State.mapT_snoopRec (s : State) (f : Team → Team) : (s.mapT f).snoopRec = s.snoopRec := rfl
@[simp] theorem State.mapT_reports (s : State) (f : Team → Team) : (s.mapT f).reports = s.reports := rfl
@[simp] theorem State.mapT_msix (s : State) (f : Team → Team) : (s.mapT f).msix = s.msix := rfl
@[simp] theorem State.mapT_spdm (s : State) (f : Team → Team) : (s.mapT f).spdm = s.spdm := rfl
@[simp] theorem State.mapT_linkResp (s : State) (f : Team → Team) : (s.mapT f).linkResp = s.linkResp := rfl
@[simp] theorem State.mapT_linkOk (s : State) (f : Team → Team) : (s.mapT f).linkOk = s.linkOk := rfl
@[simp] theorem State.mapT_engDone (s : State) (f : Team → Team) : (s.mapT f).engDone = s.engDone := rfl
@[simp] theorem State.mapT_log (s : State) (f : Team → Team) : (s.mapT f).log = s.log := rfl
@[simp] theorem State.mapT_nextId (s : State) (f : Team → Team) : (s.mapT f).nextId = s.nextId := rfl
@[simp] theorem State.mapT_kept (s : State) (f : Team → Team) : (s.mapT f).kept = s.kept := rfl
@[simp] theorem State.mapT_keptT (s : State) (f : Team → Team) : (s.mapT f).keptT = s.keptT := rfl
@[simp] theorem State.mapT_redir (s : State) (f : Team → Team) : (s.mapT f).redir = s.redir := rfl
@[simp] theorem State.mapT_holds (s : State) (f : Team → Team) : (s.mapT f).holds = s.holds := rfl
@[simp] theorem State.mapT_race (s : State) (f : Team → Team) : (s.mapT f).race = s.race := rfl
@[simp] theorem State.mapT_extCpyq (s : State) (f : Team → Team) : (s.mapT f).extCpyq = s.extCpyq := rfl
@[simp] theorem State.mapT_owed (s : State) (f : Team → Team) : (s.mapT f).owed = s.owed := rfl
@[simp] theorem State.mapT_logq (s : State) (f : Team → Team) : (s.mapT f).logq = s.logq := rfl
@[simp] theorem State.mapT_writer (s : State) (f : Team → Team) : (s.mapT f).writer = s.writer := rfl
@[simp] theorem State.mapT_logHeld (s : State) (f : Team → Team) : (s.mapT f).logHeld = s.logHeld := rfl
@[simp] theorem State.mapT_guardW (s : State) (f : Team → Team) : (s.mapT f).guardW = s.guardW := rfl
@[simp] theorem State.mapT_decs (s : State) (f : Team → Team) : (s.mapT f).decs = s.decs := rfl

/-! ## setCtx -/

@[simp] theorem State.setCtx_tick (s : State) (c : Ctx) : (s.setCtx c).tick = s.tick := rfl
@[simp] theorem State.setCtx_now (s : State) (c : Ctx) : (s.setCtx c).now = s.now := rfl
@[simp] theorem State.setCtx_clk (s : State) (c : Ctx) : (s.setCtx c).clk = s.clk := rfl
@[simp] theorem State.setCtx_issued (s : State) (c : Ctx) : (s.setCtx c).issued = s.issued := rfl
@[simp] theorem State.setCtx_mhz (s : State) (c : Ctx) : (s.setCtx c).mhz = s.mhz := rfl
@[simp] theorem State.setCtx_agenda (s : State) (c : Ctx) : (s.setCtx c).agenda = s.agenda := rfl
@[simp] theorem State.setCtx_turn (s : State) (c : Ctx) : (s.setCtx c).turn = s.turn := rfl
@[simp] theorem State.setCtx_powered (s : State) (c : Ctx) : (s.setCtx c).powered = s.powered := rfl
@[simp] theorem State.setCtx_devState (s : State) (c : Ctx) : (s.setCtx c).devState = s.devState := rfl
@[simp] theorem State.setCtx_mgrDown (s : State) (c : Ctx) : (s.setCtx c).mgrDown = s.mgrDown := rfl
@[simp] theorem State.setCtx_g (s : State) (c : Ctx) : (s.setCtx c).g = s.g := rfl
@[simp] theorem State.setCtx_t (s : State) (c : Ctx) : (s.setCtx c).t = s.t := rfl
@[simp] theorem State.setCtx_gs (s : State) (c : Ctx) : (s.setCtx c).gs = s.gs := rfl
@[simp] theorem State.setCtx_ts (s : State) (c : Ctx) : (s.setCtx c).ts = s.ts := rfl
@[simp] theorem State.setCtx_mem (s : State) (c : Ctx) : (s.setCtx c).mem = s.mem := rfl
@[simp] theorem State.setCtx_hostMem (s : State) (c : Ctx) : (s.setCtx c).hostMem = s.hostMem := rfl
@[simp] theorem State.setCtx_poison (s : State) (c : Ctx) : (s.setCtx c).poison = s.poison := rfl
@[simp] theorem State.setCtx_copies (s : State) (c : Ctx) : (s.setCtx c).copies = s.copies := rfl
@[simp] theorem State.setCtx_clusters (s : State) (c : Ctx) : (s.setCtx c).clusters = s.clusters := rfl
@[simp] theorem State.setCtx_l1s (s : State) (c : Ctx) : (s.setCtx c).l1s = s.l1s := rfl
@[simp] theorem State.setCtx_slices (s : State) (c : Ctx) : (s.setCtx c).slices = s.slices := rfl
@[simp] theorem State.setCtx_vfs (s : State) (c : Ctx) : (s.setCtx c).vfs = s.vfs := rfl
@[simp] theorem State.setCtx_mboxes (s : State) (c : Ctx) : (s.setCtx c).mboxes = s.mboxes := rfl
@[simp] theorem State.setCtx_cards (s : State) (c : Ctx) : (s.setCtx c).cards = s.cards := rfl
@[simp] theorem State.setCtx_leases (s : State) (c : Ctx) : (s.setCtx c).leases = s.leases := rfl
@[simp] theorem State.setCtx_ckpts (s : State) (c : Ctx) : (s.setCtx c).ckpts = s.ckpts := rfl
@[simp] theorem State.setCtx_manifests (s : State) (c : Ctx) : (s.setCtx c).manifests = s.manifests := rfl
@[simp] theorem State.setCtx_fws (s : State) (c : Ctx) : (s.setCtx c).fws = s.fws := rfl
@[simp] theorem State.setCtx_cmask (s : State) (c : Ctx) : (s.setCtx c).cmask = s.cmask := rfl
@[simp] theorem State.setCtx_chmask (s : State) (c : Ctx) : (s.setCtx c).chmask = s.chmask := rfl
@[simp] theorem State.setCtx_peers (s : State) (c : Ctx) : (s.setCtx c).peers = s.peers := rfl
@[simp] theorem State.setCtx_peerId (s : State) (c : Ctx) : (s.setCtx c).peerId = s.peerId := rfl
@[simp] theorem State.setCtx_qpairs (s : State) (c : Ctx) : (s.setCtx c).qpairs = s.qpairs := rfl
@[simp] theorem State.setCtx_lost (s : State) (c : Ctx) : (s.setCtx c).lost = s.lost := rfl
@[simp] theorem State.setCtx_ports (s : State) (c : Ctx) : (s.setCtx c).ports = s.ports := rfl
@[simp] theorem State.setCtx_snoopErr (s : State) (c : Ctx) : (s.setCtx c).snoopErr = s.snoopErr := rfl
@[simp] theorem State.setCtx_snoopSet (s : State) (c : Ctx) : (s.setCtx c).snoopSet = s.snoopSet := rfl
@[simp] theorem State.setCtx_snoopRec (s : State) (c : Ctx) : (s.setCtx c).snoopRec = s.snoopRec := rfl
@[simp] theorem State.setCtx_reports (s : State) (c : Ctx) : (s.setCtx c).reports = s.reports := rfl
@[simp] theorem State.setCtx_msix (s : State) (c : Ctx) : (s.setCtx c).msix = s.msix := rfl
@[simp] theorem State.setCtx_spdm (s : State) (c : Ctx) : (s.setCtx c).spdm = s.spdm := rfl
@[simp] theorem State.setCtx_linkResp (s : State) (c : Ctx) : (s.setCtx c).linkResp = s.linkResp := rfl
@[simp] theorem State.setCtx_linkOk (s : State) (c : Ctx) : (s.setCtx c).linkOk = s.linkOk := rfl
@[simp] theorem State.setCtx_engDone (s : State) (c : Ctx) : (s.setCtx c).engDone = s.engDone := rfl
@[simp] theorem State.setCtx_log (s : State) (c : Ctx) : (s.setCtx c).log = s.log := rfl
@[simp] theorem State.setCtx_nextId (s : State) (c : Ctx) : (s.setCtx c).nextId = s.nextId := rfl
@[simp] theorem State.setCtx_kept (s : State) (c : Ctx) : (s.setCtx c).kept = s.kept := rfl
@[simp] theorem State.setCtx_keptT (s : State) (c : Ctx) : (s.setCtx c).keptT = s.keptT := rfl
@[simp] theorem State.setCtx_redir (s : State) (c : Ctx) : (s.setCtx c).redir = s.redir := rfl
@[simp] theorem State.setCtx_holds (s : State) (c : Ctx) : (s.setCtx c).holds = s.holds := rfl
@[simp] theorem State.setCtx_race (s : State) (c : Ctx) : (s.setCtx c).race = s.race := rfl
@[simp] theorem State.setCtx_extCpyq (s : State) (c : Ctx) : (s.setCtx c).extCpyq = s.extCpyq := rfl
@[simp] theorem State.setCtx_owed (s : State) (c : Ctx) : (s.setCtx c).owed = s.owed := rfl
@[simp] theorem State.setCtx_logq (s : State) (c : Ctx) : (s.setCtx c).logq = s.logq := rfl
@[simp] theorem State.setCtx_writer (s : State) (c : Ctx) : (s.setCtx c).writer = s.writer := rfl
@[simp] theorem State.setCtx_logHeld (s : State) (c : Ctx) : (s.setCtx c).logHeld = s.logHeld := rfl
@[simp] theorem State.setCtx_guardW (s : State) (c : Ctx) : (s.setCtx c).guardW = s.guardW := rfl
@[simp] theorem State.setCtx_decs (s : State) (c : Ctx) : (s.setCtx c).decs = s.decs := rfl

/-! ## setCluster -/

@[simp] theorem State.setCluster_tick (s : State) (c : Cluster) : (s.setCluster c).tick = s.tick := rfl
@[simp] theorem State.setCluster_now (s : State) (c : Cluster) : (s.setCluster c).now = s.now := rfl
@[simp] theorem State.setCluster_clk (s : State) (c : Cluster) : (s.setCluster c).clk = s.clk := rfl
@[simp] theorem State.setCluster_issued (s : State) (c : Cluster) : (s.setCluster c).issued = s.issued := rfl
@[simp] theorem State.setCluster_mhz (s : State) (c : Cluster) : (s.setCluster c).mhz = s.mhz := rfl
@[simp] theorem State.setCluster_agenda (s : State) (c : Cluster) : (s.setCluster c).agenda = s.agenda := rfl
@[simp] theorem State.setCluster_turn (s : State) (c : Cluster) : (s.setCluster c).turn = s.turn := rfl
@[simp] theorem State.setCluster_powered (s : State) (c : Cluster) : (s.setCluster c).powered = s.powered := rfl
@[simp] theorem State.setCluster_devState (s : State) (c : Cluster) : (s.setCluster c).devState = s.devState := rfl
@[simp] theorem State.setCluster_mgrDown (s : State) (c : Cluster) : (s.setCluster c).mgrDown = s.mgrDown := rfl
@[simp] theorem State.setCluster_g (s : State) (c : Cluster) : (s.setCluster c).g = s.g := rfl
@[simp] theorem State.setCluster_t (s : State) (c : Cluster) : (s.setCluster c).t = s.t := rfl
@[simp] theorem State.setCluster_gs (s : State) (c : Cluster) : (s.setCluster c).gs = s.gs := rfl
@[simp] theorem State.setCluster_ts (s : State) (c : Cluster) : (s.setCluster c).ts = s.ts := rfl
@[simp] theorem State.setCluster_mem (s : State) (c : Cluster) : (s.setCluster c).mem = s.mem := rfl
@[simp] theorem State.setCluster_hostMem (s : State) (c : Cluster) : (s.setCluster c).hostMem = s.hostMem := rfl
@[simp] theorem State.setCluster_poison (s : State) (c : Cluster) : (s.setCluster c).poison = s.poison := rfl
@[simp] theorem State.setCluster_copies (s : State) (c : Cluster) : (s.setCluster c).copies = s.copies := rfl
@[simp] theorem State.setCluster_l1s (s : State) (c : Cluster) : (s.setCluster c).l1s = s.l1s := rfl
@[simp] theorem State.setCluster_slices (s : State) (c : Cluster) : (s.setCluster c).slices = s.slices := rfl
@[simp] theorem State.setCluster_ctxs (s : State) (c : Cluster) : (s.setCluster c).ctxs = s.ctxs := rfl
@[simp] theorem State.setCluster_vfs (s : State) (c : Cluster) : (s.setCluster c).vfs = s.vfs := rfl
@[simp] theorem State.setCluster_mboxes (s : State) (c : Cluster) : (s.setCluster c).mboxes = s.mboxes := rfl
@[simp] theorem State.setCluster_cards (s : State) (c : Cluster) : (s.setCluster c).cards = s.cards := rfl
@[simp] theorem State.setCluster_leases (s : State) (c : Cluster) : (s.setCluster c).leases = s.leases := rfl
@[simp] theorem State.setCluster_ckpts (s : State) (c : Cluster) : (s.setCluster c).ckpts = s.ckpts := rfl
@[simp] theorem State.setCluster_manifests (s : State) (c : Cluster) : (s.setCluster c).manifests = s.manifests := rfl
@[simp] theorem State.setCluster_fws (s : State) (c : Cluster) : (s.setCluster c).fws = s.fws := rfl
@[simp] theorem State.setCluster_cmask (s : State) (c : Cluster) : (s.setCluster c).cmask = s.cmask := rfl
@[simp] theorem State.setCluster_chmask (s : State) (c : Cluster) : (s.setCluster c).chmask = s.chmask := rfl
@[simp] theorem State.setCluster_peers (s : State) (c : Cluster) : (s.setCluster c).peers = s.peers := rfl
@[simp] theorem State.setCluster_peerId (s : State) (c : Cluster) : (s.setCluster c).peerId = s.peerId := rfl
@[simp] theorem State.setCluster_qpairs (s : State) (c : Cluster) : (s.setCluster c).qpairs = s.qpairs := rfl
@[simp] theorem State.setCluster_lost (s : State) (c : Cluster) : (s.setCluster c).lost = s.lost := rfl
@[simp] theorem State.setCluster_ports (s : State) (c : Cluster) : (s.setCluster c).ports = s.ports := rfl
@[simp] theorem State.setCluster_snoopErr (s : State) (c : Cluster) : (s.setCluster c).snoopErr = s.snoopErr := rfl
@[simp] theorem State.setCluster_snoopSet (s : State) (c : Cluster) : (s.setCluster c).snoopSet = s.snoopSet := rfl
@[simp] theorem State.setCluster_snoopRec (s : State) (c : Cluster) : (s.setCluster c).snoopRec = s.snoopRec := rfl
@[simp] theorem State.setCluster_reports (s : State) (c : Cluster) : (s.setCluster c).reports = s.reports := rfl
@[simp] theorem State.setCluster_msix (s : State) (c : Cluster) : (s.setCluster c).msix = s.msix := rfl
@[simp] theorem State.setCluster_spdm (s : State) (c : Cluster) : (s.setCluster c).spdm = s.spdm := rfl
@[simp] theorem State.setCluster_linkResp (s : State) (c : Cluster) : (s.setCluster c).linkResp = s.linkResp := rfl
@[simp] theorem State.setCluster_linkOk (s : State) (c : Cluster) : (s.setCluster c).linkOk = s.linkOk := rfl
@[simp] theorem State.setCluster_engDone (s : State) (c : Cluster) : (s.setCluster c).engDone = s.engDone := rfl
@[simp] theorem State.setCluster_log (s : State) (c : Cluster) : (s.setCluster c).log = s.log := rfl
@[simp] theorem State.setCluster_nextId (s : State) (c : Cluster) : (s.setCluster c).nextId = s.nextId := rfl
@[simp] theorem State.setCluster_kept (s : State) (c : Cluster) : (s.setCluster c).kept = s.kept := rfl
@[simp] theorem State.setCluster_keptT (s : State) (c : Cluster) : (s.setCluster c).keptT = s.keptT := rfl
@[simp] theorem State.setCluster_redir (s : State) (c : Cluster) : (s.setCluster c).redir = s.redir := rfl
@[simp] theorem State.setCluster_holds (s : State) (c : Cluster) : (s.setCluster c).holds = s.holds := rfl
@[simp] theorem State.setCluster_race (s : State) (c : Cluster) : (s.setCluster c).race = s.race := rfl
@[simp] theorem State.setCluster_extCpyq (s : State) (c : Cluster) : (s.setCluster c).extCpyq = s.extCpyq := rfl
@[simp] theorem State.setCluster_owed (s : State) (c : Cluster) : (s.setCluster c).owed = s.owed := rfl
@[simp] theorem State.setCluster_logq (s : State) (c : Cluster) : (s.setCluster c).logq = s.logq := rfl
@[simp] theorem State.setCluster_writer (s : State) (c : Cluster) : (s.setCluster c).writer = s.writer := rfl
@[simp] theorem State.setCluster_logHeld (s : State) (c : Cluster) : (s.setCluster c).logHeld = s.logHeld := rfl
@[simp] theorem State.setCluster_guardW (s : State) (c : Cluster) : (s.setCluster c).guardW = s.guardW := rfl
@[simp] theorem State.setCluster_decs (s : State) (c : Cluster) : (s.setCluster c).decs = s.decs := rfl

/-! ## setL1 -/

@[simp] theorem State.setL1_tick (s : State) (c : L1) : (s.setL1 c).tick = s.tick := rfl
@[simp] theorem State.setL1_now (s : State) (c : L1) : (s.setL1 c).now = s.now := rfl
@[simp] theorem State.setL1_clk (s : State) (c : L1) : (s.setL1 c).clk = s.clk := rfl
@[simp] theorem State.setL1_issued (s : State) (c : L1) : (s.setL1 c).issued = s.issued := rfl
@[simp] theorem State.setL1_mhz (s : State) (c : L1) : (s.setL1 c).mhz = s.mhz := rfl
@[simp] theorem State.setL1_agenda (s : State) (c : L1) : (s.setL1 c).agenda = s.agenda := rfl
@[simp] theorem State.setL1_turn (s : State) (c : L1) : (s.setL1 c).turn = s.turn := rfl
@[simp] theorem State.setL1_powered (s : State) (c : L1) : (s.setL1 c).powered = s.powered := rfl
@[simp] theorem State.setL1_devState (s : State) (c : L1) : (s.setL1 c).devState = s.devState := rfl
@[simp] theorem State.setL1_mgrDown (s : State) (c : L1) : (s.setL1 c).mgrDown = s.mgrDown := rfl
@[simp] theorem State.setL1_g (s : State) (c : L1) : (s.setL1 c).g = s.g := rfl
@[simp] theorem State.setL1_t (s : State) (c : L1) : (s.setL1 c).t = s.t := rfl
@[simp] theorem State.setL1_gs (s : State) (c : L1) : (s.setL1 c).gs = s.gs := rfl
@[simp] theorem State.setL1_ts (s : State) (c : L1) : (s.setL1 c).ts = s.ts := rfl
@[simp] theorem State.setL1_mem (s : State) (c : L1) : (s.setL1 c).mem = s.mem := rfl
@[simp] theorem State.setL1_hostMem (s : State) (c : L1) : (s.setL1 c).hostMem = s.hostMem := rfl
@[simp] theorem State.setL1_poison (s : State) (c : L1) : (s.setL1 c).poison = s.poison := rfl
@[simp] theorem State.setL1_copies (s : State) (c : L1) : (s.setL1 c).copies = s.copies := rfl
@[simp] theorem State.setL1_clusters (s : State) (c : L1) : (s.setL1 c).clusters = s.clusters := rfl
@[simp] theorem State.setL1_slices (s : State) (c : L1) : (s.setL1 c).slices = s.slices := rfl
@[simp] theorem State.setL1_ctxs (s : State) (c : L1) : (s.setL1 c).ctxs = s.ctxs := rfl
@[simp] theorem State.setL1_vfs (s : State) (c : L1) : (s.setL1 c).vfs = s.vfs := rfl
@[simp] theorem State.setL1_mboxes (s : State) (c : L1) : (s.setL1 c).mboxes = s.mboxes := rfl
@[simp] theorem State.setL1_cards (s : State) (c : L1) : (s.setL1 c).cards = s.cards := rfl
@[simp] theorem State.setL1_leases (s : State) (c : L1) : (s.setL1 c).leases = s.leases := rfl
@[simp] theorem State.setL1_ckpts (s : State) (c : L1) : (s.setL1 c).ckpts = s.ckpts := rfl
@[simp] theorem State.setL1_manifests (s : State) (c : L1) : (s.setL1 c).manifests = s.manifests := rfl
@[simp] theorem State.setL1_fws (s : State) (c : L1) : (s.setL1 c).fws = s.fws := rfl
@[simp] theorem State.setL1_cmask (s : State) (c : L1) : (s.setL1 c).cmask = s.cmask := rfl
@[simp] theorem State.setL1_chmask (s : State) (c : L1) : (s.setL1 c).chmask = s.chmask := rfl
@[simp] theorem State.setL1_peers (s : State) (c : L1) : (s.setL1 c).peers = s.peers := rfl
@[simp] theorem State.setL1_peerId (s : State) (c : L1) : (s.setL1 c).peerId = s.peerId := rfl
@[simp] theorem State.setL1_qpairs (s : State) (c : L1) : (s.setL1 c).qpairs = s.qpairs := rfl
@[simp] theorem State.setL1_lost (s : State) (c : L1) : (s.setL1 c).lost = s.lost := rfl
@[simp] theorem State.setL1_ports (s : State) (c : L1) : (s.setL1 c).ports = s.ports := rfl
@[simp] theorem State.setL1_snoopErr (s : State) (c : L1) : (s.setL1 c).snoopErr = s.snoopErr := rfl
@[simp] theorem State.setL1_snoopSet (s : State) (c : L1) : (s.setL1 c).snoopSet = s.snoopSet := rfl
@[simp] theorem State.setL1_snoopRec (s : State) (c : L1) : (s.setL1 c).snoopRec = s.snoopRec := rfl
@[simp] theorem State.setL1_reports (s : State) (c : L1) : (s.setL1 c).reports = s.reports := rfl
@[simp] theorem State.setL1_msix (s : State) (c : L1) : (s.setL1 c).msix = s.msix := rfl
@[simp] theorem State.setL1_spdm (s : State) (c : L1) : (s.setL1 c).spdm = s.spdm := rfl
@[simp] theorem State.setL1_linkResp (s : State) (c : L1) : (s.setL1 c).linkResp = s.linkResp := rfl
@[simp] theorem State.setL1_linkOk (s : State) (c : L1) : (s.setL1 c).linkOk = s.linkOk := rfl
@[simp] theorem State.setL1_engDone (s : State) (c : L1) : (s.setL1 c).engDone = s.engDone := rfl
@[simp] theorem State.setL1_log (s : State) (c : L1) : (s.setL1 c).log = s.log := rfl
@[simp] theorem State.setL1_nextId (s : State) (c : L1) : (s.setL1 c).nextId = s.nextId := rfl
@[simp] theorem State.setL1_kept (s : State) (c : L1) : (s.setL1 c).kept = s.kept := rfl
@[simp] theorem State.setL1_keptT (s : State) (c : L1) : (s.setL1 c).keptT = s.keptT := rfl
@[simp] theorem State.setL1_redir (s : State) (c : L1) : (s.setL1 c).redir = s.redir := rfl
@[simp] theorem State.setL1_holds (s : State) (c : L1) : (s.setL1 c).holds = s.holds := rfl
@[simp] theorem State.setL1_race (s : State) (c : L1) : (s.setL1 c).race = s.race := rfl
@[simp] theorem State.setL1_extCpyq (s : State) (c : L1) : (s.setL1 c).extCpyq = s.extCpyq := rfl
@[simp] theorem State.setL1_owed (s : State) (c : L1) : (s.setL1 c).owed = s.owed := rfl
@[simp] theorem State.setL1_logq (s : State) (c : L1) : (s.setL1 c).logq = s.logq := rfl
@[simp] theorem State.setL1_writer (s : State) (c : L1) : (s.setL1 c).writer = s.writer := rfl
@[simp] theorem State.setL1_logHeld (s : State) (c : L1) : (s.setL1 c).logHeld = s.logHeld := rfl
@[simp] theorem State.setL1_guardW (s : State) (c : L1) : (s.setL1 c).guardW = s.guardW := rfl
@[simp] theorem State.setL1_decs (s : State) (c : L1) : (s.setL1 c).decs = s.decs := rfl

/-! ## setSlice -/

@[simp] theorem State.setSlice_tick (s : State) (c : Slice) : (s.setSlice c).tick = s.tick := rfl
@[simp] theorem State.setSlice_now (s : State) (c : Slice) : (s.setSlice c).now = s.now := rfl
@[simp] theorem State.setSlice_clk (s : State) (c : Slice) : (s.setSlice c).clk = s.clk := rfl
@[simp] theorem State.setSlice_issued (s : State) (c : Slice) : (s.setSlice c).issued = s.issued := rfl
@[simp] theorem State.setSlice_mhz (s : State) (c : Slice) : (s.setSlice c).mhz = s.mhz := rfl
@[simp] theorem State.setSlice_agenda (s : State) (c : Slice) : (s.setSlice c).agenda = s.agenda := rfl
@[simp] theorem State.setSlice_turn (s : State) (c : Slice) : (s.setSlice c).turn = s.turn := rfl
@[simp] theorem State.setSlice_powered (s : State) (c : Slice) : (s.setSlice c).powered = s.powered := rfl
@[simp] theorem State.setSlice_devState (s : State) (c : Slice) : (s.setSlice c).devState = s.devState := rfl
@[simp] theorem State.setSlice_mgrDown (s : State) (c : Slice) : (s.setSlice c).mgrDown = s.mgrDown := rfl
@[simp] theorem State.setSlice_g (s : State) (c : Slice) : (s.setSlice c).g = s.g := rfl
@[simp] theorem State.setSlice_t (s : State) (c : Slice) : (s.setSlice c).t = s.t := rfl
@[simp] theorem State.setSlice_gs (s : State) (c : Slice) : (s.setSlice c).gs = s.gs := rfl
@[simp] theorem State.setSlice_ts (s : State) (c : Slice) : (s.setSlice c).ts = s.ts := rfl
@[simp] theorem State.setSlice_mem (s : State) (c : Slice) : (s.setSlice c).mem = s.mem := rfl
@[simp] theorem State.setSlice_hostMem (s : State) (c : Slice) : (s.setSlice c).hostMem = s.hostMem := rfl
@[simp] theorem State.setSlice_poison (s : State) (c : Slice) : (s.setSlice c).poison = s.poison := rfl
@[simp] theorem State.setSlice_copies (s : State) (c : Slice) : (s.setSlice c).copies = s.copies := rfl
@[simp] theorem State.setSlice_clusters (s : State) (c : Slice) : (s.setSlice c).clusters = s.clusters := rfl
@[simp] theorem State.setSlice_l1s (s : State) (c : Slice) : (s.setSlice c).l1s = s.l1s := rfl
@[simp] theorem State.setSlice_ctxs (s : State) (c : Slice) : (s.setSlice c).ctxs = s.ctxs := rfl
@[simp] theorem State.setSlice_vfs (s : State) (c : Slice) : (s.setSlice c).vfs = s.vfs := rfl
@[simp] theorem State.setSlice_mboxes (s : State) (c : Slice) : (s.setSlice c).mboxes = s.mboxes := rfl
@[simp] theorem State.setSlice_cards (s : State) (c : Slice) : (s.setSlice c).cards = s.cards := rfl
@[simp] theorem State.setSlice_leases (s : State) (c : Slice) : (s.setSlice c).leases = s.leases := rfl
@[simp] theorem State.setSlice_ckpts (s : State) (c : Slice) : (s.setSlice c).ckpts = s.ckpts := rfl
@[simp] theorem State.setSlice_manifests (s : State) (c : Slice) : (s.setSlice c).manifests = s.manifests := rfl
@[simp] theorem State.setSlice_fws (s : State) (c : Slice) : (s.setSlice c).fws = s.fws := rfl
@[simp] theorem State.setSlice_cmask (s : State) (c : Slice) : (s.setSlice c).cmask = s.cmask := rfl
@[simp] theorem State.setSlice_chmask (s : State) (c : Slice) : (s.setSlice c).chmask = s.chmask := rfl
@[simp] theorem State.setSlice_peers (s : State) (c : Slice) : (s.setSlice c).peers = s.peers := rfl
@[simp] theorem State.setSlice_peerId (s : State) (c : Slice) : (s.setSlice c).peerId = s.peerId := rfl
@[simp] theorem State.setSlice_qpairs (s : State) (c : Slice) : (s.setSlice c).qpairs = s.qpairs := rfl
@[simp] theorem State.setSlice_lost (s : State) (c : Slice) : (s.setSlice c).lost = s.lost := rfl
@[simp] theorem State.setSlice_ports (s : State) (c : Slice) : (s.setSlice c).ports = s.ports := rfl
@[simp] theorem State.setSlice_snoopErr (s : State) (c : Slice) : (s.setSlice c).snoopErr = s.snoopErr := rfl
@[simp] theorem State.setSlice_snoopSet (s : State) (c : Slice) : (s.setSlice c).snoopSet = s.snoopSet := rfl
@[simp] theorem State.setSlice_snoopRec (s : State) (c : Slice) : (s.setSlice c).snoopRec = s.snoopRec := rfl
@[simp] theorem State.setSlice_reports (s : State) (c : Slice) : (s.setSlice c).reports = s.reports := rfl
@[simp] theorem State.setSlice_msix (s : State) (c : Slice) : (s.setSlice c).msix = s.msix := rfl
@[simp] theorem State.setSlice_spdm (s : State) (c : Slice) : (s.setSlice c).spdm = s.spdm := rfl
@[simp] theorem State.setSlice_linkResp (s : State) (c : Slice) : (s.setSlice c).linkResp = s.linkResp := rfl
@[simp] theorem State.setSlice_linkOk (s : State) (c : Slice) : (s.setSlice c).linkOk = s.linkOk := rfl
@[simp] theorem State.setSlice_engDone (s : State) (c : Slice) : (s.setSlice c).engDone = s.engDone := rfl
@[simp] theorem State.setSlice_log (s : State) (c : Slice) : (s.setSlice c).log = s.log := rfl
@[simp] theorem State.setSlice_nextId (s : State) (c : Slice) : (s.setSlice c).nextId = s.nextId := rfl
@[simp] theorem State.setSlice_kept (s : State) (c : Slice) : (s.setSlice c).kept = s.kept := rfl
@[simp] theorem State.setSlice_keptT (s : State) (c : Slice) : (s.setSlice c).keptT = s.keptT := rfl
@[simp] theorem State.setSlice_redir (s : State) (c : Slice) : (s.setSlice c).redir = s.redir := rfl
@[simp] theorem State.setSlice_holds (s : State) (c : Slice) : (s.setSlice c).holds = s.holds := rfl
@[simp] theorem State.setSlice_race (s : State) (c : Slice) : (s.setSlice c).race = s.race := rfl
@[simp] theorem State.setSlice_extCpyq (s : State) (c : Slice) : (s.setSlice c).extCpyq = s.extCpyq := rfl
@[simp] theorem State.setSlice_owed (s : State) (c : Slice) : (s.setSlice c).owed = s.owed := rfl
@[simp] theorem State.setSlice_logq (s : State) (c : Slice) : (s.setSlice c).logq = s.logq := rfl
@[simp] theorem State.setSlice_writer (s : State) (c : Slice) : (s.setSlice c).writer = s.writer := rfl
@[simp] theorem State.setSlice_logHeld (s : State) (c : Slice) : (s.setSlice c).logHeld = s.logHeld := rfl
@[simp] theorem State.setSlice_guardW (s : State) (c : Slice) : (s.setSlice c).guardW = s.guardW := rfl
@[simp] theorem State.setSlice_decs (s : State) (c : Slice) : (s.setSlice c).decs = s.decs := rfl

/-! ## setVf -/

@[simp] theorem State.setVf_tick (s : State) (c : Vf) : (s.setVf c).tick = s.tick := rfl
@[simp] theorem State.setVf_now (s : State) (c : Vf) : (s.setVf c).now = s.now := rfl
@[simp] theorem State.setVf_clk (s : State) (c : Vf) : (s.setVf c).clk = s.clk := rfl
@[simp] theorem State.setVf_issued (s : State) (c : Vf) : (s.setVf c).issued = s.issued := rfl
@[simp] theorem State.setVf_mhz (s : State) (c : Vf) : (s.setVf c).mhz = s.mhz := rfl
@[simp] theorem State.setVf_agenda (s : State) (c : Vf) : (s.setVf c).agenda = s.agenda := rfl
@[simp] theorem State.setVf_turn (s : State) (c : Vf) : (s.setVf c).turn = s.turn := rfl
@[simp] theorem State.setVf_powered (s : State) (c : Vf) : (s.setVf c).powered = s.powered := rfl
@[simp] theorem State.setVf_devState (s : State) (c : Vf) : (s.setVf c).devState = s.devState := rfl
@[simp] theorem State.setVf_mgrDown (s : State) (c : Vf) : (s.setVf c).mgrDown = s.mgrDown := rfl
@[simp] theorem State.setVf_g (s : State) (c : Vf) : (s.setVf c).g = s.g := rfl
@[simp] theorem State.setVf_t (s : State) (c : Vf) : (s.setVf c).t = s.t := rfl
@[simp] theorem State.setVf_gs (s : State) (c : Vf) : (s.setVf c).gs = s.gs := rfl
@[simp] theorem State.setVf_ts (s : State) (c : Vf) : (s.setVf c).ts = s.ts := rfl
@[simp] theorem State.setVf_mem (s : State) (c : Vf) : (s.setVf c).mem = s.mem := rfl
@[simp] theorem State.setVf_hostMem (s : State) (c : Vf) : (s.setVf c).hostMem = s.hostMem := rfl
@[simp] theorem State.setVf_poison (s : State) (c : Vf) : (s.setVf c).poison = s.poison := rfl
@[simp] theorem State.setVf_copies (s : State) (c : Vf) : (s.setVf c).copies = s.copies := rfl
@[simp] theorem State.setVf_clusters (s : State) (c : Vf) : (s.setVf c).clusters = s.clusters := rfl
@[simp] theorem State.setVf_l1s (s : State) (c : Vf) : (s.setVf c).l1s = s.l1s := rfl
@[simp] theorem State.setVf_slices (s : State) (c : Vf) : (s.setVf c).slices = s.slices := rfl
@[simp] theorem State.setVf_ctxs (s : State) (c : Vf) : (s.setVf c).ctxs = s.ctxs := rfl
@[simp] theorem State.setVf_mboxes (s : State) (c : Vf) : (s.setVf c).mboxes = s.mboxes := rfl
@[simp] theorem State.setVf_cards (s : State) (c : Vf) : (s.setVf c).cards = s.cards := rfl
@[simp] theorem State.setVf_leases (s : State) (c : Vf) : (s.setVf c).leases = s.leases := rfl
@[simp] theorem State.setVf_ckpts (s : State) (c : Vf) : (s.setVf c).ckpts = s.ckpts := rfl
@[simp] theorem State.setVf_manifests (s : State) (c : Vf) : (s.setVf c).manifests = s.manifests := rfl
@[simp] theorem State.setVf_fws (s : State) (c : Vf) : (s.setVf c).fws = s.fws := rfl
@[simp] theorem State.setVf_cmask (s : State) (c : Vf) : (s.setVf c).cmask = s.cmask := rfl
@[simp] theorem State.setVf_chmask (s : State) (c : Vf) : (s.setVf c).chmask = s.chmask := rfl
@[simp] theorem State.setVf_peers (s : State) (c : Vf) : (s.setVf c).peers = s.peers := rfl
@[simp] theorem State.setVf_peerId (s : State) (c : Vf) : (s.setVf c).peerId = s.peerId := rfl
@[simp] theorem State.setVf_qpairs (s : State) (c : Vf) : (s.setVf c).qpairs = s.qpairs := rfl
@[simp] theorem State.setVf_lost (s : State) (c : Vf) : (s.setVf c).lost = s.lost := rfl
@[simp] theorem State.setVf_ports (s : State) (c : Vf) : (s.setVf c).ports = s.ports := rfl
@[simp] theorem State.setVf_snoopErr (s : State) (c : Vf) : (s.setVf c).snoopErr = s.snoopErr := rfl
@[simp] theorem State.setVf_snoopSet (s : State) (c : Vf) : (s.setVf c).snoopSet = s.snoopSet := rfl
@[simp] theorem State.setVf_snoopRec (s : State) (c : Vf) : (s.setVf c).snoopRec = s.snoopRec := rfl
@[simp] theorem State.setVf_reports (s : State) (c : Vf) : (s.setVf c).reports = s.reports := rfl
@[simp] theorem State.setVf_msix (s : State) (c : Vf) : (s.setVf c).msix = s.msix := rfl
@[simp] theorem State.setVf_spdm (s : State) (c : Vf) : (s.setVf c).spdm = s.spdm := rfl
@[simp] theorem State.setVf_linkResp (s : State) (c : Vf) : (s.setVf c).linkResp = s.linkResp := rfl
@[simp] theorem State.setVf_linkOk (s : State) (c : Vf) : (s.setVf c).linkOk = s.linkOk := rfl
@[simp] theorem State.setVf_engDone (s : State) (c : Vf) : (s.setVf c).engDone = s.engDone := rfl
@[simp] theorem State.setVf_log (s : State) (c : Vf) : (s.setVf c).log = s.log := rfl
@[simp] theorem State.setVf_nextId (s : State) (c : Vf) : (s.setVf c).nextId = s.nextId := rfl
@[simp] theorem State.setVf_kept (s : State) (c : Vf) : (s.setVf c).kept = s.kept := rfl
@[simp] theorem State.setVf_keptT (s : State) (c : Vf) : (s.setVf c).keptT = s.keptT := rfl
@[simp] theorem State.setVf_redir (s : State) (c : Vf) : (s.setVf c).redir = s.redir := rfl
@[simp] theorem State.setVf_holds (s : State) (c : Vf) : (s.setVf c).holds = s.holds := rfl
@[simp] theorem State.setVf_race (s : State) (c : Vf) : (s.setVf c).race = s.race := rfl
@[simp] theorem State.setVf_extCpyq (s : State) (c : Vf) : (s.setVf c).extCpyq = s.extCpyq := rfl
@[simp] theorem State.setVf_owed (s : State) (c : Vf) : (s.setVf c).owed = s.owed := rfl
@[simp] theorem State.setVf_logq (s : State) (c : Vf) : (s.setVf c).logq = s.logq := rfl
@[simp] theorem State.setVf_writer (s : State) (c : Vf) : (s.setVf c).writer = s.writer := rfl
@[simp] theorem State.setVf_logHeld (s : State) (c : Vf) : (s.setVf c).logHeld = s.logHeld := rfl
@[simp] theorem State.setVf_guardW (s : State) (c : Vf) : (s.setVf c).guardW = s.guardW := rfl
@[simp] theorem State.setVf_decs (s : State) (c : Vf) : (s.setVf c).decs = s.decs := rfl

/-! ## setMbox -/

@[simp] theorem State.setMbox_tick (s : State) (n : Nat) (c : Mailbox) : (s.setMbox n c).tick = s.tick := rfl
@[simp] theorem State.setMbox_now (s : State) (n : Nat) (c : Mailbox) : (s.setMbox n c).now = s.now := rfl
@[simp] theorem State.setMbox_clk (s : State) (n : Nat) (c : Mailbox) : (s.setMbox n c).clk = s.clk := rfl
@[simp] theorem State.setMbox_issued (s : State) (n : Nat) (c : Mailbox) : (s.setMbox n c).issued = s.issued := rfl
@[simp] theorem State.setMbox_mhz (s : State) (n : Nat) (c : Mailbox) : (s.setMbox n c).mhz = s.mhz := rfl
@[simp] theorem State.setMbox_agenda (s : State) (n : Nat) (c : Mailbox) : (s.setMbox n c).agenda = s.agenda := rfl
@[simp] theorem State.setMbox_turn (s : State) (n : Nat) (c : Mailbox) : (s.setMbox n c).turn = s.turn := rfl
@[simp] theorem State.setMbox_powered (s : State) (n : Nat) (c : Mailbox) : (s.setMbox n c).powered = s.powered := rfl
@[simp] theorem State.setMbox_devState (s : State) (n : Nat) (c : Mailbox) : (s.setMbox n c).devState = s.devState := rfl
@[simp] theorem State.setMbox_mgrDown (s : State) (n : Nat) (c : Mailbox) : (s.setMbox n c).mgrDown = s.mgrDown := rfl
@[simp] theorem State.setMbox_g (s : State) (n : Nat) (c : Mailbox) : (s.setMbox n c).g = s.g := rfl
@[simp] theorem State.setMbox_t (s : State) (n : Nat) (c : Mailbox) : (s.setMbox n c).t = s.t := rfl
@[simp] theorem State.setMbox_gs (s : State) (n : Nat) (c : Mailbox) : (s.setMbox n c).gs = s.gs := rfl
@[simp] theorem State.setMbox_ts (s : State) (n : Nat) (c : Mailbox) : (s.setMbox n c).ts = s.ts := rfl
@[simp] theorem State.setMbox_mem (s : State) (n : Nat) (c : Mailbox) : (s.setMbox n c).mem = s.mem := rfl
@[simp] theorem State.setMbox_hostMem (s : State) (n : Nat) (c : Mailbox) : (s.setMbox n c).hostMem = s.hostMem := rfl
@[simp] theorem State.setMbox_poison (s : State) (n : Nat) (c : Mailbox) : (s.setMbox n c).poison = s.poison := rfl
@[simp] theorem State.setMbox_copies (s : State) (n : Nat) (c : Mailbox) : (s.setMbox n c).copies = s.copies := rfl
@[simp] theorem State.setMbox_clusters (s : State) (n : Nat) (c : Mailbox) : (s.setMbox n c).clusters = s.clusters := rfl
@[simp] theorem State.setMbox_l1s (s : State) (n : Nat) (c : Mailbox) : (s.setMbox n c).l1s = s.l1s := rfl
@[simp] theorem State.setMbox_slices (s : State) (n : Nat) (c : Mailbox) : (s.setMbox n c).slices = s.slices := rfl
@[simp] theorem State.setMbox_ctxs (s : State) (n : Nat) (c : Mailbox) : (s.setMbox n c).ctxs = s.ctxs := rfl
@[simp] theorem State.setMbox_vfs (s : State) (n : Nat) (c : Mailbox) : (s.setMbox n c).vfs = s.vfs := rfl
@[simp] theorem State.setMbox_cards (s : State) (n : Nat) (c : Mailbox) : (s.setMbox n c).cards = s.cards := rfl
@[simp] theorem State.setMbox_leases (s : State) (n : Nat) (c : Mailbox) : (s.setMbox n c).leases = s.leases := rfl
@[simp] theorem State.setMbox_ckpts (s : State) (n : Nat) (c : Mailbox) : (s.setMbox n c).ckpts = s.ckpts := rfl
@[simp] theorem State.setMbox_manifests (s : State) (n : Nat) (c : Mailbox) : (s.setMbox n c).manifests = s.manifests := rfl
@[simp] theorem State.setMbox_fws (s : State) (n : Nat) (c : Mailbox) : (s.setMbox n c).fws = s.fws := rfl
@[simp] theorem State.setMbox_cmask (s : State) (n : Nat) (c : Mailbox) : (s.setMbox n c).cmask = s.cmask := rfl
@[simp] theorem State.setMbox_chmask (s : State) (n : Nat) (c : Mailbox) : (s.setMbox n c).chmask = s.chmask := rfl
@[simp] theorem State.setMbox_peers (s : State) (n : Nat) (c : Mailbox) : (s.setMbox n c).peers = s.peers := rfl
@[simp] theorem State.setMbox_peerId (s : State) (n : Nat) (c : Mailbox) : (s.setMbox n c).peerId = s.peerId := rfl
@[simp] theorem State.setMbox_qpairs (s : State) (n : Nat) (c : Mailbox) : (s.setMbox n c).qpairs = s.qpairs := rfl
@[simp] theorem State.setMbox_lost (s : State) (n : Nat) (c : Mailbox) : (s.setMbox n c).lost = s.lost := rfl
@[simp] theorem State.setMbox_ports (s : State) (n : Nat) (c : Mailbox) : (s.setMbox n c).ports = s.ports := rfl
@[simp] theorem State.setMbox_snoopErr (s : State) (n : Nat) (c : Mailbox) : (s.setMbox n c).snoopErr = s.snoopErr := rfl
@[simp] theorem State.setMbox_snoopSet (s : State) (n : Nat) (c : Mailbox) : (s.setMbox n c).snoopSet = s.snoopSet := rfl
@[simp] theorem State.setMbox_snoopRec (s : State) (n : Nat) (c : Mailbox) : (s.setMbox n c).snoopRec = s.snoopRec := rfl
@[simp] theorem State.setMbox_reports (s : State) (n : Nat) (c : Mailbox) : (s.setMbox n c).reports = s.reports := rfl
@[simp] theorem State.setMbox_msix (s : State) (n : Nat) (c : Mailbox) : (s.setMbox n c).msix = s.msix := rfl
@[simp] theorem State.setMbox_spdm (s : State) (n : Nat) (c : Mailbox) : (s.setMbox n c).spdm = s.spdm := rfl
@[simp] theorem State.setMbox_linkResp (s : State) (n : Nat) (c : Mailbox) : (s.setMbox n c).linkResp = s.linkResp := rfl
@[simp] theorem State.setMbox_linkOk (s : State) (n : Nat) (c : Mailbox) : (s.setMbox n c).linkOk = s.linkOk := rfl
@[simp] theorem State.setMbox_engDone (s : State) (n : Nat) (c : Mailbox) : (s.setMbox n c).engDone = s.engDone := rfl
@[simp] theorem State.setMbox_log (s : State) (n : Nat) (c : Mailbox) : (s.setMbox n c).log = s.log := rfl
@[simp] theorem State.setMbox_nextId (s : State) (n : Nat) (c : Mailbox) : (s.setMbox n c).nextId = s.nextId := rfl
@[simp] theorem State.setMbox_kept (s : State) (n : Nat) (c : Mailbox) : (s.setMbox n c).kept = s.kept := rfl
@[simp] theorem State.setMbox_keptT (s : State) (n : Nat) (c : Mailbox) : (s.setMbox n c).keptT = s.keptT := rfl
@[simp] theorem State.setMbox_redir (s : State) (n : Nat) (c : Mailbox) : (s.setMbox n c).redir = s.redir := rfl
@[simp] theorem State.setMbox_holds (s : State) (n : Nat) (c : Mailbox) : (s.setMbox n c).holds = s.holds := rfl
@[simp] theorem State.setMbox_race (s : State) (n : Nat) (c : Mailbox) : (s.setMbox n c).race = s.race := rfl
@[simp] theorem State.setMbox_extCpyq (s : State) (n : Nat) (c : Mailbox) : (s.setMbox n c).extCpyq = s.extCpyq := rfl
@[simp] theorem State.setMbox_owed (s : State) (n : Nat) (c : Mailbox) : (s.setMbox n c).owed = s.owed := rfl
@[simp] theorem State.setMbox_logq (s : State) (n : Nat) (c : Mailbox) : (s.setMbox n c).logq = s.logq := rfl
@[simp] theorem State.setMbox_writer (s : State) (n : Nat) (c : Mailbox) : (s.setMbox n c).writer = s.writer := rfl
@[simp] theorem State.setMbox_logHeld (s : State) (n : Nat) (c : Mailbox) : (s.setMbox n c).logHeld = s.logHeld := rfl
@[simp] theorem State.setMbox_guardW (s : State) (n : Nat) (c : Mailbox) : (s.setMbox n c).guardW = s.guardW := rfl
@[simp] theorem State.setMbox_decs (s : State) (n : Nat) (c : Mailbox) : (s.setMbox n c).decs = s.decs := rfl

/-! ## setFw -/

@[simp] theorem State.setFw_tick (s : State) (n : Nat) (c : Fw) : (s.setFw n c).tick = s.tick := rfl
@[simp] theorem State.setFw_now (s : State) (n : Nat) (c : Fw) : (s.setFw n c).now = s.now := rfl
@[simp] theorem State.setFw_clk (s : State) (n : Nat) (c : Fw) : (s.setFw n c).clk = s.clk := rfl
@[simp] theorem State.setFw_issued (s : State) (n : Nat) (c : Fw) : (s.setFw n c).issued = s.issued := rfl
@[simp] theorem State.setFw_mhz (s : State) (n : Nat) (c : Fw) : (s.setFw n c).mhz = s.mhz := rfl
@[simp] theorem State.setFw_agenda (s : State) (n : Nat) (c : Fw) : (s.setFw n c).agenda = s.agenda := rfl
@[simp] theorem State.setFw_turn (s : State) (n : Nat) (c : Fw) : (s.setFw n c).turn = s.turn := rfl
@[simp] theorem State.setFw_powered (s : State) (n : Nat) (c : Fw) : (s.setFw n c).powered = s.powered := rfl
@[simp] theorem State.setFw_devState (s : State) (n : Nat) (c : Fw) : (s.setFw n c).devState = s.devState := rfl
@[simp] theorem State.setFw_mgrDown (s : State) (n : Nat) (c : Fw) : (s.setFw n c).mgrDown = s.mgrDown := rfl
@[simp] theorem State.setFw_g (s : State) (n : Nat) (c : Fw) : (s.setFw n c).g = s.g := rfl
@[simp] theorem State.setFw_t (s : State) (n : Nat) (c : Fw) : (s.setFw n c).t = s.t := rfl
@[simp] theorem State.setFw_gs (s : State) (n : Nat) (c : Fw) : (s.setFw n c).gs = s.gs := rfl
@[simp] theorem State.setFw_ts (s : State) (n : Nat) (c : Fw) : (s.setFw n c).ts = s.ts := rfl
@[simp] theorem State.setFw_mem (s : State) (n : Nat) (c : Fw) : (s.setFw n c).mem = s.mem := rfl
@[simp] theorem State.setFw_hostMem (s : State) (n : Nat) (c : Fw) : (s.setFw n c).hostMem = s.hostMem := rfl
@[simp] theorem State.setFw_poison (s : State) (n : Nat) (c : Fw) : (s.setFw n c).poison = s.poison := rfl
@[simp] theorem State.setFw_copies (s : State) (n : Nat) (c : Fw) : (s.setFw n c).copies = s.copies := rfl
@[simp] theorem State.setFw_clusters (s : State) (n : Nat) (c : Fw) : (s.setFw n c).clusters = s.clusters := rfl
@[simp] theorem State.setFw_l1s (s : State) (n : Nat) (c : Fw) : (s.setFw n c).l1s = s.l1s := rfl
@[simp] theorem State.setFw_slices (s : State) (n : Nat) (c : Fw) : (s.setFw n c).slices = s.slices := rfl
@[simp] theorem State.setFw_ctxs (s : State) (n : Nat) (c : Fw) : (s.setFw n c).ctxs = s.ctxs := rfl
@[simp] theorem State.setFw_vfs (s : State) (n : Nat) (c : Fw) : (s.setFw n c).vfs = s.vfs := rfl
@[simp] theorem State.setFw_mboxes (s : State) (n : Nat) (c : Fw) : (s.setFw n c).mboxes = s.mboxes := rfl
@[simp] theorem State.setFw_cards (s : State) (n : Nat) (c : Fw) : (s.setFw n c).cards = s.cards := rfl
@[simp] theorem State.setFw_leases (s : State) (n : Nat) (c : Fw) : (s.setFw n c).leases = s.leases := rfl
@[simp] theorem State.setFw_ckpts (s : State) (n : Nat) (c : Fw) : (s.setFw n c).ckpts = s.ckpts := rfl
@[simp] theorem State.setFw_manifests (s : State) (n : Nat) (c : Fw) : (s.setFw n c).manifests = s.manifests := rfl
@[simp] theorem State.setFw_cmask (s : State) (n : Nat) (c : Fw) : (s.setFw n c).cmask = s.cmask := rfl
@[simp] theorem State.setFw_chmask (s : State) (n : Nat) (c : Fw) : (s.setFw n c).chmask = s.chmask := rfl
@[simp] theorem State.setFw_peers (s : State) (n : Nat) (c : Fw) : (s.setFw n c).peers = s.peers := rfl
@[simp] theorem State.setFw_peerId (s : State) (n : Nat) (c : Fw) : (s.setFw n c).peerId = s.peerId := rfl
@[simp] theorem State.setFw_qpairs (s : State) (n : Nat) (c : Fw) : (s.setFw n c).qpairs = s.qpairs := rfl
@[simp] theorem State.setFw_lost (s : State) (n : Nat) (c : Fw) : (s.setFw n c).lost = s.lost := rfl
@[simp] theorem State.setFw_ports (s : State) (n : Nat) (c : Fw) : (s.setFw n c).ports = s.ports := rfl
@[simp] theorem State.setFw_snoopErr (s : State) (n : Nat) (c : Fw) : (s.setFw n c).snoopErr = s.snoopErr := rfl
@[simp] theorem State.setFw_snoopSet (s : State) (n : Nat) (c : Fw) : (s.setFw n c).snoopSet = s.snoopSet := rfl
@[simp] theorem State.setFw_snoopRec (s : State) (n : Nat) (c : Fw) : (s.setFw n c).snoopRec = s.snoopRec := rfl
@[simp] theorem State.setFw_reports (s : State) (n : Nat) (c : Fw) : (s.setFw n c).reports = s.reports := rfl
@[simp] theorem State.setFw_msix (s : State) (n : Nat) (c : Fw) : (s.setFw n c).msix = s.msix := rfl
@[simp] theorem State.setFw_spdm (s : State) (n : Nat) (c : Fw) : (s.setFw n c).spdm = s.spdm := rfl
@[simp] theorem State.setFw_linkResp (s : State) (n : Nat) (c : Fw) : (s.setFw n c).linkResp = s.linkResp := rfl
@[simp] theorem State.setFw_linkOk (s : State) (n : Nat) (c : Fw) : (s.setFw n c).linkOk = s.linkOk := rfl
@[simp] theorem State.setFw_engDone (s : State) (n : Nat) (c : Fw) : (s.setFw n c).engDone = s.engDone := rfl
@[simp] theorem State.setFw_log (s : State) (n : Nat) (c : Fw) : (s.setFw n c).log = s.log := rfl
@[simp] theorem State.setFw_nextId (s : State) (n : Nat) (c : Fw) : (s.setFw n c).nextId = s.nextId := rfl
@[simp] theorem State.setFw_kept (s : State) (n : Nat) (c : Fw) : (s.setFw n c).kept = s.kept := rfl
@[simp] theorem State.setFw_keptT (s : State) (n : Nat) (c : Fw) : (s.setFw n c).keptT = s.keptT := rfl
@[simp] theorem State.setFw_redir (s : State) (n : Nat) (c : Fw) : (s.setFw n c).redir = s.redir := rfl
@[simp] theorem State.setFw_holds (s : State) (n : Nat) (c : Fw) : (s.setFw n c).holds = s.holds := rfl
@[simp] theorem State.setFw_race (s : State) (n : Nat) (c : Fw) : (s.setFw n c).race = s.race := rfl
@[simp] theorem State.setFw_extCpyq (s : State) (n : Nat) (c : Fw) : (s.setFw n c).extCpyq = s.extCpyq := rfl
@[simp] theorem State.setFw_owed (s : State) (n : Nat) (c : Fw) : (s.setFw n c).owed = s.owed := rfl
@[simp] theorem State.setFw_logq (s : State) (n : Nat) (c : Fw) : (s.setFw n c).logq = s.logq := rfl
@[simp] theorem State.setFw_writer (s : State) (n : Nat) (c : Fw) : (s.setFw n c).writer = s.writer := rfl
@[simp] theorem State.setFw_logHeld (s : State) (n : Nat) (c : Fw) : (s.setFw n c).logHeld = s.logHeld := rfl
@[simp] theorem State.setFw_guardW (s : State) (n : Nat) (c : Fw) : (s.setFw n c).guardW = s.guardW := rfl
@[simp] theorem State.setFw_decs (s : State) (n : Nat) (c : Fw) : (s.setFw n c).decs = s.decs := rfl

end Sys2Proof.Machine
end

