-- ==== Sys2Proof/Laws/Memory.lean ====
section
/-! SUPPORT. The operations of memory: what one performed write leaves, and that each of them keeps the canonical form. -/

namespace Sys2Proof.Machine

/-! ## What a performed write leaves -/

/-- A write keeps everything but memory, poison, slots of Sinter and the frames of checkpoints. -/
theorem State.memWrite_frame (s : State) (k : Nat) (bs : List Byte) :
    { s.memWrite k bs with
      mem := s.mem, hostMem := s.hostMem, poison := s.poison, clusters := s.clusters, ckpts := s.ckpts } = s := by
  unfold State.memWrite guardRange State.clearPoison State.putBytes touchRange
  split <;> (try split) <;> rfl

@[simp] theorem State.memWrite_g (s : State) (k : Nat) (bs : List Byte) : (s.memWrite k bs).g = s.g := by
  have h := congrArg State.g (s.memWrite_frame k bs); exact h
@[simp] theorem State.memWrite_t (s : State) (k : Nat) (bs : List Byte) : (s.memWrite k bs).t = s.t := by
  have h := congrArg State.t (s.memWrite_frame k bs); exact h
@[simp] theorem State.memWrite_gs (s : State) (k : Nat) (bs : List Byte) : (s.memWrite k bs).gs = s.gs := by
  have h := congrArg State.gs (s.memWrite_frame k bs); exact h
@[simp] theorem State.memWrite_ts (s : State) (k : Nat) (bs : List Byte) : (s.memWrite k bs).ts = s.ts := by
  have h := congrArg State.ts (s.memWrite_frame k bs); exact h
@[simp] theorem State.memWrite_ctxs (s : State) (k : Nat) (bs : List Byte) : (s.memWrite k bs).ctxs = s.ctxs := by
  have h := congrArg State.ctxs (s.memWrite_frame k bs); exact h
@[simp] theorem State.memWrite_vfs (s : State) (k : Nat) (bs : List Byte) : (s.memWrite k bs).vfs = s.vfs := by
  have h := congrArg State.vfs (s.memWrite_frame k bs); exact h
@[simp] theorem State.memWrite_l1s (s : State) (k : Nat) (bs : List Byte) : (s.memWrite k bs).l1s = s.l1s := by
  have h := congrArg State.l1s (s.memWrite_frame k bs); exact h
@[simp] theorem State.memWrite_slices (s : State) (k : Nat) (bs : List Byte) : (s.memWrite k bs).slices = s.slices := by
  have h := congrArg State.slices (s.memWrite_frame k bs); exact h
@[simp] theorem State.memWrite_peers (s : State) (k : Nat) (bs : List Byte) : (s.memWrite k bs).peers = s.peers := by
  have h := congrArg State.peers (s.memWrite_frame k bs); exact h
@[simp] theorem State.memWrite_tick (s : State) (k : Nat) (bs : List Byte) : (s.memWrite k bs).tick = s.tick := by
  have h := congrArg State.tick (s.memWrite_frame k bs); exact h

/-- Putting bytes writes where the key's peer, host bit and value say. -/
theorem State.putBytes_congr (s t : State) (k : Nat) (bs : List Byte) (hm : t.mem = s.mem) (hh : t.hostMem = s.hostMem)
    (hp : t.peerOf k = s.peerOf k) :
    (t.putBytes k bs).mem = (s.putBytes k bs).mem ∧ (t.putBytes k bs).hostMem = (s.putBytes k bs).hostMem := by
  unfold State.putBytes
  rw [hm, hh, hp]
  split
  · exact ⟨hm, hh⟩
  · split
    · exact ⟨rfl, rfl⟩
    · exact ⟨rfl, rfl⟩

/-- The memories after a write are those after the bytes are put. -/
theorem State.memWrite_mems (s : State) (k : Nat) (bs : List Byte) :
    (s.memWrite k bs).mem = (s.putBytes k bs).mem ∧ (s.memWrite k bs).hostMem = (s.putBytes k bs).hostMem := by
  show (State.putBytes (touchRange s k (k + bs.length)) k bs).mem = _ ∧ (State.putBytes (touchRange s k (k + bs.length)) k bs).hostMem = _
  exact State.putBytes_congr s (touchRange s k (k + bs.length)) k bs rfl rfl rfl

/-! ## The canonical form -/

/-- A state whose memories are those of another is in canonical form with it. -/
theorem State.MemWf.congr {s t : State} (h : s.MemWf) (h1 : t.mem = s.mem) (h2 : t.hostMem = s.hostMem) : t.MemWf := by
  unfold State.MemWf at *; rw [h1, h2]; exact h

theorem State.MemWf.putBytes {s : State} (h : s.MemWf) (k : Nat) (bs : List Byte) : (s.putBytes k bs).MemWf := by
  unfold State.putBytes
  split
  · exact h
  · split
    · exact ⟨h.1, SMap.wf_setRun _ _ _ _ h.2⟩
    · exact ⟨SMap.wf_setRun _ _ _ _ h.1, h.2⟩

theorem State.MemWf.memWrite {s : State} (h : s.MemWf) (k : Nat) (bs : List Byte) : (s.memWrite k bs).MemWf :=
  (h.putBytes k bs).congr (s.memWrite_mems k bs).1 (s.memWrite_mems k bs).2

theorem State.MemWf.memWriteNat {s : State} (h : s.MemWf) (k n v : Nat) : (s.memWriteNat k n v).MemWf := h.memWrite _ _

/-- Zeroing a range of device memory keeps the form. -/
theorem State.MemWf.clear {s : State} (h : s.MemWf) (lo hi : Nat) : State.MemWf { s with mem := SMap.clear s.mem lo hi } :=
  ⟨SMap.wf_clear _ _ _ _ h.1, h.2⟩

/-- A fold of operations that keep the form keeps it. -/
theorem State.MemWf.foldl {α : Type} {f : State → α → State} (hf : ∀ s a, s.MemWf → (f s a).MemWf) (l : List α) {s : State}
    (h : s.MemWf) : (l.foldl f s).MemWf := by
  induction l generalizing s with
  | nil => exact h
  | cons a l ih => exact ih (hf s a h)

theorem State.MemWf.performDirty {s : State} (h : s.MemWf) (id : Nat) (p : Nat → Bool) : (s.performDirty id p).MemWf := by
  unfold State.performDirty
  refine State.MemWf.congr (s := List.foldl _ _ _) (State.MemWf.foldl (fun _ e hs => hs.memWrite e.1 [e.2.1]) _ ?_) rfl rfl
  exact h.congr rfl rfl

theorem State.MemWf.dropClean {s : State} (h : s.MemWf) (line : Nat) : (s.dropClean line).MemWf := h.congr rfl rfl

theorem State.MemWf.syncDup {s : State} (h : s.MemWf) (line ctx : Nat) : (s.syncDup line ctx).MemWf := by
  refine State.MemWf.foldl (fun t i ht => ?_) _ (h.dropClean _)
  have hw := (ht.memWrite (128 * line + (i + 1) * (s.ctx ctx).xb.dstride.toNat) (s.rdMemN (128 * line) 128)).dropClean
    (line + (i + 1) * (s.ctx ctx).xb.dstride.toNat / 128)
  dsimp only
  split
  · exact hw
  · exact hw.congr rfl rfl

theorem State.MemWf.ackDup {s : State} (h : s.MemWf) (id line : Nat) : (s.ackDup id line).MemWf := by
  unfold State.ackDup
  split
  · exact h
  · exact ((h.performDirty _ _).syncDup _ _).congr rfl rfl

theorem State.MemWf.writeBackL1 {s : State} (h : s.MemWf) (id : Nat) (sc : Scope) (fused : Bool) :
    (s.writeBackL1 id sc fused).MemWf := by
  have all : ∀ {t : State}, t.MemWf → (t.ackAllDup id).MemWf := fun ht =>
    State.MemWf.foldl (fun _ d hs => hs.ackDup id d.1) _ ht
  unfold State.writeBackL1
  split
  · exact h
  · split
    · exact all (h.performDirty _ _)
    · exact all h

theorem State.MemWf.scopeWriteBack {s : State} (h : s.MemWf) (sc : Scope) : (s.scopeWriteBack sc).MemWf :=
  h.writeBackL1 _ _ _

theorem State.MemWf.acquire {s : State} (h : s.MemWf) (sc : Scope) : (s.acquire sc).MemWf := by
  unfold State.acquire
  split
  · exact h.congr rfl rfl
  · exact h

theorem State.MemWf.fence {s : State} (h : s.MemWf) (k : FenceKind) (sc : Scope) : (s.fence k sc).MemWf := by
  cases k
  · exact h.acquire sc
  · exact h.scopeWriteBack sc
  · exact (h.scopeWriteBack sc).acquire sc
  · exact (h.scopeWriteBack sc).acquire sc

/-- A store stands in the L1: no byte of memory changes. -/
theorem State.MemWf.storeBytes {s : State} (h : s.MemWf) (k : Nat) (bs : List Byte) (sc : Scope) (dup : Bool) :
    (s.storeBytes k bs sc dup).MemWf := h.congr rfl rfl

theorem State.MemWf.atomicBytes {s : State} (h : s.MemWf) (k n : Nat) (o : Order) (sc : Scope) (dup : Bool) (f : Nat → Nat) :
    (s.atomicBytes k n o sc dup f).1.MemWf := by
  unfold State.atomicBytes
  dsimp only
  generalize s.keyScope k sc = sc
  have h1 : (if o = .rel || o = .ar then s.scopeWriteBack sc else s).MemWf := by
    split
    · exact h.scopeWriteBack sc
    · exact h
  generalize (if o = .rel || o = .ar then s.scopeWriteBack sc else s) = u at h1 ⊢
  split
  · have h2 : ∀ v w, (((u.performDirty u.l1Id fun x => k ≤ x && x < k + n).memWrite k v).setL1 w).MemWf :=
      fun v _ => ((h1.performDirty _ _).memWrite k v).congr rfl rfl
    split
    · exact (h2 _ _).acquire _
    · exact h2 _ _
  · exact h1.storeBytes _ _ _ _

end Sys2Proof.Machine
end

