-- ==== Sys2Proof/Laws/Ops.lean ====
section
/-! SUPPORT. What the shared operations of a word do, said once: how a word ends or parks, how an exception is taken, and
what an operation that writes memory leaves of the group. -/

namespace Sys2Proof.Machine

/-! ## The end of a control word -/

/-- Ending a control word changes the pc, the park, and what is pending; nothing of the registers. -/
theorem Group.endC_regs (g : Group) (w : Bool) (len : Nat) :
    (g.endC w len).s = g.s ∧ (g.endC w len).hb = g.hb ∧ (g.endC w len).q = g.q ∧ (g.endC w len).hq7 = g.hq7
      ∧ (g.endC w len).v = g.v ∧ (g.endC w len).m = g.m ∧ (g.endC w len).gsr = g.gsr ∧ (g.endC w len).tr = g.tr
      ∧ (g.endC w len).fmt = g.fmt ∧ (g.endC w len).mode = g.mode ∧ (g.endC w len).hs = g.hs
      ∧ (g.endC w len).pc = g.pc + BitVec.ofNat 64 len := by
  cases w
  · exact ⟨rfl, rfl, rfl, rfl, rfl, rfl, rfl, rfl, rfl, rfl, rfl, rfl⟩
  · simp only [Group.endC, if_true]
    split <;> exact ⟨rfl, rfl, rfl, rfl, rfl, rfl, rfl, rfl, rfl, rfl, rfl, rfl⟩

/-- A word without W passes the pc, and the stream is not parked. -/
@[simp] theorem Group.endC_plain (g : Group) (len : Nat) :
    g.endC false len = { g with pc := g.pc + BitVec.ofNat 64 len, park := .none, sleepEnd := none, arrived := false, waitBar := none,
                                barLost := false, heapW := {} } := rfl

/-- Ending a control word changes the group that issues only. -/
theorem State.endC_frame (s : State) (w : Bool) (len : Nat) : s.endC w len = { s with g := s.g.endC w len } := rfl

/-- A word that branches goes to its target. -/
@[simp] theorem Group.jumpC_pc (g : Group) (w : Bool) (a : DWord) : (g.jumpC w a).pc = a := rfl
@[simp] theorem Group.jumpC_regs (g : Group) (w : Bool) (a : DWord) : (g.jumpC w a).s = g.s := (g.endC_regs w 0).1

/-- A word that waits leaves everything but the park of its stream. -/
theorem State.parkC_frame (s : State) (k : ParkKind) :
    s.parkC k = { s with g := { s.g with
      park := k, parkSeq := if s.g.park = k then s.g.parkSeq else s.tick, waitBank := none } } := rfl
@[simp] theorem State.parkC_pc (s : State) (k : ParkKind) : (s.parkC k).g.pc = s.g.pc := rfl
@[simp] theorem State.parkC_mem (s : State) (k : ParkKind) : (s.parkC k).mem = s.mem := rfl

/-! ## Taking a fault -/

/-- A fault of a control word is a next state. -/
theorem faultC_next (s : State) (code addr : Nat) : ∃ t, faultC s code addr = .next t := ⟨_, rfl⟩
theorem illegalC_next (s : State) : ∃ t, illegalC s = .next t := ⟨_, rfl⟩
theorem wordFaultL_next (s : State) (sp : Split) (code : Nat) (mask : Word) : ∃ t, wordFaultL s sp code mask = .next t := ⟨_, rfl⟩

/-- Counting an event leaves the group. -/
@[simp] theorem State.countEvent_g (s : State) (ctx : Nat) (ev : Byte) (n : Nat) : (s.countEvent ctx ev n).g = s.g := by
  have fold (ns : List Nat) : ∀ s : State, (ns.foldl (fun s k => s.bumpCounter ctx k n) s).g = s.g := by
    induction ns with
    | nil => exact fun s => rfl
    | cons k ks ih => exact fun s => (ih _).trans rfl
  simp only [State.countEvent]
  split
  · rfl
  · exact fold _ s

/-- R361: handler entry: the saved pc, cause, mask and address, the mode, the handler's pc, and the user bank, which
stands. -/
theorem enterHandler_regs (s : State) (f : FaultInfo) :
    (enterHandler s f).g.hs = ⟨f.cause, f.pc, f.mask, f.addr⟩ ∧ (enterHandler s f).g.hl = f.lanes
      ∧ (enterHandler s f).g.mode = .handler ∧ (enterHandler s f).g.hb = [] ∧ (enterHandler s f).g.hq7 = false
      ∧ (enterHandler s f).g.park = .none ∧ (enterHandler s f).g.s = s.g.s ∧ (enterHandler s f).g.v = s.g.v
      ∧ (enterHandler s f).g.q = s.g.q := by
  have h : (writeScratch (s.countEvent s.g.ctx 0x0E 1)).g = s.g := by
    unfold writeScratch
    rw [State.memWrite_g, State.countEvent_g]
  simp only [enterHandler, State.mapG_g, h, FaultInfo.hsRegs, and_self]

/-- R359: the two ways of a user fault. -/
theorem takeFault_user (s : State) (f : FaultInfo) (chans : List Word) (hm : s.g.mode = .user) :
    takeFault s f chans
      = if hasHandler s then (enterHandler s f).mapG fun g => { g with hchans := if f.taken then some chans else none }
        else freezeGroup s f chans 0x40 := by
  simp [takeFault, hm]

/-- R359: a fault in handler mode is a double fault. -/
theorem takeFault_handler (s : State) (f : FaultInfo) (chans : List Word) (hm : s.g.mode = .handler) :
    takeFault s f chans = freezeGroup s f chans 0x41 := by
  simp [takeFault, hm]

/-- A frozen group is frozen. -/
theorem freezeGroup_frozen (s : State) (f : FaultInfo) (chans : List Word) (code : Byte) :
    (freezeGroup s f chans code).g.frozen = true := by
  show (if f.src = 0 then _ else _ : Group).frozen = true
  split <;> rfl

/-! ## Return -/

/-- What of a group a wake leaves: its mode and its registers. -/
def Group.bank (g : Group) : Mode × SMap Word × Bool × SMap Word × BitVec 8 × SMap Word := (g.mode, g.hb, g.hq7, g.s, g.q, g.v)

theorem Group.mapSplit_bank (g : Group) (i : Nat) (f : Split → Split) : (g.mapSplit i f).bank = g.bank := by
  unfold Group.mapSplit Group.setSplits Group.bank
  split <;> rfl

/-- R40: a wake changes no register. -/
theorem Group.wake_bank (g : Group) : g.wake.bank = g.bank := by
  have fold : ∀ (l : List Split) (g : Group), (l.foldl Group.wakeSplit g).bank = g.bank := by
    intro l
    induction l with
    | nil => exact fun _ => rfl
    | cons x l ih =>
      intro g
      rw [List.foldl_cons, ih]
      unfold Group.wakeSplit
      dsimp only
      split
      · exact Group.mapSplit_bank _ _ _
      · rfl
  unfold Group.wake
  dsimp only
  rw [fold]
  split <;> rfl

/-- R363: RETT returns to user mode with an empty handler bank; the registers of the user bank stand. -/
theorem rettGroup_regs (g : Group) :
    (rettGroup g).mode = .user ∧ (rettGroup g).hb = [] ∧ (rettGroup g).hq7 = false ∧ (rettGroup g).s = g.s
      ∧ (rettGroup g).q = g.q ∧ (rettGroup g).v = g.v := by
  have h : (rettGroup g).bank = (.user, [], false, g.s, g.q, g.v) := by
    unfold rettGroup
    dsimp only
    rw [Group.wake_bank]
    split
    · rfl
    · split
      · split <;> rfl
      · rfl
  simpa [Group.bank] using h

end Sys2Proof.Machine
end

