-- ==== Sys2Proof/Laws/PerInstr.lean ====
section
/-! SUPPORT. Per instruction: decoding undoes encoding (R74, R75, R82, R83). An event or a command has no word. -/

set_option linter.unusedSimpArgs false
set_option linter.unusedTactic false
set_option linter.unusedVariables false

namespace Sys2Proof.Laws

/-- Every word that encodes the well-formed instruction decodes to it. -/
def Codec.Statement (i : Instr) : Prop :=
  i.wf = true → (∀ x, encodeC i = some x → decodeC x = .ok i) ∧ (∀ x, encodeL i = some x → decodeL x = .ok i)

theorem Codec.ofC {i : Instr} {f : CFields} (hf : fieldsC i = some f) (hl : fieldsL i = none)
    (h : i.wf = true → decodeC f.toWord = .ok i) : Codec.Statement i := by
  intro hw
  refine ⟨fun x hx => ?_, fun x hx => ?_⟩
  · simp only [encodeC, hf, Option.map_some, Option.some.injEq] at hx
    rw [← hx]; exact h hw
  · simp [encodeL, hl] at hx

theorem Codec.ofL {i : Instr} {f : LFields} (hf : fieldsL i = some f) (hl : fieldsC i = none)
    (h : i.wf = true → decodeL f.toWord = .ok i) : Codec.Statement i := by
  intro hw
  refine ⟨fun x hx => ?_, fun x hx => ?_⟩
  · simp [encodeC, hl] at hx
  · simp only [encodeL, hf, Option.map_some, Option.some.injEq] at hx
    rw [← hx]; exact h hw

theorem Codec.ofNone {i : Instr} (hc : fieldsC i = none) (hl : fieldsL i = none) : Codec.Statement i := by
  intro _
  exact ⟨fun x hx => by simp [encodeC, hc] at hx, fun x hx => by simp [encodeL, hl] at hx⟩

theorem Codec.nop (w : Bool) : Codec.Statement (.nop w) :=
  Codec.ofC rfl rfl fun hw => decodeC_of_parse (f := cr 0 w 0 0 0 0) (by
  change (fun f : CFields => (some (.nop (isOne f.w)) : Option Instr)) (cr 0 w 0 0 0 0) = _
  try simp only [ci_i13, ci_i19, cr_i19, cb_o21]
  try simp (disch := omega) only [extract_setWidth, extract_setWidth_sub, extract_append_lo, extract_append_hi, cr, ci, cb]
  try simp) rfl hw

theorem Codec.sleep (w : Bool) (a : SReg) : Codec.Statement (.sleep w a) :=
  Codec.ofC rfl rfl fun hw => decodeC_of_parse (f := cr 0 w 0 a 0 1) (by
  change (fun f : CFields => (some (.sleep (isOne f.w) f.a) : Option Instr)) (cr 0 w 0 a 0 1) = _
  try simp only [ci_i13, ci_i19, cr_i19, cb_o21]
  try simp (disch := omega) only [extract_setWidth, extract_setWidth_sub, extract_append_lo, extract_append_hi, cr, ci, cb]
  try simp) rfl hw

theorem Codec.clock (w : Bool) (d : SReg) (a : SReg) : Codec.Statement (.clock w d a) :=
  Codec.ofC rfl rfl fun hw => decodeC_of_parse (f := cr 0 w d a 0 2) (by
  change (fun f : CFields => (some (.clock (isOne f.w) f.d f.a) : Option Instr)) (cr 0 w d a 0 2) = _
  try simp only [ci_i13, ci_i19, cr_i19, cb_o21]
  try simp (disch := omega) only [extract_setWidth, extract_setWidth_sub, extract_append_lo, extract_append_hi, cr, ci, cb]
  try simp) rfl hw

theorem Codec.query (w : Bool) (d : SReg) (a : SReg) : Codec.Statement (.query w d a) :=
  Codec.ofC rfl rfl fun hw => decodeC_of_parse (f := cr 0 w d a 0 3) (by
  change (fun f : CFields => (some (.query (isOne f.w) f.d f.a) : Option Instr)) (cr 0 w d a 0 3) = _
  try simp only [ci_i13, ci_i19, cr_i19, cb_o21]
  try simp (disch := omega) only [extract_setWidth, extract_setWidth_sub, extract_append_lo, extract_append_hi, cr, ci, cb]
  try simp) rfl hw

theorem Codec.movsr (w : Bool) (d : SReg) (i : BitVec 12) : Codec.Statement (.movsr w d i) :=
  Codec.ofC rfl rfl fun hw => decodeC_of_parse (f := cr 0 w d (i.extractLsb' 6 6) (i.extractLsb' 0 6) 4) (by
  change (fun f : CFields => (some (.movsr (isOne f.w) f.d (f.a ++ f.b)) : Option Instr)) (cr 0 w d (i.extractLsb' 6 6) (i.extractLsb' 0 6) 4) = _
  try simp only [ci_i13, ci_i19, cr_i19, cb_o21]
  try simp (disch := omega) only [extract_setWidth, extract_setWidth_sub, extract_append_lo, extract_append_hi, cr, ci, cb]
  try simp) rfl hw

theorem Codec.add (w : Bool) (d : SReg) (a : SReg) (b : SReg) : Codec.Statement (.add w d a b) :=
  Codec.ofC rfl rfl fun hw => decodeC_of_parse (f := cr 1 w d a b 0) (by
  change (fun f : CFields => (some (.add (isOne f.w) f.d f.a f.b) : Option Instr)) (cr 1 w d a b 0) = _
  try simp only [ci_i13, ci_i19, cr_i19, cb_o21]
  try simp (disch := omega) only [extract_setWidth, extract_setWidth_sub, extract_append_lo, extract_append_hi, cr, ci, cb]
  try simp) rfl hw

theorem Codec.sub (w : Bool) (d : SReg) (a : SReg) (b : SReg) : Codec.Statement (.sub w d a b) :=
  Codec.ofC rfl rfl fun hw => decodeC_of_parse (f := cr 1 w d a b 1) (by
  change (fun f : CFields => (some (.sub (isOne f.w) f.d f.a f.b) : Option Instr)) (cr 1 w d a b 1) = _
  try simp only [ci_i13, ci_i19, cr_i19, cb_o21]
  try simp (disch := omega) only [extract_setWidth, extract_setWidth_sub, extract_append_lo, extract_append_hi, cr, ci, cb]
  try simp) rfl hw

theorem Codec.mul (w : Bool) (d : SReg) (a : SReg) (b : SReg) : Codec.Statement (.mul w d a b) :=
  Codec.ofC rfl rfl fun hw => decodeC_of_parse (f := cr 1 w d a b 2) (by
  change (fun f : CFields => (some (.mul (isOne f.w) f.d f.a f.b) : Option Instr)) (cr 1 w d a b 2) = _
  try simp only [ci_i13, ci_i19, cr_i19, cb_o21]
  try simp (disch := omega) only [extract_setWidth, extract_setWidth_sub, extract_append_lo, extract_append_hi, cr, ci, cb]
  try simp) rfl hw

theorem Codec.mulhs (w : Bool) (d : SReg) (a : SReg) (b : SReg) : Codec.Statement (.mulhs w d a b) :=
  Codec.ofC rfl rfl fun hw => decodeC_of_parse (f := cr 1 w d a b 3) (by
  change (fun f : CFields => (some (.mulhs (isOne f.w) f.d f.a f.b) : Option Instr)) (cr 1 w d a b 3) = _
  try simp only [ci_i13, ci_i19, cr_i19, cb_o21]
  try simp (disch := omega) only [extract_setWidth, extract_setWidth_sub, extract_append_lo, extract_append_hi, cr, ci, cb]
  try simp) rfl hw

theorem Codec.mulhn (w : Bool) (d : SReg) (a : SReg) (b : SReg) : Codec.Statement (.mulhn w d a b) :=
  Codec.ofC rfl rfl fun hw => decodeC_of_parse (f := cr 1 w d a b 4) (by
  change (fun f : CFields => (some (.mulhn (isOne f.w) f.d f.a f.b) : Option Instr)) (cr 1 w d a b 4) = _
  try simp only [ci_i13, ci_i19, cr_i19, cb_o21]
  try simp (disch := omega) only [extract_setWidth, extract_setWidth_sub, extract_append_lo, extract_append_hi, cr, ci, cb]
  try simp) rfl hw

theorem Codec.divs (w : Bool) (d : SReg) (a : SReg) (b : SReg) : Codec.Statement (.divs w d a b) :=
  Codec.ofC rfl rfl fun hw => decodeC_of_parse (f := cr 1 w d a b 5) (by
  change (fun f : CFields => (some (.divs (isOne f.w) f.d f.a f.b) : Option Instr)) (cr 1 w d a b 5) = _
  try simp only [ci_i13, ci_i19, cr_i19, cb_o21]
  try simp (disch := omega) only [extract_setWidth, extract_setWidth_sub, extract_append_lo, extract_append_hi, cr, ci, cb]
  try simp) rfl hw

theorem Codec.divn (w : Bool) (d : SReg) (a : SReg) (b : SReg) : Codec.Statement (.divn w d a b) :=
  Codec.ofC rfl rfl fun hw => decodeC_of_parse (f := cr 1 w d a b 6) (by
  change (fun f : CFields => (some (.divn (isOne f.w) f.d f.a f.b) : Option Instr)) (cr 1 w d a b 6) = _
  try simp only [ci_i13, ci_i19, cr_i19, cb_o21]
  try simp (disch := omega) only [extract_setWidth, extract_setWidth_sub, extract_append_lo, extract_append_hi, cr, ci, cb]
  try simp) rfl hw

theorem Codec.rems (w : Bool) (d : SReg) (a : SReg) (b : SReg) : Codec.Statement (.rems w d a b) :=
  Codec.ofC rfl rfl fun hw => decodeC_of_parse (f := cr 1 w d a b 7) (by
  change (fun f : CFields => (some (.rems (isOne f.w) f.d f.a f.b) : Option Instr)) (cr 1 w d a b 7) = _
  try simp only [ci_i13, ci_i19, cr_i19, cb_o21]
  try simp (disch := omega) only [extract_setWidth, extract_setWidth_sub, extract_append_lo, extract_append_hi, cr, ci, cb]
  try simp) rfl hw

theorem Codec.remn (w : Bool) (d : SReg) (a : SReg) (b : SReg) : Codec.Statement (.remn w d a b) :=
  Codec.ofC rfl rfl fun hw => decodeC_of_parse (f := cr 1 w d a b 8) (by
  change (fun f : CFields => (some (.remn (isOne f.w) f.d f.a f.b) : Option Instr)) (cr 1 w d a b 8) = _
  try simp only [ci_i13, ci_i19, cr_i19, cb_o21]
  try simp (disch := omega) only [extract_setWidth, extract_setWidth_sub, extract_append_lo, extract_append_hi, cr, ci, cb]
  try simp) rfl hw

theorem Codec.and (w : Bool) (d : SReg) (a : SReg) (b : SReg) : Codec.Statement (.and w d a b) :=
  Codec.ofC rfl rfl fun hw => decodeC_of_parse (f := cr 1 w d a b 9) (by
  change (fun f : CFields => (some (.and (isOne f.w) f.d f.a f.b) : Option Instr)) (cr 1 w d a b 9) = _
  try simp only [ci_i13, ci_i19, cr_i19, cb_o21]
  try simp (disch := omega) only [extract_setWidth, extract_setWidth_sub, extract_append_lo, extract_append_hi, cr, ci, cb]
  try simp) rfl hw

theorem Codec.or (w : Bool) (d : SReg) (a : SReg) (b : SReg) : Codec.Statement (.or w d a b) :=
  Codec.ofC rfl rfl fun hw => decodeC_of_parse (f := cr 1 w d a b 10) (by
  change (fun f : CFields => (some (.or (isOne f.w) f.d f.a f.b) : Option Instr)) (cr 1 w d a b 10) = _
  try simp only [ci_i13, ci_i19, cr_i19, cb_o21]
  try simp (disch := omega) only [extract_setWidth, extract_setWidth_sub, extract_append_lo, extract_append_hi, cr, ci, cb]
  try simp) rfl hw

theorem Codec.xor (w : Bool) (d : SReg) (a : SReg) (b : SReg) : Codec.Statement (.xor w d a b) :=
  Codec.ofC rfl rfl fun hw => decodeC_of_parse (f := cr 1 w d a b 11) (by
  change (fun f : CFields => (some (.xor (isOne f.w) f.d f.a f.b) : Option Instr)) (cr 1 w d a b 11) = _
  try simp only [ci_i13, ci_i19, cr_i19, cb_o21]
  try simp (disch := omega) only [extract_setWidth, extract_setWidth_sub, extract_append_lo, extract_append_hi, cr, ci, cb]
  try simp) rfl hw

theorem Codec.andn (w : Bool) (d : SReg) (a : SReg) (b : SReg) : Codec.Statement (.andn w d a b) :=
  Codec.ofC rfl rfl fun hw => decodeC_of_parse (f := cr 1 w d a b 12) (by
  change (fun f : CFields => (some (.andn (isOne f.w) f.d f.a f.b) : Option Instr)) (cr 1 w d a b 12) = _
  try simp only [ci_i13, ci_i19, cr_i19, cb_o21]
  try simp (disch := omega) only [extract_setWidth, extract_setWidth_sub, extract_append_lo, extract_append_hi, cr, ci, cb]
  try simp) rfl hw

theorem Codec.shl (w : Bool) (d : SReg) (a : SReg) (b : SReg) : Codec.Statement (.shl w d a b) :=
  Codec.ofC rfl rfl fun hw => decodeC_of_parse (f := cr 1 w d a b 13) (by
  change (fun f : CFields => (some (.shl (isOne f.w) f.d f.a f.b) : Option Instr)) (cr 1 w d a b 13) = _
  try simp only [ci_i13, ci_i19, cr_i19, cb_o21]
  try simp (disch := omega) only [extract_setWidth, extract_setWidth_sub, extract_append_lo, extract_append_hi, cr, ci, cb]
  try simp) rfl hw

theorem Codec.shr (w : Bool) (d : SReg) (a : SReg) (b : SReg) : Codec.Statement (.shr w d a b) :=
  Codec.ofC rfl rfl fun hw => decodeC_of_parse (f := cr 1 w d a b 14) (by
  change (fun f : CFields => (some (.shr (isOne f.w) f.d f.a f.b) : Option Instr)) (cr 1 w d a b 14) = _
  try simp only [ci_i13, ci_i19, cr_i19, cb_o21]
  try simp (disch := omega) only [extract_setWidth, extract_setWidth_sub, extract_append_lo, extract_append_hi, cr, ci, cb]
  try simp) rfl hw

theorem Codec.sar (w : Bool) (d : SReg) (a : SReg) (b : SReg) : Codec.Statement (.sar w d a b) :=
  Codec.ofC rfl rfl fun hw => decodeC_of_parse (f := cr 1 w d a b 15) (by
  change (fun f : CFields => (some (.sar (isOne f.w) f.d f.a f.b) : Option Instr)) (cr 1 w d a b 15) = _
  try simp only [ci_i13, ci_i19, cr_i19, cb_o21]
  try simp (disch := omega) only [extract_setWidth, extract_setWidth_sub, extract_append_lo, extract_append_hi, cr, ci, cb]
  try simp) rfl hw

theorem Codec.rotl (w : Bool) (d : SReg) (a : SReg) (b : SReg) : Codec.Statement (.rotl w d a b) :=
  Codec.ofC rfl rfl fun hw => decodeC_of_parse (f := cr 1 w d a b 16) (by
  change (fun f : CFields => (some (.rotl (isOne f.w) f.d f.a f.b) : Option Instr)) (cr 1 w d a b 16) = _
  try simp only [ci_i13, ci_i19, cr_i19, cb_o21]
  try simp (disch := omega) only [extract_setWidth, extract_setWidth_sub, extract_append_lo, extract_append_hi, cr, ci, cb]
  try simp) rfl hw

theorem Codec.mins (w : Bool) (d : SReg) (a : SReg) (b : SReg) : Codec.Statement (.mins w d a b) :=
  Codec.ofC rfl rfl fun hw => decodeC_of_parse (f := cr 1 w d a b 17) (by
  change (fun f : CFields => (some (.mins (isOne f.w) f.d f.a f.b) : Option Instr)) (cr 1 w d a b 17) = _
  try simp only [ci_i13, ci_i19, cr_i19, cb_o21]
  try simp (disch := omega) only [extract_setWidth, extract_setWidth_sub, extract_append_lo, extract_append_hi, cr, ci, cb]
  try simp) rfl hw

theorem Codec.maxs (w : Bool) (d : SReg) (a : SReg) (b : SReg) : Codec.Statement (.maxs w d a b) :=
  Codec.ofC rfl rfl fun hw => decodeC_of_parse (f := cr 1 w d a b 18) (by
  change (fun f : CFields => (some (.maxs (isOne f.w) f.d f.a f.b) : Option Instr)) (cr 1 w d a b 18) = _
  try simp only [ci_i13, ci_i19, cr_i19, cb_o21]
  try simp (disch := omega) only [extract_setWidth, extract_setWidth_sub, extract_append_lo, extract_append_hi, cr, ci, cb]
  try simp) rfl hw

theorem Codec.minn (w : Bool) (d : SReg) (a : SReg) (b : SReg) : Codec.Statement (.minn w d a b) :=
  Codec.ofC rfl rfl fun hw => decodeC_of_parse (f := cr 1 w d a b 19) (by
  change (fun f : CFields => (some (.minn (isOne f.w) f.d f.a f.b) : Option Instr)) (cr 1 w d a b 19) = _
  try simp only [ci_i13, ci_i19, cr_i19, cb_o21]
  try simp (disch := omega) only [extract_setWidth, extract_setWidth_sub, extract_append_lo, extract_append_hi, cr, ci, cb]
  try simp) rfl hw

theorem Codec.maxn (w : Bool) (d : SReg) (a : SReg) (b : SReg) : Codec.Statement (.maxn w d a b) :=
  Codec.ofC rfl rfl fun hw => decodeC_of_parse (f := cr 1 w d a b 20) (by
  change (fun f : CFields => (some (.maxn (isOne f.w) f.d f.a f.b) : Option Instr)) (cr 1 w d a b 20) = _
  try simp only [ci_i13, ci_i19, cr_i19, cb_o21]
  try simp (disch := omega) only [extract_setWidth, extract_setWidth_sub, extract_append_lo, extract_append_hi, cr, ci, cb]
  try simp) rfl hw

theorem Codec.clz (w : Bool) (d : SReg) (a : SReg) : Codec.Statement (.clz w d a) :=
  Codec.ofC rfl rfl fun hw => decodeC_of_parse (f := cr 1 w d a 0 21) (by
  change (fun f : CFields => (some (.clz (isOne f.w) f.d f.a) : Option Instr)) (cr 1 w d a 0 21) = _
  try simp only [ci_i13, ci_i19, cr_i19, cb_o21]
  try simp (disch := omega) only [extract_setWidth, extract_setWidth_sub, extract_append_lo, extract_append_hi, cr, ci, cb]
  try simp) rfl hw

theorem Codec.popc (w : Bool) (d : SReg) (a : SReg) : Codec.Statement (.popc w d a) :=
  Codec.ofC rfl rfl fun hw => decodeC_of_parse (f := cr 1 w d a 0 22) (by
  change (fun f : CFields => (some (.popc (isOne f.w) f.d f.a) : Option Instr)) (cr 1 w d a 0 22) = _
  try simp only [ci_i13, ci_i19, cr_i19, cb_o21]
  try simp (disch := omega) only [extract_setWidth, extract_setWidth_sub, extract_append_lo, extract_append_hi, cr, ci, cb]
  try simp) rfl hw

theorem Codec.brev (w : Bool) (d : SReg) (a : SReg) : Codec.Statement (.brev w d a) :=
  Codec.ofC rfl rfl fun hw => decodeC_of_parse (f := cr 1 w d a 0 23) (by
  change (fun f : CFields => (some (.brev (isOne f.w) f.d f.a) : Option Instr)) (cr 1 w d a 0 23) = _
  try simp only [ci_i13, ci_i19, cr_i19, cb_o21]
  try simp (disch := omega) only [extract_setWidth, extract_setWidth_sub, extract_append_lo, extract_append_hi, cr, ci, cb]
  try simp) rfl hw

theorem Codec.sel (w : Bool) (d : SReg) (a : SReg) (n : Bool) (q : QReg) : Codec.Statement (.sel w d a n q) :=
  Codec.ofC rfl rfl fun hw => decodeC_of_parse (f := cr 1 w d a (z6 (bit1 n ++ q)) 24) (by
  change (fun f : CFields => (some (.sel (isOne f.w) f.d f.a (isOne (f.b.extractLsb' 3 1)) (f.b.extractLsb' 0 3)) : Option Instr)) (cr 1 w d a (z6 (bit1 n ++ q)) 24) = _
  try simp only [ci_i13, ci_i19, cr_i19, cb_o21]
  try simp (disch := omega) only [extract_setWidth, extract_setWidth_sub, extract_append_lo, extract_append_hi, cr, ci, cb]
  try simp) rfl hw

theorem Codec.addi (w : Bool) (d : SReg) (a : SReg) (i : BitVec 13) : Codec.Statement (.addi w d a i) :=
  Codec.ofC rfl rfl fun hw => decodeC_of_parse (f := ci 2 w d a i) (by
  change (fun f : CFields => (some (.addi (isOne f.w) f.d f.a f.i13) : Option Instr)) (ci 2 w d a i) = _
  try simp only [ci_i13, ci_i19, cr_i19, cb_o21]
  try simp (disch := omega) only [extract_setWidth, extract_setWidth_sub, extract_append_lo, extract_append_hi, cr, ci, cb]
  try simp) rfl hw

theorem Codec.muli (w : Bool) (d : SReg) (a : SReg) (i : BitVec 13) : Codec.Statement (.muli w d a i) :=
  Codec.ofC rfl rfl fun hw => decodeC_of_parse (f := ci 3 w d a i) (by
  change (fun f : CFields => (some (.muli (isOne f.w) f.d f.a f.i13) : Option Instr)) (ci 3 w d a i) = _
  try simp only [ci_i13, ci_i19, cr_i19, cb_o21]
  try simp (disch := omega) only [extract_setWidth, extract_setWidth_sub, extract_append_lo, extract_append_hi, cr, ci, cb]
  try simp) rfl hw

theorem Codec.andi (w : Bool) (d : SReg) (a : SReg) (i : BitVec 13) : Codec.Statement (.andi w d a i) :=
  Codec.ofC rfl rfl fun hw => decodeC_of_parse (f := ci 4 w d a i) (by
  change (fun f : CFields => (some (.andi (isOne f.w) f.d f.a f.i13) : Option Instr)) (ci 4 w d a i) = _
  try simp only [ci_i13, ci_i19, cr_i19, cb_o21]
  try simp (disch := omega) only [extract_setWidth, extract_setWidth_sub, extract_append_lo, extract_append_hi, cr, ci, cb]
  try simp) rfl hw

theorem Codec.ori (w : Bool) (d : SReg) (a : SReg) (i : BitVec 13) : Codec.Statement (.ori w d a i) :=
  Codec.ofC rfl rfl fun hw => decodeC_of_parse (f := ci 5 w d a i) (by
  change (fun f : CFields => (some (.ori (isOne f.w) f.d f.a f.i13) : Option Instr)) (ci 5 w d a i) = _
  try simp only [ci_i13, ci_i19, cr_i19, cb_o21]
  try simp (disch := omega) only [extract_setWidth, extract_setWidth_sub, extract_append_lo, extract_append_hi, cr, ci, cb]
  try simp) rfl hw

theorem Codec.xori (w : Bool) (d : SReg) (a : SReg) (i : BitVec 13) : Codec.Statement (.xori w d a i) :=
  Codec.ofC rfl rfl fun hw => decodeC_of_parse (f := ci 6 w d a i) (by
  change (fun f : CFields => (some (.xori (isOne f.w) f.d f.a f.i13) : Option Instr)) (ci 6 w d a i) = _
  try simp only [ci_i13, ci_i19, cr_i19, cb_o21]
  try simp (disch := omega) only [extract_setWidth, extract_setWidth_sub, extract_append_lo, extract_append_hi, cr, ci, cb]
  try simp) rfl hw

theorem Codec.shi (w : Bool) (d : SReg) (a : SReg) (o : ShiftKind) (n : BitVec 5) : Codec.Statement (.shi w d a o n) :=
  Codec.ofC rfl rfl fun hw => decodeC_of_parse (f := ci 7 w d a (o.code ++ (0 : BitVec 6) ++ n)) (by
  change (fun f : CFields => ((ShiftKind.ofCode (f.i13.extractLsb' 11 2)).map fun o => .shi (isOne f.w) f.d f.a o (f.i13.extractLsb' 0 5) : Option Instr)) (ci 7 w d a (o.code ++ (0 : BitVec 6) ++ n)) = _
  try simp only [ci_i13, ci_i19, cr_i19, cb_o21]
  try simp (disch := omega) only [extract_setWidth, extract_setWidth_sub, extract_append_lo, extract_append_hi, cr, ci, cb]
  try simp) rfl hw

theorem Codec.movi (w : Bool) (d : SReg) (i : BitVec 19) : Codec.Statement (.movi w d i) :=
  Codec.ofC rfl rfl fun hw => decodeC_of_parse (f := ci 8 w d (i.extractLsb' 13 6) (i.extractLsb' 0 13)) (by
  change (fun f : CFields => (some (.movi (isOne f.w) f.d f.i19) : Option Instr)) (ci 8 w d (i.extractLsb' 13 6) (i.extractLsb' 0 13)) = _
  try simp only [ci_i13, ci_i19, cr_i19, cb_o21]
  try simp (disch := omega) only [extract_setWidth, extract_setWidth_sub, extract_append_lo, extract_append_hi, cr, ci, cb]
  try simp) rfl hw

theorem Codec.movhi (w : Bool) (d : SReg) (i : BitVec 16) : Codec.Statement (.movhi w d i) :=
  Codec.ofC rfl rfl fun hw => decodeC_of_parse (f := ci 9 w d (z6 (i.extractLsb' 13 3)) (i.extractLsb' 0 13)) (by
  change (fun f : CFields => (some (.movhi (isOne f.w) f.d (f.a.extractLsb' 0 3 ++ f.i13)) : Option Instr)) (ci 9 w d (z6 (i.extractLsb' 13 3)) (i.extractLsb' 0 13)) = _
  try simp only [ci_i13, ci_i19, cr_i19, cb_o21]
  try simp (disch := omega) only [extract_setWidth, extract_setWidth_sub, extract_append_lo, extract_append_hi, cr, ci, cb]
  try simp) rfl hw

theorem Codec.cmp (w : Bool) (q : QReg) (a : SReg) (b : SReg) (c : Cond) : Codec.Statement (.cmp w q a b c) :=
  Codec.ofC rfl rfl fun hw => decodeC_of_parse (f := cr 10 w (z6 q) a b c.code) (by
  change (fun f : CFields => ((Cond.ofCode f.fn).map fun c => .cmp (isOne f.w) (f.d.extractLsb' 0 3) f.a f.b c : Option Instr)) (cr 10 w (z6 q) a b c.code) = _
  try simp only [ci_i13, ci_i19, cr_i19, cb_o21]
  try simp (disch := omega) only [extract_setWidth, extract_setWidth_sub, extract_append_lo, extract_append_hi, cr, ci, cb]
  try simp) rfl hw

theorem Codec.cmpi (w : Bool) (c : Cond) (q : QReg) (a : SReg) (i : BitVec 13) : Codec.Statement (.cmpi w c q a i) :=
  Codec.ofC rfl rfl fun hw => decodeC_of_parse (f := ci 11 w (c.code.extractLsb' 0 3 ++ q) a i) (by
  change (fun f : CFields => ((Cond.ofCode (f.d.extractLsb' 3 3 |>.setWidth 7)).map fun c => .cmpi (isOne f.w) c (f.d.extractLsb' 0 3) f.a f.i13 : Option Instr)) (ci 11 w (c.code.extractLsb' 0 3 ++ q) a i) = _
  try simp only [ci_i13, ci_i19, cr_i19, cb_o21]
  try simp (disch := omega) only [extract_setWidth, extract_setWidth_sub, extract_append_lo, extract_append_hi, cr, ci, cb]
  simp only [Instr.wf] at hw
  cases c <;> first | (exact absurd hw (by decide)) | simp [Cond.code, Cond.ofCode]) rfl hw

theorem Codec.add64 (w : Bool) (d : SReg) (a : SReg) (b : SReg) : Codec.Statement (.add64 w d a b) :=
  Codec.ofC rfl rfl fun hw => decodeC_of_parse (f := cr 12 w d a b 0) (by
  change (fun f : CFields => (some (.add64 (isOne f.w) f.d f.a f.b) : Option Instr)) (cr 12 w d a b 0) = _
  try simp only [ci_i13, ci_i19, cr_i19, cb_o21]
  try simp (disch := omega) only [extract_setWidth, extract_setWidth_sub, extract_append_lo, extract_append_hi, cr, ci, cb]
  try simp) rfl hw

theorem Codec.sub64 (w : Bool) (d : SReg) (a : SReg) (b : SReg) : Codec.Statement (.sub64 w d a b) :=
  Codec.ofC rfl rfl fun hw => decodeC_of_parse (f := cr 12 w d a b 1) (by
  change (fun f : CFields => (some (.sub64 (isOne f.w) f.d f.a f.b) : Option Instr)) (cr 12 w d a b 1) = _
  try simp only [ci_i13, ci_i19, cr_i19, cb_o21]
  try simp (disch := omega) only [extract_setWidth, extract_setWidth_sub, extract_append_lo, extract_append_hi, cr, ci, cb]
  try simp) rfl hw

theorem Codec.mul64 (w : Bool) (d : SReg) (a : SReg) (b : SReg) : Codec.Statement (.mul64 w d a b) :=
  Codec.ofC rfl rfl fun hw => decodeC_of_parse (f := cr 12 w d a b 2) (by
  change (fun f : CFields => (some (.mul64 (isOne f.w) f.d f.a f.b) : Option Instr)) (cr 12 w d a b 2) = _
  try simp only [ci_i13, ci_i19, cr_i19, cb_o21]
  try simp (disch := omega) only [extract_setWidth, extract_setWidth_sub, extract_append_lo, extract_append_hi, cr, ci, cb]
  try simp) rfl hw

theorem Codec.add128 (w : Bool) (d : SReg) (a : SReg) (b : SReg) : Codec.Statement (.add128 w d a b) :=
  Codec.ofC rfl rfl fun hw => decodeC_of_parse (f := cr 12 w d a b 3) (by
  change (fun f : CFields => (some (.add128 (isOne f.w) f.d f.a f.b) : Option Instr)) (cr 12 w d a b 3) = _
  try simp only [ci_i13, ci_i19, cr_i19, cb_o21]
  try simp (disch := omega) only [extract_setWidth, extract_setWidth_sub, extract_append_lo, extract_append_hi, cr, ci, cb]
  try simp) rfl hw

theorem Codec.shl64 (w : Bool) (d : SReg) (a : SReg) (b : SReg) : Codec.Statement (.shl64 w d a b) :=
  Codec.ofC rfl rfl fun hw => decodeC_of_parse (f := cr 12 w d a b 4) (by
  change (fun f : CFields => (some (.shl64 (isOne f.w) f.d f.a f.b) : Option Instr)) (cr 12 w d a b 4) = _
  try simp only [ci_i13, ci_i19, cr_i19, cb_o21]
  try simp (disch := omega) only [extract_setWidth, extract_setWidth_sub, extract_append_lo, extract_append_hi, cr, ci, cb]
  try simp) rfl hw

theorem Codec.shr64 (w : Bool) (d : SReg) (a : SReg) (b : SReg) : Codec.Statement (.shr64 w d a b) :=
  Codec.ofC rfl rfl fun hw => decodeC_of_parse (f := cr 12 w d a b 5) (by
  change (fun f : CFields => (some (.shr64 (isOne f.w) f.d f.a f.b) : Option Instr)) (cr 12 w d a b 5) = _
  try simp only [ci_i13, ci_i19, cr_i19, cb_o21]
  try simp (disch := omega) only [extract_setWidth, extract_setWidth_sub, extract_append_lo, extract_append_hi, cr, ci, cb]
  try simp) rfl hw

theorem Codec.bfx (w : Bool) (a : SReg) (b : SReg) (c : SReg) : Codec.Statement (.bfx w a b c) :=
  Codec.ofC rfl rfl fun hw => decodeC_of_parse (f := cr 13 w a b c 0) (by
  change (fun f : CFields => (some (.bfx (isOne f.w) f.d f.a f.b) : Option Instr)) (cr 13 w a b c 0) = _
  try simp only [ci_i13, ci_i19, cr_i19, cb_o21]
  try simp (disch := omega) only [extract_setWidth, extract_setWidth_sub, extract_append_lo, extract_append_hi, cr, ci, cb]
  try simp) rfl hw

theorem Codec.bfi (w : Bool) (a : SReg) (b : SReg) (c : SReg) : Codec.Statement (.bfi w a b c) :=
  Codec.ofC rfl rfl fun hw => decodeC_of_parse (f := cr 13 w a b c 1) (by
  change (fun f : CFields => (some (.bfi (isOne f.w) f.d f.a f.b) : Option Instr)) (cr 13 w a b c 1) = _
  try simp only [ci_i13, ci_i19, cr_i19, cb_o21]
  try simp (disch := omega) only [extract_setWidth, extract_setWidth_sub, extract_append_lo, extract_append_hi, cr, ci, cb]
  try simp) rfl hw

theorem Codec.qand (w : Bool) (a : QReg) (n : Bool) (b : QReg) (m : Bool) (c : QReg) : Codec.Statement (.qand w a n b m c) :=
  Codec.ofC rfl rfl fun hw => decodeC_of_parse (f := cr 13 w (z6 a) (z6 (bit1 n ++ b)) (z6 (bit1 m ++ c)) 2) (by
  change (fun f : CFields => (some (.qand (isOne f.w) (f.d.extractLsb' 0 3) (isOne (f.a.extractLsb' 3 1)) (f.a.extractLsb' 0 3) (isOne (f.b.extractLsb' 3 1)) (f.b.extractLsb' 0 3)) : Option Instr)) (cr 13 w (z6 a) (z6 (bit1 n ++ b)) (z6 (bit1 m ++ c)) 2) = _
  try simp only [ci_i13, ci_i19, cr_i19, cb_o21]
  try simp (disch := omega) only [extract_setWidth, extract_setWidth_sub, extract_append_lo, extract_append_hi, cr, ci, cb]
  try simp) rfl hw

theorem Codec.qor (w : Bool) (a : QReg) (n : Bool) (b : QReg) (m : Bool) (c : QReg) : Codec.Statement (.qor w a n b m c) :=
  Codec.ofC rfl rfl fun hw => decodeC_of_parse (f := cr 13 w (z6 a) (z6 (bit1 n ++ b)) (z6 (bit1 m ++ c)) 3) (by
  change (fun f : CFields => (some (.qor (isOne f.w) (f.d.extractLsb' 0 3) (isOne (f.a.extractLsb' 3 1)) (f.a.extractLsb' 0 3) (isOne (f.b.extractLsb' 3 1)) (f.b.extractLsb' 0 3)) : Option Instr)) (cr 13 w (z6 a) (z6 (bit1 n ++ b)) (z6 (bit1 m ++ c)) 3) = _
  try simp only [ci_i13, ci_i19, cr_i19, cb_o21]
  try simp (disch := omega) only [extract_setWidth, extract_setWidth_sub, extract_append_lo, extract_append_hi, cr, ci, cb]
  try simp) rfl hw

theorem Codec.qxor (w : Bool) (a : QReg) (n : Bool) (b : QReg) (m : Bool) (c : QReg) : Codec.Statement (.qxor w a n b m c) :=
  Codec.ofC rfl rfl fun hw => decodeC_of_parse (f := cr 13 w (z6 a) (z6 (bit1 n ++ b)) (z6 (bit1 m ++ c)) 4) (by
  change (fun f : CFields => (some (.qxor (isOne f.w) (f.d.extractLsb' 0 3) (isOne (f.a.extractLsb' 3 1)) (f.a.extractLsb' 0 3) (isOne (f.b.extractLsb' 3 1)) (f.b.extractLsb' 0 3)) : Option Instr)) (cr 13 w (z6 a) (z6 (bit1 n ++ b)) (z6 (bit1 m ++ c)) 4) = _
  try simp only [ci_i13, ci_i19, cr_i19, cb_o21]
  try simp (disch := omega) only [extract_setWidth, extract_setWidth_sub, extract_append_lo, extract_append_hi, cr, ci, cb]
  try simp) rfl hw

theorem Codec.qnot (w : Bool) (a : QReg) (b : QReg) : Codec.Statement (.qnot w a b) :=
  Codec.ofC rfl rfl fun hw => decodeC_of_parse (f := cr 13 w (z6 a) (z6 b) 0 5) (by
  change (fun f : CFields => (some (.qnot (isOne f.w) (f.d.extractLsb' 0 3) (f.a.extractLsb' 0 3)) : Option Instr)) (cr 13 w (z6 a) (z6 b) 0 5) = _
  try simp only [ci_i13, ci_i19, cr_i19, cb_o21]
  try simp (disch := omega) only [extract_setWidth, extract_setWidth_sub, extract_append_lo, extract_append_hi, cr, ci, cb]
  try simp) rfl hw

theorem Codec.br (w : Bool) (o : BitVec 21) : Codec.Statement (.br w o) :=
  Codec.ofC rfl rfl fun hw => decodeC_of_parse (f := cb 16 w 0 false o) (by
  change (fun f : CFields => (some (.br (isOne f.w) f.o21) : Option Instr)) (cb 16 w 0 false o) = _
  try simp only [ci_i13, ci_i19, cr_i19, cb_o21]
  try simp (disch := omega) only [extract_setWidth, extract_setWidth_sub, extract_append_lo, extract_append_hi, cr, ci, cb]
  try simp) rfl hw

theorem Codec.brq (w : Bool) (q : QReg) (sense : Bool) (o : BitVec 21) : Codec.Statement (.brq w q sense o) :=
  Codec.ofC rfl rfl fun hw => decodeC_of_parse (f := cb 17 w q sense o) (by
  change (fun f : CFields => (some (.brq (isOne f.w) (f.d.extractLsb' 3 3) (isOne (f.d.extractLsb' 2 1)) f.o21) : Option Instr)) (cb 17 w q sense o) = _
  try simp only [ci_i13, ci_i19, cr_i19, cb_o21]
  try simp (disch := omega) only [extract_setWidth, extract_setWidth_sub, extract_append_lo, extract_append_hi, cr, ci, cb]
  try simp) rfl hw

theorem Codec.call (w : Bool) (o : BitVec 21) : Codec.Statement (.call w o) :=
  Codec.ofC rfl rfl fun hw => decodeC_of_parse (f := cb 18 w 0 false o) (by
  change (fun f : CFields => (some (.call (isOne f.w) f.o21) : Option Instr)) (cb 18 w 0 false o) = _
  try simp only [ci_i13, ci_i19, cr_i19, cb_o21]
  try simp (disch := omega) only [extract_setWidth, extract_setWidth_sub, extract_append_lo, extract_append_hi, cr, ci, cb]
  try simp) rfl hw

theorem Codec.jmpi (w : Bool) (a : SReg) : Codec.Statement (.jmpi w a) :=
  Codec.ofC rfl rfl fun hw => decodeC_of_parse (f := cr 19 w 0 a 0 0) (by
  change (fun f : CFields => (some (.jmpi (isOne f.w) f.a) : Option Instr)) (cr 19 w 0 a 0 0) = _
  try simp only [ci_i13, ci_i19, cr_i19, cb_o21]
  try simp (disch := omega) only [extract_setWidth, extract_setWidth_sub, extract_append_lo, extract_append_hi, cr, ci, cb]
  try simp) rfl hw

theorem Codec.calli (w : Bool) (d : SReg) (a : SReg) : Codec.Statement (.calli w d a) :=
  Codec.ofC rfl rfl fun hw => decodeC_of_parse (f := cr 19 w d a 0 1) (by
  change (fun f : CFields => (some (.calli (isOne f.w) f.d f.a) : Option Instr)) (cr 19 w d a 0 1) = _
  try simp only [ci_i13, ci_i19, cr_i19, cb_o21]
  try simp (disch := omega) only [extract_setWidth, extract_setWidth_sub, extract_append_lo, extract_append_hi, cr, ci, cb]
  try simp) rfl hw

theorem Codec.ret (w : Bool) (a : SReg) : Codec.Statement (.ret w a) :=
  Codec.ofC rfl rfl fun hw => decodeC_of_parse (f := cr 19 w 0 a 0 2) (by
  change (fun f : CFields => (some (.ret (isOne f.w) f.a) : Option Instr)) (cr 19 w 0 a 0 2) = _
  try simp only [ci_i13, ci_i19, cr_i19, cb_o21]
  try simp (disch := omega) only [extract_setWidth, extract_setWidth_sub, extract_append_lo, extract_append_hi, cr, ci, cb]
  try simp) rfl hw

theorem Codec.loop (w : Bool) (d : SReg) (i : BitVec 13) : Codec.Statement (.loop w d i) :=
  Codec.ofC rfl rfl fun hw => decodeC_of_parse (f := ci 20 w d 0 i) (by
  change (fun f : CFields => (some (.loop (isOne f.w) f.d f.i13) : Option Instr)) (ci 20 w d 0 i) = _
  try simp only [ci_i13, ci_i19, cr_i19, cb_o21]
  try simp (disch := omega) only [extract_setWidth, extract_setWidth_sub, extract_append_lo, extract_append_hi, cr, ci, cb]
  try simp) rfl hw

theorem Codec.exit (w : Bool) : Codec.Statement (.exit w) :=
  Codec.ofC rfl rfl fun hw => decodeC_of_parse (f := cr 21 w 0 0 0 0) (by
  change (fun f : CFields => (some (.exit (isOne f.w)) : Option Instr)) (cr 21 w 0 0 0 0) = _
  try simp only [ci_i13, ci_i19, cr_i19, cb_o21]
  try simp (disch := omega) only [extract_setWidth, extract_setWidth_sub, extract_append_lo, extract_append_hi, cr, ci, cb]
  try simp) rfl hw

theorem Codec.exitto (w : Bool) (a : SReg) (b : SReg) : Codec.Statement (.exitto w a b) :=
  Codec.ofC rfl rfl fun hw => decodeC_of_parse (f := cr 21 w 0 a b 1) (by
  change (fun f : CFields => (some (.exitto (isOne f.w) f.a f.b) : Option Instr)) (cr 21 w 0 a b 1) = _
  try simp only [ci_i13, ci_i19, cr_i19, cb_o21]
  try simp (disch := omega) only [extract_setWidth, extract_setWidth_sub, extract_append_lo, extract_append_hi, cr, ci, cb]
  try simp) rfl hw

theorem Codec.trap (w : Bool) (c : BitVec 12) : Codec.Statement (.trap w c) :=
  Codec.ofC rfl rfl fun hw => decodeC_of_parse (f := cr 21 w 0 (c.extractLsb' 6 6) (c.extractLsb' 0 6) 2) (by
  change (fun f : CFields => (some (.trap (isOne f.w) (f.a ++ f.b)) : Option Instr)) (cr 21 w 0 (c.extractLsb' 6 6) (c.extractLsb' 0 6) 2) = _
  try simp only [ci_i13, ci_i19, cr_i19, cb_o21]
  try simp (disch := omega) only [extract_setWidth, extract_setWidth_sub, extract_append_lo, extract_append_hi, cr, ci, cb]
  try simp) rfl hw

theorem Codec.tstb (w : Bool) (a : SReg) (b : SReg) (q : QReg) (sp : Bool) (t : TestKind) : Codec.Statement (.tstb w a b q sp t) :=
  Codec.ofC rfl rfl fun hw => decodeC_of_parse (f := cr 22 w a b (z6 q) (z7 (bit1 sp ++ t.code))) (by
  change (fun f : CFields => ((TestKind.ofCode (f.fn.extractLsb' 0 2)).map fun t => .tstb (isOne f.w) f.d f.a (f.b.extractLsb' 0 3) (isOne (f.fn.extractLsb' 2 1)) t : Option Instr)) (cr 22 w a b (z6 q) (z7 (bit1 sp ++ t.code))) = _
  try simp only [ci_i13, ci_i19, cr_i19, cb_o21]
  try simp (disch := omega) only [extract_setWidth, extract_setWidth_sub, extract_append_lo, extract_append_hi, cr, ci, cb]
  try simp) rfl hw

theorem Codec.lds (w : Bool) (d : SReg) (a : SReg) (i : BitVec 13) : Codec.Statement (.lds w d a i) :=
  Codec.ofC rfl rfl fun hw => decodeC_of_parse (f := ci 24 w d a i) (by
  change (fun f : CFields => (some (.lds (isOne f.w) f.d f.a f.i13) : Option Instr)) (ci 24 w d a i) = _
  try simp only [ci_i13, ci_i19, cr_i19, cb_o21]
  try simp (disch := omega) only [extract_setWidth, extract_setWidth_sub, extract_append_lo, extract_append_hi, cr, ci, cb]
  try simp) rfl hw

theorem Codec.sts (w : Bool) (d : SReg) (a : SReg) (i : BitVec 13) : Codec.Statement (.sts w d a i) :=
  Codec.ofC rfl rfl fun hw => decodeC_of_parse (f := ci 25 w d a i) (by
  change (fun f : CFields => (some (.sts (isOne f.w) f.d f.a f.i13) : Option Instr)) (ci 25 w d a i) = _
  try simp only [ci_i13, ci_i19, cr_i19, cb_o21]
  try simp (disch := omega) only [extract_setWidth, extract_setWidth_sub, extract_append_lo, extract_append_hi, cr, ci, cb]
  try simp) rfl hw

theorem Codec.ldc (w : Bool) (d : SReg) (a : SReg) (i : BitVec 13) : Codec.Statement (.ldc w d a i) :=
  Codec.ofC rfl rfl fun hw => decodeC_of_parse (f := ci 26 w d a i) (by
  change (fun f : CFields => (some (.ldc (isOne f.w) f.d f.a f.i13) : Option Instr)) (ci 26 w d a i) = _
  try simp only [ci_i13, ci_i19, cr_i19, cb_o21]
  try simp (disch := omega) only [extract_setWidth, extract_setWidth_sub, extract_append_lo, extract_append_hi, cr, ci, cb]
  try simp) rfl hw

theorem Codec.atoms (w : Bool) (a : SReg) (b : SReg) (c : SReg) (op : AtomOp) (sc : Scope) : Codec.Statement (.atoms w a b c op sc) :=
  Codec.ofC rfl rfl fun hw => decodeC_of_parse (f := cr 27 w a b c (z7 (op.code ++ sc.code))) (by
  change (fun f : CFields => ((Scope.ofCode (f.fn.extractLsb' 0 3)).bind fun sc => (AtomOp.ofCode (f.fn.extractLsb' 3 3)).map fun op => .atoms (isOne f.w) f.d f.a f.b op sc : Option Instr)) (cr 27 w a b c (z7 (op.code ++ sc.code))) = _
  try simp only [ci_i13, ci_i19, cr_i19, cb_o21]
  try simp (disch := omega) only [extract_setWidth, extract_setWidth_sub, extract_append_lo, extract_append_hi, cr, ci, cb]
  try simp) rfl hw

theorem Codec.lrun (w : Bool) (a : SReg) (i : BitVec 19) : Codec.Statement (.lrun w a i) :=
  Codec.ofC rfl rfl fun hw => decodeC_of_parse (f := cr 28 w a (i.extractLsb' 13 6) (i.extractLsb' 7 6) (i.extractLsb' 0 7)) (by
  change (fun f : CFields => (some (.lrun (isOne f.w) f.d f.i19) : Option Instr)) (cr 28 w a (i.extractLsb' 13 6) (i.extractLsb' 7 6) (i.extractLsb' 0 7)) = _
  try simp only [ci_i13, ci_i19, cr_i19, cb_o21]
  try simp (disch := omega) only [extract_setWidth, extract_setWidth_sub, extract_append_lo, extract_append_hi, cr, ci, cb]
  try simp) rfl hw

theorem Codec.chsend (w : Bool) (a : SReg) (b : SReg) : Codec.Statement (.chsend w a b) :=
  Codec.ofC rfl rfl fun hw => decodeC_of_parse (f := cr 29 w a b 0 0) (by
  change (fun f : CFields => (some (.chsend (isOne f.w) f.d f.a) : Option Instr)) (cr 29 w a b 0 0) = _
  try simp only [ci_i13, ci_i19, cr_i19, cb_o21]
  try simp (disch := omega) only [extract_setWidth, extract_setWidth_sub, extract_append_lo, extract_append_hi, cr, ci, cb]
  try simp) rfl hw

theorem Codec.chrecv (w : Bool) (a : SReg) (b : SReg) (peek : Bool) : Codec.Statement (.chrecv w a b peek) :=
  Codec.ofC rfl rfl fun hw => decodeC_of_parse (f := cr 29 w a b (z6 (bit1 peek)) 1) (by
  change (fun f : CFields => (some (.chrecv (isOne f.w) f.d f.a (isOne (f.b.extractLsb' 0 1))) : Option Instr)) (cr 29 w a b (z6 (bit1 peek)) 1) = _
  try simp only [ci_i13, ci_i19, cr_i19, cb_o21]
  try simp (disch := omega) only [extract_setWidth, extract_setWidth_sub, extract_append_lo, extract_append_hi, cr, ci, cb]
  try simp) rfl hw

theorem Codec.chstat (w : Bool) (a : SReg) (b : SReg) : Codec.Statement (.chstat w a b) :=
  Codec.ofC rfl rfl fun hw => decodeC_of_parse (f := cr 29 w a b 0 2) (by
  change (fun f : CFields => (some (.chstat (isOne f.w) f.d f.a) : Option Instr)) (cr 29 w a b 0 2) = _
  try simp only [ci_i13, ci_i19, cr_i19, cb_o21]
  try simp (disch := omega) only [extract_setWidth, extract_setWidth_sub, extract_append_lo, extract_append_hi, cr, ci, cb]
  try simp) rfl hw

theorem Codec.fence (w : Bool) (sc : Scope) (k : FenceKind) : Codec.Statement (.fence w sc k) :=
  Codec.ofC rfl rfl fun hw => decodeC_of_parse (f := cr 32 w (sc.code ++ k.code) 0 0 0) (by
  change (fun f : CFields => ((Scope.ofCode (f.d.extractLsb' 3 3)).bind fun sc => (FenceKind.ofCode (f.d.extractLsb' 0 3)).map fun k => .fence (isOne f.w) sc k : Option Instr)) (cr 32 w (sc.code ++ k.code) 0 0 0) = _
  try simp only [ci_i13, ci_i19, cr_i19, cb_o21]
  try simp (disch := omega) only [extract_setWidth, extract_setWidth_sub, extract_append_lo, extract_append_hi, cr, ci, cb]
  try simp) rfl hw

theorem Codec.bari (w : Bool) (a : SReg) (b : SReg) : Codec.Statement (.bari w a b) :=
  Codec.ofC rfl rfl fun hw => decodeC_of_parse (f := cr 32 w a b 0 1) (by
  change (fun f : CFields => (some (.bari (isOne f.w) f.d f.a) : Option Instr)) (cr 32 w a b 0 1) = _
  try simp only [ci_i13, ci_i19, cr_i19, cb_o21]
  try simp (disch := omega) only [extract_setWidth, extract_setWidth_sub, extract_append_lo, extract_append_hi, cr, ci, cb]
  try simp) rfl hw

theorem Codec.barx (w : Bool) (a : SReg) (b : SReg) (c : SReg) : Codec.Statement (.barx w a b c) :=
  Codec.ofC rfl rfl fun hw => decodeC_of_parse (f := cr 32 w a b c 2) (by
  change (fun f : CFields => (some (.barx (isOne f.w) f.d f.a f.b) : Option Instr)) (cr 32 w a b c 2) = _
  try simp only [ci_i13, ci_i19, cr_i19, cb_o21]
  try simp (disch := omega) only [extract_setWidth, extract_setWidth_sub, extract_append_lo, extract_append_hi, cr, ci, cb]
  try simp) rfl hw

theorem Codec.bara (w : Bool) (a : SReg) (b : SReg) : Codec.Statement (.bara w a b) :=
  Codec.ofC rfl rfl fun hw => decodeC_of_parse (f := cr 32 w a b 0 3) (by
  change (fun f : CFields => (some (.bara (isOne f.w) f.d f.a) : Option Instr)) (cr 32 w a b 0 3) = _
  try simp only [ci_i13, ci_i19, cr_i19, cb_o21]
  try simp (disch := omega) only [extract_setWidth, extract_setWidth_sub, extract_append_lo, extract_append_hi, cr, ci, cb]
  try simp) rfl hw

theorem Codec.waitb (w : Bool) (a : SReg) (b : SReg) : Codec.Statement (.waitb w a b) :=
  Codec.ofC rfl rfl fun hw => decodeC_of_parse (f := cr 32 w a b 0 4) (by
  change (fun f : CFields => (some (.waitb (isOne f.w) f.d f.a) : Option Instr)) (cr 32 w a b 0 4) = _
  try simp only [ci_i13, ci_i19, cr_i19, cb_o21]
  try simp (disch := omega) only [extract_setWidth, extract_setWidth_sub, extract_append_lo, extract_append_hi, cr, ci, cb]
  try simp) rfl hw

theorem Codec.yield (w : Bool) : Codec.Statement (.yield w) :=
  Codec.ofC rfl rfl fun hw => decodeC_of_parse (f := cr 32 w 0 0 0 5) (by
  change (fun f : CFields => (some (.yield (isOne f.w)) : Option Instr)) (cr 32 w 0 0 0 5) = _
  try simp only [ci_i13, ci_i19, cr_i19, cb_o21]
  try simp (disch := omega) only [extract_setWidth, extract_setWidth_sub, extract_append_lo, extract_append_hi, cr, ci, cb]
  try simp) rfl hw

theorem Codec.yieldc (w : Bool) (a : SReg) (b : SReg) (c : SReg) : Codec.Statement (.yieldc w a b c) :=
  Codec.ofC rfl rfl fun hw => decodeC_of_parse (f := cr 32 w a b c 6) (by
  change (fun f : CFields => (some (.yieldc (isOne f.w) f.d f.a f.b) : Option Instr)) (cr 32 w a b c 6) = _
  try simp only [ci_i13, ci_i19, cr_i19, cb_o21]
  try simp (disch := omega) only [extract_setWidth, extract_setWidth_sub, extract_append_lo, extract_append_hi, cr, ci, cb]
  try simp) rfl hw

theorem Codec.teambar (w : Bool) : Codec.Statement (.teambar w) :=
  Codec.ofC rfl rfl fun hw => decodeC_of_parse (f := cr 32 w 0 0 0 7) (by
  change (fun f : CFields => (some (.teambar (isOne f.w)) : Option Instr)) (cr 32 w 0 0 0 7) = _
  try simp only [ci_i13, ci_i19, cr_i19, cb_o21]
  try simp (disch := omega) only [extract_setWidth, extract_setWidth_sub, extract_append_lo, extract_append_hi, cr, ci, cb]
  try simp) rfl hw

theorem Codec.gridbar (w : Bool) : Codec.Statement (.gridbar w) :=
  Codec.ofC rfl rfl fun hw => decodeC_of_parse (f := cr 32 w 0 0 0 8) (by
  change (fun f : CFields => (some (.gridbar (isOne f.w)) : Option Instr)) (cr 32 w 0 0 0 8) = _
  try simp only [ci_i13, ci_i19, cr_i19, cb_o21]
  try simp (disch := omega) only [extract_setWidth, extract_setWidth_sub, extract_append_lo, extract_append_hi, cr, ci, cb]
  try simp) rfl hw

theorem Codec.lwait (w : Bool) : Codec.Statement (.lwait w) :=
  Codec.ofC rfl rfl fun hw => decodeC_of_parse (f := cr 32 w 0 0 0 9) (by
  change (fun f : CFields => (some (.lwait (isOne f.w)) : Option Instr)) (cr 32 w 0 0 0 9) = _
  try simp only [ci_i13, ci_i19, cr_i19, cb_o21]
  try simp (disch := omega) only [extract_setWidth, extract_setWidth_sub, extract_append_lo, extract_append_hi, cr, ci, cb]
  try simp) rfl hw

theorem Codec.tbind (w : Bool) (t : BitVec 4) (b : SReg) (c : SReg) : Codec.Statement (.tbind w t b c) :=
  Codec.ofC rfl rfl fun hw => decodeC_of_parse (f := cr 33 w (z6 t) b c 0) (by
  change (fun f : CFields => (some (.tbind (isOne f.w) (f.d.extractLsb' 0 4) f.a f.b) : Option Instr)) (cr 33 w (z6 t) b c 0) = _
  try simp only [ci_i13, ci_i19, cr_i19, cb_o21]
  try simp (disch := omega) only [extract_setWidth, extract_setWidth_sub, extract_append_lo, extract_append_hi, cr, ci, cb]
  try simp) rfl hw

theorem Codec.tdrop (w : Bool) (t : BitVec 4) : Codec.Statement (.tdrop w t) :=
  Codec.ofC rfl rfl fun hw => decodeC_of_parse (f := cr 33 w (z6 t) 0 0 1) (by
  change (fun f : CFields => (some (.tdrop (isOne f.w) (f.d.extractLsb' 0 4)) : Option Instr)) (cr 33 w (z6 t) 0 0 1) = _
  try simp only [ci_i13, ci_i19, cr_i19, cb_o21]
  try simp (disch := omega) only [extract_setWidth, extract_setWidth_sub, extract_append_lo, extract_append_hi, cr, ci, cb]
  try simp) rfl hw

theorem Codec.objld (w : Bool) (t : BitVec 4) (b : SReg) : Codec.Statement (.objld w t b) :=
  Codec.ofC rfl rfl fun hw => decodeC_of_parse (f := cr 33 w (z6 t) b 0 2) (by
  change (fun f : CFields => (some (.objld (isOne f.w) (f.d.extractLsb' 0 4) f.a) : Option Instr)) (cr 33 w (z6 t) b 0 2) = _
  try simp only [ci_i13, ci_i19, cr_i19, cb_o21]
  try simp (disch := omega) only [extract_setWidth, extract_setWidth_sub, extract_append_lo, extract_append_hi, cr, ci, cb]
  try simp) rfl hw

theorem Codec.cpyb (w : Bool) (a : SReg) (b : SReg) (c : SReg) : Codec.Statement (.cpyb w a b c) :=
  Codec.ofC rfl rfl fun hw => decodeC_of_parse (f := cr 34 w a b c 0) (by
  change (fun f : CFields => (some (.cpyb (isOne f.w) f.d f.a f.b) : Option Instr)) (cr 34 w a b c 0) = _
  try simp only [ci_i13, ci_i19, cr_i19, cb_o21]
  try simp (disch := omega) only [extract_setWidth, extract_setWidth_sub, extract_append_lo, extract_append_hi, cr, ci, cb]
  try simp) rfl hw

theorem Codec.cpyg (w : Bool) (a : SReg) (b : SReg) (c : SReg) : Codec.Statement (.cpyg w a b c) :=
  Codec.ofC rfl rfl fun hw => decodeC_of_parse (f := cr 34 w a b c 1) (by
  change (fun f : CFields => (some (.cpyg (isOne f.w) f.d f.a f.b) : Option Instr)) (cr 34 w a b c 1) = _
  try simp only [ci_i13, ci_i19, cr_i19, cb_o21]
  try simp (disch := omega) only [extract_setWidth, extract_setWidth_sub, extract_append_lo, extract_append_hi, cr, ci, cb]
  try simp) rfl hw

theorem Codec.cpyq (w : Bool) (a : SReg) (b : SReg) (c : SReg) : Codec.Statement (.cpyq w a b c) :=
  Codec.ofC rfl rfl fun hw => decodeC_of_parse (f := cr 34 w a b c 2) (by
  change (fun f : CFields => (some (.cpyq (isOne f.w) f.d f.a f.b) : Option Instr)) (cr 34 w a b c 2) = _
  try simp only [ci_i13, ci_i19, cr_i19, cb_o21]
  try simp (disch := omega) only [extract_setWidth, extract_setWidth_sub, extract_append_lo, extract_append_hi, cr, ci, cb]
  try simp) rfl hw

theorem Codec.empty (w : Bool) (a : SReg) (b : SReg) : Codec.Statement (.empty w a b) :=
  Codec.ofC rfl rfl fun hw => decodeC_of_parse (f := cr 34 w a b 0 3) (by
  change (fun f : CFields => (some (.empty (isOne f.w) f.d f.a) : Option Instr)) (cr 34 w a b 0 3) = _
  try simp only [ci_i13, ci_i19, cr_i19, cb_o21]
  try simp (disch := omega) only [extract_setWidth, extract_setWidth_sub, extract_append_lo, extract_append_hi, cr, ci, cb]
  try simp) rfl hw

theorem Codec.heapadd (w : Bool) (a : SReg) (b : SReg) (wait : Bool) (q : QReg) : Codec.Statement (.heapadd w a b wait q) :=
  Codec.ofC rfl rfl fun hw => decodeC_of_parse (f := cr 35 w a b (z6 (bit1 wait ++ q)) 0) (by
  change (fun f : CFields => (some (.heapadd (isOne f.w) f.d f.a (isOne (f.b.extractLsb' 3 1)) (f.b.extractLsb' 0 3)) : Option Instr)) (cr 35 w a b (z6 (bit1 wait ++ q)) 0) = _
  try simp only [ci_i13, ci_i19, cr_i19, cb_o21]
  try simp (disch := omega) only [extract_setWidth, extract_setWidth_sub, extract_append_lo, extract_append_hi, cr, ci, cb]
  try simp) rfl hw

theorem Codec.heaptake (w : Bool) (a : SReg) (b : SReg) (wait : Bool) (q : QReg) : Codec.Statement (.heaptake w a b wait q) :=
  Codec.ofC rfl rfl fun hw => decodeC_of_parse (f := cr 35 w a b (z6 (bit1 wait ++ q)) 1) (by
  change (fun f : CFields => (some (.heaptake (isOne f.w) f.d f.a (isOne (f.b.extractLsb' 3 1)) (f.b.extractLsb' 0 3)) : Option Instr)) (cr 35 w a b (z6 (bit1 wait ++ q)) 1) = _
  try simp only [ci_i13, ci_i19, cr_i19, cb_o21]
  try simp (disch := omega) only [extract_setWidth, extract_setWidth_sub, extract_append_lo, extract_append_hi, cr, ci, cb]
  try simp) rfl hw

theorem Codec.mfmt (w : Bool) (a : SReg) : Codec.Statement (.mfmt w a) :=
  Codec.ofC rfl rfl fun hw => decodeC_of_parse (f := cr 36 w a 0 0 0) (by
  change (fun f : CFields => (some (.mfmt (isOne f.w) f.d) : Option Instr)) (cr 36 w a 0 0 0) = _
  try simp only [ci_i13, ci_i19, cr_i19, cb_o21]
  try simp (disch := omega) only [extract_setWidth, extract_setWidth_sub, extract_append_lo, extract_append_hi, cr, ci, cb]
  try simp) rfl hw

theorem Codec.mloop (w : Bool) (a : SReg) (b : SReg) (c : SReg) : Codec.Statement (.mloop w a b c) :=
  Codec.ofC rfl rfl fun hw => decodeC_of_parse (f := cr 36 w a b c 1) (by
  change (fun f : CFields => (some (.mloop (isOne f.w) f.d f.a f.b) : Option Instr)) (cr 36 w a b c 1) = _
  try simp only [ci_i13, ci_i19, cr_i19, cb_o21]
  try simp (disch := omega) only [extract_setWidth, extract_setWidth_sub, extract_append_lo, extract_append_hi, cr, ci, cb]
  try simp) rfl hw

theorem Codec.mconv (w : Bool) (a : SReg) (b : SReg) (c : SReg) : Codec.Statement (.mconv w a b c) :=
  Codec.ofC rfl rfl fun hw => decodeC_of_parse (f := cr 36 w a b c 2) (by
  change (fun f : CFields => (some (.mconv (isOne f.w) f.d f.a f.b) : Option Instr)) (cr 36 w a b c 2) = _
  try simp only [ci_i13, ci_i19, cr_i19, cb_o21]
  try simp (disch := omega) only [extract_setWidth, extract_setWidth_sub, extract_append_lo, extract_append_hi, cr, ci, cb]
  try simp) rfl hw

theorem Codec.mstore (w : Bool) (a : SReg) (b : SReg) (c : SReg) : Codec.Statement (.mstore w a b c) :=
  Codec.ofC rfl rfl fun hw => decodeC_of_parse (f := cr 36 w a b c 3) (by
  change (fun f : CFields => (some (.mstore (isOne f.w) f.d f.a f.b) : Option Instr)) (cr 36 w a b c 3) = _
  try simp only [ci_i13, ci_i19, cr_i19, cb_o21]
  try simp (disch := omega) only [extract_setWidth, extract_setWidth_sub, extract_append_lo, extract_append_hi, cr, ci, cb]
  try simp) rfl hw

theorem Codec.mzero (w : Bool) (n : BitVec 2) : Codec.Statement (.mzero w n) :=
  Codec.ofC rfl rfl fun hw => decodeC_of_parse (f := cr 36 w (z6 n) 0 0 4) (by
  change (fun f : CFields => (some (.mzero (isOne f.w) (f.d.extractLsb' 0 2)) : Option Instr)) (cr 36 w (z6 n) 0 0 4) = _
  try simp only [ci_i13, ci_i19, cr_i19, cb_o21]
  try simp (disch := omega) only [extract_setWidth, extract_setWidth_sub, extract_append_lo, extract_append_hi, cr, ci, cb]
  try simp) rfl hw

theorem Codec.mstat (w : Bool) (a : SReg) (n : BitVec 2) : Codec.Statement (.mstat w a n) :=
  Codec.ofC rfl rfl fun hw => decodeC_of_parse (f := cr 36 w a (z6 n) 0 5) (by
  change (fun f : CFields => (some (.mstat (isOne f.w) f.d (f.a.extractLsb' 0 2)) : Option Instr)) (cr 36 w a (z6 n) 0 5) = _
  try simp only [ci_i13, ci_i19, cr_i19, cb_o21]
  try simp (disch := omega) only [extract_setWidth, extract_setWidth_sub, extract_append_lo, extract_append_hi, cr, ci, cb]
  try simp) rfl hw

theorem Codec.sproj (w : Bool) (a : SReg) (b : SReg) : Codec.Statement (.sproj w a b) :=
  Codec.ofC rfl rfl fun hw => decodeC_of_parse (f := cr 37 w a b 0 0) (by
  change (fun f : CFields => (some (.sproj (isOne f.w) f.d f.a) : Option Instr)) (cr 37 w a b 0 0) = _
  try simp only [ci_i13, ci_i19, cr_i19, cb_o21]
  try simp (disch := omega) only [extract_setWidth, extract_setWidth_sub, extract_append_lo, extract_append_hi, cr, ci, cb]
  try simp) rfl hw

theorem Codec.sbin (w : Bool) (a : SReg) (b : SReg) : Codec.Statement (.sbin w a b) :=
  Codec.ofC rfl rfl fun hw => decodeC_of_parse (f := cr 37 w a b 0 1) (by
  change (fun f : CFields => (some (.sbin (isOne f.w) f.d f.a) : Option Instr)) (cr 37 w a b 0 1) = _
  try simp only [ci_i13, ci_i19, cr_i19, cb_o21]
  try simp (disch := omega) only [extract_setWidth, extract_setWidth_sub, extract_append_lo, extract_append_hi, cr, ci, cb]
  try simp) rfl hw

theorem Codec.sblend (w : Bool) (a : SReg) (b : SReg) : Codec.Statement (.sblend w a b) :=
  Codec.ofC rfl rfl fun hw => decodeC_of_parse (f := cr 37 w a b 0 2) (by
  change (fun f : CFields => (some (.sblend (isOne f.w) f.d f.a) : Option Instr)) (cr 37 w a b 0 2) = _
  try simp only [ci_i13, ci_i19, cr_i19, cb_o21]
  try simp (disch := omega) only [extract_setWidth, extract_setWidth_sub, extract_append_lo, extract_append_hi, cr, ci, cb]
  try simp) rfl hw

theorem Codec.sgrad (w : Bool) (a : SReg) (b : SReg) : Codec.Statement (.sgrad w a b) :=
  Codec.ofC rfl rfl fun hw => decodeC_of_parse (f := cr 37 w a b 0 3) (by
  change (fun f : CFields => (some (.sgrad (isOne f.w) f.d f.a) : Option Instr)) (cr 37 w a b 0 3) = _
  try simp only [ci_i13, ci_i19, cr_i19, cb_o21]
  try simp (disch := omega) only [extract_setWidth, extract_setWidth_sub, extract_append_lo, extract_append_hi, cr, ci, cb]
  try simp) rfl hw

theorem Codec.apxdef (w : Bool) (a : SReg) (q : QReg) : Codec.Statement (.apxdef w a q) :=
  Codec.ofC rfl rfl fun hw => decodeC_of_parse (f := cr 38 w a 0 (z6 q) 0) (by
  change (fun f : CFields => (some (.apxdef (isOne f.w) f.d (f.b.extractLsb' 0 3)) : Option Instr)) (cr 38 w a 0 (z6 q) 0) = _
  try simp only [ci_i13, ci_i19, cr_i19, cb_o21]
  try simp (disch := omega) only [extract_setWidth, extract_setWidth_sub, extract_append_lo, extract_append_hi, cr, ci, cb]
  try simp) rfl hw

theorem Codec.apxkill (w : Bool) (a : SReg) : Codec.Statement (.apxkill w a) :=
  Codec.ofC rfl rfl fun hw => decodeC_of_parse (f := cr 38 w a 0 0 1) (by
  change (fun f : CFields => (some (.apxkill (isOne f.w) f.d) : Option Instr)) (cr 38 w a 0 0 1) = _
  try simp only [ci_i13, ci_i19, cr_i19, cb_o21]
  try simp (disch := omega) only [extract_setWidth, extract_setWidth_sub, extract_append_lo, extract_append_hi, cr, ci, cb]
  try simp) rfl hw

theorem Codec.encsub (w : Bool) (a : SReg) (b : SReg) : Codec.Statement (.encsub w a b) :=
  Codec.ofC rfl rfl fun hw => decodeC_of_parse (f := cr 39 w a b 0 0) (by
  change (fun f : CFields => (some (.encsub (isOne f.w) f.d f.a) : Option Instr)) (cr 39 w a b 0 0) = _
  try simp only [ci_i13, ci_i19, cr_i19, cb_o21]
  try simp (disch := omega) only [extract_setWidth, extract_setWidth_sub, extract_append_lo, extract_append_hi, cr, ci, cb]
  try simp) rfl hw

theorem Codec.chimgate (w : Bool) (a : SReg) : Codec.Statement (.chimgate w a) :=
  Codec.ofC rfl rfl fun hw => decodeC_of_parse (f := cr 40 w a 0 0 0) (by
  change (fun f : CFields => (some (.chimgate (isOne f.w) f.d) : Option Instr)) (cr 40 w a 0 0 0) = _
  try simp only [ci_i13, ci_i19, cr_i19, cb_o21]
  try simp (disch := omega) only [extract_setWidth, extract_setWidth_sub, extract_append_lo, extract_append_hi, cr, ci, cb]
  try simp) rfl hw

theorem Codec.movsw (w : Bool) (a : SReg) (i : BitVec 12) : Codec.Statement (.movsw w a i) :=
  Codec.ofC rfl rfl fun hw => decodeC_of_parse (f := cr 48 w a (i.extractLsb' 6 6) (i.extractLsb' 0 6) 0) (by
  change (fun f : CFields => (some (.movsw (isOne f.w) f.d (f.a ++ f.b)) : Option Instr)) (cr 48 w a (i.extractLsb' 6 6) (i.extractLsb' 0 6) 0) = _
  try simp only [ci_i13, ci_i19, cr_i19, cb_o21]
  try simp (disch := omega) only [extract_setWidth, extract_setWidth_sub, extract_append_lo, extract_append_hi, cr, ci, cb]
  try simp) rfl hw

theorem Codec.pcntRd (w : Bool) (a : SReg) (n : BitVec 5) : Codec.Statement (.pcntRd w a n) :=
  Codec.ofC rfl rfl fun hw => decodeC_of_parse (f := cr 48 w a (z6 n) 0 1) (by
  change (fun f : CFields => (some (.pcntRd (isOne f.w) f.d (f.a.extractLsb' 0 5)) : Option Instr)) (cr 48 w a (z6 n) 0 1) = _
  try simp only [ci_i13, ci_i19, cr_i19, cb_o21]
  try simp (disch := omega) only [extract_setWidth, extract_setWidth_sub, extract_append_lo, extract_append_hi, cr, ci, cb]
  try simp) rfl hw

theorem Codec.pcntWr (w : Bool) (a : SReg) (n : BitVec 5) : Codec.Statement (.pcntWr w a n) :=
  Codec.ofC rfl rfl fun hw => decodeC_of_parse (f := cr 48 w a (z6 n) 1 1) (by
  change (fun f : CFields => (some (.pcntWr (isOne f.w) f.d (f.a.extractLsb' 0 5)) : Option Instr)) (cr 48 w a (z6 n) 1 1) = _
  try simp only [ci_i13, ci_i19, cr_i19, cb_o21]
  try simp (disch := omega) only [extract_setWidth, extract_setWidth_sub, extract_append_lo, extract_append_hi, cr, ci, cb]
  try simp) rfl hw

theorem Codec.pcntSel (w : Bool) (a : SReg) (n : BitVec 5) : Codec.Statement (.pcntSel w a n) :=
  Codec.ofC rfl rfl fun hw => decodeC_of_parse (f := cr 48 w a (z6 n) 2 1) (by
  change (fun f : CFields => (some (.pcntSel (isOne f.w) f.d (f.a.extractLsb' 0 5)) : Option Instr)) (cr 48 w a (z6 n) 2 1) = _
  try simp only [ci_i13, ci_i19, cr_i19, cb_o21]
  try simp (disch := omega) only [extract_setWidth, extract_setWidth_sub, extract_append_lo, extract_append_hi, cr, ci, cb]
  try simp) rfl hw

theorem Codec.rett (w : Bool) : Codec.Statement (.rett w) :=
  Codec.ofC rfl rfl fun hw => decodeC_of_parse (f := cr 48 w 0 0 0 2) (by
  change (fun f : CFields => (some (.rett (isOne f.w)) : Option Instr)) (cr 48 w 0 0 0 2) = _
  try simp only [ci_i13, ci_i19, cr_i19, cb_o21]
  try simp (disch := omega) only [extract_setWidth, extract_setWidth_sub, extract_append_lo, extract_append_hi, cr, ci, cb]
  try simp) rfl hw

theorem Codec.ctxsave (w : Bool) (a : SReg) (b : SReg) (q : QReg) : Codec.Statement (.ctxsave w a b q) :=
  Codec.ofC rfl rfl fun hw => decodeC_of_parse (f := cr 48 w a b (z6 q) 3) (by
  change (fun f : CFields => (some (.ctxsave (isOne f.w) f.d f.a (f.b.extractLsb' 0 3)) : Option Instr)) (cr 48 w a b (z6 q) 3) = _
  try simp only [ci_i13, ci_i19, cr_i19, cb_o21]
  try simp (disch := omega) only [extract_setWidth, extract_setWidth_sub, extract_append_lo, extract_append_hi, cr, ci, cb]
  try simp) rfl hw

theorem Codec.ctxload (w : Bool) (a : SReg) (b : SReg) (q : QReg) : Codec.Statement (.ctxload w a b q) :=
  Codec.ofC rfl rfl fun hw => decodeC_of_parse (f := cr 48 w a b (z6 q) 4) (by
  change (fun f : CFields => (some (.ctxload (isOne f.w) f.d f.a (f.b.extractLsb' 0 3)) : Option Instr)) (cr 48 w a b (z6 q) 4) = _
  try simp only [ci_i13, ci_i19, cr_i19, cb_o21]
  try simp (disch := omega) only [extract_setWidth, extract_setWidth_sub, extract_append_lo, extract_append_hi, cr, ci, cb]
  try simp) rfl hw

theorem Codec.haltSoft (w : Bool) (a : SReg) (q : QReg) : Codec.Statement (.haltSoft w a q) :=
  Codec.ofC rfl rfl fun hw => decodeC_of_parse (f := cr 48 w a 0 (z6 q) 5) (by
  change (fun f : CFields => (some (.haltSoft (isOne f.w) f.d (f.b.extractLsb' 0 3)) : Option Instr)) (cr 48 w a 0 (z6 q) 5) = _
  try simp only [ci_i13, ci_i19, cr_i19, cb_o21]
  try simp (disch := omega) only [extract_setWidth, extract_setWidth_sub, extract_append_lo, extract_append_hi, cr, ci, cb]
  try simp) rfl hw

theorem Codec.haltHard (w : Bool) (a : SReg) (q : QReg) : Codec.Statement (.haltHard w a q) :=
  Codec.ofC rfl rfl fun hw => decodeC_of_parse (f := cr 48 w a 1 (z6 q) 5) (by
  change (fun f : CFields => (some (.haltHard (isOne f.w) f.d (f.b.extractLsb' 0 3)) : Option Instr)) (cr 48 w a 1 (z6 q) 5) = _
  try simp only [ci_i13, ci_i19, cr_i19, cb_o21]
  try simp (disch := omega) only [extract_setWidth, extract_setWidth_sub, extract_append_lo, extract_append_hi, cr, ci, cb]
  try simp) rfl hw

theorem Codec.freezeFreeze (w : Bool) (a : SReg) (q : QReg) : Codec.Statement (.freezeFreeze w a q) :=
  Codec.ofC rfl rfl fun hw => decodeC_of_parse (f := cr 48 w a 0 (z6 q) 6) (by
  change (fun f : CFields => (some (.freezeFreeze (isOne f.w) f.d (f.b.extractLsb' 0 3)) : Option Instr)) (cr 48 w a 0 (z6 q) 6) = _
  try simp only [ci_i13, ci_i19, cr_i19, cb_o21]
  try simp (disch := omega) only [extract_setWidth, extract_setWidth_sub, extract_append_lo, extract_append_hi, cr, ci, cb]
  try simp) rfl hw

theorem Codec.freezeThaw (w : Bool) (a : SReg) (q : QReg) : Codec.Statement (.freezeThaw w a q) :=
  Codec.ofC rfl rfl fun hw => decodeC_of_parse (f := cr 48 w a 1 (z6 q) 6) (by
  change (fun f : CFields => (some (.freezeThaw (isOne f.w) f.d (f.b.extractLsb' 0 3)) : Option Instr)) (cr 48 w a 1 (z6 q) 6) = _
  try simp only [ci_i13, ci_i19, cr_i19, cb_o21]
  try simp (disch := omega) only [extract_setWidth, extract_setWidth_sub, extract_append_lo, extract_append_hi, cr, ci, cb]
  try simp) rfl hw

theorem Codec.freezeReset (w : Bool) (a : SReg) (q : QReg) : Codec.Statement (.freezeReset w a q) :=
  Codec.ofC rfl rfl fun hw => decodeC_of_parse (f := cr 48 w a 2 (z6 q) 6) (by
  change (fun f : CFields => (some (.freezeReset (isOne f.w) f.d (f.b.extractLsb' 0 3)) : Option Instr)) (cr 48 w a 2 (z6 q) 6) = _
  try simp only [ci_i13, ci_i19, cr_i19, cb_o21]
  try simp (disch := omega) only [extract_setWidth, extract_setWidth_sub, extract_append_lo, extract_append_hi, cr, ci, cb]
  try simp) rfl hw

theorem Codec.limm (i : BitVec 26) : Codec.Statement (.limm i) :=
  Codec.ofC rfl rfl fun hw => decodeC_of_parse (f := limmFields i) (by
  change (fun f : CFields => (some (.limm (f.w ++ f.d ++ f.a ++ f.b ++ f.fn)) : Option Instr)) (limmFields i) = _
  try simp only [ci_i13, ci_i19, cr_i19, cb_o21]
  try simp (disch := omega) only [extract_setWidth, extract_setWidth_sub, extract_append_lo, extract_append_hi, cr, ci, cb]
  try simp) rfl hw

theorem Codec.fadd (h : LHdr) (d : Dst) (a : Src) (b : Src) (r : RS) : Codec.Statement (.fadd h d a b r) :=
  Codec.ofL rfl rfl fun hw => decodeL_of_parse (f := lw 0x00 h (d := d.opn) (a := a.opn) (b := b.opn) (sat := r.sat) (rm := r.rm)) (by
  change (fun f : LFields => ((RMode.ofCode f.rm).map fun rm => .fadd f.hdr f.d.dst f.a.src f.b.src ⟨isOne f.sat, rm⟩ : Option Instr)) (lw 0x00 h (d := d.opn) (a := a.opn) (b := b.opn) (sat := r.sat) (rm := r.rm)) = _
  try simp only [lw_hdr]
  try simp (disch := omega) only [extract_setWidth, extract_setWidth_sub, extract_append_lo, extract_append_hi, lw, vopn, isOne_bit1, cvtSub_sr, cvtSub_hi, cvtSub_ty]
  try simp) rfl hw

theorem Codec.fsub (h : LHdr) (d : Dst) (a : Src) (b : Src) (r : RS) : Codec.Statement (.fsub h d a b r) :=
  Codec.ofL rfl rfl fun hw => decodeL_of_parse (f := lw 0x01 h (d := d.opn) (a := a.opn) (b := b.opn) (sat := r.sat) (rm := r.rm)) (by
  change (fun f : LFields => ((RMode.ofCode f.rm).map fun rm => .fsub f.hdr f.d.dst f.a.src f.b.src ⟨isOne f.sat, rm⟩ : Option Instr)) (lw 0x01 h (d := d.opn) (a := a.opn) (b := b.opn) (sat := r.sat) (rm := r.rm)) = _
  try simp only [lw_hdr]
  try simp (disch := omega) only [extract_setWidth, extract_setWidth_sub, extract_append_lo, extract_append_hi, lw, vopn, isOne_bit1, cvtSub_sr, cvtSub_hi, cvtSub_ty]
  try simp) rfl hw

theorem Codec.fmul (h : LHdr) (d : Dst) (a : Src) (b : Src) (r : RS) : Codec.Statement (.fmul h d a b r) :=
  Codec.ofL rfl rfl fun hw => decodeL_of_parse (f := lw 0x02 h (d := d.opn) (a := a.opn) (b := b.opn) (sat := r.sat) (rm := r.rm)) (by
  change (fun f : LFields => ((RMode.ofCode f.rm).map fun rm => .fmul f.hdr f.d.dst f.a.src f.b.src ⟨isOne f.sat, rm⟩ : Option Instr)) (lw 0x02 h (d := d.opn) (a := a.opn) (b := b.opn) (sat := r.sat) (rm := r.rm)) = _
  try simp only [lw_hdr]
  try simp (disch := omega) only [extract_setWidth, extract_setWidth_sub, extract_append_lo, extract_append_hi, lw, vopn, isOne_bit1, cvtSub_sr, cvtSub_hi, cvtSub_ty]
  try simp) rfl hw

theorem Codec.ffma (h : LHdr) (d : Dst) (a : Src) (b : Src) (c : Src) (r : RS) : Codec.Statement (.ffma h d a b c r) :=
  Codec.ofL rfl rfl fun hw => decodeL_of_parse (f := lw 0x03 h (d := d.opn) (a := a.opn) (b := b.opn) (c := c.opn) (sat := r.sat) (rm := r.rm)) (by
  change (fun f : LFields => ((RMode.ofCode f.rm).map fun rm => .ffma f.hdr f.d.dst f.a.src f.b.src f.c.src ⟨isOne f.sat, rm⟩ : Option Instr)) (lw 0x03 h (d := d.opn) (a := a.opn) (b := b.opn) (c := c.opn) (sat := r.sat) (rm := r.rm)) = _
  try simp only [lw_hdr]
  try simp (disch := omega) only [extract_setWidth, extract_setWidth_sub, extract_append_lo, extract_append_hi, lw, vopn, isOne_bit1, cvtSub_sr, cvtSub_hi, cvtSub_ty]
  try simp) rfl hw

theorem Codec.ffms (h : LHdr) (d : Dst) (a : Src) (b : Src) (c : Src) (r : RS) : Codec.Statement (.ffms h d a b c r) :=
  Codec.ofL rfl rfl fun hw => decodeL_of_parse (f := lw 0x04 h (d := d.opn) (a := a.opn) (b := b.opn) (c := c.opn) (sat := r.sat) (rm := r.rm)) (by
  change (fun f : LFields => ((RMode.ofCode f.rm).map fun rm => .ffms f.hdr f.d.dst f.a.src f.b.src f.c.src ⟨isOne f.sat, rm⟩ : Option Instr)) (lw 0x04 h (d := d.opn) (a := a.opn) (b := b.opn) (c := c.opn) (sat := r.sat) (rm := r.rm)) = _
  try simp only [lw_hdr]
  try simp (disch := omega) only [extract_setWidth, extract_setWidth_sub, extract_append_lo, extract_append_hi, lw, vopn, isOne_bit1, cvtSub_sr, cvtSub_hi, cvtSub_ty]
  try simp) rfl hw

theorem Codec.fmin (h : LHdr) (d : Dst) (a : Src) (b : Src) : Codec.Statement (.fmin h d a b) :=
  Codec.ofL rfl rfl fun hw => decodeL_of_parse (f := lw 0x05 h (d := d.opn) (a := a.opn) (b := b.opn)) (by
  change (fun f : LFields => (some (.fmin f.hdr f.d.dst f.a.src f.b.src) : Option Instr)) (lw 0x05 h (d := d.opn) (a := a.opn) (b := b.opn)) = _
  try simp only [lw_hdr]
  try simp (disch := omega) only [extract_setWidth, extract_setWidth_sub, extract_append_lo, extract_append_hi, lw, vopn, isOne_bit1, cvtSub_sr, cvtSub_hi, cvtSub_ty]
  try simp) rfl hw

theorem Codec.fmax (h : LHdr) (d : Dst) (a : Src) (b : Src) : Codec.Statement (.fmax h d a b) :=
  Codec.ofL rfl rfl fun hw => decodeL_of_parse (f := lw 0x06 h (d := d.opn) (a := a.opn) (b := b.opn)) (by
  change (fun f : LFields => (some (.fmax f.hdr f.d.dst f.a.src f.b.src) : Option Instr)) (lw 0x06 h (d := d.opn) (a := a.opn) (b := b.opn)) = _
  try simp only [lw_hdr]
  try simp (disch := omega) only [extract_setWidth, extract_setWidth_sub, extract_append_lo, extract_append_hi, lw, vopn, isOne_bit1, cvtSub_sr, cvtSub_hi, cvtSub_ty]
  try simp) rfl hw

theorem Codec.fcmp (h : LHdr) (d : PDst) (c : FCond) (a : Src) (b : Src) : Codec.Statement (.fcmp h d c a b) :=
  Codec.ofL rfl rfl fun hw => decodeL_of_parse (f := lw 0x07 h (d := d.opn) (a := a.opn) (b := b.opn) (sub := s6 (bit1 d.isMask ++ (0 : BitVec 1) ++ c.code))) (by
  change (fun f : LFields => ((FCond.ofCode (f.sub.extractLsb' 0 3)).map fun c => .fcmp f.hdr (f.d.pdst (isOne (f.sub.extractLsb' 4 1))) c f.a.src f.b.src : Option Instr)) (lw 0x07 h (d := d.opn) (a := a.opn) (b := b.opn) (sub := s6 (bit1 d.isMask ++ (0 : BitVec 1) ++ c.code))) = _
  try simp only [lw_hdr]
  try simp (disch := omega) only [extract_setWidth, extract_setWidth_sub, extract_append_lo, extract_append_hi, lw, vopn, isOne_bit1, cvtSub_sr, cvtSub_hi, cvtSub_ty]
  try simp) rfl hw

theorem Codec.fclass (h : LHdr) (d : Dst) (a : Src) : Codec.Statement (.fclass h d a) :=
  Codec.ofL rfl rfl fun hw => decodeL_of_parse (f := lw 0x08 h (d := d.opn) (a := a.opn)) (by
  change (fun f : LFields => (some (.fclass f.hdr f.d.dst f.a.src) : Option Instr)) (lw 0x08 h (d := d.opn) (a := a.opn)) = _
  try simp only [lw_hdr]
  try simp (disch := omega) only [extract_setWidth, extract_setWidth_sub, extract_append_lo, extract_append_hi, lw, vopn, isOne_bit1, cvtSub_sr, cvtSub_hi, cvtSub_ty]
  try simp) rfl hw

theorem Codec.fdiv (h : LHdr) (d : Dst) (a : Src) (b : Src) (r : RS) : Codec.Statement (.fdiv h d a b r) :=
  Codec.ofL rfl rfl fun hw => decodeL_of_parse (f := lw 0x09 h (d := d.opn) (a := a.opn) (b := b.opn) (sat := r.sat) (rm := r.rm)) (by
  change (fun f : LFields => ((RMode.ofCode f.rm).map fun rm => .fdiv f.hdr f.d.dst f.a.src f.b.src ⟨isOne f.sat, rm⟩ : Option Instr)) (lw 0x09 h (d := d.opn) (a := a.opn) (b := b.opn) (sat := r.sat) (rm := r.rm)) = _
  try simp only [lw_hdr]
  try simp (disch := omega) only [extract_setWidth, extract_setWidth_sub, extract_append_lo, extract_append_hi, lw, vopn, isOne_bit1, cvtSub_sr, cvtSub_hi, cvtSub_ty]
  try simp) rfl hw

theorem Codec.frcp (h : LHdr) (d : Dst) (a : Src) (r : RS) : Codec.Statement (.frcp h d a r) :=
  Codec.ofL rfl rfl fun hw => decodeL_of_parse (f := lw 0x0A h (d := d.opn) (a := a.opn) (sat := r.sat) (rm := r.rm)) (by
  change (fun f : LFields => ((RMode.ofCode f.rm).map fun rm => .frcp f.hdr f.d.dst f.a.src ⟨isOne f.sat, rm⟩ : Option Instr)) (lw 0x0A h (d := d.opn) (a := a.opn) (sat := r.sat) (rm := r.rm)) = _
  try simp only [lw_hdr]
  try simp (disch := omega) only [extract_setWidth, extract_setWidth_sub, extract_append_lo, extract_append_hi, lw, vopn, isOne_bit1, cvtSub_sr, cvtSub_hi, cvtSub_ty]
  try simp) rfl hw

theorem Codec.frsq (h : LHdr) (d : Dst) (a : Src) (r : RS) : Codec.Statement (.frsq h d a r) :=
  Codec.ofL rfl rfl fun hw => decodeL_of_parse (f := lw 0x0B h (d := d.opn) (a := a.opn) (sat := r.sat) (rm := r.rm)) (by
  change (fun f : LFields => ((RMode.ofCode f.rm).map fun rm => .frsq f.hdr f.d.dst f.a.src ⟨isOne f.sat, rm⟩ : Option Instr)) (lw 0x0B h (d := d.opn) (a := a.opn) (sat := r.sat) (rm := r.rm)) = _
  try simp only [lw_hdr]
  try simp (disch := omega) only [extract_setWidth, extract_setWidth_sub, extract_append_lo, extract_append_hi, lw, vopn, isOne_bit1, cvtSub_sr, cvtSub_hi, cvtSub_ty]
  try simp) rfl hw

theorem Codec.fsqrt (h : LHdr) (d : Dst) (a : Src) (r : RS) : Codec.Statement (.fsqrt h d a r) :=
  Codec.ofL rfl rfl fun hw => decodeL_of_parse (f := lw 0x0C h (d := d.opn) (a := a.opn) (sat := r.sat) (rm := r.rm)) (by
  change (fun f : LFields => ((RMode.ofCode f.rm).map fun rm => .fsqrt f.hdr f.d.dst f.a.src ⟨isOne f.sat, rm⟩ : Option Instr)) (lw 0x0C h (d := d.opn) (a := a.opn) (sat := r.sat) (rm := r.rm)) = _
  try simp only [lw_hdr]
  try simp (disch := omega) only [extract_setWidth, extract_setWidth_sub, extract_append_lo, extract_append_hi, lw, vopn, isOne_bit1, cvtSub_sr, cvtSub_hi, cvtSub_ty]
  try simp) rfl hw

theorem Codec.ex2 (h : LHdr) (d : Dst) (a : Src) (r : RS) : Codec.Statement (.ex2 h d a r) :=
  Codec.ofL rfl rfl fun hw => decodeL_of_parse (f := lw 0x0D h (d := d.opn) (a := a.opn) (sat := r.sat) (rm := r.rm)) (by
  change (fun f : LFields => ((RMode.ofCode f.rm).map fun rm => .ex2 f.hdr f.d.dst f.a.src ⟨isOne f.sat, rm⟩ : Option Instr)) (lw 0x0D h (d := d.opn) (a := a.opn) (sat := r.sat) (rm := r.rm)) = _
  try simp only [lw_hdr]
  try simp (disch := omega) only [extract_setWidth, extract_setWidth_sub, extract_append_lo, extract_append_hi, lw, vopn, isOne_bit1, cvtSub_sr, cvtSub_hi, cvtSub_ty]
  try simp) rfl hw

theorem Codec.lg2 (h : LHdr) (d : Dst) (a : Src) (r : RS) : Codec.Statement (.lg2 h d a r) :=
  Codec.ofL rfl rfl fun hw => decodeL_of_parse (f := lw 0x0E h (d := d.opn) (a := a.opn) (sat := r.sat) (rm := r.rm)) (by
  change (fun f : LFields => ((RMode.ofCode f.rm).map fun rm => .lg2 f.hdr f.d.dst f.a.src ⟨isOne f.sat, rm⟩ : Option Instr)) (lw 0x0E h (d := d.opn) (a := a.opn) (sat := r.sat) (rm := r.rm)) = _
  try simp only [lw_hdr]
  try simp (disch := omega) only [extract_setWidth, extract_setWidth_sub, extract_append_lo, extract_append_hi, lw, vopn, isOne_bit1, cvtSub_sr, cvtSub_hi, cvtSub_ty]
  try simp) rfl hw

theorem Codec.fsint (h : LHdr) (d : Dst) (a : Src) (r : RS) : Codec.Statement (.fsint h d a r) :=
  Codec.ofL rfl rfl fun hw => decodeL_of_parse (f := lw 0x0F h (d := d.opn) (a := a.opn) (sat := r.sat) (rm := r.rm)) (by
  change (fun f : LFields => ((RMode.ofCode f.rm).map fun rm => .fsint f.hdr f.d.dst f.a.src ⟨isOne f.sat, rm⟩ : Option Instr)) (lw 0x0F h (d := d.opn) (a := a.opn) (sat := r.sat) (rm := r.rm)) = _
  try simp only [lw_hdr]
  try simp (disch := omega) only [extract_setWidth, extract_setWidth_sub, extract_append_lo, extract_append_hi, lw, vopn, isOne_bit1, cvtSub_sr, cvtSub_hi, cvtSub_ty]
  try simp) rfl hw

theorem Codec.fcost (h : LHdr) (d : Dst) (a : Src) (r : RS) : Codec.Statement (.fcost h d a r) :=
  Codec.ofL rfl rfl fun hw => decodeL_of_parse (f := lw 0x10 h (d := d.opn) (a := a.opn) (sat := r.sat) (rm := r.rm)) (by
  change (fun f : LFields => ((RMode.ofCode f.rm).map fun rm => .fcost f.hdr f.d.dst f.a.src ⟨isOne f.sat, rm⟩ : Option Instr)) (lw 0x10 h (d := d.opn) (a := a.opn) (sat := r.sat) (rm := r.rm)) = _
  try simp only [lw_hdr]
  try simp (disch := omega) only [extract_setWidth, extract_setWidth_sub, extract_append_lo, extract_append_hi, lw, vopn, isOne_bit1, cvtSub_sr, cvtSub_hi, cvtSub_ty]
  try simp) rfl hw

theorem Codec.frint (h : LHdr) (d : Dst) (a : Src) (rm : RMode) : Codec.Statement (.frint h d a rm) :=
  Codec.ofL rfl rfl fun hw => decodeL_of_parse (f := lw 0x11 h (d := d.opn) (a := a.opn) (rm := rm)) (by
  change (fun f : LFields => ((RMode.ofCode f.rm).map fun rm => .frint f.hdr f.d.dst f.a.src rm : Option Instr)) (lw 0x11 h (d := d.opn) (a := a.opn) (rm := rm)) = _
  try simp only [lw_hdr]
  try simp (disch := omega) only [extract_setWidth, extract_setWidth_sub, extract_append_lo, extract_append_hi, lw, vopn, isOne_bit1, cvtSub_sr, cvtSub_hi, cvtSub_ty]
  try simp) rfl hw

theorem Codec.ffloor (h : LHdr) (d : Dst) (a : Src) : Codec.Statement (.ffloor h d a) :=
  Codec.ofL rfl rfl fun hw => decodeL_of_parse (f := lw 0x12 h (d := d.opn) (a := a.opn)) (by
  change (fun f : LFields => (some (.ffloor f.hdr f.d.dst f.a.src) : Option Instr)) (lw 0x12 h (d := d.opn) (a := a.opn)) = _
  try simp only [lw_hdr]
  try simp (disch := omega) only [extract_setWidth, extract_setWidth_sub, extract_append_lo, extract_append_hi, lw, vopn, isOne_bit1, cvtSub_sr, cvtSub_hi, cvtSub_ty]
  try simp) rfl hw

theorem Codec.fceil (h : LHdr) (d : Dst) (a : Src) : Codec.Statement (.fceil h d a) :=
  Codec.ofL rfl rfl fun hw => decodeL_of_parse (f := lw 0x13 h (d := d.opn) (a := a.opn)) (by
  change (fun f : LFields => (some (.fceil f.hdr f.d.dst f.a.src) : Option Instr)) (lw 0x13 h (d := d.opn) (a := a.opn)) = _
  try simp only [lw_hdr]
  try simp (disch := omega) only [extract_setWidth, extract_setWidth_sub, extract_append_lo, extract_append_hi, lw, vopn, isOne_bit1, cvtSub_sr, cvtSub_hi, cvtSub_ty]
  try simp) rfl hw

theorem Codec.ftrunc (h : LHdr) (d : Dst) (a : Src) : Codec.Statement (.ftrunc h d a) :=
  Codec.ofL rfl rfl fun hw => decodeL_of_parse (f := lw 0x14 h (d := d.opn) (a := a.opn)) (by
  change (fun f : LFields => (some (.ftrunc f.hdr f.d.dst f.a.src) : Option Instr)) (lw 0x14 h (d := d.opn) (a := a.opn)) = _
  try simp only [lw_hdr]
  try simp (disch := omega) only [extract_setWidth, extract_setWidth_sub, extract_append_lo, extract_append_hi, lw, vopn, isOne_bit1, cvtSub_sr, cvtSub_hi, cvtSub_ty]
  try simp) rfl hw

theorem Codec.ffract (h : LHdr) (d : Dst) (a : Src) (rm : RMode) : Codec.Statement (.ffract h d a rm) :=
  Codec.ofL rfl rfl fun hw => decodeL_of_parse (f := lw 0x15 h (d := d.opn) (a := a.opn) (rm := rm)) (by
  change (fun f : LFields => ((RMode.ofCode f.rm).map fun rm => .ffract f.hdr f.d.dst f.a.src rm : Option Instr)) (lw 0x15 h (d := d.opn) (a := a.opn) (rm := rm)) = _
  try simp only [lw_hdr]
  try simp (disch := omega) only [extract_setWidth, extract_setWidth_sub, extract_append_lo, extract_append_hi, lw, vopn, isOne_bit1, cvtSub_sr, cvtSub_hi, cvtSub_ty]
  try simp) rfl hw

theorem Codec.fscale (h : LHdr) (d : Dst) (a : Src) (b : Src) (r : RS) : Codec.Statement (.fscale h d a b r) :=
  Codec.ofL rfl rfl fun hw => decodeL_of_parse (f := lw 0x16 h (d := d.opn) (a := a.opn) (b := b.opn) (sat := r.sat) (rm := r.rm)) (by
  change (fun f : LFields => ((RMode.ofCode f.rm).map fun rm => .fscale f.hdr f.d.dst f.a.src f.b.src ⟨isOne f.sat, rm⟩ : Option Instr)) (lw 0x16 h (d := d.opn) (a := a.opn) (b := b.opn) (sat := r.sat) (rm := r.rm)) = _
  try simp only [lw_hdr]
  try simp (disch := omega) only [extract_setWidth, extract_setWidth_sub, extract_append_lo, extract_append_hi, lw, vopn, isOne_bit1, cvtSub_sr, cvtSub_hi, cvtSub_ty]
  try simp) rfl hw

theorem Codec.fgetexp (h : LHdr) (d : Dst) (a : Src) : Codec.Statement (.fgetexp h d a) :=
  Codec.ofL rfl rfl fun hw => decodeL_of_parse (f := lw 0x17 h (d := d.opn) (a := a.opn)) (by
  change (fun f : LFields => (some (.fgetexp f.hdr f.d.dst f.a.src) : Option Instr)) (lw 0x17 h (d := d.opn) (a := a.opn)) = _
  try simp only [lw_hdr]
  try simp (disch := omega) only [extract_setWidth, extract_setWidth_sub, extract_append_lo, extract_append_hi, lw, vopn, isOne_bit1, cvtSub_sr, cvtSub_hi, cvtSub_ty]
  try simp) rfl hw

theorem Codec.fcopysign (h : LHdr) (d : Dst) (a : Src) (b : Src) : Codec.Statement (.fcopysign h d a b) :=
  Codec.ofL rfl rfl fun hw => decodeL_of_parse (f := lw 0x18 h (d := d.opn) (a := a.opn) (b := b.opn)) (by
  change (fun f : LFields => (some (.fcopysign f.hdr f.d.dst f.a.src f.b.src) : Option Instr)) (lw 0x18 h (d := d.opn) (a := a.opn) (b := b.opn)) = _
  try simp only [lw_hdr]
  try simp (disch := omega) only [extract_setWidth, extract_setWidth_sub, extract_append_lo, extract_append_hi, lw, vopn, isOne_bit1, cvtSub_sr, cvtSub_hi, cvtSub_ty]
  try simp) rfl hw

theorem Codec.hadd2 (h : LHdr) (ty : NType) (d : Dst) (a : Src) (b : Src) (r : RS) : Codec.Statement (.hadd2 h ty d a b r) :=
  Codec.ofL rfl rfl fun hw => decodeL_of_parse (f := lw 0x20 h (d := d.opn) (a := a.opn) (b := b.opn) (ty := ty) (sat := r.sat) (rm := r.rm)) (by
  change (fun f : LFields => ((NType.ofCode f.ty).bind fun ty => (RMode.ofCode f.rm).map fun rm => .hadd2 f.hdr ty f.d.dst f.a.src f.b.src ⟨isOne f.sat, rm⟩ : Option Instr)) (lw 0x20 h (d := d.opn) (a := a.opn) (b := b.opn) (ty := ty) (sat := r.sat) (rm := r.rm)) = _
  try simp only [lw_hdr]
  try simp (disch := omega) only [extract_setWidth, extract_setWidth_sub, extract_append_lo, extract_append_hi, lw, vopn, isOne_bit1, cvtSub_sr, cvtSub_hi, cvtSub_ty]
  try simp) rfl hw

theorem Codec.hsub2 (h : LHdr) (ty : NType) (d : Dst) (a : Src) (b : Src) (r : RS) : Codec.Statement (.hsub2 h ty d a b r) :=
  Codec.ofL rfl rfl fun hw => decodeL_of_parse (f := lw 0x21 h (d := d.opn) (a := a.opn) (b := b.opn) (ty := ty) (sat := r.sat) (rm := r.rm)) (by
  change (fun f : LFields => ((NType.ofCode f.ty).bind fun ty => (RMode.ofCode f.rm).map fun rm => .hsub2 f.hdr ty f.d.dst f.a.src f.b.src ⟨isOne f.sat, rm⟩ : Option Instr)) (lw 0x21 h (d := d.opn) (a := a.opn) (b := b.opn) (ty := ty) (sat := r.sat) (rm := r.rm)) = _
  try simp only [lw_hdr]
  try simp (disch := omega) only [extract_setWidth, extract_setWidth_sub, extract_append_lo, extract_append_hi, lw, vopn, isOne_bit1, cvtSub_sr, cvtSub_hi, cvtSub_ty]
  try simp) rfl hw

theorem Codec.hmul2 (h : LHdr) (ty : NType) (d : Dst) (a : Src) (b : Src) (r : RS) : Codec.Statement (.hmul2 h ty d a b r) :=
  Codec.ofL rfl rfl fun hw => decodeL_of_parse (f := lw 0x22 h (d := d.opn) (a := a.opn) (b := b.opn) (ty := ty) (sat := r.sat) (rm := r.rm)) (by
  change (fun f : LFields => ((NType.ofCode f.ty).bind fun ty => (RMode.ofCode f.rm).map fun rm => .hmul2 f.hdr ty f.d.dst f.a.src f.b.src ⟨isOne f.sat, rm⟩ : Option Instr)) (lw 0x22 h (d := d.opn) (a := a.opn) (b := b.opn) (ty := ty) (sat := r.sat) (rm := r.rm)) = _
  try simp only [lw_hdr]
  try simp (disch := omega) only [extract_setWidth, extract_setWidth_sub, extract_append_lo, extract_append_hi, lw, vopn, isOne_bit1, cvtSub_sr, cvtSub_hi, cvtSub_ty]
  try simp) rfl hw

theorem Codec.hfma2 (h : LHdr) (ty : NType) (d : Dst) (a : Src) (b : Src) (c : Src) (r : RS) : Codec.Statement (.hfma2 h ty d a b c r) :=
  Codec.ofL rfl rfl fun hw => decodeL_of_parse (f := lw 0x23 h (d := d.opn) (a := a.opn) (b := b.opn) (c := c.opn) (ty := ty) (sat := r.sat) (rm := r.rm)) (by
  change (fun f : LFields => ((NType.ofCode f.ty).bind fun ty => (RMode.ofCode f.rm).map fun rm => .hfma2 f.hdr ty f.d.dst f.a.src f.b.src f.c.src ⟨isOne f.sat, rm⟩ : Option Instr)) (lw 0x23 h (d := d.opn) (a := a.opn) (b := b.opn) (c := c.opn) (ty := ty) (sat := r.sat) (rm := r.rm)) = _
  try simp only [lw_hdr]
  try simp (disch := omega) only [extract_setWidth, extract_setWidth_sub, extract_append_lo, extract_append_hi, lw, vopn, isOne_bit1, cvtSub_sr, cvtSub_hi, cvtSub_ty]
  try simp) rfl hw

theorem Codec.hmin2 (h : LHdr) (ty : NType) (d : Dst) (a : Src) (b : Src) : Codec.Statement (.hmin2 h ty d a b) :=
  Codec.ofL rfl rfl fun hw => decodeL_of_parse (f := lw 0x24 h (d := d.opn) (a := a.opn) (b := b.opn) (ty := ty)) (by
  change (fun f : LFields => ((NType.ofCode f.ty).map fun ty => .hmin2 f.hdr ty f.d.dst f.a.src f.b.src : Option Instr)) (lw 0x24 h (d := d.opn) (a := a.opn) (b := b.opn) (ty := ty)) = _
  try simp only [lw_hdr]
  try simp (disch := omega) only [extract_setWidth, extract_setWidth_sub, extract_append_lo, extract_append_hi, lw, vopn, isOne_bit1, cvtSub_sr, cvtSub_hi, cvtSub_ty]
  try simp) rfl hw

theorem Codec.hmax2 (h : LHdr) (ty : NType) (d : Dst) (a : Src) (b : Src) : Codec.Statement (.hmax2 h ty d a b) :=
  Codec.ofL rfl rfl fun hw => decodeL_of_parse (f := lw 0x25 h (d := d.opn) (a := a.opn) (b := b.opn) (ty := ty)) (by
  change (fun f : LFields => ((NType.ofCode f.ty).map fun ty => .hmax2 f.hdr ty f.d.dst f.a.src f.b.src : Option Instr)) (lw 0x25 h (d := d.opn) (a := a.opn) (b := b.opn) (ty := ty)) = _
  try simp only [lw_hdr]
  try simp (disch := omega) only [extract_setWidth, extract_setWidth_sub, extract_append_lo, extract_append_hi, lw, vopn, isOne_bit1, cvtSub_sr, cvtSub_hi, cvtSub_ty]
  try simp) rfl hw

theorem Codec.hcmp2 (h : LHdr) (ty : NType) (d : Dst) (c : FCond) (a : Src) (b : Src) : Codec.Statement (.hcmp2 h ty d c a b) :=
  Codec.ofL rfl rfl fun hw => decodeL_of_parse (f := lw 0x26 h (d := d.opn) (a := a.opn) (b := b.opn) (ty := ty) (sub := s6 c.code)) (by
  change (fun f : LFields => ((NType.ofCode f.ty).bind fun ty => (FCond.ofCode (f.sub.extractLsb' 0 3)).map fun c => .hcmp2 f.hdr ty f.d.dst c f.a.src f.b.src : Option Instr)) (lw 0x26 h (d := d.opn) (a := a.opn) (b := b.opn) (ty := ty) (sub := s6 c.code)) = _
  try simp only [lw_hdr]
  try simp (disch := omega) only [extract_setWidth, extract_setWidth_sub, extract_append_lo, extract_append_hi, lw, vopn, isOne_bit1, cvtSub_sr, cvtSub_hi, cvtSub_ty]
  try simp) rfl hw

theorem Codec.hdot2 (h : LHdr) (ty : NType) (d : Dst) (a : Src) (b : Src) (c : Src) (r : RS) : Codec.Statement (.hdot2 h ty d a b c r) :=
  Codec.ofL rfl rfl fun hw => decodeL_of_parse (f := lw 0x27 h (d := d.opn) (a := a.opn) (b := b.opn) (c := c.opn) (ty := ty) (sat := r.sat) (rm := r.rm)) (by
  change (fun f : LFields => ((NType.ofCode f.ty).bind fun ty => (RMode.ofCode f.rm).map fun rm => .hdot2 f.hdr ty f.d.dst f.a.src f.b.src f.c.src ⟨isOne f.sat, rm⟩ : Option Instr)) (lw 0x27 h (d := d.opn) (a := a.opn) (b := b.opn) (c := c.opn) (ty := ty) (sat := r.sat) (rm := r.rm)) = _
  try simp only [lw_hdr]
  try simp (disch := omega) only [extract_setWidth, extract_setWidth_sub, extract_append_lo, extract_append_hi, lw, vopn, isOne_bit1, cvtSub_sr, cvtSub_hi, cvtSub_ty]
  try simp) rfl hw

theorem Codec.cvt (h : LHdr) (ty : NType) (sty : NType) (shi : Bool) (sr : Bool) (d : HDst) (a : Src) (r : RS) : Codec.Statement (.cvt h ty sty shi sr d a r) :=
  Codec.ofL rfl rfl fun hw => decodeL_of_parse (f := lw 0x30 h (d := d.opn) (a := a.opn) (ty := ty) (sat := r.sat) (rm := r.rm) (sub := cvtSub shi sty sr)) (by
  change (fun f : LFields => ((NType.ofCode f.ty).bind fun ty => (RMode.ofCode f.rm).bind fun rm => (NType.ofCode (f.sub.extractLsb' 1 4)).map fun sty => .cvt f.hdr ty sty (isOne (f.sub.extractLsb' 5 1)) (isOne (f.sub.extractLsb' 0 1)) f.d.hdst f.a.src ⟨isOne f.sat, rm⟩ : Option Instr)) (lw 0x30 h (d := d.opn) (a := a.opn) (ty := ty) (sat := r.sat) (rm := r.rm) (sub := cvtSub shi sty sr)) = _
  try simp only [lw_hdr]
  try simp (disch := omega) only [extract_setWidth, extract_setWidth_sub, extract_append_lo, extract_append_hi, lw, vopn, isOne_bit1, cvtSub_sr, cvtSub_hi, cvtSub_ty]
  try simp) rfl hw

theorem Codec.cvt2 (h : LHdr) (ty : NType) (sty : NType) (sr : Bool) (d : Dst) (a : Src) (r : RS) : Codec.Statement (.cvt2 h ty sty sr d a r) :=
  Codec.ofL rfl rfl fun hw => decodeL_of_parse (f := lw 0x31 h (d := d.opn) (a := a.opn) (ty := ty) (sat := r.sat) (rm := r.rm) (sub := cvtSub false sty sr)) (by
  change (fun f : LFields => ((NType.ofCode f.ty).bind fun ty => (RMode.ofCode f.rm).bind fun rm => (NType.ofCode (f.sub.extractLsb' 1 4)).map fun sty => .cvt2 f.hdr ty sty (isOne (f.sub.extractLsb' 0 1)) f.d.dst f.a.src ⟨isOne f.sat, rm⟩ : Option Instr)) (lw 0x31 h (d := d.opn) (a := a.opn) (ty := ty) (sat := r.sat) (rm := r.rm) (sub := cvtSub false sty sr)) = _
  try simp only [lw_hdr]
  try simp (disch := omega) only [extract_setWidth, extract_setWidth_sub, extract_append_lo, extract_append_hi, lw, vopn, isOne_bit1, cvtSub_sr, cvtSub_hi, cvtSub_ty]
  try simp) rfl hw

theorem Codec.cvt4 (h : LHdr) (ty : NType) (sty : NType) (sr : Bool) (d : Dst) (a : Src) (b : Option Src) (r : RS) : Codec.Statement (.cvt4 h ty sty sr d a b r) :=
  Codec.ofL rfl rfl fun hw => decodeL_of_parse (f := lw 0x32 h (d := d.opn) (a := a.opn) (b := scaleOpn b) (ty := ty) (sat := r.sat) (rm := r.rm) (sub := cvtSub b.isSome sty sr)) (by
  change (fun f : LFields => ((NType.ofCode f.ty).bind fun ty => (RMode.ofCode f.rm).bind fun rm => (NType.ofCode (f.sub.extractLsb' 1 4)).map fun sty => .cvt4 f.hdr ty sty (isOne (f.sub.extractLsb' 0 1)) f.d.dst f.a.src (if (isOne (f.sub.extractLsb' 5 1)) then some f.b.src else none) ⟨isOne f.sat, rm⟩ : Option Instr)) (lw 0x32 h (d := d.opn) (a := a.opn) (b := scaleOpn b) (ty := ty) (sat := r.sat) (rm := r.rm) (sub := cvtSub b.isSome sty sr)) = _
  try simp only [lw_hdr]
  try simp (disch := omega) only [extract_setWidth, extract_setWidth_sub, extract_append_lo, extract_append_hi, lw, vopn, isOne_bit1, cvtSub_sr, cvtSub_hi, cvtSub_ty]
  try simp) rfl hw

theorem Codec.cvt8 (h : LHdr) (ty : NType) (sty : NType) (sr : Bool) (d : Dst) (a : Src) (b : Option Src) (r : RS) : Codec.Statement (.cvt8 h ty sty sr d a b r) :=
  Codec.ofL rfl rfl fun hw => decodeL_of_parse (f := lw 0x33 h (d := d.opn) (a := a.opn) (b := scaleOpn b) (ty := ty) (sat := r.sat) (rm := r.rm) (sub := cvtSub b.isSome sty sr)) (by
  change (fun f : LFields => ((NType.ofCode f.ty).bind fun ty => (RMode.ofCode f.rm).bind fun rm => (NType.ofCode (f.sub.extractLsb' 1 4)).map fun sty => .cvt8 f.hdr ty sty (isOne (f.sub.extractLsb' 0 1)) f.d.dst f.a.src (if (isOne (f.sub.extractLsb' 5 1)) then some f.b.src else none) ⟨isOne f.sat, rm⟩ : Option Instr)) (lw 0x33 h (d := d.opn) (a := a.opn) (b := scaleOpn b) (ty := ty) (sat := r.sat) (rm := r.rm) (sub := cvtSub b.isSome sty sr)) = _
  try simp only [lw_hdr]
  try simp (disch := omega) only [extract_setWidth, extract_setWidth_sub, extract_append_lo, extract_append_hi, lw, vopn, isOne_bit1, cvtSub_sr, cvtSub_hi, cvtSub_ty]
  try simp) rfl hw

theorem Codec.qdec (h : LHdr) (ty : NType) (sr : Bool) (d : Dst) (a : Src) (b : Src) (c : Src) (r : RS) : Codec.Statement (.qdec h ty sr d a b c r) :=
  Codec.ofL rfl rfl fun hw => decodeL_of_parse (f := lw 0x34 h (d := d.opn) (a := a.opn) (b := b.opn) (c := c.opn) (ty := ty) (sat := r.sat) (rm := r.rm) (sub := cvtSub false .qn4 sr)) (by
  change (fun f : LFields => ((NType.ofCode f.ty).bind fun ty => (RMode.ofCode f.rm).map fun rm => .qdec f.hdr ty (isOne (f.sub.extractLsb' 0 1)) f.d.dst f.a.src f.b.src f.c.src ⟨isOne f.sat, rm⟩ : Option Instr)) (lw 0x34 h (d := d.opn) (a := a.opn) (b := b.opn) (c := c.opn) (ty := ty) (sat := r.sat) (rm := r.rm) (sub := cvtSub false .qn4 sr)) = _
  try simp only [lw_hdr]
  try simp (disch := omega) only [extract_setWidth, extract_setWidth_sub, extract_append_lo, extract_append_hi, lw, vopn, isOne_bit1, cvtSub_sr, cvtSub_hi, cvtSub_ty]
  try simp) rfl hw

theorem Codec.qenc (h : LHdr) (d : Dst) (a : Src) (b : Src) (c : Src) (i : BitVec 3) : Codec.Statement (.qenc h d a b c i) :=
  Codec.ofL rfl rfl fun hw => decodeL_of_parse (f := lw 0x35 h (d := d.opn) (a := a.opn) (b := b.opn) (c := c.opn) (ty := .qn4) (imm := i24 i)) (by
  change (fun f : LFields => (some (.qenc f.hdr f.d.dst f.a.src f.b.src f.c.src (f.imm.extractLsb' 0 3)) : Option Instr)) (lw 0x35 h (d := d.opn) (a := a.opn) (b := b.opn) (c := c.opn) (ty := .qn4) (imm := i24 i)) = _
  try simp only [lw_hdr]
  try simp (disch := omega) only [extract_setWidth, extract_setWidth_sub, extract_append_lo, extract_append_hi, lw, vopn, isOne_bit1, cvtSub_sr, cvtSub_hi, cvtSub_ty]
  try simp) rfl hw

theorem Codec.ftoi (h : LHdr) (ty : NType) (sty : NType) (shi : Bool) (d : HDst) (a : Src) (rm : RMode) : Codec.Statement (.ftoi h ty sty shi d a rm) :=
  Codec.ofL rfl rfl fun hw => decodeL_of_parse (f := lw 0x36 h (d := d.opn) (a := a.opn) (ty := ty) (rm := rm) (sub := cvtSub shi sty false)) (by
  change (fun f : LFields => ((NType.ofCode f.ty).bind fun ty => (RMode.ofCode f.rm).bind fun rm => (NType.ofCode (f.sub.extractLsb' 1 4)).map fun sty => .ftoi f.hdr ty sty (isOne (f.sub.extractLsb' 5 1)) f.d.hdst f.a.src rm : Option Instr)) (lw 0x36 h (d := d.opn) (a := a.opn) (ty := ty) (rm := rm) (sub := cvtSub shi sty false)) = _
  try simp only [lw_hdr]
  try simp (disch := omega) only [extract_setWidth, extract_setWidth_sub, extract_append_lo, extract_append_hi, lw, vopn, isOne_bit1, cvtSub_sr, cvtSub_hi, cvtSub_ty]
  try simp) rfl hw

theorem Codec.itof (h : LHdr) (ty : NType) (sty : NType) (shi : Bool) (sr : Bool) (d : HDst) (a : Src) (r : RS) : Codec.Statement (.itof h ty sty shi sr d a r) :=
  Codec.ofL rfl rfl fun hw => decodeL_of_parse (f := lw 0x37 h (d := d.opn) (a := a.opn) (ty := ty) (sat := r.sat) (rm := r.rm) (sub := cvtSub shi sty sr)) (by
  change (fun f : LFields => ((NType.ofCode f.ty).bind fun ty => (RMode.ofCode f.rm).bind fun rm => (NType.ofCode (f.sub.extractLsb' 1 4)).map fun sty => .itof f.hdr ty sty (isOne (f.sub.extractLsb' 5 1)) (isOne (f.sub.extractLsb' 0 1)) f.d.hdst f.a.src ⟨isOne f.sat, rm⟩ : Option Instr)) (lw 0x37 h (d := d.opn) (a := a.opn) (ty := ty) (sat := r.sat) (rm := r.rm) (sub := cvtSub shi sty sr)) = _
  try simp only [lw_hdr]
  try simp (disch := omega) only [extract_setWidth, extract_setWidth_sub, extract_append_lo, extract_append_hi, lw, vopn, isOne_bit1, cvtSub_sr, cvtSub_hi, cvtSub_ty]
  try simp) rfl hw

theorem Codec.icvt (h : LHdr) (ty : NType) (sty : NType) (shi : Bool) (d : HDst) (a : Src) (sat : Bool) : Codec.Statement (.icvt h ty sty shi d a sat) :=
  Codec.ofL rfl rfl fun hw => decodeL_of_parse (f := lw 0x38 h (d := d.opn) (a := a.opn) (ty := ty) (sat := sat) (sub := cvtSub shi sty false)) (by
  change (fun f : LFields => ((NType.ofCode f.ty).bind fun ty => (NType.ofCode (f.sub.extractLsb' 1 4)).map fun sty => .icvt f.hdr ty sty (isOne (f.sub.extractLsb' 5 1)) f.d.hdst f.a.src (isOne f.sat) : Option Instr)) (lw 0x38 h (d := d.opn) (a := a.opn) (ty := ty) (sat := sat) (sub := cvtSub shi sty false)) = _
  try simp only [lw_hdr]
  try simp (disch := omega) only [extract_setWidth, extract_setWidth_sub, extract_append_lo, extract_append_hi, lw, vopn, isOne_bit1, cvtSub_sr, cvtSub_hi, cvtSub_ty]
  try simp) rfl hw

theorem Codec.iadd (h : LHdr) (ty : NType) (d : Dst) (a : Src) (b : Src) (sat : Bool) : Codec.Statement (.iadd h ty d a b sat) :=
  Codec.ofL rfl rfl fun hw => decodeL_of_parse (f := lw 0x40 h (d := d.opn) (a := a.opn) (b := b.opn) (ty := ty) (sat := sat)) (by
  change (fun f : LFields => ((NType.ofCode f.ty).map fun ty => .iadd f.hdr ty f.d.dst f.a.src f.b.src (isOne f.sat) : Option Instr)) (lw 0x40 h (d := d.opn) (a := a.opn) (b := b.opn) (ty := ty) (sat := sat)) = _
  try simp only [lw_hdr]
  try simp (disch := omega) only [extract_setWidth, extract_setWidth_sub, extract_append_lo, extract_append_hi, lw, vopn, isOne_bit1, cvtSub_sr, cvtSub_hi, cvtSub_ty]
  try simp) rfl hw

theorem Codec.isub (h : LHdr) (ty : NType) (d : Dst) (a : Src) (b : Src) (sat : Bool) : Codec.Statement (.isub h ty d a b sat) :=
  Codec.ofL rfl rfl fun hw => decodeL_of_parse (f := lw 0x41 h (d := d.opn) (a := a.opn) (b := b.opn) (ty := ty) (sat := sat)) (by
  change (fun f : LFields => ((NType.ofCode f.ty).map fun ty => .isub f.hdr ty f.d.dst f.a.src f.b.src (isOne f.sat) : Option Instr)) (lw 0x41 h (d := d.opn) (a := a.opn) (b := b.opn) (ty := ty) (sat := sat)) = _
  try simp only [lw_hdr]
  try simp (disch := omega) only [extract_setWidth, extract_setWidth_sub, extract_append_lo, extract_append_hi, lw, vopn, isOne_bit1, cvtSub_sr, cvtSub_hi, cvtSub_ty]
  try simp) rfl hw

theorem Codec.imul (h : LHdr) (ty : NType) (d : Dst) (a : Src) (b : Src) (sat : Bool) : Codec.Statement (.imul h ty d a b sat) :=
  Codec.ofL rfl rfl fun hw => decodeL_of_parse (f := lw 0x42 h (d := d.opn) (a := a.opn) (b := b.opn) (ty := ty) (sat := sat)) (by
  change (fun f : LFields => ((NType.ofCode f.ty).map fun ty => .imul f.hdr ty f.d.dst f.a.src f.b.src (isOne f.sat) : Option Instr)) (lw 0x42 h (d := d.opn) (a := a.opn) (b := b.opn) (ty := ty) (sat := sat)) = _
  try simp only [lw_hdr]
  try simp (disch := omega) only [extract_setWidth, extract_setWidth_sub, extract_append_lo, extract_append_hi, lw, vopn, isOne_bit1, cvtSub_sr, cvtSub_hi, cvtSub_ty]
  try simp) rfl hw

theorem Codec.imulh (h : LHdr) (ty : NType) (d : Dst) (a : Src) (b : Src) : Codec.Statement (.imulh h ty d a b) :=
  Codec.ofL rfl rfl fun hw => decodeL_of_parse (f := lw 0x43 h (d := d.opn) (a := a.opn) (b := b.opn) (ty := ty)) (by
  change (fun f : LFields => ((NType.ofCode f.ty).map fun ty => .imulh f.hdr ty f.d.dst f.a.src f.b.src : Option Instr)) (lw 0x43 h (d := d.opn) (a := a.opn) (b := b.opn) (ty := ty)) = _
  try simp only [lw_hdr]
  try simp (disch := omega) only [extract_setWidth, extract_setWidth_sub, extract_append_lo, extract_append_hi, lw, vopn, isOne_bit1, cvtSub_sr, cvtSub_hi, cvtSub_ty]
  try simp) rfl hw

theorem Codec.imad (h : LHdr) (ty : NType) (d : Dst) (a : Src) (b : Src) (c : Src) (sat : Bool) : Codec.Statement (.imad h ty d a b c sat) :=
  Codec.ofL rfl rfl fun hw => decodeL_of_parse (f := lw 0x44 h (d := d.opn) (a := a.opn) (b := b.opn) (c := c.opn) (ty := ty) (sat := sat)) (by
  change (fun f : LFields => ((NType.ofCode f.ty).map fun ty => .imad f.hdr ty f.d.dst f.a.src f.b.src f.c.src (isOne f.sat) : Option Instr)) (lw 0x44 h (d := d.opn) (a := a.opn) (b := b.opn) (c := c.opn) (ty := ty) (sat := sat)) = _
  try simp only [lw_hdr]
  try simp (disch := omega) only [extract_setWidth, extract_setWidth_sub, extract_append_lo, extract_append_hi, lw, vopn, isOne_bit1, cvtSub_sr, cvtSub_hi, cvtSub_ty]
  try simp) rfl hw

theorem Codec.imin (h : LHdr) (ty : NType) (d : Dst) (a : Src) (b : Src) : Codec.Statement (.imin h ty d a b) :=
  Codec.ofL rfl rfl fun hw => decodeL_of_parse (f := lw 0x45 h (d := d.opn) (a := a.opn) (b := b.opn) (ty := ty)) (by
  change (fun f : LFields => ((NType.ofCode f.ty).map fun ty => .imin f.hdr ty f.d.dst f.a.src f.b.src : Option Instr)) (lw 0x45 h (d := d.opn) (a := a.opn) (b := b.opn) (ty := ty)) = _
  try simp only [lw_hdr]
  try simp (disch := omega) only [extract_setWidth, extract_setWidth_sub, extract_append_lo, extract_append_hi, lw, vopn, isOne_bit1, cvtSub_sr, cvtSub_hi, cvtSub_ty]
  try simp) rfl hw

theorem Codec.imax (h : LHdr) (ty : NType) (d : Dst) (a : Src) (b : Src) : Codec.Statement (.imax h ty d a b) :=
  Codec.ofL rfl rfl fun hw => decodeL_of_parse (f := lw 0x46 h (d := d.opn) (a := a.opn) (b := b.opn) (ty := ty)) (by
  change (fun f : LFields => ((NType.ofCode f.ty).map fun ty => .imax f.hdr ty f.d.dst f.a.src f.b.src : Option Instr)) (lw 0x46 h (d := d.opn) (a := a.opn) (b := b.opn) (ty := ty)) = _
  try simp only [lw_hdr]
  try simp (disch := omega) only [extract_setWidth, extract_setWidth_sub, extract_append_lo, extract_append_hi, lw, vopn, isOne_bit1, cvtSub_sr, cvtSub_hi, cvtSub_ty]
  try simp) rfl hw

theorem Codec.iabs (h : LHdr) (ty : NType) (d : Dst) (a : Src) (sat : Bool) : Codec.Statement (.iabs h ty d a sat) :=
  Codec.ofL rfl rfl fun hw => decodeL_of_parse (f := lw 0x47 h (d := d.opn) (a := a.opn) (ty := ty) (sat := sat)) (by
  change (fun f : LFields => ((NType.ofCode f.ty).map fun ty => .iabs f.hdr ty f.d.dst f.a.src (isOne f.sat) : Option Instr)) (lw 0x47 h (d := d.opn) (a := a.opn) (ty := ty) (sat := sat)) = _
  try simp only [lw_hdr]
  try simp (disch := omega) only [extract_setWidth, extract_setWidth_sub, extract_append_lo, extract_append_hi, lw, vopn, isOne_bit1, cvtSub_sr, cvtSub_hi, cvtSub_ty]
  try simp) rfl hw

theorem Codec.ishl (h : LHdr) (ty : NType) (d : Dst) (a : Src) (n : Cnt) : Codec.Statement (.ishl h ty d a n) :=
  Codec.ofL rfl rfl fun hw => decodeL_of_parse (f := lw 0x48 h (d := d.opn) (a := a.opn) (b := n.parts.1) (ty := ty) (sub := n.parts.2.1) (imm := n.parts.2.2)) (by
  change (fun f : LFields => ((NType.ofCode f.ty).map fun ty => .ishl f.hdr ty f.d.dst f.a.src (if (isOne (f.sub.extractLsb' 0 1)) then .imm (f.imm.extractLsb' 0 6) else .src f.b.src) : Option Instr)) (lw 0x48 h (d := d.opn) (a := a.opn) (b := n.parts.1) (ty := ty) (sub := n.parts.2.1) (imm := n.parts.2.2)) = _
  try simp only [lw_hdr]
  try simp (disch := omega) only [extract_setWidth, extract_setWidth_sub, extract_append_lo, extract_append_hi, lw, vopn, isOne_bit1, cvtSub_sr, cvtSub_hi, cvtSub_ty]
  try simp) rfl hw

theorem Codec.ishr (h : LHdr) (ty : NType) (d : Dst) (a : Src) (n : Cnt) : Codec.Statement (.ishr h ty d a n) :=
  Codec.ofL rfl rfl fun hw => decodeL_of_parse (f := lw 0x49 h (d := d.opn) (a := a.opn) (b := n.parts.1) (ty := ty) (sub := n.parts.2.1) (imm := n.parts.2.2)) (by
  change (fun f : LFields => ((NType.ofCode f.ty).map fun ty => .ishr f.hdr ty f.d.dst f.a.src (if (isOne (f.sub.extractLsb' 0 1)) then .imm (f.imm.extractLsb' 0 6) else .src f.b.src) : Option Instr)) (lw 0x49 h (d := d.opn) (a := a.opn) (b := n.parts.1) (ty := ty) (sub := n.parts.2.1) (imm := n.parts.2.2)) = _
  try simp only [lw_hdr]
  try simp (disch := omega) only [extract_setWidth, extract_setWidth_sub, extract_append_lo, extract_append_hi, lw, vopn, isOne_bit1, cvtSub_sr, cvtSub_hi, cvtSub_ty]
  try simp) rfl hw

theorem Codec.isar (h : LHdr) (ty : NType) (d : Dst) (a : Src) (n : Cnt) : Codec.Statement (.isar h ty d a n) :=
  Codec.ofL rfl rfl fun hw => decodeL_of_parse (f := lw 0x4A h (d := d.opn) (a := a.opn) (b := n.parts.1) (ty := ty) (sub := n.parts.2.1) (imm := n.parts.2.2)) (by
  change (fun f : LFields => ((NType.ofCode f.ty).map fun ty => .isar f.hdr ty f.d.dst f.a.src (if (isOne (f.sub.extractLsb' 0 1)) then .imm (f.imm.extractLsb' 0 6) else .src f.b.src) : Option Instr)) (lw 0x4A h (d := d.opn) (a := a.opn) (b := n.parts.1) (ty := ty) (sub := n.parts.2.1) (imm := n.parts.2.2)) = _
  try simp only [lw_hdr]
  try simp (disch := omega) only [extract_setWidth, extract_setWidth_sub, extract_append_lo, extract_append_hi, lw, vopn, isOne_bit1, cvtSub_sr, cvtSub_hi, cvtSub_ty]
  try simp) rfl hw

theorem Codec.fshl (h : LHdr) (d : Dst) (a : Src) (b : Src) (n : Cnt) : Codec.Statement (.fshl h d a b n) :=
  Codec.ofL rfl rfl fun hw => decodeL_of_parse (f := lw 0x4B h (d := d.opn) (a := a.opn) (b := b.opn) (c := n.parts.1) (ty := .n32) (sub := n.parts.2.1) (imm := n.parts.2.2)) (by
  change (fun f : LFields => (some (.fshl f.hdr f.d.dst f.a.src f.b.src (if (isOne (f.sub.extractLsb' 0 1)) then .imm (f.imm.extractLsb' 0 6) else .src f.c.src)) : Option Instr)) (lw 0x4B h (d := d.opn) (a := a.opn) (b := b.opn) (c := n.parts.1) (ty := .n32) (sub := n.parts.2.1) (imm := n.parts.2.2)) = _
  try simp only [lw_hdr]
  try simp (disch := omega) only [extract_setWidth, extract_setWidth_sub, extract_append_lo, extract_append_hi, lw, vopn, isOne_bit1, cvtSub_sr, cvtSub_hi, cvtSub_ty]
  try simp) rfl hw

theorem Codec.fshr (h : LHdr) (d : Dst) (a : Src) (b : Src) (n : Cnt) : Codec.Statement (.fshr h d a b n) :=
  Codec.ofL rfl rfl fun hw => decodeL_of_parse (f := lw 0x4C h (d := d.opn) (a := a.opn) (b := b.opn) (c := n.parts.1) (ty := .n32) (sub := n.parts.2.1) (imm := n.parts.2.2)) (by
  change (fun f : LFields => (some (.fshr f.hdr f.d.dst f.a.src f.b.src (if (isOne (f.sub.extractLsb' 0 1)) then .imm (f.imm.extractLsb' 0 6) else .src f.c.src)) : Option Instr)) (lw 0x4C h (d := d.opn) (a := a.opn) (b := b.opn) (c := n.parts.1) (ty := .n32) (sub := n.parts.2.1) (imm := n.parts.2.2)) = _
  try simp only [lw_hdr]
  try simp (disch := omega) only [extract_setWidth, extract_setWidth_sub, extract_append_lo, extract_append_hi, lw, vopn, isOne_bit1, cvtSub_sr, cvtSub_hi, cvtSub_ty]
  try simp) rfl hw

theorem Codec.logic3 (h : LHdr) (d : Dst) (a : Src) (b : Src) (c : Src) (tt : BitVec 8) : Codec.Statement (.logic3 h d a b c tt) :=
  Codec.ofL rfl rfl fun hw => decodeL_of_parse (f := lw 0x4D h (d := d.opn) (a := a.opn) (b := b.opn) (c := c.opn) (ty := .n32) (imm := i24 tt)) (by
  change (fun f : LFields => (some (.logic3 f.hdr f.d.dst f.a.src f.b.src f.c.src (f.imm.extractLsb' 0 8)) : Option Instr)) (lw 0x4D h (d := d.opn) (a := a.opn) (b := b.opn) (c := c.opn) (ty := .n32) (imm := i24 tt)) = _
  try simp only [lw_hdr]
  try simp (disch := omega) only [extract_setWidth, extract_setWidth_sub, extract_append_lo, extract_append_hi, lw, vopn, isOne_bit1, cvtSub_sr, cvtSub_hi, cvtSub_ty]
  try simp) rfl hw

theorem Codec.laneBfx (h : LHdr) (ty : NType) (d : Dst) (a : Src) (b : Src) : Codec.Statement (.laneBfx h ty d a b) :=
  Codec.ofL rfl rfl fun hw => decodeL_of_parse (f := lw 0x4E h (d := d.opn) (a := a.opn) (b := b.opn) (ty := ty)) (by
  change (fun f : LFields => ((NType.ofCode f.ty).map fun ty => .laneBfx f.hdr ty f.d.dst f.a.src f.b.src : Option Instr)) (lw 0x4E h (d := d.opn) (a := a.opn) (b := b.opn) (ty := ty)) = _
  try simp only [lw_hdr]
  try simp (disch := omega) only [extract_setWidth, extract_setWidth_sub, extract_append_lo, extract_append_hi, lw, vopn, isOne_bit1, cvtSub_sr, cvtSub_hi, cvtSub_ty]
  try simp) rfl hw

theorem Codec.laneBfi (h : LHdr) (ty : NType) (d : Dst) (a : Src) (b : Src) (c : Src) : Codec.Statement (.laneBfi h ty d a b c) :=
  Codec.ofL rfl rfl fun hw => decodeL_of_parse (f := lw 0x4F h (d := d.opn) (a := a.opn) (b := b.opn) (c := c.opn) (ty := ty)) (by
  change (fun f : LFields => ((NType.ofCode f.ty).map fun ty => .laneBfi f.hdr ty f.d.dst f.a.src f.b.src f.c.src : Option Instr)) (lw 0x4F h (d := d.opn) (a := a.opn) (b := b.opn) (c := c.opn) (ty := ty)) = _
  try simp only [lw_hdr]
  try simp (disch := omega) only [extract_setWidth, extract_setWidth_sub, extract_append_lo, extract_append_hi, lw, vopn, isOne_bit1, cvtSub_sr, cvtSub_hi, cvtSub_ty]
  try simp) rfl hw

theorem Codec.lanePopc (h : LHdr) (d : Dst) (a : Src) : Codec.Statement (.lanePopc h d a) :=
  Codec.ofL rfl rfl fun hw => decodeL_of_parse (f := lw 0x50 h (d := d.opn) (a := a.opn) (ty := .n32)) (by
  change (fun f : LFields => (some (.lanePopc f.hdr f.d.dst f.a.src) : Option Instr)) (lw 0x50 h (d := d.opn) (a := a.opn) (ty := .n32)) = _
  try simp only [lw_hdr]
  try simp (disch := omega) only [extract_setWidth, extract_setWidth_sub, extract_append_lo, extract_append_hi, lw, vopn, isOne_bit1, cvtSub_sr, cvtSub_hi, cvtSub_ty]
  try simp) rfl hw

theorem Codec.laneClz (h : LHdr) (d : Dst) (a : Src) : Codec.Statement (.laneClz h d a) :=
  Codec.ofL rfl rfl fun hw => decodeL_of_parse (f := lw 0x51 h (d := d.opn) (a := a.opn) (ty := .n32)) (by
  change (fun f : LFields => (some (.laneClz f.hdr f.d.dst f.a.src) : Option Instr)) (lw 0x51 h (d := d.opn) (a := a.opn) (ty := .n32)) = _
  try simp only [lw_hdr]
  try simp (disch := omega) only [extract_setWidth, extract_setWidth_sub, extract_append_lo, extract_append_hi, lw, vopn, isOne_bit1, cvtSub_sr, cvtSub_hi, cvtSub_ty]
  try simp) rfl hw

theorem Codec.laneBrev (h : LHdr) (d : Dst) (a : Src) : Codec.Statement (.laneBrev h d a) :=
  Codec.ofL rfl rfl fun hw => decodeL_of_parse (f := lw 0x52 h (d := d.opn) (a := a.opn) (ty := .n32)) (by
  change (fun f : LFields => (some (.laneBrev f.hdr f.d.dst f.a.src) : Option Instr)) (lw 0x52 h (d := d.opn) (a := a.opn) (ty := .n32)) = _
  try simp only [lw_hdr]
  try simp (disch := omega) only [extract_setWidth, extract_setWidth_sub, extract_append_lo, extract_append_hi, lw, vopn, isOne_bit1, cvtSub_sr, cvtSub_hi, cvtSub_ty]
  try simp) rfl hw

theorem Codec.icmp (h : LHdr) (ty : NType) (d : PDst) (c : ICond) (a : Src) (b : Src) : Codec.Statement (.icmp h ty d c a b) :=
  Codec.ofL rfl rfl fun hw => decodeL_of_parse (f := lw 0x53 h (d := d.opn) (a := a.opn) (b := b.opn) (ty := ty) (sub := s6 (bit1 d.isMask ++ (0 : BitVec 1) ++ c.code))) (by
  change (fun f : LFields => ((NType.ofCode f.ty).bind fun ty => (ICond.ofCode (f.sub.extractLsb' 0 3)).map fun c => .icmp f.hdr ty (f.d.pdst (isOne (f.sub.extractLsb' 4 1))) c f.a.src f.b.src : Option Instr)) (lw 0x53 h (d := d.opn) (a := a.opn) (b := b.opn) (ty := ty) (sub := s6 (bit1 d.isMask ++ (0 : BitVec 1) ++ c.code))) = _
  try simp only [lw_hdr]
  try simp (disch := omega) only [extract_setWidth, extract_setWidth_sub, extract_append_lo, extract_append_hi, lw, vopn, isOne_bit1, cvtSub_sr, cvtSub_hi, cvtSub_ty]
  try simp) rfl hw

theorem Codec.laneSel (h : LHdr) (ty : NType) (d : Dst) (a : Src) (b : Src) (m : BitVec 4) (neg : Bool) : Codec.Statement (.laneSel h ty d a b m neg) :=
  Codec.ofL rfl rfl fun hw => decodeL_of_parse (f := lw 0x54 h (d := d.opn) (a := a.opn) (b := b.opn) (ty := ty) (imm := i24 (bit1 neg ++ m))) (by
  change (fun f : LFields => ((NType.ofCode f.ty).map fun ty => .laneSel f.hdr ty f.d.dst f.a.src f.b.src (f.imm.extractLsb' 0 4) (isOne (f.imm.extractLsb' 4 1)) : Option Instr)) (lw 0x54 h (d := d.opn) (a := a.opn) (b := b.opn) (ty := ty) (imm := i24 (bit1 neg ++ m))) = _
  try simp only [lw_hdr]
  try simp (disch := omega) only [extract_setWidth, extract_setWidth_sub, extract_append_lo, extract_append_hi, lw, vopn, isOne_bit1, cvtSub_sr, cvtSub_hi, cvtSub_ty]
  try simp) rfl hw

theorem Codec.idot4 (h : LHdr) (ty : NType) (d : Dst) (a : Src) (b : Src) (c : Src) (sat : Bool) : Codec.Statement (.idot4 h ty d a b c sat) :=
  Codec.ofL rfl rfl fun hw => decodeL_of_parse (f := lw 0x55 h (d := d.opn) (a := a.opn) (b := b.opn) (c := c.opn) (ty := ty) (sat := sat)) (by
  change (fun f : LFields => ((NType.ofCode f.ty).map fun ty => .idot4 f.hdr ty f.d.dst f.a.src f.b.src f.c.src (isOne f.sat) : Option Instr)) (lw 0x55 h (d := d.opn) (a := a.opn) (b := b.opn) (c := c.opn) (ty := ty) (sat := sat)) = _
  try simp only [lw_hdr]
  try simp (disch := omega) only [extract_setWidth, extract_setWidth_sub, extract_append_lo, extract_append_hi, lw, vopn, isOne_bit1, cvtSub_sr, cvtSub_hi, cvtSub_ty]
  try simp) rfl hw

theorem Codec.isad (h : LHdr) (d : Dst) (a : Src) (b : Src) (c : Src) : Codec.Statement (.isad h d a b c) :=
  Codec.ofL rfl rfl fun hw => decodeL_of_parse (f := lw 0x56 h (d := d.opn) (a := a.opn) (b := b.opn) (c := c.opn) (ty := .n8)) (by
  change (fun f : LFields => (some (.isad f.hdr f.d.dst f.a.src f.b.src f.c.src) : Option Instr)) (lw 0x56 h (d := d.opn) (a := a.opn) (b := b.opn) (c := c.opn) (ty := .n8)) = _
  try simp only [lw_hdr]
  try simp (disch := omega) only [extract_setWidth, extract_setWidth_sub, extract_append_lo, extract_append_hi, lw, vopn, isOne_bit1, cvtSub_sr, cvtSub_hi, cvtSub_ty]
  try simp) rfl hw

theorem Codec.iaddc (h : LHdr) (sub : Bool) (d : Dst) (a : Src) (b : Src) (m : BitVec 4) : Codec.Statement (.iaddc h sub d a b m) :=
  Codec.ofL rfl rfl fun hw => decodeL_of_parse (f := lw 0x57 h (d := d.opn) (a := a.opn) (b := b.opn) (ty := .n32) (sub := s6 (bit1 sub)) (imm := i24 m)) (by
  change (fun f : LFields => (some (.iaddc f.hdr (isOne (f.sub.extractLsb' 0 1)) f.d.dst f.a.src f.b.src (f.imm.extractLsb' 0 4)) : Option Instr)) (lw 0x57 h (d := d.opn) (a := a.opn) (b := b.opn) (ty := .n32) (sub := s6 (bit1 sub)) (imm := i24 m)) = _
  try simp only [lw_hdr]
  try simp (disch := omega) only [extract_setWidth, extract_setWidth_sub, extract_append_lo, extract_append_hi, lw, vopn, isOne_bit1, cvtSub_sr, cvtSub_hi, cvtSub_ty]
  try simp) rfl hw

theorem Codec.mov (h : LHdr) (ty : NType) (d : Dst) (a : Src) : Codec.Statement (.mov h ty d a) :=
  Codec.ofL rfl rfl fun hw => decodeL_of_parse (f := lw 0x58 h (d := d.opn) (a := a.opn) (ty := ty)) (by
  change (fun f : LFields => ((NType.ofCode f.ty).map fun ty => .mov f.hdr ty f.d.dst f.a.src : Option Instr)) (lw 0x58 h (d := d.opn) (a := a.opn) (ty := ty)) = _
  try simp only [lw_hdr]
  try simp (disch := omega) only [extract_setWidth, extract_setWidth_sub, extract_append_lo, extract_append_hi, lw, vopn, isOne_bit1, cvtSub_sr, cvtSub_hi, cvtSub_ty]
  try simp) rfl hw

theorem Codec.laneMovi (h : LHdr) (d : Dst) (hi : Bool) (i : BitVec 24) : Codec.Statement (.laneMovi h d hi i) :=
  Codec.ofL rfl rfl fun hw => decodeL_of_parse (f := lw 0x59 h (d := d.opn) (ty := .n32) (sub := s6 (bit1 hi)) (imm := i)) (by
  change (fun f : LFields => (some (.laneMovi f.hdr f.d.dst (isOne (f.sub.extractLsb' 0 1)) f.imm) : Option Instr)) (lw 0x59 h (d := d.opn) (ty := .n32) (sub := s6 (bit1 hi)) (imm := i)) = _
  try simp only [lw_hdr]
  try simp (disch := omega) only [extract_setWidth, extract_setWidth_sub, extract_append_lo, extract_append_hi, lw, vopn, isOne_bit1, cvtSub_sr, cvtSub_hi, cvtSub_ty]
  try simp) rfl hw

theorem Codec.shfl (h : LHdr) (ty : NType) (d : Dst) (a : Src) (b : Src) : Codec.Statement (.shfl h ty d a b) :=
  Codec.ofL rfl rfl fun hw => decodeL_of_parse (f := lw 0x60 h (d := d.opn) (a := a.opn) (b := b.opn) (ty := ty)) (by
  change (fun f : LFields => ((NType.ofCode f.ty).map fun ty => .shfl f.hdr ty f.d.dst f.a.src f.b.src : Option Instr)) (lw 0x60 h (d := d.opn) (a := a.opn) (b := b.opn) (ty := ty)) = _
  try simp only [lw_hdr]
  try simp (disch := omega) only [extract_setWidth, extract_setWidth_sub, extract_append_lo, extract_append_hi, lw, vopn, isOne_bit1, cvtSub_sr, cvtSub_hi, cvtSub_ty]
  try simp) rfl hw

theorem Codec.shflx (h : LHdr) (ty : NType) (d : Dst) (a : Src) (x : BitVec 5) : Codec.Statement (.shflx h ty d a x) :=
  Codec.ofL rfl rfl fun hw => decodeL_of_parse (f := lw 0x61 h (d := d.opn) (a := a.opn) (ty := ty) (imm := i24 x)) (by
  change (fun f : LFields => ((NType.ofCode f.ty).map fun ty => .shflx f.hdr ty f.d.dst f.a.src (f.imm.extractLsb' 0 5) : Option Instr)) (lw 0x61 h (d := d.opn) (a := a.opn) (ty := ty) (imm := i24 x)) = _
  try simp only [lw_hdr]
  try simp (disch := omega) only [extract_setWidth, extract_setWidth_sub, extract_append_lo, extract_append_hi, lw, vopn, isOne_bit1, cvtSub_sr, cvtSub_hi, cvtSub_ty]
  try simp) rfl hw

theorem Codec.shfld (h : LHdr) (ty : NType) (dn : Bool) (d : Dst) (a : Src) (n : BitVec 5) : Codec.Statement (.shfld h ty dn d a n) :=
  Codec.ofL rfl rfl fun hw => decodeL_of_parse (f := lw 0x62 h (d := d.opn) (a := a.opn) (ty := ty) (sub := s6 (bit1 dn)) (imm := i24 n)) (by
  change (fun f : LFields => ((NType.ofCode f.ty).map fun ty => .shfld f.hdr ty (isOne (f.sub.extractLsb' 0 1)) f.d.dst f.a.src (f.imm.extractLsb' 0 5) : Option Instr)) (lw 0x62 h (d := d.opn) (a := a.opn) (ty := ty) (sub := s6 (bit1 dn)) (imm := i24 n)) = _
  try simp only [lw_hdr]
  try simp (disch := omega) only [extract_setWidth, extract_setWidth_sub, extract_append_lo, extract_append_hi, lw, vopn, isOne_bit1, cvtSub_sr, cvtSub_hi, cvtSub_ty]
  try simp) rfl hw

theorem Codec.bcast (h : LHdr) (ty : NType) (d : Dst) (a : Src) (n : BitVec 5) : Codec.Statement (.bcast h ty d a n) :=
  Codec.ofL rfl rfl fun hw => decodeL_of_parse (f := lw 0x63 h (d := d.opn) (a := a.opn) (ty := ty) (imm := i24 n)) (by
  change (fun f : LFields => ((NType.ofCode f.ty).map fun ty => .bcast f.hdr ty f.d.dst f.a.src (f.imm.extractLsb' 0 5) : Option Instr)) (lw 0x63 h (d := d.opn) (a := a.opn) (ty := ty) (imm := i24 n)) = _
  try simp only [lw_hdr]
  try simp (disch := omega) only [extract_setWidth, extract_setWidth_sub, extract_append_lo, extract_append_hi, lw, vopn, isOne_bit1, cvtSub_sr, cvtSub_hi, cvtSub_ty]
  try simp) rfl hw

theorem Codec.vote (h : LHdr) (op : VoteOp) (d : Dst) (a : Src) : Codec.Statement (.vote h op d a) :=
  Codec.ofL rfl rfl fun hw => decodeL_of_parse (f := lw 0x64 h (d := d.opn) (a := a.opn) (ty := .n32) (sub := s6 op.code)) (by
  change (fun f : LFields => ((VoteOp.ofCode (f.sub.extractLsb' 0 2)).map fun op => .vote f.hdr op f.d.dst f.a.src : Option Instr)) (lw 0x64 h (d := d.opn) (a := a.opn) (ty := .n32) (sub := s6 op.code)) = _
  try simp only [lw_hdr]
  try simp (disch := omega) only [extract_setWidth, extract_setWidth_sub, extract_append_lo, extract_append_hi, lw, vopn, isOne_bit1, cvtSub_sr, cvtSub_hi, cvtSub_ty]
  try simp) rfl hw

theorem Codec.reduce (h : LHdr) (op : FoldOp) (ty : NType) (d : Dst) (a : Src) : Codec.Statement (.reduce h op ty d a) :=
  Codec.ofL rfl rfl fun hw => decodeL_of_parse (f := lw 0x65 h (d := d.opn) (a := a.opn) (ty := ty) (sub := s6 op.code)) (by
  change (fun f : LFields => ((NType.ofCode f.ty).bind fun ty => (FoldOp.ofCode (f.sub.extractLsb' 0 3)).map fun op => .reduce f.hdr op ty f.d.dst f.a.src : Option Instr)) (lw 0x65 h (d := d.opn) (a := a.opn) (ty := ty) (sub := s6 op.code)) = _
  try simp only [lw_hdr]
  try simp (disch := omega) only [extract_setWidth, extract_setWidth_sub, extract_append_lo, extract_append_hi, lw, vopn, isOne_bit1, cvtSub_sr, cvtSub_hi, cvtSub_ty]
  try simp) rfl hw

theorem Codec.prefixOp (h : LHdr) (op : FoldOp) (excl : Bool) (ty : NType) (d : Dst) (a : Src) : Codec.Statement (.prefixOp h op excl ty d a) :=
  Codec.ofL rfl rfl fun hw => decodeL_of_parse (f := lw 0x66 h (d := d.opn) (a := a.opn) (ty := ty) (sub := s6 (bit1 excl ++ op.code))) (by
  change (fun f : LFields => ((NType.ofCode f.ty).bind fun ty => (FoldOp.ofCode (f.sub.extractLsb' 0 3)).map fun op => .prefixOp f.hdr op (isOne (f.sub.extractLsb' 3 1)) ty f.d.dst f.a.src : Option Instr)) (lw 0x66 h (d := d.opn) (a := a.opn) (ty := ty) (sub := s6 (bit1 excl ++ op.code))) = _
  try simp only [lw_hdr]
  try simp (disch := omega) only [extract_setWidth, extract_setWidth_sub, extract_append_lo, extract_append_hi, lw, vopn, isOne_bit1, cvtSub_sr, cvtSub_hi, cvtSub_ty]
  try simp) rfl hw

theorem Codec.brl (h : LHdr) (t : BitVec 12) (j : BitVec 12) : Codec.Statement (.brl h t j) :=
  Codec.ofL rfl rfl fun hw => decodeL_of_parse (f := lw 0x70 h (imm := j ++ t)) (by
  change (fun f : LFields => (some (.brl f.hdr (f.imm.extractLsb' 0 12) (f.imm.extractLsb' 12 12)) : Option Instr)) (lw 0x70 h (imm := j ++ t)) = _
  try simp only [lw_hdr]
  try simp (disch := omega) only [extract_setWidth, extract_setWidth_sub, extract_append_lo, extract_append_hi, lw, vopn, isOne_bit1, cvtSub_sr, cvtSub_hi, cvtSub_ty]
  try simp) rfl hw

theorem Codec.join (w : Bool) : Codec.Statement (.join w) :=
  Codec.ofL rfl rfl fun hw => decodeL_of_parse (f := lw 0x71 ⟨w, 0, false⟩) (by
  change (fun f : LFields => (some (.join f.hdr.w) : Option Instr)) (lw 0x71 ⟨w, 0, false⟩) = _
  try simp only [lw_hdr]
  try simp (disch := omega) only [extract_setWidth, extract_setWidth_sub, extract_append_lo, extract_append_hi, lw, vopn, isOne_bit1, cvtSub_sr, cvtSub_hi, cvtSub_ty]
  try simp) rfl hw

theorem Codec.lend (w : Bool) : Codec.Statement (.lend w) :=
  Codec.ofL rfl rfl fun hw => decodeL_of_parse (f := lw 0x72 ⟨w, 0, false⟩) (by
  change (fun f : LFields => (some (.lend f.hdr.w) : Option Instr)) (lw 0x72 ⟨w, 0, false⟩) = _
  try simp only [lw_hdr]
  try simp (disch := omega) only [extract_setWidth, extract_setWidth_sub, extract_append_lo, extract_append_hi, lw, vopn, isOne_bit1, cvtSub_sr, cvtSub_hi, cvtSub_ty]
  try simp) rfl hw

theorem Codec.kill (h : LHdr) : Codec.Statement (.kill h) :=
  Codec.ofL rfl rfl fun hw => decodeL_of_parse (f := lw 0x73 h) (by
  change (fun f : LFields => (some (.kill f.hdr) : Option Instr)) (lw 0x73 h) = _
  try simp only [lw_hdr]
  try simp (disch := omega) only [extract_setWidth, extract_setWidth_sub, extract_append_lo, extract_append_hi, lw, vopn, isOne_bit1, cvtSub_sr, cvtSub_hi, cvtSub_ty]
  try simp) rfl hw

theorem Codec.ltrap (h : LHdr) (c : BitVec 12) : Codec.Statement (.ltrap h c) :=
  Codec.ofL rfl rfl fun hw => decodeL_of_parse (f := lw 0x74 h (imm := i24 c)) (by
  change (fun f : LFields => (some (.ltrap f.hdr (f.imm.extractLsb' 0 12)) : Option Instr)) (lw 0x74 h (imm := i24 c)) = _
  try simp only [lw_hdr]
  try simp (disch := omega) only [extract_setWidth, extract_setWidth_sub, extract_append_lo, extract_append_hi, lw, vopn, isOne_bit1, cvtSub_sr, cvtSub_hi, cvtSub_ty]
  try simp) rfl hw

theorem Codec.movs (h : LHdr) (d : Dst) (i : BitVec 12) : Codec.Statement (.movs h d i) :=
  Codec.ofL rfl rfl fun hw => decodeL_of_parse (f := lw 0x75 h (d := d.opn) (ty := .n32) (imm := i24 i)) (by
  change (fun f : LFields => (some (.movs f.hdr f.d.dst (f.imm.extractLsb' 0 12)) : Option Instr)) (lw 0x75 h (d := d.opn) (ty := .n32) (imm := i24 i)) = _
  try simp only [lw_hdr]
  try simp (disch := omega) only [extract_setWidth, extract_setWidth_sub, extract_append_lo, extract_append_hi, lw, vopn, isOne_bit1, cvtSub_sr, cvtSub_hi, cvtSub_ty]
  try simp) rfl hw

theorem Codec.ld (h : LHdr) (ty : NType) (o : Order) (sc : Scope) (d : VReg) (dh : Bool) (m : MAddr) : Codec.Statement (.ld h ty o sc d dh m) :=
  Codec.ofL rfl rfl fun hw => decodeL_of_parse (f := lw 0x80 h (d := vopn d dh) (a := m.parts.1) (ty := ty) (sub := s6 m.parts.2.1) (sc := sc) (od := o) (imm := m.parts.2.2)) (by
  change (fun f : LFields => ((NType.ofCode f.ty).bind fun ty => (Order.ofCode f.od).bind fun o => (Scope.ofCode f.sc).bind fun sc => (f.maddr).map fun m => .ld f.hdr ty o sc f.d.idx (isOne f.d.x) m : Option Instr)) (lw 0x80 h (d := vopn d dh) (a := m.parts.1) (ty := ty) (sub := s6 m.parts.2.1) (sc := sc) (od := o) (imm := m.parts.2.2)) = _
  have hm : LFields.maddr (lw 0x80 h (d := vopn d dh) (a := m.parts.1) (ty := ty) (sub := s6 m.parts.2.1) (sc := sc) (od := o) (imm := m.parts.2.2)) = some m := maddr_of_parts _ m rfl (by
    simp (disch := omega) only [extract_setWidth, extract_setWidth_sub, extract_append_lo, extract_append_hi, lw]
    try simp) rfl
  simp only [hm]
  try simp only [lw_hdr]
  try simp (disch := omega) only [extract_setWidth, extract_setWidth_sub, extract_append_lo, extract_append_hi, lw, vopn, isOne_bit1, cvtSub_sr, cvtSub_hi, cvtSub_ty]
  try simp) rfl hw

theorem Codec.st (h : LHdr) (ty : NType) (o : Order) (sc : Scope) (ch : Bool) (m : MAddr) (c : Src) : Codec.Statement (.st h ty o sc ch m c) :=
  Codec.ofL rfl rfl fun hw => decodeL_of_parse (f := lw 0x81 h (d := vopn 0 ch) (a := m.parts.1) (c := c.opn) (ty := ty) (sub := s6 m.parts.2.1) (sc := sc) (od := o) (imm := m.parts.2.2)) (by
  change (fun f : LFields => ((NType.ofCode f.ty).bind fun ty => (Order.ofCode f.od).bind fun o => (Scope.ofCode f.sc).bind fun sc => (f.maddr).map fun m => .st f.hdr ty o sc (isOne f.d.x) m f.c.src : Option Instr)) (lw 0x81 h (d := vopn 0 ch) (a := m.parts.1) (c := c.opn) (ty := ty) (sub := s6 m.parts.2.1) (sc := sc) (od := o) (imm := m.parts.2.2)) = _
  have hm : LFields.maddr (lw 0x81 h (d := vopn 0 ch) (a := m.parts.1) (c := c.opn) (ty := ty) (sub := s6 m.parts.2.1) (sc := sc) (od := o) (imm := m.parts.2.2)) = some m := maddr_of_parts _ m rfl (by
    simp (disch := omega) only [extract_setWidth, extract_setWidth_sub, extract_append_lo, extract_append_hi, lw]
    try simp) rfl
  simp only [hm]
  try simp only [lw_hdr]
  try simp (disch := omega) only [extract_setWidth, extract_setWidth_sub, extract_append_lo, extract_append_hi, lw, vopn, isOne_bit1, cvtSub_sr, cvtSub_hi, cvtSub_ty]
  try simp) rfl hw

theorem Codec.ldx (h : LHdr) (ty : NType) (o : Order) (sc : Scope) (d : VReg) (dh : Bool) (x : XAddr) : Codec.Statement (.ldx h ty o sc d dh x) :=
  Codec.ofL rfl rfl fun hw => decodeL_of_parse (f := lw 0x82 h (d := vopn d dh) (a := x.a.opn) (b := x.bopn) (ty := ty) (sub := s6 (bit1 x.b.isSome ++ (0 : BitVec 2))) (sc := sc) (od := o) (imm := x.disp)) (by
  change (fun f : LFields => ((NType.ofCode f.ty).bind fun ty => (Order.ofCode f.od).bind fun o => (Scope.ofCode f.sc).map fun sc => .ldx f.hdr ty o sc f.d.idx (isOne f.d.x) ⟨f.a.src, if isOne (f.sub.extractLsb' 2 1) then some f.b.src else none, f.imm⟩ : Option Instr)) (lw 0x82 h (d := vopn d dh) (a := x.a.opn) (b := x.bopn) (ty := ty) (sub := s6 (bit1 x.b.isSome ++ (0 : BitVec 2))) (sc := sc) (od := o) (imm := x.disp)) = _
  try simp only [lw_hdr]
  try simp (disch := omega) only [extract_setWidth, extract_setWidth_sub, extract_append_lo, extract_append_hi, lw, vopn, isOne_bit1, cvtSub_sr, cvtSub_hi, cvtSub_ty]
  try simp) rfl hw

theorem Codec.stx (h : LHdr) (ty : NType) (o : Order) (sc : Scope) (ch : Bool) (x : XAddr) (c : Src) : Codec.Statement (.stx h ty o sc ch x c) :=
  Codec.ofL rfl rfl fun hw => decodeL_of_parse (f := lw 0x83 h (d := vopn 0 ch) (a := x.a.opn) (b := x.bopn) (c := c.opn) (ty := ty) (sub := s6 (bit1 x.b.isSome ++ (0 : BitVec 2))) (sc := sc) (od := o) (imm := x.disp)) (by
  change (fun f : LFields => ((NType.ofCode f.ty).bind fun ty => (Order.ofCode f.od).bind fun o => (Scope.ofCode f.sc).map fun sc => .stx f.hdr ty o sc (isOne f.d.x) ⟨f.a.src, if isOne (f.sub.extractLsb' 2 1) then some f.b.src else none, f.imm⟩ f.c.src : Option Instr)) (lw 0x83 h (d := vopn 0 ch) (a := x.a.opn) (b := x.bopn) (c := c.opn) (ty := ty) (sub := s6 (bit1 x.b.isSome ++ (0 : BitVec 2))) (sc := sc) (od := o) (imm := x.disp)) = _
  try simp only [lw_hdr]
  try simp (disch := omega) only [extract_setWidth, extract_setWidth_sub, extract_append_lo, extract_append_hi, lw, vopn, isOne_bit1, cvtSub_sr, cvtSub_hi, cvtSub_ty]
  try simp) rfl hw

theorem Codec.atom (h : LHdr) (op : AtomOp) (ty : NType) (o : Order) (sc : Scope) (d : VReg) (m : MAddr) (c : Src) : Codec.Statement (.atom h op ty o sc d m c) :=
  Codec.ofL rfl rfl fun hw => decodeL_of_parse (f := lw 0x84 h (d := vopn d false) (a := m.parts.1) (c := c.opn) (ty := ty) (sub := s6 (op.code ++ m.parts.2.1)) (sc := sc) (od := o) (imm := m.parts.2.2)) (by
  change (fun f : LFields => ((NType.ofCode f.ty).bind fun ty => (Order.ofCode f.od).bind fun o => (Scope.ofCode f.sc).bind fun sc => (AtomOp.ofCode (f.sub.extractLsb' 2 3)).bind fun op => (f.maddr).map fun m => .atom f.hdr op ty o sc f.d.idx m f.c.src : Option Instr)) (lw 0x84 h (d := vopn d false) (a := m.parts.1) (c := c.opn) (ty := ty) (sub := s6 (op.code ++ m.parts.2.1)) (sc := sc) (od := o) (imm := m.parts.2.2)) = _
  have hm : LFields.maddr (lw 0x84 h (d := vopn d false) (a := m.parts.1) (c := c.opn) (ty := ty) (sub := s6 (op.code ++ m.parts.2.1)) (sc := sc) (od := o) (imm := m.parts.2.2)) = some m := maddr_of_parts _ m rfl (by
    simp (disch := omega) only [extract_setWidth, extract_setWidth_sub, extract_append_lo, extract_append_hi, lw]
    try simp) rfl
  simp only [hm]
  try simp only [lw_hdr]
  try simp (disch := omega) only [extract_setWidth, extract_setWidth_sub, extract_append_lo, extract_append_hi, lw, vopn, isOne_bit1, cvtSub_sr, cvtSub_hi, cvtSub_ty]
  try simp) rfl hw

theorem Codec.atomx (h : LHdr) (op : AtomOp) (ty : NType) (o : Order) (sc : Scope) (d : VReg) (x : XAddr) (c : Src) : Codec.Statement (.atomx h op ty o sc d x c) :=
  Codec.ofL rfl rfl fun hw => decodeL_of_parse (f := lw 0x85 h (d := vopn d false) (a := x.a.opn) (b := x.bopn) (c := c.opn) (ty := ty) (sub := s6 (op.code ++ (0 : BitVec 1) ++ bit1 x.b.isSome)) (sc := sc) (od := o) (imm := x.disp)) (by
  change (fun f : LFields => ((NType.ofCode f.ty).bind fun ty => (Order.ofCode f.od).bind fun o => (Scope.ofCode f.sc).bind fun sc => (AtomOp.ofCode (f.sub.extractLsb' 2 3)).map fun op => .atomx f.hdr op ty o sc f.d.idx ⟨f.a.src, if isOne (f.sub.extractLsb' 0 1) then some f.b.src else none, f.imm⟩ f.c.src : Option Instr)) (lw 0x85 h (d := vopn d false) (a := x.a.opn) (b := x.bopn) (c := c.opn) (ty := ty) (sub := s6 (op.code ++ (0 : BitVec 1) ++ bit1 x.b.isSome)) (sc := sc) (od := o) (imm := x.disp)) = _
  try simp only [lw_hdr]
  try simp (disch := omega) only [extract_setWidth, extract_setWidth_sub, extract_append_lo, extract_append_hi, lw, vopn, isOne_bit1, cvtSub_sr, cvtSub_hi, cvtSub_ty]
  try simp) rfl hw

theorem Codec.red (h : LHdr) (op : AtomOp) (ty : NType) (o : Order) (sc : Scope) (m : MAddr) (c : Src) : Codec.Statement (.red h op ty o sc m c) :=
  Codec.ofL rfl rfl fun hw => decodeL_of_parse (f := lw 0x86 h (a := m.parts.1) (c := c.opn) (ty := ty) (sub := s6 (op.code ++ m.parts.2.1)) (sc := sc) (od := o) (imm := m.parts.2.2)) (by
  change (fun f : LFields => ((NType.ofCode f.ty).bind fun ty => (Order.ofCode f.od).bind fun o => (Scope.ofCode f.sc).bind fun sc => (AtomOp.ofCode (f.sub.extractLsb' 2 3)).bind fun op => (f.maddr).map fun m => .red f.hdr op ty o sc m f.c.src : Option Instr)) (lw 0x86 h (a := m.parts.1) (c := c.opn) (ty := ty) (sub := s6 (op.code ++ m.parts.2.1)) (sc := sc) (od := o) (imm := m.parts.2.2)) = _
  have hm : LFields.maddr (lw 0x86 h (a := m.parts.1) (c := c.opn) (ty := ty) (sub := s6 (op.code ++ m.parts.2.1)) (sc := sc) (od := o) (imm := m.parts.2.2)) = some m := maddr_of_parts _ m rfl (by
    simp (disch := omega) only [extract_setWidth, extract_setWidth_sub, extract_append_lo, extract_append_hi, lw]
    try simp) rfl
  simp only [hm]
  try simp only [lw_hdr]
  try simp (disch := omega) only [extract_setWidth, extract_setWidth_sub, extract_append_lo, extract_append_hi, lw, vopn, isOne_bit1, cvtSub_sr, cvtSub_hi, cvtSub_ty]
  try simp) rfl hw

theorem Codec.lcpy (h : LHdr) (sc : Scope) (m : MAddr) (b : Src) (c : Src) : Codec.Statement (.lcpy h sc m b c) :=
  Codec.ofL rfl rfl fun hw => decodeL_of_parse (f := lw 0x87 h (a := m.parts.1) (b := b.opn) (c := c.opn) (ty := .b128) (sub := s6 m.parts.2.1) (sc := sc) (imm := m.parts.2.2)) (by
  change (fun f : LFields => ((Scope.ofCode f.sc).bind fun sc => (f.maddr).map fun m => .lcpy f.hdr sc m f.b.src f.c.src : Option Instr)) (lw 0x87 h (a := m.parts.1) (b := b.opn) (c := c.opn) (ty := .b128) (sub := s6 m.parts.2.1) (sc := sc) (imm := m.parts.2.2)) = _
  have hm : LFields.maddr (lw 0x87 h (a := m.parts.1) (b := b.opn) (c := c.opn) (ty := .b128) (sub := s6 m.parts.2.1) (sc := sc) (imm := m.parts.2.2)) = some m := maddr_of_parts _ m rfl (by
    simp (disch := omega) only [extract_setWidth, extract_setWidth_sub, extract_append_lo, extract_append_hi, lw]
    try simp) rfl
  simp only [hm]
  try simp only [lw_hdr]
  try simp (disch := omega) only [extract_setWidth, extract_setWidth_sub, extract_append_lo, extract_append_hi, lw, vopn, isOne_bit1, cvtSub_sr, cvtSub_hi, cvtSub_ty]
  try simp) rfl hw

theorem Codec.pref (h : LHdr) (sc : Scope) (t : BitVec 4) (a : Src) (disp : BitVec 20) : Codec.Statement (.pref h sc t a disp) :=
  Codec.ofL rfl rfl fun hw => decodeL_of_parse (f := lw 0x88 h (a := a.opn) (sc := sc) (imm := t ++ disp)) (by
  change (fun f : LFields => ((Scope.ofCode f.sc).map fun sc => .pref f.hdr sc (f.imm.extractLsb' 20 4) f.a.src (f.imm.extractLsb' 0 20) : Option Instr)) (lw 0x88 h (a := a.opn) (sc := sc) (imm := t ++ disp)) = _
  try simp only [lw_hdr]
  try simp (disch := omega) only [extract_setWidth, extract_setWidth_sub, extract_append_lo, extract_append_hi, lw, vopn, isOne_bit1, cvtSub_sr, cvtSub_hi, cvtSub_ty]
  try simp) rfl hw

theorem Codec.rng (h : LHdr) (d : Dst) (a : Src) (b : Src) : Codec.Statement (.rng h d a b) :=
  Codec.ofL rfl rfl fun hw => decodeL_of_parse (f := lw 0xA0 h (d := d.opn) (a := a.opn) (b := b.opn) (ty := .b128) (sub := 0)) (by
  change (fun f : LFields => (some (.rng f.hdr f.d.dst f.a.src f.b.src) : Option Instr)) (lw 0xA0 h (d := d.opn) (a := a.opn) (b := b.opn) (ty := .b128) (sub := 0)) = _
  try simp only [lw_hdr]
  try simp (disch := omega) only [extract_setWidth, extract_setWidth_sub, extract_append_lo, extract_append_hi, lw, vopn, isOne_bit1, cvtSub_sr, cvtSub_hi, cvtSub_ty]
  try simp) rfl hw

theorem Codec.rngNext (h : LHdr) (d : Dst) : Codec.Statement (.rngNext h d) :=
  Codec.ofL rfl rfl fun hw => decodeL_of_parse (f := lw 0xA0 h (d := d.opn) (ty := .b128) (sub := 1)) (by
  change (fun f : LFields => (some (.rngNext f.hdr f.d.dst) : Option Instr)) (lw 0xA0 h (d := d.opn) (ty := .b128) (sub := 1)) = _
  try simp only [lw_hdr]
  try simp (disch := omega) only [extract_setWidth, extract_setWidth_sub, extract_append_lo, extract_append_hi, lw, vopn, isOne_bit1, cvtSub_sr, cvtSub_hi, cvtSub_ty]
  try simp) rfl hw

theorem Codec.rngSeed (h : LHdr) (a : Src) (b : Src) : Codec.Statement (.rngSeed h a b) :=
  Codec.ofL rfl rfl fun hw => decodeL_of_parse (f := lw 0xA0 h (a := a.opn) (b := b.opn) (ty := .b128) (sub := 2)) (by
  change (fun f : LFields => (some (.rngSeed f.hdr f.a.src f.b.src) : Option Instr)) (lw 0xA0 h (a := a.opn) (b := b.opn) (ty := .b128) (sub := 2)) = _
  try simp only [lw_hdr]
  try simp (disch := omega) only [extract_setWidth, extract_setWidth_sub, extract_append_lo, extract_append_hi, lw, vopn, isOne_bit1, cvtSub_sr, cvtSub_hi, cvtSub_ty]
  try simp) rfl hw

theorem Codec.rngCtr (h : LHdr) (d : Dst) : Codec.Statement (.rngCtr h d) :=
  Codec.ofL rfl rfl fun hw => decodeL_of_parse (f := lw 0xA0 h (d := d.opn) (ty := .b128) (sub := 3)) (by
  change (fun f : LFields => (some (.rngCtr f.hdr f.d.dst) : Option Instr)) (lw 0xA0 h (d := d.opn) (ty := .b128) (sub := 3)) = _
  try simp only [lw_hdr]
  try simp (disch := omega) only [extract_setWidth, extract_setWidth_sub, extract_append_lo, extract_append_hi, lw, vopn, isOne_bit1, cvtSub_sr, cvtSub_hi, cvtSub_ty]
  try simp) rfl hw

theorem Codec.rngKey (h : LHdr) (d : Dst) : Codec.Statement (.rngKey h d) :=
  Codec.ofL rfl rfl fun hw => decodeL_of_parse (f := lw 0xA0 h (d := d.opn) (ty := .b128) (sub := 4)) (by
  change (fun f : LFields => (some (.rngKey f.hdr f.d.dst) : Option Instr)) (lw 0xA0 h (d := d.opn) (ty := .b128) (sub := 4)) = _
  try simp only [lw_hdr]
  try simp (disch := omega) only [extract_setWidth, extract_setWidth_sub, extract_append_lo, extract_append_hi, lw, vopn, isOne_bit1, cvtSub_sr, cvtSub_hi, cvtSub_ty]
  try simp) rfl hw

theorem Codec.add128l (h : LHdr) (d : Dst) (a : Src) (b : Src) : Codec.Statement (.add128l h d a b) :=
  Codec.ofL rfl rfl fun hw => decodeL_of_parse (f := lw 0xA1 h (d := d.opn) (a := a.opn) (b := b.opn) (ty := .b128)) (by
  change (fun f : LFields => (some (.add128l f.hdr f.d.dst f.a.src f.b.src) : Option Instr)) (lw 0xA1 h (d := d.opn) (a := a.opn) (b := b.opn) (ty := .b128)) = _
  try simp only [lw_hdr]
  try simp (disch := omega) only [extract_setWidth, extract_setWidth_sub, extract_append_lo, extract_append_hi, lw, vopn, isOne_bit1, cvtSub_sr, cvtSub_hi, cvtSub_ty]
  try simp) rfl hw

theorem Codec.add128lCtr (h : LHdr) (a : Src) : Codec.Statement (.add128lCtr h a) :=
  Codec.ofL rfl rfl fun hw => decodeL_of_parse (f := lw 0xA1 h (a := a.opn) (ty := .b128) (sub := 1)) (by
  change (fun f : LFields => (some (.add128lCtr f.hdr f.a.src) : Option Instr)) (lw 0xA1 h (a := a.opn) (ty := .b128) (sub := 1)) = _
  try simp only [lw_hdr]
  try simp (disch := omega) only [extract_setWidth, extract_setWidth_sub, extract_append_lo, extract_append_hi, lw, vopn, isOne_bit1, cvtSub_sr, cvtSub_hi, cvtSub_ty]
  try simp) rfl hw

theorem Codec.attr (h : LHdr) (m : AttrMode) (d : Dst) (i : BitVec 6) : Codec.Statement (.attr h m d i) :=
  Codec.ofL rfl rfl fun hw => decodeL_of_parse (f := lw 0xB0 h (d := d.opn) (sub := s6 m.code) (imm := i24 i)) (by
  change (fun f : LFields => ((AttrMode.ofCode (f.sub.extractLsb' 0 3)).map fun m => .attr f.hdr m f.d.dst (f.imm.extractLsb' 0 6) : Option Instr)) (lw 0xB0 h (d := d.opn) (sub := s6 m.code) (imm := i24 i)) = _
  try simp only [lw_hdr]
  try simp (disch := omega) only [extract_setWidth, extract_setWidth_sub, extract_append_lo, extract_append_hi, lw, vopn, isOne_bit1, cvtSub_sr, cvtSub_hi, cvtSub_ty]
  try simp) rfl hw

theorem Codec.deriv (h : LHdr) (y : Bool) (fine : Bool) (d : Dst) (a : Src) : Codec.Statement (.deriv h y fine d a) :=
  Codec.ofL rfl rfl fun hw => decodeL_of_parse (f := lw 0xB1 h (d := d.opn) (a := a.opn) (sub := s6 (bit1 fine ++ bit1 y))) (by
  change (fun f : LFields => (some (.deriv f.hdr (isOne (f.sub.extractLsb' 0 1)) (isOne (f.sub.extractLsb' 1 1)) f.d.dst f.a.src) : Option Instr)) (lw 0xB1 h (d := d.opn) (a := a.opn) (sub := s6 (bit1 fine ++ bit1 y))) = _
  try simp only [lw_hdr]
  try simp (disch := omega) only [extract_setWidth, extract_setWidth_sub, extract_append_lo, extract_append_hi, lw, vopn, isOne_bit1, cvtSub_sr, cvtSub_hi, cvtSub_ty]
  try simp) rfl hw

theorem Codec.texs (h : LHdr) (dim : TexDim) (d : Dst) (a : Src) (t : BitVec 16) : Codec.Statement (.texs h dim d a t) :=
  Codec.ofL rfl rfl fun hw => decodeL_of_parse (f := lw 0xB2 h (d := d.opn) (a := a.opn) (sub := s6 dim.code) (imm := i24 t)) (by
  change (fun f : LFields => ((TexDim.ofCode (f.sub.extractLsb' 0 2)).map fun dim => .texs f.hdr dim f.d.dst f.a.src (f.imm.extractLsb' 0 16) : Option Instr)) (lw 0xB2 h (d := d.opn) (a := a.opn) (sub := s6 dim.code) (imm := i24 t)) = _
  try simp only [lw_hdr]
  try simp (disch := omega) only [extract_setWidth, extract_setWidth_sub, extract_append_lo, extract_append_hi, lw, vopn, isOne_bit1, cvtSub_sr, cvtSub_hi, cvtSub_ty]
  try simp) rfl hw

theorem Codec.texl (h : LHdr) (dim : TexDim) (d : Dst) (a : Src) (b : Src) (t : BitVec 16) : Codec.Statement (.texl h dim d a b t) :=
  Codec.ofL rfl rfl fun hw => decodeL_of_parse (f := lw 0xB3 h (d := d.opn) (a := a.opn) (b := b.opn) (sub := s6 dim.code) (imm := i24 t)) (by
  change (fun f : LFields => ((TexDim.ofCode (f.sub.extractLsb' 0 2)).map fun dim => .texl f.hdr dim f.d.dst f.a.src f.b.src (f.imm.extractLsb' 0 16) : Option Instr)) (lw 0xB3 h (d := d.opn) (a := a.opn) (b := b.opn) (sub := s6 dim.code) (imm := i24 t)) = _
  try simp only [lw_hdr]
  try simp (disch := omega) only [extract_setWidth, extract_setWidth_sub, extract_append_lo, extract_append_hi, lw, vopn, isOne_bit1, cvtSub_sr, cvtSub_hi, cvtSub_ty]
  try simp) rfl hw

theorem Codec.texg (h : LHdr) (dim : TexDim) (comp : BitVec 2) (d : Dst) (a : Src) (t : BitVec 16) : Codec.Statement (.texg h dim comp d a t) :=
  Codec.ofL rfl rfl fun hw => decodeL_of_parse (f := lw 0xB4 h (d := d.opn) (a := a.opn) (sub := s6 (comp ++ dim.code)) (imm := i24 t)) (by
  change (fun f : LFields => ((TexDim.ofCode (f.sub.extractLsb' 0 2)).map fun dim => .texg f.hdr dim (f.sub.extractLsb' 2 2) f.d.dst f.a.src (f.imm.extractLsb' 0 16) : Option Instr)) (lw 0xB4 h (d := d.opn) (a := a.opn) (sub := s6 (comp ++ dim.code)) (imm := i24 t)) = _
  try simp only [lw_hdr]
  try simp (disch := omega) only [extract_setWidth, extract_setWidth_sub, extract_append_lo, extract_append_hi, lw, vopn, isOne_bit1, cvtSub_sr, cvtSub_hi, cvtSub_ty]
  try simp) rfl hw

theorem Codec.texq (h : LHdr) (ext : Bool) (d : Dst) (b : Src) (t : BitVec 16) : Codec.Statement (.texq h ext d b t) :=
  Codec.ofL rfl rfl fun hw => decodeL_of_parse (f := lw 0xB5 h (d := d.opn) (b := b.opn) (sub := s6 (bit1 ext)) (imm := i24 t)) (by
  change (fun f : LFields => (some (.texq f.hdr (isOne (f.sub.extractLsb' 0 1)) f.d.dst f.b.src (f.imm.extractLsb' 0 16)) : Option Instr)) (lw 0xB5 h (d := d.opn) (b := b.opn) (sub := s6 (bit1 ext)) (imm := i24 t)) = _
  try simp only [lw_hdr]
  try simp (disch := omega) only [extract_setWidth, extract_setWidth_sub, extract_append_lo, extract_append_hi, lw, vopn, isOne_bit1, cvtSub_sr, cvtSub_hi, cvtSub_ty]
  try simp) rfl hw

theorem Codec.trace (h : LHdr) (any : Bool) (d : Dst) (a : Src) (b : Src) (t : BitVec 16) : Codec.Statement (.trace h any d a b t) :=
  Codec.ofL rfl rfl fun hw => decodeL_of_parse (f := lw 0xB6 h (d := d.opn) (a := a.opn) (b := b.opn) (sub := s6 (bit1 any)) (imm := i24 t)) (by
  change (fun f : LFields => (some (.trace f.hdr (isOne (f.sub.extractLsb' 0 1)) f.d.dst f.a.src f.b.src (f.imm.extractLsb' 0 16)) : Option Instr)) (lw 0xB6 h (d := d.opn) (a := a.opn) (b := b.opn) (sub := s6 (bit1 any)) (imm := i24 t)) = _
  try simp only [lw_hdr]
  try simp (disch := omega) only [extract_setWidth, extract_setWidth_sub, extract_append_lo, extract_append_hi, lw, vopn, isOne_bit1, cvtSub_sr, cvtSub_hi, cvtSub_ty]
  try simp) rfl hw

theorem Codec.expc (h : LHdr) (bl : Blend) (a : Src) (n : BitVec 3) : Codec.Statement (.expc h bl a n) :=
  Codec.ofL rfl rfl fun hw => decodeL_of_parse (f := lw 0xB7 h (a := a.opn) (sub := s6 bl.code) (imm := i24 n)) (by
  change (fun f : LFields => ((Blend.ofCode (f.sub.extractLsb' 0 2)).map fun bl => .expc f.hdr bl f.a.src (f.imm.extractLsb' 0 3) : Option Instr)) (lw 0xB7 h (a := a.opn) (sub := s6 bl.code) (imm := i24 n)) = _
  try simp only [lw_hdr]
  try simp (disch := omega) only [extract_setWidth, extract_setWidth_sub, extract_append_lo, extract_append_hi, lw, vopn, isOne_bit1, cvtSub_sr, cvtSub_hi, cvtSub_ty]
  try simp) rfl hw

theorem Codec.expz (h : LHdr) (a : Src) : Codec.Statement (.expz h a) :=
  Codec.ofL rfl rfl fun hw => decodeL_of_parse (f := lw 0xB8 h (a := a.opn)) (by
  change (fun f : LFields => (some (.expz f.hdr f.a.src) : Option Instr)) (lw 0xB8 h (a := a.opn)) = _
  try simp only [lw_hdr]
  try simp (disch := omega) only [extract_setWidth, extract_setWidth_sub, extract_append_lo, extract_append_hi, lw, vopn, isOne_bit1, cvtSub_sr, cvtSub_hi, cvtSub_ty]
  try simp) rfl hw

theorem Codec.apxenter (h : LHdr) (m : BitVec 4) (r : BitVec 8) : Codec.Statement (.apxenter h m r) :=
  Codec.ofL rfl rfl fun hw => decodeL_of_parse (f := lw 0xC0 h (d := ⟨0, m.setWidth 8, 0⟩) (imm := i24 r)) (by
  change (fun f : LFields => (some (.apxenter f.hdr (f.d.idx.extractLsb' 0 4) (f.imm.extractLsb' 0 8)) : Option Instr)) (lw 0xC0 h (d := ⟨0, m.setWidth 8, 0⟩) (imm := i24 r)) = _
  try simp only [lw_hdr]
  try simp (disch := omega) only [extract_setWidth, extract_setWidth_sub, extract_append_lo, extract_append_hi, lw, vopn, isOne_bit1, cvtSub_sr, cvtSub_hi, cvtSub_ty]
  try simp) rfl hw

theorem Codec.apxin (h : LHdr) (a : Src) (i : BitVec 4) : Codec.Statement (.apxin h a i) :=
  Codec.ofL rfl rfl fun hw => decodeL_of_parse (f := lw 0xC1 h (a := a.opn) (imm := i24 i)) (by
  change (fun f : LFields => (some (.apxin f.hdr f.a.src (f.imm.extractLsb' 0 4)) : Option Instr)) (lw 0xC1 h (a := a.opn) (imm := i24 i)) = _
  try simp only [lw_hdr]
  try simp (disch := omega) only [extract_setWidth, extract_setWidth_sub, extract_append_lo, extract_append_hi, lw, vopn, isOne_bit1, cvtSub_sr, cvtSub_hi, cvtSub_ty]
  try simp) rfl hw

theorem Codec.apxout (h : LHdr) (d : Dst) (j : BitVec 3) : Codec.Statement (.apxout h d j) :=
  Codec.ofL rfl rfl fun hw => decodeL_of_parse (f := lw 0xC2 h (d := d.opn) (imm := i24 j)) (by
  change (fun f : LFields => (some (.apxout f.hdr f.d.dst (f.imm.extractLsb' 0 3)) : Option Instr)) (lw 0xC2 h (d := d.opn) (imm := i24 j)) = _
  try simp only [lw_hdr]
  try simp (disch := omega) only [extract_setWidth, extract_setWidth_sub, extract_append_lo, extract_append_hi, lw, vopn, isOne_bit1, cvtSub_sr, cvtSub_hi, cvtSub_ty]
  try simp) rfl hw

theorem Codec.apxoutProbe (h : LHdr) (d : Dst) (j : BitVec 3) (r : BitVec 8) : Codec.Statement (.apxoutProbe h d j r) :=
  Codec.ofL rfl rfl fun hw => decodeL_of_parse (f := lw 0xC2 h (d := d.opn) (sub := 1) (imm := i24 (r ++ (0 : BitVec 5) ++ j))) (by
  change (fun f : LFields => (some (.apxoutProbe f.hdr f.d.dst (f.imm.extractLsb' 0 3) (f.imm.extractLsb' 8 8)) : Option Instr)) (lw 0xC2 h (d := d.opn) (sub := 1) (imm := i24 (r ++ (0 : BitVec 5) ++ j))) = _
  try simp only [lw_hdr]
  try simp (disch := omega) only [extract_setWidth, extract_setWidth_sub, extract_append_lo, extract_append_hi, lw, vopn, isOne_bit1, cvtSub_sr, cvtSub_hi, cvtSub_ty]
  try simp) rfl hw

theorem Codec.apxexit (h : LHdr) (last : Bool) (a : Src) (j : BitVec 3) : Codec.Statement (.apxexit h last a j) :=
  Codec.ofL rfl rfl fun hw => decodeL_of_parse (f := lw 0xC3 h (a := a.opn) (sub := s6 (bit1 last)) (imm := i24 j)) (by
  change (fun f : LFields => (some (.apxexit f.hdr (isOne (f.sub.extractLsb' 0 1)) f.a.src (f.imm.extractLsb' 0 3)) : Option Instr)) (lw 0xC3 h (a := a.opn) (sub := s6 (bit1 last)) (imm := i24 j)) = _
  try simp only [lw_hdr]
  try simp (disch := omega) only [extract_setWidth, extract_setWidth_sub, extract_append_lo, extract_append_hi, lw, vopn, isOne_bit1, cvtSub_sr, cvtSub_hi, cvtSub_ty]
  try simp) rfl hw

theorem Codec.fmma (h : LHdr) (d : Dst) (a : Src) (b : Src) (c : Src) : Codec.Statement (.fmma h d a b c) :=
  Codec.ofL rfl rfl fun hw => decodeL_of_parse (f := lw 0xC8 h (d := d.opn) (a := a.opn) (b := b.opn) (c := c.opn)) (by
  change (fun f : LFields => (some (.fmma f.hdr f.d.dst f.a.src f.b.src f.c.src) : Option Instr)) (lw 0xC8 h (d := d.opn) (a := a.opn) (b := b.opn) (c := c.opn)) = _
  try simp only [lw_hdr]
  try simp (disch := omega) only [extract_setWidth, extract_setWidth_sub, extract_append_lo, extract_append_hi, lw, vopn, isOne_bit1, cvtSub_sr, cvtSub_hi, cvtSub_ty]
  try simp) rfl hw

theorem Codec.fmld (h : LHdr) (ty : NType) (acc : Bool) (tr : Bool) (d : Dst) (m : MAddr) (b : Src) : Codec.Statement (.fmld h ty acc tr d m b) :=
  Codec.ofL rfl rfl fun hw => decodeL_of_parse (f := lw 0xC9 h (d := d.opn) (a := m.parts.1) (b := b.opn) (ty := ty) (sub := s6 (bit1 tr ++ bit1 acc ++ m.parts.2.1)) (imm := m.parts.2.2)) (by
  change (fun f : LFields => ((NType.ofCode f.ty).bind fun ty => (f.maddr).map fun m => .fmld f.hdr ty (isOne (f.sub.extractLsb' 2 1)) (isOne (f.sub.extractLsb' 3 1)) f.d.dst m f.b.src : Option Instr)) (lw 0xC9 h (d := d.opn) (a := m.parts.1) (b := b.opn) (ty := ty) (sub := s6 (bit1 tr ++ bit1 acc ++ m.parts.2.1)) (imm := m.parts.2.2)) = _
  have hm : LFields.maddr (lw 0xC9 h (d := d.opn) (a := m.parts.1) (b := b.opn) (ty := ty) (sub := s6 (bit1 tr ++ bit1 acc ++ m.parts.2.1)) (imm := m.parts.2.2)) = some m := maddr_of_parts _ m rfl (by
    simp (disch := omega) only [extract_setWidth, extract_setWidth_sub, extract_append_lo, extract_append_hi, lw]
    try simp) rfl
  simp only [hm]
  try simp only [lw_hdr]
  try simp (disch := omega) only [extract_setWidth, extract_setWidth_sub, extract_append_lo, extract_append_hi, lw, vopn, isOne_bit1, cvtSub_sr, cvtSub_hi, cvtSub_ty]
  try simp) rfl hw

theorem Codec.fmst (h : LHdr) (ty : NType) (acc : Bool) (m : MAddr) (b : Src) (c : Src) : Codec.Statement (.fmst h ty acc m b c) :=
  Codec.ofL rfl rfl fun hw => decodeL_of_parse (f := lw 0xCA h (a := m.parts.1) (b := b.opn) (c := c.opn) (ty := ty) (sub := s6 (bit1 acc ++ m.parts.2.1)) (imm := m.parts.2.2)) (by
  change (fun f : LFields => ((NType.ofCode f.ty).bind fun ty => (f.maddr).map fun m => .fmst f.hdr ty (isOne (f.sub.extractLsb' 2 1)) m f.b.src f.c.src : Option Instr)) (lw 0xCA h (a := m.parts.1) (b := b.opn) (c := c.opn) (ty := ty) (sub := s6 (bit1 acc ++ m.parts.2.1)) (imm := m.parts.2.2)) = _
  have hm : LFields.maddr (lw 0xCA h (a := m.parts.1) (b := b.opn) (c := c.opn) (ty := ty) (sub := s6 (bit1 acc ++ m.parts.2.1)) (imm := m.parts.2.2)) = some m := maddr_of_parts _ m rfl (by
    simp (disch := omega) only [extract_setWidth, extract_setWidth_sub, extract_append_lo, extract_append_hi, lw]
    try simp) rfl
  simp only [hm]
  try simp only [lw_hdr]
  try simp (disch := omega) only [extract_setWidth, extract_setWidth_sub, extract_append_lo, extract_append_hi, lw, vopn, isOne_bit1, cvtSub_sr, cvtSub_hi, cvtSub_ty]
  try simp) rfl hw

theorem Codec.longLatencyReturn (k_ : Nat) : Codec.Statement (.longLatencyReturn k_) := Codec.ofNone rfl rfl

theorem Codec.blockStart : Codec.Statement (.blockStart) := Codec.ofNone rfl rfl

theorem Codec.groupEnd : Codec.Statement (.groupEnd) := Codec.ofNone rfl rfl

theorem Codec.successorStart : Codec.Statement (.successorStart) := Codec.ofNone rfl rfl

theorem Codec.cardAdmit (slice_ : Nat) (queue_ : Nat) : Codec.Statement (.cardAdmit slice_ queue_) := Codec.ofNone rfl rfl

theorem Codec.cardStart (card_ : Nat) : Codec.Statement (.cardStart card_) := Codec.ofNone rfl rfl

theorem Codec.cardComplete (card_ : Nat) : Codec.Statement (.cardComplete card_) := Codec.ofNone rfl rfl

theorem Codec.dispatchTeam (vf_ : Nat) : Codec.Statement (.dispatchTeam vf_) := Codec.ofNone rfl rfl

theorem Codec.fragmentGroupLaunch (card_ : Nat) : Codec.Statement (.fragmentGroupLaunch card_) := Codec.ofNone rfl rfl

theorem Codec.issueAgeLimit : Codec.Statement (.issueAgeLimit) := Codec.ofNone rfl rfl

theorem Codec.copyUnitArrive (copy_ : Nat) : Codec.Statement (.copyUnitArrive copy_) := Codec.ofNone rfl rfl

theorem Codec.copyPageFault (copy_ : Nat) : Codec.Statement (.copyPageFault copy_) := Codec.ofNone rfl rfl

theorem Codec.matrixStep (cluster_ : Nat) (bank_ : Nat) : Codec.Statement (.matrixStep cluster_ bank_) := Codec.ofNone rfl rfl

theorem Codec.mstoreRun (cluster_ : Nat) (bank_ : Nat) : Codec.Statement (.mstoreRun cluster_ bank_) := Codec.ofNone rfl rfl

theorem Codec.mzeroRun (cluster_ : Nat) (bank_ : Nat) : Codec.Statement (.mzeroRun cluster_ bank_) := Codec.ofNone rfl rfl

theorem Codec.splatCommandStart (team_ : Nat) : Codec.Statement (.splatCommandStart team_) := Codec.ofNone rfl rfl

theorem Codec.sprojGranule (team_ : Nat) : Codec.Statement (.sprojGranule team_) := Codec.ofNone rfl rfl

theorem Codec.sbinGranule (team_ : Nat) : Codec.Statement (.sbinGranule team_) := Codec.ofNone rfl rfl

theorem Codec.sblendTile (team_ : Nat) : Codec.Statement (.sblendTile team_) := Codec.ofNone rfl rfl

theorem Codec.sgradTile (team_ : Nat) : Codec.Statement (.sgradTile team_) := Codec.ofNone rfl rfl

theorem Codec.splatGranuleFault (team_ : Nat) : Codec.Statement (.splatGranuleFault team_) := Codec.ofNone rfl rfl

theorem Codec.invocationArrive (cluster_ : Nat) : Codec.Statement (.invocationArrive cluster_) := Codec.ofNone rfl rfl

theorem Codec.guardWrite (key_ : Nat) : Codec.Statement (.guardWrite key_) := Codec.ofNone rfl rfl

theorem Codec.encodeFrameDone (slice_ : Nat) : Codec.Statement (.encodeFrameDone slice_) := Codec.ofNone rfl rfl

theorem Codec.tileRowRead (slice_ : Nat) : Codec.Statement (.tileRowRead slice_) := Codec.ofNone rfl rfl

theorem Codec.handlerEntry : Codec.Statement (.handlerEntry) := Codec.ofNone rfl rfl

theorem Codec.logRetry (vf_ : Nat) : Codec.Statement (.logRetry vf_) := Codec.ofNone rfl rfl

theorem Codec.poolRefill (ctx_ : Nat) (frame_ : Nat) : Codec.Statement (.poolRefill ctx_ frame_) := Codec.ofNone rfl rfl

theorem Codec.sleepExpire : Codec.Statement (.sleepExpire) := Codec.ofNone rfl rfl

theorem Codec.graceExpire (team_ : Nat) : Codec.Statement (.graceExpire team_) := Codec.ofNone rfl rfl

theorem Codec.killExpire (team_ : Nat) : Codec.Statement (.killExpire team_) := Codec.ofNone rfl rfl

theorem Codec.watchdogExpire (team_ : Nat) : Codec.Statement (.watchdogExpire team_) := Codec.ofNone rfl rfl

theorem Codec.starveExpire (slice_ : Nat) (queue_ : Nat) : Codec.Statement (.starveExpire slice_ queue_) := Codec.ofNone rfl rfl

theorem Codec.vsync (vf_ : Nat) : Codec.Statement (.vsync vf_) := Codec.ofNone rfl rfl

theorem Codec.roofAreaLoad (cluster_ : Nat) : Codec.Statement (.roofAreaLoad cluster_) := Codec.ofNone rfl rfl

theorem Codec.roofGate (cluster_ : Nat) : Codec.Statement (.roofGate cluster_) := Codec.ofNone rfl rfl

theorem Codec.roofWake (cluster_ : Nat) : Codec.Statement (.roofWake cluster_) := Codec.ofNone rfl rfl

theorem Codec.bwWindowEnd (slice_ : Nat) (p99_ : List (Nat × Nat × Nat)) : Codec.Statement (.bwWindowEnd slice_ p99_) := Codec.ofNone rfl rfl

theorem Codec.throttlePeriod (slice_ : Nat) : Codec.Statement (.throttlePeriod slice_) := Codec.ofNone rfl rfl

theorem Codec.snoopParityError (set_ : Nat) : Codec.Statement (.snoopParityError set_) := Codec.ofNone rfl rfl

theorem Codec.ckptFrameCopied (ctx_ : Nat) : Codec.Statement (.ckptFrameCopied ctx_) := Codec.ofNone rfl rfl

theorem Codec.ckptStreamEnd (ctx_ : Nat) (ok_ : Bool) : Codec.Statement (.ckptStreamEnd ctx_ ok_) := Codec.ofNone rfl rfl

theorem Codec.peerAckTimeout (peer_ : Nat) : Codec.Statement (.peerAckTimeout peer_) := Codec.ofNone rfl rfl

theorem Codec.peerProbe (peer_ : Nat) (answered_ : Bool) : Codec.Statement (.peerProbe peer_ answered_) := Codec.ofNone rfl rfl

theorem Codec.fwHeartbeat (slice_ : Nat) : Codec.Statement (.fwHeartbeat slice_) := Codec.ofNone rfl rfl

theorem Codec.fwHeartbeatTimeout (slice_ : Nat) : Codec.Statement (.fwHeartbeatTimeout slice_) := Codec.ofNone rfl rfl

theorem Codec.sliceControllerFault (slice_ : Nat) (code_ : Nat) : Codec.Statement (.sliceControllerFault slice_ code_) := Codec.ofNone rfl rfl

theorem Codec.deviceManagerFault : Codec.Statement (.deviceManagerFault) := Codec.ofNone rfl rfl

theorem Codec.powerOn : Codec.Statement (.powerOn) := Codec.ofNone rfl rfl

theorem Codec.powerCapAdjust (mhz_ : Nat) : Codec.Statement (.powerCapAdjust mhz_) := Codec.ofNone rfl rfl

theorem Codec.hostMemAccess (vf_ : Nat) (pasid_ : Option Nat) (addr_ : Nat) (req_ : MemReq) : Codec.Statement (.hostMemAccess vf_ pasid_ addr_ req_) := Codec.ofNone rfl rfl

theorem Codec.hostAtomic (vf_ : Nat) (addr_ : Nat) (req_ : MemReq) : Codec.Statement (.hostAtomic vf_ addr_ req_) := Codec.ofNone rfl rfl

theorem Codec.hostUnsupportedRequest : Codec.Statement (.hostUnsupportedRequest) := Codec.ofNone rfl rfl

theorem Codec.peerAccess (vf_ : Nat) (addr_ : Nat) (req_ : MemReq) : Codec.Statement (.peerAccess vf_ addr_ req_) := Codec.ofNone rfl rfl

theorem Codec.mailboxRegisterWrite (fn_ : Nat) (off_ : Nat) (v_ : DWord) : Codec.Statement (.mailboxRegisterWrite fn_ off_ v_) := Codec.ofNone rfl rfl

theorem Codec.qdesc (fn_ : Nat) : Codec.Statement (.qdesc fn_) := Codec.ofNone rfl rfl

theorem Codec.qreset (fn_ : Nat) : Codec.Statement (.qreset fn_) := Codec.ofNone rfl rfl

theorem Codec.xblock (fn_ : Nat) : Codec.Statement (.xblock fn_) := Codec.ofNone rfl rfl

theorem Codec.sblock (fn_ : Nat) : Codec.Statement (.sblock fn_) := Codec.ofNone rfl rfl

theorem Codec.shoot (fn_ : Nat) : Codec.Statement (.shoot fn_) := Codec.ofNone rfl rfl

theorem Codec.dirtylog (fn_ : Nat) : Codec.Statement (.dirtylog fn_) := Codec.ofNone rfl rfl

theorem Codec.quota (fn_ : Nat) : Codec.Statement (.quota fn_) := Codec.ofNone rfl rfl

theorem Codec.intf (fn_ : Nat) : Codec.Statement (.intf fn_) := Codec.ofNone rfl rfl

theorem Codec.pmake (fn_ : Nat) : Codec.Statement (.pmake fn_) := Codec.ofNone rfl rfl

theorem Codec.pfree (fn_ : Nat) : Codec.Statement (.pfree fn_) := Codec.ofNone rfl rfl

theorem Codec.fuse (fn_ : Nat) : Codec.Statement (.fuse fn_) := Codec.ofNone rfl rfl

theorem Codec.split (fn_ : Nat) : Codec.Statement (.split fn_) := Codec.ofNone rfl rfl

theorem Codec.engines (fn_ : Nat) : Codec.Statement (.engines fn_) := Codec.ofNone rfl rfl

theorem Codec.ways (fn_ : Nat) : Codec.Statement (.ways fn_) := Codec.ofNone rfl rfl

theorem Codec.bwclass (fn_ : Nat) : Codec.Statement (.bwclass fn_) := Codec.ofNone rfl rfl

theorem Codec.lease (fn_ : Nat) : Codec.Statement (.lease fn_) := Codec.ofNone rfl rfl

theorem Codec.revoke (fn_ : Nat) : Codec.Statement (.revoke fn_) := Codec.ofNone rfl rfl

theorem Codec.sreset (fn_ : Nat) : Codec.Statement (.sreset fn_) := Codec.ofNone rfl rfl

theorem Codec.report (fn_ : Nat) : Codec.Statement (.report fn_) := Codec.ofNone rfl rfl

theorem Codec.zero (fn_ : Nat) : Codec.Statement (.zero fn_) := Codec.ofNone rfl rfl

theorem Codec.ckpt (fn_ : Nat) : Codec.Statement (.ckpt fn_) := Codec.ofNone rfl rfl

theorem Codec.restore (fn_ : Nat) : Codec.Statement (.restore fn_) := Codec.ofNone rfl rfl

theorem Codec.fwstage (fn_ : Nat) : Codec.Statement (.fwstage fn_) := Codec.ofNone rfl rfl

theorem Codec.fwupdate (fn_ : Nat) : Codec.Statement (.fwupdate fn_) := Codec.ofNone rfl rfl

theorem Codec.getVersion : Codec.Statement (.getVersion) := Codec.ofNone rfl rfl

theorem Codec.getCapabilities : Codec.Statement (.getCapabilities) := Codec.ofNone rfl rfl

theorem Codec.negotiateAlgorithms : Codec.Statement (.negotiateAlgorithms) := Codec.ofNone rfl rfl

theorem Codec.getDigests : Codec.Statement (.getDigests) := Codec.ofNone rfl rfl

theorem Codec.getCertificate : Codec.Statement (.getCertificate) := Codec.ofNone rfl rfl

theorem Codec.challenge : Codec.Statement (.challenge) := Codec.ofNone rfl rfl

theorem Codec.getMeasurements (index_ : Nat) : Codec.Statement (.getMeasurements index_) := Codec.ofNone rfl rfl

theorem Codec.keyExchange : Codec.Statement (.keyExchange) := Codec.ofNone rfl rfl

theorem Codec.finish : Codec.Statement (.finish) := Codec.ofNone rfl rfl

theorem Codec.illegalInstruction (lane_ : Bool) : Codec.Statement (.illegalInstruction lane_) := Codec.ofNone rfl rfl

theorem Codec.storePerformed (core_ : Nat) (key_ : Nat) : Codec.Statement (.storePerformed core_ key_) := Codec.ofNone rfl rfl

theorem Codec.duplicateAcknowledge (core_ : Nat) (key_ : Nat) : Codec.Statement (.duplicateAcknowledge core_ key_) := Codec.ofNone rfl rfl

theorem Codec.zeroingDone (slice_ : Nat) : Codec.Statement (.zeroingDone slice_) := Codec.ofNone rfl rfl

theorem Codec.powerLoss : Codec.Statement (.powerLoss) := Codec.ofNone rfl rfl

theorem Codec.worenPortLoss (port_ : Nat) : Codec.Statement (.worenPortLoss port_) := Codec.ofNone rfl rfl

theorem Codec.roceReceive (vf_ : Nat) (addr_ : Nat) (req_ : MemReq) : Codec.Statement (.roceReceive vf_ addr_ req_) := Codec.ofNone rfl rfl

end Sys2Proof.Laws
end

