-- ==== Sys2Proof/Tests/Slice0.lean ====
section
/-! SUPPORT. The model's own tests: terms that the checks of WellFormed refuse, words written out from the spec's encodings,
single steps with results worked by hand from the spec, and for every statement with hypotheses a state that meets them. -/

namespace Sys2Proof.Tests

set_option Elab.async false

open Sys2Proof Sys2Proof.Machine

/-! ## Ill-formed terms -/

/-- A lane word's header: no W, all lanes. -/
abbrev H : LHdr := ⟨false, 0, false⟩
/-- Rounding to nearest, no saturation. -/
abbrev R : RS := ⟨false, .near⟩

/-- R68, R75: odd pairs, quads that are no multiple of four, fields outside their values. -/
theorem test_wf_scalar :
    ([.clock false 1 0, .clock false 0 2, .add64 false 1 2 4, .sub64 false 2 3 4, .mul64 false 2 4 5, .add128 false 2 4 8,
      .add128 false 4 6 8, .shl64 false 1 2 3, .shr64 false 2 3 3, .cmpi false .gtn 1 2 3, .cmpi false .gen 1 2 3,
      .exitto false 1 2, .tstb false 1 2 3 false .any, .lds false 1 3 0, .sts false 1 3 0, .atoms false 1 2 4 .add .grp,
      .atoms false 2 2 6 .cas .grp, .chsend false 1 17, .chrecv false 1 16 false, .chstat false 1 18, .tbind false 0 1 2,
      .cpyb false 1 2 3, .mfmt false 61, .mloop false 61 1 2, .mconv false 61 1 2, .mstore false 1 2 3, .mstat false 1 0,
      .pcntRd false 1 0, .pcntWr false 2 20, .pcntSel false 2 16, .ctxsave false 1 3 0, .ctxload false 1 3 0] : List Instr).all
      (fun i => !i.wf) = true := by decide

/-- R83, R84, R210: channels that cannot be operands, types an entry does not take, registers not aligned. -/
theorem test_wf_lane :
    ([.fadd H (.chan 16) (.vec 1) (.vec 2) R, .fadd H (.vec 0) (.chan 17 false) (.vec 2) R, .fsub H (.vec 0) (.vec 1) (.chan 24 true) R,
      .ffma H (.vec 0) (.vec 1) (.vec 2) (.chan 18 false) R, .fmin H (.chan 18) (.vec 1) (.vec 2), .fcmp H (.reg (.chan 19)) .eq (.vec 1) (.vec 2),
      .fclass H (.chan 21) (.vec 1), .frint H (.chan 16) (.vec 1) .up, .fdiv H (.chan 3) (.vec 1) (.vec 2) R, .fsqrt H (.chan 3) (.vec 1) R,
      .hadd2 H .f32 (.vec 0) (.vec 1) (.vec 2) R, .hmin2 H .n16 (.vec 0) (.vec 1) (.vec 2), .hcmp2 H .s16 (.vec 0) .eq (.vec 1) (.vec 2),
      .hdot2 H .f32 (.vec 0) (.vec 1) (.vec 2) (.vec 3) R, .cvt H .f32 .f32 false false ⟨.vec 0, false⟩ (.vec 1) R,
      .cvt H .f32 .bf16 false true ⟨.vec 0, false⟩ (.vec 1) R, .cvt H .bf16 .f32 true false ⟨.vec 0, false⟩ (.vec 1) R,
      .cvt H .f32 .bf16 false false ⟨.vec 0, true⟩ (.vec 1) R, .cvt H .bf16 .f32 false true ⟨.vec 0, false⟩ (.vec 1) ⟨false, .up⟩,
      .cvt2 H .bf16 .f32 false (.vec 0) (.vec 1) R, .cvt4 H .bf16 .f32 false (.vec 0) (.vec 4) none R,
      .cvt8 H .e2m1 .e4m3 false (.vec 0) (.vec 1) none R, .qdec H .f32 false (.vec 0) (.vec 1) (.vec 2) (.vec 3) R,
      .qdec H .bf16 false (.vec 2) (.vec 1) (.vec 2) (.vec 3) R, .qenc H (.chan 3) (.vec 1) (.vec 2) (.vec 3) 0,
      .ftoi H .f32 .f32 false ⟨.vec 0, false⟩ (.vec 1) .near, .itof H .f32 .bf16 false false ⟨.vec 0, false⟩ (.vec 1) R,
      .icvt H .s64 .s32 false ⟨.vec 1, false⟩ (.vec 1) false, .iadd H .n8 (.vec 0) (.vec 1) (.vec 2) false,
      .iadd H .n64 (.vec 1) (.vec 2) (.vec 4) false, .imin H .n64 (.vec 0) (.vec 1) (.vec 2), .imulh H .s64 (.vec 0) (.vec 2) (.vec 4),
      .imad H .n64 (.vec 0) (.vec 2) (.vec 4) (.vec 6) false, .iabs H .n32 (.vec 0) (.vec 1) false, .ishl H .s32 (.vec 0) (.vec 1) (.imm 3),
      .ishr H .n32 (.vec 0) (.vec 1) (.imm 32), .isar H .n32 (.vec 0) (.vec 1) (.imm 3), .fshl H (.vec 0) (.vec 1) (.vec 2) (.imm 32),
      .logic3 H (.vec 0) (.chan 19 false) (.vec 1) (.vec 2) 0, .laneBfx H .n64 (.vec 0) (.vec 1) (.vec 2),
      .laneBfi H .f32 (.vec 0) (.vec 1) (.vec 2) (.vec 3), .lanePopc H (.chan 16) (.vec 1), .icmp H .n16 (.mask 1) .eq (.vec 1) (.vec 2),
      .laneSel H .s32 (.vec 0) (.vec 1) (.vec 2) 1 false, .idot4 H .s32 (.vec 0) (.vec 1) (.vec 2) (.vec 3) false,
      .isad H (.vec 0) (.vec 1) (.vec 2) (.chan 17 true), .iaddc H false (.chan 18) (.vec 1) (.vec 2) 1, .mov H .s32 (.vec 0) (.vec 1),
      .mov H .b128 (.vec 2) (.vec 4), .laneMovi H (.vec 0) true 0x10000, .shfl H .s32 (.vec 0) (.vec 1) (.vec 2),
      .shflx H .n64 (.vec 1) (.vec 2) 1, .vote H .any (.chan 16) (.vec 1), .reduce H .and .f32 (.vec 0) (.vec 1),
      .prefixOp H .xor true .f32 (.vec 0) (.vec 1), .brl H 1 0, .movs H (.chan 16) 0, .ld H .e4m3 .plain .grp 0 false (.sp (.vec 1) 0),
      .ld H .f32 .rel .grp 0 false (.sp (.vec 1) 0), .ld H .n64 .plain .grp 1 false (.sp (.vec 1) 0),
      .ld H .f32 .plain .grp 1 true (.sp (.vec 1) 0), .st H .f32 .acq .grp false (.sp (.vec 1) 0) (.vec 2),
      .st H .f32 .plain .grp false (.rf (.vec 1) 0) (.vec 2), .ldx H .f32 .plain .grp 0 false ⟨.vec 1, none, 0⟩,
      .stx H .f32 .plain .grp true ⟨.vec 2, none, 0⟩ (.vec 3), .atom H .add .n16 .plain .grp 0 (.sp (.vec 1) 0) (.vec 2),
      .atom H .add .n32 .plain .grp 0 (.rf (.vec 1) 0) (.vec 2), .atomx H .cas .n64 .plain .grp 0 ⟨.vec 2, none, 0⟩ (.vec 2),
      .red H .exch .n32 .plain .grp (.sp (.vec 1) 0) (.vec 2), .red H .add .n32 .acq .grp (.sp (.vec 1) 0) (.vec 2),
      .lcpy H .grp (.rf (.vec 1) 0) (.vec 2) (.vec 3), .pref H .grp 0 (.chan 18 false) 0, .rng H (.vec 2) (.vec 4) (.vec 8),
      .rngNext H (.vec 1), .rngSeed H (.vec 4) (.vec 1), .rngCtr H (.vec 2), .rngKey H (.vec 1), .add128l H (.vec 4) (.vec 8) (.vec 2),
      .add128lCtr H (.vec 2), .attr H .flat (.chan 16) 0, .deriv H false false (.vec 0) (.chan 17 false), .texs H .t2d (.vec 2) (.vec 4) 0,
      .texs H .t3d (.vec 0) (.vec 2) 0, .texl H .t2d (.vec 0) (.vec 1) (.vec 2) 0, .texg H .t2d 0 (.vec 1) (.vec 2) 0,
      .texq H false (.vec 1) (.vec 2) 0, .trace H false (.vec 4) (.vec 0) (.vec 4) 0, .expc H .add (.vec 2) 0, .expz H (.chan 18 false),
      .apxin H (.chan 18 false) 0, .apxout H (.chan 1) 0, .apxoutProbe H (.chan 1) 0 0, .apxexit H true (.chan 18 false) 0,
      .fmma H (.vec 4) (.vec 0) (.vec 4) (.vec 8), .fmld H .f32 false false (.vec 0) (.sp (.vec 1) 0) (.vec 2),
      .fmld H .f32 true true (.vec 0) (.sp (.vec 1) 0) (.vec 2), .fmst H .bf16 true (.sp (.vec 1) 0) (.vec 2) (.vec 8)] : List Instr).all
      (fun i => !i.wf) = true := by decide

/-! ## Words written out from the encodings of the spec -/

/-- A control word of each major: decoded to the instruction it stands for. -/
theorem test_decode_control :
    ([(0x04188280, .add false 3 4 5), (0x0A105FFF, .addi true 2 2 (-1)), (0x44BFFFFB, .brq false 2 true (-5)),
      (0xFC0091A2, .limm 0x91A2), (0x20381678, .movi false 7 0x1678), (0x00284003, .query false 5 2),
      (0x28106202, .cmp false 2 3 4 .lts), (0x50481FFD, .loop false 9 (-3)), (0x6C20C404, .atoms false 4 6 8 .add .prt),
      (0x70100000, .lrun false 2 0), (0x80E00000, .fence false .slc .sc), (0x8C20A501, .heaptake false 4 5 true 2),
      (0x88404180, .cpyb false 8 2 3), (0x8820A003, .empty false 4 5), (0x88320182, .cpyq false 6 16 3), (0x90200000, .mfmt false 4)]
      : List (Word × Instr)).all (fun p => decodeC p.1 == .ok p.2) = true := by decide

theorem test_decode_control2 :
    ([(0x90418681, .mloop false 8 12 13), (0x90418682, .mconv false 8 12 13), (0x90824683, .mstore false 16 18 13),
      (0x90080004, .mzero false 1), (0x90302005, .mstat false 6 1), (0xA0180000, .chimgate false 3), (0x9420A000, .sproj false 4 5),
      (0x9420A001, .sbin false 4 5), (0x9440A002, .sblend false 8 5), (0x9480A003, .sgrad false 16 5), (0x98200080, .apxdef false 4 1),
      (0x98280001, .apxkill false 5), (0x9C418000, .encsub false 8 12), (0xC0180800, .movsw false 3 0x010), (0xC0222001, .pcntRd false 4 17),
      (0xC0000002, .rett false), (0xC0108083, .ctxsave false 2 4 1), (0xC0188104, .ctxload false 3 4 2), (0xC0102085, .haltHard false 2 1),
      (0xC0302006, .freezeThaw false 6 0), (0x8E20A481, .heaptake true 4 5 true 1), (0x50F01FFD, .loop false 30 (-3))]
      : List (Word × Instr)).all (fun p => decodeC p.1 == .ok p.2) = true := by decide

/-- Lane words of each group. -/
theorem test_decode_lane :
    ([(0x038006008040200800000000, .ffma ⟨true, 0, false⟩ (.vec 3) (.vec 1) (.vec 2) (.vec 4) ⟨false, .zero⟩),
      (0x800010028000030000200010, .ld H .n32 .plain .grp 8 false (.glob 2 (.vec 5) 16)),
      (0x580228018000030000000000, .mov H .n32 (.chan 20) (.vec 3)), (0x4B0012040100030020000001, .fshl H (.vec 9) (.vec 8) (.vec 8) (.imm 1)),
      (0x4D00080080401B0000000096, .logic3 H (.vec 4) (.vec 1) (.vec 2) (.vec 3) 0x96), (0x701C00000000000000009005, .brl ⟨false, 3, true⟩ 5 9),
      (0x32000402012000C400000000, .cvt4 H .e4m3 .f32 false (.vec 2) (.vec 4) (some (.vec 9)) R),
      (0xC80010000080400000000000, .fmma H (.vec 8) (.vec 0) (.vec 4) (.vec 8)),
      (0x84000C0100003B000E100008, .atom H .add .n32 .rel .slc 6 (.glob 1 (.vec 2) 8) (.vec 7)),
      (0x87000002808033C00C200020, .lcpy H .slc (.glob 2 (.vec 5) 32) (.vec 4) (.vec 6)),
      (0xB68020000080000020000005, .trace ⟨true, 0, false⟩ true (.vec 16) (.vec 0) (.vec 4) 5),
      (0xC00002000000000000000003, .apxenter H 1 3), (0xC30000048000000020000000, .apxexit H true (.vec 9) 0),
      (0xA0001000000003C020000000, .rngNext H (.vec 8)), (0xC20012000000000000000000, .apxout H (.vec 9) 0)]
      : List (LWord × Instr)).all (fun p => decodeL p.1 == .ok p.2) = true := by decide

/-! ## Small states -/

/-- A device that runs: one context of one VF on one slice, and a group of a team on its first core. -/
def dev : State :=
  { State.reset with
    g := { uid := 1, live := true, team := 2, budget := 256 }
    t := { uid := 2, live := true, wsize := 0x40000, cores := true, chain := true }
    slices := [{ id := 0, state := 1 }]
    vfs := [{ id := 0, present := true, chunks := [(0, [0])] }]
    ctxs := [{ id := 0, pasid := 1, quota := 4 }]
    nextId := 10 }

/-- The same with scalar registers. -/
def devS (l : SMap Word) : State := dev.mapG fun g => { g with s := l }

/-- The same with a block of lanes 0 to 3. -/
def devL : State := dev.mapG fun g => { g with laneq := [{}], splits := [{ mask := 0xF }] }

/-- The same with page 0 mapped to 0x6000 with every right. -/
def paged (s : State) : State := placePage 0 0 s

/-- The same with a valid stage barrier at offset 0. -/
def barred (s : State) : State := s.setBar 0 (barInit 1)

/-- The same in a mode. -/
def moded (m : Mode) (s : State) : State := s.mapG fun g => { g with mode := m }

/-- What a fetch answers is a word. -/
def fetched {α : Type} [DecidableEq α] (f : Fetched α) (w : α) : Bool := match f with | .word _ x => x = w | .fault _ _ _ => false

theorem of_fetched {α : Type} [DecidableEq α] {f : Fetched α} {w : α} (h : fetched f w = true) : ∃ s, f = .word s w := by
  cases f with
  | word s x => exact ⟨s, by simp only [fetched, decide_eq_true_eq] at h; rw [h]⟩
  | fault _ _ _ => cases h

/-- A translation that is granted. -/
def granted (r : State × TRes) : Bool := match r.2 with | .ok _ false => true | _ => false

theorem of_granted {r : State × TRes} (h : granted r = true) : ∃ s key, r = (s, .ok key false) := by
  obtain ⟨s, x⟩ := r
  cases x with
  | ok key dup => cases dup with
    | false => exact ⟨s, key, rfl⟩
    | true => cases h
  | fault _ => cases h
  | full => cases h

/-- What a lane word's checks and channels need, put together. -/
theorem issues {h : LHdr} {ds : List (Nat × Word)} {regs : List (Nat × Nat)} {os : List Src} {d : Option Dst} {s : State} {x : Split}
    {vs : List (List Word)} {popped : List Nat} {mem : Bool} (h0 : s.g.curSplit < 16) (h1 : s.g.split? s.g.curSplit = some x)
    (h2 : inBudget s regs = true) (h3 : os.all (srcLegal s) = true)
    (h4 : (match d with | some y => dstLegal s y | none => true) = true) (hb : namesBad s regs = false)
    (h5 : takeEntries s x none os = some (vs, popped)) (h6 : dstRoom s d popped = true)
    (ht : earlierWords s.g x ⟨mem, pushes d⟩ = [] := by decide) :
    LaneIssues h ds regs os d s
      { sp := x, act := activeLanes s h x, w := h.w, chv := vs, s0 := s, os := os, ds := ds, late := none, all := firstLanes s h x } popped mem where
  low := h0
  split := h1
  act := rfl
  mark := rfl
  start := rfl
  srcs := rfl
  dests := rfl
  first := rfl
  lanes := rfl
  turn := Or.inr ht
  budget := h2
  legal := h3
  dst := fun y hy => by subst hy; exact h4
  clean := hb
  take := h5
  room := Or.inr h6

/-! ## States that meet the hypotheses of the statements -/

/-- StepRuns: a control word and a lane word that the next step fetches, a lane word that has waited; what a fetch reads. -/
theorem witness_StepRuns :
    (let s := State.reset.withFetchWord 32 0x04188280
     let s0 := { s with tick := s.tick + 1, agenda := [] }
     s.powered = true ∧ s.agenda = [.issueC] ∧ lostHere s0 = false ∧ mayIssueC s0 = true ∧ s.g.faults = []
      ∧ issuesNow s0 s.g (s.g.uid, none) = true
      ∧ (∃ s1, fetchC { s0 with writer := some (.c s.g.uid) } s.g.pc = .word s1 0x04188280) ∧ decodeC 0x04188280 = .ok (.add false 3 4 5))
    ∧ (let s := State.reset.withFetchWord 96 0x4D00080080401B0000000096
       let m := mergedAt s.g 0
       let s0 : State := { s with tick := s.tick + 1, agenda := [] }
       let g : Group := { m.1 with curSplit := m.2 }
       let s2 : State := { s0 with g := g, writer := some (.l m.1.uid m.2) }
       s.agenda = [.issueL 0] ∧ lostHere s0 = false ∧ groupRuns s0 s.g = true ∧ s.g.faults = []
        ∧ g.split? m.2 = some { mask := BitVec.allOnes 32 } ∧ issuesNow s2 g (g.uid, some m.2) = true
        ∧ (∃ s1, fetchL s2 0 = .word s1 0x4D00080080401B0000000096)
        ∧ slotTakes s2 (ahead s2 g (g.uid, some m.2)) 0x4D00080080401B0000000096 = true
        ∧ decodeL 0x4D00080080401B0000000096 = .ok (.logic3 H (.vec 4) (.vec 1) (.vec 2) (.vec 3) 0x96))
    ∧ (let s := { dev with agenda := [.issueL 16] }.mapG fun g =>
         { g with pend := [{ late := some { word := 0x4D00080080401B0000000096 } }] }
       s.agenda = [.issueL (16 + 0)] ∧ s.g.pend[0]? = some { late := some { word := 0x4D00080080401B0000000096 } }
        ∧ ({} : Pend).ofHandler = s.g.inHandler)
    ∧ (0 : DWord).toNat % 4 = 0 ∧ (∃ s1 key, (paged dev).xlate 0 4 .ex = (s1, .ok key false)) ∧ (2 : DWord).toNat % 4 ≠ 0 :=
  ⟨⟨rfl, by decide, by decide +kernel, by decide +kernel, by decide, by decide +kernel, of_fetched (by decide +kernel), by decide⟩,
   ⟨by decide, by decide +kernel, by decide +kernel, by decide, by decide +kernel, by decide +kernel, of_fetched (by decide +kernel),
    by decide +kernel, by decide⟩,
   by decide +kernel, by decide, of_granted (by decide +kernel), by decide⟩

/-- StepSafe: power, bring-up, neither. -/
theorem witness_StepSafe : State.reset.powered = true
    ∧ ({ State.reset with powered := false } : State).agenda = [] ∧ ({ State.reset with powered := false } : State).powered = false := by
  decide

/-- StartStates: the team and the group that a launch starts. -/
theorem witness_StartStates :
    let l : Launch := { entry := 0x1000, roles := [(1, 16)], smem := 4096 }
    let u := startTeam State.reset l 0 1 0 3 0 0 (0, 0) false
    (l.roles.map fun r => r.1).sum = 1 ∧ (u.allGroups.any fun g => !(State.reset.allGroups.contains g)) = true
      ∧ (u.allTeams.any fun t => !(State.reset.allTeams.contains t)) = true := by decide +kernel

/-- MemoryWrites: a run at the end of the space, a run of host memory. -/
theorem witness_MemoryWrites : 2 ^ 60 - 2 + ([1, 2] : List Byte).length ≤ 2 ^ 60 ∧ dev.peerOf (2 ^ 60) = none
    ∧ Memory.wf dev.mem = true ∧ Memory.wf dev.hostMem = true := by decide

/-- RegisterLaws. -/
theorem witness_RegisterLaws : (moded .handler dev).g.mode = .handler ∧ 48 ≤ (63 : SReg).toNat ∧ dev.g.pend = [] := by decide

/-- StoreFrame: a store that is granted, and a lane store into the window. -/
theorem witness_StoreFrame :
    (∃ s1 key, (paged dev).xlate ((paged dev).g.rdP (paged dev).tick 2 + BitVec.ofInt 64 (0 : BitVec 13).toInt) 4 .wr = (s1, .ok key false))
    ∧ ∃ c popped, LaneIssues H [] [(1, 1), (2, 1)] [.vec 1, .vec 2] none devL c popped true ∧ spaceLegal devL (.ofM (.sp (.vec 1) 0)) = true
      ∧ (c.placeAll (.ofM (.sp (.vec 1) 0)) 4 .wr (c.lanes.filter fun l => !helperLane devL.g l) devL).full = false
      ∧ (c.placeAll (.ofM (.sp (.vec 1) 0)) 4 .wr (c.lanes.filter fun l => !helperLane devL.g l) devL).faults = [] :=
  ⟨of_granted (by decide +kernel),
   ⟨_, [], issues (vs := [[], []]) (x := { mask := 0xF }) (by decide) rfl (by decide) (by decide) (by decide) (by decide) (by decide) (by decide),
    by decide, by decide, by decide⟩⟩

/-- LaneFrame and the computing lane words: two vector sources; a channel source that is popped, to a channel; three sources of
two registers; no source. -/
theorem witness_Lanes :
    (∃ c popped, LaneIssues H (vDs 1 (.vec 3)) [(3, 1), (1, 1), (2, 1)] [.vec 1, .vec 2] (some (.vec 3)) devL c popped)
    ∧ (let s := setCh devL 0 [7]
       ∃ c popped, LaneIssues H (vDs 1 (.chan 1)) [(1, 1)] [.chan 0 true, .vec 1] (some (.chan 1)) s c popped ∧ c.act ≠ 0)
    ∧ (∃ c popped, LaneIssues H (vDs 2 (.vec 2)) [(2, 2), (4, 2), (6, 2), (8, 2)] [.vec 4, .vec 6, .vec 8] (some (.vec 2)) devL c popped)
    ∧ (∃ c popped, LaneIssues H (vDs 4 (.vec 252)) [(252, 4)] [] (some (.vec 252)) devL c popped)
    ∧ (∃ c popped, LaneIssues H [] [(1, 1)] [.vec 1] none devL c popped) :=
  ⟨⟨_, [], issues (vs := [[], []]) (x := { mask := 0xF }) (by decide) rfl (by decide) (by decide) (by decide) (by decide) (by decide) (by decide)⟩,
   ⟨_, [0], issues (vs := [[7], []]) (x := { mask := 0xF }) (by decide) rfl (by decide) (by decide) (by decide) (by decide) (by decide) (by decide), by decide⟩,
   ⟨_, [], issues (vs := [[], [], []]) (x := { mask := 0xF }) (by decide) rfl (by decide) (by decide) (by decide) (by decide) (by decide) (by decide)⟩,
   ⟨_, [], issues (vs := []) (x := { mask := 0xF }) (by decide) rfl (by decide) (by decide) (by decide) (by decide) (by decide) (by decide)⟩,
   ⟨_, [], issues (vs := [[]]) (x := { mask := 0xF }) (by decide) rfl (by decide) (by decide) (by decide) (by decide) (by decide) (by decide)⟩⟩

/-- A handler that may return, of a trap of the C-stream and of an engine's fault. -/
def inHandler (cause : Word) : State := dev.mapG fun g => { g with mode := .handler, hs := { cause := cause, pc := 0x1000 } }

/-- HandlerReturn. -/
theorem witness_HandlerReturn : ((inHandler 8).g.mode = .handler
      ∧ ¬((inHandler 8).g.hs.cause.extractLsb' 10 2 = 0 ∧ (inHandler 8).g.hs.cause.extractLsb' 0 8 = 8 ∧ (inHandler 8).g.hs.pc.extractLsb' 0 2 ≠ 0)
      ∧ handlerDone (inHandler 8).g = true ∧ (inHandler 8).g.hs.cause.extractLsb' 10 2 = 0)
    ∧ (inHandler 0x809).g.hs.cause.extractLsb' 10 2 ≠ 0 ∧ handlerDone (inHandler 0x809).g = true := by decide

/-- Words that are no instruction: CLZ with b, SEL with b[5:4], CMP with d[5:3] or function 10, LOOP with a. -/
theorem witness_Reserved :
    ((0x04188295 : Word).extractLsb' 26 6 = 1 ∧ (0x04188295 : Word).extractLsb' 0 7 ∈ [21, 22, 23] ∧ (0x04188295 : Word).extractLsb' 7 6 ≠ 0)
    ∧ ((0x04188818 : Word).extractLsb' 0 7 = 24 ∧ (0x04188818 : Word).extractLsb' 11 2 ≠ 0)
    ∧ ((0x29906202 : Word).extractLsb' 26 6 = 0x0A ∧ (0x29906202 : Word).extractLsb' 22 3 ≠ 0)
    ∧ 10 ≤ ((0x2810620A : Word).extractLsb' 0 7).toNat
    ∧ ((0x5048FFFD : Word).extractLsb' 26 6 = 0x14 ∧ (0x5048FFFD : Word).extractLsb' 13 6 ≠ 0) := by decide

/-- LIMM pairs: the LIMM is at address 0, its follower at 4. -/
def paired (w : Nat) : State := { placeBytes 0x6004 (leBytes 4 w) (paged dev) with tick := 1 }

/-- ImmediateResults, BranchTargets: each follower of a LIMM. -/
theorem witness_Limm :
    ([(0x0A105FFF, .addi true 2 2 (-1)), (0x20381678, .movi false 7 0x1678), (0x50481FFD, .loop false 9 (-3))] : List (Nat × Instr)).all
      (fun p => fetched (fetchC (paired p.1) ((paired p.1).g.pc + 4)) (BitVec.ofNat 32 p.1) && decodeC (BitVec.ofNat 32 p.1) == .ok p.2) = true := by
  decide +kernel

/-- BranchTargets: a target that is a multiple of 4, and the next that is not. -/
theorem witness_BranchTargets : ((devS [(4, 0x1000)]).g.rdS 0 4).toNat % 4 = 0 ∧ ((devS [(4, 0x1001)]).g.rdS 0 4).toNat % 4 ≠ 0 := by
  decide

/-- SpecialRegisters: a sleep of no time, one that has ended, one that begins; the leaves; registers that read and write; counters. -/
theorem witness_SpecialRegisters :
    dev.g.rdS 0 4 = 0 ∧ (let s := dev.mapG fun g => { g with sleepEnd := some 0 }; s.g.sleepEnd = some 0 ∧ 0 ≤ s.now)
    ∧ ((devS [(4, 1)]).g.rdS 0 4 ≠ 0 ∧ (devS [(4, 1)]).g.sleepEnd = none)
    ∧ ((devS [(4, 0xFFFF)]).g.rdS 0 4).toNat < 2 ^ 16 ∧ 2 ^ 16 ≤ ((devS [(4, 0x10000)]).g.rdS 0 4).toNat
    ∧ readSpecial dev 0x001 none = some 0 ∧ (writeSpecial dev 0x010 1).isSome = true ∧ writeSpecial dev 0x102 1 = none
    ∧ ((moded .slice dev).g.mode ≠ .user ∧ countsFree (moded .slice dev) 17 = false)
    ∧ (dev.g.mode = .user ∧ dev.gctx.ucnt = false) ∧ (dev.g.rdS 0 4).toNat ≤ 0x15
    ∧ (moded .device dev).g.mode = .device ∧ ¬(dev.g.mode = .slice ∨ dev.g.mode = .device) := by decide +kernel

/-- ScalarMemory: a load, a store, a constant and an atomic that are granted; a fault; the window. -/
theorem witness_ScalarMemory :
    (∃ s1 key, (paged dev).xlate ((paged dev).g.rdP 0 2 + BitVec.ofInt 64 (0 : BitVec 13).toInt) 4 .rd = (s1, .ok key false)
      ∧ s1.poisonedHere key 4 = false)
    ∧ (∃ s1 key, (paged dev).xlate ((paged dev).g.rdP 0 2) 8 .at = (s1, .ok key false) ∧ s1.poisonedHere key 8 = false)
    ∧ (dev.xlate 0 4 .rd).2 = .fault 0x10 ∧ (dev.xlate 0 4 .wr).2 = .fault 0x10
    ∧ ((constBase dev.t + BitVec.ofInt 64 0).toNat % 4 = 0 ∧ (constSize dev.t : Int) < 0 + 4)
    ∧ (let s := { paged dev with t := { dev.t with constB := 1 } }
       (constBase s.t + BitVec.ofInt 64 0).toNat % 4 = 0 ∧ (0 : Int) + 4 ≤ (constSize s.t : Int)
        ∧ (∃ s1 key, s.xlate (constBase s.t + BitVec.ofInt 64 0) 4 .rd = (s1, .ok key false)))
    ∧ (4 % 4 = 0 ∧ 0x3FFFC + 4 ≤ dev.t.wsize ∧ dev.spFull 0x3FFFC 4 = true) := by
  refine ⟨?_, ?_, by decide +kernel, by decide +kernel, by decide +kernel, ⟨by decide +kernel, by decide +kernel, of_granted (by decide +kernel)⟩,
    by decide +kernel⟩
  · obtain ⟨s1, key, h⟩ := of_granted (r := (paged dev).xlate ((paged dev).g.rdP 0 2 + BitVec.ofInt 64 (0 : BitVec 13).toInt) 4 .rd) (by decide +kernel)
    have hp : ((paged dev).xlate ((paged dev).g.rdP 0 2 + BitVec.ofInt 64 (0 : BitVec 13).toInt) 4 .rd).1.poison = [] := by decide +kernel
    have hk : ((paged dev).xlate ((paged dev).g.rdP 0 2 + BitVec.ofInt 64 (0 : BitVec 13).toInt) 4 .rd).1.peers = [] := by decide +kernel
    rw [h] at hp hk
    exact ⟨s1, key, h, by simp only at hp hk; simp [State.poisonedHere, State.lostPeer, State.peerOf, hp, hk]⟩
  · obtain ⟨s1, key, h⟩ := of_granted (r := (paged dev).xlate ((paged dev).g.rdP 0 2) 8 .at) (by decide +kernel)
    have hp : ((paged dev).xlate ((paged dev).g.rdP 0 2) 8 .at).1.poison = [] := by decide +kernel
    have hk : ((paged dev).xlate ((paged dev).g.rdP 0 2) 8 .at).1.peers = [] := by decide +kernel
    rw [h] at hp hk
    exact ⟨s1, key, h, by simp only at hp hk; simp [State.poisonedHere, State.lostPeer, State.peerOf, hp, hk]⟩

/-- A context with a handler. -/
def handled : State := dev.setCtx { dev.gctx with hvec := 0x2001, sb := { dev.gctx.sb with hscr := 0x10000 } }

/-- TrapAndIllegal: with a handler, without, and a split. -/
theorem witness_TrapAndIllegal :
    (handled.g.mode = .user ∧ handled.gctx.hvec.getLsbD 0 = true ∧ handled.gctx.sb.hscr ≠ 0)
    ∧ (dev.g.mode = .user ∧ dev.gctx.hvec.getLsbD 0 = false) ∧ devL.g.split? devL.g.curSplit = some { mask := 0xF } := by decide

/-- DispatchAndChannels: a queue with room, a full one, an empty one, a block that starts; a channel that is full, one with room, one
with an entry, one without. -/
theorem witness_DispatchAndChannels :
    (let s := dev.mapG fun g => { g with laneq := List.replicate 7 {} }; s.g.curQueue.length < 8 ∧ s.g.curQueue ≠ [] ∧ s.g.curSplits = [])
    ∧ (let s := dev.mapG fun g => { g with laneq := List.replicate 8 {} }; 8 ≤ s.g.curQueue.length) ∧ dev.g.curQueue = []
    ∧ (chEntries (setCh dev 3 (List.replicate 7 1)) 3).length < 8 ∧ 8 ≤ (chEntries (setCh dev 3 (List.replicate 8 1)) 3).length
    ∧ chHead (setCh dev 3 [5]) 3 0 = some 5 ∧ chHead dev 3 0 = none := by decide +kernel

/-- GroupBarriers: a group that has arrived, alone and with another that has not; one that arrives last, one that does not, one with
blocks left; the same of a grid. -/
theorem witness_GroupBarriers :
    (let s := dev.mapG fun g => { g with arrived := true, barCnt := 1, gridCnt := 1 }
     s.g.mode ≠ .handler ∧ s.t.cores = true ∧ s.g.arrived = true ∧ allReached s.teamGroups (·.barCnt) s.g.barCnt = true
      ∧ allReached (gridGroups s) (·.gridCnt) s.g.gridCnt = true)
    ∧ (dev.g.arrived = false ∧ dev.g.curQueue = [] ∧ devL.g.curQueue ≠ [] ∧ (moded .handler dev).g.mode = .handler)
    ∧ (let s := { dev with gs := [{ uid := 3, live := true, team := 2 }] }
       let at_ (s : State) := (s.mapG fun g => { g with barCnt := g.barCnt + 1, arrived := true }).parkC .teambar
       let on (s : State) := ((s.fence .rel .prt).mapG fun g => { g with gridCnt := g.gridCnt + 1, arrived := true }).parkC .gridbar
       allReached (at_ dev).teamGroups (·.barCnt) (at_ dev).g.barCnt = true ∧ allReached (at_ s).teamGroups (·.barCnt) (at_ s).g.barCnt = false
        ∧ allReached (gridGroups (on dev)) (·.gridCnt) (on dev).g.gridCnt = true
        ∧ allReached (gridGroups (on s)) (·.gridCnt) (on s).g.gridCnt = false)
    ∧ ({ dev with t := {} } : State).t.cores = false := by decide +kernel

/-- Whether a bind answers a register. -/
def bound {ε α : Type} (e : Except ε α) : Bool := match e with | .ok _ => true | .error _ => false

/-- A page with a buffer object at 0x7000 of the partition. -/
def objected : State :=
  placeBytes 0x7000 (leBytes 4 0x701 ++ leBytes 4 0 ++ leBytes 8 0 ++ leBytes 8 0x100 ++ leBytes 40 0)
    ((paged dev).setCtx { (paged dev).gctx with otab := 0x7000, ocount := 1 })

/-- TranslationRegisters. -/
theorem witness_TranslationRegisters :
    (((devS [(6, 3)]).g.rdS 0 6).toNat ∈ [1, 2, 3] ∧ bound (bindBase (paged dev) 0 0 3) = true)
    ∧ (bindBase dev 0 0 3).toOption = none ∧ (dev.g.rdS 0 6).toNat ∉ [1, 2, 3]
    ∧ ((objected.g.rdS 0 4).toNat < 2 ^ 16 ∧ bound (bindObj objected 0 0) = true)
    ∧ 2 ^ 16 ≤ ((devS [(4, 0x10000)]).g.rdS 0 4).toNat := by decide +kernel

/-- A heap with an entry. -/
def heaped : State := dev.setSlice { dev.slice 0 with heap := [{ ctx := 0, key := 1, val := 2, seq := 0 }] }

/-- A heap with an entry and a group that waits at it. -/
def waiting (k : ParkKind) : State := { heaped with gs := [{ uid := 3, live := true, team := 2, park := k, heapW := { put := some (3, 4) } }] }

/-- TaskHeap: a heap with room, a full one, a word that was served, one with an entry, its waiters. -/
theorem witness_TaskHeap :
    (let h := dev.heapServe
     dev.g.loadsDue = false ∧ h.g.park ≠ .heapadd ∧ h.g.park ≠ .heaptake
      ∧ ((h.slice h.sliceId).heap.filter fun e => e.ctx = h.g.ctx).length < (h.ctx h.g.ctx).quota ∧ heapPick h h.sliceId h.g.ctx = none)
    ∧ (let s := dev.setCtx { dev.gctx with quota := 0 }
       let h := s.heapServe
       s.g.loadsDue = false ∧ h.g.park ≠ .heapadd
        ∧ (h.ctx h.g.ctx).quota ≤ ((h.slice h.sliceId).heap.filter fun e => e.ctx = h.g.ctx).length)
    ∧ ([.heapadd, .heaptake].all fun k =>
        let h := (dev.mapG fun g => { g with park := k, heapW := { got := some (1, 2) } }).heapServe
        h.g.park = k && h.g.heapW.got = some (1, 2)) = true
    ∧ heapPick heaped 0 0 = some { ctx := 0, key := 1, val := 2, seq := 0 }
    ∧ ((oldestWaiter (waiting .heaptake) 0 0 .heaptake).isSome = true ∧ heapPick (waiting .heaptake) 0 0 ≠ none
      ∧ heapPick dev 0 0 = none ∧ heapRoom (waiting .heapadd) 0 0 = true
      ∧ ((oldestWaiter (waiting .heapadd) 0 0 .heapadd).bind fun g => g.heapW.put) = some (3, 4)
      ∧ oldestWaiter dev 0 0 .heaptake = none ∧ oldestWaiter dev 0 0 .heapadd = none) := by
  have hp : ∀ s : State, heapOf (s.slice 0) 0 = [{ ctx := 0, key := 1, val := 2, seq := 0 }] →
      heapPick s 0 0 = some { ctx := 0, key := 1, val := 2, seq := 0 } := fun s h => by
    rw [heapPick, h]; simp [Nat.mod_one]
  refine ⟨by decide +kernel, by decide +kernel, by decide +kernel, hp _ (by decide +kernel), by decide +kernel, ?_, by decide +kernel⟩
  rw [hp _ (by decide +kernel)]; simp

/-- StageBarriers: the first and the last barrier of a window, updates at the edges of their range, and the three tests. -/
theorem witness_StageBarriers :
    (0 % 16 = 0 ∧ 0 + 16 ≤ dev.t.wsize) ∧ (0x3FFF0 % 16 = 0 ∧ 0x3FFF0 + 16 ≤ dev.t.wsize)
    ∧ (barUpdate ((barred dev).bar 0) 0 0 0).isSome = true ∧ (barUpdate ((barred dev).bar 0) 0 1 0).isSome = true
    ∧ 65535 < (0x10000 : Word).toNat
    ∧ barTest ((barred dev).bar 0) true = some true ∧ barTest ((barred dev).bar 0) false = some false ∧ barTest (dev.bar 0) false = none
    ∧ ((devS [(4, 0x1000)]).g.rdS 0 4).extractLsb' 0 2 = 0 ∧ dev.g.drained dev.g.cStrm = true ∧ dev.g.barLost = false
    ∧ (dev.mapG fun g => { g with pend := [{ strm := g.cStrm }] }).g.drained dev.g.cStrm = false ∧ dev.t.softReq = none := by decide +kernel

/-- A team whose last group has ended, with a successor's card at 0 and its kernel descriptor at 64. -/
def chained : State :=
  { placeBytes 0x6000 (leBytes 4 1 ++ leBytes 4 1 ++ leBytes 8 64 ++ leBytes 48 0 ++ leBytes 16 0 ++ leBytes 4 1 ++ leBytes 4 1 ++ leBytes 40 0)
      (paged dev) with t := { dev.t with ended := true, succ := some (0, 9), regs := 64 } }

/-- The words a read answers. -/
def wordsRead (r : State × Except (Nat × DWord) (List Byte)) : List Word := match r.2 with | .ok bs => wordsOf bs | .error _ => []

/-- GroupEnds. -/
theorem witness_GroupEnds :
    (dev.g.mode ≠ .handler ∧ mayEnd dev.g = true) ∧ mayEnd devL.g = false
    ∧ (dev.t.chain = true ∧ (dev.g.rdP 0 4).toNat % 64 = 0) ∧ (({ dev with t := { dev.t with chain := false } } : State).t.chain = false)
    ∧ (let s := dev.mapG fun g => { g with exiting := true, park := .exit }
       s.g.exiting = true ∧ s.g.park = .exit ∧ mayEnd s.g = true ∧ groupRuns s s.g = true ∧ s.g.faults = [])
    ∧ (let s := { dev with t := { dev.t with ended := true, succ := some (0, 9) } }
       s.t.succ = some (0, 9) ∧ s.t.ended = true ∧ (s.clusters.any fun c => c.queue.any fun m => m.team = s.t.uid) = false
        ∧ bound (engReadN s s.t.ctx (s.t.ppos / 128 - (s.vf (s.t.ctx / 64)).first) 0 64).2 = false)
    ∧ (let s := chained
       let r := engReadN s s.t.ctx 0 0 64
       let k := engReadN r.1 s.t.ctx 0 64 64
       let ws := wordsRead r
       let l := launchOf ws (wordsRead k)
       s.t.ppos / 128 - (s.vf (s.t.ctx / 64)).first = 0 ∧ bound r.2 = true ∧ bound k.2 = true ∧ cardKernel ws = 64
        ∧ (ws.getD 1 0).toNat % 256 = 1 ∧ launchBad ws = false ∧ shapeOk l s.t.attr = true ∧ l.ngrp ≤ s.t.ngrp
        ∧ l.need.units ≤ s.t.regs ∧ l.smem ≤ s.t.wsize ∧ successorFits k.1 s.t l = true) := by decide +kernel

/-- Copies: a raw copy of 16 bytes, a shaped one, its spaces, a gather, and lines to empty; a copy whose unit arrives, one that is
frozen, one whose unit is not mapped. -/
theorem witness_Copies :
    (let s := barred (devS [(4, 0x1000), (8, 0), (12, 16), (13, 1)])
     let raw := s.g.rdRun s.tick 8 8
     (4 : Nat).testBit 7 = false ∧ (8 : SReg).toNat + 8 ≤ 64 ∧ cpybBad 4 = false ∧ checkBarrier s 0 = none ∧ (rawPlan raw).isSome = true
      ∧ (wordPair raw 0).toNat < 2 ^ 32 ∧ (wordPair raw 2).toNat < 2 ^ 32)
    ∧ (shapePlan [0x702, 0, 0, 16, 1, 1, 1, 1]).isSome = true ∧ cpybBad 0x84 = false
    ∧ (let s := placeBytes 0x7000 (leBytes 4 0x702 ++ leBytes 4 0 ++ leBytes 4 0 ++ leBytes 4 16 ++ leBytes 4 1 ++ leBytes 4 1 ++ leBytes 4 1
          ++ leBytes 4 1 ++ leBytes 32 0) objected
       objCheck s 0 0 2 true false = .ok ([0x702, 0, 0, 16, 1, 1, 1, 1] ++ List.replicate 8 0))
    ∧ (roofTarget dev .sp 16 = (.sp, 16) ∧ 16 * 1 < 2 ^ 32 ∧ inSpace dev .glob 0 (0, 16) = true ∧ inSpace dev .sp 0x3FFF0 (0, 16) = true)
    ∧ (cpygOk 7 16 0x80 0x10 = false ∧ cpygOk 5 16 0x80 0x10 = true ∧ dev.spIn 0x80 128 = true ∧ dev.spIn 0x10 (32 * 16) = true
      ∧ dev.spFull 0x80 128 = true ∧ (dev.emptyLines [1]).spFull 0x80 128 = false ∧ (0x184 : Nat).testBit 8 = true ∧ cpybBad 0x184 = false)
    ∧ (0x3FF80 + 128 ≤ dev.t.wsize ∧ dev.t.wsize < 0x3FF80 + 129)
    ∧ (let c : Copy := { id := 3, team := 2, total := 16, plan := .rows 16 1 0 0 }
       let s := { dev with copies := [c] }
       (s.copies.find? fun c => c.id = 3) = some c ∧ (s.slice c.slice).cpyFrozen.contains (c.id % 2) = false ∧ copyTeamRuns s c = true
        ∧ c.fault = none ∧ c.done < c.total
        ∧ (match copyUnit s c (copyStep c) with | .fault _ _ _ => true | _ => false) = true)
    ∧ (let s := dev.setSlice { dev.slice 0 with cpyFrozen := [1] }; (s.slice 0).cpyFrozen.contains (3 % 2) = true)
    ∧ copyTeamRuns (dev.setCtx { dev.gctx with frozen := true }) {} = false := by decide +kernel

/-- A page with a queue header at 0 of eight slots at 0x100. -/
def queued : State := placeBytes 0x6000 (leBytes 8 1 ++ leBytes 8 0x100 ++ leBytes 8 3 ++ leBytes 40 0 ++ leBytes 8 0) (paged dev)

/-- QueueCopy: a claim, a claim that waits for a free slot, one that has it. -/
theorem witness_QueueCopy :
    ((2 : SReg).toNat % 2 = 0 ∧ (48 : SReg).toNat + 16 ≤ 64 ∧ (queued.g.rdP 0 2).toNat % 128 = 0)
    ∧ queued.g.claim = none ∧ granted (queued.xlate 0 8 .at) = true
    ∧ (match (queueHeader queued 0).2 with | .ok x => x == (0x100, 3, 0) | .error _ => false) = true
    ∧ 0 + 2 ^ 3 ≤ (8 : DWord).toNat ∧ (7 : DWord).toNat < 0 + 2 ^ 3 ∧ granted (queued.xlate (0x100 + 64 * 7) 64 .wr) = true := by decide +kernel

/-- A slice queue whose header is at 0 and whose slot of index 0 holds a published signal card. -/
def carded : State :=
  let s := placeBytes 0x6100 (leBytes 4 1 ++ leBytes 4 3 ++ leBytes 56 0) queued
  setQueueOf s 0 0 { queueOf s 0 0 with en := true, base := 0x100, logn := 3 }

/-- Cards: an admission, a start that runs on, one that ends at once, a wait, a completion. -/
theorem witness_Cards :
    ((queueOf carded 0 0).en = true ∧ (carded.slice 0).state = 1 ∧ ctxRuns carded (queueCtx carded 0 0) = true ∧ carded.updating 0 = false
      ∧ (claimOf carded 0 0).2 = some 1 ∧ ((chainOf (claimOf carded 0 0).1 0 0 0 1).2.map fun cs => cs.length) = some 1)
    ∧ (let k : Card := { id := 5, words := [1, 1] }
       let s := { dev with cards := [k] }
       card? s 5 = some k ∧ mayStart s k = true ∧ (match startCard s k with | .ended _ _ => true | _ => false) = true ∧ k.kind ≠ 7)
    ∧ (let k : Card := { id := 5, words := [1, 2, 0, 0, 0, 0, 0x10, 0], ctx := 0 }
       let s := { paged dev with cards := [k] }
       mayStart s k = true ∧ (match startCard s k with | .runs _ => true | _ => false) = true)
    ∧ (let k : Card := { id := 5, words := [1, 1], phase := .started }; mayStart { dev with cards := [k] } k = false)
    ∧ (let k : Card := { id := 5, words := [1, 3], phase := .done, status := 1 }
       let s := { dev with cards := [k] }
       card? (settleCopyCard (commitTeams s 5) 5) 5 = some k ∧ cardEnded (settleCopyCard (commitTeams s 5) 5) k = some 1) := by decide +kernel

/-- Words of scalar registers from s8 up. -/
def run8 (ws : List Word) : SMap Word := (ws.mapIdx fun i w => (8 + i, w)).filter fun e => e.2 ≠ 0

/-- A cluster's queue with one command of bank 0 of the team. -/
def queuedCmd (k : MKind) : State := dev.setCluster { dev.cluster 0 with queue := [{ kind := k, team := 2, run := [1, 0, 0, 0], ctl := 0 }] }

/-- MatrixEngine: a format that is sound and one that is not; a loop, a convolution, a tile and a clear that pass their checks; the
bank's team and a full queue; the engine's side. -/
theorem witness_MatrixEngine :
    (dev.g.mode ≠ .handler ∧ (60 : SReg).toNat + 4 ≤ 64 ∧ fmtOk 0x11 = true ∧ fmtOk 0x8011 = false)
    ∧ (let s := (barred (devS (run8 [0, 0, 0, 0, 1]))).mapG fun g => { g with fmt := 0x11 }
       let ctl := s.g.rdS s.tick 12
       bankNamed s (ctl.extractLsb' 16 2).toNat = true ∧ ctl.extractLsb' 24 8 = 0 ∧ ctl.extractLsb' 0 16 ≠ 0
        ∧ ctl.extractLsb' 20 4 = 0 ∧ fmtOk s.g.fmt = true ∧ ((s.g.rdRun s.tick 8 4).any fun x => x.toNat % 64 ≠ 0) = false
        ∧ barOffsetFault s 0 = none)
    ∧ (let ws : List Word := [0x703, 0, 0x10001, 0x10020, 0x10001, 0x11110101, 0] ++ List.replicate 9 0
       let s := placeBytes 0x7000 (bytesOf ws) objected
       objCheck s 0 0 3 true false = .ok ws ∧ stepK (fmtA 0x11) (fmtB 0x11) = 32 ∧ convOk ws 32 = true ∧ 0 + 1 ≤ (convOf ws).steps 32)
    ∧ (let s := barred dev
       (0 : SReg).toNat % 2 = 0 ∧ bankNamed s 0 = true ∧ mstoreBad 0 0 0 = false ∧ mstoreBad 0 0 0x10 = false
        ∧ s.spIn 0 (32768 * outBytes 8 + 32) = true ∧ mstoreBad 0 0 0x18 = false ∧ barOffsetFault s 0 = none)
    ∧ (bankCluster dev 0 = some (0, false) ∧ mayTake dev 0 0 = true ∧ ((takeBank dev 0 0).cluster 0).queue.length < 16
      ∧ ({ kind := .mzero } : MCmd).isLoop = false)
    ∧ (let s := queuedCmd .mloop
       let m : MCmd := { kind := .mloop, team := 2, run := [1, 0, 0, 0], ctl := 0 }
       headCmd (s.cluster 0) 0 = some m ∧ s.team? m.team = some s.t ∧ m.isLoop = true ∧ cmdRuns s (s.cluster 0) m = true)
    ∧ (let m : MCmd := { kind := .mzero, team := 2, run := [1, 0, 0, 0], ctl := 0 }
       headCmd ((queuedCmd .mzero).cluster 0) 0 = some m ∧ cmdRuns (queuedCmd .mzero) ((queuedCmd .mzero).cluster 0) m = true)
    ∧ (let s := (queuedCmd .mzero).setCluster { (queuedCmd .mzero).cluster 0 with mfrozen := true }
       cmdRuns s (s.cluster 0) { kind := .mzero, team := 2 } = false) := by decide +kernel

/-- Objects of the kinds that a splat command names, in the first entries of the table. -/
def splatted : State :=
  placeBytes 0x7000 (leBytes 64 0x706 ++ leBytes 64 0x707 ++ leBytes 64 0x708) ((barred dev).setCtx { dev.gctx with otab := 0x7000, ocount := 3 })

/-- SplatWords: the four words' checks, and the oldest command of a team, not started and started. -/
theorem witness_SplatWords :
    (let s := splatted.mapG fun g => { g with s := run8 [0x10000] }
     let run := s.g.rdRun s.tick 8 1
     illegalHere s = false ∧ (8 : SReg).toNat + 1 ≤ 64 ∧ barOffsetFault s 0 = none ∧ objsFault s 0 (splatObjs 0 run) = none
      ∧ splatBad 0 run = false ∧ s.t.splat.length < 8)
    ∧ (let s := splatted.mapG fun g => { g with s := run8 [0, 0, 0x10000, 0, 1, 0, 2, 0] }
       let run := s.g.rdRun s.tick 8 8
       (8 : SReg).toNat % 2 = 0 ∧ objsFault s 0 (splatObjs 3 run) = none ∧ splatBad 3 run = false
        ∧ objsFault s 0 (splatObjs 2 (s.g.rdRun s.tick 8 6)) = none ∧ splatBad 2 (s.g.rdRun s.tick 8 6) = false)
    ∧ ([0, 1, 2, 3] : List Nat).all (fun fn => [false, true].all fun st =>
        let c : SplatCmd := { fn := BitVec.ofNat 2 fn, started := st }
        let s := { dev with t := { dev.t with splat := [c] } }
        headSplat s 2 == some (s.t, c)) = true
    ∧ (let c : SplatCmd := { fn := 0, started := true, run := [0, 0] }
       let s := { dev with t := { dev.t with splat := [c] } }
       (match granuleOf s s.t c with | .fault _ _ _ _ => true | _ => false) = true) := by decide +kernel

/-- A cluster with a slot of region 5 bound, and an arrival for it. -/
def slotted : State :=
  dev.setCluster { dev.cluster 0 with slots := [some { region := 5 }] ++ List.replicate 7 none, inbox := [{ region := 5 }] }

/-- Sinter: a descriptor without an image, a region bound and one that is not, an arrival, open invocations, the lane words. -/
theorem witness_Sinter :
    (illegalHere dev = false ∧ ((devS [(4, 0xFFFFFF)]).g.rdS 0 4).toNat < 2 ^ 24 ∧ ((devS [(4, 0x1FF)]).g.rdS 0 4).toNat < 2 ^ 9)
    ∧ findSlot (slotted.cluster slotted.clusterId) slotted.g.ctx 5 = some 0 ∧ findSlot (dev.cluster dev.clusterId) 0 5 = none
    ∧ ((slotted.cluster 0).inbox = [{ region := 5 }] ∧ (slotted.cluster 0).sfrozen = false
      ∧ findSlot { slotted.cluster 0 with inbox := [] } 0 5 = some 0)
    ∧ slotFor (dev.cluster dev.clusterId) dev.g.ctx 5 = none ∧ illegalHere devL = false := by decide +kernel

/-- Encoder: a session that is bound, a row that is read, a frame that is whole. -/
theorem witness_Encoder :
    (let s := placeBytes 0x7000 (bytesOf [0x70A, 0, 0x400040, 0] ++ leBytes 48 0) (barred objected)
     s.isRoof = false ∧ s.g.mode ≠ .handler ∧ (8 : SReg).toNat % 2 = 0 ∧ (8 : SReg).toNat + 3 ≤ 64 ∧ (0x1FFFF : Nat) < 2 ^ 17
      ∧ checkBarrier s 0 = none ∧ (match sessionCheck s s.g.ctx 0 with | .ok _ => true | .fault _ => false) = true
      ∧ ((s.slice s.sliceId).binds.filter fun b => b.card.isNone).length < 8
      ∧ (holdSession (s.slice s.sliceId) s.g.ctx 0 s.nextId).isSome = true)
    ∧ (let b : EncBind := { desc := [0x70A, 0, 0x20040, 0] ++ List.replicate 12 0, released := 1 }
       let s := (paged dev).setSlice { (paged dev).slice 0 with binds := [b] }
       (s.slice 0).encFrozen = false
        ∧ (splitFirst (fun b : EncBind => b.rows < b.tileRows && b.rows < b.released) (s.slice 0).binds).isSome = true
        ∧ bound (readParts s b.ctx (relSl s b.ctx 0) (b.parts b.rows)).2 = true)
    ∧ (let b : EncBind := { desc := [0x70A, 0, 0x400040, 0] ++ List.replicate 12 0, released := 64, rows := 64 }
       let s := (paged dev).setSlice { (paged dev).slice 0 with binds := [b], sessions := [{}] }
       (splitFirst (fun b : EncBind => b.tileRows ≤ b.rows &&
          (match (s.slice 0).binds.find? fun x => x.isOf b.ctx b.idx with | some x => decide (x = b) | none => false)) (s.slice 0).binds).isSome = true
        ∧ ((s.slice 0).sessions.find? fun e => e.is b.ctx b.idx) = some {}
        ∧ bound (engReadN s b.ctx (relSl s b.ctx 0) (wordPair b.desc 4) 24).2 = true) := by decide +kernel

/-- RoofDomain. -/
theorem witness_RoofDomain :
    ((devS [(3, 1)]).g.rdS 0 3).toNat < 2 ∧ 2 ≤ ((devS [(3, 2)]).g.rdS 0 3).toNat
    ∧ canGate (dev.setCluster { dev.cluster 0 with gateReq := true }) 0 = true ∧ canGate dev 0 = false
    ∧ ((dev.setCluster { dev.cluster 0 with wakeAt := some 0 }).cluster 0).wakeAt = some 0
    ∧ (let s := dev.setCluster { dev.cluster 0 with areaDue := [(0, 1)] }
       ((s.cluster 0).areaDue.find? fun e => roofFree s 0 e.1) = some (0, 1)) := by decide +kernel

/-- A slice's controller beside a user team of one group on core 0. -/
def ruled : State :=
  { dev with
    g := { uid := 1, live := true, team := 2, budget := 8, mode := .slice, s := [(4, 0x1000)] }
    t := { uid := 2, live := true, ngrp := 0 }
    gs := [{ uid := 3, live := true, team := 4, budget := 256 }]
    ts := [{ uid := 4, live := true, wsize := 4096, cores := true, chain := true }] }

/-- The same with its group halted. -/
def stilled : State := { ruled with gs := ruled.gs.map fun g => { g with halted := true } }

/-- A saved team of no group: a header of zeros under its check word, at 0x1000. -/
def emptySlot : State := { ruled with mem := [(0x1000, 0x47), (0x1001, 0x6C), (0x1002, 0xA2), (0x1003, 0x5B)] }

/-- The check word of R417 after n bits of zero, from a state of it. -/
def crcZeros : Nat → Nat → Nat
  | 0, c => c
  | n + 1, c => if c % 2 = 0 then crcZeros n (c / 2) else crcZeros n (c / 2 ^^^ 0x82F63B78)

theorem crcZeros_bit (n : Nat) (c : Word) : crcZeros (n + 1) c.toNat = crcZeros n (crcBit c).toNat := by
  have e : c.getLsbD 0 = decide (c.toNat % 2 = 1) := by simp [BitVec.getLsbD, Nat.testBit_zero]
  rw [crcZeros, crcBit, e]
  rcases Nat.mod_two_eq_zero_or_one c.toNat with h | h <;> simp [h, Nat.shiftRight_eq_div_pow]

theorem crcZeros_bytes (n : Nat) (c : Word) : crcZeros (8 * n) c.toNat = ((List.replicate n 0).foldl crcByte c).toNat := by
  induction n generalizing c with
  | zero => rfl
  | succ n ih =>
    rw [show 8 * (n + 1) = 8 * n + 1 + 1 + 1 + 1 + 1 + 1 + 1 + 1 from by omega]
    simp only [crcZeros_bit, List.replicate_succ, List.foldl_cons]
    rw [← ih, crcByte]; congr 3; simp

theorem emptySlot_zeros (n : Nat) : emptySlot.rdMemN 0x1004 n = List.replicate n 0 := by
  refine List.eq_replicate_iff.2 ⟨by simp [State.rdMemN], fun x hx => ?_⟩
  obtain ⟨i, -, rfl⟩ := List.mem_map.1 hx
  simp [State.rdMem, State.peerOf, emptySlot, ruled, dev, State.reset, SMap.get, keyIsHost]
  intro _
  rw [if_neg (by omega), if_neg (by omega), if_neg (by omega), if_neg (by omega)]

theorem emptySlot_sound : slotCorrupt emptySlot 0x1000 = false := by
  have hc (n : Nat) (hn : n = 4604) : (crc32c (List.replicate n 0)).toNat = 0x5BA26C47 := by
    have h : crcZeros (8 * 4604) (0xFFFFFFFF : Word).toNat = 2757596088 := by decide +kernel
    rw [← hn, crcZeros_bytes] at h
    rw [crc32c, BitVec.toNat_xor, h]; rfl
  have h1 : checkOk emptySlot 0x1000 0x1200 = true := by
    rw [checkOk, emptySlot_zeros, hc _ rfl]; decide +kernel
  rw [slotCorrupt, h1]; decide +kernel

theorem spoiled_slot : slotCorrupt { emptySlot with poison := [128] } 0x1000 = true := by
  have h : ({ emptySlot with poison := [128] } : State).poisoned 0x1000 (2 ^ 21) = true := by decide +kernel
  rw [slotCorrupt, h, Bool.or_true, Bool.true_or]

/-- ControllerWords: outside its modes, a team that runs, one that is stopped, a slot that fails its check, one that is sound and fits,
one without room, an engine, no handle. -/
theorem witness_ControllerWords :
    (ruled.g.mode = .slice ∧ dev.g.mode ≠ .slice ∧ dev.g.mode ≠ .device ∧ dev.g.mode ≠ .handler)
    ∧ ((masterOf ruled 0 matches some (.core 0 0)) ∧ (teamAt ruled 0 0).map (fun t => t.uid) = some 4
      ∧ teamStopped ruled 4 = false ∧ (ruled.g.rdP 0 4).toNat % 4096 = 0)
    ∧ ((teamAt stilled 0 0).isSome = true ∧ teamStopped stilled 4 = true
      ∧ (match teamAt stilled 0 0 with | some t => saveReady stilled t | none => false) = true)
    ∧ (slotRedir { emptySlot with poison := [128] } 0x1000 = false ∧ slotCorrupt { emptySlot with poison := [128] } 0x1000 = true)
    ∧ (slotRedir emptySlot 0x1000 = false ∧ slotCorrupt emptySlot 0x1000 = false
      ∧ restoreFits emptySlot (recordCtx emptySlot 0x1000) 0x1000 0 = true
      ∧ (let s := emptySlot.setCluster { emptySlot.cluster 0 with gated := true }
         restoreFits s (recordCtx s 0x1000) 0x1000 4 = false))
    ∧ (masterOf ruled 0x10000000 matches some (.copy 0 0)) ∧ (masterOf ruled 1 matches none) := by
  refine ⟨by decide, ?_, by decide +kernel, ⟨by decide +kernel, spoiled_slot⟩, ⟨by decide +kernel, emptySlot_sound, by decide +kernel, by decide +kernel⟩, ?_, ?_⟩
  all_goals decide +kernel

/-- A team of four lanes whose grace, kill limit and watchdog have run out. -/
def late : State :=
  { dev with
    now := 2 ^ 60
    ts := [{ uid := 4, live := true, softReq := some 0 }, { uid := 5, live := true, hardAt := some 0 }]
    gs := [{ uid := 3, live := true, team := 4 }, { uid := 6, live := true, team := 5 }]
    ctxs := [{ id := 0, pasid := 1, sb := { wdog := 1 } }] }

/-- Ladder. -/
theorem witness_Ladder :
    ((pollSoft late).team? 4 = some { uid := 4, live := true, softReq := some 0 }
      ∧ 0 + 1000 * max 1 ((pollSoft late).ctx 0).sb.grace.toNat ≤ (pollSoft late).now)
    ∧ (late.team? 5 = some { uid := 5, live := true, hardAt := some 0 } ∧ 0 + 1000000 * max 1 (late.ctx 0).sb.kill.toNat ≤ late.now
      ∧ sparedTeam late { uid := 5, live := true, hardAt := some 0 } = false ∧ ((ladderSave late 5).team? 5).isNone = false)
    ∧ ((late.ctx 0).sb.wdog ≠ 0 ∧ 0 + 1000000 * (late.ctx 0).sb.wdog.toNat ≤ late.now) ∧ (({ late with ctxs := [{ id := 0, sb := { wdog := 0 } }] } : State).ctx 0).sb.wdog = 0 := by decide +kernel

/-- LaneControl: a branch that diverges, one that would go past the stack, a join with an entry and without. -/
theorem witness_LaneControl :
    (let s := devL.mapG fun g => { g with m := [(1, 3)] }
     let x : Split := { mask := 0xF }
     let y : Split := { mask := 0xF, stack := List.replicate 8 {} }
     s.g.split? s.g.curSplit = some x ∧ x.mask &&& s.g.rdM s.tick 1 = 3 ∧ x.stack.length < 8 ∧ x.stack = []
      ∧ (let t := s.mapG fun g => { g with splits := [y] }
         t.g.split? t.g.curSplit = some y ∧ y.mask &&& t.g.rdM t.tick 1 ≠ y.mask ∧ y.stack.length = 8 ∧ y.stack = {} :: List.replicate 7 {})
      ∧ x.redo = none) := by decide +kernel

/-- The context of a lane word without channels. -/
abbrev cx (s : State) (x : Split) (os : List Src) (ds : List (Nat × Word) := []) : LCtx :=
  { sp := x, act := activeLanes s H x, w := false, chv := os.map fun _ => [], s0 := s, os := os, ds := ds, late := none, all := firstLanes s H x }
/-- The split of devL. -/
abbrev x4 : Split := { mask := 0xF }

/-- Places that are all in the window. -/
theorem of_window {ps : List (Nat × Place)} (h : (ps.all fun p => match p.2 with | .sp _ => true | _ => false) = true) {p : Nat × Place}
    (hp : p ∈ ps) : ∃ x, p.2 = .sp x := by
  have := List.all_eq_true.1 h p hp
  cases hq : p.2 with
  | sp x => exact ⟨x, rfl⟩
  | _ => simp [hq] at this

/-- LaneLoads: lanes that read the window, lanes that fall off it. -/
theorem witness_LaneLoads :
    (∃ c popped, LaneIssues H (loadDs .n32 3 false) [(3, 1), (1, 1)] [.vec 1] none devL c popped true ∧ spaceLegal devL (.ofM (.sp (.vec 1) 0)) = true
      ∧ (c.placeAll (.ofM (.sp (.vec 1) 0)) 4 .rd c.lanes devL).full = false
      ∧ (readAll 4 .plain .grp (c.placeAll (.ofM (.sp (.vec 1) 0)) 4 .rd c.lanes devL)).faults = []
      ∧ placesFull devL (c.placeAll (.ofM (.sp (.vec 1) 0)) 4 .rd c.lanes devL).places 4 = true)
    ∧ (∃ c popped, LaneIssues H (loadDs .n32 3 false) [(3, 1), (1, 1)] [.vec 1] none devL c popped true
      ∧ (c.placeAll (.ofM (.sp (.vec 1) (-4))) 4 .rd c.lanes devL).full = false
      ∧ (readAll 4 .plain .grp (c.placeAll (.ofM (.sp (.vec 1) (-4))) 4 .rd c.lanes devL)).faults ≠ []
      ∧ placesFull devL (c.placeAll (.ofM (.sp (.vec 1) (-4))) 4 .rd c.lanes devL).places 4 = true) :=
  ⟨⟨cx devL x4 [.vec 1] (loadDs .n32 3 false), [], issues (by decide) rfl (by decide) (by decide) (by decide) (by decide) (by decide) (by decide), by decide, by decide,
    (readAll_window_faults _ _ _ _ fun p hp => of_window (by decide) hp).trans (by decide), by decide +kernel⟩,
   ⟨cx devL x4 [.vec 1] (loadDs .n32 3 false), [], issues (by decide) rfl (by decide) (by decide) (by decide) (by decide) (by decide) (by decide), by decide,
    by rw [readAll_window_faults _ _ _ _ fun p hp => of_window (by decide) hp]; decide, by decide +kernel⟩⟩

/-- LaneStores: lanes that store in the window, lanes that fall off it. -/
theorem witness_LaneStores :
    ∃ c popped, LaneIssues H [] [(1, 1), (2, 1)] [.vec 1, .vec 2] none devL c popped true
      ∧ (c.placeAll (.ofM (.sp (.vec 1) 0)) 4 .wr (c.lanes.filter fun l => !helperLane devL.g l) devL).faults = []
      ∧ (c.placeAll (.ofM (.sp (.vec 1) (-4))) 4 .wr (c.lanes.filter fun l => !helperLane devL.g l) devL).full = false
      ∧ (c.placeAll (.ofM (.sp (.vec 1) (-4))) 4 .wr (c.lanes.filter fun l => !helperLane devL.g l) devL).faults ≠ [] :=
  ⟨cx devL x4 [.vec 1, .vec 2], [], issues (by decide) rfl (by decide) (by decide) (by decide) (by decide) (by decide) (by decide), by decide, by decide, by decide⟩

/-- LaneAtomics: the lanes of a group of helpers, whose atomics do nothing but answer 0; lanes whose counters are in the window,
whatever their order. -/
theorem witness_LaneAtomics :
    ∃ c popped, LaneIssues H (vDs 1 (.vec 3)) [(3, 1), (1, 1), (2, 1)] [.vec 1, .vec 2] none devL c popped true
      ∧ (let r := (c.placeAll (.ofM (.sp (.vec 1) 0)) 4 .at (c.lanes.filter fun l => !helperLane devL.g l) devL).carriedOnly .add
         r.full = false ∧ placesFull r.s r.places 4 = true ∧ r.places.length = 4
          ∧ (atomAll c .add .n32 .rel .grp 1 (.vec 2) r).faults = []) := by
  refine ⟨cx devL x4 [.vec 1, .vec 2] (vDs 1 (.vec 3)), [], issues (by decide) rfl (by decide) (by decide) (by decide) (by decide) (by decide) (by decide), by decide, by decide,
    by decide, ?_⟩
  exact (atomAll_window_faults _ _ _ _ _ _ _ _ (fun p hp => of_window (by decide) hp)).trans (by decide)

/-- LaneCopies: a copy of 16 bytes per lane within the window, to a barrier. -/
theorem witness_LaneCopies :
    (let s := (barred devL).mapG fun g => { g with v := (List.range 4).map fun l => (96 + l, (0x100 : Word) + 16 * BitVec.ofNat 32 l) }
     ∃ x popped, LaneIssues H [] [(1, 1), (3, 1), (2, 1)] [.vec 1, .vec 3, .vec 2] none s x popped true
      ∧ (x.lanes.all fun l => match (x.lcpyLane (.sp (.vec 1) 0x200) (.vec 3) (.vec 2) s l).2 with | .ok _ => true | .error _ => false) = true)
    ∧ (readSpecial devL 0x004 (some 0)).isSome = true :=
  ⟨⟨cx _ x4 [.vec 1, .vec 3, .vec 2], [], issues (by decide) rfl (by decide) (by decide) (by decide) (by decide) (by decide) (by decide), by decide +kernel⟩, by decide +kernel⟩

/-- The draw record of one triangle of vertices at 0, with one attribute each at 0x100, on a target of 4 by 4 pixels. -/
def triDraw : List Word := [0, 0, 0x100, 0, 3, 1, 0, 0, 0x40800000, 0x40800000, 0x40004, 4, 0, 0, 0, 0]

/-- A card that draws it, and the device with it. -/
def triCard : Card := { id := 7, phase := .started, raster := true, launch := some { roles := [(1, 16)], draw := triDraw } }
/-- With vertices that are zero, hence a triangle without area. -/
def flat : State := { paged dev with cards := [triCard] }
/-- With a triangle that covers the target. -/
def covering : State :=
  placeBytes 0x6000 (bytesOf [0xBF800000, 0xBF800000, 0, 0x3F800000, 0x40400000, 0xBF800000, 0, 0x3F800000, 0xBF800000, 0x40400000, 0,
    0x3F800000]) flat

/-- Fragments: lanes of a fragment group; a group that is none; vertices that are not mapped; a triangle without quads; one with a
quad and a core for its group. -/
theorem witness_Fragments :
    (let f : Frag := { cov := [(0, 1)], draw := triDraw }
     let s := devL.mapG fun g => { g with frag := some f }
     s.isRoof = false ∧ (0 : BitVec 6).toNat < drawNa f.draw ∧ (0 : BitVec 3).toNat < drawTargets f.draw
      ∧ (∃ c popped, LaneIssues H [] [(3, 1)] [] (some (.vec 3)) s c popped)
      ∧ (∃ c popped, LaneIssues H (vDs 1 (.vec 3)) [(3, 1), (1, 1)] [.vec 1] (some (.vec 3)) s c popped)
      ∧ (∃ c popped, LaneIssues H [] [(4, 4)] [.vec 4] none s c popped)
      ∧ (∃ c popped, LaneIssues H [] [(1, 1)] [.vec 1] none s c popped))
    ∧ devL.g.frag = none
    ∧ (card? flat 7 = some triCard ∧ triCard.launch = some { roles := [(1, 16)], draw := triDraw } ∧ 0 < primCount triDraw)
    ∧ (let s := { dev with cards := [triCard] }
       bound (fetchVerts s 0 (relSl s 0 0) triDraw (primVerts triDraw 0)).2 = false)
    ∧ ((match (fetchVerts flat 0 (relSl flat 0 0) triDraw (primVerts triDraw 0)).2 with
        | .error _ => false
        | .ok r => primQuads triDraw ((clipPoly r.1).map (toPixel triDraw)) = []) = true)
    ∧ ((match fetchVerts covering 0 (relSl covering 0 0) triDraw (primVerts triDraw 0) with
        | (_, .error _) => false
        | (s1, .ok r) => ((primQuads triDraw ((clipPoly r.1).map (toPixel triDraw))).take 8).length = 4
            && (fetchVerts covering 0 (relSl covering 0 0) triDraw (primVerts triDraw 0)).1.cards = s1.cards) = true)
    ∧ moreTeams true { roles := [(1, 16)], draw := triDraw } = true ∧ moreTeams true {} = false ∧ ctxRuns flat triCard.ctx = true
    ∧ (let k : Card := { triCard with launch := some { roles := [(1, 16)], draw := triDraw, ready := some {} } }
       let s := { flat with cards := [k] }
       (match dispatch 0 s with | (_, some j) => j.saved.isEmpty && j.card = 7 | _ => false) = true) := by
  refine ⟨⟨by decide, by decide, by decide, ?_, ?_, ?_, ?_⟩, by decide, by decide +kernel, by decide +kernel, by decide +kernel, by decide +kernel,
    by decide, by decide, by decide +kernel, by decide +kernel⟩
  · exact ⟨cx _ x4 [], [], issues (by decide) rfl (by decide) (by decide) (by decide) (by decide) (by decide) (by decide)⟩
  · exact ⟨cx _ x4 [.vec 1] (vDs 1 (.vec 3)), [], issues (by decide) rfl (by decide) (by decide) (by decide) (by decide) (by decide) (by decide)⟩
  · exact ⟨cx _ x4 [.vec 4], [], issues (by decide) rfl (by decide) (by decide) (by decide) (by decide) (by decide) (by decide)⟩
  · exact ⟨cx _ x4 [.vec 1], [], issues (by decide) rfl (by decide) (by decide) (by decide) (by decide) (by decide) (by decide)⟩

/-- A texture of one texel at 0 and a hierarchy at 0, in the first two entries of the table. -/
def textured : State :=
  placeBytes 0x7000 (leBytes 64 0x704 ++ leBytes 64 0x705) ((paged devL).setCtx { (paged devL).gctx with otab := 0x7000, ocount := 2 })

/-- TextureAndRays: each lane's sample, gather, query and traversal answers. -/
theorem witness_TextureAndRays :
    let s := textured
    let u := s.objAcquire
    s.isRoof = false
    ∧ (∃ c popped, LaneIssues H (vDs 4 (.vec 4)) [(4, 4), (1, 2)] [.vec 1] none s c popped true ∧
        (match texLookup u 0 with
         | .error _ => false
         | .ok x => x.kind = dimKind .t2d && c.lanes.all fun l =>
            bound (gatherTex u x 0 ((coordsOf c u .t2d (.vec 1) l).map farOf)) && bound (sampleTex u x ((coordsOf c u .t2d (.vec 1) l).map farOf) 0)) = true)
    ∧ (∃ c popped, LaneIssues H (vDs 4 (.vec 4)) [(4, 4), (1, 2), (3, 1)] [.vec 1, .vec 3] none s c popped true)
    ∧ (∃ c popped, LaneIssues H (vDs 2 (.vec 4)) [(4, 2), (3, 1)] [.vec 3] none s c popped true)
    ∧ (∃ c popped, LaneIssues H (vDs 8 (.vec 8)) [(8, 8), (0, 4), (4, 4)] [.vec 0, .vec 4] none s c popped true ∧
        (match bvhBase u 1 with
         | .error _ => false
         | .ok b => c.lanes.all fun l => bound (traceRay u b false l ((List.range 4).map fun k => c.val u 0 (.vec 0) k l)
            ((List.range 4).map fun k => c.val u 1 (.vec 4) k l))) = true) := by
  refine ⟨by decide, ⟨cx _ x4 [.vec 1] (vDs 4 (.vec 4)), [], issues (by decide) rfl (by decide) (by decide) (by decide) (by decide) (by decide) (by decide), by decide +kernel⟩, ?_, ?_, ?_⟩
  · exact ⟨cx _ x4 [.vec 1, .vec 3] (vDs 4 (.vec 4)), [], issues (by decide) rfl (by decide) (by decide) (by decide) (by decide) (by decide) (by decide)⟩
  · exact ⟨cx _ x4 [.vec 3] (vDs 2 (.vec 4)), [], issues (by decide) rfl (by decide) (by decide) (by decide) (by decide) (by decide) (by decide)⟩
  · exact ⟨cx _ x4 [.vec 0, .vec 4] (vDs 8 (.vec 8)), [], issues (by decide) rfl (by decide) (by decide) (by decide) (by decide) (by decide) (by decide), by decide +kernel⟩

/-- Units of a tile that are all in the window. -/
theorem of_units {ps : List (Nat × Nat × Place)} (h : (ps.all fun p => match p.2.2 with | .sp _ => true | _ => false) = true)
    {p : Nat × Nat × Place} (hp : p ∈ ps) : ∃ x, p.2.2 = .sp x := by
  have := List.all_eq_true.1 h p hp
  cases hq : p.2.2 with
  | sp x => exact ⟨x, rfl⟩
  | _ => simp [hq] at this

/-- FragmentMatrix: the types of a format; a tile in the window that is read and written. -/
theorem witness_FragmentMatrix :
    (let s := devL.mapG fun g => { g with fmt := 0x11 }
     fmtType s.g.fmt 0 = some .bf16 ∧ fmtType s.g.fmt 4 = some .bf16 ∧ fragType .bf16 = true ∧ s.g.fmt.extractLsb' 8 4 = 0
      ∧ ∃ c popped, LaneIssues H (vDs 8 (.vec 8)) [(8, 8), (16, 4), (20, 4), (24, 8)] [.vec 16, .vec 20, .vec 24] (some (.vec 8)) s c popped)
    ∧ (∃ c popped, LaneIssues H (vDs 4 (.vec 4)) [(4, 4), (1, 1), (2, 1)] [.vec 1, .vec 2] (some (.vec 4)) devL c popped true ∧ c.lanes = 0 :: [1, 2, 3]
        ∧ (let r := placeFrag (.sp (.vec 1) 0) false none 4 0 0 .rd c.lanes devL
           r.full = false ∧ placesFull r.s (r.units.map fun x => (x.1, x.2.2)) 4 = true)
        ∧ (readFrag 4 (placeFrag (.sp (.vec 1) 0) false none 4 0 0 .rd c.lanes devL)).2.2 = []
        ∧ (fragAddr devL (.sp (.vec 1) 0) 0).toNat % 16 = 0)
    ∧ (∃ c popped, LaneIssues H [] [(4, 4), (1, 1), (2, 1)] [.vec 1, .vec 2, .vec 4] none devL c popped true
        ∧ (let r := placeFrag (.sp (.vec 1) 0) false none 4 0 0 .wr c.lanes devL
           r.full = false ∧ r.faults = [])) := by
  refine ⟨⟨by decide, by decide, by decide, by decide, ?_⟩, ?_, ?_⟩
  · exact ⟨cx _ x4 [.vec 16, .vec 20, .vec 24] (vDs 8 (.vec 8)), [], issues (by decide) rfl (by decide) (by decide) (by decide) (by decide) (by decide) (by decide)⟩
  · exact ⟨cx _ x4 [.vec 1, .vec 2] (vDs 4 (.vec 4)), [], issues (by decide) rfl (by decide) (by decide) (by decide) (by decide) (by decide) (by decide), by decide, by decide +kernel,
      (readFrag_window_faults _ _ fun _ hx => of_units (by decide +kernel) hx).trans (by decide +kernel), by decide⟩
  · exact ⟨cx _ x4 [.vec 1, .vec 2, .vec 4], [], issues (by decide) rfl (by decide) (by decide) (by decide) (by decide) (by decide) (by decide), by decide +kernel⟩

/-- LaneConversions: a type of 16 bits with a register, a run of eight values, its entry of the table. -/
theorem witness_LaneConversions : NType.bf16.bits = 16 ∧ NType.f32.bits ≠ 16 ∧ cvtTable 2 .bf16 .f32 = some (1, 2)
    ∧ cvtTable 4 .e4m3 .f32 = some (1, 4) ∧ cvtTable 8 .e4m3 .e2m1 = some (2, 1) := by decide

/-- A group with a result on its way, one that waits for an entry of channel 0, and a sleep that has ended. -/
def awaited : State := dev.mapG fun g => { g with pend := [({} : Pend), { recv := some (0, false) }], park := .sleep, sleepEnd := some 0 }

/-- ResultsReturn. -/
theorem witness_ResultsReturn :
    (awaited.g.pend[0]? = some ({} : Pend) ∧ ({} : Pend).returned = false ∧ ({} : Pend).recv = none)
    ∧ (awaited.g.pend[1]? = some { recv := some (0, false) } ∧ chHead (setCh awaited 0 [5]) 0 0 = some 5 ∧ chHead awaited 0 0 = none)
    ∧ (dev.g.mode = .user ∧ dev.g.frozen = false ∧ dev.g.halted = false) ∧ (awaited.g.park = .sleep ∧ 0 ≤ awaited.now)
    ∧ dev.g.park ≠ .sleep := by decide +kernel

/-- A mailbox of a function that is at a command. -/
def asked (fn : Nat) (code : Byte) (ops : List DWord) (stage : Nat) (s : State) : State :=
  s.setMbox fn { s.mbox fn with busy := true, stage := stage, run := (code, 0, ops) }

/-- A first-touch pool at 0, with room for one frame. -/
def pooled : State :=
  let s := placePage 0 0x1000 (paged dev)
  placeBytes 0x6000 (leBytes 24 0) (s.setCtx { s.gctx with xb := { s.gctx.xb with pool := 0x1000 } })

/-- Scheduling. -/
theorem witness_Scheduling :
    (((pollSoft (settleLeases dev)).vf 0).present = true ∧ ((pollSoft (settleLeases dev)).vf 0).frozen = false)
    ∧ ((dev.setVf { dev.vf 0 with frozen := true }).vf 0).frozen = true
    ∧ (let q : QDesc := { en := true, waitAt := some (0, 0, 0), starve := 1 }
       let s := { setQueueOf dev 0 0 q with now := 2000 }
       (queueOf (refreshWaits s (s.slice 0).vf) 0 0).starve ≠ 0 ∧ (queueOf (refreshWaits s (s.slice 0).vf) 0 0).synth = 0)
    ∧ (dev.vf 5).present = false
    ∧ (let s := { dev with clk := 5000 }
       ((s.allGroups.flatMap (readyStreams s)).filter (starved s)) ≠ [])
    ∧ logRoom dev 0 = true := by decide +kernel

/-- MailboxCommands: a go of a code that is one, of an idle and of a busy mailbox; each command's operands. -/
theorem witness_MailboxCommands :
    ((dev.mbox 0).busy = false ∧ (dev.vf 0).present = true ∧ ((asked 0 1 [] 0 dev).mbox 0).busy = true)
    ∧ (cmdTurn (asked 0 1 [0, 0, 0x1000] 0 dev) 0 1 = true ∧ (0 : Nat) < 2 ^ (dev.vf 0).j)
    ∧ (cmdTurn (asked 0 2 [0, 0] 0 dev) 0 2 = true ∧ cmdTurn dev 0 2 = false)
    ∧ (let s := asked 0 3 [0, 0] 0 dev
       cmdTurn s 0 3 = true ∧ inUse s (intfCtx 0 0) = true ∧ (xblockOf (s.rdMemN (hostKey 0) 64)).root.toNat % 4096 = 0)
    ∧ (let s := asked 0 4 [0, 0] 0 dev
       let b := sblockOf (s.rdMemN (hostKey 0) 64)
       cmdTurn s 0 4 = true ∧ b.sump.toNat % 2 ^ 21 = 0 ∧ b.hscr.toNat % 4096 = 0 ∧ b.nslot.toNat ≤ 1024)
    ∧ cmdTurn (asked 0 5 [0, 0, 4096] 0 dev) 0 5 = true
    ∧ (let s := asked 0 7 [0, 8] 0 dev
       cmdTurn s 0 7 = true ∧ ((s.ctxs.filter fun c => c.id / 64 = 0 && c.id ≠ intfCtx 0 0).map fun c => c.quota).sum + 8 ≤ 65536)
    ∧ cmdTurn (asked 0 8 [0, 9] 0 dev) 0 8 = true
    ∧ cmdTurn (asked 0 0x15 [0, 0, 3] 0 dev) 0 0x15 = true
    ∧ (let s := asked 0 0x1B [0x10000, 0x10000] 0 dev; cmdTurn s 0 0x1B = true ∧ cmdOp s 0 0 + cmdOp s 0 1 ≤ s.partBytes 0) := by decide +kernel

/-- A device of two slices, whose second belongs to none. -/
def halved : State := { dev with slices := [{ id := 0, state := 1 }, { id := 1 }], fws := (List.range 17).map fun n => (n, { ok0 := true }) }
/-- A device whose partition holds both. -/
def joined : State :=
  { dev with slices := [{ id := 0, state := 1 }, { id := 1, state := 1 }], vfs := [{ id := 0, present := true, j := 1, chunks := [(0, [0, 1])] }] }

/-- Partitions: each command in its turn with operands that it takes. -/
theorem witness_Partitions :
    cmdTurn (asked 16 6 [0, 64] 0 dev) 16 6 = true
    ∧ (let s := asked 16 0x10 [1, 1, 0, 1, 1, 16] 0 halved
       cmdTurn s 16 0x10 = true ∧ (s.vf 1).present = false ∧ (s.vf 0).present = true ∧ blockOk 1 0 = true ∧ ([1].all (sliceFree s)) = true
        ∧ enginesTaken s 1 1 1 = false)
    ∧ (let s := asked 16 0x11 [0] 0 dev; cmdTurn s 16 0x11 = true ∧ (s.mbox 16).stage ≠ 1)
    ∧ (let s := asked 16 0x12 [0, 0, 1] 0 halved
       cmdTurn s 16 0x12 = true ∧ blockOk 0 1 = true ∧ (s.vf 0).j < 1 ∧ [1].all (sliceFree s) = true ∧ vfCkpt s 0 = false)
    ∧ (let s := asked 16 0x13 [0, 0, 0] 0 joined
       cmdTurn s 16 0x13 = true ∧ blockOk 0 0 = true ∧ 0 < (s.vf 0).j ∧ splitCheck s 0 0 0 (departing s 0 0 0) = none)
    ∧ (((asked 16 0x13 [0, 0, 0] 1 joined).mbox 16).stage = 1 ∧ cmdTurn (asked 16 0x13 [0, 0, 0] 1 joined) 16 0x13 = true)
    ∧ (let s := asked 16 0x13 [0, 0, 0] 2 joined
       cmdTurn s 16 0x13 = true ∧ (departing s 0 0 0).any (fun sl => (s.slice sl).state = 4) = false)
    ∧ (let s := asked 16 0x14 [0, 1, 1] 0 dev; cmdTurn s 16 0x14 = true ∧ enginesTaken s 0 1 1 = false ∧ (s.vf 0).coll &&& ~~~1#4 = 0)
    ∧ (cmdTurn (asked 16 0x16 [0, 0, 0x640001] 0 dev) 16 0x16 = true ∧ 100 ≤ 0x640001 / 2 ^ 16 % 2 ^ 16)
    ∧ (cmdTurn (asked 16 0x17 [1, 0, 0, 0, 0, 0] 0 halved) 16 0x17 = true ∧ cmdTurn (asked 16 0x17 [] 3 halved) 16 0x17 = true)
    ∧ (let s := asked 16 0x18 [0] 0 { dev with leases := [{ state := 2 }] }; cmdTurn s 16 0x18 = true ∧ s.leases[0]? = some { state := 2 })
    ∧ ((dev.setSlice { dev.slice 0 with state := 4 }).slice 0).state = 4 ∧ (dev.slice 0).state ≠ 4
    ∧ (([] : List (Nat × Nat × Nat)).all fun e => !missed dev 0 e) = true
    ∧ (let s := dev.setCtx { dev.gctx with crit := [(0, 100)] }
       ([(0, 100, 200)] : List (Nat × Nat × Nat)).any (missed s 0) = true ∧ 2 < (s.slice 0).throttle) := by decide +kernel

/-- A checkpoint with one frame that is not copied, and one with none. -/
def cut : Ckpt := { uncopied := [(0x6000, 4096)] }
/-- A context that takes an image, and an image of no record in host memory. -/
def imaged : State :=
  (asked 0 0x21 [0, 0x10000, 0x20000, 0x200000, 0x200000] 0
    { dev.setCtx { dev.gctx with sb := { sump := 0x400000 } } with t := {} }).memWrite
    (hostKey 0x10000) (commitBytes {} [])

/-- Checkpoints. -/
theorem witness_Checkpoints :
    (let s := asked 0 0x20 [0, 0, 0x1000, 0x2000] 0 dev
     cmdTurn s 0 0x20 = true ∧ inUse s (intfCtx 0 0) = true ∧ (s.vf 0).resize = false ∧ (s.leases.any fun l => l.state = 1 && l.vf = 0) = false
      ∧ (s.ckpts.any fun c => c.ctx = 0) = false)
    ∧ (({ dev with ckpts := [cut] } : State).ckpts.find? (fun c => c.ctx = 0) = some cut ∧ nextFrame { dev with ckpts := [cut] } cut = some (0x6000, 4096))
    ∧ cut.uncopied ≠ [] ∧ (({} : Ckpt).uncopied = [] ∧ ({} : Ckpt).cap < ({} : Ckpt).placed.2) ∧ ({ cap := 0x1000 } : Ckpt).placed.2 ≤ 0x1000
    ∧ (let s := imaged
       let rs := readRecs s 0x10000
       let b := rebuild s 0x10000 0x200000 1 (savedBlock ((ofKind rs 4).flatMap (recData s 0x10000))) rs
       cmdTurn s 0 0x21 = true ∧ inUse s 0 = true ∧ restoreBusy s 0 = false ∧ pickSlot s 0x10000 0x20000 = some 0x10000
        ∧ (ofKind rs 8).length ≤ (s.ctx 0).sb.nslot.toNat ∧ (ofKind rs 9) = [] ∧ (s.ctx 0).sb.sump ≠ 0 ∧ b.stop ≤ 0x200000 + 0x200000
        ∧ 0x400000 ≤ s.partBytes 0 ∧ ((List.range 1).any fun i => (s.ctx 0).quota < heapRestored s 0 rs 1 i) = false) := by decide +kernel

/-- OutsideRequests: a read, an atomic, a PASID of a VF and another, a peer that is lost and one that is not. -/
theorem witness_OutsideRequests : reqAtomic (.read 4) = false ∧ reqAtomic (.add 1) = true
    ∧ (dev.ctxs.any fun c => c.id / 64 = 0 && c.pasid.toNat = 1) = true ∧ (dev.ctxs.any fun c => c.id / 64 = 0 && c.pasid.toNat = 2) = false
    ∧ ((dev.setVf { dev.vf 0 with coll := 1 }).vf 0).coll ≠ 0 ∧ dev.lost.contains 3 = false
    ∧ ({ dev with lost := [3] } : State).lost.contains 3 = true := by decide +kernel

/-- FirmwareAndPower. -/
theorem witness_FirmwareAndPower :
    (let s := asked 16 0x30 [0, 1, 0, 0x1000] 0 dev
     cmdTurn s 16 0x30 = true ∧ (s.fw 0).active ≠ 1 ∧ (s.fw 0).update ≠ 1)
    ∧ cmdTurn (asked 16 0x31 [1] 0 dev) 16 0x31 = true
    ∧ ((dev.setFw 0 { dev.fw 0 with update := 1 }).fw 0).update = 1 ∧ (dev.fw 0).update ≠ 1
    ∧ cmdTurn (asked 16 0x19 [0] 0 dev) 16 0x19 = true ∧ cmdTurn (asked 16 0x1A [0] 0 dev) 16 0x1A = true
    ∧ ({ dev with powered := false } : State).powered = false ∧ State.reset.powered = true := by decide +kernel

/-! ## Further hypotheses -/

/-- A page whose entry is clean while the log of its virtual function is full. -/
def logged (s : State) : State :=
  let s := s.setVf { s.vf 0 with logHdr := 0x8000 }
  placeBytes 0x8000 (leBytes 8 1 ++ leBytes 8 0 ++ leBytes 8 0x9000 ++ leBytes 8 0) s

/-- A page with every right that nothing has written yet. -/
def cleaned (s : State) : State := placeBytes 0x5000 (leBytes 8 0x603B) (paged s)

/-- GroupWordsComplete: the words of memory, the barriers, the registers, the heap, the counters and the ends. -/
theorem witness_GroupWordsComplete :
    (((0 : Nat) % 16 = 0 ∧ 0 + 16 ≤ (barred dev).t.wsize) ∧ (barUpdate ((barred dev).bar 0) 1 0 0).isSome = true
      ∧ (barUpdate ((barred dev).bar 0) 0 1 0).isSome = true ∧ barTest ((barred dev).bar 0) true = some true
      ∧ (barred dev).g.barLost = false ∧ (barred dev).t.softReq = none ∧ (barred dev).g.mode ≠ .handler
      ∧ (barred dev).g.drained (barred dev).g.cStrm = true)
    ∧ (0 % 4 = 0 ∧ 0 + 4 ≤ dev.t.wsize ∧ dev.spFull 0 4 = true)
    ∧ (granted ((paged dev).xlate 0 4 .rd) = true ∧ granted ((paged dev).xlate 0 4 .wr) = true ∧ granted ((paged dev).xlate 0 8 .at) = true)
    ∧ (let s := dev.mapG fun g => { g with arrived := true, barCnt := 1, gridCnt := 1 }
       s.g.arrived = true ∧ allReached s.teamGroups (·.barCnt) s.g.barCnt = true ∧ s.t.cores = true
        ∧ allReached (gridGroups s) (·.gridCnt) s.g.gridCnt = true)
    ∧ (let last : State := (dev.mapG fun g => { g with barCnt := g.barCnt + 1, arrived := true }).parkC .teambar
       let lastGrid : State := ((dev.fence .rel .prt).mapG fun g => { g with gridCnt := g.gridCnt + 1, arrived := true }).parkC .gridbar
       dev.g.arrived = false ∧ dev.g.curQueue = [] ∧ allReached last.teamGroups (·.barCnt) last.g.barCnt = true
        ∧ allReached (gridGroups lastGrid) (·.gridCnt) lastGrid.g.gridCnt = true)
    ∧ (bound (bindBase (paged dev) 0 0 3) = true ∧ bound (bindObj objected 0 0) = true)
    ∧ (0 + 128 ≤ dev.t.wsize ∧ 0 < dev.gctx.quota ∧ dev.heapServe.g.heapW.got = none)
    ∧ ((60 : SReg).toNat + 4 ≤ 64 ∧ fmtOk 0x11 = true)
    ∧ ((moded .slice dev).g.mode = .slice ∧ countsFree (moded .slice dev) 17 = false ∧ (dev.g.rdS 0 4).toNat ≤ 0x15)
    ∧ (illegalHere dev = false ∧ findSlot (dev.cluster dev.clusterId) dev.g.ctx 0 = none)
    ∧ (mayEnd dev.g = true ∧ dev.t.chain = true ∧ (dev.g.rdP 0 4).toNat % 64 = 0)
    ∧ (let s := dev.mapG fun g => { g with exiting := true, park := .exit }
       s.g.exiting = true ∧ s.g.park = .exit ∧ mayEnd s.g = true ∧ groupRuns s s.g = true ∧ s.g.faults = [])
    ∧ (handled.g.mode = .user ∧ handled.gctx.hvec.getLsbD 0 = true ∧ handled.gctx.sb.hscr ≠ 0) := by decide +kernel

/-- TaskHeap, GroupWordsComplete: a heap that has served its waiters and has an entry left for a take. -/
theorem witness_TaskHeap_take : let h := heaped.heapServe
    h.g.park ≠ .heaptake ∧ heapPick h h.sliceId h.g.ctx = some { ctx := 0, key := 1, val := 2, seq := 0 } := by
  have e : heaped.heapServe = heaped := by
    have w : oldestWaiter heaped 0 0 .heaptake = none ∧ oldestWaiter heaped 0 0 .heapadd = none := by decide +kernel
    show serveHeap 0 0 (1 + 1) heaped = heaped
    rw [serveHeap, w.1, w.2]; cases heapPick heaped 0 0 <;> simp
  rw [e]
  refine ⟨by decide +kernel, ?_⟩
  have h : heapOf (heaped.slice heaped.sliceId) heaped.g.ctx = [{ ctx := 0, key := 1, val := 2, seq := 0 }] := by decide +kernel
  rw [heapPick, h]; simp [Nat.mod_one]

/-- Cards: an idle engine, none; a frame-end card that ends; a card that a full log makes wait. -/
theorem witness_Cards_engines :
    (let k : Card := { id := 5, words := [1, 4] }
     let s := (dev.setVf { dev.vf 0 with coll := 1 })
     let t := { s with cards := [k, { id := 6, phase := .started, words := [1, 4], engine := some 0 }] }
     mayStart { s with cards := [k] } k = true ∧ (takeEngine { s with cards := [k] } k).isSome = true ∧ takeEngine t k = none
      ∧ takeEngine dev k = some k)
    ∧ (let k : Card := { id := 5, words := [1, 7] }
       let s := { dev with cards := [k] }
       mayStart s k = true ∧ takeEngine s k = some k ∧ k.kind = 7 ∧ (match startCard s k with | .ended _ _ => true | _ => false) = true)
    ∧ (let k : Card := { id := 5, words := [1, 3, 0x40, 0] }
       let s := { logged (cleaned dev) with cards := [k], writer := some (.card 5) }
       mayStart s k = true ∧ takeEngine s k = some k ∧ (match startCard s k with | .waits _ => true | _ => false) = true) := by decide +kernel

/-- MatrixEngine: a full queue, a bank that is held, a tile that is stored, one that stops. -/
theorem witness_MatrixEngine_stores :
    (let s := dev.setCluster { dev.cluster 0 with queue := List.replicate 16 {} }
     bankCluster s 0 = some (0, false) ∧ mayTake s 0 0 = true ∧ 16 ≤ ((takeBank s 0 0).cluster 0).queue.length)
    ∧ (let s := dev.setCluster { dev.cluster 0 with bank0 := { holder := some 9 } }
       bankCluster s 0 = some (0, false) ∧ mayTake s 0 0 = false)
    ∧ (let m : MCmd := { kind := .mstore, team := 2, run := [0, 0], ctl := 0x10 }
       let s := dev.setCluster { dev.cluster 0 with queue := [m] }
       headCmd (s.cluster 0) 0 = some m ∧ s.team? 2 = some s.t ∧ cmdRuns s (s.cluster 0) m = true
        ∧ (match writeTile s s.t m [(0, [1, 2])] with | .done _ => true | _ => false) = true)
    ∧ (let m : MCmd := { kind := .mstore, team := 2, run := [0, 0], ctl := 0 }
       (match writeTile dev dev.t m [(0, [1, 2])] with | .stop _ _ code _ => decide (code ≠ 0) | _ => false) = true) := by decide +kernel

/-- SplatWords: a full sequence. -/
theorem witness_SplatWords_full :
    8 ≤ ({ dev with t := { dev.t with splat := List.replicate 8 {} } } : State).t.splat.length := by decide

/-- Sinter: an image that is read, an arrival. -/
theorem witness_Sinter_image :
    arrivals slotted (slotted.cluster 0) ≠ [] ∧ bound (readImage (paged dev) 0x100 4).2 = true
    ∧ (slotFor (slotted.cluster slotted.clusterId) slotted.g.ctx 5).isSome = true := by decide +kernel

/-- ControllerWords: a handler that is not done. -/
theorem witness_ControllerWords_rett :
    (let s := (inHandler 8).mapG fun g => { g with hlaneq := [{}] }
     handlerDone s.g = false ∧ s.g.mode = .handler) := by decide

/-- Ladder: a team that is neither ended, halted nor frozen. -/
theorem witness_Ladder_grace :
    ((pollSoft late).team? 4).map (fun t => (t.ended, t.hardAt)) = some (false, none) ∧ teamFrozen (pollSoft late) 4 = false
    ∧ (late.team? 4).map (fun t => t.ended) = some false := by decide +kernel

/-- LaneControl: a word that a fault has made execute again, with its predicate and without; lanes that trap, and none. -/
theorem witness_LaneControl_redo :
    (let x : Split := { mask := 0xF, redo := some { lanes := 6 } }
     let y : Split := { mask := 0xF, redo := some { lanes := 6, fresh := true } }
     let s := devL.mapG fun g => { g with m := [(1, 3)] }
     activeLanes s ⟨false, 1, false⟩ x = 6 ∧ activeLanes s ⟨false, 1, false⟩ y = 2)
    ∧ (∃ c popped, LaneIssues H [] [] [] none devL c popped ∧ c.act ≠ 0)
    ∧ (let s := devL.mapG fun g => { g with splits := [{ mask := 0 }] }
       ∃ c popped, LaneIssues H [] [] [] none s c popped ∧ c.act = 0) :=
  ⟨by decide +kernel,
   ⟨_, [], issues (vs := []) (x := { mask := 0xF }) (by decide) rfl (by decide) (by decide) (by decide) (by decide) (by decide) (by decide), by decide⟩,
   ⟨_, [], issues (vs := []) (x := { mask := 0 }) (by decide) rfl (by decide) (by decide) (by decide) (by decide) (by decide) (by decide), by decide⟩⟩

/-- ResultsReturn: a test of a line that is full, of one that is empty. -/
theorem witness_ResultsReturn_test :
    (let p : Pend := { test := some (0, .eq, 0) }
     let s := dev.mapG fun g => { g with pend := [p] }
     s.g.pend[0]? = some p ∧ p.returned = false ∧ p.late = none ∧ p.recv = none ∧ s.spFull 0 4 = true ∧ (s.emptyLines [0]).spFull 0 4 = false)
    ∧ groupRuns dev dev.g = true ∧ groupRuns stilled (stilled.gs.headD {}) = false := by decide +kernel

/-- Scheduling: a display that is due, one that is not, one without a period; a log that is full; a pool with room. -/
theorem witness_Scheduling_display :
    (let s := dev.setVf { dev.vf 0 with vperiod := 100, vnext := 50 }
     (s.vf 0).present = true ∧ ¬(s.vf 0).vnext ≤ s.now ∧ (s.vf 0).vnext ≤ ({ s with now := 60 } : State).now ∧ (dev.vf 0).vperiod = 0)
    ∧ logRoom (logged dev) 0 = false
    ∧ (pooled.gctx.xb.pool ≠ 0 ∧ 4096 * (7 + 1) ≤ pooled.partBytes 0 ∧ (poolKey pooled 0 0x1000 .rd).2.isSome = true
      ∧ (poolKey pooled 0 0x1040 .wr).2.isSome = true ∧ (poolKey pooled 0 0x1008 .wr).2.isSome = true) := by decide +kernel

/-- MailboxCommands: a reserved register, a code that is none, a function without a partition, a queue's descriptor that is taken. -/
theorem witness_MailboxCommands_registers :
    mailboxReg 0x50 = false ∧ mailboxReg 0x88 = false ∧ vfCodes.contains 0x10 = false ∧ pfCodes.contains 0x10 = true ∧ (dev.vf 5).present = false
    ∧ (match captureQueue dev 0 0 {} {} with | .done _ _ _ => true | _ => false) = true := by decide +kernel

/-- Partitions: a partition whose slices are being zeroed, one whose slices are not; a lease that has the lender's teams gone. -/
theorem witness_Partitions_ends :
    (let s := asked 16 0x11 [0] 0 dev
     let t := freePartition s 0
     (t.slices.any fun c => c.state = 4 && c.vf = 0) = true)
    ∧ (let s := asked 16 0x11 [0] 1 dev
       cmdTurn s 16 0x11 = true ∧ (s.mbox 16).stage = 1 ∧ (s.slices.any fun c => c.state = 4 && c.vf = 0) = false)
    ∧ (let s := asked 16 0x17 [1, 0, 0, 0, 0, 0] 0 halved
       (inUse s 0 = true ∧ (s.clusterMask 1).getLsbD 0 = true ∧ vfCkpt s 0 = false
        ∧ (leaseRecords s).findIdx? (fun r => r.state = 0) = some 0))
    ∧ (let s := asked 16 0x17 [1, 0, 0, 0, 0, 0] 1 { halved with leases := [{ lslice := 1, state := 1 }] }
       cmdTurn s 16 0x17 = true ∧ (s.mbox 16).stage = 0 + 1 ∧ s.leases[0]? = some { lslice := 1, state := 1 } ∧ lenderTeams s 16 = [])
    ∧ (let s := asked 16 0x18 [0] 0 { dev with leases := [{ lslice := 1, state := 2 }] }
       let t := settleLease (mapLease s 0 fun l => { l with state := 3 }) 0
       ((t.leases[0]?).map fun l => l.state) = some 0)
    ∧ (let s := asked 16 0x18 [0] 0 { dev with
          leases := [{ lslice := 1, state := 2 }],
          clusters := [{ id := 16, bank0 := { holder := some 2 } }] }
       let t := settleLease (mapLease s 0 fun l => { l with state := 3 }) 0
       ((t.leases[0]?).map fun l => l.state) ≠ some 0) := by decide +kernel

/-- FirmwareAndPower: the stages of an update, a manager that has an image and one that has none. -/
theorem witness_FirmwareAndPower_stages :
    (((asked 16 0x31 [0] 0 dev).mbox 16).stage = 0 ∧ cmdTurn (asked 16 0x31 [0] 3 dev) 16 0x31 = true)
    ∧ ([1, 2, 3] : List Nat).all (fun u => (((asked 16 0x31 [4] 3 dev).setFw 2 { dev.fw 2 with update := u }).fw 2).update = u) = true
    ∧ ({ ok0 := true } : Fw).bootSlot = some 0 ∧ ({ ok0 := false } : Fw).bootSlot = none := by
  decide +kernel

/-- A page mapped to the first byte of host memory, which a peer's window covers. -/
def outside : State := { placeBytes 0x5000 (leBytes 8 (2 ^ 47 + 0x13B)) (paged dev) with peers := [(0, 2 ^ 20, 3)] }

/-- MemoryForm: a state in canonical form that steps on. -/
theorem witness_MemoryForm :
    let s := State.reset.withFetchWord 32 0x04188280
    Memory.wf s.mem = true ∧ Memory.wf s.hostMem = true ∧ (match step s with | .next _ => true | _ => false) = true := by decide +kernel

/-- The same with a sector of the page poisoned. -/
def spoiled : State := { paged dev with poison := [0x300] }

/-- ScalarMemory: a poisoned sector, an atomic that is not carried to a peer, one that faults, a test still due, a test's line empty. -/
theorem witness_ScalarMemory_faults :
    (∃ s1 key, spoiled.xlate 0 4 .rd = (s1, .ok key false) ∧ s1.poisonedHere key 4 = true ∧ s1.poisoned key 4 = true)
    ∧ (∃ s1 key, spoiled.xlate 0 8 .at = (s1, .ok key false) ∧ s1.poisonedHere key 8 = true ∧ AtomOp.carried .add = true)
    ∧ (∃ s1 key, outside.xlate 0 8 .at = (s1, .ok key false) ∧ AtomOp.carried .min = false ∧ (s1.peerOf key).isSome = true)
    ∧ (dev.xlate 0 8 .at).2 = .fault 0x10 ∧ dev.g.loadsDue = false
    ∧ (dev.mapG fun g => { g with pend := [{ strm := g.cStrm, test := some (0, .any, 0) }] }).g.loadsDue = true
    ∧ ((2 : Nat) % 4 ≠ 0 ∧ (0x40000 : Nat) % 4 = 0 ∧ dev.t.wsize < 0x40000 + 4) ∧ (dev.emptyLines [0]).spFull 0 4 = false := by
  have h1 := of_granted (r := spoiled.xlate 0 4 .rd) (by decide +kernel)
  have h2 := of_granted (r := spoiled.xlate 0 8 .at) (by decide +kernel)
  have h3 := of_granted (r := outside.xlate 0 8 .at) (by decide +kernel)
  have ok (r : State × TRes) (p : State → Nat → Bool) (h : ∃ s key, r = (s, .ok key false))
      (q : (match r.2 with | .ok k _ => p r.1 k | _ => false) = true) : ∃ s key, r = (s, .ok key false) ∧ p s key = true := by
    obtain ⟨s, k, e⟩ := h; subst e; exact ⟨s, k, rfl, q⟩
  refine ⟨?_, ?_, ?_, by decide +kernel⟩
  · obtain ⟨s, k, e, q⟩ := ok _ (fun s k => s.poisonedHere k 4 && s.poisoned k 4) h1 (by decide +kernel)
    exact ⟨s, k, e, by simpa using q⟩
  · obtain ⟨s, k, e, q⟩ := ok _ (fun s k => s.poisonedHere k 8) h2 (by decide +kernel)
    exact ⟨s, k, e, q, rfl⟩
  · obtain ⟨s, k, e, q⟩ := ok _ (fun s k => (s.peerOf k).isSome) h3 (by decide +kernel)
    exact ⟨s, k, e, rfl, q⟩

/-- TranslationRegisters: an index beyond the table, a base that is not mapped; a base that is not canonical. -/
theorem witness_TranslationRegisters_faults :
    (0 < 2 ^ 16 ∧ (bindObj dev.objAcquire dev.objAcquire.g.ctx 0).toOption = none)
    ∧ canonical 0 = true ∧ canonical 0x0100000000000000 = false := by decide +kernel

/-- StageBarriers: loads still due, a barrier that is not valid, an arrival that completes a phase. -/
theorem witness_StageBarriers_more :
    (dev.bar 0).valid = false ∧ (1 : Nat) ≤ 1 ∧ (barUpdate ((barred dev).bar 0) 0 1 0).isSome = true
    ∧ ((barUpdate ((barred dev).bar 0) 0 1 0).map fun y => y.phase) = some (!((barred dev).bar 0).phase) := by decide +kernel

/-- MatrixEngine: control words and offsets that are bad, a barrier's place outside the window. -/
theorem witness_MatrixEngine_bad :
    ((0x01000001 : Word).extractLsb' 24 8 ≠ 0 ∧ (0 : Word).extractLsb' 0 16 = 0 ∧ (0x00100001 : Word).getLsbD 19 = false
      ∧ (0x00100001 : Word).extractLsb' 20 4 ≠ 0 ∧ (([0, 32, 0, 0] : List Word).any fun x => x.toNat % 64 ≠ 0) = true)
    ∧ mstoreBad 1 0 0 = true ∧ (0x80000 : Word).extractLsb' 19 13 ≠ 0
    ∧ barOffsetFault dev 8 = some 3 ∧ barOffsetFault dev 0x40000 = some 5 ∧ fmtABlk 0x11 = 0 := by decide +kernel

/-- Fragments: a roof core, an attribute that the draw has not; a fragment group that is due, and one that stands ready. -/
theorem witness_Fragments_more :
    ({ devL with t := { devL.t with ppos := 4 } } : State).isRoof = true ∧ (drawNa triDraw ≤ (1 : BitVec 6).toNat ∧ drawTargets triDraw ≤ (1 : BitVec 3).toNat)
    ∧ ({ roles := [(1, 16)], draw := triDraw } : Launch).fragDue = true
    ∧ ({ roles := [(1, 16)], draw := triDraw, ready := some {} } : Launch).fragDue = false := by decide +kernel

/-- Encoder: the next released row, a frame that is whole, a barrier that an update completes and one that none may update. -/
theorem witness_Encoder_due :
    (let b : EncBind := { desc := [0x70A, 0, 0x20040, 0] ++ List.replicate 12 0, released := 1 }
     b.rowDue dev = true)
    ∧ (let b : EncBind := { desc := [0x70A, 0, 0x400040, 0] ++ List.replicate 12 0, released := 64, rows := 64 }
       let s := dev.setSlice { dev.slice 0 with binds := [b] }
       frameDue s (s.slice 0) b = true)
    ∧ barUpdate ((barred dev).bar 0) 0 0 0 = some ((barred dev).bar 0) ∧ barUpdate (dev.bar 0) 0 0 0 = none := by decide +kernel

/-- Ladder: a team whose grace has run out is not halted yet. -/
theorem witness_Ladder_running : teamHalted (pollSoft late) 4 = false ∧ (pollSoft late).team? 4 = late.team? 4 := by decide +kernel

/-- MailboxCommands: a device whose manager is down, one that runs; codes that a mailbox has and has not. -/
theorem witness_MailboxCommands_codes :
    answers dev 1 = true ∧ answers { dev with mgrDown := true } 1 = false ∧ answers { dev with devState := 1 } 0x1A = true
    ∧ knownCode 0 1 = true ∧ knownCode 0 0x10 = false ∧ knownCode 16 0x10 = true ∧ (dev.mbox 16).busy = false := by decide +kernel

/-- Partitions: a slice that a checkpoint still reads, and one that none does; an instant between two windows. -/
theorem witness_Partitions_held :
    ({ dev with ckpts := [cut] } : State).ckpts.any (fun k => k.ctx / 64 = 0) = true ∧ dev.ckpts.any (fun k => k.ctx / 64 = 0) = false
    ∧ dev.now % 100000 = 0 ∧ ({ dev with now := 1 } : State).now % 100000 ≠ 0 := by decide +kernel

/-- OutsideRequests: a queue pair of a virtual function with a collective engine, of one without, of none. -/
theorem witness_OutsideRequests_pairs :
    (let s := { dev.setVf { dev.vf 0 with coll := 1 } with qpairs := [(0, 4, 0)] }
     pairVf s 3 = some 0 ∧ State.popCount (s.vf 0).coll ≠ 0)
    ∧ (let s := { dev with qpairs := [(0, 4, 0)] }
       pairVf s 3 = some 0 ∧ State.popCount (s.vf 0).coll = 0)
    ∧ pairVf dev 3 = none := by decide +kernel

/-- FirmwareAndPower: a heartbeat in time and one that is late; a device that comes up with a manager, and without. -/
theorem witness_FirmwareAndPower_times :
    (let s := dev.setFw 0 { dev.fw 0 with update := 1 }
     (s.fw 0).update = 1 ∧ s.now ≤ (s.fw 0).since + heartbeatLimit ∧ s.now < (s.fw 0).since + heartbeatLimit
      ∧ (s.fw 0).since + heartbeatLimit < ({ s with now := 2 ^ 40 } : State).now)
    ∧ (let p : State := { powerDown { dev with fws := [(16, { ok0 := true })], powered := false } with powered := true }
       (p.fw 16).bootSlot.isSome = true)
    ∧ (let p : State := { powerDown { dev with fws := [(16, { ok0 := false })], powered := false } with powered := true }
       (p.fw 16).bootSlot = none) := by decide +kernel

/-! ## Results worked by hand -/

/-- A register of scalar file after a word. -/
def sOut (r : Res) (i : Nat) : Option Word := match r with | .next t => some (SMap.get 0 t.g.s i) | _ => none
/-- A predicate after a word. -/
def qOut (r : Res) (i : Nat) : Option Bool := match r with | .next t => some (t.g.q.getLsbD i) | _ => none
/-- Lane l's register after a word. -/
def vOut (r : Res) (d l : Nat) : Option Word := match r with | .next t => some (SMap.get 0 t.g.v (32 * d + l)) | _ => none
/-- A mask register after a word. -/
def mOut (r : Res) (i : Nat) : Option Word := match r with | .next t => some (SMap.get 0 t.g.m i) | _ => none
/-- Lane 0's registers on four lanes. -/
def devV (l : SMap Word) : State := devL.mapG fun g => { g with v := l }

/-- R186: a sum wraps; a subtraction takes b from a; a division truncates to zero, and its remainder has the dividend's sign. -/
theorem test_scalar_add : sOut (exec (.add false 3 4 5) (devS [(4, 0xFFFFFFFF), (5, 2)])) 3 = some 1 := by decide
theorem test_scalar_sub : sOut (exec (.sub false 3 4 5) (devS [(4, 2), (5, 3)])) 3 = some 0xFFFFFFFF := by decide

/-- R189: counts of leading zeros: 32 for 0. -/
theorem test_clz : sOut (exec (.clz false 3 4) (devS [(4, 0x00010000)])) 3 = some 15 ∧ sOut (exec (.clz false 3 4) (devS [(5, 1)])) 3 = some 32 := by decide

/-- R188: signed and unsigned order differ. -/
theorem test_cmp : qOut (exec (.cmp false 1 4 5 .ltn) (devS [(4, 0xFFFFFFFF)])) 1 = some false
    ∧ qOut (exec (.cmp false 1 4 5 .lts) (devS [(4, 0xFFFFFFFF)])) 1 = some true := by decide

/-- R189: a pair's carry goes into its upper word. -/
theorem test_add64 : sOut (exec (.add64 false 2 4 6) (devS [(4, 0xFFFFFFFF), (6, 1)])) 3 = some 1 := by decide

/-- R232: the three-input table: 0x96 is the sum, 0xE8 the majority (the spec's example). -/
theorem test_logic3 :
    vOut (exec (.logic3 H (.vec 4) (.vec 1) (.vec 2) (.vec 3) 0x96) (devV [(32, 0xC), (64, 0xA), (96, 6)])) 4 0 = some 0
    ∧ vOut (exec (.logic3 H (.vec 4) (.vec 1) (.vec 2) (.vec 3) 0xE8) (devV [(32, 0xC), (64, 0xA), (96, 6)])) 4 0 = some 0xE := by
  decide +kernel

/-- R219: the fraction of −2^−30 rounds to 1.0 (the spec's example). -/
theorem test_ffract : vOut (exec (.ffract H (.vec 2) (.vec 1) .near) (devV [(32, 0xB0800000)])) 2 0 = some 0x3F800000 := by decide +kernel

/-- R223: 1.0, 3.0, −0.1 and 500.0 at scale 0x7E, without and with saturation (the spec's example). -/
theorem test_cvt4 :
    let s := devV [(32, 0x7E), (128, 0x3F800000), (160, 0x40400000), (192, 0xBDCCCCCD), (224, 0x43FA0000)]
    vOut (exec (.cvt4 H .e4m3 .f32 false (.vec 2) (.vec 4) (some (.vec 1)) ⟨false, .near⟩) s) 2 0 = some 0x7FA54C40
    ∧ vOut (exec (.cvt4 H .e4m3 .f32 false (.vec 2) (.vec 4) (some (.vec 1)) ⟨true, .near⟩) s) 2 0 = some 0x7EA54C40 := by decide +kernel

/-- R214: 1.0 + 2.0 in each lane; a lane that is not active keeps its register. -/
theorem test_fadd :
    let s := devV [(32, 0x3F800000), (64, 0x40000000), (3 * 32 + 4, 7)]
    vOut (exec (.fadd H (.vec 3) (.vec 1) (.vec 2) ⟨false, .near⟩) s) 3 0 = some 0x40400000
    ∧ vOut (exec (.fadd H (.vec 3) (.vec 1) (.vec 2) ⟨false, .near⟩) s) 3 4 = some 7 := by decide +kernel

/-- R229: a signed 8-bit sum saturates, and wraps without. -/
theorem test_iadd :
    vOut (exec (.iadd H .s8 (.vec 3) (.vec 1) (.vec 2) true) (devV [(32, 0x7F), (64, 1)])) 3 0 = some 0x7F
    ∧ vOut (exec (.iadd H .n32 (.vec 3) (.vec 1) (.vec 2) false) (devV [(32, 0xFFFFFFFF), (64, 1)])) 3 0 = some 0 := by decide +kernel

/-- R121: one chunk of bf16 products 2^24, six of 1, and −2^24 adds 6 (the spec's example). -/
theorem test_chunk : (accChunk 0 ([XReal.fin false (2 ^ 24)] ++ List.replicate 6 (XReal.fin false 1) ++ [XReal.fin false (-(2 ^ 24))])).1
    = 0x40C00000 := by decide +kernel

/-- R311: the spec's pixel: three splats added, the fourth stops it; colour (7/8, 1/16, 7/128), T 1/128. -/
theorem test_pixel :
    let g (o : Word) (c : List Word) : Option Splat := some (0, [0x41080000, 0x41080000, 0, 0, 0, 0, 0, o] ++ c)
    let one : Word := 0x3F800000
    let p := blendPixel 0x3B800000
      [g 0x3F600000 [one, 0, 0], g 0x3F000000 [0, one, 0], g 0x3F600000 [0, 0, one], g 0x3F600000 [one, one, one]] 8 8
    p.c = [0x3F600000, 0x3D800000, 0x3D600000] ∧ p.t = 0x3C000000 ∧ p.cnt = 3 := by decide +kernel

end Sys2Proof.Tests
end

section
/-! The mailbox: what each register write and each read gives (R469, R400, R478), how a command of a virtual function's mailbox
ends (R433), and the effect of each command with sound operands (R470, R388, R405, R447). -/

namespace Sys2Proof.Machine

/-! ## Mailbox registers -/

/-- R469: a go takes the code, tag and operands of the mailbox into the command in progress. -/
def goBegun (s : State) (fn : Nat) : State :=
  let m := s.mbox fn
  s.setMbox fn { m with
    busy := true, stage := 0, seq := s.tick, run := (m.code, m.tag, (List.range 7).map fun i => SMap.get 0 m.ops i) }

@[simp] theorem goBegun_vf (s : State) (fn n : Nat) : (goBegun s fn).vf n = s.vf n := rfl

/-! Every function up to 16 has a mailbox; at a register's own offset the other tests of a write are decided by evaluation. -/

section Registers

variable {fn i : Nat} {v : DWord} {s : State}

/-- The physical function, and a virtual function with a partition, have a command refused with BADARG. -/
theorem refuseCmd_of_partition (h : fn = 16 ∨ (s.vf fn).present = true) : refuseCmd s fn = finishCmd s fn stBadArg 0 := by
  have hno : (fn < 16 && !(s.vf fn).present) = false := by
    rcases h with rfl | h
    · rfl
    · simp [h]
  simp [refuseCmd, hno]

/-- A virtual function without a partition has a command refused with NOTFREE. -/
theorem refuseCmd_of_absent (hfn : fn < 16) (h : (s.vf fn).present = false) : refuseCmd s fn = finishCmd s fn stNotFree 0 := by
  simp [refuseCmd, hfn, h]

theorem mailboxWrite_code_tag (hfn : fn ≤ 16) : exec (.mailboxRegisterWrite fn 0 v) s =
    .next (s.setMbox fn { s.mbox fn with code := v.extractLsb' 0 8, tag := v.extractLsb' 8 8 }) :=
  (if_neg (by omega)).trans rfl

theorem mailboxWrite_operand (hfn : fn ≤ 16) (hi : i < 7) : exec (.mailboxRegisterWrite fn (8 * (i + 1)) v) s =
    .next (s.setMbox fn { s.mbox fn with ops := SMap.set 0 (s.mbox fn).ops i v }) := by
  have hreg : mailboxReg (8 * (i + 1)) = true := by simp [mailboxReg]; omega
  have hoff : (8 * (i + 1) % 8 = 0 && 8 ≤ 8 * (i + 1) && 8 * (i + 1) < 64) = true := by simp; omega
  have hidx : 8 * (i + 1) / 8 - 1 = i := by omega
  change execMailboxRegisterWrite fn (8 * (i + 1)) v s = _
  simp only [execMailboxRegisterWrite, hreg, hoff, hidx]
  simp [hfn]

theorem mailboxWrite_acknowledgement (hfn : fn ≤ 16) : exec (.mailboxRegisterWrite fn 64 v) s =
    .next (s.setMbox fn { s.mbox fn with done := (s.mbox fn).done && !v.getLsbD 16 }) :=
  (if_neg (by omega)).trans rfl

theorem mailboxWrite_event_tail (hfn : fn ≤ 16) : exec (.mailboxRegisterWrite fn 200 v) s =
    .next (s.setMbox fn { s.mbox fn with etail := v.extractLsb' 0 3 }) :=
  (if_neg (by omega)).trans rfl

/-- R400: a virtual function that writes a reserved register is frozen. -/
theorem mailboxWrite_reserved {off : Nat} (hfn : fn < 16) (hp : (s.vf fn).present = true) (hoff : mailboxReg off = false) :
    exec (.mailboxRegisterWrite fn off v) s = .next (freezeVf s fn true) := by
  change execMailboxRegisterWrite fn off v s = _
  simp [execMailboxRegisterWrite, hoff, hfn, hp, show ¬16 < fn by omega]

/-- R469, R478: a write of the go register begins the command of an idle mailbox where bit 0 is set; one that the device manager
answers and that is none is refused at once. -/
theorem mailboxWrite_go (hfn : fn ≤ 16) : exec (.mailboxRegisterWrite fn 128 v) s =
    if v.getLsbD 0 && !(s.mbox fn).busy then
      let code := (s.mbox fn).code.toNat
      if answers s code && ((fn < 16 && !(s.vf fn).present) || !knownCode fn code) then .next (refuseCmd (goBegun s fn) fn)
      else .next (goBegun s fn)
    else .next s :=
  (if_neg (by omega)).trans rfl

theorem mailboxWrite_go_ignored (hfn : fn ≤ 16) (h : v.getLsbD 0 = false ∨ (s.mbox fn).busy = true) :
    exec (.mailboxRegisterWrite fn 128 v) s = .next s := by
  rw [mailboxWrite_go hfn, if_neg]
  rw [Bool.and_eq_true, Bool.not_eq_true', not_and_or, Bool.not_eq_true, Bool.not_eq_false]
  exact h

section Go

variable (hfn : fn ≤ 16) (hgo : v.getLsbD 0 = true) (hidle : (s.mbox fn).busy = false)
include hfn hgo hidle

theorem mailboxWrite_go_idle : exec (.mailboxRegisterWrite fn 128 v) s =
    let code := (s.mbox fn).code.toNat
    if answers s code && ((fn < 16 && !(s.vf fn).present) || !knownCode fn code) then .next (refuseCmd (goBegun s fn) fn)
    else .next (goBegun s fn) := by
  rw [mailboxWrite_go hfn, if_pos (by simp [hgo, hidle])]

/-- R478: a go waits while the device manager does not answer. -/
theorem mailboxWrite_go_unanswered (ha : answers s (s.mbox fn).code.toNat = false) :
    exec (.mailboxRegisterWrite fn 128 v) s = .next (goBegun s fn) := by
  rw [mailboxWrite_go_idle hfn hgo hidle]
  simp [ha]

theorem mailboxWrite_go_known (hpart : fn = 16 ∨ (s.vf fn).present = true) (hk : knownCode fn (s.mbox fn).code.toNat = true) :
    exec (.mailboxRegisterWrite fn 128 v) s = .next (goBegun s fn) := by
  rw [mailboxWrite_go_idle hfn hgo hidle]
  rcases hpart with rfl | hp
  · simp [hk]
  · simp [hk, hp]

theorem mailboxWrite_go_unknown (ha : answers s (s.mbox fn).code.toNat = true) (hpart : fn = 16 ∨ (s.vf fn).present = true)
    (hk : knownCode fn (s.mbox fn).code.toNat = false) :
    exec (.mailboxRegisterWrite fn 128 v) s = .next (finishCmd (goBegun s fn) fn stBadArg 0) := by
  rw [mailboxWrite_go_idle hfn hgo hidle, ← refuseCmd_of_partition (by simpa using hpart)]
  simp [ha, hk]

theorem mailboxWrite_go_without_partition (ha : answers s (s.mbox fn).code.toNat = true) (hvf : fn < 16)
    (hp : (s.vf fn).present = false) :
    exec (.mailboxRegisterWrite fn 128 v) s = .next (finishCmd (goBegun s fn) fn stNotFree 0) := by
  rw [mailboxWrite_go_idle hfn hgo hidle, ← refuseCmd_of_absent hvf (by simpa using hp)]
  simp [ha, hvf, hp]

end Go

theorem mailboxRead_operand (hi : i < 7) : mailboxRead s fn (8 * (i + 1)) = SMap.get 0 (s.mbox fn).ops i := by
  have hoff : (8 ≤ 8 * (i + 1) && 8 * (i + 1) < 64 && 8 * (i + 1) % 8 = 0) = true := by simp; omega
  have hidx : 8 * (i + 1) / 8 - 1 = i := by omega
  simp only [mailboxRead, hoff, hidx]
  simp

end Registers

/-! ## Commands of a virtual function's mailbox -/

/-- R433: a command that has not its turn changes nothing. -/
theorem vfCmd_not_in_turn {fn code : Nat} {f : State → CmdEnd} {s : State} (ht : cmdTurn s fn code = false) :
    vfCmd fn code f s = .next s := by
  simp [vfCmd, ht]

theorem execQreset_not_in_turn {fn : Nat} {s : State} (ht : cmdTurn s fn 0x02 = false) : execQreset fn s = .next s :=
  vfCmd_not_in_turn ht

section Commands

variable {fn : Nat} {s : State} (hfn : fn < 16) (hp : (s.vf fn).present = true)
include hfn hp

/-- R433: in its turn, a command of a virtual function with a partition completes with what it comes to. -/
theorem vfCmd_done {code : Nat} {f : State → CmdEnd} {t : State} {st r : Nat} (ht : cmdTurn s fn code = true)
    (hf : f s = .done t st r) : vfCmd fn code f s = .next (finishCmd t fn st (BitVec.ofNat 64 r)) := by
  simp [vfCmd, ht, hp, hf, show ¬16 ≤ fn by omega]

/-- A command whose operands pass its check completes with OK. -/
theorem vfCmd_ok {code : Nat} {f : State → CmdEnd} {t : State} {bad : Prop} [Decidable bad] {refused : CmdEnd}
    (ht : cmdTurn s fn code = true) (hf : f s = if bad then refused else .done t stOk 0) (hok : ¬bad) :
    vfCmd fn code f s = .next (finishCmd t fn stOk 0) :=
  vfCmd_done hfn hp ht (hf.trans (if_neg hok))

theorem execQdesc_done {t : State} {st r : Nat} (ht : cmdTurn s fn 0x01 = true)
    (hq : cmdOp s fn 0 < 2 ^ (s.vf fn).j ∧ cmdOp s fn 1 < 128)
    (hc : let sl := (s.vf fn).first + cmdOp s fn 0
      let old := queueOf s sl (cmdOp s fn 1)
      captureQueue s sl (cmdOp s fn 1) old (old.write (s.rdMemN (hostKey (cmdOp s fn 2)) 64)) = .done t st r) :
    execQdesc fn s = .next (finishCmd t fn st (BitVec.ofNat 64 r)) :=
  vfCmd_done hfn hp ht ((if_neg (by simpa using hq)).trans hc)

theorem execQreset_ok (ht : cmdTurn s fn 0x02 = true) (hq : cmdOp s fn 0 < 2 ^ (s.vf fn).j ∧ cmdOp s fn 1 < 128) :
    execQreset fn s =
      .next (finishCmd (resetQueue s ((s.vf fn).first + cmdOp s fn 0) (cmdOp s fn 1)) fn stOk 0) :=
  vfCmd_ok hfn hp ht rfl (by simpa using hq)

theorem execIntf_ok (ht : cmdTurn s fn 0x08 = true) (hi : cmdOp s fn 0 < 64) (hpasid : cmdOp s fn 1 < 2 ^ 20) :
    let ctx := intfCtx fn (cmdOp s fn 0)
    let t := { s with ctxs := s.ctxs.filter fun c => c.id ≠ ctx }
    execIntf fn s = .next (finishCmd
      (if cmdOp s fn 1 = 0 then t
       else t.setCtx { id := ctx, pasid := BitVec.ofNat 20 (cmdOp s fn 1), frozen := (t.vf fn).frozen }) fn stOk 0) :=
  vfCmd_ok hfn hp ht rfl (by simp; omega)

theorem execZero_ok (ht : cmdTurn s fn 0x1B = true) (hb : cmdOp s fn 0 % 2 ^ 16 = 0) (hn : cmdOp s fn 1 % 2 ^ 16 = 0)
    (hend : cmdOp s fn 0 + cmdOp s fn 1 ≤ s.partBytes fn) :
    execZero fn s = .next (finishCmd
      (zeroRange s (memKey fn (cmdOp s fn 0)) (memKey fn (cmdOp s fn 0) + cmdOp s fn 1)) fn stOk 0) :=
  vfCmd_ok hfn hp ht rfl (by simp; omega)

/-! ### Commands over an interface in use -/

section Interface

variable (hknown : cmdOp s fn 0 < 64 ∧ inUse s (intfCtx fn (cmdOp s fn 0)) = true)
include hknown

theorem execXblock_ok (ht : cmdTurn s fn 0x03 = true)
    (hroot : (xblockOf (s.rdMemN (hostKey (cmdOp s fn 1)) 64)).root.toNat % 4096 = 0) :
    let ctx := intfCtx fn (cmdOp s fn 0)
    execXblock fn s = .next (finishCmd (refreshWindow
      (s.setCtx { s.ctx ctx with xb := xblockOf (s.rdMemN (hostKey (cmdOp s fn 1)) 64) }) ctx) fn stOk 0) :=
  vfCmd_ok hfn hp ht rfl (by simpa [hknown] using hroot)

theorem execSblock_ok (ht : cmdTurn s fn 0x04 = true) {b : SBlock} (hb : sblockOf (s.rdMemN (hostKey (cmdOp s fn 1)) 64) = b)
    (hsump : b.sump.toNat % 2 ^ 21 = 0) (hhscr : b.hscr.toNat % 4096 = 0) (hslots : b.nslot.toNat ≤ 1024) :
    let ctx := intfCtx fn (cmdOp s fn 0)
    execSblock fn s = .next (finishCmd (s.setCtx { s.ctx ctx with sb := b }) fn stOk 0) := by
  subst hb
  exact vfCmd_ok hfn hp ht rfl (by simp [hknown]; omega)

theorem execShoot_ok (ht : cmdTurn s fn 0x05 = true) :
    execShoot fn s = .next (finishCmd
      (shootDown s (intfCtx fn (cmdOp s fn 0)) (cmdOp s fn 1 % 2 ^ 57) (cmdOp s fn 2)) fn stOk 0) :=
  vfCmd_ok hfn hp ht rfl (by simp [hknown])

theorem execQuota_ok (ht : cmdTurn s fn 0x07 = true)
    (hsum : ((s.ctxs.filter fun c => c.id / 64 = fn && c.id ≠ intfCtx fn (cmdOp s fn 0)).map fun c => c.quota).sum
      + cmdOp s fn 1 ≤ 65536) :
    execQuota fn s = .next (finishCmd
      (s.setCtx { s.ctx (intfCtx fn (cmdOp s fn 0)) with quota := cmdOp s fn 1 }) fn stOk 0) :=
  vfCmd_ok hfn hp ht rfl (by simpa [hknown] using hsum)

theorem execWays_ok (ht : cmdTurn s fn 0x15 = true) (hrel : cmdOp s fn 1 < 2 ^ (s.vf fn).j) (hm : cmdOp s fn 2 ≠ 0)
    (hm16 : cmdOp s fn 2 < 2 ^ 16) :
    let x := s.ctx (intfCtx fn (cmdOp s fn 0))
    execWays fn s = .next (finishCmd (s.setCtx { x with
      ways := SMap.set (BitVec.allOnes 16) x.ways (cmdOp s fn 1) (BitVec.ofNat 16 (cmdOp s fn 2)) }) fn stOk 0) :=
  vfCmd_ok hfn hp ht rfl (by simp [hknown, hrel, hm, show cmdOp s fn 2 < 65536 from hm16])

end Interface

end Commands

/-- Settles O55: each register by the lemma of its write or read, each command by the lemma that says what it comes to. -/
theorem mailboxCommands : Obligations.MailboxCommands := by
  constructor
  · intro fn i v s hfn m went
    refine ⟨mailboxWrite_code_tag hfn, mailboxWrite_operand hfn, mailboxWrite_acknowledgement hfn, mailboxWrite_event_tail hfn, ?go,
      rfl, rfl, mailboxRead_operand, rfl, rfl, rfl, fun _ => mailboxWrite_reserved, mailboxWrite_go_ignored hfn⟩
    case go =>
      intro hgo hidle
      exact ⟨mailboxWrite_go_unanswered hfn hgo hidle,
        fun ha hpart => ⟨mailboxWrite_go_known hfn hgo hidle hpart, mailboxWrite_go_unknown hfn hgo hidle ha hpart⟩,
        mailboxWrite_go_without_partition hfn hgo hidle⟩
  · intro fn s hfn hp
    exact ⟨fun _ _ _ => execQdesc_done hfn hp, execQreset_ok hfn hp, fun ht hknown => execXblock_ok hfn hp hknown ht,
      fun ht hknown => execSblock_ok hfn hp hknown ht rfl, fun ht hknown => execShoot_ok hfn hp hknown ht,
      fun ht hknown => execQuota_ok hfn hp hknown ht, execIntf_ok hfn hp, fun ht hknown => execWays_ok hfn hp hknown ht,
      execZero_ok hfn hp, execQreset_not_in_turn⟩

end Sys2Proof.Machine
end

section
/-! The special registers and the counters: when SLEEP waits and when it goes on (R184), what QUERY and MOVSR answer (R21, R72),
and the modes that may write a special register or a counter (R358, R374, R375). -/

namespace Sys2Proof.Machine

section Special

variable {w : Bool} {d a : SReg} {s : State}

/-! ## SLEEP -/

theorem execSleep_of_zero (ha : s.g.rdS s.tick a = 0) : execSleep w a s = .next (s.endC w 4) :=
  if_pos (by simp [ha])

theorem execSleep_of_ended {e : Nat} (he : s.g.sleepEnd = some e) (hpast : e ≤ s.now) :
    execSleep w a s = .next (s.endC w 4) :=
  if_pos (by simp [he, hpast])

theorem execSleep_of_begun (ha : s.g.rdS s.tick a ≠ 0) (hnone : s.g.sleepEnd = none) :
    execSleep w a s =
      .next ((s.mapG fun g => { g with sleepEnd := some (s.now + (s.g.rdS s.tick a).toNat) }).parkC .sleep) := by
  have hpos : (s.g.rdS s.tick a).toNat ≠ 0 := by simpa [BitVec.toNat_eq] using ha
  have hahead : ¬s.now + (s.g.rdS s.tick a).toNat ≤ s.now := by omega
  simp [execSleep, hnone, hpos, hahead]

/-! ## QUERY and the special registers -/

/-- The upper half of a word is 0 exactly where its value fits in the lower half. -/
theorem upperHalf_eq_zero_iff (x : Word) : x.extractLsb' 16 16 = 0 ↔ x.toNat < 2 ^ 16 := by
  rw [BitVec.toNat_eq, BitVec.extractLsb'_toNat, Nat.shiftRight_eq_div_pow]
  change x.toNat / 2 ^ 16 % 2 ^ 16 = 0 ↔ _
  have := x.isLt
  omega

theorem execQuery_leaf (ha : (s.g.rdS s.tick a).toNat < 2 ^ 16) :
    execQuery w d a s = .next ((s.mapG fun g =>
      g.wrS d (queryLeaf s ((s.g.rdS s.tick a).toNat % 256) ((s.g.rdS s.tick a).toNat / 256))).endC w 4) := by
  have harg : (s.g.rdS s.tick a).toNat / 256 % 256 = (s.g.rdS s.tick a).toNat / 256 := by omega
  simp only [execQuery, if_neg (not_not.mpr ((upperHalf_eq_zero_iff _).mpr ha)), harg]

theorem execQuery_no_leaf (ha : 2 ^ 16 ≤ (s.g.rdS s.tick a).toNat) :
    execQuery w d a s = .next ((s.mapG fun g => g.wrS d 0).endC w 4) := by
  have hupper : (s.g.rdS s.tick a).extractLsb' 16 16 ≠ 0 := by
    rw [Ne, upperHalf_eq_zero_iff]
    omega
  simp only [execQuery, if_pos hupper]

theorem execMovsr_readable {i : BitVec 12} {v : Word} (hr : readSpecial s i.toNat none = some v) :
    execMovsr w d i s = .next ((s.mapG fun g => g.wrS d v).endC w 4) := by
  simp [execMovsr, hr]

theorem execMovsw_writable {i : BitVec 12} {t : State} (hw : writeSpecial s i.toNat (s.g.rdS s.tick a) = some t) :
    execMovsw w a i s = .next (t.endC w 4) := by
  simp [execMovsw, hw]

theorem execMovsw_illegal {i : BitVec 12} (hw : writeSpecial s i.toNat (s.g.rdS s.tick a) = none) :
    execMovsw w a i s = illegalC s := by
  simp [execMovsw, hw]

/-- R374: in every mode, a write of gsr clears the flags that stand in the value. -/
theorem writeSpecial_gsr (v : Word) :
    writeSpecial s 0x010 v = some (s.mapG fun g => { g with gsr := g.gsr &&& ~~~(v.setWidth 10) }) := rfl

/-! ## Counters -/

theorem isController_iff : isController s = true ↔ s.g.mode = .slice ∨ s.g.mode = .device := by
  simp [isController]

/-- R375: user mode reads counters where its context may; the other modes always do. -/
theorem mayCount_iff : mayCount s = true ↔ s.g.mode ≠ .user ∨ s.gctx.ucnt = true := by
  unfold mayCount
  cases s.g.mode <;> simp

variable {n : BitVec 5}

theorem execPcntRd_counted (hm : s.g.mode ≠ .user ∨ s.gctx.ucnt = true) (hfree : countsFree s n.toNat = false) :
    execPcntRd w a n s = .next ((s.mapG fun g => g.wrP a (SMap.get 0 s.gctx.cnt n.toNat)).endC w 4) := by
  simp [execPcntRd, mayCount_iff.mpr hm, hfree]

theorem execPcntRd_illegal (hm : s.g.mode = .user) (hu : s.gctx.ucnt = false) : execPcntRd w a n s = illegalC s :=
  if_neg (by simp [mayCount_iff, hm, hu])

theorem execPcntWr_controller (hc : s.g.mode = .slice ∨ s.g.mode = .device) :
    execPcntWr w a n s =
      .next ((s.setCtx { s.gctx with cnt := SMap.set 0 s.gctx.cnt n.toNat (s.g.rdP s.tick a) }).endC w 4) :=
  if_pos (isController_iff.mpr hc)

theorem execPcntWr_illegal (hc : ¬(s.g.mode = .slice ∨ s.g.mode = .device)) : execPcntWr w a n s = illegalC s :=
  if_neg (mt isController_iff.mp hc)

theorem execPcntSel_controller (hc : s.g.mode = .slice ∨ s.g.mode = .device) (hcode : (s.g.rdS s.tick a).toNat ≤ 0x15) :
    execPcntSel w a n s =
      .next ((s.setCtx { s.gctx with
        sel := SMap.set 0 s.gctx.sel n.toNat ((s.g.rdS s.tick a).extractLsb' 0 8) }).endC w 4) :=
  if_pos (by simp [isController_iff.mpr hc, hcode])

theorem execPcntSel_illegal (hc : ¬(s.g.mode = .slice ∨ s.g.mode = .device)) : execPcntSel w a n s = illegalC s :=
  if_neg (by simp [mt isController_iff.mp hc])

end Special

/-- Settles O21: NOP and CLOCK are their definitions; each other word, in each case of its mode and operands, has its lemma. -/
theorem specialRegisters : Obligations.SpecialRegisters := by
  constructor
  · intro w d a s A
    exact ⟨rfl, execSleep_of_zero, fun _ => execSleep_of_ended, execSleep_of_begun, rfl, rfl, execQuery_leaf, execQuery_no_leaf,
      fun _ _ => execMovsr_readable⟩
  · intro w a i n s A illegal controller
    refine ⟨fun _ => execMovsw_writable, execMovsw_illegal, ?gsr, execPcntRd_counted, execPcntRd_illegal, execPcntWr_controller,
      execPcntSel_controller, fun hc => ⟨execPcntWr_illegal hc, execPcntSel_illegal hc⟩⟩
    case gsr =>
      rintro _ hi rfl
      exact execMovsw_writable (hi ▸ writeSpecial_gsr A)

end Sys2Proof.Machine
end

section
/-! Where the machine and a group stand before anything has run: the registers of a group to which nothing has been written
(R34, R67), and the team and the groups that the start of a team adds (R27, R28, R116). -/

namespace Sys2Proof.Machine

/-! ## Registers that nothing has written -/

/-- R34: a group in user mode to whose registers nothing has been written, and to which no result is on its way. -/
structure Group.Unwritten (g : Group) : Prop where
  mode : g.mode = .user
  s    : g.s = []
  q    : g.q = 1
  v    : g.v = []
  m    : g.m = []
  tr   : g.tr = []
  pend : g.pend = []

namespace Group.Unwritten

variable {g : Group} (h : g.Unwritten)
include h

theorem undrained (key : Nat) : g.undrained key = false := by simp [Group.undrained, h.pend]

theorem inHandler : g.inHandler = false := by simp [Group.inHandler, h.mode]

theorem rdS (tick : Nat) (i : SReg) : g.rdS tick i = 0 := by
  have hi : i.toNat < 64 := i.isLt
  simp [Group.rdS, h.undrained, Group.sKey, h.inHandler, Group.sVal, hi, h.s, SMap.get]

theorem rdQ (tick : Nat) (i : QReg) : g.rdQ tick i = decide (i = 0) := by
  have hkey : g.qKey i.toNat = 256 + i.toNat := by simp [Group.qKey, h.inHandler]
  have hi : i.toNat < 8 := i.isLt
  have hbit : ∀ i : QReg, i ≠ 0 → (1 : BitVec 8).getLsbD i.toNat = false := by decide
  by_cases h0 : i = 0
  · simp [Group.rdQ, h0]
  · simp only [Group.rdQ, h.undrained, hkey, h.q, hbit i h0, h0]
    simp
    omega

theorem rdV (tick r l : Nat) : g.rdV tick r l = 0 := by simp [Group.rdV, h.undrained, h.v, SMap.get]

theorem rdM (tick i : Nat) : g.rdM tick i = mDefault i := by
  have hfold : ∀ (ls : List Nat) (w : Word), ls.foldl (fun acc l =>
      if g.undrained (g.mKey i l) then setBit32 acc l ((Config.unpredictable tick (g.mKey i l)).getLsbD 0) else acc) w = w := by
    intro ls
    induction ls with
    | nil => exact fun _ => rfl
    | cons l ls ih => exact fun w => by simp [h.undrained]
  by_cases h0 : i = 0
  · simp [Group.rdM, h0, mDefault]
  · simp only [Group.rdM, if_neg h0, hfold, h.m, SMap.get]

theorem rdM_ones (tick i : Nat) (hi : i < 15) : g.rdM tick i = 0xFFFFFFFF := by
  rw [h.rdM, mDefault, if_neg (by omega)]; rfl

theorem rdT (i : Nat) : g.rdT i = {} := by simp [Group.rdT, h.inHandler, h.tr, SMap.get]

end Group.Unwritten

/-! ## The start of a team -/

/-- Writing each key of a list its own value. -/
theorem SMap.get_foldl_set {β : Type} [DecidableEq β] (d : β) (f : Nat → β) (ks : List Nat) (m : SMap β) (j : Nat) :
    SMap.get d (ks.foldl (fun m k => SMap.set d m k (f k)) m) j = if j ∈ ks then f j else SMap.get d m j := by
  induction ks generalizing m with
  | nil => simp
  | cons k ks ih =>
    rw [List.foldl_cons, ih, SMap.get_set]
    by_cases hj : j = k
    · simp [hj]
    · simp [hj]

/-- R116: the counter of a lane at the start of its group. -/
theorem startCtr_toNat (gid lin n : Nat) (hg : gid < 16) (hn : n < 32) :
    (SMap.get 0 (startCtr gid lin) n).toNat = n * 2 ^ 32 + gid * 2 ^ 37 + lin % 2 ^ 32 * 2 ^ 64 := by
  have hlin : lin % 2 ^ 32 < 2 ^ 32 := Nat.mod_lt _ (by decide)
  rw [startCtr, SMap.get_foldl_set, if_pos (List.mem_range.2 hn), BitVec.toNat_ofNat]
  exact Nat.mod_eq_of_lt (by omega)

/-- R27: the role and the budget of each group of a launch, in the order of their numbers. -/
def startRoles (l : Launch) : List (Nat × Nat) :=
  (List.zip (List.range l.roles.length) l.roles).flatMap fun r => List.replicate r.2.1 (r.1, r.2.2)

/-- A launch has as many groups as its roles name. -/
theorem startRoles_length (l : Launch) : (startRoles l).length = (l.roles.map fun r => r.1).sum := by
  have hsnd : (List.zip (List.range l.roles.length) l.roles).map (fun r => r.2) = l.roles :=
    List.map_snd_zip (by simp)
  rw [startRoles, List.length_flatMap]
  conv_rhs => rw [← hsnd, List.map_map]
  simp [Function.comp_def]

/-- R34: group i of a launch as its team starts, with its role and budget. -/
def Launch.startGroup (l : Launch) (ctx lin uid clk : Nat) (slots : List Nat) (i : Nat) (r : Nat × Nat) : Group :=
  { uid := uid + 1 + i, live := true, ctx := ctx, team := uid, gid := BitVec.ofNat 4 i, role := BitVec.ofNat 2 r.1,
    budget := r.2, slot := slots.getD i 0, pc := l.entry, srCtr := startCtr i lin, lastC := clk }

/-- R34: nothing has been written to the registers of a group that starts. -/
theorem Launch.startGroup_unwritten (l : Launch) (ctx lin uid clk : Nat) (slots : List Nat) (i : Nat) (r : Nat × Nat) :
    (l.startGroup ctx lin uid clk slots i r).Unwritten := ⟨rfl, rfl, rfl, rfl, rfl, rfl, rfl⟩

/-- R275: the wake of a roof domain touches no group and no team. -/
theorem wakeRoofFor_resident (s : State) (p at_ : Nat) :
    (wakeRoofFor s p at_).1.allGroups = s.allGroups ∧ (wakeRoofFor s p at_).1.allTeams = s.allTeams := by
  unfold wakeRoofFor wakeRoof
  split
  · dsimp only
    split <;> exact ⟨rfl, rfl⟩
  · exact ⟨rfl, rfl⟩

section StartTeam

variable {s : State} {l : Launch} {ctx card addr lin p at_ : Nat} {q : Nat × Nat} {chain : Bool}

/-- R28: a group that is there after the start of a team was there before, or is one of the launch's. -/
theorem mem_startTeam_groups {g : Group} (hg : g ∈ (startTeam s l ctx card addr lin p at_ q chain).allGroups)
    (hnew : g ∉ (dropRemains s p).allGroups) :
    ∃ uid clk slots i r, i < (l.roles.map fun r => r.1).sum ∧ g = l.startGroup ctx lin uid clk slots i r := by
  let w := (wakeRoofFor (startAcquire (dropRemains s p) p) p at_).1
  have hw : w.allGroups = (dropRemains s p).allGroups := (wakeRoofFor_resident _ p at_).1
  have hall : (startTeam s l ctx card addr lin p at_ q chain).allGroups =
      w.allGroups ++ (startRoles l).mapIdx (l.startGroup ctx lin s.nextId w.clk (freeSlots w p l.ngrp)) := rfl
  rw [hall, hw, List.mem_append] at hg
  obtain ⟨i, hi, rfl⟩ := List.mem_mapIdx.1 (hg.resolve_left hnew)
  exact ⟨_, _, _, i, _, startRoles_length l ▸ hi, rfl⟩

/-- R28: a team that is there after the start of a team was there before, or is the one that starts. -/
theorem mem_startTeam_teams {t : Team} (ht : t ∈ (startTeam s l ctx card addr lin p at_ q chain).allTeams)
    (hnew : t ∉ (dropRemains s p).allTeams) :
    t.live = true ∧ t.lin = lin ∧ t.sp = [] ∧ t.emptyL = [] ∧ t.chans = [] ∧ t.wsize = l.smem := by
  let w := (wakeRoofFor (startAcquire (dropRemains s p) p) p at_).1
  have hw : w.allTeams = (dropRemains s p).allTeams := (wakeRoofFor_resident _ p at_).2
  obtain ⟨t', hall, ht'⟩ : ∃ t', (startTeam s l ctx card addr lin p at_ q chain).allTeams = w.allTeams ++ [t']
      ∧ (t'.live = true ∧ t'.lin = lin ∧ t'.sp = [] ∧ t'.emptyL = [] ∧ t'.chans = [] ∧ t'.wsize = l.smem) :=
    ⟨_, rfl, rfl, rfl, rfl, rfl, rfl, rfl⟩
  rw [hall, hw, List.mem_append, List.mem_singleton] at ht
  exact ht.resolve_left hnew ▸ ht'

end StartTeam

/-! ## The device after bring-up -/

theorem reset_unwritten : State.reset.g.Unwritten := ⟨rfl, rfl, rfl, rfl, rfl, rfl, rfl⟩

theorem reset_peerOf (k : Nat) : State.reset.peerOf k = none := by simp [State.peerOf, State.reset]

/-- R478: every byte reads 0. -/
theorem reset_rdMem (k : Nat) : State.reset.rdMem k = 0 := by
  simp only [State.rdMem, reset_peerOf]
  simp [State.reset, SMap.get]

/-- R478: no sector is poisoned. -/
theorem reset_poisoned (k n : Nat) : State.reset.poisoned k n = false := by
  have hnone : State.reset.poison = [] := rfl
  simp [State.poisoned, State.lostPeer, reset_peerOf, hnone]

/-- Settles O6: after bring-up no unit is listed, so each reads as its default; a new group is one of the launch's, to whose
registers nothing has been written. -/
theorem startStates : Obligations.StartStates := by
  constructor
  · have hg := reset_unwritten
    exact ⟨rfl, rfl, rfl, rfl, fun k _ => reset_rdMem k, reset_poisoned, ⟨rfl, rfl⟩, fun _ => rfl, rfl, rfl, rfl, rfl, rfl, rfl,
      fun _ => ⟨rfl, rfl, rfl, rfl, rfl, rfl, rfl⟩, fun _ => ⟨rfl, rfl, rfl, rfl⟩, fun _ => ⟨rfl, rfl, rfl, rfl⟩, hg.rdS, hg.rdQ,
      hg.rdM_ones, fun tick => hg.rdM tick 15, hg.rdV, rfl, rfl, rfl⟩
  · intro s l ctx card addr lin p at_ q chain hroles u
    refine ⟨fun g hg hnew => ?group, fun t => mem_startTeam_teams⟩
    case group =>
      obtain ⟨uid, clk, slots, i, r, hi, rfl⟩ := mem_startTeam_groups hg hnew
      have hw := l.startGroup_unwritten ctx lin uid clk slots i r
      have hgid : (l.startGroup ctx lin uid clk slots i r).gid.toNat = i :=
        (BitVec.toNat_ofNat i 4).trans (Nat.mod_eq_of_lt (by omega))
      refine ⟨rfl, rfl, rfl, rfl, rfl, rfl, rfl, hw.rdS, hw.rdQ, hw.rdV, hw.rdM_ones, fun tick => hw.rdM tick 15, rfl, hw.rdT,
        rfl, rfl, rfl, rfl, rfl, rfl, rfl, rfl, fun n hn => ?_⟩
      rw [hgid]
      exact startCtr_toNat i lin n (by omega) hn

end Sys2Proof.Machine
end

section
/-! What taking a fault leaves of the group in user mode, with a handler (R361) and without one (R359, R404), and the two words whose
own effect is a fault (R81, R195). -/

namespace Sys2Proof.Machine

/-! ## Contexts and their counters -/

/-- The unit of a number once a unit is replaced or listed. -/
theorem find?_upsert {α : Type} (id : α → Nat) (x : α) (us : List α) (k : Nat) :
    (upsert (fun u => id u = id x) x us).find? (fun u => id u = k) = if k = id x then some x else us.find? fun u => id u = k := by
  induction us with
  | nil => by_cases hk : k = id x <;> simp [upsert, hk, Ne.symm]
  | cons u us ih =>
    by_cases hu : id u = id x
    · by_cases hk : k = id x
      · simp [upsert, hu, hk]
      · simp [upsert, hu, hk, Ne.symm hk]
    · by_cases hk : id u = k
      · simp [upsert, hk, show k ≠ id x from hk ▸ hu]
      · simp only [upsert, hu, decide_false, Bool.false_eq_true, if_false, List.find?_cons, hk, ih]

theorem State.ctx_setCtx (s : State) (x : Ctx) (k : Nat) : (s.setCtx x).ctx k = if k = x.id then x else s.ctx k := by
  simp only [State.ctx, State.setCtx, find?_upsert Ctx.id]
  split <;> rfl

/-- A context has the number it is found by. -/
theorem State.ctx_id (s : State) (k : Nat) : (s.ctx k).id = k := by
  unfold State.ctx
  cases h : s.ctxs.find? fun c => c.id = k with
  | none => rfl
  | some c => simpa using List.find?_some h

/-- R361, R450: counting an event leaves the handler's address of every context. -/
theorem State.countEvent_hvec (s : State) (c : Nat) (ev : Byte) (n k : Nat) : ((s.countEvent c ev n).ctx k).hvec = (s.ctx k).hvec := by
  have bump (s : State) (i : Nat) : ((s.bumpCounter c i n).ctx k).hvec = (s.ctx k).hvec := by
    simp only [State.bumpCounter, State.ctx_setCtx, State.ctx_id]
    split
    · next h => rw [h]
    · rfl
  have fold (is : List Nat) : ∀ s : State, ((is.foldl (fun s i => s.bumpCounter c i n) s).ctx k).hvec = (s.ctx k).hvec := by
    induction is with
    | nil => exact fun _ => rfl
    | cons i is ih => exact fun s => (ih _).trans (bump s i)
  simp only [State.countEvent]
  split
  · rfl
  · exact fold _ s

/-! ## Entering the handler -/

variable {s : State} {f : FaultInfo} {chans : List Word}

theorem hasHandler_iff : hasHandler s = true ↔ s.gctx.hvec.getLsbD 0 = true ∧ s.gctx.sb.hscr ≠ 0 := by
  simp [hasHandler]

/-- R365: the cause of a fault holds its code in the low byte. -/
theorem FaultInfo.cause_code (f : FaultInfo) : f.cause.extractLsb' 0 8 = f.code := by
  unfold FaultInfo.cause
  rw [extract_append_lo _ _ 0 8 (by decide), BitVec.extractLsb'_eq_self]

/-- R361: writing the head of the scratch area and counting the entry leave the group and its handler's address. -/
theorem writeScratch_counted :
    (writeScratch (s.countEvent s.g.ctx 0x0E 1)).g = s.g ∧ (writeScratch (s.countEvent s.g.ctx 0x0E 1)).gctx.hvec = s.gctx.hvec := by
  have hg : (writeScratch (s.countEvent s.g.ctx 0x0E 1)).g = s.g := by
    rw [writeScratch, State.memWrite_g, State.countEvent_g]
  have hctx (k : Nat) : (writeScratch (s.countEvent s.g.ctx 0x0E 1)).ctx k = (s.countEvent s.g.ctx 0x0E 1).ctx k := by
    simp only [State.ctx, writeScratch, State.memWrite_ctxs]
  exact ⟨hg, by rw [State.gctx, hg, hctx, State.countEvent_hvec, State.gctx]⟩

/-- R361: where the group stands at handler entry: the handler's pc, the user's pc kept, nothing in the handler's lane queue. -/
theorem enterHandler_place :
    (enterHandler s f).g.pc = s.gctx.hvec &&& ~~~3#64 ∧ (enterHandler s f).g.upc = s.g.pc ∧ (enterHandler s f).g.hlaneq = []
      ∧ (enterHandler s f).g.hsplits = [] := by
  obtain ⟨hg, hvec⟩ := writeScratch_counted (s := s)
  simp only [enterHandler, State.mapG_g, hg, hvec, and_self]

/-- R359, R361: a fault in user mode with a handler enters it. -/
theorem takeFault_enters (hmode : s.g.mode = .user) (hhas : hasHandler s = true) :
    let t := takeFault s f chans
    t.g.mode = .handler ∧ t.g.pc = s.gctx.hvec &&& ~~~3#64 ∧ t.g.hs = f.hsRegs ∧ t.g.upc = s.g.pc ∧ t.g.hb = [] ∧ t.g.hq7 = false
      ∧ t.g.hlaneq = [] ∧ t.g.hsplits = [] ∧ t.g.s = s.g.s ∧ t.g.v = s.g.v := by
  obtain ⟨hhs, -, hm, hhb, hq7, -, hs, hv, -⟩ := enterHandler_regs s f
  obtain ⟨hpc, hupc, hlaneq, hsplits⟩ := enterHandler_place (s := s) (f := f)
  rw [takeFault_user s f chans hmode, if_pos hhas]
  simp only [State.mapG_g, FaultInfo.hsRegs, hm, hpc, hhs, hupc, hhb, hq7, hlaneq, hsplits, hs, hv, and_self]

/-! ## The group without a handler -/

theorem Group.mapSplit_mode (g : Group) (i : Nat) (f : Split → Split) : (g.mapSplit i f).mode = g.mode :=
  congrArg Prod.fst (g.mapSplit_bank i f)

/-- R359, R360: a group that is frozen keeps its mode. -/
theorem freezeGroup_mode (code : Byte) : (freezeGroup s f chans code).g.mode = s.g.mode := by
  have hmark (u : State) : (markRedo u f chans).g.mode = u.g.mode := by
    unfold markRedo
    split_ifs <;> simp [Group.mapSplit_mode]
  have hkept : (if code = 0x40 then s.mapG fun g => { g with hs := f.hsRegs } else s).g.mode = s.g.mode := by
    split <;> rfl
  calc (freezeGroup s f chans code).g.mode
      = (markRedo (if code = 0x40 then s.mapG fun g => { g with hs := f.hsRegs } else s) f chans).g.mode := by
        show (if f.src = 0 then _ else _ : Group).mode = _
        split <;> rfl
    _ = s.g.mode := (hmark _).trans hkept

/-- R359, R404: a fault in user mode without a handler, or without handler scratch, freezes the group in user mode. -/
theorem takeFault_unhandled (hmode : s.g.mode = .user) (hnone : hasHandler s = false) :
    (takeFault s f chans).g.frozen = true ∧ (takeFault s f chans).g.mode = .user := by
  rw [takeFault_user s f chans hmode, if_neg (by simp [hnone])]
  exact ⟨freezeGroup_frozen s f chans 0x40, (freezeGroup_mode 0x40).trans hmode⟩

/-! ## TRAP and the illegal word -/

/-- R195, R361: TRAP in user mode with a handler enters it. -/
theorem trap_handled (w : Bool) (c : BitVec 12) (hmode : s.g.mode = .user) (hvec : s.gctx.hvec.getLsbD 0 = true)
    (hscr : s.gctx.sb.hscr ≠ 0) : ∃ t, exec (.trap w c) s = .next t
      ∧ t.g.mode = .handler ∧ t.g.pc = s.gctx.hvec &&& ~~~3#64 ∧ t.g.hs.pc = s.g.pc ∧ t.g.hs.addr = 0
      ∧ t.g.hs.cause.extractLsb' 0 8 = 0x08 ∧ t.g.upc = s.g.pc ∧ t.g.hb = [] ∧ t.g.hq7 = false
      ∧ t.g.hlaneq = [] ∧ t.g.hsplits = [] ∧ t.g.s = s.g.s ∧ t.g.v = s.g.v := by
  obtain ⟨hm, hpc, hhs, hplace⟩ := takeFault_enters (f := { code := 0x08, tcode := c, pc := s.g.pc }) (chans := []) hmode
    (hasHandler_iff.mpr ⟨hvec, hscr⟩)
  exact ⟨_, rfl, hm, hpc, by rw [hhs]; rfl, by rw [hhs]; rfl, by rw [hhs]; exact FaultInfo.cause_code _, hplace⟩

/-- R195, R359, R404: TRAP in user mode without a handler freezes the group. -/
theorem trap_unhandled (w : Bool) (c : BitVec 12) (hmode : s.g.mode = .user)
    (hnone : s.gctx.hvec.getLsbD 0 = false ∨ s.gctx.sb.hscr = 0) :
    ∃ t, exec (.trap w c) s = .next t ∧ t.g.frozen = true ∧ t.g.mode = .user := by
  have hno : hasHandler s = false := by
    rw [← Bool.not_eq_true, hasHandler_iff, not_and_or, not_not, Bool.not_eq_true]
    exact hnone
  exact ⟨_, rfl, takeFault_unhandled hmode hno⟩

/-- R81: an illegal lane word faults every lane of its split. -/
theorem illegalLane_faults {sp : Split} (hsp : s.g.split? s.g.curSplit = some sp) :
    exec (.illegalInstruction true) s =
      .next (takeFault s (laneFaultInfo sp 1 0 sp.mask ((lanesOf sp.mask).map fun l => (l, (1, 0)))) []) := by
  change execIllegalInstruction true s = _
  simp only [execIllegalInstruction, if_true, hsp]
  rfl

/-- Settles O23: TRAP and the illegal word are faults by definition; what the fault does is what taking it in user mode does. -/
theorem trapAndIllegal : Obligations.TrapAndIllegal := by
  intro w c s
  exact ⟨rfl, rfl, fun _ => illegalLane_faults, trap_handled w c, trap_unhandled w c⟩

end Sys2Proof.Machine
end

section
/-! The words of a group that wait for one another: the dispatch of lane blocks and the channels (R35–R38, R199–R201), and the
fences and barriers of a team and of a grid (R52, R141, R202, R205). -/

namespace Sys2Proof.Machine

variable {w : Bool} {s : State}

/-! ## Lane blocks -/

theorem queueDepth_eq (g : Group) : queueDepth g = if g.mode = .handler then 1 else 8 := by simp [queueDepth, Group.inHandler]

theorem blocksDone_iff (g : Group) : blocksDone g = true ↔ g.curQueue = [] := List.isEmpty_iff

section Blocks

variable {a : SReg} {i : BitVec 19}

theorem execLrun_room (h : s.g.curQueue.length < if s.g.mode = .handler then 1 else 8) :
    execLrun w a i s = .next ((s.mapG fun g =>
      g.setQueue (g.curQueue ++ [{ addr := s.g.rdS s.tick a + i.setWidth 32, caps := captureT s.g }])).endC w 4) :=
  if_neg (by rw [queueDepth_eq]; omega)

theorem execLrun_full (h : (if s.g.mode = .handler then 1 else 8) ≤ s.g.curQueue.length) :
    execLrun w a i s = .next (s.parkC .lrun) :=
  if_pos (by rwa [queueDepth_eq])

theorem execLwait_done (h : s.g.curQueue = []) : execLwait w s = .next (s.endC w 4) := if_pos ((blocksDone_iff _).mpr h)

theorem execLwait_waits (h : s.g.curQueue ≠ []) : execLwait w s = .next (s.parkC .lwait) :=
  if_neg (mt (blocksDone_iff _).mp h)

theorem execBlockStart_starts {b : Block} {bs : List Block} (hq : s.g.curQueue = b :: bs) (hs : s.g.curSplits = []) :
    execBlockStart s = .next (s.mapG fun g => g.setSplits [{ idx := 0, pc := b.addr, mask := blockMask g }]) := by
  simp only [execBlockStart, hq, hs]

end Blocks

/-! ## Channels -/

section Channels

variable {a b : SReg} {peek : Bool}

theorem execChsend_room (h : (chEntries s b.toNat).length < 8) :
    execChsend w a b s = .next ((setCh s b.toNat (chEntries s b.toNat ++ [s.g.rdS s.tick a])).endC w 4) :=
  if_pos (by simpa [chRoom] using h)

theorem execChsend_full (h : 8 ≤ (chEntries s b.toNat).length) : execChsend w a b s = .next (s.parkC .chsend) :=
  if_neg (by simpa [chRoom] using h)

theorem execChrecv_served {v : Word} (h : chHead s b.toNat s.tick = some v) :
    let s1 := if peek then s else setCh s b.toNat ((chEntries s b.toNat).drop 1)
    execChrecv w a b peek s = .next ((s1.mapG fun g =>
      g.addPend { strm := g.cStrm, dests := [{ key := s.g.sKey a.toNat, val := v }], seq := s1.tick }).endC w 4) := by
  simp only [execChrecv, h]
  rfl

theorem execChrecv_waits (h : chHead s b.toNat s.tick = none) :
    execChrecv w a b peek s = .next ((s.mapG fun g => g.addPend
      { strm := g.cStrm, dests := [{ key := s.g.sKey a.toNat, val := 0 }], recv := some (b.toNat, peek), seq := s.tick }).endC w 4) := by
  simp only [execChrecv, h]
  rfl

theorem execChstat_counts :
    let n := (chEntries s b.toNat).length
    execChstat w a b s = .next ((s.mapG fun g => g.wrS a (BitVec.ofNat 32 (n + 256 * (8 - n)))).endC w 4) := by
  simp only [execChstat, Nat.mul_comm]

end Channels

/-- Settles O24: each word, in each case of its queue or channel, has its lemma. -/
theorem dispatchAndChannels : Obligations.DispatchAndChannels := by
  constructor
  · intro w a i s room block
    exact ⟨execLrun_room, execLrun_full, execLwait_done, execLwait_waits, fun _ _ => execBlockStart_starts⟩
  · intro w peek a b s c es
    exact ⟨execChsend_room, execChsend_full, fun _ => execChrecv_served, execChrecv_waits, execChstat_counts⟩

/-! ## Fences and barriers -/

theorem afterLoads_performed {k : State → Res} (h : s.g.loadsDue = false) : afterLoads k s = k s := if_neg (by simp [h])

theorem afterLoads_due {k : State → Res} (h : s.g.loadsDue = true) : afterLoads k s = .next (s.parkC .again) := if_pos h

theorem execFence_performed {sc : Scope} {k : FenceKind} (h : s.g.loadsDue = false) :
    execFence w sc k s = .next ((s.fence k sc).endC w 4) := afterLoads_performed h

theorem execFence_due {sc : Scope} {k : FenceKind} (h : s.g.loadsDue = true) : execFence w sc k s = .next (s.parkC .again) :=
  afterLoads_due h

section Arrivals

variable {k : ParkKind} {f : Group → Group} {pre : State → State}

/-- R205: a group that has been counted is not counted again. -/
theorem arriveAt_counted (h : s.g.arrived = true) : arriveAt k f pre s = s := if_pos h

theorem arriveAt_arrives (h : s.g.arrived = false) (hq : s.g.curQueue = []) (hl : s.g.loadsDue = false) :
    arriveAt k f pre s = ((pre s).mapG fun g => { f g with arrived := true }).parkC k := by
  simp [arriveAt, h, (blocksDone_iff _).mpr hq, hl]

/-- R205: a group with blocks that run or loads that are due is not counted yet. -/
theorem arriveAt_waits (h : s.g.arrived = false) (hbusy : s.g.curQueue ≠ [] ∨ s.g.loadsDue = true) :
    arriveAt k f pre s = s.parkC k := by
  have hno : (blocksDone s.g && !s.g.loadsDue) = false := by
    rcases hbusy with hq | hl
    · simp [Bool.eq_false_iff.mpr (mt (blocksDone_iff _).mp hq)]
    · simp [hl]
  simp [arriveAt, h, hno]

end Arrivals

/-- R205: a group that arrives at its team's barrier is counted. -/
def teamArrived (s : State) : State := (s.mapG fun g => { g with barCnt := g.barCnt + 1, arrived := true }).parkC .teambar

/-- R205: a group that arrives at a grid's barrier has released at prt scope and is counted. -/
def gridArrived (s : State) : State :=
  ((s.fence .rel .prt).mapG fun g => { g with gridCnt := g.gridCnt + 1, arrived := true }).parkC .gridbar

theorem execTeambar_handler (hm : s.g.mode = .handler) : execTeambar w s = illegalC s := if_pos (by simp [Group.inHandler, hm])

theorem execGridbar_handler (hm : s.g.mode = .handler) : execGridbar w s = illegalC s := if_pos (by simp [Group.inHandler, hm])

/-- R52: GRIDBAR is illegal in a grid that is not co-resident. -/
theorem execGridbar_apart (hc : s.t.cores = false) : execGridbar w s = illegalC s := if_pos (by simp [hc])

section TeamBarrier

variable (hm : s.g.mode ≠ .handler)
include hm

/-- R205: outside handler mode TEAMBAR goes on once the group has been counted and every group of the team has. -/
theorem execTeambar_user : execTeambar w s =
    let u := arriveAt .teambar (fun g => { g with barCnt := g.barCnt + 1 }) id s
    if u.g.arrived && allReached u.teamGroups (·.barCnt) u.g.barCnt then .next (u.endC w 4) else .next u :=
  if_neg (by simp [Group.inHandler, hm])

theorem execTeambar_counted (h : s.g.arrived = true) :
    execTeambar w s = .next (if allReached s.teamGroups (·.barCnt) s.g.barCnt then s.endC w 4 else s) := by
  rw [execTeambar_user hm, arriveAt_counted h]
  cases hall : allReached s.teamGroups (·.barCnt) s.g.barCnt <;> simp [h, hall]

theorem execTeambar_waits (h : s.g.arrived = false) (hbusy : s.g.curQueue ≠ [] ∨ s.g.loadsDue = true) :
    execTeambar w s = .next (s.parkC .teambar) := by
  rw [execTeambar_user hm, arriveAt_waits h hbusy]
  exact if_neg (by simp [State.parkC, h])

section Last

variable (h : s.g.arrived = false) (hq : s.g.curQueue = []) (hl : s.g.loadsDue = false)
include h hq hl

theorem execTeambar_last (hall : allReached (teamArrived s).teamGroups (·.barCnt) (teamArrived s).g.barCnt = true) :
    execTeambar w s = .next ((teamArrived s).endC w 4) := by
  rw [execTeambar_user hm, arriveAt_arrives h hq hl]
  exact if_pos (by rw [Bool.and_eq_true]; exact ⟨rfl, hall⟩)

theorem execTeambar_early (hall : allReached (teamArrived s).teamGroups (·.barCnt) (teamArrived s).g.barCnt = false) :
    execTeambar w s = .next (teamArrived s) := by
  rw [execTeambar_user hm, arriveAt_arrives h hq hl]
  exact if_neg (by rw [Bool.and_eq_true]; exact fun hand => absurd hand.2 (Bool.eq_false_iff.mp hall))

end Last

end TeamBarrier

section GridBarrier

variable (hm : s.g.mode ≠ .handler) (hc : s.t.cores = true)
include hm hc

/-- R205: in a co-resident grid GRIDBAR goes on once the group has been counted and every group of the grid has. -/
theorem execGridbar_user : execGridbar w s =
    let u := arriveAt .gridbar (fun g => { g with gridCnt := g.gridCnt + 1 }) (fun s => s.fence .rel .prt) s
    if u.g.arrived && allReached (gridGroups u) (·.gridCnt) u.g.gridCnt then .next ((u.fence .acq .prt).endC w 4) else .next u :=
  if_neg (by simp [Group.inHandler, hm, hc])

theorem execGridbar_waits (h : s.g.arrived = false) (hbusy : s.g.curQueue ≠ [] ∨ s.g.loadsDue = true) :
    execGridbar w s = .next (s.parkC .gridbar) := by
  rw [execGridbar_user hm hc, arriveAt_waits h hbusy]
  exact if_neg (by simp [State.parkC, h])

theorem execGridbar_counted (h : s.g.arrived = true) (hall : allReached (gridGroups s) (·.gridCnt) s.g.gridCnt = true) :
    execGridbar w s = .next ((s.fence .acq .prt).endC w 4) := by
  rw [execGridbar_user hm hc, arriveAt_counted h]
  exact if_pos (by rw [Bool.and_eq_true]; exact ⟨h, hall⟩)

section Last

variable (h : s.g.arrived = false) (hq : s.g.curQueue = []) (hl : s.g.loadsDue = false)
include h hq hl

theorem execGridbar_last (hall : allReached (gridGroups (gridArrived s)) (·.gridCnt) (gridArrived s).g.gridCnt = true) :
    execGridbar w s = .next (((gridArrived s).fence .acq .prt).endC w 4) := by
  rw [execGridbar_user hm hc, arriveAt_arrives h hq hl]
  exact if_pos (by rw [Bool.and_eq_true]; exact ⟨rfl, hall⟩)

theorem execGridbar_early (hall : allReached (gridGroups (gridArrived s)) (·.gridCnt) (gridArrived s).g.gridCnt = false) :
    execGridbar w s = .next (gridArrived s) := by
  rw [execGridbar_user hm hc, arriveAt_arrives h hq hl]
  exact if_neg (by rw [Bool.and_eq_true]; exact fun hand => absurd hand.2 (Bool.eq_false_iff.mp hall))

end Last

end GridBarrier

/-- Settles O25: each word, in each case of its mode and of what has arrived, has its lemma. -/
theorem groupBarriers : Obligations.GroupBarriers := by
  intro w sc k s counted arrived
  exact ⟨execFence_performed, execFence_due, execTeambar_counted, execTeambar_last, execTeambar_early, execTeambar_waits,
    execGridbar_waits, fun hm => ⟨execTeambar_handler hm, execGridbar_handler hm⟩, execGridbar_apart, execGridbar_counted,
    execGridbar_last, execGridbar_early⟩

end Sys2Proof.Machine
end

section
/-! The task heap (R63–R66, R208): which entry a take picks, how a heap serves its waiters, and the words that add and take. -/

namespace Sys2Proof.Machine

/-! ## The entry that a take picks -/

section Pick

variable {s : State} {sl ctx : Nat}

/-- R64: a take picks one of the eight lowest ranks. -/
theorem heapPick_mem_take {e : HeapEntry} (h : heapPick s sl ctx = some e) : e ∈ (heapOf (s.slice sl) ctx).take 8 := by
  obtain ⟨hk, he⟩ := List.getElem?_eq_some_iff.mp h
  have hpos : 0 < min 8 (heapOf (s.slice sl) ctx).length := by
    by_contra h0
    rw [Nat.eq_zero_of_not_pos h0] at hk
    omega
  have hlt := Nat.mod_lt (Config.heapPick (s.tick + (heapOf (s.slice sl) ctx).length)) hpos
  exact List.mem_take_iff_getElem.mpr ⟨_, hlt, he⟩

theorem heapPick_eq_none_iff : heapPick s sl ctx = none ↔ heapOf (s.slice sl) ctx = [] := by
  refine List.getElem?_eq_none_iff.trans ⟨fun hk => ?_, fun hnil => by simp [hnil]⟩
  by_contra hne
  have hpos : 0 < (heapOf (s.slice sl) ctx).length := List.length_pos_iff.mpr hne
  have hlt := Nat.mod_lt (Config.heapPick (s.tick + (heapOf (s.slice sl) ctx).length))
    (show 0 < min 8 (heapOf (s.slice sl) ctx).length by omega)
  omega

/-! ## Serving the waiters -/

variable {n : Nat}

/-- R65: a heap for which no group waits is left as it is. -/
theorem serveHeap_idle (ht : oldestWaiter s sl ctx .heaptake = none) (ha : oldestWaiter s sl ctx .heapadd = none) :
    serveHeap sl ctx n s = s := by
  cases n with
  | zero => rfl
  | succ n => simp [serveHeap, ht, ha]

/-- R65: an entry goes to the oldest taker. -/
theorem serveHeap_taker {e : HeapEntry} {g : Group} (he : heapPick s sl ctx = some e)
    (hg : oldestWaiter s sl ctx .heaptake = some g) :
    serveHeap sl ctx (n + 1) s = serveHeap sl ctx n (heapGive (heapDrop s sl ctx e) g.uid (e.key, e.val)) := by
  simp [serveHeap, he, hg]

/-- R65: where no taker is served, the oldest adder's entry goes in. -/
theorem serveHeap_adder {g : Group} {e : Word × Word} (hno : heapPick s sl ctx = none ∨ oldestWaiter s sl ctx .heaptake = none)
    (hroom : heapRoom s sl ctx = true) (hg : oldestWaiter s sl ctx .heapadd = some g) (he : g.heapW.put = some e) :
    serveHeap sl ctx (n + 1) s = serveHeap sl ctx n (heapGive (heapPut s sl ctx e) g.uid e) := by
  rcases hno with h | h <;> simp [serveHeap, h, hroom, hg, he]

end Pick

/-- R63: there is room while the context's entries are below its quota. -/
theorem heapRoom_iff {s : State} {sl ctx : Nat} :
    heapRoom s sl ctx = true ↔ ((s.slice sl).heap.filter fun e => e.ctx = ctx).length < (s.ctx ctx).quota := by
  simp [heapRoom]

/-! ## HEAPADD -/

section Add

variable {w wait : Bool} {a b : SReg} {q : QReg} {s : State}

theorem execHeapadd_due (h : s.g.loadsDue = true) : execHeapadd w a b wait q s = .next (s.parkC .again) := afterLoads_due h

variable (hl : s.g.loadsDue = false)
include hl

/-- R65: an entry that went in while the word waited ends it. -/
theorem execHeapadd_served (hp : s.heapServe.g.park = .heapadd) (hgot : s.heapServe.g.heapW.got.isSome = true) :
    execHeapadd w a b wait q s = .next ((s.heapServe.mapG fun g => g.wrQ q true).endC w 4) :=
  (afterLoads_performed hl).trans (if_pos (by rw [hp, hgot]; rfl))

/-- The word finds the heap as the waiters before it have left it. -/
theorem execHeapadd_tries (hno : s.heapServe.g.park ≠ .heapadd ∨ s.heapServe.g.heapW.got = none) :
    let h := s.heapServe
    execHeapadd w a b wait q s =
      if heapRoom h h.sliceId h.g.ctx then
        heapAdded w q (heapPut (h.scopeWriteBack .slc) h.sliceId h.g.ctx (h.g.rdS h.tick a, h.g.rdS h.tick b)).heapServe
      else if wait then
        .next (((h.scopeWriteBack .slc).parkC .heapadd).mapG fun g =>
          { g with heapW := { put := some (h.g.rdS h.tick a, h.g.rdS h.tick b) } })
      else .next ((h.mapG fun g => g.wrQ q false).endC w 4) :=
  (afterLoads_performed hl).trans (if_neg (by rcases hno with h | h <;> simp [h]))

theorem execHeapadd_room (hno : s.heapServe.g.park ≠ .heapadd ∨ s.heapServe.g.heapW.got = none)
    (hroom : let h := s.heapServe; ((h.slice h.sliceId).heap.filter fun e => e.ctx = h.g.ctx).length < (h.ctx h.g.ctx).quota) :
    let h := s.heapServe
    execHeapadd w a b wait q s = .next (((heapPut (h.scopeWriteBack .slc) h.sliceId h.g.ctx
      (h.g.rdS h.tick a, h.g.rdS h.tick b)).heapServe.mapG fun g => g.wrQ q true).endC w 4) :=
  (execHeapadd_tries hl hno).trans (if_pos (heapRoom_iff.mpr hroom))

section Full

variable (hno : s.heapServe.g.park ≠ .heapadd ∨ s.heapServe.g.heapW.got = none)
  (hfull : let h := s.heapServe; (h.ctx h.g.ctx).quota ≤ ((h.slice h.sliceId).heap.filter fun e => e.ctx = h.g.ctx).length)
include hno hfull

theorem execHeapadd_full_waits :
    let h := s.heapServe
    execHeapadd w a b true q s = .next (((h.scopeWriteBack .slc).parkC .heapadd).mapG fun g =>
      { g with heapW := { put := some (h.g.rdS h.tick a, h.g.rdS h.tick b) } }) :=
  (execHeapadd_tries hl hno).trans (if_neg (mt heapRoom_iff.mp (Nat.not_lt.mpr hfull)))

theorem execHeapadd_full_fails :
    execHeapadd w a b false q s = .next ((s.heapServe.mapG fun g => g.wrQ q false).endC w 4) :=
  (execHeapadd_tries hl hno).trans (if_neg (mt heapRoom_iff.mp (Nat.not_lt.mpr hfull)))

end Full

end Add

/-! ## HEAPTAKE -/

section Take

variable {w wait : Bool} {a b : SReg} {q : QReg} {s : State}

/-- R66, R208: what a take with an entry returns, as seen from the state after its acquire. -/
theorem heapTaken_eq (e : Word × Word) :
    let t := s.acquire .slc
    heapTaken w a b q e s = .next ((t.mapG fun g => g.addPend
      { strm := g.cStrm, dests := wholes [(t.g.sKey a.toNat, e.1), (t.g.sKey b.toNat, e.2), (t.g.qKey q.toNat, 1)],
        seq := t.tick }).endC w 4) := rfl

/-- R65: an entry that the heap gave while the word waited ends it. -/
theorem execHeaptake_served {e : Word × Word} (hp : s.heapServe.g.park = .heaptake) (hgot : s.heapServe.g.heapW.got = some e) :
    execHeaptake w a b wait q s = heapTaken w a b q e s.heapServe := by
  simp only [execHeaptake, if_pos hp, hgot]

/-- What the heap has given a word that takes: nothing, if it did not wait or has not been served. -/
theorem given_eq_none (hno : s.g.park ≠ .heaptake ∨ s.g.heapW.got = none) :
    (if s.g.park = .heaptake then s.g.heapW.got else none) = none := by
  rcases hno with h | h <;> simp [h]

variable (hno : s.heapServe.g.park ≠ .heaptake ∨ s.heapServe.g.heapW.got = none)
include hno

theorem execHeaptake_picks {e : HeapEntry} (he : heapPick s.heapServe s.heapServe.sliceId s.heapServe.g.ctx = some e) :
    let h := s.heapServe
    execHeaptake w a b wait q s = heapTaken w a b q (e.key, e.val) (heapDrop h h.sliceId h.g.ctx e).heapServe := by
  simp only [execHeaptake, given_eq_none hno, he]

theorem execHeaptake_empty_waits (he : heapPick s.heapServe s.heapServe.sliceId s.heapServe.g.ctx = none) :
    execHeaptake w a b true q s = .next (s.heapServe.parkC .heaptake) := by
  simp only [execHeaptake, given_eq_none hno, he, if_true]

theorem execHeaptake_empty_fails (he : heapPick s.heapServe s.heapServe.sliceId s.heapServe.g.ctx = none) :
    execHeaptake w a b false q s = .next ((s.heapServe.mapG fun g => g.addPend
      { strm := g.cStrm, dests := wholes [(s.heapServe.g.qKey q.toNat, 0)], seq := s.heapServe.tick }).endC w 4) := by
  simp only [execHeaptake, given_eq_none hno, he, Bool.false_eq_true, if_false]
  rfl

end Take

/-- Settles O27: each word, in each case of the heap that its waiters have left, has its lemma; so has each round of the service. -/
theorem taskHeap : Obligations.TaskHeap := by
  constructor
  · intro w wait a b q s h sl n e back took
    exact ⟨execHeapadd_due, execHeapadd_served,
      fun hl hno => ⟨execHeapadd_room hl hno,
        fun hfull => ⟨execHeapadd_full_waits hl hno hfull, execHeapadd_full_fails hl hno hfull⟩⟩,
      fun e hp hgot => (execHeaptake_served hp hgot).trans (heapTaken_eq e),
      fun hno => ⟨fun e he => (execHeaptake_picks hno he).trans (heapTaken_eq _),
        fun he => ⟨execHeaptake_empty_waits hno he, execHeaptake_empty_fails hno he⟩⟩⟩
  · intro sl ctx n s
    exact ⟨serveHeap_idle, fun _ _ => serveHeap_taker, fun _ _ => serveHeap_adder,
      fun e he => ⟨List.mem_of_mem_take (heapPick_mem_take he), List.contains_iff_mem.mpr (heapPick_mem_take he)⟩,
      heapPick_eq_none_iff⟩

end Sys2Proof.Machine
end

section
/-! How a group ends and what comes after it: EXIT and EXITTO (R48, R194), the successor of a team (R60–R62), the return of
long-latency results, and the faults and sleeps that a stream meets at a boundary (R38, R91, R184, R196, R359). -/

namespace Sys2Proof.Machine

variable {w : Bool} {a b : SReg} {s : State}

/-! ## EXIT and EXITTO -/

theorem exitGroup_ends (h : mayEnd s.g = true) : exitGroup s = .next (endGroup s) := if_pos h

theorem exitGroup_waits (h : mayEnd s.g = false) :
    exitGroup s = .next ((s.mapG fun g => { g with exiting := true }).parkC .exit) := if_neg (by simp [h])

theorem exit_user (hm : s.g.mode ≠ .handler) : exec (.exit w) s = exitGroup s :=
  if_neg (by simpa [Group.inHandler] using hm)

theorem exit_handler (hm : s.g.mode = .handler) : exec (.exit w) s = illegalC s := if_pos (by simp [Group.inHandler, hm])

/-- R60: the group with the successor that EXITTO names. -/
def successorNamed (s : State) (a b : SReg) : State :=
  s.mapG fun g => { g with exitto := some (s.g.rdP s.tick a, s.g.rdS s.tick b) }

theorem exitto_user (hm : s.g.mode ≠ .handler) (hc : s.t.chain = true) (hcard : (s.g.rdP s.tick a).toNat % 64 = 0) :
    exec (.exitto w a b) s = exitGroup (successorNamed s a b) := by
  change execExitto w a b s = _
  simp [execExitto, Group.inHandler, hm, hc, hcard, successorNamed]

theorem exitto_handler (hm : s.g.mode = .handler) : exec (.exitto w a b) s = illegalC s :=
  if_pos (by simp [Group.inHandler, hm])

/-- R60: EXITTO is illegal in a team whose launch permits no chain. -/
theorem exitto_unchained (hc : s.t.chain = false) : exec (.exitto w a b) s = illegalC s := if_pos (by simp [hc])

/-- R48: a group that waits in EXIT ends once it may, where no fault was delivered to it. -/
theorem execGroupEnd_ends (he : s.g.exiting = true) (hp : s.g.park = .exit) (hmay : mayEnd s.g = true)
    (hr : groupRuns s s.g = true) (hf : s.g.faults = []) : execGroupEnd s = .next (endGroup s) := by
  simp [execGroupEnd, he, hp, hmay, hr, hf]

/-! ## The successor of a team -/

/-- R61, R62: what a successor's card, its launch and its predecessor's team must meet. -/
def SuccessorSound (ws : List Word) (l : Launch) (t : Team) : Prop :=
  (ws.getD 1 0).toNat % 256 = 1 ∧ launchBad ws = false ∧ shapeOk l t.attr = true ∧ l.ngrp ≤ t.ngrp ∧ l.need.units ≤ t.regs
    ∧ l.smem ≤ t.wsize

/-- The test that ends a chain is that the card is not sound. -/
theorem successorRefused_iff (ws : List Word) (l : Launch) (t : Team) :
    ((ws.getD 1 0).toNat % 256 ≠ 1 || launchBad ws || !shapeOk l t.attr || t.ngrp < l.ngrp || t.regs < l.need.units
      || t.wsize < l.smem) = true ↔ ¬SuccessorSound ws l t := by
  rw [← Bool.not_eq_false, not_iff_not]
  simp [SuccessorSound, and_assoc]

section Successor

variable {x : DWord} {arg : Word} {s1 : State} (hsucc : s.t.succ = some (x, arg)) (hend : s.t.ended = true)
  (hquiet : ctxFrozen s s.t.ctx = false ∧ (s.clusters.any fun c => c.queue.any fun m => m.team = s.t.uid) = false)
include hsucc hend hquiet

/-- R62: a card that cannot be read ends the chain. -/
theorem execSuccessorStart_unread {e : Nat × DWord}
    (hr : engReadN s s.t.ctx (s.t.ppos / 128 - (s.vf (s.t.ctx / 64)).first) x 64 = (s1, .error e)) :
    execSuccessorStart s = .next (chainFault s1 s.t x) := by
  obtain ⟨hfrozen, hidle⟩ := hquiet
  simp [execSuccessorStart, hsucc, hend, hfrozen, hidle, hr]

section Read

variable {s2 : State} {bs ks : List Byte} (hr : engReadN s s.t.ctx (s.t.ppos / 128 - (s.vf (s.t.ctx / 64)).first) x 64 = (s1, .ok bs))
  (hk : engReadN s1 s.t.ctx (s.t.ppos / 128 - (s.vf (s.t.ctx / 64)).first) (cardKernel (wordsOf bs)) 64 = (s2, .ok ks))
include hr hk

/-- R61, R62: what a card and its kernel descriptor that were read lead to. -/
theorem execSuccessorStart_read :
    let ws := wordsOf bs
    let l := launchOf ws (wordsOf ks)
    execSuccessorStart s =
      if (ws.getD 1 0).toNat % 256 ≠ 1 || launchBad ws || !shapeOk l s.t.attr || s.t.ngrp < l.ngrp
        || s.t.regs < l.need.units || s.t.wsize < l.smem then .next (chainFault s2 s.t x)
      else if !successorFits s2 s.t l then .next s2
      else .next (placeSuccessor s2 s.t l
        (attrChain l.attr && (SMap.get {} (s2.slice s.t.qslice).queues s.t.qidx).chainok) arg) := by
  obtain ⟨hfrozen, hidle⟩ := hquiet
  simp only [execSuccessorStart, hsucc, hend, hfrozen, hidle, hr, hk]
  rfl

theorem execSuccessorStart_unsound (hbad : ¬SuccessorSound (wordsOf bs) (launchOf (wordsOf bs) (wordsOf ks)) s.t) :
    execSuccessorStart s = .next (chainFault s2 s.t x) :=
  (execSuccessorStart_read hsucc hend hquiet hr hk).trans (if_pos ((successorRefused_iff _ _ _).mpr hbad))

section Sound

variable (hsound : SuccessorSound (wordsOf bs) (launchOf (wordsOf bs) (wordsOf ks)) s.t)
include hsound

theorem execSuccessorStart_sound :
    let l := launchOf (wordsOf bs) (wordsOf ks)
    execSuccessorStart s =
      if !successorFits s2 s.t l then .next s2
      else .next (placeSuccessor s2 s.t l
        (attrChain l.attr && (SMap.get {} (s2.slice s.t.qslice).queues s.t.qidx).chainok) arg) :=
  (execSuccessorStart_read hsucc hend hquiet hr hk).trans
    (if_neg fun h => (successorRefused_iff _ _ _).mp h hsound)

theorem execSuccessorStart_places (hfits : successorFits s2 s.t (launchOf (wordsOf bs) (wordsOf ks)) = true) :
    let l := launchOf (wordsOf bs) (wordsOf ks)
    execSuccessorStart s = .next (placeSuccessor s2 s.t l
      (attrChain l.attr && (SMap.get {} (s2.slice s.t.qslice).queues s.t.qidx).chainok) arg) :=
  (execSuccessorStart_sound hsucc hend hquiet hr hk hsound).trans (if_neg (by simp [hfits]))

theorem execSuccessorStart_waits (hfits : successorFits s2 s.t (launchOf (wordsOf bs) (wordsOf ks)) = false) :
    execSuccessorStart s = .next s2 :=
  (execSuccessorStart_sound hsucc hend hquiet hr hk hsound).trans (if_pos (by simp [hfits]))

end Sound

end Read

end Successor

/-- Settles O29: each word and event, in each case of its mode, its team and its card, has its lemma. -/
theorem groupEnds : Obligations.GroupEnds := by
  intro w a b s card named quiet
  refine ⟨fun hm hmay => (exit_user hm).trans (exitGroup_ends hmay),
    fun hm hmay => (exit_user hm).trans (exitGroup_waits hmay),
    fun hm hc hcard hmay => (exitto_user hm hc hcard).trans (exitGroup_ends hmay),
    fun hm hc hcard hmay => (exitto_user hm hc hcard).trans (exitGroup_waits hmay),
    exitto_unchained, fun hm => ⟨exit_handler hm, exitto_handler hm⟩, execGroupEnd_ends,
    fun _ _ _ _ hsucc hend hquiet => execSuccessorStart_unread hsucc hend hquiet, ?card⟩
  case card =>
    intro x arg s1 s2 bs ks hsucc hend hquiet rel ws l sound hr hk
    exact ⟨execSuccessorStart_places hsucc hend hquiet hr hk, execSuccessorStart_waits hsucc hend hquiet hr hk,
      execSuccessorStart_unsound hsucc hend hquiet hr hk⟩

/-! ## Results -/

/-- R38, R196: a result whose destinations all take one value. -/
def Pend.withVal (p : Pend) (v : Word) : Pend := { p with dests := p.dests.map fun d => { d with val := v } }

section Results

variable {k : Nat} {p : Pend} (hp : s.g.pend[k]? = some p) (hret : p.returned = false) (hlate : p.late = none)
include hp hret hlate

theorem execLongLatencyReturn_plain (hr : p.recv = none) (ht : p.test = none) :
    execLongLatencyReturn k s = .next (landResult s k p) := by
  simp [execLongLatencyReturn, hp, hret, hlate, hr, ht]

theorem execLongLatencyReturn_recv {c : Nat} {peek : Bool} (hr : p.recv = some (c, peek)) :
    execLongLatencyReturn k s = .next (returnRecv s k p c peek) := by
  simp [execLongLatencyReturn, hp, hret, hlate, hr]

theorem execLongLatencyReturn_test {o : Nat} {t : TestKind} {x : Word} (hr : p.recv = none) (ht : p.test = some (o, t, x)) :
    execLongLatencyReturn k s = .next (returnTest s k p o t x) := by
  simp [execLongLatencyReturn, hp, hret, hlate, hr, ht]

end Results

section Returns

variable {k : Nat} {p : Pend}

/-- R38: a receive whose turn has come returns with the head of its channel, which it takes unless it peeks. -/
theorem returnRecv_served {c : Nat} {peek : Bool} {v : Word} (h : chHead s c p.seq = some v) :
    returnRecv s k p c peek = landResult (if peek then s else chDrop s c 1) k (p.withVal v) := by
  simp only [returnRecv, h, Pend.withVal]

theorem returnRecv_waits {c : Nat} {peek : Bool} (h : chHead s c p.seq = none) : returnRecv s k p c peek = s := by
  simp only [returnRecv, h]

/-- R196: a test whose line is full returns with what it finds there. -/
theorem returnTest_full {o : Nat} {t : TestKind} {x : Word} (h : s.spFull o 4 = true) :
    returnTest s k p o t x = landResult s k (p.withVal (if tstbHolds t (BitVec.ofNat 32 (s.spNat o 4)) x then 1 else 0)) :=
  if_pos h

theorem returnTest_empty {o : Nat} {t : TestKind} {x : Word} (h : s.spFull o 4 = false) : returnTest s k p o t x = s :=
  if_neg (by simp [h])

end Returns

/-! ## Boundaries and sleeps -/

theorem execHandlerEntry_takes (hm : s.g.mode = .user) (hr : groupRuns s s.g = true) :
    execHandlerEntry s = .next (takeEngineFault s) := if_pos (by simp [hm, hr])

theorem execHandlerEntry_stays (h : s.g.mode ≠ .user ∨ groupRuns s s.g = false) : execHandlerEntry s = .next s :=
  if_neg (by rcases h with h | h <;> simp [h])

theorem execSleepExpire_due {t : Nat} (hp : s.g.park = .sleep) (he : s.g.sleepEnd = some t) (hpast : t ≤ s.now) :
    execSleepExpire s = .next (s.mapG fun g => { g with park := .none }) := by
  simp [execSleepExpire, hp, he, hpast]

theorem execSleepExpire_awake (hp : s.g.park ≠ .sleep) : execSleepExpire s = .next s := if_neg (by simp [hp])

/-- Settles O53: a result returns by the lemma of what it waits for; each other event, in each case, has its lemma. -/
theorem resultsReturn : Obligations.ResultsReturn := by
  intro k s
  refine ⟨fun p hp hret hlate => ?result, execHandlerEntry_takes, execHandlerEntry_stays, fun _ => execSleepExpire_due,
    execSleepExpire_awake⟩
  case result =>
    refine ⟨execLongLatencyReturn_plain hp hret hlate, fun c peek v hr hv => ?served, fun c peek hr hv => ?waits,
      fun o t x hr ht => ⟨fun hfull => ?full, fun hempty => ?empty⟩⟩
    case served => exact (execLongLatencyReturn_recv hp hret hlate hr).trans (congrArg _ (returnRecv_served hv))
    case waits => exact (execLongLatencyReturn_recv hp hret hlate hr).trans (congrArg _ (returnRecv_waits hv))
    case full => exact (execLongLatencyReturn_test hp hret hlate hr ht).trans (congrArg _ (returnTest_full hfull))
    case empty => exact (execLongLatencyReturn_test hp hret hlate hr ht).trans (congrArg _ (returnTest_empty hempty))

end Sys2Proof.Machine
end

section
/-! The lane words that control a block: branches, joins and ends of a split, kills and traps (R41–R46, R241–R244, R279). -/

namespace Sys2Proof.Machine

variable {h : LHdr} {w : Bool} {s : State} {x : Split}

/-! ## Active lanes -/

/-- R83: the lanes of a split that a word's predicate names. -/
def namedLanes (s : State) (h : LHdr) (x : Split) : Word :=
  x.mask &&& (if h.pn then ~~~(s.g.rdM s.tick h.pm.toNat) else s.g.rdM s.tick h.pm.toNat)

theorem activeLanes_first (hr : x.redo = none) : activeLanes s h x = namedLanes s h x := by
  simp only [activeLanes, Split.redoLanes, hr, namedLanes]

/-- R363: a word that executes again does so for the lanes it is left for, which a fresh one's predicate still limits. -/
theorem activeLanes_again {r : Redo} (hr : x.redo = some r) :
    activeLanes s h x = if r.fresh then namedLanes s h x &&& r.lanes else r.lanes := by
  simp only [activeLanes, Split.redoLanes, hr, namedLanes]

/-! ## BRL -/

section Branch

variable {t j : BitVec 12} (hx : s.g.split? s.g.curSplit = some x)
include hx

/-- R42: BRL faults where it diverges with its stack full, and else branches. -/
theorem execBrl_split : execBrl h t j s =
    if activeLanes s h x ≠ 0 ∧ activeLanes s h x ≠ x.mask ∧ x.stack.length = 8 then wordFaultL s x 0x02 x.mask
    else .next (s.mapG fun g => (branchSplit (g.clearRedo x.idx) x (x.pc + t.signExtend 32) (x.pc + j.setWidth 32)
      (activeLanes s h x)).parkW x.idx h.w) := by
  have hcond : (activeLanes s h x ≠ 0 && activeLanes s h x ≠ x.mask && (!x.stack.isEmpty || (freeSplit s.g).isNone)
      && x.stack.length = 8) = true ↔ activeLanes s h x ≠ 0 ∧ activeLanes s h x ≠ x.mask ∧ x.stack.length = 8 := by
    simp only [Bool.and_eq_true, Bool.or_eq_true, decide_eq_true_eq, and_assoc]
    constructor
    · rintro ⟨hsome, hall, -, hlen⟩
      exact ⟨hsome, hall, hlen⟩
    · rintro ⟨hsome, hall, hlen⟩
      refine ⟨hsome, hall, Or.inl ?_, hlen⟩
      cases hst : x.stack with
      | nil => simp [hst] at hlen
      | cons e es => rfl
  simp only [execBrl, hx, hcond]

/-- R42: a branch that all lanes or none take, or that the stack has room for, branches. -/
theorem execBrl_branches (hfits : activeLanes s h x = 0 ∨ activeLanes s h x = x.mask ∨ x.stack.length < 8) :
    execBrl h t j s = .next (s.mapG fun g => (branchSplit (g.clearRedo x.idx) x (x.pc + BitVec.ofInt 32 t.toInt)
      (x.pc + BitVec.ofNat 32 j.toNat) (activeLanes s h x)).parkW x.idx h.w) := by
  have hno : ¬(activeLanes s h x ≠ 0 ∧ activeLanes s h x ≠ x.mask ∧ x.stack.length = 8) := by
    rintro ⟨hsome, hall, hlen⟩
    rcases hfits with h0 | h1 | h2
    · exact hsome h0
    · exact hall h1
    · omega
  rw [execBrl_split hx, if_neg hno, BitVec.ofNat_toNat]
  rfl

theorem execBrl_overflows (hsome : activeLanes s h x ≠ 0) (hall : activeLanes s h x ≠ x.mask) (hlen : x.stack.length = 8) :
    execBrl h t j s = wordFaultL s x 0x02 x.mask :=
  (execBrl_split hx).trans (if_pos ⟨hsome, hall, hlen⟩)

end Branch

/-! ## JOIN and LEND -/

section Joins

variable (hx : s.g.split? s.g.curSplit = some x)
include hx

/-- R43: with an entry on its stack a split meets its join, or passes the word. -/
theorem execJoin_stacked {e : StackEntry} {es : List StackEntry} (hst : x.stack = e :: es) :
    execJoin w s = .next (s.mapG fun g => ((g.clearRedo x.idx).mapSplit x.idx fun y =>
      if e.jpc = y.pc then popEntry y else { y with pc := y.pc + 1 }).parkW x.idx w) := by
  simp only [execJoin, hx, hst]

/-- R44: without one it waits for the other splits. -/
theorem execJoin_waits (hst : x.stack = []) :
    execJoin w s = .next (s.mapG fun g =>
      settleSplits ((if w then (g.clearRedo x.idx).parkW x.idx w else g.clearRedo x.idx).mapSplit x.idx fun y =>
        if y.park = .drain then y else { y with park := .join })) := by
  simp only [execJoin, hx, hst]

theorem execLend_unwinds :
    let on := unwind (2 * x.stack.length + 1) { x with redo := none }
    execLend w s = .next (s.mapG fun g =>
      settleSplits (if on.ending then g.mapSplit x.idx fun _ => on else (g.mapSplit x.idx fun _ => on).parkW x.idx w)) := by
  simp only [execLend, hx]

end Joins

/-! ## KILL and LTRAP -/

section Issued

variable {c : LCtx} {popped : List Nat} {d : Option Dst} {ds : List (Nat × Word)} {regs : List (Nat × Nat)} {os : List Src} {mem : Bool}

/-- A word that issues has not waited, so it ends by passing its split. -/
theorem LaneIssues.endL_eq (H : LaneIssues h ds regs os d s c popped mem) (u : State) : c.endL u = .next (c.past u) := by
  simp only [LCtx.endL, H.first, LCtx.past]

theorem execLtrap_passes {k : BitVec 12} (H : LaneIssues h [] [] [] none s c popped) (hact : c.act = 0) :
    execLtrap h k s = .next (c.past (LaneAt [] popped s)) :=
  (laneRun_of_issues H _).trans ((if_pos hact).trans (H.endL_eq _))

theorem execLtrap_traps {k : BitVec 12} (H : LaneIssues h [] [] [] none s c popped) (hact : c.act ≠ 0) :
    execLtrap h k s = .next (takeFault (LaneAt [] popped s)
      (laneFaultInfo c.sp 8 k.toNat c.act ((lanesOf c.act).map fun l => (l, (8, 0)))) []) :=
  (laneRun_of_issues H _).trans (if_neg hact)

/-- R243, R279: KILL takes its active lanes from the split, from its stack and from the fragment group. -/
theorem execKill_kills (H : LaneIssues h [] [] [] none s c popped) :
    execKill h s = .next ((LaneAt [] popped s).mapG fun g =>
      let g1 := { g with frag := if g.inHandler then g.frag else g.frag.map (killFrag c.act) }
      let g2 := (g1.endL c.sp.idx h.w).mapSplit c.sp.idx fun y =>
        { y with mask := y.mask &&& ~~~c.act, stack := y.stack.map (killIn c.act) }
      settleSplits (g2.mapSplit c.sp.idx fun y => if y.mask = 0 then unwind (2 * y.stack.length + 1) y else y)) := by
  rw [← H.mark]
  exact laneRun_of_issues H _

end Issued

/-- Settles O40: each word, in each case of its stack and its lanes, has its lemma. -/
theorem laneControl : Obligations.LaneControl := by
  intro h w t j k s
  constructor
  · intro x hx m taken fits named
    exact ⟨activeLanes_first, fun _ => activeLanes_again, execBrl_branches hx, execBrl_overflows hx, fun _ _ => execJoin_stacked hx,
      execJoin_waits hx, execLend_unwinds hx⟩
  · intro c popped H s1
    exact ⟨execLtrap_passes H, execLtrap_traps H, execKill_kills H⟩

end Sys2Proof.Machine
end

section
/-! The fragment words (R281–R284) and the front end of a draw that makes its fragment groups (R57, R277–R279, R409). -/

namespace Sys2Proof.Machine

variable {h : LHdr} {s : State} {c : LCtx} {popped : List Nat} {f : Frag} {d : Dst} {a : Src} {md : AttrMode} {i : BitVec 6}
  {bl : Blend} {n : BitVec 3} {y fine : Bool}

/-! ## Attributes and derivatives -/

/-- R282: how many indices an interpolation mode has in a draw. -/
def attrBound (md : AttrMode) (f : Frag) : Nat := if md = .builtin then 8 else drawNa f.draw

theorem execAttr_interpolates (hf : s.g.frag = some f) (hroof : s.isRoof = false) (hi : i.toNat < attrBound md f)
    (H : LaneIssues h [] (dstRun 1 d) [] (some d) s c popped) :
    execAttr h md d i s =
      .next (c.past (c.put false d (c.lanes.map fun l => (l, [attrValue f md i.toNat l])) (LaneAt [] popped s))) := by
  have hlegal : ¬(s.isRoof || (if md = .builtin then 8 else drawNa f.draw) ≤ i.toNat) = true := by
    simpa [hroof, attrBound] using hi
  simp only [execAttr, hf, if_neg hlegal]
  exact (laneRun_of_issues H _).trans (H.endL_eq _)

/-- R283: the derivative in a lane, with its flags. -/
def derivIn (c : LCtx) (u : State) (a : Src) (y fine : Bool) (l : Nat) : Word × Flags :=
  f32Diff (c.val u 0 a 0 (derivLanes y fine l).1) (c.val u 0 a 0 (derivLanes y fine l).2)

theorem execDeriv_differences (hroof : s.isRoof = false) (H : LaneIssues h (vDs 1 d) (dstRun 1 d ++ srcRun 1 a) [a] (some d) s c popped) :
    let u := LaneAt [a] popped s
    execDeriv h y fine d a s = .next (c.past (flagAll (c.lanes.map fun l => (derivIn c u a y fine l).2)
      (c.put false d (c.lanes.map fun l => (l, [(derivIn c u a y fine l).1])) u))) := by
  simp only [execDeriv, hroof, Bool.false_eq_true, if_false]
  refine (laneRun_of_issues H _).trans ((H.endL_eq _).trans ?_)
  simp only [List.map_map]
  rfl

/-! ## Exports -/

/-- R284: the lanes of a word that are no helpers. -/
def coveredLanes (c : LCtx) (f : Frag) : List Nat := c.lanes.filter fun l => SMap.get 0 f.cov l ≠ 0

theorem execExpc_exports (hf : s.g.frag = some f) (hroof : s.isRoof = false) (hn : n.toNat < drawTargets f.draw)
    (H : LaneIssues h [] (srcRun 4 a) [a] none s c popped) :
    let u := LaneAt [a] popped s
    execExpc h bl a n s = .next (c.past (u.mapG fun g => { g with frag := some ((coveredLanes c f).foldl
      (fun f l => setColor f l n.toNat bl ((List.range 4).map fun k => c.val u 0 a k l)) f) })) := by
  have hlegal : ¬(s.isRoof || drawTargets f.draw ≤ n.toNat) = true := by simpa [hroof] using hn
  simp only [execExpc, hf, if_neg hlegal]
  exact (laneRun_of_issues H _).trans (H.endL_eq _)

theorem execExpz_exports (hf : s.g.frag = some f) (hroof : s.isRoof = false) (H : LaneIssues h [] (srcRun 1 a) [a] none s c popped) :
    let u := LaneAt [a] popped s
    let depth := (coveredLanes c f).foldl (fun m l => SMap.insert m l (c.val u 0 a 0 l)) f.depth
    execExpz h a s = .next (c.past (u.mapG fun g => { g with frag := some { f with depth := depth } })) := by
  simp only [execExpz, hf, hroof, Bool.false_eq_true, if_false]
  exact (laneRun_of_issues H _).trans (H.endL_eq _)

/-! ## Where the words are illegal -/

section Illegal

variable {x : Split} (hx : s.g.split? s.g.curSplit = some x)
include hx

/-- R81: an illegal lane word faults the active lanes of its split. -/
theorem illegalL_stops : illegalL h s = wordFaultL s x 1 (activeLanes s h x) := by
  simp only [illegalL, hx]

/-- R282, R284: outside a fragment group attributes and exports are illegal. -/
theorem fragment_words_without_fragment (hf : s.g.frag = none) :
    let stop := wordFaultL s x 1 (activeLanes s h x)
    execAttr h md d i s = stop ∧ execExpc h bl a n s = stop ∧ execExpz h a s = stop := by
  simp only [execAttr, execExpc, execExpz, hf, illegalL_stops hx, and_self]

/-- R16: on a roof core every fragment word is illegal. -/
theorem fragment_words_on_roof (hroof : s.isRoof = true) :
    let stop := wordFaultL s x 1 (activeLanes s h x)
    execAttr h md d i s = stop ∧ execDeriv h y fine d a s = stop ∧ execExpc h bl a n s = stop ∧ execExpz h a s = stop := by
  cases hf : s.g.frag <;>
    simp [execAttr, execDeriv, execExpc, execExpz, hf, hroof, illegalL_stops hx]

/-- R282: an index that the draw has not is illegal. -/
theorem execAttr_out_of_range (hf : s.g.frag = some f) (hi : attrBound md f ≤ i.toNat) :
    execAttr h md d i s = wordFaultL s x 1 (activeLanes s h x) := by
  rw [← illegalL_stops hx]
  simp only [execAttr, hf]
  exact if_pos (by rw [Bool.or_eq_true, decide_eq_true_eq]; exact Or.inr hi)

/-- R284: a target that the draw has not is illegal. -/
theorem execExpc_out_of_range (hf : s.g.frag = some f) (hn : drawTargets f.draw ≤ n.toNat) :
    execExpc h bl a n s = wordFaultL s x 1 (activeLanes s h x) := by
  rw [← illegalL_stops hx]
  simp only [execExpc, hf]
  exact if_pos (by rw [Bool.or_eq_true, decide_eq_true_eq]; exact Or.inr hn)

end Illegal

/-! ## The next fragment group of a draw -/

section FragmentLaunch

variable {k : Card} {l : Launch} {s1 : State}

/-- R277: vertices that cannot be fetched abandon the draw. -/
theorem makeFrag_abandons {e : Nat × DWord}
    (hv : fetchVerts s k.ctx (relSl s k.ctx k.slice) l.draw (primVerts l.draw l.prim) = (s1, .error e)) :
    makeFrag s k l = abandonLaunch s1 k e.1 e.2 := by
  simp only [makeFrag, hv]

/-- R278: the next eight quads of the primitive stand ready, and the draw goes on to the next quads or the next primitive. -/
theorem makeFrag_makes {vs : List Word} {as : List (List Word)}
    (hv : fetchVerts s k.ctx (relSl s k.ctx k.slice) l.draw (primVerts l.draw l.prim) = (s1, .ok (vs, as))) :
    let ps := (clipPoly vs).map (toPixel l.draw)
    let rest := (primQuads l.draw ps).drop (8 * l.chunk)
    let l1 := if rest.length ≤ 8 then { l with prim := l.prim + 1, chunk := 0 } else { l with chunk := l.chunk + 1 }
    let f := fragOf k l (facesFront l.draw (twiceArea ps)) vs as (rest.take 8)
    makeFrag s k l = mapCard s1 k.id fun c => { c with launch := some (l1.hold (if rest = [] then none else some f)) } := by
  simp only [makeFrag, hv]

variable {m : Nat} (hk : card? s m = some k) (hl : k.launch = some l)
include hk hl

/-- R278: a draw without groups left makes none. -/
theorem execFragmentGroupLaunch_done (hmore : moreTeams true l = false) : execFragmentGroupLaunch m s = .next s := by
  simp [execFragmentGroupLaunch, hk, hl, hmore]

variable (hphase : k.phase = .started) (hraster : k.raster = true) (hmore : moreTeams true l = true)
  (hvf : (s.vf k.vf).frozen = false) (hctx : ctxRuns s k.ctx = true)
include hphase hraster hmore hvf hctx

theorem execFragmentGroupLaunch_makes (hdue : l.fragDue = true) :
    execFragmentGroupLaunch m s = .next (fitDraw (makeFrag s k l) m) := by
  simp [execFragmentGroupLaunch, hk, hl, hphase, hraster, hmore, hvf, hctx, hdue]

/-- R409: a group that stands ready starts where the dispatcher's choice falls on its draw. -/
theorem execFragmentGroupLaunch_starts {j : Job} (hdue : l.fragDue = false) (hd : dispatch k.vf s = (s1, some j))
    (hfresh : j.saved = []) (hcard : j.card = m) : execFragmentGroupLaunch m s = .next s1 := by
  simp [execFragmentGroupLaunch, hk, hl, hphase, hraster, hmore, hvf, hctx, hdue, hd, hfresh, hcard]

end FragmentLaunch

/-- Settles O45: each lane word by what its lanes do or by why it is illegal, the launch by what the front end makes next. -/
theorem fragments : Obligations.Fragments := by
  constructor
  · intro h md y fine d a i bl n s c popped covered s1 colored deepened
    exact ⟨fun _ => execAttr_interpolates, execDeriv_differences, fun _ => execExpc_exports, fun _ => execExpz_exports,
      fun x hx => ⟨fragment_words_without_fragment hx, fragment_words_on_roof hx, fun f hf =>
        ⟨execAttr_out_of_range hx hf, execExpc_out_of_range hx hf⟩⟩⟩
  · intro n s k l hk hl
    refine ⟨fun hphase hraster hmore hvf hctx =>
      ⟨fun hdue => ⟨?makes, fun _ _ => makeFrag_abandons, fun _ _ _ => makeFrag_makes⟩, ?starts⟩, execFragmentGroupLaunch_done hk hl⟩
    case makes => exact execFragmentGroupLaunch_makes hk hl hphase hraster hmore hvf hctx hdue
    case starts => exact fun _ _ => execFragmentGroupLaunch_starts hk hl hphase hraster hmore hvf hctx

end Sys2Proof.Machine
end

section
/-! Where the words of a group complete: what the end of a control word leaves (R40), and the effect of each word under conditions
on its state and operands alone (R158–R162, R196–R198, R203–R208, R258, R335). -/

namespace Sys2Proof.Machine

variable {w : Bool} {a b c : SReg} {s s1 : State} {key : Nat} {dup : Bool}

/-! ## The end of a control word -/

theorem Group.endC_frozen (g : Group) (w : Bool) (len : Nat) : (g.endC w len).frozen = g.frozen := by
  cases w
  · rfl
  · simp only [Group.endC, if_true]
    split <;> rfl

/-- A word that ends passes its pc and leaves the mode, the scalar registers and whether the group is frozen. -/
theorem completes_of_endC {i : Instr} {u : State} (h : exec i s = .next (u.endC w 4)) :
    ∃ t, exec i s = .next t ∧ t = u.endC w 4 ∧ t.g.pc = u.g.pc + 4 ∧ t.g.mode = u.g.mode ∧ t.g.frozen = u.g.frozen
      ∧ t.g.s = u.g.s := by
  obtain ⟨hs, -, -, -, -, -, -, -, -, hmode, -, hpc⟩ := u.g.endC_regs w 4
  exact ⟨_, h, rfl, hpc, hmode, u.g.endC_frozen w 4, hs⟩

/-! ## Memory -/

theorem loadC_granted {va : DWord} {n : Nat} {k : State → List Byte → Res} (hx : s.xlate va n .rd = (s1, .ok key dup))
    (hp : s1.poisonedHere key n = false) :
    loadC s va n k = k (s1.loadBytes key n .plain .grp dup).1 (s1.loadBytes key n .plain .grp dup).2 := by
  simp [loadC, hx, hp]

section Memory

variable {i : BitVec 13}

theorem execLds_granted (hx : s.xlate (s.g.rdP s.tick a + BitVec.ofInt 64 i.toInt) 4 .rd = (s1, .ok key dup))
    (hp : s1.poisonedHere key 4 = false) :
    let r := s1.loadBytes key 4 .plain .grp dup
    execLds w b a i s = .next ((r.1.resultC [(r.1.g.sKey b.toNat, BitVec.ofNat 32 (leValue r.2))]).endC w 4) := by
  have hx' : s.xlate (s.g.rdP s.tick a + i.signExtend 64) 4 .rd = (s1, .ok key dup) := hx
  simp only [execLds, ldsAt, loadC_granted hx' hp]

theorem execSts_granted (hx : s.xlate (s.g.rdP s.tick a + BitVec.ofInt 64 i.toInt) 4 .wr = (s1, .ok key dup)) :
    execSts w b a i s = .next ((s1.storeBytes key (leBytes 4 (s.g.rdS s.tick b).toNat) .grp dup).endC w 4) := by
  have hx' : s.xlate (s.g.rdP s.tick a + i.signExtend 64) 4 .wr = (s1, .ok key dup) := hx
  simp only [execSts, stsAt, hx']

/-- R187: the immediate of a word is its signed field. -/
theorem imm32_toInt (i : BitVec 13) : (imm32 i).toInt = i.toInt := BitVec.toInt_signExtend_of_le (by decide)

/-- R128: a constant inside the bank is read through the constant cache. -/
theorem execLdc_granted {off : Int} (hoff : off = ((s.g.rdS s.tick a).toNat : Int) + i.toInt)
    (halign : (constBase s.t + BitVec.ofInt 64 off).toNat % 4 = 0) (hlow : 0 ≤ off) (hhigh : off + 4 ≤ (constSize s.t : Int))
    (hx : s.xlate (constBase s.t + BitVec.ofInt 64 off) 4 .rd = (s1, .ok key dup)) (hp : s1.poisoned key 4 = false) :
    execLdc w b a i s = .next ((s1.resultC [(s1.g.sKey b.toNat, BitVec.ofNat 32 (s1.rdMemNat key 4))]).endC w 4) := by
  have hin : ¬(off < 0 || (constSize s.t : Int) < off + 4) = true := by simp; omega
  simp only [execLdc, ldcAt, imm32_toInt, ← hoff, halign, hx, hp]
  simp [hin]

end Memory

section Tests

variable {q : QReg} {ck : TestKind}

/-- R196: a test of memory. -/
theorem execTstb_memory (hx : s.xlate (s.g.rdP s.tick a) 4 .rd = (s1, .ok key dup)) (hp : s1.poisonedHere key 4 = false) :
    let r := s1.loadBytes key 4 .plain .grp dup
    execTstb w a b q false ck s = .next ((r.1.resultC [(r.1.g.qKey q.toNat,
      if tstbHolds ck (BitVec.ofNat 32 (leValue r.2)) (s.g.rdS s.tick b) then 1 else 0)]).endC w 4) := by
  simp only [execTstb, Bool.false_eq_true, if_false, loadC_granted hx hp, tstbEnd]

/-- R126: bytes that end inside the window lie in it. -/
theorem State.spIn_of_le {o n : Nat} (h : o + n ≤ s.t.wsize) : s.spIn o n = true := by
  simp [State.spIn]
  omega

/-- R196: a test of a full line of the window. -/
theorem execTstb_window (halign : (s.g.rdS s.tick a).toNat % 4 = 0) (hin : (s.g.rdS s.tick a).toNat + 4 ≤ s.t.wsize)
    (hfull : s.spFull (s.g.rdS s.tick a).toNat 4 = true) :
    execTstb w a b q true ck s = .next ((s.resultC [(s.g.qKey q.toNat,
      if tstbHolds ck (BitVec.ofNat 32 (leValue (s.spBytes (s.g.rdS s.tick a).toNat 4))) (s.g.rdS s.tick b) then 1 else 0)]).endC w 4) := by
  simp [execTstb, halign, State.spIn_of_le hin, hfull, tstbEnd]

end Tests

/-- R198, R472: an atomic that is carried, or that meets no peer, takes effect and returns the old value. -/
theorem execAtoms_granted {op : AtomOp} {sc : Scope} (hl : s.g.loadsDue = false)
    (hx : s.xlate (s.g.rdP s.tick b) 8 .at = (s1, .ok key dup)) (hpeer : op.carried = true ∨ (s1.peerOf key).isSome = false)
    (hp : s1.poisonedHere key 8 = false) :
    let r := s1.atomicBytes key 8 .ar sc dup fun y =>
      (atomsNew op (BitVec.ofNat 64 y) (s.g.rdP s.tick c) (s.g.rdP s.tick (c + 2))).toNat
    execAtoms w a b c op sc s = .next ((r.1.resultC (pairDests r.1.g a (BitVec.ofNat 64 r.2))).endC w 4) := by
  have hcarried : ¬(!op.carried && (s1.peerOf key).isSome) = true := by
    rcases hpeer with h | h <;> simp [h]
  rw [execAtoms, afterLoads_performed hl]
  simp only [hx, if_neg hcarried, hp, Bool.false_eq_true, if_false]

/-! ## Barriers -/

section Barriers

/-- R203: a barrier's offset is sound where it is aligned and lies in the window. -/
theorem barOffsetFault_sound {o : Nat} (h : o % 16 = 0 ∧ o + 16 ≤ s.t.wsize) : barOffsetFault s o = none := by
  simp [barOffsetFault, h.1, State.spIn_of_le h.2]

/-- R158: an update that is no misuse is written, and a phase that it ends is noted. -/
theorem barInstr_updates {o : Nat} {ok upd : Bool} {f : Bar → Option Bar} {y : Bar} (h : o % 16 = 0 ∧ o + 16 ≤ s.t.wsize)
    (hok : ok = true) (hf : f (s.bar o) = some y) :
    barInstr w o ok upd f s =
      .next (((if upd && y.phase != (s.bar o).phase then noteFlip s s.g.ctx s.t.uid o else s).setBar o y).endC w 4) := by
  simp [barInstr, barOffsetFault_sound h, hok, hf]

variable (h : (s.g.rdS s.tick a).toNat % 16 = 0 ∧ (s.g.rdS s.tick a).toNat + 16 ≤ s.t.wsize)
include h

theorem execBari_inits (hbase : (s.g.rdS s.tick b).toNat ≤ 65535) :
    execBari w a b s = .next ((s.setBar (s.g.rdS s.tick a).toNat (barInit (s.g.rdS s.tick b).toNat)).endC w 4) :=
  barInstr_updates (upd := false) (f := fun _ => some (barInit (s.g.rdS s.tick b).toNat)) h (decide_eq_true hbase) rfl

theorem execBarx_updates {y : Bar} (hn : (s.g.rdS s.tick c).toNat ≤ 65535)
    (hy : barUpdate (s.bar (s.g.rdS s.tick a).toNat) (s.g.rdS s.tick b).toNat 0 (s.g.rdS s.tick c).toNat = some y) :
    let o := (s.g.rdS s.tick a).toNat
    execBarx w a b c s =
      .next (((if y.phase != (s.bar o).phase then noteFlip s s.g.ctx s.t.uid o else s).setBar o y).endC w 4) :=
  barInstr_updates (upd := true) (f := fun x => barUpdate x (s.g.rdS s.tick b).toNat 0 (s.g.rdS s.tick c).toNat) h
    (decide_eq_true hn) hy

theorem execBara_arrives {y : Bar} (hl : s.g.loadsDue = false) (hlow : 1 ≤ (s.g.rdS s.tick b).toNat)
    (hhigh : (s.g.rdS s.tick b).toNat ≤ 65535)
    (hy : barUpdate (s.bar (s.g.rdS s.tick a).toNat) 0 (s.g.rdS s.tick b).toNat 0 = some y) :
    let o := (s.g.rdS s.tick a).toNat
    execBara w a b s =
      .next (((if y.phase != (s.bar o).phase then noteFlip s s.g.ctx s.t.uid o else s).setBar o y).endC w 4) :=
  (afterLoads_performed hl).trans (barInstr_updates (upd := true) h (by simp [hlow, hhigh]) hy)

theorem execWaitb_holds (hlost : s.g.barLost = false)
    (ht : barTest (s.bar (s.g.rdS s.tick a).toNat) ((s.g.rdS s.tick b).getLsbD 0) = some true) :
    execWaitb w a b s = .next ((s.l1Invalidate s.l1Id).endC w 4) := by
  have hw : waitTest s (s.g.rdS s.tick a).toNat ((s.g.rdS s.tick b).getLsbD 0) = some true := by simp only [waitTest, hlost, ht]; rfl
  simp only [execWaitb, barOffsetFault_sound h, hw, barAcquire]

/-- R162: a YIELDC whose test holds acquires and goes on at its continuation. -/
theorem execYieldc_holds (hm : s.g.mode ≠ .handler) (hcont : (s.g.rdS s.tick c).extractLsb' 0 2 = 0)
    (hdry : s.g.drained s.g.cStrm = true) (hlost : s.g.barLost = false)
    (ht : barTest (s.bar (s.g.rdS s.tick a).toNat) ((s.g.rdS s.tick b).getLsbD 0) = some true) :
    execYieldc w a b c s = .next ((barAcquire (s.mapG fun g => g.dropReturned g.cStrm)).mapG fun g =>
      { g with pc := g.pc.extractLsb' 32 32 ++ s.g.rdS s.tick c, park := .none, waitBar := none, barLost := false }) := by
  have hlegal : ¬(s.g.inHandler || (s.g.rdS s.tick c).extractLsb' 0 2 ≠ 0) = true := by simp [Group.inHandler, hm, hcont]
  have hw : waitTest (s.mapG fun g => g.dropReturned g.cStrm) (s.g.rdS s.tick a).toNat ((s.g.rdS s.tick b).getLsbD 0) = some true := by
    have hl' : (s.mapG fun g => g.dropReturned g.cStrm).g.barLost = false := hlost
    simp only [waitTest, hl', Bool.false_eq_true, if_false]
    exact ht
  simp only [execYieldc, if_neg hlegal, barOffsetFault_sound h, hdry, hw]
  rfl

end Barriers

/-! ## Translation registers and lines -/

/-- R206: 1, 2 and 3 are the rights that TBIND accepts. -/
theorem rightsWanted_legal (x : Word) (hx : x.toNat ∈ [1, 2, 3]) : ¬(x.extractLsb' 2 30 ≠ 0 || x.extractLsb' 0 2 = 0) = true := by
  have hcases : x = 1 ∨ x = 2 ∨ x = 3 := by
    simp only [List.mem_cons, List.not_mem_nil, or_false] at hx
    simp only [← BitVec.toNat_inj]
    exact hx
  rcases hcases with rfl | rfl | rfl <;> decide

theorem execTbind_binds {j : BitVec 4} {r : TReg} (hrights : (s.g.rdS s.tick b).toNat ∈ [1, 2, 3])
    (hr : let u := if canonical (s.g.rdP s.tick a) then s.countEvent s.g.ctx 0x0D 1 else s
      bindBase u u.g.ctx (s.g.rdP s.tick a) ((s.g.rdS s.tick b).extractLsb' 0 2) = .ok r) :
    let u := if canonical (s.g.rdP s.tick a) then s.countEvent s.g.ctx 0x0D 1 else s
    execTbind w j a b s = .next ((u.mapG fun g => g.wrT j.toNat r).endC w 4) := by
  simp only [execTbind, if_neg (rightsWanted_legal _ hrights), hr]

theorem execObjld_binds {j : BitVec 4} {r : TReg} (hidx : (s.g.rdS s.tick a).toNat < 2 ^ 16)
    (hr : bindObj s.objAcquire s.objAcquire.g.ctx (s.g.rdS s.tick a).toNat = .ok r) :
    let u := s.objAcquire
    execObjld w j a s = .next (((u.countEvent u.g.ctx 0x0D 1).mapG fun g => g.wrT j.toNat r).endC w 4) := by
  simp only [execObjld, if_neg (not_not.mpr ((upperHalf_eq_zero_iff _).mpr hidx)), hr]

theorem execEmpty_empties (hin : (s.g.rdS s.tick a).toNat + (s.g.rdS s.tick b).toNat ≤ s.t.wsize)
    (hn : (s.g.rdS s.tick b).toNat ≠ 0) :
    let o := (s.g.rdS s.tick a).toNat
    execEmpty w a b s = .next ((s.emptyLines ((List.range (s.t.wsize / 128)).filter fun l =>
      o / 128 ≤ l && l ≤ (o + (s.g.rdS s.tick b).toNat - 1) / 128)).endC w 4) := by
  simp only [execEmpty, if_neg (Nat.not_lt.mpr hin), if_neg hn]

/-! ## Where the heap leaves the group -/

/-- Where a group stands: its pc and its mode. -/
def Group.place (g : Group) : DWord × Mode := (g.pc, g.mode)

theorem heapGive_place (uid : Nat) (e : Word × Word) : (heapGive s uid e).g.place = s.g.place := by
  simp only [heapGive, State.mapGroups]
  split <;> rfl

/-- R65: serving the waiters moves no group. -/
theorem serveHeap_place (sl ctx n : Nat) (s : State) : (serveHeap sl ctx n s).g.place = s.g.place := by
  induction n generalizing s with
  | zero => rfl
  | succ n ih =>
    unfold serveHeap
    split
    · exact (ih _).trans (heapGive_place _ _)
    · split
      · rfl
      · split
        · rfl
        · exact (ih _).trans (heapGive_place _ _)

theorem State.acquire_g (s : State) (sc : Scope) : (s.acquire sc).g = s.g := by
  unfold State.acquire
  split <;> rfl

/-- R92: a result on its way changes what is pending, nothing else. -/
theorem Group.addPend_place (g : Group) (p : Pend) : (g.addPend p).place = g.place := by
  have hdrop (g : Group) (key : Nat) (bits : Word) : (g.dropBits key bits).place = g.place := by
    unfold Group.dropBits
    split <;> rfl
  have hfold (ds : List Dest) : ∀ g : Group, (ds.foldl (fun g d => g.dropBits d.key d.bits) g).place = g.place := by
    induction ds with
    | nil => exact fun _ => rfl
    | cons d ds ih => exact fun g => (ih _).trans (hdrop g d.key d.bits)
  exact hfold _ g

section Take

variable {v : Bool} {q : QReg}

/-- R208: a take that has an entry goes on at the next word. -/
theorem heapTaken_completes (e : Word × Word) :
    ∃ t, heapTaken w a b q e s = .next t ∧ t.g.pc = s.g.pc + 4 ∧ t.g.mode = s.g.mode := by
  obtain ⟨u, hexec, hplace⟩ : ∃ u : State, heapTaken w a b q e s = .next (u.endC w 4) ∧ u.g.place = s.g.place :=
    ⟨_, rfl, (Group.addPend_place _ _).trans (congrArg Group.place (s.acquire_g .slc))⟩
  obtain ⟨-, -, -, -, -, -, -, -, -, hmode, -, hpc⟩ := u.g.endC_regs w 4
  exact ⟨_, hexec, hpc.trans (congrArg (· + 4) (congrArg Prod.fst hplace)), hmode.trans (congrArg Prod.snd hplace)⟩

/-- R65, R208: HEAPTAKE with an entry left completes, whether the heap gave it one before or it picks one. -/
theorem heaptake_completes {e : HeapEntry} (he : heapPick s.heapServe s.heapServe.sliceId s.heapServe.g.ctx = some e) :
    ∃ t, exec (.heaptake w a b v q) s = .next t ∧ t.g.pc = s.g.pc + 4 ∧ t.g.mode = s.g.mode := by
  obtain ⟨e', u, hexec, hplace⟩ : ∃ e' u, execHeaptake w a b v q s = heapTaken w a b q e' u ∧ u.g.place = s.g.place := by
    have hserve : s.heapServe.g.place = s.g.place := serveHeap_place _ _ _ s
    by_cases hno : s.heapServe.g.park ≠ .heaptake ∨ s.heapServe.g.heapW.got = none
    · exact ⟨_, _, execHeaptake_picks hno he, (serveHeap_place _ _ _ _).trans hserve⟩
    · obtain ⟨hp, hgot⟩ := not_or.mp hno
      obtain ⟨e', he'⟩ := Option.ne_none_iff_exists'.mp hgot
      exact ⟨_, _, execHeaptake_served (not_not.mp hp) he', hserve⟩
  obtain ⟨t, ht, hpc, hmode⟩ := heapTaken_completes (s := u) (w := w) (a := a) (b := b) (q := q) e'
  exact ⟨t, hexec.trans ht, hpc.trans (congrArg (· + 4) (congrArg Prod.fst hplace)), hmode.trans (congrArg Prod.snd hplace)⟩

end Take

/-! ## The format block and the Sinter -/

/-- R258: a sound format is taken from a run of four registers. -/
theorem execMfmt_sound {f : QWord} (hm : s.g.mode ≠ .handler) (hrun : a.toNat + 4 ≤ 64)
    (hf : f = let r := s.g.rdRun s.tick a 4; r.getD 3 0 ++ r.getD 2 0 ++ r.getD 1 0 ++ r.getD 0 0) (hok : fmtOk f = true) :
    execMfmt w a s = .next ((s.mapG fun g => { g with fmt := f }).endC w 4) := by
  have hlegal : ¬(s.g.inHandler || 64 < a.toNat + 4) = true := by simp [Group.inHandler, hm]; omega
  simp only [execMfmt, if_neg hlegal, ← hf, if_pos hok]

/-- R337: a region that no slot serves is selected. -/
theorem execApxkill_unbound (hl : illegalHere s = false) (hv : (s.g.rdS s.tick a).toNat < 2 ^ 9)
    (hslot : findSlot (s.cluster s.clusterId) s.g.ctx (BitVec.ofNat 8 (s.g.rdS s.tick a).toNat) = none) :
    execApxkill w a s = .next ((s.mapG fun g =>
      { g with apxRegion := some (BitVec.ofNat 8 (s.g.rdS s.tick a).toNat) }).endC w 4) := by
  simp only [execApxkill, hl, Bool.false_eq_true, if_false, if_neg (Nat.not_le.mpr hv), hslot]

/-! ## YIELD -/

/-- R204: without a soft request YIELD ends as any word and notes the groups that go first. -/
theorem yield_completes (hsoft : s.t.softReq = none) :
    ∃ t, exec (.yield w) s = .next t ∧ t.g.pc = s.g.pc + 4 ∧ t.g.mode = s.g.mode ∧ t.g.s = s.g.s := by
  obtain ⟨hs, -, -, -, -, -, -, -, -, hmode, -, hpc⟩ := s.g.endC_regs w 4
  have hno : ¬((s.endC w 4).t.softReq.isSome = true) := by
    show ¬(s.t.softReq.isSome = true)
    simp [hsoft]
  exact ⟨_, if_neg hno, hpc, hmode, hs⟩

/-- Settles O60: each word by the lemma of its effect, and by what the end of a control word leaves. -/
theorem groupWordsComplete : Obligations.GroupWordsComplete := by
  intro w v a b c i k n q j ck op sc fk s A B C Pa goes word o x sound flip last lastGrid controller
  have completes {x : Instr} {u : State} (h : exec x s = .next (u.endC w 4)) : goes x u := completes_of_endC h
  refine ⟨?lds, ?sts, ?ldc, ?tstb, ?tstbWindow, ?atoms, ?fence, ?bari, ?barx, ?bara, ?waitb, ?yield, ?yieldc, ?teambar, ?teambarLast,
    ?gridbar, ?gridbarLast, ?lwait, ?tbind, ?tdrop, ?objld, ?empty, ?heapadd, ?heaptake, ?mfmt, ?pcntRd, ?pcntWr, ?pcntSel, ?apxkill,
    ?exit, ?exitto, ?groupEnd, ?trap⟩
  case lds => exact fun s1 key dup hx hp => completes (execLds_granted hx hp)
  case sts => exact fun s1 key dup hx => completes (execSts_granted hx)
  case ldc => exact fun s1 key dup halign hlow hhigh hx hp => completes (execLdc_granted rfl halign hlow hhigh hx hp)
  case tstb => exact fun s1 key dup hx hp => completes (execTstb_memory hx hp)
  case tstbWindow => exact fun halign hin hfull => completes (execTstb_window halign hin hfull)
  case atoms => exact fun s1 key dup hl hx hpeer hp => completes (execAtoms_granted hl hx hpeer hp)
  case fence => exact fun hl => completes (execFence_performed hl)
  case bari => exact fun h hbase => completes (execBari_inits h hbase)
  case barx => exact fun y h hn hy => completes (execBarx_updates h hn hy)
  case bara => exact fun y hl h hlow hhigh hy => completes (execBara_arrives h hl hlow hhigh hy)
  case waitb => exact fun h hlost ht => completes (execWaitb_holds h hlost ht)
  case yield => exact yield_completes
  case yieldc =>
    exact fun h hm hcont hdry hlost ht => ⟨_, execYieldc_holds (w := w) h hm hcont hdry hlost ht, rfl, rfl, rfl, rfl, rfl⟩
  case teambar =>
    exact fun hm h hall => completes ((execTeambar_counted hm h).trans (congrArg _ (if_pos hall)))
  case teambarLast => exact fun hm h hq hl hall => completes (execTeambar_last hm h hq hl hall)
  case gridbar => exact fun hm hc h hall => completes (execGridbar_counted hm hc h hall)
  case gridbarLast => exact fun hm hc h hq hl hall => completes (execGridbar_last hm hc h hq hl hall)
  case lwait => exact fun hq => completes (execLwait_done hq)
  case tbind => exact fun r hrights hr => completes (execTbind_binds hrights hr)
  case tdrop => exact completes rfl
  case objld => exact fun r hidx hr => completes (execObjld_binds hidx hr)
  case empty => exact fun hin hn => completes (execEmpty_empties hin hn)
  case heapadd => exact fun hl hno hroom => completes (execHeapadd_room hl hno hroom)
  case heaptake => exact fun e => heaptake_completes
  case mfmt => exact fun hm hrun hok => completes (execMfmt_sound hm hrun rfl hok)
  case pcntRd => exact fun hm hfree => completes (execPcntRd_counted hm hfree)
  case pcntWr => exact fun hc => completes (execPcntWr_controller hc)
  case pcntSel => exact fun hc hcode => completes (execPcntSel_controller hc hcode)
  case apxkill => exact fun hl hv hslot => completes (execApxkill_unbound hl hv hslot)
  case exit => exact fun hm hmay => ⟨_, (exit_user hm).trans (exitGroup_ends hmay), rfl⟩
  case exitto => exact fun hm hc hcard hmay => ⟨_, (exitto_user hm hc hcard).trans (exitGroup_ends hmay), rfl⟩
  case groupEnd => exact fun he hp hmay hr hf => ⟨_, execGroupEnd_ends he hp hmay hr hf, rfl⟩
  case trap =>
    intro hm hvec hscr
    obtain ⟨t, ht, hmode, hpc, hsaved, -, hcause, -⟩ := trap_handled w k hm hvec hscr
    exact ⟨t, ht, hmode, hpc, hsaved, hcause⟩

end Sys2Proof.Machine
end

section
/-! Decoding and encoding are inverse (R74, R75, R82, R83), and words written out from the spec decode to their instructions. -/

namespace Sys2Proof.Laws

/-! ## Decoding undoes encoding -/

/-- Every instruction has its statement, each proved from its own fields. -/
theorem Codec.statement (i : Instr) : Codec.Statement i :=
  match i with
  | .nop w => Codec.nop w | .sleep w a => Codec.sleep w a | .clock w d a => Codec.clock w d a
  | .query w d a => Codec.query w d a | .movsr w d i => Codec.movsr w d i | .add w d a b => Codec.add w d a b
  | .sub w d a b => Codec.sub w d a b | .mul w d a b => Codec.mul w d a b | .mulhs w d a b => Codec.mulhs w d a b
  | .mulhn w d a b => Codec.mulhn w d a b | .divs w d a b => Codec.divs w d a b | .divn w d a b => Codec.divn w d a b
  | .rems w d a b => Codec.rems w d a b | .remn w d a b => Codec.remn w d a b | .and w d a b => Codec.and w d a b
  | .or w d a b => Codec.or w d a b | .xor w d a b => Codec.xor w d a b | .andn w d a b => Codec.andn w d a b
  | .shl w d a b => Codec.shl w d a b | .shr w d a b => Codec.shr w d a b | .sar w d a b => Codec.sar w d a b
  | .rotl w d a b => Codec.rotl w d a b | .mins w d a b => Codec.mins w d a b | .maxs w d a b => Codec.maxs w d a b
  | .minn w d a b => Codec.minn w d a b | .maxn w d a b => Codec.maxn w d a b | .clz w d a => Codec.clz w d a
  | .popc w d a => Codec.popc w d a | .brev w d a => Codec.brev w d a | .sel w d a n q => Codec.sel w d a n q
  | .addi w d a i => Codec.addi w d a i | .muli w d a i => Codec.muli w d a i | .andi w d a i => Codec.andi w d a i
  | .ori w d a i => Codec.ori w d a i | .xori w d a i => Codec.xori w d a i | .shi w d a o n => Codec.shi w d a o n
  | .movi w d i => Codec.movi w d i | .movhi w d i => Codec.movhi w d i | .cmp w q a b c => Codec.cmp w q a b c
  | .cmpi w c q a i => Codec.cmpi w c q a i | .add64 w d a b => Codec.add64 w d a b
  | .sub64 w d a b => Codec.sub64 w d a b | .mul64 w d a b => Codec.mul64 w d a b
  | .add128 w d a b => Codec.add128 w d a b | .shl64 w d a b => Codec.shl64 w d a b
  | .shr64 w d a b => Codec.shr64 w d a b | .bfx w a b c => Codec.bfx w a b c | .bfi w a b c => Codec.bfi w a b c
  | .qand w a n b m c => Codec.qand w a n b m c | .qor w a n b m c => Codec.qor w a n b m c
  | .qxor w a n b m c => Codec.qxor w a n b m c | .qnot w a b => Codec.qnot w a b | .br w o => Codec.br w o
  | .brq w q sense o => Codec.brq w q sense o | .call w o => Codec.call w o | .jmpi w a => Codec.jmpi w a
  | .calli w d a => Codec.calli w d a | .ret w a => Codec.ret w a | .loop w d i => Codec.loop w d i
  | .exit w => Codec.exit w | .exitto w a b => Codec.exitto w a b | .trap w c => Codec.trap w c
  | .tstb w a b q sp t => Codec.tstb w a b q sp t | .lds w d a i => Codec.lds w d a i
  | .sts w d a i => Codec.sts w d a i | .ldc w d a i => Codec.ldc w d a i
  | .atoms w a b c op sc => Codec.atoms w a b c op sc | .lrun w a i => Codec.lrun w a i
  | .chsend w a b => Codec.chsend w a b | .chrecv w a b peek => Codec.chrecv w a b peek
  | .chstat w a b => Codec.chstat w a b | .fence w sc k => Codec.fence w sc k | .bari w a b => Codec.bari w a b
  | .barx w a b c => Codec.barx w a b c | .bara w a b => Codec.bara w a b | .waitb w a b => Codec.waitb w a b
  | .yield w => Codec.yield w | .yieldc w a b c => Codec.yieldc w a b c | .teambar w => Codec.teambar w
  | .gridbar w => Codec.gridbar w | .lwait w => Codec.lwait w | .tbind w t b c => Codec.tbind w t b c
  | .tdrop w t => Codec.tdrop w t | .objld w t b => Codec.objld w t b | .cpyb w a b c => Codec.cpyb w a b c
  | .cpyg w a b c => Codec.cpyg w a b c | .cpyq w a b c => Codec.cpyq w a b c | .empty w a b => Codec.empty w a b
  | .heapadd w a b wait q => Codec.heapadd w a b wait q | .heaptake w a b wait q => Codec.heaptake w a b wait q
  | .mfmt w a => Codec.mfmt w a | .mloop w a b c => Codec.mloop w a b c | .mconv w a b c => Codec.mconv w a b c
  | .mstore w a b c => Codec.mstore w a b c | .mzero w n => Codec.mzero w n | .mstat w a n => Codec.mstat w a n
  | .sproj w a b => Codec.sproj w a b | .sbin w a b => Codec.sbin w a b | .sblend w a b => Codec.sblend w a b
  | .sgrad w a b => Codec.sgrad w a b | .apxdef w a q => Codec.apxdef w a q | .apxkill w a => Codec.apxkill w a
  | .encsub w a b => Codec.encsub w a b | .chimgate w a => Codec.chimgate w a | .movsw w a i => Codec.movsw w a i
  | .pcntRd w a n => Codec.pcntRd w a n | .pcntWr w a n => Codec.pcntWr w a n | .pcntSel w a n => Codec.pcntSel w a n
  | .rett w => Codec.rett w | .ctxsave w a b q => Codec.ctxsave w a b q | .ctxload w a b q => Codec.ctxload w a b q
  | .haltSoft w a q => Codec.haltSoft w a q | .haltHard w a q => Codec.haltHard w a q
  | .freezeFreeze w a q => Codec.freezeFreeze w a q | .freezeThaw w a q => Codec.freezeThaw w a q
  | .freezeReset w a q => Codec.freezeReset w a q | .limm i => Codec.limm i | .fadd h d a b r => Codec.fadd h d a b r
  | .fsub h d a b r => Codec.fsub h d a b r | .fmul h d a b r => Codec.fmul h d a b r
  | .ffma h d a b c r => Codec.ffma h d a b c r | .ffms h d a b c r => Codec.ffms h d a b c r
  | .fmin h d a b => Codec.fmin h d a b | .fmax h d a b => Codec.fmax h d a b
  | .fcmp h d c a b => Codec.fcmp h d c a b | .fclass h d a => Codec.fclass h d a
  | .fdiv h d a b r => Codec.fdiv h d a b r | .frcp h d a r => Codec.frcp h d a r
  | .frsq h d a r => Codec.frsq h d a r | .fsqrt h d a r => Codec.fsqrt h d a r | .ex2 h d a r => Codec.ex2 h d a r
  | .lg2 h d a r => Codec.lg2 h d a r | .fsint h d a r => Codec.fsint h d a r | .fcost h d a r => Codec.fcost h d a r
  | .frint h d a rm => Codec.frint h d a rm | .ffloor h d a => Codec.ffloor h d a | .fceil h d a => Codec.fceil h d a
  | .ftrunc h d a => Codec.ftrunc h d a | .ffract h d a rm => Codec.ffract h d a rm
  | .fscale h d a b r => Codec.fscale h d a b r | .fgetexp h d a => Codec.fgetexp h d a
  | .fcopysign h d a b => Codec.fcopysign h d a b | .hadd2 h ty d a b r => Codec.hadd2 h ty d a b r
  | .hsub2 h ty d a b r => Codec.hsub2 h ty d a b r | .hmul2 h ty d a b r => Codec.hmul2 h ty d a b r
  | .hfma2 h ty d a b c r => Codec.hfma2 h ty d a b c r | .hmin2 h ty d a b => Codec.hmin2 h ty d a b
  | .hmax2 h ty d a b => Codec.hmax2 h ty d a b | .hcmp2 h ty d c a b => Codec.hcmp2 h ty d c a b
  | .hdot2 h ty d a b c r => Codec.hdot2 h ty d a b c r
  | .cvt h ty sty shi sr d a r => Codec.cvt h ty sty shi sr d a r
  | .cvt2 h ty sty sr d a r => Codec.cvt2 h ty sty sr d a r
  | .cvt4 h ty sty sr d a b r => Codec.cvt4 h ty sty sr d a b r
  | .cvt8 h ty sty sr d a b r => Codec.cvt8 h ty sty sr d a b r
  | .qdec h ty sr d a b c r => Codec.qdec h ty sr d a b c r | .qenc h d a b c i => Codec.qenc h d a b c i
  | .ftoi h ty sty shi d a rm => Codec.ftoi h ty sty shi d a rm
  | .itof h ty sty shi sr d a r => Codec.itof h ty sty shi sr d a r
  | .icvt h ty sty shi d a sat => Codec.icvt h ty sty shi d a sat | .iadd h ty d a b sat => Codec.iadd h ty d a b sat
  | .isub h ty d a b sat => Codec.isub h ty d a b sat | .imul h ty d a b sat => Codec.imul h ty d a b sat
  | .imulh h ty d a b => Codec.imulh h ty d a b | .imad h ty d a b c sat => Codec.imad h ty d a b c sat
  | .imin h ty d a b => Codec.imin h ty d a b | .imax h ty d a b => Codec.imax h ty d a b
  | .iabs h ty d a sat => Codec.iabs h ty d a sat | .ishl h ty d a n => Codec.ishl h ty d a n
  | .ishr h ty d a n => Codec.ishr h ty d a n | .isar h ty d a n => Codec.isar h ty d a n
  | .fshl h d a b n => Codec.fshl h d a b n | .fshr h d a b n => Codec.fshr h d a b n
  | .logic3 h d a b c tt => Codec.logic3 h d a b c tt | .laneBfx h ty d a b => Codec.laneBfx h ty d a b
  | .laneBfi h ty d a b c => Codec.laneBfi h ty d a b c | .lanePopc h d a => Codec.lanePopc h d a
  | .laneClz h d a => Codec.laneClz h d a | .laneBrev h d a => Codec.laneBrev h d a
  | .icmp h ty d c a b => Codec.icmp h ty d c a b | .laneSel h ty d a b m neg => Codec.laneSel h ty d a b m neg
  | .idot4 h ty d a b c sat => Codec.idot4 h ty d a b c sat | .isad h d a b c => Codec.isad h d a b c
  | .iaddc h sub d a b m => Codec.iaddc h sub d a b m | .mov h ty d a => Codec.mov h ty d a
  | .laneMovi h d hi i => Codec.laneMovi h d hi i | .shfl h ty d a b => Codec.shfl h ty d a b
  | .shflx h ty d a x => Codec.shflx h ty d a x | .shfld h ty dn d a n => Codec.shfld h ty dn d a n
  | .bcast h ty d a n => Codec.bcast h ty d a n | .vote h op d a => Codec.vote h op d a
  | .reduce h op ty d a => Codec.reduce h op ty d a | .prefixOp h op excl ty d a => Codec.prefixOp h op excl ty d a
  | .brl h t j => Codec.brl h t j | .join w => Codec.join w | .lend w => Codec.lend w | .kill h => Codec.kill h
  | .ltrap h c => Codec.ltrap h c | .movs h d i => Codec.movs h d i
  | .ld h ty o sc d dh m => Codec.ld h ty o sc d dh m | .st h ty o sc ch m c => Codec.st h ty o sc ch m c
  | .ldx h ty o sc d dh x => Codec.ldx h ty o sc d dh x | .stx h ty o sc ch x c => Codec.stx h ty o sc ch x c
  | .atom h op ty o sc d m c => Codec.atom h op ty o sc d m c
  | .atomx h op ty o sc d x c => Codec.atomx h op ty o sc d x c | .red h op ty o sc m c => Codec.red h op ty o sc m c
  | .lcpy h sc m b c => Codec.lcpy h sc m b c | .pref h sc t a disp => Codec.pref h sc t a disp
  | .rng h d a b => Codec.rng h d a b | .rngNext h d => Codec.rngNext h d | .rngSeed h a b => Codec.rngSeed h a b
  | .rngCtr h d => Codec.rngCtr h d | .rngKey h d => Codec.rngKey h d | .add128l h d a b => Codec.add128l h d a b
  | .add128lCtr h a => Codec.add128lCtr h a | .attr h m d i => Codec.attr h m d i
  | .deriv h y fine d a => Codec.deriv h y fine d a | .texs h dim d a t => Codec.texs h dim d a t
  | .texl h dim d a b t => Codec.texl h dim d a b t | .texg h dim comp d a t => Codec.texg h dim comp d a t
  | .texq h ext d b t => Codec.texq h ext d b t | .trace h any d a b t => Codec.trace h any d a b t
  | .expc h bl a n => Codec.expc h bl a n | .expz h a => Codec.expz h a | .apxenter h m r => Codec.apxenter h m r
  | .apxin h a i => Codec.apxin h a i | .apxout h d j => Codec.apxout h d j
  | .apxoutProbe h d j r => Codec.apxoutProbe h d j r | .apxexit h last a j => Codec.apxexit h last a j
  | .fmma h d a b c => Codec.fmma h d a b c | .fmld h ty acc tr d m b => Codec.fmld h ty acc tr d m b
  | .fmst h ty acc m b c => Codec.fmst h ty acc m b c | .longLatencyReturn k => Codec.longLatencyReturn k
  | .blockStart => Codec.blockStart | .groupEnd => Codec.groupEnd | .successorStart => Codec.successorStart
  | .cardAdmit slice queue => Codec.cardAdmit slice queue | .cardStart card => Codec.cardStart card
  | .cardComplete card => Codec.cardComplete card | .dispatchTeam vf => Codec.dispatchTeam vf
  | .fragmentGroupLaunch card => Codec.fragmentGroupLaunch card | .issueAgeLimit => Codec.issueAgeLimit
  | .copyUnitArrive copy => Codec.copyUnitArrive copy | .copyPageFault copy => Codec.copyPageFault copy
  | .matrixStep cluster bank => Codec.matrixStep cluster bank
  | .mstoreRun cluster bank => Codec.mstoreRun cluster bank | .mzeroRun cluster bank => Codec.mzeroRun cluster bank
  | .splatCommandStart team => Codec.splatCommandStart team | .sprojGranule team => Codec.sprojGranule team
  | .sbinGranule team => Codec.sbinGranule team | .sblendTile team => Codec.sblendTile team
  | .sgradTile team => Codec.sgradTile team | .splatGranuleFault team => Codec.splatGranuleFault team
  | .invocationArrive cluster => Codec.invocationArrive cluster | .guardWrite key => Codec.guardWrite key
  | .encodeFrameDone slice => Codec.encodeFrameDone slice | .tileRowRead slice => Codec.tileRowRead slice
  | .handlerEntry => Codec.handlerEntry | .logRetry vf => Codec.logRetry vf
  | .poolRefill ctx frame => Codec.poolRefill ctx frame | .sleepExpire => Codec.sleepExpire
  | .graceExpire team => Codec.graceExpire team | .killExpire team => Codec.killExpire team
  | .watchdogExpire team => Codec.watchdogExpire team | .starveExpire slice queue => Codec.starveExpire slice queue
  | .vsync vf => Codec.vsync vf | .roofAreaLoad cluster => Codec.roofAreaLoad cluster
  | .roofGate cluster => Codec.roofGate cluster | .roofWake cluster => Codec.roofWake cluster
  | .bwWindowEnd slice p99 => Codec.bwWindowEnd slice p99 | .throttlePeriod slice => Codec.throttlePeriod slice
  | .snoopParityError set => Codec.snoopParityError set | .ckptFrameCopied ctx => Codec.ckptFrameCopied ctx
  | .ckptStreamEnd ctx ok => Codec.ckptStreamEnd ctx ok | .peerAckTimeout peer => Codec.peerAckTimeout peer
  | .peerProbe peer answered => Codec.peerProbe peer answered | .fwHeartbeat slice => Codec.fwHeartbeat slice
  | .fwHeartbeatTimeout slice => Codec.fwHeartbeatTimeout slice
  | .sliceControllerFault slice code => Codec.sliceControllerFault slice code
  | .deviceManagerFault => Codec.deviceManagerFault | .powerOn => Codec.powerOn
  | .powerCapAdjust mhz => Codec.powerCapAdjust mhz
  | .hostMemAccess vf pasid addr req => Codec.hostMemAccess vf pasid addr req
  | .hostAtomic vf addr req => Codec.hostAtomic vf addr req | .hostUnsupportedRequest => Codec.hostUnsupportedRequest
  | .peerAccess vf addr req => Codec.peerAccess vf addr req
  | .mailboxRegisterWrite fn off v => Codec.mailboxRegisterWrite fn off v | .qdesc fn => Codec.qdesc fn
  | .qreset fn => Codec.qreset fn | .xblock fn => Codec.xblock fn | .sblock fn => Codec.sblock fn
  | .shoot fn => Codec.shoot fn | .dirtylog fn => Codec.dirtylog fn | .quota fn => Codec.quota fn
  | .intf fn => Codec.intf fn | .pmake fn => Codec.pmake fn | .pfree fn => Codec.pfree fn | .fuse fn => Codec.fuse fn
  | .split fn => Codec.split fn | .engines fn => Codec.engines fn | .ways fn => Codec.ways fn
  | .bwclass fn => Codec.bwclass fn | .lease fn => Codec.lease fn | .revoke fn => Codec.revoke fn
  | .sreset fn => Codec.sreset fn | .report fn => Codec.report fn | .zero fn => Codec.zero fn
  | .ckpt fn => Codec.ckpt fn | .restore fn => Codec.restore fn | .fwstage fn => Codec.fwstage fn
  | .fwupdate fn => Codec.fwupdate fn | .getVersion => Codec.getVersion | .getCapabilities => Codec.getCapabilities
  | .negotiateAlgorithms => Codec.negotiateAlgorithms | .getDigests => Codec.getDigests
  | .getCertificate => Codec.getCertificate | .challenge => Codec.challenge
  | .getMeasurements index => Codec.getMeasurements index | .keyExchange => Codec.keyExchange
  | .finish => Codec.finish | .illegalInstruction lane => Codec.illegalInstruction lane
  | .storePerformed core key => Codec.storePerformed core key
  | .duplicateAcknowledge core key => Codec.duplicateAcknowledge core key
  | .zeroingDone slice => Codec.zeroingDone slice | .powerLoss => Codec.powerLoss
  | .worenPortLoss port => Codec.worenPortLoss port | .roceReceive vf addr req => Codec.roceReceive vf addr req

/-- Settles O1: the statement of the encoding, instruction by instruction. -/
theorem decodeEncode : Obligations.DecodeEncode := Codec.statement

end Sys2Proof.Laws

namespace Sys2Proof

/-! ## Encoding undoes decoding -/

/-- Two runs of bits that lie side by side make one run. -/
theorem extract_append_extract {w a b s t : Nat} (x : BitVec w) (h : s = t + b) :
    x.extractLsb' s a ++ x.extractLsb' t b = x.extractLsb' t (a + b) :=
  (BitVec.extractLsb'_append_extractLsb'_eq_extractLsb' h).trans rfl

/-- A control word is the word of its fields. -/
theorem CFields.toWord_ofWord (x : Word) : (CFields.ofWord x).toWord = x := by
  simp only [CFields.toWord, CFields.ofWord]
  repeat rw [extract_append_extract x (by rfl)]
  exact BitVec.extractLsb'_eq_self

/-- An operand's ten bits are those of the operand. -/
theorem LOpn.toBits_ofBits (x : BitVec 10) : (LOpn.ofBits x).toBits = x := by
  simp only [LOpn.toBits, LOpn.ofBits]
  repeat rw [extract_append_extract x (by rfl)]
  exact BitVec.extractLsb'_eq_self

/-- A lane word is the word of its fields. -/
theorem LFields.toWord_ofWord (x : LWord) : (LFields.ofWord x).toWord = x := by
  simp only [LFields.toWord, LFields.ofWord, LOpn.toBits_ofBits]
  repeat rw [extract_append_extract x (by rfl)]
  exact BitVec.extractLsb'_eq_self

/-- A control word that decodes has the fields of a well-formed instruction. -/
theorem decodeC_ok {x : Word} {i : Instr} (h : decodeC x = .ok i) : i.wf = true ∧ fieldsC i = some (CFields.ofWord x) := by
  unfold decodeC at h
  dsimp only at h
  split at h
  · cases h
  · split_ifs at h with hf hwf
    cases h
    exact ⟨hwf, hf⟩

/-- A lane word that decodes has the fields of a well-formed instruction. -/
theorem decodeL_ok {x : LWord} {i : Instr} (h : decodeL x = .ok i) : i.wf = true ∧ fieldsL i = some (LFields.ofWord x) := by
  unfold decodeL at h
  dsimp only at h
  split at h
  · cases h
  · split_ifs at h with hf hwf
    cases h
    exact ⟨hwf, hf⟩

/-- Settles O2: what decodes has the fields of its word, and the word is that of its fields. -/
theorem encodeDecode : Obligations.EncodeDecode := by
  refine ⟨fun x i h => ?control, fun x i h => ?lane⟩
  case control =>
    obtain ⟨hwf, hf⟩ := decodeC_ok h
    exact ⟨hwf, by rw [encodeC, hf, Option.map_some, CFields.toWord_ofWord]⟩
  case lane =>
    obtain ⟨hwf, hf⟩ := decodeL_ok h
    exact ⟨hwf, by rw [encodeL, hf, Option.map_some, LFields.toWord_ofWord]⟩

/-! ## Words of the spec -/

/-- Settles O3: each word by evaluating the decoder on it. -/
theorem decodeWords : Obligations.DecodeWords :=
  ⟨rfl, rfl, rfl, rfl, rfl, rfl, rfl, rfl, rfl, rfl, rfl, rfl, rfl⟩

end Sys2Proof
end

section
/-! The immediate group (R187), alone and in the pair of a LIMM (R77, R78). -/

namespace Sys2Proof.Machine

/-! ## Immediates -/

/-- R78: the low 32 bits of imm26 ## imm13. -/
theorem pairImm_eq (hi : BitVec 26) (j : BitVec 13) :
    (hi ++ j).extractLsb' 0 32 = BitVec.ofNat 32 (hi.toNat * 2 ^ 13 + j.toNat) := by
  apply BitVec.eq_of_toNat_eq
  rw [BitVec.extractLsb'_toNat, BitVec.toNat_append, BitVec.toNat_ofNat, Nat.shiftRight_zero,
    ← Nat.shiftLeft_add_eq_or_of_lt j.isLt, Nat.shiftLeft_eq]

/-- R187: a rotation by a count of five bits. -/
theorem shiftBy_rotl (a : Word) (n : BitVec 5) :
    shiftBy .rotl a n.toNat = (a <<< n.toNat) ||| (a >>> (32 - n.toNat)) := by
  rw [shiftBy, BitVec.rotateLeft_def, Nat.mod_eq_of_lt n.isLt]

/-- MOVI after a LIMM takes the low 13 bits of its immediate, whose upper 6 are 0. -/
theorem limmPair_movi (hi : BitVec 26) (w : Bool) (d : SReg) (j : BitVec 13) (s : State) :
    limmPair hi (.movi w d (j.setWidth 19)) s = some (writeS w 8 d ((hi ++ j).extractLsb' 0 32) s) := by
  have hlow : (j.setWidth 19).extractLsb' 0 13 = j := extract_setWidth j (by decide)
  have hhigh : (j.setWidth 19).extractLsb' 13 6 = 0 := by
    rw [extract_setWidth_sub j 13 6 (by decide)]
    ext k
    simp
  simp only [limmPair, hlow, hhigh, if_true]

/-! ## The pair -/

/-- R78: a LIMM before a word that may follow it issues as the pair. -/
theorem execLimm_pair {hi : BitVec 26} {s s1 : State} {x : Word} {i : Instr} {r : Res}
    (hx : fetchC s (s.g.pc + 4) = .word s1 x) (hi' : decodeC x = .ok i) (hr : limmPair hi i s1 = some r) :
    exec (.limm hi) s = r := by
  show execLimm hi s = r
  simp only [execLimm, hx, hi', hr, Option.getD_some]

/-- Settles O15: alone, each word is its definition; after a LIMM, it is the pair's meaning with the pair's immediate. -/
theorem immediateResults : Obligations.ImmediateResults := by
  refine ⟨fun w d a i s => ?alone, fun hi j w d a q c s s1 x i hx hdec => ?pair⟩
  case alone =>
    exact ⟨rfl, rfl, rfl, rfl, rfl, fun n => ⟨rfl, rfl, rfl, congrArg (fun v => writeS w 4 d v s) (shiftBy_rotl _ n)⟩,
      fun _ => rfl, fun _ => rfl⟩
  case pair =>
    have pair {k : Instr} {r : Res} (hk : i = k) (hr : limmPair hi k s1 = some r) : exec (.limm hi) s = r :=
      execLimm_pair hx hdec (hk ▸ hr)
    rw [← pairImm_eq]
    exact ⟨fun h => pair h rfl, fun h => pair h rfl, fun h => pair h rfl, fun h => pair h rfl, fun h => pair h rfl,
      fun h => pair h (limmPair_movi hi w d j s1), fun h => pair h rfl, fun h => pair h rfl, fun h => pair h rfl,
      fun h => pair h rfl⟩

end Sys2Proof.Machine
end

section
/-! The lane words of FP32 (R214–R219): a word that computes a register in each lane, said once, and each word as such a one. -/

namespace Sys2Proof.Machine

/-! ## Words that compute a register in each lane -/

/-- A word that computes from its operands does so whenever it issues. -/
theorem computes_of_laneOp {i : Instr} {h : LHdr} {long : Bool} {d : Dst} {n : Nat} {os : List Opd} {f : LaneFn}
    (hi : ∀ s, exec i s = laneOp h long d n os f s) : Computes i h long d n os f := by
  intro s c popped H
  exact (hi s).trans ((laneRun_of_issues H _).trans (H.endL_eq _))

/-- A word of one operand that gives one register and its flags. -/
theorem computes_of_lane1 {i : Instr} {f : Word → Word × Flags} {long : Bool} {h : LHdr} {d : Dst} {a : Src}
    (hi : ∀ s, exec i s = lane1 f long h d a s) : Computes i h long d 1 [(a, 1)] (fun v => oneReg (f (v 0 0))) :=
  computes_of_laneOp hi

theorem computes_of_lane2 {i : Instr} {f : Word → Word → Word × Flags} {long : Bool} {h : LHdr} {d : Dst} {a b : Src}
    (hi : ∀ s, exec i s = lane2 f long h d a b s) :
    Computes i h long d 1 [(a, 1), (b, 1)] (fun v => oneReg (f (v 0 0) (v 1 0))) :=
  computes_of_laneOp hi

theorem computes_of_lane3 {i : Instr} {f : Word → Word → Word → Word × Flags} {h : LHdr} {d : Dst} {a b c : Src}
    (hi : ∀ s, exec i s = lane3 f h d a b c s) :
    Computes i h false d 1 [(a, 1), (b, 1), (c, 1)] (fun v => oneReg (f (v 0 0) (v 1 0) (v 2 0))) :=
  computes_of_laneOp hi

/-! ## FCMP and FCOPYSIGN -/

/-- R212: a compare to a mask writes a bit of each active lane and sets the lanes' flags. -/
theorem fcmp_mask (h : LHdr) (m : BitVec 4) (cc : FCond) (a b : Src) :
    Does (.fcmp h (.mask m) cc a b) h (mDs m.toNat) (srcRun 1 a ++ srcRun 1 b) [a, b] none (fun c s =>
      let p (l : Nat) := fpCompare cc (f32v (c.val s 0 a 0 l)) (f32v (c.val s 1 b 0 l))
      flagAll (c.lanes.map fun l => (p l).2) (c.putM false m.toNat (c.lanes.map fun l => (l, (p l).1)) s)) := by
  intro s c popped H
  show lanePred h (.mask m) [(a, 1), (b, 1)] (fun v => fpCompare cc (f32v (v 0 0)) (f32v (v 1 0))) s = _
  simp only [lanePred, List.map_cons, List.map_nil, List.flatMap_cons, List.flatMap_nil, List.append_nil]
  rw [laneRun_of_issues H, H.endL_eq]
  simp only [List.map_map]
  rfl

/-- R219: the sign of one word and the magnitude of the other, as masks and as fields. -/
theorem copySign_fields (x y : Word) :
    (y &&& 0x80000000) ||| (x &&& 0x7FFFFFFF) = (y.extractLsb' 31 1 ++ x.extractLsb' 0 31 : BitVec 32) := by
  have hsign : ∀ i < 32, (0x80000000 : Word).getLsbD i = decide (i = 31) := by decide
  have hmag : ∀ i < 32, (0x7FFFFFFF : Word).getLsbD i = decide (i < 31) := by decide
  apply BitVec.eq_of_getLsbD_eq
  intro i hi
  rw [BitVec.getLsbD_or, BitVec.getLsbD_and, BitVec.getLsbD_and, hsign i hi, hmag i hi, BitVec.getLsbD_append,
    BitVec.getLsbD_extractLsb', BitVec.getLsbD_extractLsb']
  by_cases h : i < 31
  · simp [h, show i ≠ 31 by omega]
  · obtain rfl : i = 31 := by omega
    simp

/-- Settles O48: each word is one of the shapes above with its own function. -/
theorem laneFp32 : Obligations.LaneFp32 := by
  refine ⟨fun h d a b c r => ?arith, fun h d a b r rm cc m => ?rest⟩
  case arith =>
    exact ⟨computes_of_lane2 (f := f32Add r) fun _ => rfl, computes_of_lane2 (f := f32Sub r) fun _ => rfl,
      computes_of_lane2 (f := f32Mul r) fun _ => rfl, computes_of_lane3 (f := f32Fma r) fun _ => rfl,
      computes_of_lane3 (f := f32Fms r) fun _ => rfl, computes_of_lane2 (f := f32MinMax false) fun _ => rfl,
      computes_of_lane2 (f := f32MinMax true) fun _ => rfl, computes_of_lane2 (f := fun x y => f32Div x y r) fun _ => rfl,
      computes_of_lane1 (f := fun x => f32Rcp x r) fun _ => rfl, computes_of_lane1 (f := fun x => f32Rsqrt x r) fun _ => rfl,
      computes_of_lane1 (f := fun x => f32Sqrt x r) fun _ => rfl, computes_of_lane1 (f := fun x => f32Ex2 x r) fun _ => rfl,
      computes_of_lane1 (f := fun x => f32Lg2 x r) fun _ => rfl, computes_of_lane1 (f := fun x => f32Sint x r) fun _ => rfl,
      computes_of_lane1 (f := fun x => f32Cost x r) fun _ => rfl⟩
  case rest =>
    refine ⟨computes_of_lane1 (f := fun x => (f32Class x, 0)) fun _ => rfl, computes_of_lane1 (f := f32Integral rm true) fun _ => rfl,
      computes_of_lane1 (f := f32Integral .down false) fun _ => rfl, computes_of_lane1 (f := f32Integral .up false) fun _ => rfl,
      computes_of_lane1 (f := f32Integral .zero false) fun _ => rfl, computes_of_lane1 (f := f32Fract rm) fun _ => rfl,
      computes_of_lane2 (f := fun x y => f32Scale x y r) fun _ => rfl, computes_of_lane1 (f := f32GetExp) fun _ => rfl, ?copySign,
      computes_of_laneOp fun _ => rfl, fcmp_mask h m cc a b⟩
    case copySign =>
      simp only [← copySign_fields]
      exact computes_of_lane2 (f := fun x y => ((y &&& 0x80000000) ||| (x &&& 0x7FFFFFFF), 0)) fun _ => rfl

end Sys2Proof.Machine
end

section
/-! The frame of the scalar, predicate and branch words (R67, R91, R92, R186–R193): what a write of one register and the end of a
word leave of the group that issues, and that nothing else of the state changes. -/

namespace Sys2Proof.Machine

/-! ## What a word drains -/

/-- R92: a destination that a write keeps was on its way before. -/
theorem Group.undrained_dropBits {g : Group} {k : Nat} (key : Nat) (bits : Word) (h : g.undrained k = false) :
    (g.dropBits key bits).undrained k = false := by
  unfold Group.dropBits
  split
  · have hkey : ∀ d : Dest, (d.minus key bits).key = d.key := fun d => by unfold Dest.minus; split <;> rfl
    simp only [Group.undrained, List.any_eq_false, List.mem_map] at h ⊢
    rintro _ ⟨p, hp, rfl⟩ hany
    obtain ⟨d, hd, hk⟩ := List.any_eq_true.mp hany
    obtain ⟨e, he, rfl⟩ := List.mem_map.mp (List.mem_filter.mp hd).1
    exact h p hp (List.any_eq_true.mpr ⟨e, he, by simpa [hkey] using hk⟩)
  · exact h

/-! ## Keys -/

theorem Group.sKey_injective {g : Group} {i d : SReg} (h : i ≠ d) : g.sKey i.toNat ≠ g.sKey d.toNat := by
  have hne : i.toNat ≠ d.toNat := fun e => h (BitVec.eq_of_toNat_eq e)
  have hi := i.isLt
  have hd := d.isLt
  unfold Group.sKey
  split_ifs <;> omega

theorem Group.qKey_injective {g : Group} {i p : QReg} (h : i ≠ p) : g.qKey i.toNat ≠ g.qKey p.toNat := by
  have hne : i.toNat ≠ p.toNat := fun e => h (BitVec.eq_of_toNat_eq e)
  have hi := i.isLt
  have hp := p.isLt
  unfold Group.qKey
  simp only [Bool.and_eq_true, decide_eq_true_eq]
  split_ifs <;> omega

/-- A key of the handler bank is not below 128, one of the user bank is below 64. -/
theorem Group.sKey_bank (g : Group) (i : SReg) : g.sKey i.toNat < 64 ∨ 128 ≤ g.sKey i.toNat := by
  have hi := i.isLt
  unfold Group.sKey
  split_ifs <;> omega

/-! ## What a write and the end of a word leave -/

/-- R92: a later write changes of the group only what is on its way. -/
theorem Group.dropBits_frame (g : Group) (key : Nat) (bits : Word) : { g.dropBits key bits with pend := g.pend } = g := by
  unfold Group.dropBits
  split <;> rfl

theorem Group.setSVal_frame (g : Group) (k : Nat) (v : Word) : { g.setSVal k v with s := g.s, hb := g.hb } = g := by
  by_cases h : k < 64 <;> simp [Group.setSVal, h]

theorem Group.setQVal_frame (g : Group) (k : Nat) (b : Bool) : { g.setQVal k b with q := g.q, hq7 := g.hq7 } = g := by
  by_cases h : k = 271 <;> simp [Group.setQVal, h]

/-- R67: a write of a scalar register changes the banks and what is on its way to them. -/
theorem Group.wrS_frame (g : Group) (d : SReg) (v : Word) : { g.wrS d v with s := g.s, hb := g.hb, pend := g.pend } = g :=
  (congrArg (fun h : Group => { h with s := g.s, hb := g.hb, pend := g.pend }) ((g.dropPend _).setSVal_frame _ v)).trans
    (congrArg (fun h : Group => { h with s := g.s, hb := g.hb }) (g.dropBits_frame _ _))

/-- R67: a write of a predicate changes the predicates and what is on its way to them. -/
theorem Group.wrQ_frame (g : Group) (p : QReg) (b : Bool) : { g.wrQ p b with q := g.q, hq7 := g.hq7, pend := g.pend } = g := by
  by_cases h : p = 0
  · simp [Group.wrQ, h]
  · simp only [Group.wrQ, if_neg h]
    exact (congrArg (fun h : Group => { h with q := g.q, hq7 := g.hq7, pend := g.pend }) ((g.dropPend _).setQVal_frame _ b)).trans
      (congrArg (fun h : Group => { h with q := g.q, hq7 := g.hq7 }) (g.dropBits_frame _ _))

/-- R40, R192: a word ends at its successor or at the target of its branch, and nothing else than what `OnlyPc` names differs. -/
structure Group.Ends (g h : Group) : Prop where
  frame : g.OnlyPc h
  pend : ∀ p ∈ h.pend, p ∈ g.pend

theorem Group.ends_endC (g : Group) (w : Bool) (len : Nat) : g.Ends (g.endC w len) := by
  unfold Group.endC
  cases w
  · exact ⟨rfl, fun p hp => hp⟩
  · simp only [if_true]
    split
    · exact ⟨rfl, fun p hp => (List.mem_filter.mp hp).1⟩
    · exact ⟨rfl, fun p hp => hp⟩

theorem Group.ends_jumpC (g : Group) (w : Bool) (target : DWord) : g.Ends (g.jumpC w target) :=
  ⟨(g.ends_endC w 0).frame, (g.ends_endC w 0).pend⟩

/-- R91: the end of a word adds no result. -/
theorem Group.Ends.undrained {g h : Group} (e : g.Ends h) {k : Nat} (hk : g.undrained k = false) : h.undrained k = false := by
  simp only [Group.undrained, List.any_eq_false] at hk ⊢
  exact fun p hp => hk p (e.pend p hp)

/-- A word that ends leaves the mode, the scalar registers and the predicates. -/
theorem Group.Ends.regs {g h : Group} (e : g.Ends h) :
    h.mode = g.mode ∧ h.s = g.s ∧ h.hb = g.hb ∧ h.q = g.q ∧ h.hq7 = g.hq7 :=
  ⟨(congrArg Group.mode e.frame :), (congrArg Group.s e.frame :), (congrArg Group.hb e.frame :), (congrArg Group.q e.frame :),
    (congrArg Group.hq7 e.frame :)⟩

/-! ## Scalar registers -/

theorem Group.sVal_setSVal {g : Group} {k j : Nat} (v : Word) (hk : k < 64 ∨ 128 ≤ k) (hj : j < 64 ∨ 128 ≤ j) (h : j ≠ k) :
    (g.setSVal k v).sVal j = g.sVal j := by
  unfold Group.setSVal Group.sVal
  by_cases hk' : k < 64 <;> by_cases hj' : j < 64 <;> simp [hk', hj', h]
  omega

theorem Group.sKey_congr {g h : Group} (hm : h.mode = g.mode) (i : Nat) : h.sKey i = g.sKey i := by
  simp [Group.sKey, Group.inHandler, hm]

theorem Group.sVal_congr {g h : Group} (hs : h.s = g.s) (hb : h.hb = g.hb) (k : Nat) : h.sVal k = g.sVal k := by
  simp [Group.sVal, hs, hb]

/-- A drained register reads as it is stored. -/
theorem Group.rdS_drained {g : Group} {i : SReg} (tick : Nat) (h : g.undrained (g.sKey i.toNat) = false) :
    g.rdS tick i = g.sVal (g.sKey i.toNat) := by simp [Group.rdS, h]

theorem Group.undrained_wrS {g : Group} {k : Nat} (d : SReg) (v : Word) (h : g.undrained k = false) :
    (g.wrS d v).undrained k = false := by
  have hpend : (g.wrS d v).pend = (g.dropPend (g.sKey d.toNat)).pend := (congrArg Group.pend (Group.setSVal_frame _ _ v) :)
  simpa only [Group.undrained, hpend, Group.dropPend] using Group.undrained_dropBits (g.sKey d.toNat) (BitVec.allOnes 32) h

/-- R67, R92: a word that writes s[d] and ends leaves the other registers of its group. -/
theorem Group.onlyS_of_ends {g h : Group} {d : SReg} {v : Word} (e : (g.wrS d v).Ends h) : g.OnlyS h d := by
  refine ⟨?frame, fun i tick hne hdr => ?read⟩
  case frame =>
    exact (congrArg (fun x : Group => { x with
      s := g.s, hb := g.hb, pc := g.pc, pend := g.pend, park := g.park, sleepEnd := g.sleepEnd, arrived := g.arrived,
      waitBar := g.waitBar, barLost := g.barLost, heapW := g.heapW }) e.frame).trans
      (congrArg (fun x : Group => { x with
        pc := g.pc, park := g.park, sleepEnd := g.sleepEnd, arrived := g.arrived, waitBar := g.waitBar, barLost := g.barLost,
        heapW := g.heapW }) (g.wrS_frame d v))
  case read =>
    obtain ⟨hmode, hs, hb, -, -⟩ := e.regs
    have hkey : h.sKey i.toNat = g.sKey i.toNat := Group.sKey_congr (hmode.trans (congrArg Group.mode (g.wrS_frame d v) :)) _
    have hdrop := g.dropBits_frame (g.sKey d.toNat) (BitVec.allOnes 32)
    have hdrained : h.undrained (h.sKey i.toNat) = false := hkey ▸ e.undrained (Group.undrained_wrS d v hdr)
    calc h.rdS tick i = h.sVal (g.sKey i.toNat) := by rw [Group.rdS_drained tick hdrained, hkey]
      _ = (g.wrS d v).sVal (g.sKey i.toNat) := Group.sVal_congr hs hb _
      _ = (g.dropPend (g.sKey d.toNat)).sVal (g.sKey i.toNat) :=
        Group.sVal_setSVal v (g.sKey_bank d) (g.sKey_bank i) (Group.sKey_injective hne)
      _ = g.sVal (g.sKey i.toNat) := Group.sVal_congr (congrArg Group.s hdrop :) (congrArg Group.hb hdrop :) _
      _ = g.rdS tick i := (Group.rdS_drained tick hdr).symm

/-- A word that only ends writes no register. -/
theorem Group.Ends.onlyS {g h : Group} (e : g.Ends h) (d : SReg) : g.OnlyS h d := by
  refine ⟨congrArg (fun x : Group => { x with s := g.s, hb := g.hb }) e.frame, fun i tick _ hdr => ?_⟩
  obtain ⟨hmode, hs, hb, -, -⟩ := e.regs
  have hkey : h.sKey i.toNat = g.sKey i.toNat := Group.sKey_congr hmode _
  calc h.rdS tick i = h.sVal (g.sKey i.toNat) := by rw [Group.rdS_drained tick (hkey ▸ e.undrained hdr), hkey]
    _ = g.sVal (g.sKey i.toNat) := Group.sVal_congr hs hb _
    _ = g.rdS tick i := (Group.rdS_drained tick hdr).symm

/-! ## Predicates -/

/-- The predicate stored under a key. -/
def Group.qVal (g : Group) (k : Nat) : Bool := if k = 271 then g.hq7 else g.q.getLsbD (k - 256)

/-- A drained predicate reads as it is stored; q0 reads true. -/
theorem Group.rdQ_drained {g : Group} {i : QReg} (tick : Nat) (h : g.undrained (g.qKey i.toNat) = false) :
    g.rdQ tick i = (decide (i = 0) || g.qVal (g.qKey i.toNat)) := by
  by_cases h0 : i = 0
  · simp [Group.rdQ, h0]
  · have hbit : g.qKey i.toNat ≠ 271 → g.qKey i.toNat - 256 = i.toNat := by
      unfold Group.qKey
      split_ifs <;> simp
    simp only [Group.rdQ, if_neg h0, h, Bool.false_eq_true, if_false, decide_eq_false h0, Bool.false_or, Group.qVal]
    split_ifs with hk
    · rfl
    · rw [hbit hk]

theorem getLsbD_setBit8 {i j : Nat} (q : BitVec 8) (b : Bool) (hj : j < 8) (h : j ≠ i) :
    (setBit8 q i b).getLsbD j = q.getLsbD j := by
  cases b
  all_goals
    simp [setBit8, hj]
    intros
    omega

theorem Group.qVal_setQVal {g : Group} {i p : QReg} (b : Bool) (h : i ≠ p) :
    (g.setQVal (g.qKey p.toNat) b).qVal (g.qKey i.toNat) = g.qVal (g.qKey i.toNat) := by
  have hkeys := g.qKey_injective h
  have hbound : ∀ r : QReg, g.qKey r.toNat = 271 ∨ 256 ≤ g.qKey r.toNat ∧ g.qKey r.toNat < 264 := by
    intro r
    have := r.isLt
    unfold Group.qKey
    split_ifs <;> omega
  obtain hp | ⟨hp, hp'⟩ := hbound p <;> obtain hi | ⟨hi, hi'⟩ := hbound i
  · omega
  · rw [Group.setQVal, if_pos hp, Group.qVal, if_neg (by omega), Group.qVal, if_neg (by omega)]
  · rw [Group.setQVal, if_neg (by omega), Group.qVal, if_pos hi, Group.qVal, if_pos hi]
  · rw [Group.setQVal, if_neg (by omega), Group.qVal, if_neg (by omega), Group.qVal, if_neg (by omega),
      getLsbD_setBit8 _ _ (by omega) (by omega)]

theorem Group.qKey_congr {g h : Group} (hm : h.mode = g.mode) (i : Nat) : h.qKey i = g.qKey i := by
  simp [Group.qKey, Group.inHandler, hm]

theorem Group.qVal_congr {g h : Group} (hq : h.q = g.q) (hq7 : h.hq7 = g.hq7) (k : Nat) : h.qVal k = g.qVal k := by
  simp [Group.qVal, hq, hq7]

theorem Group.undrained_wrQ {g : Group} {k : Nat} (p : QReg) (b : Bool) (h : g.undrained k = false) :
    (g.wrQ p b).undrained k = false := by
  by_cases h0 : p = 0
  · simpa [Group.wrQ, h0] using h
  · have hpend : (g.wrQ p b).pend = (g.dropPend (g.qKey p.toNat)).pend := by
      rw [Group.wrQ, if_neg h0]
      exact (congrArg Group.pend (Group.setQVal_frame _ _ b) :)
    simpa only [Group.undrained, hpend, Group.dropPend] using Group.undrained_dropBits (g.qKey p.toNat) (BitVec.allOnes 32) h

theorem Group.qVal_wrQ {g : Group} {i p : QReg} (b : Bool) (h : i ≠ p) :
    (g.wrQ p b).qVal (g.qKey i.toNat) = g.qVal (g.qKey i.toNat) := by
  by_cases h0 : p = 0
  · simp [Group.wrQ, h0]
  · have hdrop := g.dropBits_frame (g.qKey p.toNat) (BitVec.allOnes 32)
    have hkey : ∀ i, (g.dropPend (g.qKey p.toNat)).qKey i = g.qKey i := Group.qKey_congr (congrArg Group.mode hdrop :)
    rw [Group.wrQ, if_neg h0]
    calc ((g.dropPend (g.qKey p.toNat)).setQVal (g.qKey p.toNat) b).qVal (g.qKey i.toNat)
        = (g.dropPend (g.qKey p.toNat)).qVal (g.qKey i.toNat) := by
          simpa only [hkey] using Group.qVal_setQVal (g := g.dropPend (g.qKey p.toNat)) b h
      _ = g.qVal (g.qKey i.toNat) := Group.qVal_congr (congrArg Group.q hdrop :) (congrArg Group.hq7 hdrop :) _

/-- R67, R92: a word that writes q[p] and ends leaves the other predicates of its group. -/
theorem Group.onlyQ_of_ends {g h : Group} {p : QReg} {b : Bool} (e : (g.wrQ p b).Ends h) : g.OnlyQ h p := by
  refine ⟨?frame, fun i tick hne hdr => ?read⟩
  case frame =>
    exact (congrArg (fun x : Group => { x with
      q := g.q, hq7 := g.hq7, pc := g.pc, pend := g.pend, park := g.park, sleepEnd := g.sleepEnd, arrived := g.arrived,
      waitBar := g.waitBar, barLost := g.barLost, heapW := g.heapW }) e.frame).trans
      (congrArg (fun x : Group => { x with
        pc := g.pc, park := g.park, sleepEnd := g.sleepEnd, arrived := g.arrived, waitBar := g.waitBar, barLost := g.barLost,
        heapW := g.heapW }) (g.wrQ_frame p b))
  case read =>
    obtain ⟨hmode, -, -, hq, hq7⟩ := e.regs
    have hkey : h.qKey i.toNat = g.qKey i.toNat := Group.qKey_congr (hmode.trans (congrArg Group.mode (g.wrQ_frame p b) :)) _
    have hdrained : h.undrained (h.qKey i.toNat) = false := hkey ▸ e.undrained (Group.undrained_wrQ p b hdr)
    rw [Group.rdQ_drained tick hdrained, Group.rdQ_drained tick hdr, hkey, Group.qVal_congr hq hq7, Group.qVal_wrQ b hne]

/-! ## The words -/

section Words

variable {w : Bool} {s : State} {ins : Instr}

/-- A word whose only effect is on the group that issues leaves every other part of the state, and memory with it. -/
theorem onlyGroup_of_mapG (P : Group → Prop) (f : Group → Group) (h : exec ins s = .next (s.mapG f)) (hP : P (f s.g)) :
    ∃ t, exec ins s = .next t ∧ s.OnlyGroup t ∧ P t.g ∧ s.SameMem t := ⟨_, h, rfl, hP, fun _ => rfl⟩

/-- The frame of a word that writes s[d]. -/
theorem frame_writeS {d : SReg} {v : Word} (h : exec ins s = writeS w 4 d v s) :
    ∃ t, exec ins s = .next t ∧ s.OnlyGroup t ∧ s.g.OnlyS t.g d ∧ s.SameMem t :=
  onlyGroup_of_mapG (s.g.OnlyS · d) (fun g => (g.wrS d v).endC w 4) h (Group.onlyS_of_ends (Group.ends_endC _ _ _))

/-- The frame of a word that writes q[p]. -/
theorem frame_writeQ {p : QReg} {b : Bool} (h : exec ins s = writeQ w 4 p b s) :
    ∃ t, exec ins s = .next t ∧ s.OnlyGroup t ∧ s.g.OnlyQ t.g p ∧ s.SameMem t :=
  onlyGroup_of_mapG (s.g.OnlyQ · p) (fun g => (g.wrQ p b).endC w 4) h (Group.onlyQ_of_ends (Group.ends_endC _ _ _))

/-- The frame of a word that only ends. -/
theorem frame_endC (h : exec ins s = .next (s.endC w 4)) :
    ∃ t, exec ins s = .next t ∧ s.OnlyGroup t ∧ s.g.OnlyPc t.g ∧ s.SameMem t :=
  onlyGroup_of_mapG s.g.OnlyPc (·.endC w 4) h (Group.ends_endC _ _ _).frame

/-- The frame of a branch. -/
theorem frame_jumpTo {target : DWord} (h : exec ins s = jumpTo w target s) :
    ∃ t, exec ins s = .next t ∧ s.OnlyGroup t ∧ s.g.OnlyPc t.g ∧ s.SameMem t :=
  onlyGroup_of_mapG s.g.OnlyPc (·.jumpC w target) h (Group.ends_jumpC _ _ _).frame

/-- R67: SEL writes s[d] where its predicate holds, and nothing where it does not. -/
theorem frame_sel (d a : SReg) (n : Bool) (q : QReg) :
    ∃ t, exec (.sel w d a n q) s = .next t ∧ s.OnlyGroup t ∧ s.g.OnlyS t.g d ∧ s.SameMem t := by
  by_cases hq : xor (s.g.rdQ s.tick q) n = true
  · exact frame_writeS (if_pos hq)
  · exact onlyGroup_of_mapG (s.g.OnlyS · d) (·.endC w 4) (if_neg hq) ((Group.ends_endC _ _ _).onlyS d)

/-- R193: LOOP counts s[d] down, and branches while it is not 0. -/
theorem frame_loop (d : SReg) (i : BitVec 13) :
    ∃ t, exec (.loop w d i) s = .next t ∧ s.OnlyGroup t ∧ s.g.OnlyS t.g d ∧ s.SameMem t := by
  by_cases hv : s.g.rdS s.tick d - 1 ≠ 0
  · exact onlyGroup_of_mapG (s.g.OnlyS · d) (fun g => (g.wrS d (s.g.rdS s.tick d - 1)).jumpC w _) (if_pos hv)
      (Group.onlyS_of_ends (Group.ends_jumpC _ _ _))
  · exact frame_writeS (if_neg hv)

/-- R192: BRQ branches where its predicate has the sense it names. -/
theorem frame_brq (p : QReg) (sense : Bool) (o : BitVec 21) :
    ∃ t, exec (.brq w p sense o) s = .next t ∧ s.OnlyGroup t ∧ s.g.OnlyPc t.g ∧ s.SameMem t := by
  by_cases hq : s.g.rdQ s.tick p = sense
  · exact frame_jumpTo (if_pos hq)
  · exact frame_endC (if_neg hq)

/-- R192: CALL writes its link register and branches. -/
theorem frame_call (o : BitVec 21) :
    ∃ t, exec (.call w o) s = .next t ∧ s.OnlyGroup t ∧ s.g.OnlyS t.g 63 ∧ s.SameMem t :=
  onlyGroup_of_mapG (s.g.OnlyS · 63) (fun g => (g.wrS 63 (linkOf g.pc)).jumpC w _) rfl (Group.onlyS_of_ends (Group.ends_jumpC _ _ _))

end Words

/-- Settles O10: each word by the frame of its shape. -/
theorem scalarFrame : Obligations.ScalarFrame := by
  intro w n m sense d a b p q r i j u o c k x s ins
  simp only [List.mem_cons, List.not_mem_nil, or_false]
  refine ⟨?scalar, ?predicate, ?branch, frame_call o⟩
  case scalar =>
    revert ins
    simp only [forall_eq_or_imp, forall_eq]
    exact ⟨frame_writeS rfl, frame_writeS rfl, frame_writeS rfl, frame_writeS rfl, frame_writeS rfl,
      frame_writeS rfl, frame_writeS rfl, frame_writeS rfl, frame_writeS rfl, frame_writeS rfl, frame_writeS rfl,
      frame_writeS rfl, frame_writeS rfl, frame_writeS rfl, frame_writeS rfl, frame_writeS rfl, frame_writeS rfl,
      frame_writeS rfl, frame_writeS rfl, frame_writeS rfl, frame_writeS rfl, frame_writeS rfl, frame_writeS rfl,
      frame_writeS rfl, frame_sel d a n q, frame_writeS rfl, frame_writeS rfl, frame_writeS rfl, frame_writeS rfl,
      frame_writeS rfl, frame_writeS rfl, frame_writeS rfl, frame_writeS rfl, frame_writeS rfl, frame_writeS rfl,
      frame_loop d i, frame_writeS rfl, frame_writeS rfl⟩
  case predicate =>
    rintro (rfl | rfl | rfl | rfl | rfl | rfl)
    all_goals exact frame_writeQ rfl
  case branch =>
    rintro (rfl | rfl | rfl)
    · exact frame_endC rfl
    · exact frame_jumpTo rfl
    · exact frame_brq p sense o

end Sys2Proof.Machine
end

section
/-! A step that issues a word (R199, R411, R450), and what a fetch of the C-stream reads (R74, R192, R384). -/

namespace Sys2Proof.Machine

/-! ## Steps and outcomes -/

theorem Res.map_map (r : Res) (f g : State → State) : Res.map (Res.map r f) g = Res.map r fun s => g (f s) := by
  cases r <;> rfl

/-- A step of a device with power performs the first action of the agenda. -/
theorem step_of_agenda {s : State} {a : Action} {rest : List Action} (hp : s.powered = true) (ha : s.agenda = a :: rest) :
    step s = Res.map (perform a { s with tick := s.tick + 1, agenda := rest }) a.done := by
  simp only [step, ha, hp, Bool.true_or, if_true]

/-! ## The tries of a stream -/

section Tries

variable {s s1 : State} {i : Instr}

/-- A group in a controller's mode, or without a delivered fault, takes none first. -/
theorem noEngineFault (h : s.g.mode ≠ .user ∨ s.g.faults = []) : (decide (s.g.mode = .user) && !s.g.faults.isEmpty) = false := by
  obtain h | h := h <;> simp [h]

/-- R76: a C-stream that may issue, in its turn, executes the word at its PC. -/
theorem issueC_word {w : Word} (hlost : lostHere s = false) (hfaults : s.g.mode ≠ .user ∨ s.g.faults = [])
    (hmay : mayIssueC s = true) (hturn : s.g.park = .none → issuesNow s s.g (s.g.uid, none) = true)
    (hf : fetchC { s with writer := some (.c s.g.uid) } s.g.pc = .word s1 w) (hd : decodeC w = .ok i) :
    issueC s = Res.map (exec i s1) fun t => if waitsC t s.g then t else countedC t s.g := by
  have hissues : (decide (s.g.park = .none) && !issuesNow s s.g (s.g.uid, none)) = false := by
    by_cases h : s.g.park = .none
    · simp [hturn h]
    · simp [h]
  have hrun : runC { s with writer := some (.c s.g.uid) } = exec i s1 := by simp only [runC, hf, hd]
  simp only [issueC, hmay, hlost, noEngineFault hfaults, hissues, hrun, Bool.not_true, Bool.false_eq_true, if_false]

/-- A lane stream of a group that runs, with no error and no fault to take first, is tried. -/
theorem issueL_runs {n : Nat} (hlost : lostHere s = false) (hfaults : s.g.mode ≠ .user ∨ s.g.faults = [])
    (hruns : groupRuns s s.g = true) : issueL n s = if n < 16 then issueSplit n s else issueLate (n - 16) s := by
  simp only [issueL, hruns, hlost, noEngineFault hfaults, Bool.not_true, Bool.false_eq_true, if_false]

/-- R199: the lane word at the PC of a split that a slot takes is executed with the lanes it had. -/
theorem runL_word {x : Split} {n : Nat} {w : LWord} (hf : fetchL s x.pc = .word s1 w) (ht : slotTakes s1 n w = true)
    (hd : decodeL w = .ok i) : runL s x n = some (exec i (s1.withWord w), (lanesOf (wordLanes s1 x w)).length) := by
  simp only [runL, hf, ht, hd, Bool.not_true, Bool.false_eq_true, if_false]

/-- The state in which a split of the issuing group is tried, merged with those ready at its PC (R45). -/
def splitTried (s : State) (n : Nat) : State :=
  let m := mergedAt s.g n
  { s with g := { m.1 with curSplit := m.2 }, writer := some (.l m.1.uid m.2) }

/-- R411: a split that may issue, in its turn, executes the word at its PC. -/
theorem issueSplit_word {n : Nat} {x : Split} {w : LWord} (hx : (splitTried s n).g.split? (mergedAt s.g n).2 = some x)
    (hending : x.ending = false) (hdrain : x.park ≠ .drain) (hjoin : x.park ≠ .join)
    (hturn : x.park = .ready → issuesNow (splitTried s n) (splitTried s n).g ((splitTried s n).g.uid, some (mergedAt s.g n).2) = true)
    (hf : fetchL (splitTried s n) x.pc = .word s1 w)
    (ht : slotTakes s1 (if x.park = .ready then ahead (splitTried s n) (splitTried s n).g
      ((splitTried s n).g.uid, some (mergedAt s.g n).2) else 0) w = true)
    (hd : decodeL w = .ok i) :
    issueSplit n s = Res.map (exec i (s1.withWord w)) fun t =>
      if waitsL t (splitTried s n).g.uid (mergedAt s.g n).2 then t
      else countedL t (splitTried s n).g (mergedAt s.g n).2 (lanesOf (wordLanes s1 x w)).length := by
  have hready : (decide (x.park = .ready) && !issuesNow (splitTried s n) (splitTried s n).g
      ((splitTried s n).g.uid, some (mergedAt s.g n).2)) = false := by
    by_cases h : x.park = .ready
    · simp [hturn h]
    · simp [h]
  have hwaits : (x.ending || decide (x.park = .drain) || decide (x.park = .join)) = false := by simp [hending, hdrain, hjoin]
  have hrun := runL_word hf ht hd
  simp only [splitTried] at hx hready hrun ⊢
  simp only [issueSplit, hx, hready, hwaits, hrun, Bool.false_eq_true, if_false]
  rfl

/-- R38: a lane word that waits as a result of the issuing group is executed. -/
theorem issueLate_word {k : Nat} {p : Pend} {x : Late} (hp : s.g.pend[k]? = some p) (hx : p.late = some x)
    (hmode : p.ofHandler = s.g.inHandler) (hd : decodeL x.word = .ok i) :
    issueLate k s = exec i (State.withWord { s with g := { s.g with curSplit := 16 + k }, writer := some (.late s.g.uid p.seq) } x.word) := by
  simp only [issueLate, hp, hx, hmode, hd, ne_eq, not_true_eq_false, if_false]

end Tries

/-! ## Fetching -/

theorem toNat_append_byte {n : Nat} (x : BitVec n) (y : Byte) : (x ++ y).toNat = 256 * x.toNat + y.toNat := by
  rw [BitVec.toNat_append, ← Nat.shiftLeft_add_eq_or_of_lt y.isLt, Nat.shiftLeft_eq, Nat.mul_comm]

/-- R4: four bytes as a word, low byte first. -/
theorem ofNat_leValue_four (a b c d : Byte) : BitVec.ofNat 32 (leValue [a, b, c, d]) = (d ++ c ++ b ++ a : BitVec 32) := by
  apply BitVec.eq_of_toNat_eq
  simp only [toNat_append_byte, leValue, BitVec.toNat_ofNat]
  omega

/-- R74, R384: the word at a translated address that bears no poison. -/
theorem fetchC_word {s s1 : State} {pc : DWord} {key : Nat} {dup : Bool} (halign : pc.toNat % 4 = 0)
    (hx : s.xlate pc 4 .ex = (s1, .ok key dup)) (hp : s1.poisoned key 4 = false) :
    fetchC s pc = .word s1 (s1.rdMem (key + 3) ++ s1.rdMem (key + 2) ++ s1.rdMem (key + 1) ++ s1.rdMem key) := by
  simp only [fetchC, halign, hx, hp, ne_eq, not_true_eq_false, Bool.false_eq_true, if_false]
  exact congrArg _ (ofNat_leValue_four _ _ _ _)

/-- Settles O4: a step performs its action, whose try executes the word fetched. -/
theorem stepRuns : Obligations.StepRuns := by
  refine ⟨?runs, fun s s1 pc key dup => fetchC_word, fun s pc h => if_pos h⟩
  intro s s1 rest i hp hfaults s0 hlost
  refine ⟨?control, ?lane, ?late⟩
  case control =>
    intro w ha hmay hturn hf hd
    rw [step_of_agenda hp ha, show perform .issueC s0 = _ from issueC_word hlost hfaults hmay hturn hf hd, Res.map_map]
    rfl
  case lane =>
    intro n w x m g s2 hn ha hruns hx hending hdrain hjoin hturn hf ht hd
    rw [step_of_agenda hp ha, show perform (.issueL n) s0 = _ from (issueL_runs hlost hfaults hruns).trans (if_pos hn),
      issueSplit_word (s := s0) (n := n) hx hending hdrain hjoin hturn hf ht hd, Res.map_map]
    rfl
  case late =>
    intro k p x ha hruns hpend hlate hmode hd s2
    rw [step_of_agenda hp ha, show perform (.issueL (16 + k)) s0 = _ from
      (issueL_runs hlost hfaults hruns).trans (if_neg (by omega)), Nat.add_sub_cancel_left, issueLate_word (s := s0) hpend hlate hmode hd]
    rfl

end Sys2Proof.Machine
end

section
/-! ## The canonical form under an assumption

One family of lemmas serves two statements: with `p := True` it says that an operation keeps memory in canonical form, with
`p := False` only that it answers a next state. Each lemma has the name of the function that it speaks of, and follows its branches. -/

namespace Sys2Proof.Machine

/-- Under the assumption `p`, memory is in canonical form. -/
def State.FormIf (p : Prop) (s : State) : Prop := p → s.MemWf

/-- The step answers a next state, which has the form. -/
def Res.FormIf (p : Prop) (r : Res) : Prop := ∃ t, r = .next t ∧ t.FormIf p

/-- The state, where there is one, has the form. -/
def OptForm (p : Prop) (o : Option State) : Prop := ∀ t, o = some t → t.FormIf p

/-! The state in the answer of an engine's operation. -/

/-- The state that the answer holds, whichever it is. -/
def Fetched.state {α : Type} : Fetched α → State
  | .word s _ => s
  | .fault s _ _ => s

/-- The state that the answer holds, whichever it is. -/
def CopyRead.state : CopyRead → State
  | .ok s _ => s
  | .wait s => s
  | .fault s _ _ => s

/-- The state that the answer holds, whichever it is. -/
def CopyUnit.state : CopyUnit → State
  | .ready s _ _ => s
  | .wait s => s
  | .fault s _ _ => s

/-- The state that the answer holds, whichever it is. -/
def StepPrep.state : StepPrep → State
  | .ready s _ _ => s
  | .wait s => s
  | .fault s _ _ => s

/-- The state that the answer holds, whichever it is. -/
def StoreEnd.state : StoreEnd → State
  | .done s => s
  | .stop s _ _ _ => s

/-- The state that the answer holds, whichever it is. -/
def Granule.state : Granule → State
  | .done s _ _ => s
  | .fault s _ _ _ => s
  | .wait s => s

/-- The state that the answer holds, whichever it is. -/
def Started.state : Started → State
  | .ended s _ => s
  | .runs s => s
  | .waits s => s

/-- The state that the answer holds, whichever it is. -/
def CmdEnd.state : CmdEnd → State
  | .done s _ _ => s
  | .more s => s

variable {p c : Prop} {s t : State} {α β : Type}

theorem Res.FormIf.next (h : s.FormIf p) : Res.FormIf p (.next s) := ⟨s, rfl, h⟩

theorem OptForm.none : OptForm p .none := fun _ e => nomatch e

theorem OptForm.some (h : s.FormIf p) : OptForm p (.some s) := fun _ e => Option.some.inj e ▸ h

theorem OptForm.map_of {o : Option α} {f : α → State} (hf : ∀ a, (f a).FormIf p) : OptForm p (o.map f) := by
  intro t e
  obtain ⟨a, -, rfl⟩ := Option.map_eq_some_iff.1 e
  exact hf a

theorem State.FormIf.of_fst {x : State × α} {a : α} (e : x = (t, a)) (h : x.1.FormIf p) : t.FormIf p := by subst e; exact h

theorem State.FormIf.of_opt {o : Option State} (e : o = .some t) (h : OptForm p o) : t.FormIf p := h t e

theorem OptForm.map {o : Option State} {f : State → State} (h : OptForm p o) (hf : ∀ s, s.FormIf p → (f s).FormIf p) :
    OptForm p (o.map f) := by
  intro t e
  obtain ⟨s, rfl, rfl⟩ := Option.map_eq_some_iff.1 e
  exact hf s (h s rfl)

theorem State.FormIf.of_fetched {x y : Fetched α} (e : x = y) (h : x.state.FormIf p) : y.state.FormIf p := e ▸ h

theorem State.FormIf.of_copyRead {x y : CopyRead} (e : x = y) (h : x.state.FormIf p) : y.state.FormIf p := e ▸ h

theorem State.FormIf.of_copyUnit {x y : CopyUnit} (e : x = y) (h : x.state.FormIf p) : y.state.FormIf p := e ▸ h

theorem State.FormIf.of_stepPrep {x y : StepPrep} (e : x = y) (h : x.state.FormIf p) : y.state.FormIf p := e ▸ h

theorem State.FormIf.of_storeEnd {x y : StoreEnd} (e : x = y) (h : x.state.FormIf p) : y.state.FormIf p := e ▸ h

theorem State.FormIf.of_granule {x y : Granule} (e : x = y) (h : x.state.FormIf p) : y.state.FormIf p := e ▸ h

theorem State.FormIf.of_started {x y : Started} (e : x = y) (h : x.state.FormIf p) : y.state.FormIf p := e ▸ h

theorem State.FormIf.of_cmdEnd {x y : CmdEnd} (e : x = y) (h : x.state.FormIf p) : y.state.FormIf p := e ▸ h

/-- An update that leaves both memories alone keeps the form. The fields stand as variables, so that the lemma fits a `{ s with … }` of
whichever fields. -/
theorem State.FormIf.update {a0 a1 a2 a3 a4 a5 a6 a7 a8 a9 a10 a11 a12 a13 a16 a17 a18 a19 a20 a21 a22 a23 a24 a25 a26 a27 a28 a29 a30
    a31 a32 a33 a34 a35 a36 a37 a38 a39 a40 a41 a42 a43 a44 a45 a46 a47 a48 a49 a50 a51 a52 a53 a54 a55 a56 a57 a58}
    (h : s.FormIf p) :
    State.FormIf p (.mk a0 a1 a2 a3 a4 a5 a6 a7 a8 a9 a10 a11 a12 a13 s.mem s.hostMem a16 a17 a18 a19 a20 a21 a22 a23 a24 a25 a26 a27
      a28 a29 a30 a31 a32 a33 a34 a35 a36 a37 a38 a39 a40 a41 a42 a43 a44 a45 a46 a47 a48 a49 a50 a51 a52 a53 a54 a55 a56 a57 a58) :=
  h

theorem State.FormIf.ite {_ : Decidable c} (h : s.FormIf p) (h' : t.FormIf p) : State.FormIf p (if c then s else t) := by
  split
  · exact h
  · exact h'

theorem Res.FormIf.ite {_ : Decidable c} {q r : Res} (h : Res.FormIf p q) (h' : Res.FormIf p r) :
    Res.FormIf p (if c then q else r) := by
  split
  · exact h
  · exact h'

theorem State.FormIf.foldl {f : State → α → State} {l : List α} (h : s.FormIf p) (hf : ∀ s a, s.FormIf p → (f s a).FormIf p) :
    (l.foldl f s).FormIf p := by
  induction l generalizing s with
  | nil => exact h
  | cons a l ih => exact ih (hf s a h)

theorem State.FormIf.foldlOn {f : β → α → β} {l : List α} {b : β} (st : β → State) (h : (st b).FormIf p)
    (hf : ∀ b a, (st b).FormIf p → (st (f b a)).FormIf p) : (st (l.foldl f b)).FormIf p := by
  induction l generalizing b with
  | nil => exact h
  | cons a l ih => exact ih (hf b a h)

theorem State.FormIf.getD {o : Option State} (h : OptForm p o) (h' : s.FormIf p) : (o.getD s).FormIf p := by
  cases o with
  | none => exact h'
  | some t => exact h t rfl

end Sys2Proof.Machine
end

section
/-! ## The form: units, memory, the caches and translation -/

namespace Sys2Proof.Machine

variable {p : Prop} {s t : State}

theorem State.FormIf.setCtx {c} (h : s.FormIf p) : (s.setCtx c).FormIf p := h

theorem State.FormIf.setCluster {c} (h : s.FormIf p) : (s.setCluster c).FormIf p := h

theorem State.FormIf.setL1 {c} (h : s.FormIf p) : (s.setL1 c).FormIf p := h

theorem State.FormIf.setSlice {c} (h : s.FormIf p) : (s.setSlice c).FormIf p := h

theorem State.FormIf.setVf {c} (h : s.FormIf p) : (s.setVf c).FormIf p := h

theorem State.FormIf.setMbox {fn m} (h : s.FormIf p) : (s.setMbox fn m).FormIf p := h

theorem State.FormIf.raise {fn vec} (h : s.FormIf p) : (s.raise fn vec).FormIf p := h

theorem State.FormIf.mailEvent {fn code vf op0 op1} (h : s.FormIf p) : (s.mailEvent fn code vf op0 op1).FormIf p :=
  h.setMbox.ite h.setMbox.raise

theorem State.FormIf.setFw {n f} (h : s.FormIf p) : (s.setFw n f).FormIf p := h

theorem State.FormIf.mapG {f} (h : s.FormIf p) : (s.mapG f).FormIf p := h

theorem State.FormIf.mapT {f} (h : s.FormIf p) : (s.mapT f).FormIf p := h

theorem State.FormIf.mapGroups {x f} (h : s.FormIf p) : (s.mapGroups x f).FormIf p := h

theorem State.FormIf.mapTeams {x f} (h : s.FormIf p) : (s.mapTeams x f).FormIf p := h

theorem State.FormIf.focus {uid} (h : s.FormIf p) : (s.focus uid).FormIf p := by
  unfold State.focus
  split
  · exact h
  split
  · exact h
  extract_lets gs
  split
  · exact h
  · split <;> exact h

theorem State.FormIf.deviceEvent {code sl vf status op} (h : s.FormIf p) : (s.deviceEvent code sl vf status op).FormIf p := h

theorem State.FormIf.escalate {sl r} (h : s.FormIf p) : (s.escalate sl r).FormIf p := h.setSlice.deviceEvent

theorem State.FormIf.bumpCounter {c n k} (h : s.FormIf p) : (s.bumpCounter c n k).FormIf p := h.setCtx

theorem State.FormIf.countEvent {c code k} (h : s.FormIf p) : (s.countEvent c code k).FormIf p :=
  h.ite (h.foldl (fun _ _ h1 => h1.bumpCounter))

theorem State.FormIf.guardRange {lo hi} (h : s.FormIf p) : (Machine.guardRange s lo hi).FormIf p := h

theorem State.FormIf.guardCheck {key} (h : s.FormIf p) : (Machine.guardCheck s key).FormIf p := h.guardRange

theorem State.FormIf.noteGuard {ctx va key n} (h : s.FormIf p) : (Machine.noteGuard s ctx va key n).FormIf p := h.update.ite h

theorem State.FormIf.touchRange {lo hi} (h : s.FormIf p) : (Machine.touchRange s lo hi).FormIf p := h

theorem State.FormIf.putBytes {k bs} (h : s.FormIf p) : (s.putBytes k bs).FormIf p := fun hp => (h hp).putBytes k bs

theorem State.FormIf.clearPoison {k n} (h : s.FormIf p) : (s.clearPoison k n).FormIf p := h

theorem State.FormIf.memWrite {k bs} (h : s.FormIf p) : (s.memWrite k bs).FormIf p := h.touchRange.putBytes.clearPoison.guardRange

theorem State.FormIf.clear {lo hi} (h : s.FormIf p) : State.FormIf p { s with mem := SMap.clear s.mem lo hi } :=
  fun hp => (h hp).clear lo hi

theorem State.FormIf.zeroRange {lo hi} (h : s.FormIf p) : (Machine.zeroRange s lo hi).FormIf p :=
  h.touchRange.clear.clearPoison.guardRange

theorem State.FormIf.memWriteNat {k n v} (h : s.FormIf p) : (s.memWriteNat k n v).FormIf p := h.memWrite

theorem State.FormIf.logFullExit {vf} (h : s.FormIf p) : (Machine.logFullExit s vf).FormIf p := h.ite h.setVf.mailEvent

theorem State.FormIf.dirtyLog {vf e sz} (h : s.FormIf p) : OptForm p (Machine.dirtyLog s vf e sz) := by
  unfold Machine.dirtyLog
  extract_lets v
  split
  · exact .some h
  split
  · exact .none
  · exact .some (h.memWriteNat.memWriteNat.setVf.logFullExit.ite h.memWriteNat.memWriteNat.setVf)

theorem State.FormIf.holdWriter {lock} (h : s.FormIf p) : (Machine.holdWriter s lock).FormIf p := by
  unfold Machine.holdWriter
  split <;> exact h

theorem State.FormIf.logHold {vf} (h : s.FormIf p) : (Machine.logHold s vf).FormIf p := (h.logFullExit.ite h).holdWriter

theorem State.FormIf.frameChecked {acc n} {r : State × TRes} (h : s.FormIf p) (hr : r.1.FormIf p) :
    (Machine.frameChecked s acc n r).1.FormIf p := by
  unfold Machine.frameChecked
  split
  · split
    · exact h.holdWriter
    · exact hr
  · exact hr

theorem State.FormIf.served {old w} (h : s.FormIf p) : (s.served old w).FormIf p := h

theorem State.FormIf.keepHold {s' vf} (h : s.FormIf p) : (Machine.keepHold s s' vf).FormIf p := h.update.logFullExit.ite h.update

theorem State.FormIf.setDirty {vf e sz key} (h : s.FormIf p) : OptForm p (Machine.setDirty s vf e sz key) :=
  h.dirtyLog.map fun _ h => h.memWriteNat

theorem State.FormIf.tlbInsert {c x} (h : s.FormIf p) : (Machine.tlbInsert s c x).FormIf p := h.setCtx

theorem State.FormIf.peerChecked {acc n} {r : State × TRes} (h : r.1.FormIf p) : (Machine.peerChecked acc n r).1.FormIf p := by
  unfold Machine.peerChecked
  split
  · split <;> exact h
  · exact h

theorem State.FormIf.translateVA {c va n acc user rel} (h : s.FormIf p) :
    (Machine.translateVA s c va n acc user rel).1.FormIf p := by
  unfold Machine.translateVA
  refine h.frameChecked (State.FormIf.peerChecked ?_)
  split
  · exact h
  split
  · exact h
  extract_lets a w miss keeps look
  have hmiss : ∀ x, miss s = .ok x → x.2.2.2.FormIf p := by
    intro x e
    unfold miss at e
    cases hw : w with
    | fail code => rw [hw] at e; cases e
    | leaf e' sz ke =>
      rw [hw] at e
      cases e
      exact h.countEvent.tlbInsert
  have hlook : ∀ x, look = .ok x → x.2.2.2.FormIf p := by
    intro x e
    unfold look at e
    split at e
    · exact hmiss x e
    split at e
    · cases e
      exact h.countEvent
    split at e
    · cases e
      exact h
    · exact hmiss x e
  clear_value look
  split
  · exact h.countEvent
  next s1 =>
  have h1 : s1.FormIf p := hlook _ rfl
  split
  · exact h1
  extract_lets key
  split
  · split
    · exact h1
    split
    · exact h1.logHold
    · next e => exact (State.FormIf.of_opt e h1.setDirty).tlbInsert.noteGuard
  · exact h1.noteGuard.ite h1

theorem State.FormIf.raced {n} (h : s.FormIf p) : (Machine.raced s n).FormIf p := h.foldl fun _ _ h1 => h1.putBytes.ite h1

theorem State.FormIf.translateReg {c x off n acc user rel} (h : s.FormIf p) :
    (Machine.translateReg s c x off n acc user rel).1.FormIf p := by
  unfold Machine.translateReg
  split
  · exact h
  extract_lets walked
  have hwalked : ∀ s, s.FormIf p → (walked s).FormIf p := by
    intro s1 h1
    unfold walked
    exact h1.countEvent.ite h1
  split
  · exact h.countEvent.ite h
  extract_lets va
  split
  · exact h.countEvent.ite h
  split
  · exact h.countEvent.ite h
  split
  · exact h.countEvent.ite h
  split
  · split
    · exact h.countEvent.ite h
    split
    · split
      · exact (h.countEvent.ite h).noteGuard
      split
      · exact (h.countEvent.ite h).noteGuard
      split
      · exact (h.countEvent.ite h).logHold
      next s1 e11 =>
        have hs1 : s1.FormIf p := .of_opt e11 (h.countEvent.ite h).setDirty
        exact hs1.noteGuard
    · exact h.countEvent.ite h
  dsimp only
  exact (h.countEvent.ite h).translateVA

theorem State.FormIf.translateT {c x off n acc user rel} (h : s.FormIf p) :
    (Machine.translateT s c x off n acc user rel).1.FormIf p := by
  unfold Machine.translateT
  dsimp only
  exact h.frameChecked h.translateReg.peerChecked

theorem State.FormIf.l1Fill {id line} (h : s.FormIf p) : (s.l1Fill id line).FormIf p := h.ite h.setL1

theorem State.FormIf.l1Invalidate {id} (h : s.FormIf p) : (s.l1Invalidate id).FormIf p := h.setL1

theorem State.FormIf.performDirty {id x} (h : s.FormIf p) : (s.performDirty id x).FormIf p :=
  (h.update.setL1.foldl (fun _ _ h1 => h1.memWrite)).update

theorem State.FormIf.markWhole {keys n} (h : s.FormIf p) : (s.markWhole keys n).FormIf p := h.ite h.setL1

theorem State.FormIf.dropClean {line} (h : s.FormIf p) : (s.dropClean line).FormIf p := h

theorem State.FormIf.syncDup {line ctx} (h : s.FormIf p) : (s.syncDup line ctx).FormIf p :=
  h.dropClean.foldl fun _ _ h1 => h1.memWrite.dropClean.ite h1.memWrite.dropClean.update

theorem State.FormIf.syncDupN {k n ctx} (h : s.FormIf p) : (s.syncDupN k n ctx).FormIf p := h.foldl fun _ _ h1 => h1.syncDup

theorem State.FormIf.ackDup {id line} (h : s.FormIf p) : (s.ackDup id line).FormIf p := by
  unfold State.ackDup
  split
  · exact h
  · exact h.performDirty.syncDup.setL1

theorem State.FormIf.ackAllDup {id} (h : s.FormIf p) : (s.ackAllDup id).FormIf p := h.foldl fun _ _ h1 => h1.ackDup

theorem State.FormIf.writeBackL1 {id sc fused} (h : s.FormIf p) : (s.writeBackL1 id sc fused).FormIf p :=
  h.ite (h.performDirty.ackAllDup.ite h.ackAllDup)

theorem State.FormIf.scopeWriteBack {sc} (h : s.FormIf p) : (s.scopeWriteBack sc).FormIf p := h.writeBackL1

theorem State.FormIf.acquire {sc} (h : s.FormIf p) : (s.acquire sc).FormIf p := h.l1Invalidate.ite h

theorem State.FormIf.objAcquire (h : s.FormIf p) : s.objAcquire.FormIf p := h.acquire

theorem State.FormIf.loadBytes {k n o sc dup} (h : s.FormIf p) : (s.loadBytes k n o sc dup).1.FormIf p := h.acquire.ite h.l1Fill

theorem State.FormIf.storeBytes {k bs sc dup} (h : s.FormIf p) : (s.storeBytes k bs sc dup).FormIf p := h.setL1

theorem State.FormIf.atomicBytes {k n o sc dup f} (h : s.FormIf p) : (s.atomicBytes k n o sc dup f).1.FormIf p := by
  unfold State.atomicBytes
  extract_lets sc1 s1 id
  have hs1 : s1.FormIf p := h.scopeWriteBack.ite h
  split
  · exact hs1.performDirty.memWrite.setL1.acquire.ite hs1.performDirty.memWrite.setL1
  · exact hs1.storeBytes

theorem State.FormIf.fence {k sc} (h : s.FormIf p) : (s.fence k sc).FormIf p := by
  unfold State.fence
  split
  · exact h.acquire
  · exact h.scopeWriteBack
  · exact h.scopeWriteBack.acquire
  · exact h.scopeWriteBack.acquire

theorem State.FormIf.spWrite {o bs} (h : s.FormIf p) : (s.spWrite o bs).FormIf p := h.mapT

end Sys2Proof.Machine
end

section
/-! ## The form: the ends of words, fetches, barriers, roof domains and copies -/

namespace Sys2Proof.Machine

variable {p : Prop} {s t : State}

theorem State.FormIf.endC {w len} (h : s.FormIf p) : (s.endC w len).FormIf p := h.mapG

theorem State.FormIf.parkC {k} (h : s.FormIf p) : (s.parkC k).FormIf p := h.mapG

theorem State.FormIf.afterLoads {k : State → Res} (h : s.FormIf p) (hk : ∀ s, s.FormIf p → Res.FormIf p (k s)) :
    Res.FormIf p (Machine.afterLoads k s) :=
  .ite (.next h.parkC) (hk _ h)

theorem State.FormIf.writeScratch (h : s.FormIf p) : (Machine.writeScratch s).FormIf p := h.memWrite

theorem State.FormIf.enterHandler {f} (h : s.FormIf p) : (Machine.enterHandler s f).FormIf p := h.countEvent.writeScratch.mapG

theorem State.FormIf.markRedo {f chans} (h : s.FormIf p) : (Machine.markRedo s f chans).FormIf p :=
  h.ite (((h.ite h.mapG).ite h.mapG).ite (h.mapG.ite h))

theorem State.FormIf.freezeGroup {f chans code} (h : s.FormIf p) : (Machine.freezeGroup s f chans code).FormIf p :=
  (h.mapG.ite h).markRedo.mapG.escalate

theorem State.FormIf.takeFault {f chans} (h : s.FormIf p) : (Machine.takeFault s f chans).FormIf p := by
  unfold Machine.takeFault
  split
  · exact h.enterHandler.mapG.ite h.freezeGroup
  · exact h.freezeGroup
  · exact h.mapG.update
  · exact h.mapG.update

theorem State.FormIf.uncorrected {sl} (h : s.FormIf p) : (Machine.uncorrected s sl).FormIf p := h.setSlice

theorem State.FormIf.groupUpset {uid} (h : s.FormIf p) : (Machine.groupUpset s uid).FormIf p := by
  unfold Machine.groupUpset
  split
  · exact h
  split
  · exact h
  · exact h.mapGroups.escalate

theorem State.FormIf.freezeWindow {uid} (h : s.FormIf p) : (Machine.freezeWindow s uid).FormIf p := by
  unfold Machine.freezeWindow
  split
  · exact h.mapGroups.escalate
  · exact h

theorem State.FormIf.windowUpset {uid line} (h : s.FormIf p) : (Machine.windowUpset s uid line).FormIf p := by
  unfold Machine.windowUpset
  split
  · exact h
  · exact h.uncorrected.mapTeams.freezeWindow

theorem State.FormIf.meetLost (h : s.FormIf p) : (Machine.meetLost s).FormIf p := h.groupUpset.ite h.freezeWindow

theorem State.FormIf.faultC {code addr} (h : s.FormIf p) : Res.FormIf p (Machine.faultC s code addr) := .next h.takeFault

theorem State.FormIf.illegalC (h : s.FormIf p) : Res.FormIf p (Machine.illegalC s) := h.faultC

theorem State.FormIf.wordFaultL {sp code mask} (h : s.FormIf p) : Res.FormIf p (Machine.wordFaultL s sp code mask) :=
  .next h.takeFault

theorem State.FormIf.takeEngineFault (h : s.FormIf p) : (Machine.takeEngineFault s).FormIf p := by
  unfold Machine.takeEngineFault
  split
  · exact h
  · exact h.mapG.takeFault

theorem State.FormIf.deliverFault {uid code addr} (h : s.FormIf p) : (Machine.deliverFault s uid code addr).FormIf p := h.mapGroups

theorem State.FormIf.xlate {va n acc} (h : s.FormIf p) : (s.xlate va n acc).1.FormIf p := h.translateVA

theorem State.FormIf.fetchC {pc} (h : s.FormIf p) : (Machine.fetchC s pc).state.FormIf p := by
  unfold Machine.fetchC
  split
  · exact h
  split
  next e1 => exact .of_fst e1 h.xlate
  next e1 => exact .of_fst e1 h.xlate
  next s1 _ _ e1 =>
    have hs1 : s1.FormIf p := .of_fst e1 h.xlate
    split <;> exact hs1

theorem State.FormIf.fetchL {n} (h : s.FormIf p) : (Machine.fetchL s n).state.FormIf p := by
  unfold Machine.fetchL
  extract_lets pc left rest
  have hrest : ∀ s x x', s.FormIf p → (rest s x x').state.FormIf p := by
    intro s1 x x' h1
    unfold rest
    split <;> exact h1
  split
  next e => exact .of_fst e h.xlate
  next e => exact .of_fst e h.xlate
  next x s1 _ _ e =>
    have hs1 : s1.FormIf p := .of_fst e h.xlate
    extract_lets unit
    have hunit : ∀ s x, s.FormIf p → (unit s x).state.FormIf p := by
      intro s2 x1 h1
      unfold unit
      split
      · exact hrest _ _ _ h1
      · exact h1.fetchC
    split
    next s2 _ _ e1 =>
      have hs2 : s2.FormIf p := .of_fetched e1 (hrest _ _ _ hs1)
      exact hs2
    next s2 _ e1 =>
      have hs2 : s2.FormIf p := .of_fetched e1 (hrest _ _ _ hs1)
      split
      next s3 _ _ e2 =>
        have hs3 : s3.FormIf p := .of_fetched e2 (hunit _ _ hs2)
        exact hs3
      next s3 _ e2 =>
        have hs3 : s3.FormIf p := .of_fetched e2 (hunit _ _ hs2)
        split
        next s4 _ _ e3 =>
          have hs4 : s4.FormIf p := .of_fetched e3 (hunit _ _ hs3)
          exact hs4
        next s4 _ e3 =>
          have hs4 : s4.FormIf p := .of_fetched e3 (hunit _ _ hs3)
          exact hs4

theorem State.FormIf.winWrite {uid o bs} (h : s.FormIf p) : (Machine.winWrite s uid o bs).FormIf p := by
  unfold Machine.winWrite
  split
  · exact h.mapTeams
  split
  · exact h.memWrite
  · exact h

theorem State.FormIf.winFill {uid line} (h : s.FormIf p) : (Machine.winFill s uid line).FormIf p := by
  unfold Machine.winFill
  split
  · exact h.mapTeams
  split
  · exact h.memWrite
  · exact h

theorem State.FormIf.noteFlip {ctx uid bar} (h : s.FormIf p) : (Machine.noteFlip s ctx uid bar).FormIf p := h.countEvent.update

theorem State.FormIf.reportMisuse {d} (h : s.FormIf p) : (Machine.reportMisuse s d).FormIf p := h.escalate

theorem State.FormIf.applyDecr {d} (h : s.FormIf p) : (Machine.applyDecr s d).FormIf p := by
  unfold Machine.applyDecr
  extract_lets b
  split
  · exact (h.noteFlip.ite h).winWrite
  · exact h.winWrite.reportMisuse

theorem State.FormIf.engineCount {d} (h : s.FormIf p) : (Machine.engineCount s d).FormIf p := by
  unfold Machine.engineCount
  split
  · exact h.applyDecr
  · exact h

theorem State.FormIf.applyDecrs (h : s.FormIf p) : (Machine.applyDecrs s).FormIf p := h.update.foldl fun _ _ h1 => h1.applyDecr

theorem State.FormIf.abandonBarrier {d} (h : s.FormIf p) : (Machine.abandonBarrier s d).FormIf p := h.winWrite.reportMisuse

theorem State.FormIf.noteLost (h : s.FormIf p) : (Machine.noteLost s).FormIf p := h.mapGroups

theorem State.FormIf.setBar {o b} (h : s.FormIf p) : (s.setBar o b).FormIf p := h.spWrite

theorem State.FormIf.barInstr {w o ok upd f} (h : s.FormIf p) : Res.FormIf p (Machine.barInstr w o ok upd f s) := by
  unfold Machine.barInstr
  split
  · exact h.faultC
  split
  · exact h.faultC
  split
  · exact h.faultC
  · exact .next (h.noteFlip.ite h).setBar.endC

theorem State.FormIf.barAcquire (h : s.FormIf p) : (Machine.barAcquire s).FormIf p := h.l1Invalidate

theorem State.FormIf.parkOn {k o} (h : s.FormIf p) : (Machine.parkOn k o s).FormIf p := h.parkC.mapG

theorem State.FormIf.jumpTo {w target} (h : s.FormIf p) : Res.FormIf p (Machine.jumpTo w target s) := .next h.mapG

theorem State.FormIf.clearArea {k n} (h : s.FormIf p) : (Machine.clearArea s k n).FormIf p :=
  h.touchRange.clear.clearPoison

theorem State.FormIf.moveArea {k1 k bits} (h : s.FormIf p) : (Machine.moveArea s k1 k bits).FormIf p :=
  (((h.clearArea.foldl (fun _ _ h1 => h1.memWrite)).update.ite h).clearArea.foldl (fun _ _ h1 => h1.memWrite)).update.ite
    ((h.clearArea.foldl (fun _ _ h1 => h1.memWrite)).update.ite h)

theorem State.FormIf.saveRoof {c k} (h : s.FormIf p) : (Machine.saveRoof s c k).FormIf p :=
  (h.clearArea.foldl (fun _ _ h1 => h1.memWrite)).update

theorem State.FormIf.fillArea {ctx cl k} (h : s.FormIf p) : (Machine.fillArea s ctx cl k).FormIf p := by
  unfold Machine.fillArea
  extract_lets c mine owns anyChim due moved s1
  have hs1 : s1.FormIf p := by
    unfold s1
    clear_value due
    split
    · exact h.moveArea
    · exact h
  exact hs1.ite (((hs1.memWrite.foldl (fun _ _ h1 => h1.memWrite)).ite hs1.memWrite).saveRoof.ite
    ((hs1.memWrite.foldl (fun _ _ h1 => h1.memWrite)).ite hs1.memWrite))

theorem State.FormIf.saveArea {ctx cl} (h : s.FormIf p) : (Machine.saveArea s ctx cl).FormIf p := by
  unfold Machine.saveArea
  extract_lets area s1 c owns gone
  have hs1 : s1.FormIf p := by
    unfold s1
    clear_value area
    split
    · exact h
    · exact h.fillArea
  exact hs1.setCluster

theorem State.FormIf.loadArea {cl} (h : s.FormIf p) : (Machine.loadArea s cl).FormIf p := by
  unfold Machine.loadArea
  extract_lets c
  split
  · exact h
  · exact h.setCluster

theorem State.FormIf.takeRoof {cl ctx} (h : s.FormIf p) : (Machine.takeRoof s cl ctx).FormIf p := h.setCluster.loadArea.ite h

theorem State.FormIf.wakeRoof {cl} (h : s.FormIf p) : (Machine.wakeRoof s cl).FormIf p := h.setCluster.ite h

theorem State.FormIf.gateRoof {cl} (h : s.FormIf p) : (Machine.gateRoof s cl).FormIf p := h.setCluster

theorem State.FormIf.gateRoofs (h : s.FormIf p) : (Machine.gateRoofs s).FormIf p := h.foldl fun _ _ h1 => h1.gateRoof.ite h1

theorem State.FormIf.chimPush {e} (h : s.FormIf p) : (Machine.chimPush s e).FormIf p := h.scopeWriteBack.setCluster

theorem State.FormIf.chimTake {n k} (h : s.FormIf p) : (Machine.chimTake s n k).FormIf p := h.acquire.setCluster

theorem State.FormIf.startCopy {c} (h : s.FormIf p) : (Machine.startCopy s c).FormIf p := h.performDirty.ackAllDup.update

theorem State.FormIf.emptyLines {ls} (h : s.FormIf p) : (s.emptyLines ls).FormIf p := h.mapT

theorem State.FormIf.cpybStart {w ctl bar sbase da plan} (h : s.FormIf p) :
    Res.FormIf p (Machine.cpybStart w ctl bar sbase da plan s) :=
  .ite h.faultC (.ite h.faultC (.ite h.faultC (.next (h.emptyLines.ite h).startCopy.endC)))

theorem State.FormIf.dropCopy {id} (h : s.FormIf p) : (s.dropCopy id).FormIf p := h

theorem State.FormIf.setCopy {c} (h : s.FormIf p) : (s.setCopy c).FormIf p := h

theorem State.FormIf.stopCopy {c code addr} (h : s.FormIf p) : (Machine.stopCopy s c code addr).FormIf p := by
  unfold Machine.stopCopy
  split
  · exact h.setCopy.deliverFault
  extract_lets s1
  have hs1 : s1.FormIf p := h.escalate
  split
  · exact hs1.setCopy
  · exact hs1.dropCopy.abandonBarrier

theorem State.FormIf.copyXlate {c x acc} (h : s.FormIf p) : (Machine.copyXlate s c x acc).1.FormIf p := h.translateVA

theorem State.FormIf.copyRead {c x n} (h : s.FormIf p) : (Machine.copyRead s c x n).state.FormIf p := by
  unfold Machine.copyRead
  split
  · split
    next e1 => exact .of_fst e1 h.copyXlate
    next e1 => exact .of_fst e1 h.copyXlate
    next s1 _ _ e1 =>
      have hs1 : s1.FormIf p := .of_fst e1 h.copyXlate
      split <;> exact hs1
  · split
    · split
      · split <;> exact h
      · split <;> exact h
    extract_lets meets
    split
    · exact h
    · split <;> exact h
  · exact h

theorem State.FormIf.copyReads {c x} (h : s.FormIf p) : (Machine.copyReads s c x).state.FormIf p := by
  induction x generalizing s with
  | nil =>
    rw [Machine.copyReads]
    exact h
  | cons a l ih =>
    rw [Machine.copyReads]
    split
    next s1 _ e =>
      have hs1 : s1.FormIf p := .of_copyRead e h.copyRead
      split
      next s2 _ e1 =>
        have hs2 : s2.FormIf p := .of_copyRead e1 (by split; exacts [hs1.copyRead, hs1])
        split
        next s3 _ e2 =>
          have hs3 : s3.FormIf p := .of_copyRead e2 (ih hs2)
          exact hs3
        · exact ih hs2
      split
      · exact hs1.copyRead
      · exact hs1
    · exact h.copyRead

theorem State.FormIf.copyPuts {c d0 x} (h : s.FormIf p) :
    (Machine.copyPuts s c d0 x).1.FormIf p ∧ ∀ u, (Machine.copyPuts s c d0 x).2 = .error u → u.state.FormIf p := by
  induction x generalizing s with
  | nil => exact ⟨h, fun _ e => nomatch e⟩
  | cons a l ih =>
    rw [Machine.copyPuts]
    split
    next s1 e =>
      have h1 : s1.FormIf p := .of_copyRead e h.copyReads
      exact ⟨h1, fun u e => by cases e; exact h1⟩
    next s1 _ _ e =>
      have h1 : s1.FormIf p := .of_copyRead e h.copyReads
      exact ⟨h1, fun u e => by cases e; exact h1⟩
    next s1 _ e =>
      have h1 := ih (s := s1) (.of_copyRead e h.copyReads)
      split
      next e1 => rw [e1] at h1; exact h1
      next e1 => rw [e1] at h1; exact ⟨h1.1, fun _ e => nomatch e⟩

theorem State.FormIf.copyUnit {c st} (h : s.FormIf p) : (Machine.copyUnit s c st).state.FormIf p := by
  unfold Machine.copyUnit
  split
  · exact h
  split
  next e => exact h.copyPuts.2 _ (congrArg Prod.snd e)
  next s1 l e =>
  have h1 : s1.FormIf p := .of_fst e h.copyPuts.1
  extract_lets at_
  split
  · split
    next e => exact .of_fst e h1.copyXlate
    next e => exact .of_fst e h1.copyXlate
    next s2 _ _ e =>
      have h2 : s2.FormIf p := .of_fst e h1.copyXlate
      split
      · exact h2
      · exact h2.noteGuard
  · exact h1
  · split <;> exact h1

theorem State.FormIf.roofLand {cl ctx o bs} (h : s.FormIf p) : (Machine.roofLand s cl ctx o bs).FormIf p := by
  unfold Machine.roofLand
  split
  · exact (h.ite h.clearArea.memWrite).memWrite
  · exact h.takeRoof.setCluster
  · exact h

theorem State.FormIf.mendRoof {cl ctx sec} (h : s.FormIf p) : (Machine.mendRoof s cl ctx sec).FormIf p := by
  unfold Machine.mendRoof
  split
  · exact h.clearPoison
  · exact h.setCluster
  · exact h

theorem State.FormIf.copyPut {c col dup w} (h : s.FormIf p) : (Machine.copyPut s c col dup w).FormIf p := by
  unfold Machine.copyPut
  extract_lets endsSector
  split
  · exact (h.memWrite.clearPoison.ite h.memWrite).syncDupN.ite (h.memWrite.clearPoison.ite h.memWrite)
  · exact h.winWrite
  · exact h.roofLand.mendRoof.ite h.roofLand

theorem State.FormIf.copyLand {c st ws dup} (h : s.FormIf p) : (Machine.copyLand s c st ws dup).FormIf p := by
  unfold Machine.copyLand
  extract_lets len r col d alone s1 s2
  have hs1 : s1.FormIf p := h.foldl fun _ _ h1 => h1.copyPut
  have hs2 : s2.FormIf p := hs1.winFill.ite hs1
  split
  · exact hs2
  · exact hs2.ite hs2.engineCount

theorem State.FormIf.copyAdvance {c} (h : s.FormIf p) : (Machine.copyAdvance s c).FormIf p := by
  unfold Machine.copyAdvance
  split
  · exact h
  extract_lets st s1
  have hs1 : s1.FormIf p := by
    unfold s1
    split
    · exact h.update.wakeRoof
    · exact h
  split
  next s2 _ _ e1 =>
    have hs2 : s2.FormIf p := .of_copyUnit e1 hs1.copyUnit
    exact hs2.stopCopy
  next s2 e1 =>
    have hs2 : s2.FormIf p := .of_copyUnit e1 hs1.copyUnit
    exact hs2
  next s2 _ _ e1 =>
    have hs2 : s2.FormIf p := .of_copyUnit e1 hs1.copyUnit
    exact hs2.copyLand.countEvent.dropCopy.ite hs2.copyLand.countEvent.setCopy

end Sys2Proof.Machine
end

section
/-! ## The form: channels, lane words and Sinter -/

namespace Sys2Proof.Machine

variable {p : Prop} {s t : State}

theorem State.FormIf.setCh {c es} (h : s.FormIf p) : (Machine.setCh s c es).FormIf p := h.mapT.ite (h.mapG.ite (h.mapG.ite h))

theorem State.FormIf.chPush {c v} (h : s.FormIf p) : (Machine.chPush s c v).FormIf p := h.setCh

theorem State.FormIf.chDrop {c k} (h : s.FormIf p) : (Machine.chDrop s c k).FormIf p := h.setCh

theorem State.FormIf.popEntries {os popped} (h : s.FormIf p) : (Machine.popEntries s os popped).FormIf p :=
  (h.foldl (fun _ _ h1 => h1.chDrop.ite h1.chimTake)).acquire.ite (h.foldl (fun _ _ h1 => h1.chDrop.ite h1.chimTake))

theorem State.FormIf.sendWakes {d} (h : s.FormIf p) : (Machine.sendWakes s d).FormIf p := by
  unfold Machine.sendWakes
  split
  · exact h.wakeRoof.ite h
  · exact h

theorem State.FormIf.waitL {x want} (h : s.FormIf p) : Res.FormIf p (Machine.waitL s x want) := .next h.mapG

theorem State.FormIf.deferL {w x act all ds want k} (h : s.FormIf p) : Res.FormIf p (Machine.deferL w s x act all ds want k) :=
  .next h.mapG

theorem State.FormIf.meetBad (h : s.FormIf p) : (Machine.meetBad s).FormIf p := h.uncorrected.groupUpset

theorem State.FormIf.laneRunT {tol mem x ds regs os d} {k : LCtx → State → Res} (h : s.FormIf p) (hk : ∀ c s, c.s0.FormIf p →
    s.FormIf p → Res.FormIf p (k c s)) : Res.FormIf p (Machine.laneRunT tol mem x ds regs os d k s) := by
  unfold Machine.laneRunT
  split
  · exact .next h
  extract_lets act all kind legal
  split
  · exact h.wordFaultL
  split
  · exact .next h.meetBad
  split
  · exact .ite (.next h) h.deferL
  · exact .ite (.ite (.next h) h.deferL) (.ite (.ite (.next h.sendWakes) h.sendWakes.waitL) (hk _ _ h h.popEntries))

theorem State.FormIf.laneRun {x ds regs os d} {k : LCtx → State → Res} (h : s.FormIf p) (hk : ∀ c s, c.s0.FormIf p → s.FormIf p →
    Res.FormIf p (k c s)) : Res.FormIf p (Machine.laneRun x ds regs os d k s) :=
  h.laneRunT hk

theorem State.FormIf.laneMem {x ds regs os d} {k : LCtx → State → Res} (h : s.FormIf p) (hk : ∀ c s, c.s0.FormIf p → s.FormIf p →
    Res.FormIf p (k c s)) : Res.FormIf p (Machine.laneMem x ds regs os d k s) :=
  h.laneRunT hk

theorem State.FormIf.illegalL {x} (h : s.FormIf p) : Res.FormIf p (Machine.illegalL x s) := by
  unfold Machine.illegalL
  split
  · exact .next h
  · exact h.wordFaultL

theorem State.FormIf.wait {c : LCtx} (h : c.s0.FormIf p) : Res.FormIf p (LCtx.wait c) := .ite (.next h) h.deferL

theorem State.FormIf.unpop (h : t.FormIf p) : (Machine.unpop s t).FormIf p := h

theorem State.FormIf.waitLog {c : LCtx} (h : s.FormIf p) : Res.FormIf p (LCtx.waitLog c s) := .ite (.next h.unpop) h.unpop.waitL

theorem State.FormIf.endL {c} (h : s.FormIf p) : Res.FormIf p (LCtx.endL c s) := .next h.mapG

theorem State.FormIf.endOr {c faults} (h : s.FormIf p) : Res.FormIf p (LCtx.endOr c faults s) := by
  unfold LCtx.endOr
  split
  · exact h.endL
  extract_lets lanes1 __src info
  split
  · exact .next h.takeFault
  · exact .next h.mapG.takeFault

theorem State.FormIf.pend {c ds} (h : s.FormIf p) : (LCtx.pend c ds s).FormIf p := h.mapG

theorem State.FormIf.putV {c long r bits outs} (h : s.FormIf p) : (LCtx.putV c long r bits outs s).FormIf p :=
  (h.ite h.pend).ite h.mapG

theorem State.FormIf.pushOuts {i outs} (h : s.FormIf p) : (Machine.pushOuts i outs s).FormIf p := by
  unfold Machine.pushOuts
  split
  · exact h
  · exact h.chimPush.ite h.chPush

theorem State.FormIf.put {c long d outs} (h : s.FormIf p) : (LCtx.put c long d outs s).FormIf p := by
  unfold LCtx.put
  split
  · exact h.putV
  · exact h.pushOuts

theorem State.FormIf.putHalf {c long r hi outs} (h : s.FormIf p) : (LCtx.putHalf c long r hi outs s).FormIf p := h.putV

theorem State.FormIf.putM {c long m bs} (h : s.FormIf p) : (LCtx.putM c long m bs s).FormIf p := h.ite ((h.ite h.pend).ite h.mapG)

theorem State.FormIf.flagAll {fs} (h : s.FormIf p) : (Machine.flagAll fs s).FormIf p := h.ite h.mapG

theorem State.FormIf.laneOp {x long d n os f} (h : s.FormIf p) : Res.FormIf p (Machine.laneOp x long d n os f s) :=
  h.laneRun fun _ _ _ h1 => h1.put.flagAll.endL

theorem State.FormIf.lanePred {x d os f} (h : s.FormIf p) : Res.FormIf p (Machine.lanePred x d os f s) := by
  unfold Machine.lanePred
  extract_lets srcs
  split
  · exact h.laneOp
  · exact h.laneRun fun _ _ _ h1 => h1.putM.flagAll.endL

theorem State.FormIf.lane1 {f long x d y} (h : s.FormIf p) : Res.FormIf p (Machine.lane1 f long x d y s) := h.laneOp

theorem State.FormIf.lane2 {f long x d y b} (h : s.FormIf p) : Res.FormIf p (Machine.lane2 f long x d y b s) := h.laneOp

theorem State.FormIf.lane3 {f x d y b c} (h : s.FormIf p) : Res.FormIf p (Machine.lane3 f x d y b c s) := h.laneOp

theorem State.FormIf.stepCtr {c sr} (h : s.FormIf p) : (LCtx.stepCtr c sr s).FormIf p := h.mapG.ite h

theorem State.FormIf.laneCvt {x sr d n os f} (h : s.FormIf p) : Res.FormIf p (Machine.laneCvt x sr d n os f s) :=
  h.laneRun fun _ _ _ h1 => h1.stepCtr.put.flagAll.endL

theorem State.FormIf.laneCvtHalf {x sr d os f} (h : s.FormIf p) : Res.FormIf p (Machine.laneCvtHalf x sr d os f s) := by
  unfold Machine.laneCvtHalf
  extract_lets srcs
  split
  · exact h.illegalL
  · exact h.laneRun fun _ _ _ h1 => h1.stepCtr.putHalf.flagAll.endL

theorem State.FormIf.laneConv {x sr ty sty d y f} (h : s.FormIf p) : Res.FormIf p (Machine.laneConv x sr ty sty d y f s) :=
  .ite h.laneCvtHalf h.laneCvt

theorem State.FormIf.cvtN {n x ty sty sr d y b r} (h : s.FormIf p) : Res.FormIf p (Machine.cvtN n x ty sty sr d y b r s) := by
  unfold Machine.cvtN
  split
  · exact h.illegalL
  · exact h.laneCvt

theorem State.FormIf.writeS {w len d v} (h : s.FormIf p) : Res.FormIf p (Machine.writeS w len d v s) := .next h.mapG.endC

theorem State.FormIf.iop {f w d x b} (h : s.FormIf p) : Res.FormIf p (Machine.iop f w d x b s) := h.writeS

theorem State.FormIf.iop1 {f w d x} (h : s.FormIf p) : Res.FormIf p (Machine.iop1 f w d x s) := h.writeS

theorem State.FormIf.immOp {f w len d x i} (h : s.FormIf p) : Res.FormIf p (Machine.immOp f w len d x i s) := h.writeS

theorem State.FormIf.writeQ {w len i b} (h : s.FormIf p) : Res.FormIf p (Machine.writeQ w len i b s) := .next h.mapG.endC

theorem State.FormIf.writeP {w d v} (h : s.FormIf p) : Res.FormIf p (Machine.writeP w d v s) := .next h.mapG.endC

theorem State.FormIf.cmpImm {w len c q x i} (h : s.FormIf p) : Res.FormIf p (Machine.cmpImm w len c q x i s) := h.writeQ

theorem State.FormIf.qop {f w x n b m c} (h : s.FormIf p) : Res.FormIf p (Machine.qop f w x n b m c s) := h.writeQ

theorem State.FormIf.laneI {x y sat d os f} (h : s.FormIf p) : Res.FormIf p (Machine.laneI x y sat d os f s) := h.laneOp

theorem State.FormIf.laneW {x d os f} (h : s.FormIf p) : Res.FormIf p (Machine.laneW x d os f s) := h.laneOp

theorem State.FormIf.laneShift {x y d z n f} (h : s.FormIf p) : Res.FormIf p (Machine.laneShift x y d z n f s) := h.laneOp

theorem State.FormIf.funnel {x d y b n f} (h : s.FormIf p) : Res.FormIf p (Machine.funnel x d y b n f s) := h.laneOp

theorem State.FormIf.laneMove {x y d z b from_} (h : s.FormIf p) : Res.FormIf p (Machine.laneMove x y d z b from_ s) :=
  h.laneRun fun _ _ _ h1 => h1.put.endL

theorem State.FormIf.writeSpecial {idx v} (h : s.FormIf p) : OptForm p (Machine.writeSpecial s idx v) := by
  unfold Machine.writeSpecial
  extract_lets g x slice hsPc canPc id
  have hhsPc : ∀ x, (hsPc x).FormIf p := by
    intro x1
    unfold hsPc
    exact h.mapG
  split
  · exact .some h.mapG
  · split
    · exact .some h.mapG
    · exact .none
  · split
    · exact .some h.mapG
    · exact .none
  · split
    · exact .some h.mapG
    · exact .none
  · split
    · exact .some h.setCtx
    · exact .none
  · split
    · exact .some h.setCtx
    · exact .none
  · split
    · exact .some h.setCtx
    · exact .none
  · split
    · exact .some h.setCtx
    · exact .none
  · split
    · exact .some h.setCtx
    · exact .none
  · split
    · exact .some h.setCtx
    · exact .none
  · split
    · exact .some h.setCtx
    · exact .none
  · split
    · exact .some h.setCtx
    · exact .none
  · split
    · exact .some (h.mapG.ite h)
    · exact .none
  · exact .none

theorem State.FormIf.rebound {i old new} (h : s.FormIf p) : (Machine.rebound s i old new).FormIf p := h.ite h.mapG

theorem State.FormIf.placeT {i off n acc} (h : s.FormIf p) : (Machine.placeT s i off n acc).1.FormIf p := by
  unfold Machine.placeT
  extract_lets t s1 va
  have hs1 : s1.FormIf p := h.objAcquire.ite h
  split
  next s2 _ _ _ e =>
    have hs2 : s2.FormIf p := .of_fst e hs1.translateT
    exact hs2.rebound
  next s2 _ _ e =>
    have hs2 : s2.FormIf p := .of_fst e hs1.translateT
    exact hs2.rebound
  next e => exact .of_fst e hs1.translateT

theorem State.FormIf.placeLane {c x n acc l} (h : s.FormIf p) : (LCtx.placeLane c x n acc s l).1.FormIf p := by
  unfold LCtx.placeLane
  extract_lets off
  split
  · exact h.placeT
  · exact h
  · exact h
  extract_lets base b va
  split
  next e => exact .of_fst e h.xlate
  next e => exact .of_fst e h.xlate
  next e => exact .of_fst e h.xlate

theorem State.FormIf.placeAll {c x n acc ls} (h : s.FormIf p) : (LCtx.placeAll c x n acc ls s).s.FormIf p := by
  unfold LCtx.placeAll
  refine State.FormIf.foldlOn PlacedAll.s h fun r x hr => ?_
  split
  next e => exact .of_fst e hr.placeLane
  next e => exact .of_fst e hr.placeLane
  next e => exact .of_fst e hr.placeLane

theorem State.FormIf.impure {ls} (h : s.FormIf p) : (Machine.impure ls s).FormIf p := h.ite h.setCluster.mapG

theorem State.FormIf.readPlace {n o sc x} (h : s.FormIf p) : (Machine.readPlace s n o sc x).1.FormIf p := by
  unfold Machine.readPlace
  split
  · exact h.acquire.ite h.l1Fill
  · exact h
  · exact h.acquire.ite h

theorem State.FormIf.readAll {n o sc} {r : PlacedAll} (h : r.s.FormIf p) : (Machine.readAll n o sc r).s.FormIf p := by
  unfold Machine.readAll
  refine State.FormIf.foldlOn ReadAll.s h fun r x hr => ?_
  split
  · exact hr
  dsimp only
  exact hr.readPlace

theorem State.FormIf.laneLoad {x ty o sc d dh y} (h : s.FormIf p) : Res.FormIf p (Machine.laneLoad x ty o sc d dh y s) :=
  .ite h.illegalL (h.laneMem (fun _ _ hc h1 => .ite h1.placeAll.waitLog (.ite hc.wait (h1.placeAll.readAll.putHalf.ite
    h1.placeAll.readAll.putV).endOr)))

theorem State.FormIf.writePlace {sc bs x} (h : s.FormIf p) : (Machine.writePlace s sc bs x).FormIf p := by
  unfold Machine.writePlace
  split
  · exact h.storeBytes
  · exact h.spWrite
  · exact h

theorem State.FormIf.laneStore {x ty o sc ch y data} (h : s.FormIf p) : Res.FormIf p (Machine.laneStore x ty o sc ch y data s) :=
  .ite h.illegalL (h.laneMem (fun _ _ _ h1 => .ite h1.placeAll.waitLog ((h1.placeAll.scopeWriteBack.ite h1.placeAll).foldl
    (fun _ _ h2 => h2.writePlace)).markWhole.impure.endOr))

theorem State.FormIf.atomPlace {n o sc f x} (h : s.FormIf p) : (Machine.atomPlace s n o sc f x).1.FormIf p := by
  unfold Machine.atomPlace
  split
  · exact h.atomicBytes
  · exact h.spWrite
  · exact h

theorem State.FormIf.carriedOnly {r : PlacedAll} {op} (h : r.s.FormIf p) : (PlacedAll.carriedOnly r op).s.FormIf p := h

theorem State.FormIf.atomAll {c : LCtx} {op ty o sc k data} {r : PlacedAll} (hr : r.s.FormIf p) :
    (Machine.atomAll c op ty o sc k data r).s.FormIf p := by
  unfold Machine.atomAll
  extract_lets n
  refine State.FormIf.foldlOn ReadAll.s hr fun r x hr1 => ?_
  split
  · exact hr1
  extract_lets v x2
  dsimp only
  exact hr1.atomPlace.flagAll

theorem State.FormIf.laneAtom {x op ty o sc d y data} (h : s.FormIf p) :
    Res.FormIf p (Machine.laneAtom x op ty o sc d y data s) := by
  unfold Machine.laneAtom
  extract_lets n os dregs
  split
  · exact h.illegalL
  refine h.laneMem fun c1 s1 hc h1 => ?_
  extract_lets helpers r v s2 outs s3
  have hs2 : s2.FormIf p := (State.FormIf.atomAll h1.placeAll.carriedOnly).impure
  have hs3 : s3.FormIf p := by
    unfold s3
    split
    · exact hs2
    · exact hs2.putV
  exact .ite h1.placeAll.carriedOnly.waitLog (.ite hc.wait hs3.endOr)

theorem State.FormIf.lcpyLane {c m b bar l} (h : s.FormIf p) : (LCtx.lcpyLane c m b bar s l).1.FormIf p := by
  unfold LCtx.lcpyLane
  extract_lets dst br rest
  split
  · extract_lets off r va
    split
    · exact h
    split
    next e1 => exact .of_fst e1 h.placeT
    next e1 => exact .of_fst e1 h.placeT
    next e1 => exact .of_fst e1 h.placeT
  · extract_lets off
    split <;> exact h
  · exact h

theorem State.FormIf.resealSlot {key} (h : s.FormIf p) : (Machine.resealSlot s key).FormIf p := h.memWrite

theorem State.FormIf.settleRedir {uid} (h : s.FormIf p) : (Machine.settleRedir s uid).FormIf p := by
  unfold Machine.settleRedir
  split
  · exact h
  · exact h.memWrite.resealSlot

theorem State.FormIf.setSinterBit {ctx r b} (h : s.FormIf p) : (Machine.setSinterBit s ctx r b).FormIf p := h.memWrite

theorem State.FormIf.saveSlot {sl} (h : s.FormIf p) : (Machine.saveSlot s sl).FormIf p :=
  h.memWrite.memWrite.memWrite.setSinterBit.setCtx

theorem State.FormIf.leaveSlots {ctx cl} (h : s.FormIf p) : (Machine.leaveSlots s ctx cl).FormIf p :=
  ((h.foldl (fun _ _ h1 => h1.saveSlot)).ite h).setCluster

theorem State.FormIf.placeSlot {ctx cl r} (h : s.FormIf p) : OptForm p (Machine.placeSlot s ctx cl r) := by
  unfold Machine.placeSlot
  split
  · exact .some h.setCluster.memWrite.setSinterBit.setCtx
  · exact .none

theorem State.FormIf.placeSlots {ctx cl} (h : s.FormIf p) : (Machine.placeSlots s ctx cl).FormIf p :=
  h.foldl fun _ _ h1 => .getD h1.placeSlot h1

theorem State.FormIf.readImage {va x} (h : s.FormIf p) : (Machine.readImage s va x).1.FormIf p := by
  induction x generalizing s with
  | zero =>
    rw [Machine.readImage]
    exact h
  | succ n ih =>
    rw [Machine.readImage]
    split
    next e1 => exact .of_fst e1 (ih h)
    next s1 _ e =>
      have hs1 : s1.FormIf p := .of_fst e (ih h)
      extract_lets a
      split
      next e1 => exact .of_fst e1 hs1.xlate
      next e1 => exact .of_fst e1 hs1.xlate
      next s2 _ _ e1 =>
        have hs2 : s2.FormIf p := .of_fst e1 hs1.xlate
        split
        · exact hs2
        · exact hs2.acquire.ite hs2.l1Fill

theorem State.FormIf.apxBind {r idx ws image} (h : s.FormIf p) : (Machine.apxBind s r idx ws image).1.FormIf p := by
  unfold Machine.apxBind
  extract_lets cl c ctx
  split
  · split
    · exact h
    split
    · exact h
    split
    · exact h.setCluster
    · exact h
  split
  · split
    · exact h
    split
    next e3 => exact .of_opt e3 h.placeSlot
    · exact h
  split
  · exact h
  · exact h.setCluster

end Sys2Proof.Machine
end

section
/-! ## The form: launches, fragments, scalar memory, results, teams and the matrix engine -/

namespace Sys2Proof.Machine

variable {p : Prop} {s t : State}

theorem State.FormIf.engRead {ctx rel va x y} (h : s.FormIf p) : (Machine.engRead s ctx rel va x y).1.FormIf p := by
  induction x generalizing s va y with
  | zero =>
    rw [Machine.engRead]
    exact h
  | succ n ih =>
    rw [Machine.engRead]
    split
    · exact h
    extract_lets k
    split
    next e1 => exact .of_fst e1 h.translateVA
    next e1 => exact .of_fst e1 h.translateVA
    next s1 _ _ e1 =>
      have hs1 : s1.FormIf p := .of_fst e1 h.translateVA
      split
      · exact hs1
      split
      next e4 => exact .of_fst e4 (ih hs1)
      next e3 => exact .of_fst e3 (ih hs1)

theorem State.FormIf.engReadN {ctx rel va n} (h : s.FormIf p) : (Machine.engReadN s ctx rel va n).1.FormIf p := h.engRead

theorem State.FormIf.engWrite {ctx rel va x y} (h : s.FormIf p) : (Machine.engWrite s ctx rel va x y).1.FormIf p := by
  induction x generalizing s va y with
  | zero =>
    rw [Machine.engWrite]
    exact h
  | succ n ih =>
    rw [Machine.engWrite]
    split
    · exact h
    extract_lets k
    split
    next e1 => exact .of_fst e1 h.translateVA
    next e1 => exact .of_fst e1 h.translateVA
    next s1 _ _ e1 =>
      have hs1 : s1.FormIf p := .of_fst e1 h.translateVA
      split
      · exact hs1
      · exact ih (hs1.noteGuard.memWrite.syncDupN.ite hs1.noteGuard.memWrite)

theorem State.FormIf.engWriteN {ctx rel va bs} (h : s.FormIf p) : (Machine.engWriteN s ctx rel va bs).1.FormIf p := h.engWrite

theorem State.FormIf.laneTex {x dim d os y f} (h : s.FormIf p) : Res.FormIf p (Machine.laneTex x dim d os y f s) :=
  .ite h.illegalL (h.laneMem (fun _ _ _ h1 => h1.objAcquire.put.endOr))

theorem State.FormIf.targetOf {ctx rel d i} (h : s.FormIf p) : (Machine.targetOf s ctx rel d i).1.FormIf p := by
  unfold Machine.targetOf
  extract_lets a
  split
  next e1 => exact .of_fst e1 h.engReadN
  next e => exact .of_fst e h.engReadN

theorem State.FormIf.commitDepth {ctx rel f l smp} (h : s.FormIf p) : (Machine.commitDepth s ctx rel f l smp).1.FormIf p := by
  unfold Machine.commitDepth
  extract_lets w test write z
  split
  · exact h
  split
  split
  next e3 => exact .of_fst e3 h.targetOf
  next s1 _ e2 =>
    have hs1 : s1.FormIf p := .of_fst e2 h.targetOf
    extract_lets a
    split
    next e4 => exact .of_fst e4 (by split; exacts [hs1.engReadN, hs1])
    next s2 _ e3 =>
      have hs2 : s2.FormIf p := .of_fst e3 (by split; exacts [hs1.engReadN, hs1])
      split
      · exact hs2
      split
      · exact hs2
      split
      next e7 => exact .of_fst e7 hs2.engWriteN
      next e6 => exact .of_fst e6 hs2.engWriteN

theorem State.FormIf.commitColors {ctx rel f l smp x} (h : s.FormIf p) : (Machine.commitColors s ctx rel f l smp x).1.FormIf p := by
  induction x generalizing s with
  | nil =>
    rw [Machine.commitColors]
    exact h
  | cons a l ih =>
    rw [Machine.commitColors]
    split
    next e1 => exact .of_fst e1 h.targetOf
    next s1 _ e =>
      have hs1 : s1.FormIf p := .of_fst e h.targetOf
      split
      extract_lets a1
      split
      next e3 => exact .of_fst e3 (by split; exacts [hs1, hs1.engReadN])
      next s2 _ e2 =>
        have hs2 : s2.FormIf p := .of_fst e2 (by split; exacts [hs1, hs1.engReadN])
        split
        next e4 => exact .of_fst e4 hs2.engWriteN
        next s3 e3 =>
          have hs3 : s3.FormIf p := .of_fst e3 hs2.engWriteN
          exact ih hs3

theorem State.FormIf.commitSamples {ctx rel f x} (h : s.FormIf p) : (Machine.commitSamples s ctx rel f x).1.FormIf p := by
  induction x generalizing s with
  | nil =>
    rw [Machine.commitSamples]
    exact h
  | cons a l ih =>
    rw [Machine.commitSamples]
    split
    next e1 => exact .of_fst e1 h.commitDepth
    next s1 e =>
      have hs1 : s1.FormIf p := .of_fst e h.commitDepth
      exact ih hs1
    next s1 e =>
      have hs1 : s1.FormIf p := .of_fst e h.commitDepth
      split
      next e2 => exact .of_fst e2 hs1.commitColors
      next s2 e1 =>
        have hs2 : s2.FormIf p := .of_fst e1 hs1.commitColors
        exact ih hs2

theorem State.FormIf.mapCard {id f} (h : s.FormIf p) : (Machine.mapCard s id f).FormIf p := h

theorem State.FormIf.abandonLaunch {k code addr} (h : s.FormIf p) : (Machine.abandonLaunch s k code addr).FormIf p :=
  h.escalate.mapCard

theorem State.FormIf.commitFrom {id x} (h : s.FormIf p) : (Machine.commitFrom s id x).FormIf p := by
  induction x generalizing s with
  | zero =>
    rw [Machine.commitFrom]
    exact h
  | succ n ih =>
    rw [Machine.commitFrom]
    split
    · exact h
    split
    · exact h
    split
    · exact h
    split
    · exact h
    extract_lets rel pass
    have hpass : ∀ s, s.FormIf p → (pass s).FormIf p := by
      intro s1 h2
      unfold pass
      exact ih h2.mapCard.mapGroups
    split
    · exact ih h.mapCard.mapGroups
    split
    next s1 e5 =>
      have hs1 : s1.FormIf p := .of_fst e5 h.update.commitSamples
      exact ih hs1.served.mapCard.mapGroups
    next s1 _ e6 =>
      have hs1 : s1.FormIf p := .of_fst e6 h.update.commitSamples
      exact h.keepHold.ite (ih hs1.served.abandonLaunch.mapCard.mapGroups)

theorem State.FormIf.commitDraw {id} (h : s.FormIf p) : (Machine.commitDraw s id).FormIf p := h.commitFrom

theorem State.FormIf.resultC {dests} (h : s.FormIf p) : (s.resultC dests).FormIf p := h.mapG

theorem State.FormIf.waitLogC (h : s.FormIf p) : Res.FormIf p (Machine.waitLogC s) := .next h.parkC

theorem State.FormIf.loadC {va n} {k : State → List Byte → Res} (h : s.FormIf p) (hk : ∀ s x, s.FormIf p → Res.FormIf p (k s x)) :
    Res.FormIf p (Machine.loadC s va n k) := by
  unfold Machine.loadC
  split
  next s1 _ e =>
    have hs1 : s1.FormIf p := .of_fst e h.xlate
    exact hs1.faultC
  next s1 e =>
    have hs1 : s1.FormIf p := .of_fst e h.xlate
    exact hs1.waitLogC
  next s1 _ _ e =>
    have hs1 : s1.FormIf p := .of_fst e h.xlate
    dsimp only
    exact .ite hs1.faultC (hk _ _ hs1.loadBytes)

theorem State.FormIf.ldsAt {w len d x disp} (h : s.FormIf p) : Res.FormIf p (Machine.ldsAt w len d x disp s) :=
  h.loadC fun _ _ h1 => .next h1.resultC.endC

theorem State.FormIf.stsAt {w len d x disp} (h : s.FormIf p) : Res.FormIf p (Machine.stsAt w len d x disp s) := by
  unfold Machine.stsAt
  extract_lets va v
  split
  next s1 _ e =>
    have hs1 : s1.FormIf p := .of_fst e h.xlate
    exact hs1.faultC
  next s1 e =>
    have hs1 : s1.FormIf p := .of_fst e h.xlate
    exact hs1.waitLogC
  next s1 _ _ e =>
    have hs1 : s1.FormIf p := .of_fst e h.xlate
    exact .next hs1.storeBytes.endC

theorem State.FormIf.ldcAt {w len d x i} (h : s.FormIf p) : Res.FormIf p (Machine.ldcAt w len d x i s) := by
  unfold Machine.ldcAt
  extract_lets off va
  split
  · exact h.faultC
  split
  · exact h.faultC
  split
  next s1 _ e2 =>
    have hs1 : s1.FormIf p := .of_fst e2 h.xlate
    exact hs1.faultC
  next s1 e2 =>
    have hs1 : s1.FormIf p := .of_fst e2 h.xlate
    exact hs1.waitLogC
  next s1 _ _ e2 =>
    have hs1 : s1.FormIf p := .of_fst e2 h.xlate
    exact .ite hs1.faultC (.next hs1.resultC.endC)

theorem State.FormIf.tstbEnd {w q x m bs} (h : s.FormIf p) : Res.FormIf p (Machine.tstbEnd w q x m s bs) := .next h.resultC.endC

theorem State.FormIf.tstbWait {w q x m o} (h : s.FormIf p) : Res.FormIf p (Machine.tstbWait w q x m o s) := .next h.mapG.endC

theorem State.FormIf.limmPair {i f r} (h : s.FormIf p) (e : Machine.limmPair i f s = some r) : Res.FormIf p r := by
  have inj {q : Res} (hq : Res.FormIf p q) (e : some q = some r) : Res.FormIf p r := Option.some.inj e ▸ hq
  unfold Machine.limmPair at e
  split at e
  iterate 5 exact inj h.immOp e
  · split at e
    · exact inj h.writeS e
    · cases e
  · exact inj h.cmpImm e
  · exact inj h.ldsAt e
  · exact inj h.stsAt e
  · exact inj h.ldcAt e
  · cases e

theorem State.FormIf.arriveAt {k f} {pre : State → State} (h : s.FormIf p) (hk : ∀ s, s.FormIf p → (pre s).FormIf p) :
    (Machine.arriveAt k f pre s).FormIf p :=
  h.ite ((hk _ h).mapG.parkC.ite h.parkC)

theorem State.FormIf.heapGive {uid e} (h : s.FormIf p) : (Machine.heapGive s uid e).FormIf p := h.mapGroups

theorem State.FormIf.heapPut {sl ctx e} (h : s.FormIf p) : (Machine.heapPut s sl ctx e).FormIf p := h.setSlice

theorem State.FormIf.heapDrop {sl ctx e} (h : s.FormIf p) : (Machine.heapDrop s sl ctx e).FormIf p := h.setSlice

theorem State.FormIf.serveHeap {sl ctx x} (h : s.FormIf p) : (Machine.serveHeap sl ctx x s).FormIf p := by
  induction x generalizing s with
  | zero =>
    rw [Machine.serveHeap]
    exact h
  | succ n ih =>
    rw [Machine.serveHeap]
    split
    · exact ih h.heapDrop.heapGive
    split
    · exact h
    split
    · exact h
    · exact ih h.heapPut.heapGive

theorem State.FormIf.heapServe (h : s.FormIf p) : s.heapServe.FormIf p := h.serveHeap

theorem State.FormIf.heapAdded {w q} (h : s.FormIf p) : Res.FormIf p (Machine.heapAdded w q s) := .next h.mapG.endC

theorem State.FormIf.heapTaken {w x b q e} (h : s.FormIf p) : Res.FormIf p (Machine.heapTaken w x b q e s) :=
  .next h.acquire.mapG.endC

theorem State.FormIf.landResult {k x} (h : s.FormIf p) : (Machine.landResult s k x).FormIf p := h.mapG

theorem State.FormIf.returnRecv {k x c peek} (h : s.FormIf p) : (Machine.returnRecv s k x c peek).FormIf p := by
  unfold Machine.returnRecv
  split
  · exact h
  · exact (h.ite h.chDrop).landResult

theorem State.FormIf.returnTest {k x o y x'} (h : s.FormIf p) : (Machine.returnTest s k x o y x').FormIf p := h.landResult.ite h

theorem State.FormIf.performTests (h : s.FormIf p) : (Machine.performTests s).FormIf p := h.mapGroups

theorem State.FormIf.dropRemainsOf {x} (h : s.FormIf p) : (Machine.dropRemainsOf s x).FormIf p := h

theorem State.FormIf.dropRemains {x} (h : s.FormIf p) : (Machine.dropRemains s x).FormIf p := h.dropRemainsOf

theorem State.FormIf.wakeRoofFor {x startAt} (h : s.FormIf p) : (Machine.wakeRoofFor s x startAt).1.FormIf p := by
  unfold Machine.wakeRoofFor
  split
  · exact h.wakeRoof
  · exact h

theorem State.FormIf.startAcquire {x} (h : s.FormIf p) : (Machine.startAcquire s x).FormIf p := h.l1Invalidate

theorem State.FormIf.startTeam {l ctx card cardAddr lin x startAt q chain} (h : s.FormIf p) :
    (Machine.startTeam s l ctx card cardAddr lin x startAt q chain).FormIf p :=
  h.dropRemains.startAcquire.wakeRoofFor.update

theorem State.FormIf.leaveCluster {ctx cl} (h : s.FormIf p) : (Machine.leaveCluster s ctx cl).FormIf p :=
  h.ite h.saveArea.leaveSlots

theorem State.FormIf.removeTeam {uid} (h : s.FormIf p) : (Machine.removeTeam s uid).FormIf p := by
  unfold Machine.removeTeam
  split
  · exact h
  · exact h.update.leaveCluster

theorem State.FormIf.retireTeam {uid} (h : s.FormIf p) : (Machine.retireTeam s uid).FormIf p := by
  unfold Machine.retireTeam
  split
  · exact h
  · exact h.update.mapTeams.mapGroups.leaveCluster

theorem State.FormIf.reapTeam {uid} (h : s.FormIf p) : (Machine.reapTeam s uid).FormIf p := by
  unfold Machine.reapTeam
  split
  · exact h
  · exact h.retireTeam.ite h

theorem State.FormIf.commitTeams {card} (h : s.FormIf p) : (Machine.commitTeams s card).FormIf p :=
  h.commitDraw.foldl fun _ _ h1 => h1.reapTeam

theorem State.FormIf.endGroup (h : s.FormIf p) : (Machine.endGroup s).FormIf p :=
  (h.mapG.mapT.commitTeams.ite h.mapG.mapT.reapTeam).ite h.mapG

theorem State.FormIf.exitGroup (h : s.FormIf p) : Res.FormIf p (Machine.exitGroup s) := .ite (.next h.endGroup) (.next h.mapG.parkC)

theorem State.FormIf.chainFault {x card} (h : s.FormIf p) : (Machine.chainFault s x card).FormIf p := h.escalate.mapTeams.reapTeam

theorem State.FormIf.placeSuccessor {x l chain arg} (h : s.FormIf p) : (Machine.placeSuccessor s x l chain arg).FormIf p := by
  unfold Machine.placeSuccessor
  dsimp only
  exact h.startAcquire.update.mapTeams

theorem State.FormIf.takeBank {cl n} (h : s.FormIf p) : (Machine.takeBank s cl n).FormIf p := h.setCluster

theorem State.FormIf.matRun {n park} {k : Nat → State → Res} (h : s.FormIf p) (hk : ∀ x s, s.FormIf p → Res.FormIf p (k x s)) :
    Res.FormIf p (Machine.matRun n park s k) := by
  unfold Machine.matRun
  split
  · exact h.illegalC
  split
  · exact h.illegalC
  · exact .ite (.next h.parkC.mapG) (hk _ _ h.takeBank)

theorem State.FormIf.matEnter {w m} (h : s.FormIf p) : Res.FormIf p (Machine.matEnter w m s) :=
  h.matRun fun _ _ h1 => .ite (.next h.parkC) (.next (h1.performDirty.ackAllDup.ite h1).setCluster.endC)

theorem State.FormIf.tilePages {ctx rel x lo y} (h : s.FormIf p) : (Machine.tilePages s ctx rel x lo y).1.FormIf p := by
  induction y generalizing s with
  | nil =>
    rw [Machine.tilePages]
    exact h
  | cons a l ih =>
    rw [Machine.tilePages]
    split
    next e => exact .of_fst e h.translateT
    next e => exact .of_fst e h.translateT
    next s1 _ _ _ e =>
      have hs1 : s1.FormIf p := .of_fst e h.translateT
      split
      next e2 => exact .of_fst e2 (ih hs1)
      next e1 => exact .of_fst e1 (ih hs1)

theorem State.FormIf.stepPrep {x m n} (h : s.FormIf p) : (Machine.stepPrep s x m n).state.FormIf p := by
  unfold Machine.stepPrep
  extract_lets f rb rows badr inWin inRoof asp badRow badScale roof sp rf at_
  clear_value badRow
  split
  · exact h
  split
  · exact h
  clear_value badScale
  split
  · exact h
  split
  · split
    next e2 => exact .of_fst e2 h.tilePages
    next e2 => exact .of_fst e2 h.tilePages
  · split <;> exact h

theorem State.FormIf.chargeLease {cl m k} (h : s.FormIf p) : (Machine.chargeLease s cl m k).FormIf p :=
  h.ite (h.countEvent.setCluster.ite h.countEvent).update

theorem State.FormIf.stopCmd {cl m code addr} (h : s.FormIf p) : (Machine.stopCmd s cl m code addr).FormIf p := by
  unfold Machine.stopCmd
  extract_lets c cd c1 sl s1
  have hs1 : s1.FormIf p := h.setCluster.escalate
  split
  · exact h.setCluster.deliverFault
  · exact hs1.abandonBarrier.reapTeam

theorem State.FormIf.loopStep {cl x m} (h : s.FormIf p) : (Machine.loopStep s cl x m).FormIf p := by
  unfold Machine.loopStep
  split
  · split
    next s1 _ _ e1 =>
      have hs1 : s1.FormIf p := .of_stepPrep e1 h.stepPrep
      exact hs1.stopCmd
    next s1 e1 =>
      have hs1 : s1.FormIf p := .of_stepPrep e1 h.stepPrep
      exact hs1
    next s1 _ _ e1 =>
      have hs1 : s1.FormIf p := .of_stepPrep e1 h.stepPrep
      exact hs1.takeRoof.setCluster.countEvent.chargeLease.engineCount.reapTeam
  · exact h.wakeRoof

end Sys2Proof.Machine
end

section
/-! ## The form: splats, the encoder, queues and the sump -/

namespace Sys2Proof.Machine

variable {p : Prop} {s t : State}

theorem State.FormIf.writeTile {x m y} (h : s.FormIf p) : (Machine.writeTile s x m y).state.FormIf p := by
  induction y generalizing s with
  | nil =>
    rw [Machine.writeTile]
    exact h
  | cons a l ih =>
    rw [Machine.writeTile]
    split
    · exact ih h
    split
    · exact ih h.winWrite
    split
    next s1 e2 =>
      have hs1 : s1.FormIf p := .of_fst e2 h.engWriteN
      exact ih hs1
    next e2 => exact .of_fst e2 h.engWriteN

theorem State.FormIf.writePieces {k n ps} (h : s.FormIf p) : (Machine.writePieces s k n ps).FormIf p :=
  h.touchRange.clear.update.foldl fun _ _ h1 => h1.ite h1.putBytes

theorem State.FormIf.writeCheck {k hi} (h : s.FormIf p) : (Machine.writeCheck s k hi).FormIf p := h.putBytes

theorem State.FormIf.writeGroup {k g} (h : s.FormIf p) : (Machine.writeGroup s k g).FormIf p := h.writePieces.writeCheck

theorem State.FormIf.splatIssue {w fn x b} (h : s.FormIf p) : Res.FormIf p (Machine.splatIssue w fn x b s) := by
  unfold Machine.splatIssue
  extract_lets n run bar s1 c
  have hs1 : s1.FormIf p := h.objAcquire
  split
  · exact h.illegalC
  split
  · exact h.faultC
  split
  · exact hs1.faultC
  · exact .ite hs1.faultC (.ite (.next hs1.parkC) (.next hs1.scopeWriteBack.mapT.endC))

theorem State.FormIf.setSplat {uid o} (h : s.FormIf p) : (Machine.setSplat s uid o).FormIf p := h.mapTeams

theorem State.FormIf.splatCharge {x c k} (h : s.FormIf p) : (Machine.splatCharge s x c k).FormIf p := h.engineCount.countEvent

theorem State.FormIf.abandonSplat {x c code addr} (h : s.FormIf p) : (Machine.abandonSplat s x c code addr).FormIf p :=
  h.escalate.abandonBarrier.setSplat.reapTeam

theorem State.FormIf.splatFault {x c code addr} (h : s.FormIf p) : (Machine.splatFault s x c code addr).FormIf p := by
  unfold Machine.splatFault
  split
  · exact h.setSplat.deliverFault
  · exact h.abandonSplat

theorem State.FormIf.granuleFault {c e} (h : s.FormIf p) : (Machine.granuleFault s c e).state.FormIf p := by
  unfold Machine.granuleFault
  split <;> exact h

theorem State.FormIf.readRec {ctx rel va n} (h : s.FormIf p) : (Machine.readRec s ctx rel va n).1.FormIf p := by
  unfold Machine.readRec
  split
  next e => exact .of_fst e h.translateVA
  next e => exact .of_fst e h.translateVA
  next e => exact .of_fst e h.translateVA

theorem State.FormIf.splatStart {x c} (h : s.FormIf p) : (Machine.splatStart s x c).FormIf p := by
  unfold Machine.splatStart
  split
  · extract_lets c1 base
    split
    · exact h.abandonSplat
    split
    next e3 => exact (State.FormIf.of_fst e3 h.readRec).splatFault
    next s1 _ _ e2 =>
      have hs1 : s1.FormIf p := .of_fst e2 h.readRec
      split
      next e4 => exact (State.FormIf.of_fst e4 hs1.readRec).splatFault
      next s2 _ _ e3 =>
        have hs2 : s2.FormIf p := .of_fst e3 hs1.readRec
        exact hs2.abandonSplat.ite hs2.setSplat
  · exact h.abandonSplat

theorem State.FormIf.projOne {x c cam} {y : ProjAcc} {g} (h : y.s.FormIf p) : (Machine.projOne x c cam y g).s.FormIf p := by
  unfold Machine.projOne
  split
  · exact h
  split
  next e2 => exact .of_fst e2 h.readRec
  next e1 => exact .of_fst e1 h.readRec

theorem State.FormIf.sprojGranule {x c} (h : s.FormIf p) : (Machine.sprojGranule s x c).state.FormIf p := by
  unfold Machine.sprojGranule
  extract_lets n k a last tail
  have ha : a.s.FormIf p := by
    unfold a
    refine State.FormIf.foldlOn ProjAcc.s h fun r x hr => ?_
    exact hr.projOne
  split
  · exact ha.granuleFault
  split
  next e2 => exact (State.FormIf.of_fst e2 ha.engWriteN).granuleFault
  next s1 e1 =>
    have hs1 : s1.FormIf p := .of_fst e1 ha.engWriteN
    split <;> exact hs1

theorem State.FormIf.ignore {x bs g} (h : s.FormIf p) : (binOne.ignore x s bs g).s.FormIf p := h

theorem State.FormIf.binOne {x c cam} {y : BinAcc} {g} (h : y.s.FormIf p) : (Machine.binOne x c cam y g).s.FormIf p := by
  unfold Machine.binOne
  split
  · exact h
  split
  next e2 => exact .of_fst e2 h.readRec
  next e1 => exact (State.FormIf.of_fst e1 h.readRec).ignore
  next s _ e1 =>
    have hs : s.FormIf p := .of_fst e1 h.readRec
    split <;> exact hs

theorem State.FormIf.sbinSort {x c cam} (h : s.FormIf p) : (Machine.sbinSort s x c cam).state.FormIf p := by
  unfold Machine.sbinSort
  extract_lets rel c1 T tail E ovf
  split
  split
  next e2 => exact (State.FormIf.of_fst e2 h.engWriteN).granuleFault
  next s1 e1 =>
    have hs1 : s1.FormIf p := .of_fst e1 h.engWriteN
    split
    next e3 => exact (State.FormIf.of_fst e3 hs1.engWriteN).granuleFault
    next s2 e2 =>
      have hs2 : s2.FormIf p := .of_fst e2 hs1.engWriteN
      split
      · exact hs2
      split
      next e5 => exact (State.FormIf.of_fst e5 hs2.engWriteN).granuleFault
      next e4 => exact .of_fst e4 hs2.engWriteN

theorem State.FormIf.sbinGranule {x c} (h : s.FormIf p) : (Machine.sbinGranule s x c).state.FormIf p := by
  unfold Machine.sbinGranule
  extract_lets cam k a c1 first c11 table
  have ha : a.s.FormIf p := by
    unfold a
    refine State.FormIf.foldlOn BinAcc.s h fun r x hr => ?_
    exact hr.binOne
  split
  · exact h.sbinSort
  split
  · exact ha.granuleFault
  split
  next e3 => exact (State.FormIf.of_fst e3 ha.engWriteN).granuleFault
  next e2 => exact .of_fst e2 ha.engWriteN

theorem State.FormIf.tileOne {x c st} {y : TileList} {k} (h : y.s.FormIf p) : (Machine.tileOne x c st y k).s.FormIf p := by
  unfold Machine.tileOne
  extract_lets skip
  have hskip : ∀ x x', x.s.FormIf p → (skip x x').s.FormIf p := by
    intro x1 x' h1
    unfold skip
    exact h1
  split
  · exact h
  split
  next e2 => exact .of_fst e2 h.readRec
  next s _ e1 =>
    have hs : s.FormIf p := .of_fst e1 h.readRec
    exact hskip _ _ hs
  next s _ e1 =>
    have hs : s.FormIf p := .of_fst e1 h.readRec
    split
    next e3 => exact .of_fst e3 hs.readRec
    next s1 _ e2 =>
      have hs1 : s1.FormIf p := .of_fst e2 hs.readRec
      exact hskip _ _ hs1
    next e2 => exact .of_fst e2 hs.readRec

theorem State.FormIf.readTile {x c tile} (h : s.FormIf p) : (Machine.readTile s x c tile).s.FormIf p := by
  unfold Machine.readTile
  split
  next e1 => exact .of_fst e1 h.readRec
  next s1 _ _ e =>
    have hs1 : s1.FormIf p := .of_fst e h.readRec
    split
    · exact hs1
    extract_lets n r
    have hr : r.s.FormIf p := by
      unfold r
      refine State.FormIf.foldlOn TileList.s hs1 fun r x hr => ?_
      exact hr.tileOne
    exact hr

theorem State.FormIf.nextTile {c charge} (h : s.FormIf p) : (Machine.nextTile s c charge).state.FormIf p := h

theorem State.FormIf.sblendTile {x c} (h : s.FormIf p) : (Machine.sblendTile s x c).state.FormIf p := by
  unfold Machine.sblendTile
  extract_lets cam tile r ps fl nan
  have hr : r.s.FormIf p := h.readTile
  split
  · exact hr.granuleFault
  split
  next e2 => exact (State.FormIf.of_fst e2 hr.engWriteN).granuleFault
  next e1 => exact (State.FormIf.of_fst e1 hr.engWriteN).nextTile

theorem State.FormIf.gradRead {x c} (h : s.FormIf p) : (Machine.gradRead s x c).1.FormIf p := by
  unfold Machine.gradRead
  extract_lets cam tile r
  have hr : r.s.FormIf p := h.readTile
  split
  · exact hr
  split
  next e2 => exact .of_fst e2 hr.engReadN
  next e1 => exact .of_fst e1 hr.engReadN

theorem State.FormIf.gradAdds {x c y z} (h : s.FormIf p) : (Machine.gradAdds s x c y z).1.FormIf p := by
  induction z generalizing s y with
  | nil =>
    rw [Machine.gradAdds]
    exact h
  | cons a l ih =>
    rw [Machine.gradAdds]
    split
    next e => exact .of_fst e h.translateVA
    next e => exact .of_fst e h.translateVA
    next s1 _ _ e =>
      have hs1 : s1.FormIf p := .of_fst e h.translateVA
      split
      · exact hs1
      · exact ih (hs1.memWrite.syncDupN.ite hs1.memWrite)

theorem State.FormIf.sgradTile {x c} (h : s.FormIf p) : (Machine.sgradTile s x c).state.FormIf p := by
  unfold Machine.sgradTile
  extract_lets prep
  have hprep : prep.1.FormIf p := by
    unfold prep
    split
    · exact h
    · exact h.gradRead
  clear_value prep
  split
  · exact hprep.granuleFault
  extract_lets c1
  split
  next s2 _ _ _ e =>
    have hs2 : s2.FormIf p := .of_fst e hprep.gradAdds
    split <;> exact hs2
  next s2 e =>
    have hs2 : s2.FormIf p := .of_fst e hprep.gradAdds
    split
    next s3 _ e2 =>
      have hs3 : s3.FormIf p := .of_fst e2 hs2.engWriteN
      split <;> exact hs3
    next e1 => exact (State.FormIf.of_fst e1 hs2.engWriteN).nextTile

theorem State.FormIf.granuleOf {x c} (h : s.FormIf p) : (Machine.granuleOf s x c).state.FormIf p := by
  unfold Machine.granuleOf
  split
  · exact h.sprojGranule
  · exact h.sbinGranule
  · exact h.sblendTile
  · exact h.sgradTile

theorem State.FormIf.splatGranule {x c} (h : s.FormIf p) : (Machine.splatGranule s x c).FormIf p := by
  unfold Machine.splatGranule
  split
  next s1 e =>
    have hs1 : s1.FormIf p := .of_granule e h.granuleOf
    exact hs1
  next e => exact (State.FormIf.of_granule e h.granuleOf).splatFault
  next s1 _ _ e =>
    have hs1 : s1.FormIf p := .of_granule e h.granuleOf
    exact (hs1.setSplat.countEvent.ite hs1.setSplat.splatCharge).reapTeam

theorem State.FormIf.granuleEvent {fn team} (h : s.FormIf p) : Res.FormIf p (Machine.granuleEvent fn team s) := by
  unfold Machine.granuleEvent
  split
  · exact .next h
  · exact .next (h.update.splatGranule.ite h)

theorem State.FormIf.endCard {id status} (h : s.FormIf p) : (Machine.endCard s id status).FormIf p := h

theorem State.FormIf.stopSession {sl b code addr} (h : s.FormIf p) : (Machine.stopSession s sl b code addr).FormIf p := by
  unfold Machine.stopSession
  extract_lets c mine s1 s2
  have hs1 : s1.FormIf p := h.setSlice
  have hs2 : s2.FormIf p := hs1.escalate
  refine hs2.foldl fun s x h1 => ?_
  split
  · exact h1.endCard
  · exact h1.reapTeam

theorem State.FormIf.readParts {ctx rel x} (h : s.FormIf p) : (Machine.readParts s ctx rel x).1.FormIf p := by
  induction x generalizing s with
  | nil =>
    rw [Machine.readParts]
    exact h
  | cons a l ih =>
    rw [Machine.readParts]
    split
    next e1 => exact .of_fst e1 h.engReadN
    next s1 _ e =>
      have hs1 : s1.FormIf p := .of_fst e h.engReadN
      split
      next e2 => exact .of_fst e2 (ih hs1)
      next e1 => exact .of_fst e1 (ih hs1)

theorem State.FormIf.ringWrite {ctx rel ring size off bs} (h : s.FormIf p) :
    (Machine.ringWrite s ctx rel ring size off bs).1.FormIf p := by
  unfold Machine.ringWrite
  extract_lets o k
  split
  next e1 => exact .of_fst e1 h.engWriteN
  next e => exact (State.FormIf.of_fst e h.engWriteN).engWriteN

theorem State.FormIf.appendFrame {slice c pre b post e frames wr rd} (h : s.FormIf p) :
    (Machine.appendFrame s slice c pre b post e frames wr rd).FormIf p := by
  unfold Machine.appendFrame
  extract_lets ring size key desc obu rec_ rel e'
  split
  · exact h.stopSession
  · exact h
  split
  next s1 _ e3 =>
    have hs1 : s1.FormIf p := .of_fst e3 h.ringWrite
    exact hs1.ite hs1.stopSession
  next s1 e2 =>
    have hs1 : s1.FormIf p := .of_fst e2 h.ringWrite
    split
    next s2 _ e4 =>
      have hs2 : s2.FormIf p := .of_fst e4 hs1.engWriteN
      exact hs2.ite hs2.stopSession
    next s2 e3 =>
      have hs2 : s2.FormIf p := .of_fst e3 hs1.engWriteN
      extract_lets s3
      have hs3 : s3.FormIf p := hs2.setSlice
      split
      · exact hs3.endCard
      · exact hs3.reapTeam

theorem State.FormIf.setFuse {cl f} (h : s.FormIf p) : (Machine.setFuse s cl f).FormIf p :=
  h.ite (h.foldl (fun _ _ h1 => h1.performDirty.ackAllDup.l1Invalidate)).setCluster

theorem State.FormIf.fetchVerts {ctx rel d x} (h : s.FormIf p) : (Machine.fetchVerts s ctx rel d x).1.FormIf p := by
  induction x generalizing s with
  | nil =>
    rw [Machine.fetchVerts]
    exact h
  | cons a l ih =>
    rw [Machine.fetchVerts]
    split
    next e1 => exact .of_fst e1 h.engReadN
    next s1 _ e =>
      have hs1 : s1.FormIf p := .of_fst e h.engReadN
      split
      next e2 => exact .of_fst e2 hs1.engReadN
      next s2 _ e1 =>
        have hs2 : s2.FormIf p := .of_fst e1 hs1.engReadN
        split
        next e3 => exact .of_fst e3 (ih hs2)
        next e2 => exact .of_fst e2 (ih hs2)

theorem State.FormIf.makeFrag {k l} (h : s.FormIf p) : (Machine.makeFrag s k l).FormIf p := by
  unfold Machine.makeFrag
  split
  next e1 => exact (State.FormIf.of_fst e1 h.fetchVerts).abandonLaunch
  next e => exact (State.FormIf.of_fst e h.fetchVerts).mapCard

theorem State.FormIf.setQueueOf {sl qi q} (h : s.FormIf p) : (Machine.setQueueOf s sl qi q).FormIf p := h.setSlice

theorem State.FormIf.claimOf {sl qi} (h : s.FormIf p) : (Machine.claimOf s sl qi).1.FormIf p := by
  unfold Machine.claimOf
  extract_lets ctx
  split
  next e1 => exact .of_fst e1 h.engReadN
  next e => exact .of_fst e h.engReadN

theorem State.FormIf.ctrlWrite {ctx sl va bs} (h : s.FormIf p) : (Machine.ctrlWrite s ctx sl va bs).FormIf p := by
  unfold Machine.ctrlWrite
  extract_lets owe
  have howe : ∀ s, s.FormIf p → (owe s).FormIf p := by
    intro s1 h1
    unfold owe
    exact h1
  split
  · exact h
  split
  next s1 _ e1 =>
    have hs1 : s1.FormIf p := .of_fst e1 h.update.engWriteN
    exact hs1
  next s1 _ _ e2 =>
    have hs1 : s1.FormIf p := .of_fst e2 h.update.engWriteN
    exact hs1

theorem State.FormIf.payOne {o} (h : s.FormIf p) : (Machine.payOne s o).FormIf p := by
  unfold Machine.payOne
  extract_lets w s0
  have hs0 : s0.FormIf p := h
  split
  · exact h
  split
  next s1 _ e1 =>
    have hs1 : s1.FormIf p := .of_fst e1 hs0.engWriteN
    exact hs1
  next s1 _ _ e2 =>
    have hs1 : s1.FormIf p := .of_fst e2 hs0.engWriteN
    exact hs1.update.ite hs1.update.served

theorem State.FormIf.payOwed {vf} (h : s.FormIf p) : (Machine.payOwed s vf).FormIf p := h.foldl fun _ _ h1 => h1.payOne

theorem State.FormIf.writeRetire {sl qi} (h : s.FormIf p) : (Machine.writeRetire s sl qi).FormIf p := h.ctrlWrite

theorem State.FormIf.writeStatus {ctx sl x i status} (h : s.FormIf p) : (Machine.writeStatus s ctx sl x i status).FormIf p := by
  unfold Machine.writeStatus
  extract_lets rel
  split
  next e1 => exact .of_fst e1 h.engReadN
  next s1 _ e =>
    have hs1 : s1.FormIf p := .of_fst e h.engReadN
    exact hs1.ctrlWrite.ite hs1

theorem State.FormIf.finishIndices {sl qi idx n} (h : s.FormIf p) : (Machine.finishIndices s sl qi idx n).FormIf p :=
  (h.ite h.setQueueOf).ite h.setQueueOf.writeRetire

theorem State.FormIf.frameEnd {k} (h : s.FormIf p) : (Machine.frameEnd s k).FormIf p := h.ite h.setQueueOf

theorem State.FormIf.countFault {vf status} (h : s.FormIf p) : (Machine.countFault s vf status).FormIf p := h.setVf.ite h

theorem State.FormIf.countEngine {k} (h : s.FormIf p) : (Machine.countEngine s k).FormIf p := by
  unfold Machine.countEngine
  split
  · exact h
  · exact h.ite h.update

theorem State.FormIf.launchRelease {vf} (h : s.FormIf p) : (Machine.launchRelease s vf).FormIf p :=
  h.foldl fun _ _ h1 => h1.performDirty.ackAllDup

theorem State.FormIf.completeCard {k} (h : s.FormIf p) : (Machine.completeCard s k).FormIf p :=
  ((h.launchRelease.ite h).foldl (fun _ _ h1 => h1.writeStatus)).countFault.countEngine.update.frameEnd.finishIndices.raise.ite
    ((h.launchRelease.ite h).foldl (fun _ _ h1 => h1.writeStatus)).countFault.countEngine.update.frameEnd.finishIndices

theorem State.FormIf.slotWords {sl qi i} (h : s.FormIf p) : (Machine.slotWords s sl qi i).1.FormIf p := by
  unfold Machine.slotWords
  extract_lets ctx
  split
  next e1 => exact .of_fst e1 h.engReadN
  next e => exact .of_fst e h.engReadN

theorem State.FormIf.failCard {sl qi i ws} (h : s.FormIf p) : (Machine.failCard s sl qi i ws).FormIf p :=
  h.countFault.frameEnd.raise.ite h.countFault.frameEnd

theorem State.FormIf.failPublished {sl qi i ext x} (h : s.FormIf p) : (Machine.failPublished s sl qi i ext x).FormIf p := by
  induction x generalizing s i ext with
  | zero =>
    rw [Machine.failPublished]
    exact h
  | succ n ih =>
    rw [Machine.failPublished]
    split
    next s1 e =>
      have hs1 : s1.FormIf p := .of_fst e h.slotWords
      exact ih hs1
    next s1 _ e =>
      have hs1 : s1.FormIf p := .of_fst e h.slotWords
      exact ih (hs1.ite hs1.failCard).writeStatus

theorem State.FormIf.resetQueue {sl qi} (h : s.FormIf p) : (Machine.resetQueue s sl qi).FormIf p := by
  unfold Machine.resetQueue
  split
  next e => exact .of_fst e h.claimOf
  next e => exact ((State.FormIf.of_fst e h.claimOf).update.foldl
    (fun _ _ h1 => h1.completeCard)).failPublished.setQueueOf.writeRetire

theorem State.FormIf.markSlot {ctx i on} (h : s.FormIf p) : (Machine.markSlot s ctx i on).FormIf p := h.ite h.memWrite.memWrite

theorem State.FormIf.markKey {ctx key on} (h : s.FormIf p) : (Machine.markKey s ctx key on).FormIf p := by
  unfold Machine.markKey
  split
  · exact h
  · exact h.markSlot

theorem State.FormIf.haltTeam {uid} (h : s.FormIf p) : (Machine.haltTeam s uid).FormIf p := h.mapGroups

theorem State.FormIf.ladderHalt {uid} (h : s.FormIf p) : (Machine.ladderHalt s uid).FormIf p := h.ite h.haltTeam.mapTeams

theorem State.FormIf.ladderUndo {uid} (h : s.FormIf p) : (Machine.ladderUndo s uid).FormIf p := h.mapGroups.mapTeams

theorem State.FormIf.freezeTeam {uid} (h : s.FormIf p) : (Machine.freezeTeam s uid).FormIf p := h.haltTeam.mapGroups.mapTeams

theorem State.FormIf.meetSoft (h : s.FormIf p) : (Machine.meetSoft s).FormIf p := h.foldl fun _ _ h1 => h1.ladderHalt

theorem State.FormIf.releaseTeam {x} (h : s.FormIf p) : (Machine.releaseTeam s x).FormIf p := h.update.removeTeam

theorem State.FormIf.saveTeam {uid key} (h : s.FormIf p) : (Machine.saveTeam s uid key).FormIf p := by
  unfold Machine.saveTeam
  extract_lets s1 rec_
  have hs1 : s1.FormIf p := h.haltTeam
  split
  · exact hs1
  · exact (hs1.performDirty.ackAllDup.writePieces.update.foldl
    (fun _ _ h1 => h1.writeGroup)).resealSlot.update.releaseTeam.settleRedir.markKey

theorem State.FormIf.enterCluster {ctx cl home} (h : s.FormIf p) : (Machine.enterCluster s ctx cl home).FormIf p := by
  unfold Machine.enterCluster
  extract_lets c s1
  have hs1 : s1.FormIf p := by
    unfold s1
    split
    · exact h
    · exact h.ite h.setCluster
  exact hs1.placeSlots

end Sys2Proof.Machine
end

section
/-! ## The form: resets, control words, cards, leases and the scheduler -/

namespace Sys2Proof.Machine

variable {p : Prop} {s t : State}

theorem State.FormIf.restoreTeam {ctx key x} (h : s.FormIf p) : (Machine.restoreTeam s ctx key x).FormIf p := by
  unfold Machine.restoreTeam
  extract_lets kt uid card n base
  split
  next s1 _ e =>
    have hs1 : s1.FormIf p := .of_fst e h.dropRemains.wakeRoofFor
    extract_lets t cmds t1 binds banks s2 s3 live slots slotFor gs gs1 s4 s5 s6 s7 s8 s9 s10 sl sl1 s11
    have hs2 : s2.FormIf p := hs1.setFuse
    have hs3 : s3.FormIf p := hs2.l1Invalidate
    have hs4 : s4.FormIf p := hs3.enterCluster
    have hs5 : s5.FormIf p := hs4.takeRoof.ite hs4
    have hs6 : s6.FormIf p := hs5
    have hs7 : s7.FormIf p := hs6.foldl fun _ _ h1 => h1.ite h1.memWrite.mapGroups
    have hs8 : s8.FormIf p := hs7.foldl fun _ _ h1 => h1.setCluster
    have hs9 : s9.FormIf p := by
      unfold s9
      refine hs8.foldl fun s x h1 => ?_
      split
      · exact h1
      · exact h1.setCluster
    have hs10 : s10.FormIf p := by
      unfold s10
      refine hs9.foldl fun s x h1 => ?_
      split
      · exact h1
      · exact h1.setCluster
    have hs11 : s11.FormIf p := hs10.setSlice
    exact hs11.update.markKey

theorem State.FormIf.discardTeam {uid} (h : s.FormIf p) : (Machine.discardTeam s uid).FormIf p := by
  unfold Machine.discardTeam
  split
  · exact h
  · exact h.update.removeTeam

theorem State.FormIf.discardSaved {k} (h : s.FormIf p) : (Machine.discardSaved s k).FormIf p := h.update.markKey

theorem State.FormIf.resetGrid {ctx card addr} (h : s.FormIf p) : (Machine.resetGrid s ctx card addr).FormIf p := by
  unfold Machine.resetGrid
  extract_lets mine s1 s2 s3
  have hs1 : s1.FormIf p := h.foldl fun _ _ h1 => h1.discardTeam
  have hs2 : s2.FormIf p := hs1.foldl fun _ _ h1 => h1.discardSaved
  have hs3 : s3.FormIf p := hs2.foldl fun _ _ h1 => h1.markKey.ite h1
  split
  · exact hs3
  · exact hs3.completeCard

theorem State.FormIf.resetGridOf {x} (h : s.FormIf p) : (Machine.resetGridOf s x).FormIf p := h.resetGrid

theorem State.FormIf.resetTeam {x} (h : s.FormIf p) : (Machine.resetTeam s x).FormIf p := h.discardTeam.mapCard

theorem State.FormIf.stopQueue {sl qi} (h : s.FormIf p) : (Machine.stopQueue s sl qi).FormIf p := h.resetQueue.setQueueOf

theorem State.FormIf.resetContext {ctx} (h : s.FormIf p) : (Machine.resetContext s ctx).FormIf p :=
  ((((((h.foldl (fun _ _ h1 => h1.discardTeam)).foldl (fun _ _ h1 => h1.discardSaved)).foldl (fun _ _ h1 => h1.ite
    h1.markSlot)).update.foldl (fun _ _ h1 => h1.memWrite.setSinterBit)).setCtx.foldl (fun _ _ h1 => h1.completeCard)).foldl
    (fun _ _ h1 => h1.stopQueue)).foldl fun _ _ h1 => h1.completeCard

theorem State.FormIf.resetCopies {sl eng} (h : s.FormIf p) : (Machine.resetCopies s sl eng).FormIf p := by
  unfold Machine.resetCopies
  extract_lets mine
  refine h.foldl fun s x h1 => ?_
  extract_lets s1
  have hs1 : s1.FormIf p := h1.dropCopy
  split
  · exact hs1.endCard
  · exact hs1.abandonBarrier.settleRedir.reapTeam

theorem State.FormIf.resetMatrix {cl} (h : s.FormIf p) : (Machine.resetMatrix s cl).FormIf p :=
  h.setCluster.foldl fun _ _ h1 => (h1.ite h1.abandonBarrier).reapTeam

theorem State.FormIf.resetSplat {sl unit} (h : s.FormIf p) : (Machine.resetSplat s sl unit).FormIf p := by
  unfold Machine.resetSplat
  extract_lets mine
  refine h.foldl fun s x h1 => ?_
  split
  · exact h1.abandonBarrier.setSplat.ite h1
  · exact h1

theorem State.FormIf.resetEncoder {sl} (h : s.FormIf p) : (Machine.resetEncoder s sl).FormIf p := by
  unfold Machine.resetEncoder
  extract_lets c s1
  have hs1 : s1.FormIf p := h.setSlice
  refine hs1.foldl fun s x h1 => ?_
  split
  · exact h1.endCard
  · exact h1.reapTeam

theorem State.FormIf.endQ {w q b} (h : s.FormIf p) : Res.FormIf p (Machine.endQ w q b s) := .next h.mapG.endC

theorem State.FormIf.freezeVf {vf on} (h : s.FormIf p) : (Machine.freezeVf s vf on).FormIf p := h.setVf.update

theorem State.FormIf.freezeEngine {on x} (h : s.FormIf p) : (Machine.freezeEngine s on x).FormIf p := by
  unfold Machine.freezeEngine
  split
  · exact h
  · exact h.setSlice
  · exact h.setCluster
  · exact h.setSlice
  · exact h.setCluster
  · exact h.setSlice
  · exact h.freezeVf

theorem State.FormIf.resumeCommand {g} (h : s.FormIf p) : (Machine.resumeCommand s g).FormIf p := by
  unfold Machine.resumeCommand
  extract_lets f
  split
  · exact h
  split
  · exact h.setCluster
  · exact h.mapTeams

theorem State.FormIf.thawTeam {uid} (h : s.FormIf p) : (Machine.thawTeam s uid).FormIf p :=
  (h.foldl (fun _ _ h1 => h1.resumeCommand)).mapGroups.mapTeams

theorem State.FormIf.resetEngine {x} (h : s.FormIf p) : (Machine.resetEngine s x).FormIf p := by
  unfold Machine.resetEngine
  split
  · exact h
  · exact h.resetCopies.freezeEngine
  · exact h.resetMatrix
  · exact h.resetSplat.freezeEngine
  · exact h.setCluster
  · exact h.resetEncoder
  next x _ => exact (h.foldl (fun _ x h1 => h1.resetContext)).freezeVf

theorem State.FormIf.softHalt {uid} (h : s.FormIf p) : (Machine.softHalt s uid).FormIf p := by
  unfold Machine.softHalt
  split
  · exact h
  · exact h.mapTeams

theorem State.FormIf.haltRun {w hard x q} (h : s.FormIf p) : Res.FormIf p (Machine.haltRun w hard x q s) := by
  unfold Machine.haltRun
  split
  · exact h.illegalC
  split
  · exact h.endQ
  · split
    · exact h.endQ
    · exact .ite h.endQ (.ite h.haltTeam.endQ h.softHalt.endQ)
  · exact h.endQ
  · exact h.freezeEngine.endQ

theorem State.FormIf.refuseRecord {ctx sl key pa} (h : s.FormIf p) : (Machine.refuseRecord s ctx sl key pa).FormIf p := by
  unfold Machine.refuseRecord
  exact h.update.resetGrid.escalate.markKey

theorem State.FormIf.freezeRun {w x q} {f : State → Team → State} {e : State → Master → State} (h : s.FormIf p)
    (hk : ∀ s x', s.FormIf p → (f s x').FormIf p) (hk' : ∀ s x', s.FormIf p → (e s x').FormIf p) :
    Res.FormIf p (Machine.freezeRun w x q f e s) := by
  unfold Machine.freezeRun
  split
  · exact h.illegalC
  split
  · exact h.endQ
  · split
    · exact h.endQ
    · exact (hk _ _ h).endQ
  · exact (hk' _ _ h).endQ

theorem State.FormIf.ladderSave {uid} (h : s.FormIf p) : (Machine.ladderSave s uid).FormIf p := by
  unfold Machine.ladderSave
  split
  · exact h
  split
  · exact h
  · exact h.saveTeam.ite h

theorem State.FormIf.pollSoft (h : s.FormIf p) : (Machine.pollSoft s).FormIf p := h.meetSoft.foldl fun _ _ h1 => h1.ladderSave

theorem State.FormIf.chainOf {sl qi x y} (h : s.FormIf p) : (Machine.chainOf s sl qi x y).1.FormIf p := by
  induction y generalizing s x with
  | zero =>
    rw [Machine.chainOf]
    exact h
  | succ n ih =>
    rw [Machine.chainOf]
    split
    next e => exact .of_fst e h.slotWords
    next s1 _ e =>
      have hs1 : s1.FormIf p := .of_fst e h.slotWords
      split
      · exact hs1
      split
      · exact hs1
      split
      next e3 => exact .of_fst e3 hs1.slotWords
      next s2 _ e3 =>
        have hs2 : s2.FormIf p := .of_fst e3 hs1.slotWords
        split
        · exact hs2
        split
        next e5 => exact .of_fst e5 (ih hs2)
        next e5 => exact .of_fst e5 (ih hs2)

theorem State.FormIf.cardFault {k e} (h : s.FormIf p) (h' : t.FormIf p) : (Machine.cardFault s t k e).state.FormIf p := by
  unfold Machine.cardFault
  split
  · exact h.keepHold
  · exact h'.escalate

theorem State.FormIf.adoptTeams {k} (h : s.FormIf p) : (Machine.adoptTeams s k).FormIf p := h.mapTeams.update

theorem State.FormIf.startLaunch {k} (h : s.FormIf p) : (Machine.startLaunch s k).state.FormIf p := by
  unfold Machine.startLaunch
  extract_lets rel
  split
  · exact h
  split
  next s1 _ e2 =>
    have hs1 : s1.FormIf p := .of_fst e2 h.engReadN
    exact h.cardFault hs1
  next s1 _ e1 =>
    have hs1 : s1.FormIf p := .of_fst e1 h.engReadN
    extract_lets l
    split
    next s2 _ e3 =>
      have hs2 : s2.FormIf p := .of_fst e3 (by split; exacts [hs1.engReadN, hs1])
      exact h.cardFault hs2
    next s2 _ e2 =>
      have hs2 : s2.FormIf p := .of_fst e2 (by split; exacts [hs1.engReadN, hs1])
      extract_lets l1 next
      split
      · exact hs2
      split
      · exact hs2
      split
      · exact hs2
      · exact hs2.adoptTeams.mapCard

theorem State.FormIf.startCopyCard {k} (h : s.FormIf p) : (Machine.startCopyCard s k).state.FormIf p := by
  unfold Machine.startCopyCard
  extract_lets w n c
  split <;> exact h

theorem State.FormIf.startSignal {k} (h : s.FormIf p) : (Machine.startSignal s k).state.FormIf p := by
  unfold Machine.startSignal
  extract_lets a rel put
  have hput : ∀ s x, s.FormIf p → (put s x).state.FormIf p := by
    intro s1 x h1
    unfold put
    split
    next s2 _ e1 =>
      have hs2 : s2.FormIf p := .of_fst e1 h1.engWriteN
      exact h.cardFault hs2
    next e => exact .of_fst e h1.engWriteN
  split
  · exact h
  split
  · split
    next s1 _ e3 =>
      have hs1 : s1.FormIf p := .of_fst e3 h.engReadN
      exact h.cardFault hs1
    next s1 _ e2 =>
      have hs1 : s1.FormIf p := .of_fst e2 h.engReadN
      exact hput _ _ hs1
  split
  · split
    · exact h.cardFault h
    · exact hput _ _ h
  split
  · exact h.cardFault h
  · exact hput _ _ h

theorem State.FormIf.startCollective {k} (h : s.FormIf p) : (Machine.startCollective s k).state.FormIf p := by
  unfold Machine.startCollective
  extract_lets rel w op count
  split
  · exact h
  split
  · exact h
  extract_lets size
  split
  · exact h
  split
  · exact h
  extract_lets n r
  split
  · exact h
  split
  next s1 _ e6 =>
    have hs1 : s1.FormIf p := .of_fst e6 h.engReadN
    exact h.cardFault hs1
  next s1 _ e5 =>
    have hs1 : s1.FormIf p := .of_fst e5 h.engReadN
    extract_lets gone
    split
    · exact hs1
    split
    next s2 _ e8 =>
      have hs2 : s2.FormIf p := .of_fst e8 hs1.engReadN
      exact h.cardFault hs2
    next s2 _ e7 =>
      have hs2 : s2.FormIf p := .of_fst e7 hs1.engReadN
      split
      next s3 _ e9 =>
        have hs3 : s3.FormIf p := .of_fst e9 hs2.engWriteN
        exact h.cardFault hs3
      next e8 => exact .of_fst e8 hs2.engWriteN

theorem State.FormIf.startCompress {k} (h : s.FormIf p) : (Machine.startCompress s k).state.FormIf p := by
  unfold Machine.startCompress
  extract_lets rel w cap
  split
  · exact h
  split
  · exact h
  split
  next s1 _ e3 =>
    have hs1 : s1.FormIf p := .of_fst e3 h.engReadN
    exact h.cardFault hs1
  next s1 _ e2 =>
    have hs1 : s1.FormIf p := .of_fst e2 h.engReadN
    extract_lets out big bytes
    split
    next s2 _ e4 =>
      have hs2 : s2.FormIf p := .of_fst e4 hs1.engWriteN
      exact h.cardFault hs2
    next s2 e3 =>
      have hs2 : s2.FormIf p := .of_fst e3 hs1.engWriteN
      split
      next s3 _ e5 =>
        have hs3 : s3.FormIf p := .of_fst e5 hs2.engWriteN
        exact h.cardFault hs3
      next e4 => exact .of_fst e4 hs2.engWriteN

theorem State.FormIf.startEncode {k} (h : s.FormIf p) : (Machine.startEncode s k).state.FormIf p := by
  unfold Machine.startEncode
  extract_lets w idx
  split
  · exact h
  split
  · exact h
  split
  · exact h
  · exact h.setSlice.update

theorem State.FormIf.startFrameEnd {k} (h : s.FormIf p) : (Machine.startFrameEnd s k).state.FormIf p := h

theorem State.FormIf.startCard {k} (h : s.FormIf p) : (Machine.startCard s k).state.FormIf p := by
  unfold Machine.startCard
  split
  · exact h.startLaunch
  · exact h.startCopyCard
  · exact h.startSignal
  · exact h.startCollective
  · exact h.startCompress
  · exact h.startEncode
  · exact h.startFrameEnd

theorem State.FormIf.settleCopyCard {id} (h : s.FormIf p) : (Machine.settleCopyCard s id).FormIf p := by
  unfold Machine.settleCopyCard
  split
  · exact h
  · exact h.dropCopy.endCard.ite (h.dropCopy.endCard.ite h)

theorem State.FormIf.queueHeader {x} (h : s.FormIf p) : (Machine.queueHeader s x).1.FormIf p := by
  unfold Machine.queueHeader
  extract_lets rd
  have hrd : ∀ s x x', s.FormIf p → (rd s x x').1.FormIf p := by
    intro s1 x1 x' h1
    unfold rd
    split
    next e => exact .of_fst e h1.xlate
    next e => exact .of_fst e h1.xlate
    next s2 _ _ e =>
      have hs2 : s2.FormIf p := .of_fst e h1.xlate
      split <;> exact hs2
  split
  next e1 => exact .of_fst e1 (hrd _ _ _ h)
  next s1 _ e =>
    have hs1 : s1.FormIf p := .of_fst e (hrd _ _ _ h)
    split
    next e2 => exact .of_fst e2 (hrd _ _ _ hs1)
    next s2 _ e1 =>
      have hs2 : s2.FormIf p := .of_fst e1 (hrd _ _ _ hs1)
      split
      next e3 => exact .of_fst e3 (hrd _ _ _ hs2)
      next e2 => exact .of_fst e2 (hrd _ _ _ hs2)

theorem State.FormIf.publish {w c x i slot card} (h : s.FormIf p) : Res.FormIf p (Machine.publish w c x i slot card s) := by
  unfold Machine.publish
  extract_lets s1 ticket
  have hs1 : s1.FormIf p := h.scopeWriteBack
  split
  next e => exact (State.FormIf.of_fst e hs1.xlate).faultC
  next e => exact .next (State.FormIf.of_fst e hs1.xlate).parkC
  next s2 _ _ e =>
    have hs2 : s2.FormIf p := .of_fst e hs1.xlate
    exact .ite hs2.faultC (.next ((hs2.memWrite.memWrite.syncDupN.ite hs2.memWrite.memWrite).setL1.update.ite
      (hs2.memWrite.memWrite.syncDupN.ite hs2.memWrite.memWrite).setL1).mapG.endC)

theorem State.FormIf.cpyqClaimed {w x b c i} (h : s.FormIf p) : Res.FormIf p (Machine.cpyqClaimed w x b c i s) := by
  unfold Machine.cpyqClaimed
  extract_lets h1 card
  split
  next e1 => exact (State.FormIf.of_fst e1 h.queueHeader).faultC
  next s1 _ _ _ e =>
    have hs1 : s1.FormIf p := .of_fst e h.queueHeader
    exact .ite hs1.publish (.next hs1.parkC)

theorem State.FormIf.mapLease {i f} (h : s.FormIf p) : (Machine.mapLease s i f).FormIf p := h

theorem State.FormIf.wipeRoof {cl} (h : s.FormIf p) : (Machine.wipeRoof s cl).FormIf p := h.setCluster

theorem State.FormIf.settleLease {i} (h : s.FormIf p) : (Machine.settleLease s i).FormIf p := by
  unfold Machine.settleLease
  split
  · exact h
  · exact h.ite (h.wipeRoof.mapLease.ite (h.foldl (fun _ _ h1 => h1.softHalt)).pollSoft)

theorem State.FormIf.settleLeases (h : s.FormIf p) : (Machine.settleLeases s).FormIf p := h.foldl fun _ _ h1 => h1.settleLease

theorem State.FormIf.revokeOf {x} (h : s.FormIf p) : (Machine.revokeOf s x).FormIf p := h.update.settleLeases

theorem State.FormIf.refreshWaits {vf} (h : s.FormIf p) : (Machine.refreshWaits s vf).FormIf p :=
  h.foldl fun _ _ h1 => h1.foldl (fun _ _ h2 => h2.setQueueOf)

theorem State.FormIf.refreshAll (h : s.FormIf p) : (Machine.refreshAll s).FormIf p := h.foldl fun _ _ h1 => h1.refreshWaits

theorem State.FormIf.beginRounds {vf ws} (h : s.FormIf p) : (Machine.beginRounds s vf ws).FormIf p :=
  h.ite ((h.foldl (fun _ _ h1 => h1.foldl (fun _ _ h2 => h2.ite h2.setQueueOf))).foldl (fun _ _ h1 => h1.setQueueOf))

theorem State.FormIf.startFresh {k l x at_} (h : s.FormIf p) : (Machine.startFresh s k l x at_).FormIf p :=
  ((h.setFuse.takeRoof.ite h.setFuse).startTeam.mapGroups.ite (h.setFuse.takeRoof.ite h.setFuse).startTeam).mapCard

theorem State.FormIf.startOne {k l} (h : s.FormIf p) : OptForm p (Machine.startOne s k l) := .map_of fun _ => h.startFresh

theorem State.FormIf.startGrid {id from_ x} (h : s.FormIf p) : OptForm p (Machine.startGrid s id from_ x) := by
  induction x generalizing s from_ with
  | zero =>
    rw [Machine.startGrid]
    exact .some h
  | succ n ih =>
    rw [Machine.startGrid]
    split
    · exact .none
    split
    · exact .none
    split
    · exact .none
    · exact ih h.startFresh

theorem State.FormIf.restoreAll {vf key x} (h : s.FormIf p) : OptForm p (Machine.restoreAll s vf key x) := by
  induction x generalizing s with
  | nil =>
    rw [Machine.restoreAll]
    exact .some h
  | cons a l ih =>
    rw [Machine.restoreAll]
    split
    · exact .none
    · exact ih h.restoreTeam

theorem State.FormIf.runJob {vf j} (h : s.FormIf p) : OptForm p (Machine.runJob s vf j) := by
  unfold Machine.runJob
  split
  · split
    · exact .none
    split
    · exact .none
    split
    · exact .none
    split
    · exact h.startGrid
    · exact h.startOne
  split
  · exact .some h.refuseRecord
  · exact h.restoreAll

theorem State.FormIf.chargeJob {j} (h : s.FormIf p) : (Machine.chargeJob s j).FormIf p := h.update.setQueueOf.ite h.update

theorem State.FormIf.without {uids} (h : s.FormIf p) : (Machine.without s uids).FormIf p := h

theorem State.FormIf.evictFor {vf j} (h : s.FormIf p) : (Machine.evictFor s vf j).FormIf p := by
  unfold Machine.evictFor
  extract_lets pending s0
  have hs0 : s0.FormIf p := h
  split
  · exact h
  split
  · exact hs0
  · exact hs0.update.ite hs0
  · exact hs0.update.foldl fun _ _ h1 => h1.softHalt

theorem State.FormIf.tryJobs {vf x} (h : s.FormIf p) : (Machine.tryJobs s vf x).1.FormIf p := by
  induction x generalizing s with
  | nil =>
    rw [Machine.tryJobs]
    exact h
  | cons a l ih =>
    rw [Machine.tryJobs]
    split
    next e => exact (State.FormIf.of_opt e h.runJob).chargeJob.refreshWaits
    · exact ih (h.evictFor.ite h)

theorem State.FormIf.dropHolds {vf js} (h : s.FormIf p) : (Machine.dropHolds s vf js).FormIf p := h

theorem State.FormIf.dispatch {vf} (h : s.FormIf p) : (Machine.dispatch vf s).1.FormIf p :=
  h.refreshWaits.dropHolds.beginRounds.tryJobs

theorem State.FormIf.fitDraw {card} (h : s.FormIf p) : (Machine.fitDraw s card).FormIf p := by
  unfold Machine.fitDraw
  split
  · exact h
  split
  · exact h
  · exact h.mapCard.ite h

theorem State.FormIf.poolKey {ctx va acc} (h : s.FormIf p) : (Machine.poolKey s ctx va acc).1.FormIf p := by
  unfold Machine.poolKey
  split
  next e => exact .of_fst e h.translateVA
  next e1 => exact .of_fst e1 h.translateVA

theorem State.FormIf.refreshWindow {ctx} (h : s.FormIf p) : (Machine.refreshWindow s ctx).FormIf p := by
  unfold Machine.refreshWindow
  extract_lets vf ptwin tabs mine
  split
  · exact h
  refine h.foldl fun s x h1 => ?_
  refine h1.foldl fun s x h2 => ?_
  extract_lets w k e1
  split
  · exact h2
  split
  · exact h2.ite h2.memWriteNat
  · exact h2.memWriteNat.ite h2

theorem State.FormIf.finishCmd {fn status result} (h : s.FormIf p) : (Machine.finishCmd s fn status result).FormIf p :=
  h.setMbox.raise.deviceEvent

theorem State.FormIf.refuseCmd {fn} (h : s.FormIf p) : (Machine.refuseCmd s fn).FormIf p := h.finishCmd

theorem State.FormIf.readMailbox {fn off} (h : s.FormIf p) : Res.FormIf p (Machine.readMailbox fn off s) := .next h.update

theorem State.FormIf.setStage {fn stage} (h : s.FormIf p) : (Machine.setStage s fn stage).FormIf p := h.setMbox

theorem State.FormIf.vfCmd {fn code} {f : State → CmdEnd} (h : s.FormIf p) (hk : ∀ s, s.FormIf p → (f s).state.FormIf p) :
    Res.FormIf p (Machine.vfCmd fn code f s) := by
  unfold Machine.vfCmd
  split
  · exact .next h
  split
  · exact .next h.finishCmd
  split
  next e2 => exact .next (State.FormIf.of_cmdEnd e2 (hk _ h)).finishCmd
  next s1 e2 =>
    have hs1 : s1.FormIf p := .of_cmdEnd e2 (hk _ h)
    exact .next hs1

theorem State.FormIf.pfCmd {fn code} {f : State → CmdEnd} (h : s.FormIf p) (hk : ∀ s, s.FormIf p → (f s).state.FormIf p) :
    Res.FormIf p (Machine.pfCmd fn code f s) := by
  unfold Machine.pfCmd
  split
  · exact .next h
  split
  next e1 => exact .next (State.FormIf.of_cmdEnd e1 (hk _ h)).finishCmd
  next s1 e1 =>
    have hs1 : s1.FormIf p := .of_cmdEnd e1 (hk _ h)
    exact .next hs1

theorem State.FormIf.headerOf {ctx sl x} (h : s.FormIf p) : (Machine.headerOf s ctx sl x).1.FormIf p := by
  unfold Machine.headerOf
  split
  next e1 => exact .of_fst e1 h.engReadN
  next e => exact .of_fst e h.engReadN

end Sys2Proof.Machine
end

section
/-! ## The form: the mailbox, partitions, the host port, checkpoints and upsets -/

namespace Sys2Proof.Machine

variable {p : Prop} {s t : State}

theorem State.FormIf.captureQueue {sl qi old new} (h : s.FormIf p) : (Machine.captureQueue s sl qi old new).state.FormIf p := by
  unfold Machine.captureQueue
  extract_lets ctx bad same
  have hbad : ∀ s, s.FormIf p → (bad s).state.FormIf p := by
    intro s1 h1
    unfold bad
    exact h1.setQueueOf
  split
  next s1 e =>
    have hs1 : s1.FormIf p := .of_fst e h.headerOf
    split
    · exact hbad _ hs1
    · exact hs1.setQueueOf
  next s1 _ _ _ e =>
    have hs1 : s1.FormIf p := .of_fst e h.headerOf
    split
    · exact hbad _ hs1
    · exact hs1.setQueueOf

theorem State.FormIf.shootSlots {ctx va n} (h : s.FormIf p) : (Machine.shootSlots s ctx va n).FormIf p := h

theorem State.FormIf.shootDown {ctx va n} (h : s.FormIf p) : (Machine.shootDown s ctx va n).FormIf p :=
  ((h.setCtx.mapGroups.ite h.setCtx).update.ite (h.setCtx.mapGroups.ite h.setCtx)).mapGroups.shootSlots.foldl fun _ _ h1 =>
    h1.performDirty.ackAllDup

theorem State.FormIf.selectFirst {sl vf} (h : s.FormIf p) : (Machine.selectFirst s sl vf).FormIf p := h.mapGroups

theorem State.FormIf.zeroSlice {sl} (h : s.FormIf p) : (Machine.zeroSlice s sl).FormIf p :=
  h.setSlice.selectFirst.dropRemainsOf.update

theorem State.FormIf.saveLender {cl} (h : s.FormIf p) : (Machine.saveLender s cl).FormIf p :=
  (h.foldl (fun _ _ h1 => h1.saveArea)).wipeRoof

theorem State.FormIf.beginLease {l} (h : s.FormIf p) : (Machine.beginLease s l).state.FormIf p := by
  unfold Machine.beginLease
  extract_lets v rs
  split
  · exact h
  split
  · exact h
  split
  · exact h
  split
  · exact h
  · exact h.update.setStage

theorem State.FormIf.goLease {i} (h : s.FormIf p) : (Machine.goLease s i).state.FormIf p := by
  unfold Machine.goLease
  split
  · exact h
  extract_lets ts s1 __src s2
  have hs1 : s1.FormIf p := h.saveLender
  have hs2 : s2.FormIf p := hs1.setCluster
  split
  · exact h
  split
  · exact hs2.mapLease
  · exact (h.foldl (fun _ _ h1 => h1.softHalt)).pollSoft

theorem State.FormIf.freePartition {vf} (h : s.FormIf p) : (Machine.freePartition s vf).FormIf p := by
  unfold Machine.freePartition
  extract_lets slices s1 s2 s3 s4 m s5
  have h3 : s3.FormIf p := (h.foldl fun _ _ h => h.resetContext).revokeOf.touchRange
  have h5 : s5.FormIf p := (h3.foldl fun _ _ h => h.zeroSlice).setMbox
  exact (h5.clear (lo := memKey vf 0) (hi := memKey (vf + 1) 0)).update.setVf

/-- Bytes set one after another keep a memory's form. -/
theorem Memory.wf_foldl {α : Type} {f : Memory → α → Memory} {m : Memory} {l : List α} (h : m.wf = true)
    (hf : ∀ m a, m.wf = true → (f m a).wf = true) : Memory.wf (l.foldl f m) = true := by
  induction l generalizing m with
  | nil => exact h
  | cons a l ih => exact ih (hf m a h)

theorem State.FormIf.moveAreas {ctx d n} (h : s.FormIf p) : (Machine.moveAreas s ctx d n).FormIf p := by
  unfold Machine.moveAreas
  extract_lets b base size to_ s1 mine bad moved s2
  have h1 : s1.FormIf p := h.touchRange
  have hs2 : s2.FormIf p := fun hp => by
    refine ⟨Memory.wf_foldl (h1.clear hp).1 fun m e hm => ?_, (h1 hp).2⟩
    dsimp only
    split
    · exact SMap.wf_set _ _ _ _ hm
    · exact hm
  exact h.ite hs2.update

theorem State.FormIf.turnHeaders {ctx d n} (h : s.FormIf p) : (Machine.turnHeaders s ctx d n).FormIf p :=
  h.foldl fun _ _ h1 => h1.memWrite.memWrite.resealSlot

theorem State.FormIf.moveScratch {vf} (h : t.FormIf p) : (Machine.moveScratch s t vf).FormIf p :=
  h.foldl fun _ _ h1 => h1.memWrite.mapGroups

theorem State.FormIf.renumber {vf first j d n} (h : s.FormIf p) : (Machine.renumber s vf first j d n).FormIf p :=
  ((h.foldl (fun _ _ h1 => h1.moveAreas.turnHeaders)).foldl (fun _ _ h1 => h1.setCtx)).update.setVf.moveScratch

theorem State.FormIf.moveHeaps {vf first j gone} (h : s.FormIf p) : (Machine.moveHeaps s vf first j gone).FormIf p :=
  h.foldl fun _ _ h1 => h1.setSlice.setSlice

theorem State.FormIf.undoSplit {vf gone} (h : s.FormIf p) : (Machine.undoSplit s vf gone).FormIf p :=
  ((h.foldl (fun _ _ h1 => h1.setSlice)).foldl (fun _ _ h1 => h1.ladderUndo)).setVf

theorem State.FormIf.drainSplit {fn vf first j} (h : s.FormIf p) : (Machine.drainSplit s fn vf first j).state.FormIf p := by
  unfold Machine.drainSplit
  extract_lets gone mine s1 left late s2
  have hs1 : s1.FormIf p := (h.foldl (fun _ _ h1 => h1.softHalt)).pollSoft
  have hs2 : s2.FormIf p := hs1
  split
  · exact hs1.undoSplit
  split
  · exact hs1
  · exact (hs2.launchRelease.moveHeaps.foldl (fun _ _ h1 => h1.zeroSlice)).setStage

theorem State.FormIf.forgetSizes {vf} (h : s.FormIf p) : (Machine.forgetSizes s vf).FormIf p := h.mapGroups.update

theorem State.FormIf.endSplit {vf first j} (h : s.FormIf p) : (Machine.endSplit s vf first j).FormIf p := by
  unfold Machine.endSplit
  extract_lets v n gone was s1 s2 stay x size move s3 lo hi s4 s5
  have h2 : s2.FormIf p := (h.foldl fun _ _ h => h.setSlice).renumber.forgetSizes
  have h4 : s4.FormIf p := h2.setVf.foldl fun _ _ h => h.setCtx
  have h5 : s5.FormIf p := (h4.clear (lo := lo) (hi := hi)).update
  exact h5.foldl fun _ _ h => h.mailEvent

theorem State.FormIf.restartCore {mode ctl x} (h : s.FormIf p) : (Machine.restartCore s mode ctl x).FormIf p := h.mapGroups

theorem State.FormIf.restartSlice {sl} (h : s.FormIf p) : (Machine.restartSlice s sl).FormIf p := h.restartCore

theorem State.FormIf.sliceReady {sl} (h : s.FormIf p) : (Machine.sliceReady s sl).FormIf p := h.setSlice.ite h

theorem State.FormIf.abortStreams {vf} (h : s.FormIf p) : (Machine.abortStreams s vf).FormIf p :=
  h.update.foldl fun _ _ h1 => h1.finishCmd

theorem State.FormIf.resetSlice {sl cause} (h : s.FormIf p) : (Machine.resetSlice s sl cause).FormIf p :=
  (((h.abortStreams.foldl (fun _ _ h1 => h1.resetContext)).ite h).foldl
    (fun _ _ h1 => h1.performDirty.ackAllDup.l1Invalidate)).revokeOf.setSlice.update.restartSlice

theorem State.FormIf.rollback {sl} (h : s.FormIf p) : (Machine.rollback s sl).FormIf p := h.ite h.setFw.mailEvent.restartSlice

theorem State.FormIf.startUpdate {sl} (h : s.FormIf p) : (Machine.startUpdate s sl).1.FormIf p := by
  unfold Machine.startUpdate
  extract_lets f slot __src s1 s2 __src1
  have hs1 : s1.FormIf p := h.setFw.restartSlice
  have hs2 : s2.FormIf p := hs1.rollback
  split
  · exact h
  split
  · exact hs1
  · exact hs2.setFw

theorem State.FormIf.nextUpdate {fn mask sl} (h : s.FormIf p) : (Machine.nextUpdate s fn mask sl).state.FormIf p := by
  unfold Machine.nextUpdate
  split
  · exact h
  split
  next e1 => exact .of_fst e1 h.startUpdate
  next e1 => exact (State.FormIf.of_fst e1 h.startUpdate).setStage

theorem State.FormIf.resetSliceFw {sl cause} (h : s.FormIf p) : (Machine.resetSliceFw s sl cause).FormIf p :=
  h.rollback.resetSlice.setFw

theorem State.FormIf.powerDown (h : s.FormIf p) : (Machine.powerDown s).FormIf p := fun hp => ⟨rfl, (h hp).2⟩

theorem State.FormIf.endBringUp (h : s.FormIf p) : (Machine.endBringUp s).FormIf p := h.update.ite h

theorem State.FormIf.spdmAnswer {request} (h : s.FormIf p) : Res.FormIf p (Machine.spdmAnswer request s) := .next h.update

theorem State.FormIf.answer {bs} (h : s.FormIf p) : (Machine.answer s bs).FormIf p := h

theorem State.FormIf.refuse (h : s.FormIf p) : (Machine.refuse s).FormIf p := h

theorem State.FormIf.serve {key req} (h : s.FormIf p) : (Machine.serve s key req).FormIf p := by
  unfold Machine.serve
  split
  · exact h.refuse.ite h.answer
  · exact h.memWrite.answer
  · exact h.refuse
  · exact h.refuse.ite h.memWriteNat.answer

theorem State.FormIf.servePart {vf addr req} (h : s.FormIf p) : (Machine.servePart s vf addr req).FormIf p := h.refuse.ite h.serve

theorem State.FormIf.setQueuePairs {qs} (h : s.FormIf p) : (Machine.setQueuePairs s qs).FormIf p := h.ite h.update

theorem State.FormIf.setPeerNumber {domain peer} (h : s.FormIf p) : (Machine.setPeerNumber s domain peer).FormIf p := h.update.ite h

theorem State.FormIf.setPeerWindows {ws} (h : s.FormIf p) : (Machine.setPeerWindows s ws).FormIf p := h.update.ite h

theorem State.FormIf.takeCut {fn ctx m0 m1 cap} (h : s.FormIf p) : (Machine.takeCut s fn ctx m0 m1 cap).FormIf p :=
  h.launchRelease.memWrite.setCtx.update

theorem State.FormIf.undoCut {ctx} (h : s.FormIf p) : (Machine.undoCut s ctx).FormIf p := h.setCtx.foldl fun _ _ h1 => h1.ladderUndo

theorem State.FormIf.clearBad {d ls} (h : s.FormIf p) : (Machine.clearBad d ls s).FormIf p := by
  unfold Machine.clearBad
  split
  · exact h
  · exact h.mapG

theorem State.FormIf.placeM {m off n acc} (h : s.FormIf p) : (Machine.placeM s m off n acc).1.FormIf p := by
  unfold Machine.placeM
  split
  · exact h.placeT
  · exact h
  · exact h

theorem State.FormIf.placeFrag {m acc tr u base stride x ls} (h : s.FormIf p) :
    (Machine.placeFrag m acc tr u base stride x ls s).s.FormIf p := by
  unfold Machine.placeFrag
  extract_lets n fs
  refine State.FormIf.foldlOn FragPlaced.s h fun r x hr => ?_
  split
  next e => exact .of_fst e hr.placeM
  next e => exact .of_fst e hr.placeM
  next e => exact .of_fst e hr.placeM

theorem State.FormIf.fragMisaligned {c : LCtx} {addr stride r} (h : s.FormIf p) (e : Machine.fragMisaligned c addr stride s = some
    r) :
    Res.FormIf p r := by
  unfold Machine.fragMisaligned at e
  split at e
  · cases e
  · exact Option.some.inj e ▸ h.endOr

theorem State.FormIf.readFrag {u} {r : FragPlaced} (h : r.s.FormIf p) : (Machine.readFrag u r).1.FormIf p := by
  unfold Machine.readFrag
  refine State.FormIf.foldlOn Prod.fst h fun r x hr => ?_
  split
  · exact hr
  · exact hr.readPlace

theorem State.FormIf.restorePoison {r key} (h : s.FormIf p) : (Machine.restorePoison s r key).FormIf p := h.update.ite h

theorem State.FormIf.queueGoesOn {sl qi old} (h : s.FormIf p) : (restoreQueue.queueGoesOn s sl qi old).FormIf p := by
  unfold restoreQueue.queueGoesOn
  extract_lets q
  split
  · exact h
  · exact h.setQueueOf.ite h

theorem State.FormIf.restoreQueue {slot ctx n tcut m r} (h : s.FormIf p) :
    (Machine.restoreQueue s slot ctx n tcut m r).FormIf p := by
  unfold Machine.restoreQueue
  extract_lets sl qi bs q synth q1
  split
  next e => exact (State.FormIf.of_cmdEnd e h.captureQueue).queueGoesOn
  next s1 e =>
    have hs1 : s1.FormIf p := .of_cmdEnd e h.captureQueue
    exact hs1

theorem State.FormIf.restoreCards {ctx n id0 m} (h : s.FormIf p) : (Machine.restoreCards s ctx n id0 m).FormIf p := h

theorem State.FormIf.restoreHeap {slot ctx n r} (h : s.FormIf p) : (Machine.restoreHeap s slot ctx n r).FormIf p := h.setSlice

theorem State.FormIf.shiftSleeps {key tcut} (h : s.FormIf p) : (Machine.shiftSleeps s key tcut).FormIf p :=
  h.foldl fun _ _ h1 => h1.memWrite.writeCheck.ite h1

theorem State.FormIf.restoreSlot {slot ctx n tcut i id0 m r} (h : s.FormIf p) :
    (Machine.restoreSlot s slot ctx n tcut i id0 m r).FormIf p :=
  h.memWrite.memWrite.resealSlot.shiftSleeps.update.restorePoison.markSlot

theorem State.FormIf.restoreCtx {ctx slot base} (h : s.FormIf p) : (Machine.restoreCtx s ctx slot base).FormIf p := by
  unfold Machine.restoreCtx
  extract_lets vf n rs tcut gen blk sx b m id0 s1 s2 s3 s4 s5 x cnt off s6 sb s7 s8 s9 s10 s11 s12
  have h1 : s1.FormIf p := h.update
  have h3 : s3.FormIf p := h1.zeroRange.foldl fun _ _ h => h.memWrite
  have h5 : s5.FormIf p := (h3.foldl fun _ _ h => h.restorePoison).update
  have h6 : s6.FormIf p := h5.setCtx
  have h7 : s7.FormIf p := h6.ite h6.zeroRange
  have h8 : s8.FormIf p := h7.foldl fun _ _ h => h.restoreSlot
  have h9 : s9.FormIf p := by
    refine h8.foldl fun t _ ht => ?_
    split
    · exact ht.memWrite.restorePoison
    · exact ht
  have h11 : s11.FormIf p :=
    (h9.foldl fun _ _ h => h.memWrite.restorePoison.setSinterBit).foldl fun _ _ h => h.restoreHeap
  have h12 : s12.FormIf p := by
    unfold s12
    split
    · exact h11
    · exact h11.ite h11.memWrite
  exact (h12.foldl fun _ _ h => h.restoreQueue).restoreCards

theorem State.FormIf.apxRun {x regs os d} {k : LCtx → State → Res} (h : s.FormIf p) (hk : ∀ c s, c.s0.FormIf p → s.FormIf p →
    Res.FormIf p (k c s)) : Res.FormIf p (Machine.apxRun x regs os d k s) :=
  .ite h.illegalL (h.laneRun hk)

theorem State.FormIf.dirtyUpset {core line} (h : s.FormIf p) : (Machine.dirtyUpset s core line).FormIf p := h.setL1.update

theorem State.FormIf.uncorrectedOf {uid} (h : s.FormIf p) : (Machine.uncorrectedOf s uid).FormIf p := by
  unfold Machine.uncorrectedOf
  split
  · exact h
  · exact h.uncorrected

theorem State.FormIf.upset {u} (h : s.FormIf p) : (Machine.upset u s).FormIf p := by
  unfold Machine.upset
  split
  · exact h.uncorrected.update
  · exact h.uncorrected.setL1
  · exact h.uncorrected.dirtyUpset
  · exact h.uncorrectedOf.groupUpset
  · exact h.mapGroups
  · exact h.windowUpset
  · exact h.setCluster
  · exact h.uncorrected.setCluster
  · exact h.uncorrected.setCluster
  · exact h.uncorrected.resetSliceFw
  next x _ _ => exact (h.setL1.uncorrected.resetSliceFw.foldl (fun _ _ h1 => h1.resetContext)).ite h.setL1.uncorrected.resetSliceFw
  · exact h.setSlice.countEvent

theorem State.FormIf.counted {team ctx fixed evs} (h : s.FormIf p) : (Machine.counted s team ctx fixed evs).FormIf p :=
  (h.bumpCounter.foldl (fun _ _ h1 => h1.countEvent)).mapTeams

theorem State.FormIf.issuedC {uid} (h : s.FormIf p) : (Machine.issuedC s uid).FormIf p := h.mapGroups

theorem State.FormIf.issuedL {uid idx old} (h : s.FormIf p) : (Machine.issuedL s uid idx old).FormIf p := h.mapGroups

end Sys2Proof.Machine
end

section
/-! ## The form: the instructions -/

namespace Sys2Proof.Machine

variable {p : Prop} {s t : State}

theorem State.FormIf.execBari {w x b} (h : s.FormIf p) : Res.FormIf p (Machine.execBari w x b s) := by
  unfold Machine.execBari
  exact h.barInstr

theorem State.FormIf.execBarx {w x b c} (h : s.FormIf p) : Res.FormIf p (Machine.execBarx w x b c s) := by
  unfold Machine.execBarx
  exact h.barInstr

theorem State.FormIf.execBara {w x b} (h : s.FormIf p) : Res.FormIf p (Machine.execBara w x b s) :=
  h.afterLoads fun _ h1 => h1.barInstr

theorem State.FormIf.execWaitb {w x b} (h : s.FormIf p) : Res.FormIf p (Machine.execWaitb w x b s) := by
  unfold Machine.execWaitb
  extract_lets o
  split
  · exact h.faultC
  split
  · exact h.faultC
  · exact .next h.parkOn
  · exact .next h.barAcquire.endC

theorem State.FormIf.execYieldc {w x b c} (h : s.FormIf p) : Res.FormIf p (Machine.execYieldc w x b c s) := by
  unfold Machine.execYieldc
  extract_lets o cont p1 s1
  have hs1 : s1.FormIf p := h.mapG
  split
  · exact h.illegalC
  split
  · exact h.faultC
  split
  · exact .next h.parkC
  split
  · exact hs1.faultC
  · exact .next hs1.parkOn
  · exact .next hs1.barAcquire.mapG

theorem State.FormIf.execBr {w o} (h : s.FormIf p) : Res.FormIf p (Machine.execBr w o s) := h.jumpTo

theorem State.FormIf.execBrq {w q sense o} (h : s.FormIf p) : Res.FormIf p (Machine.execBrq w q sense o s) :=
  .ite h.jumpTo (.next h.endC)

theorem State.FormIf.execCall {w o} (h : s.FormIf p) : Res.FormIf p (Machine.execCall w o s) := h.mapG.jumpTo

theorem State.FormIf.execJmpi {w x} (h : s.FormIf p) : Res.FormIf p (Machine.execJmpi w x s) := .ite h.illegalC h.jumpTo

theorem State.FormIf.execCalli {w d x} (h : s.FormIf p) : Res.FormIf p (Machine.execCalli w d x s) := .ite h.illegalC h.mapG.jumpTo

theorem State.FormIf.execRet {w x} (h : s.FormIf p) : Res.FormIf p (Machine.execRet w x s) := .ite h.illegalC h.jumpTo

theorem State.FormIf.execLoop {w d i} (h : s.FormIf p) : Res.FormIf p (Machine.execLoop w d i s) :=
  .ite h.mapG.jumpTo (.next h.mapG.endC)

theorem State.FormIf.execTrap {w c} (h : s.FormIf p) : Res.FormIf p (Machine.execTrap w c s) := .next h.takeFault

theorem State.FormIf.execIllegalInstruction {lane} (h : s.FormIf p) : Res.FormIf p (Machine.execIllegalInstruction lane s) := by
  unfold Machine.execIllegalInstruction
  split
  · split
    · exact .next h
    · exact h.wordFaultL
  · exact h.illegalC

theorem State.FormIf.execRoofAreaLoad {cluster} (h : s.FormIf p) : Res.FormIf p (Machine.execRoofAreaLoad cluster s) := by
  unfold Machine.execRoofAreaLoad
  split
  · exact .next h
  · exact .next h.takeRoof.loadArea

theorem State.FormIf.execRoofGate {cluster} (h : s.FormIf p) : Res.FormIf p (Machine.execRoofGate cluster s) :=
  .next (h.gateRoof.ite h)

theorem State.FormIf.execRoofWake {cluster} (h : s.FormIf p) : Res.FormIf p (Machine.execRoofWake cluster s) := by
  unfold Machine.execRoofWake
  extract_lets c
  split
  · exact .next h
  · exact .ite (.next h.setCluster) (.next h)

theorem State.FormIf.execChimgate {w x} (h : s.FormIf p) : Res.FormIf p (Machine.execChimgate w x s) :=
  .ite h.illegalC (.next h.setCluster.endC)

theorem State.FormIf.execCpyb {w x b c} (h : s.FormIf p) : Res.FormIf p (Machine.execCpyb w x b c s) := by
  unfold Machine.execCpyb
  extract_lets ctl bar raw run sa da far idx s1
  have hs1 : s1.FormIf p := h.objAcquire
  split
  · split
    · exact h.illegalC
    split
    · exact h.faultC
    split
    · exact h.faultC
    split
    · exact h.faultC
    · exact h.cpybStart
  split
  · exact h.illegalC
  split
  · exact h.faultC
  split
  · exact h.faultC
  split
  · exact hs1.faultC
  split
  · exact hs1.faultC
  · exact hs1.cpybStart

theorem State.FormIf.execCpyg {w x b c} (h : s.FormIf p) : Res.FormIf p (Machine.execCpyg w x b c s) := by
  unfold Machine.execCpyg
  extract_lets ctl bar run sa st rb io d idx
  split
  · exact h.illegalC
  split
  · exact h.faultC
  split
  · exact h.faultC
  · exact .ite h.faultC (.ite h.faultC (.ite (.next h.parkC) (.next h.startCopy.endC)))

theorem State.FormIf.execEmpty {w x b} (h : s.FormIf p) : Res.FormIf p (Machine.execEmpty w x b s) :=
  .ite h.faultC (.ite (.next h.endC) (.next h.emptyLines.endC))

theorem State.FormIf.execChsend {w x b} (h : s.FormIf p) : Res.FormIf p (Machine.execChsend w x b s) :=
  .ite (.next h.chPush.endC) (.next h.parkC)

theorem State.FormIf.execChrecv {w x b peek} (h : s.FormIf p) : Res.FormIf p (Machine.execChrecv w x b peek s) := by
  unfold Machine.execChrecv
  extract_lets c k s1
  have hs1 : s1.FormIf p := h.ite h.chDrop
  split
  · exact .next hs1.mapG.endC
  · exact .next h.mapG.endC

theorem State.FormIf.execChstat {w x b} (h : s.FormIf p) : Res.FormIf p (Machine.execChstat w x b s) := .next h.mapG.endC

theorem State.FormIf.execFadd {x d y b r} (h : s.FormIf p) : Res.FormIf p (Machine.execFadd x d y b r s) := h.lane2

theorem State.FormIf.execFsub {x d y b r} (h : s.FormIf p) : Res.FormIf p (Machine.execFsub x d y b r s) := h.lane2

theorem State.FormIf.execFmul {x d y b r} (h : s.FormIf p) : Res.FormIf p (Machine.execFmul x d y b r s) := h.lane2

theorem State.FormIf.execFfma {x d y b c r} (h : s.FormIf p) : Res.FormIf p (Machine.execFfma x d y b c r s) := h.lane3

theorem State.FormIf.execFfms {x d y b c r} (h : s.FormIf p) : Res.FormIf p (Machine.execFfms x d y b c r s) := h.lane3

theorem State.FormIf.execFmin {x d y b} (h : s.FormIf p) : Res.FormIf p (Machine.execFmin x d y b s) := h.lane2

theorem State.FormIf.execFmax {x d y b} (h : s.FormIf p) : Res.FormIf p (Machine.execFmax x d y b s) := h.lane2

theorem State.FormIf.execFcmp {x d c y b} (h : s.FormIf p) : Res.FormIf p (Machine.execFcmp x d c y b s) := h.lanePred

theorem State.FormIf.execFclass {x d y} (h : s.FormIf p) : Res.FormIf p (Machine.execFclass x d y s) := h.lane1

theorem State.FormIf.execFdiv {x d y b r} (h : s.FormIf p) : Res.FormIf p (Machine.execFdiv x d y b r s) := h.lane2

theorem State.FormIf.execFrcp {x d y r} (h : s.FormIf p) : Res.FormIf p (Machine.execFrcp x d y r s) := h.lane1

theorem State.FormIf.execFrsq {x d y r} (h : s.FormIf p) : Res.FormIf p (Machine.execFrsq x d y r s) := h.lane1

theorem State.FormIf.execFsqrt {x d y r} (h : s.FormIf p) : Res.FormIf p (Machine.execFsqrt x d y r s) := h.lane1

theorem State.FormIf.execEx2 {x d y r} (h : s.FormIf p) : Res.FormIf p (Machine.execEx2 x d y r s) := h.lane1

theorem State.FormIf.execLg2 {x d y r} (h : s.FormIf p) : Res.FormIf p (Machine.execLg2 x d y r s) := h.lane1

theorem State.FormIf.execFsint {x d y r} (h : s.FormIf p) : Res.FormIf p (Machine.execFsint x d y r s) := h.lane1

theorem State.FormIf.execFcost {x d y r} (h : s.FormIf p) : Res.FormIf p (Machine.execFcost x d y r s) := h.lane1

theorem State.FormIf.execFrint {x d y rm} (h : s.FormIf p) : Res.FormIf p (Machine.execFrint x d y rm s) := h.lane1

theorem State.FormIf.execFfloor {x d y} (h : s.FormIf p) : Res.FormIf p (Machine.execFfloor x d y s) := h.lane1

theorem State.FormIf.execFceil {x d y} (h : s.FormIf p) : Res.FormIf p (Machine.execFceil x d y s) := h.lane1

theorem State.FormIf.execFtrunc {x d y} (h : s.FormIf p) : Res.FormIf p (Machine.execFtrunc x d y s) := h.lane1

theorem State.FormIf.execFfract {x d y rm} (h : s.FormIf p) : Res.FormIf p (Machine.execFfract x d y rm s) := h.lane1

theorem State.FormIf.execFscale {x d y b r} (h : s.FormIf p) : Res.FormIf p (Machine.execFscale x d y b r s) := h.lane2

theorem State.FormIf.execFgetexp {x d y} (h : s.FormIf p) : Res.FormIf p (Machine.execFgetexp x d y s) := h.lane1

theorem State.FormIf.execFcopysign {x d y b} (h : s.FormIf p) : Res.FormIf p (Machine.execFcopysign x d y b s) := h.lane2

theorem State.FormIf.execHadd2 {x ty d y b r} (h : s.FormIf p) : Res.FormIf p (Machine.execHadd2 x ty d y b r s) := h.lane2

theorem State.FormIf.execHsub2 {x ty d y b r} (h : s.FormIf p) : Res.FormIf p (Machine.execHsub2 x ty d y b r s) := h.lane2

theorem State.FormIf.execHmul2 {x ty d y b r} (h : s.FormIf p) : Res.FormIf p (Machine.execHmul2 x ty d y b r s) := h.lane2

theorem State.FormIf.execHfma2 {x ty d y b c r} (h : s.FormIf p) : Res.FormIf p (Machine.execHfma2 x ty d y b c r s) := h.lane3

theorem State.FormIf.execHmin2 {x ty d y b} (h : s.FormIf p) : Res.FormIf p (Machine.execHmin2 x ty d y b s) := h.lane2

theorem State.FormIf.execHmax2 {x ty d y b} (h : s.FormIf p) : Res.FormIf p (Machine.execHmax2 x ty d y b s) := h.lane2

theorem State.FormIf.execHcmp2 {x ty d c y b} (h : s.FormIf p) : Res.FormIf p (Machine.execHcmp2 x ty d c y b s) := h.lane2

theorem State.FormIf.execHdot2 {x ty d y b c r} (h : s.FormIf p) : Res.FormIf p (Machine.execHdot2 x ty d y b c r s) := h.lane3

theorem State.FormIf.execCvt {x ty sty shi sr d y r} (h : s.FormIf p) : Res.FormIf p (Machine.execCvt x ty sty shi sr d y r s) :=
  h.laneConv

theorem State.FormIf.execCvt2 {x ty sty sr d y r} (h : s.FormIf p) : Res.FormIf p (Machine.execCvt2 x ty sty sr d y r s) := h.cvtN

theorem State.FormIf.execCvt4 {x ty sty sr d y b r} (h : s.FormIf p) : Res.FormIf p (Machine.execCvt4 x ty sty sr d y b r s) :=
  h.cvtN

theorem State.FormIf.execCvt8 {x ty sty sr d y b r} (h : s.FormIf p) : Res.FormIf p (Machine.execCvt8 x ty sty sr d y b r s) :=
  h.cvtN

theorem State.FormIf.execQdec {x ty sr d y b c r} (h : s.FormIf p) : Res.FormIf p (Machine.execQdec x ty sr d y b c r s) := by
  unfold Machine.execQdec
  exact h.laneCvt

theorem State.FormIf.execQenc {x d y b c i} (h : s.FormIf p) : Res.FormIf p (Machine.execQenc x d y b c i s) := by
  unfold Machine.execQenc
  extract_lets srcs sh
  split
  · exact h.illegalL
  · exact h.laneRun fun _ _ _ h1 => h1.putV.flagAll.endL

theorem State.FormIf.execFtoi {x ty sty shi d y rm} (h : s.FormIf p) : Res.FormIf p (Machine.execFtoi x ty sty shi d y rm s) :=
  h.laneConv

theorem State.FormIf.execItof {x ty sty shi sr d y r} (h : s.FormIf p) : Res.FormIf p (Machine.execItof x ty sty shi sr d y r s) :=
  h.laneConv

theorem State.FormIf.execIcvt {x ty sty shi d y sat} (h : s.FormIf p) : Res.FormIf p (Machine.execIcvt x ty sty shi d y sat s) :=
  h.laneConv

theorem State.FormIf.execAdd {w d x b} (h : s.FormIf p) : Res.FormIf p (Machine.execAdd w d x b s) := h.iop

theorem State.FormIf.execSub {w d x b} (h : s.FormIf p) : Res.FormIf p (Machine.execSub w d x b s) := h.iop

theorem State.FormIf.execMul {w d x b} (h : s.FormIf p) : Res.FormIf p (Machine.execMul w d x b s) := h.iop

theorem State.FormIf.execMulhs {w d x b} (h : s.FormIf p) : Res.FormIf p (Machine.execMulhs w d x b s) := h.iop

theorem State.FormIf.execMulhn {w d x b} (h : s.FormIf p) : Res.FormIf p (Machine.execMulhn w d x b s) := h.iop

theorem State.FormIf.execDivs {w d x b} (h : s.FormIf p) : Res.FormIf p (Machine.execDivs w d x b s) := h.iop

theorem State.FormIf.execDivn {w d x b} (h : s.FormIf p) : Res.FormIf p (Machine.execDivn w d x b s) := h.iop

theorem State.FormIf.execRems {w d x b} (h : s.FormIf p) : Res.FormIf p (Machine.execRems w d x b s) := h.iop

theorem State.FormIf.execRemn {w d x b} (h : s.FormIf p) : Res.FormIf p (Machine.execRemn w d x b s) := h.iop

theorem State.FormIf.execAnd {w d x b} (h : s.FormIf p) : Res.FormIf p (Machine.execAnd w d x b s) := h.iop

theorem State.FormIf.execOr {w d x b} (h : s.FormIf p) : Res.FormIf p (Machine.execOr w d x b s) := h.iop

theorem State.FormIf.execXor {w d x b} (h : s.FormIf p) : Res.FormIf p (Machine.execXor w d x b s) := h.iop

theorem State.FormIf.execAndn {w d x b} (h : s.FormIf p) : Res.FormIf p (Machine.execAndn w d x b s) := h.iop

theorem State.FormIf.execShl {w d x b} (h : s.FormIf p) : Res.FormIf p (Machine.execShl w d x b s) := h.iop

theorem State.FormIf.execShr {w d x b} (h : s.FormIf p) : Res.FormIf p (Machine.execShr w d x b s) := h.iop

theorem State.FormIf.execSar {w d x b} (h : s.FormIf p) : Res.FormIf p (Machine.execSar w d x b s) := h.iop

theorem State.FormIf.execRotl {w d x b} (h : s.FormIf p) : Res.FormIf p (Machine.execRotl w d x b s) := h.iop

theorem State.FormIf.execMins {w d x b} (h : s.FormIf p) : Res.FormIf p (Machine.execMins w d x b s) := h.iop

theorem State.FormIf.execMaxs {w d x b} (h : s.FormIf p) : Res.FormIf p (Machine.execMaxs w d x b s) := h.iop

theorem State.FormIf.execMinn {w d x b} (h : s.FormIf p) : Res.FormIf p (Machine.execMinn w d x b s) := h.iop

theorem State.FormIf.execMaxn {w d x b} (h : s.FormIf p) : Res.FormIf p (Machine.execMaxn w d x b s) := h.iop

theorem State.FormIf.execClz {w d x} (h : s.FormIf p) : Res.FormIf p (Machine.execClz w d x s) := h.iop1

theorem State.FormIf.execPopc {w d x} (h : s.FormIf p) : Res.FormIf p (Machine.execPopc w d x s) := h.iop1

theorem State.FormIf.execBrev {w d x} (h : s.FormIf p) : Res.FormIf p (Machine.execBrev w d x s) := h.iop1

theorem State.FormIf.execSel {w d x n q} (h : s.FormIf p) : Res.FormIf p (Machine.execSel w d x n q s) :=
  .ite h.writeS (.next h.endC)

theorem State.FormIf.execAddi {w d x i} (h : s.FormIf p) : Res.FormIf p (Machine.execAddi w d x i s) := h.immOp

theorem State.FormIf.execMuli {w d x i} (h : s.FormIf p) : Res.FormIf p (Machine.execMuli w d x i s) := h.immOp

theorem State.FormIf.execAndi {w d x i} (h : s.FormIf p) : Res.FormIf p (Machine.execAndi w d x i s) := h.immOp

theorem State.FormIf.execOri {w d x i} (h : s.FormIf p) : Res.FormIf p (Machine.execOri w d x i s) := h.immOp

theorem State.FormIf.execXori {w d x i} (h : s.FormIf p) : Res.FormIf p (Machine.execXori w d x i s) := h.immOp

theorem State.FormIf.execShi {w d x o n} (h : s.FormIf p) : Res.FormIf p (Machine.execShi w d x o n s) := h.iop1

theorem State.FormIf.execMovi {w d i} (h : s.FormIf p) : Res.FormIf p (Machine.execMovi w d i s) := h.writeS

theorem State.FormIf.execMovhi {w d i} (h : s.FormIf p) : Res.FormIf p (Machine.execMovhi w d i s) := h.writeS

theorem State.FormIf.execCmp {w q x b c} (h : s.FormIf p) : Res.FormIf p (Machine.execCmp w q x b c s) := h.writeQ

theorem State.FormIf.execCmpi {w c q x i} (h : s.FormIf p) : Res.FormIf p (Machine.execCmpi w c q x i s) := h.cmpImm

theorem State.FormIf.execAdd64 {w d x b} (h : s.FormIf p) : Res.FormIf p (Machine.execAdd64 w d x b s) := h.writeP

theorem State.FormIf.execSub64 {w d x b} (h : s.FormIf p) : Res.FormIf p (Machine.execSub64 w d x b s) := h.writeP

theorem State.FormIf.execMul64 {w d x b} (h : s.FormIf p) : Res.FormIf p (Machine.execMul64 w d x b s) := h.writeP

theorem State.FormIf.execAdd128 {w d x b} (h : s.FormIf p) : Res.FormIf p (Machine.execAdd128 w d x b s) := .next h.mapG.endC

theorem State.FormIf.execShl64 {w d x b} (h : s.FormIf p) : Res.FormIf p (Machine.execShl64 w d x b s) := h.writeP

theorem State.FormIf.execShr64 {w d x b} (h : s.FormIf p) : Res.FormIf p (Machine.execShr64 w d x b s) := h.writeP

theorem State.FormIf.execBfx {w x b c} (h : s.FormIf p) : Res.FormIf p (Machine.execBfx w x b c s) := h.writeS

theorem State.FormIf.execBfi {w x b c} (h : s.FormIf p) : Res.FormIf p (Machine.execBfi w x b c s) := h.writeS

theorem State.FormIf.execQand {w x n b m c} (h : s.FormIf p) : Res.FormIf p (Machine.execQand w x n b m c s) := h.qop

theorem State.FormIf.execQor {w x n b m c} (h : s.FormIf p) : Res.FormIf p (Machine.execQor w x n b m c s) := h.qop

theorem State.FormIf.execQxor {w x n b m c} (h : s.FormIf p) : Res.FormIf p (Machine.execQxor w x n b m c s) := h.qop

theorem State.FormIf.execQnot {w x b} (h : s.FormIf p) : Res.FormIf p (Machine.execQnot w x b s) := h.writeQ

theorem State.FormIf.execIadd {x ty d y b sat} (h : s.FormIf p) : Res.FormIf p (Machine.execIadd x ty d y b sat s) := h.laneI

theorem State.FormIf.execIsub {x ty d y b sat} (h : s.FormIf p) : Res.FormIf p (Machine.execIsub x ty d y b sat s) := h.laneI

theorem State.FormIf.execImul {x ty d y b sat} (h : s.FormIf p) : Res.FormIf p (Machine.execImul x ty d y b sat s) := h.laneI

theorem State.FormIf.execImulh {x ty d y b} (h : s.FormIf p) : Res.FormIf p (Machine.execImulh x ty d y b s) := h.laneI

theorem State.FormIf.execImad {x ty d y b c sat} (h : s.FormIf p) : Res.FormIf p (Machine.execImad x ty d y b c sat s) := h.laneI

theorem State.FormIf.execImin {x ty d y b} (h : s.FormIf p) : Res.FormIf p (Machine.execImin x ty d y b s) := h.laneI

theorem State.FormIf.execImax {x ty d y b} (h : s.FormIf p) : Res.FormIf p (Machine.execImax x ty d y b s) := h.laneI

theorem State.FormIf.execIabs {x ty d y sat} (h : s.FormIf p) : Res.FormIf p (Machine.execIabs x ty d y sat s) := h.laneI

theorem State.FormIf.execIshl {x ty d y n} (h : s.FormIf p) : Res.FormIf p (Machine.execIshl x ty d y n s) := h.laneShift

theorem State.FormIf.execIshr {x ty d y n} (h : s.FormIf p) : Res.FormIf p (Machine.execIshr x ty d y n s) := h.laneShift

theorem State.FormIf.execIsar {x ty d y n} (h : s.FormIf p) : Res.FormIf p (Machine.execIsar x ty d y n s) := h.laneShift

theorem State.FormIf.execFshl {x d y b n} (h : s.FormIf p) : Res.FormIf p (Machine.execFshl x d y b n s) := h.funnel

theorem State.FormIf.execFshr {x d y b n} (h : s.FormIf p) : Res.FormIf p (Machine.execFshr x d y b n s) := h.funnel

theorem State.FormIf.execLogic3 {x d y b c tt} (h : s.FormIf p) : Res.FormIf p (Machine.execLogic3 x d y b c tt s) := h.laneW

theorem State.FormIf.execLaneBfx {x ty d y b} (h : s.FormIf p) : Res.FormIf p (Machine.execLaneBfx x ty d y b s) := h.laneW

theorem State.FormIf.execLaneBfi {x ty d y b c} (h : s.FormIf p) : Res.FormIf p (Machine.execLaneBfi x ty d y b c s) := h.laneW

theorem State.FormIf.execLanePopc {x d y} (h : s.FormIf p) : Res.FormIf p (Machine.execLanePopc x d y s) := h.laneW

theorem State.FormIf.execLaneClz {x d y} (h : s.FormIf p) : Res.FormIf p (Machine.execLaneClz x d y s) := h.laneW

theorem State.FormIf.execLaneBrev {x d y} (h : s.FormIf p) : Res.FormIf p (Machine.execLaneBrev x d y s) := h.laneW

theorem State.FormIf.execIcmp {x ty d c y b} (h : s.FormIf p) : Res.FormIf p (Machine.execIcmp x ty d c y b s) := h.lanePred

theorem State.FormIf.execLaneSel {x ty d y b m neg} (h : s.FormIf p) : Res.FormIf p (Machine.execLaneSel x ty d y b m neg s) :=
  h.laneRun fun _ _ _ h1 => h1.put.endL

theorem State.FormIf.execIdot4 {x ty d y b c sat} (h : s.FormIf p) : Res.FormIf p (Machine.execIdot4 x ty d y b c sat s) := h.laneOp

theorem State.FormIf.execIsad {x d y b c} (h : s.FormIf p) : Res.FormIf p (Machine.execIsad x d y b c s) := h.laneW

theorem State.FormIf.execIaddc {x sub d y b m} (h : s.FormIf p) : Res.FormIf p (Machine.execIaddc x sub d y b m s) :=
  h.laneRun fun _ _ _ h1 => h1.put.putM.endL

theorem State.FormIf.execMov {x ty d y} (h : s.FormIf p) : Res.FormIf p (Machine.execMov x ty d y s) := h.laneOp

theorem State.FormIf.execLaneMovi {x d hi i} (h : s.FormIf p) : Res.FormIf p (Machine.execLaneMovi x d hi i s) := by
  unfold Machine.execLaneMovi
  split
  · extract_lets top
    split
    · exact h.laneRun fun _ _ _ h1 => h1.putV.endL
    · exact h.laneOp
  · exact h.laneOp

theorem State.FormIf.execRng {x d y b} (h : s.FormIf p) : Res.FormIf p (Machine.execRng x d y b s) := h.laneOp

theorem State.FormIf.execRngNext {x d} (h : s.FormIf p) : Res.FormIf p (Machine.execRngNext x d s) :=
  h.laneRun fun _ _ _ h1 => h1.stepCtr.put.endL

theorem State.FormIf.execRngSeed {x y b} (h : s.FormIf p) : Res.FormIf p (Machine.execRngSeed x y b s) :=
  h.laneRun fun _ _ _ h1 => h1.mapG.endL

theorem State.FormIf.execRngCtr {x d} (h : s.FormIf p) : Res.FormIf p (Machine.execRngCtr x d s) :=
  h.laneRun fun _ _ _ h1 => h1.put.endL

theorem State.FormIf.execRngKey {x d} (h : s.FormIf p) : Res.FormIf p (Machine.execRngKey x d s) :=
  h.laneRun fun _ _ _ h1 => h1.put.endL

theorem State.FormIf.execAdd128l {x d y b} (h : s.FormIf p) : Res.FormIf p (Machine.execAdd128l x d y b s) := h.laneOp

theorem State.FormIf.execAdd128lCtr {x y} (h : s.FormIf p) : Res.FormIf p (Machine.execAdd128lCtr x y s) :=
  h.laneRun fun _ _ _ h1 => h1.mapG.endL

theorem State.FormIf.execShfl {x ty d y b} (h : s.FormIf p) : Res.FormIf p (Machine.execShfl x ty d y b s) := h.laneMove

theorem State.FormIf.execShflx {x ty d y x'} (h : s.FormIf p) : Res.FormIf p (Machine.execShflx x ty d y x' s) := h.laneMove

theorem State.FormIf.execShfld {x ty dn d y n} (h : s.FormIf p) : Res.FormIf p (Machine.execShfld x ty dn d y n s) := h.laneMove

theorem State.FormIf.execBcast {x ty d y n} (h : s.FormIf p) : Res.FormIf p (Machine.execBcast x ty d y n s) := h.laneMove

theorem State.FormIf.execVote {x op d y} (h : s.FormIf p) : Res.FormIf p (Machine.execVote x op d y s) :=
  h.laneRun fun _ _ _ h1 => h1.put.endL

theorem State.FormIf.execReduce {x op ty d y} (h : s.FormIf p) : Res.FormIf p (Machine.execReduce x op ty d y s) :=
  h.laneRun fun _ _ _ h1 => h1.put.flagAll.endL

theorem State.FormIf.execPrefixOp {x op excl ty d y} (h : s.FormIf p) : Res.FormIf p (Machine.execPrefixOp x op excl ty d y s) :=
  h.laneRun fun _ _ _ h1 => h1.put.flagAll.endL

theorem State.FormIf.execBrl {x y j} (h : s.FormIf p) : Res.FormIf p (Machine.execBrl x y j s) := by
  unfold Machine.execBrl
  split
  · exact .next h
  · exact .ite h.wordFaultL (.next h.mapG)

theorem State.FormIf.execJoin {w} (h : s.FormIf p) : Res.FormIf p (Machine.execJoin w s) := by
  unfold Machine.execJoin
  split
  · exact .next h
  · split <;> exact .next h.mapG

theorem State.FormIf.execLend {w} (h : s.FormIf p) : Res.FormIf p (Machine.execLend w s) := by
  unfold Machine.execLend
  split
  · exact .next h
  · exact .next h.mapG

theorem State.FormIf.execKill {x} (h : s.FormIf p) : Res.FormIf p (Machine.execKill x s) := h.laneRun fun _ _ _ h1 => .next h1.mapG

theorem State.FormIf.execLtrap {x code} (h : s.FormIf p) : Res.FormIf p (Machine.execLtrap x code s) :=
  h.laneRun fun _ _ _ h1 => .ite h1.endL (.next h1.takeFault)

theorem State.FormIf.execNop {w} (h : s.FormIf p) : Res.FormIf p (Machine.execNop w s) := .next h.endC

theorem State.FormIf.execSleep {w x} (h : s.FormIf p) : Res.FormIf p (Machine.execSleep w x s) :=
  .ite (.next h.endC) (.next h.mapG.parkC)

theorem State.FormIf.execClock {w d x} (h : s.FormIf p) : Res.FormIf p (Machine.execClock w d x s) := .next h.mapG.endC

theorem State.FormIf.execQuery {w d x} (h : s.FormIf p) : Res.FormIf p (Machine.execQuery w d x s) := .next h.mapG.endC

theorem State.FormIf.execMovsr {w d i} (h : s.FormIf p) : Res.FormIf p (Machine.execMovsr w d i s) := by
  unfold Machine.execMovsr
  split
  · exact h.illegalC
  · exact .next h.mapG.endC

theorem State.FormIf.execMovsw {w x i} (h : s.FormIf p) : Res.FormIf p (Machine.execMovsw w x i s) := by
  unfold Machine.execMovsw
  split
  · exact h.illegalC
  next e => exact .next (State.FormIf.of_opt e h.writeSpecial).endC

theorem State.FormIf.execPcntRd {w x n} (h : s.FormIf p) : Res.FormIf p (Machine.execPcntRd w x n s) :=
  .ite (.next h.mapG.endC) h.illegalC

theorem State.FormIf.execPcntWr {w x n} (h : s.FormIf p) : Res.FormIf p (Machine.execPcntWr w x n s) :=
  .ite (.next h.setCtx.endC) h.illegalC

theorem State.FormIf.execPcntSel {w x n} (h : s.FormIf p) : Res.FormIf p (Machine.execPcntSel w x n s) :=
  .ite (.next h.setCtx.endC) h.illegalC

theorem State.FormIf.execLd {x ty o sc d dh m} (h : s.FormIf p) : Res.FormIf p (Machine.execLd x ty o sc d dh m s) := h.laneLoad

theorem State.FormIf.execLdx {x ty o sc d dh x'} (h : s.FormIf p) : Res.FormIf p (Machine.execLdx x ty o sc d dh x' s) := h.laneLoad

theorem State.FormIf.execSt {x ty o sc ch m c} (h : s.FormIf p) : Res.FormIf p (Machine.execSt x ty o sc ch m c s) := h.laneStore

theorem State.FormIf.execStx {x ty o sc ch x' c} (h : s.FormIf p) : Res.FormIf p (Machine.execStx x ty o sc ch x' c s) :=
  h.laneStore

theorem State.FormIf.execAtom {x op ty o sc d m c} (h : s.FormIf p) : Res.FormIf p (Machine.execAtom x op ty o sc d m c s) :=
  h.laneAtom

theorem State.FormIf.execAtomx {x op ty o sc d x' c} (h : s.FormIf p) : Res.FormIf p (Machine.execAtomx x op ty o sc d x' c s) :=
  h.laneAtom

theorem State.FormIf.execRed {x op ty o sc m c} (h : s.FormIf p) : Res.FormIf p (Machine.execRed x op ty o sc m c s) := h.laneAtom

theorem State.FormIf.execLcpy {x sc m b c} (h : s.FormIf p) : Res.FormIf p (Machine.execLcpy x sc m b c s) := by
  unfold Machine.execLcpy
  extract_lets os
  split
  · exact h.illegalL
  refine h.laneMem fun x t _ ht => ?_
  extract_lets ls start
  have hstart : ∀ a l, a.1.FormIf p → (start a l).1.FormIf p := by
    intro a l ha
    unfold start
    split
    next e => exact .of_fst e ha.lcpyLane
    next e => exact (State.FormIf.of_fst e ha.lcpyLane).startCopy
  have hf : (ls.foldl start (t, [])).1.FormIf p := .foldlOn Prod.fst ht hstart
  exact hf.impure.endOr

theorem State.FormIf.execPref {x sc y z disp} (h : s.FormIf p) : Res.FormIf p (Machine.execPref x sc y z disp s) := by
  unfold Machine.execPref
  refine h.laneRun fun c1 s1 hc h1 => ?_
  refine State.FormIf.endL ?_
  refine h1.foldl fun s x h2 => ?_
  split
  next s2 _ _ _ e =>
    have hs2 : s2.FormIf p := .of_fst e h2.placeT
    exact hs2.l1Fill.ite hs2
  · exact h2

theorem State.FormIf.execMovs {x d i} (h : s.FormIf p) : Res.FormIf p (Machine.execMovs x d i s) :=
  .ite h.illegalL (h.laneRun (fun _ _ _ h1 => h1.put.endL))

theorem State.FormIf.execInvocationArrive {cluster} (h : s.FormIf p) : Res.FormIf p (Machine.execInvocationArrive cluster s) := by
  unfold Machine.execInvocationArrive
  extract_lets c
  split
  · exact .next h
  split
  · exact .next h
  extract_lets a c1
  split <;> exact .next h.setCluster

theorem State.FormIf.execGuardWrite {key} (h : s.FormIf p) : Res.FormIf p (Machine.execGuardWrite key s) := .next h.guardCheck

theorem State.FormIf.execApxdef {w x q} (h : s.FormIf p) : Res.FormIf p (Machine.execApxdef w x q s) := by
  unfold Machine.execApxdef
  extract_lets v idx r s1
  have hs1 : s1.FormIf p := h.objAcquire
  split
  · exact h.illegalC
  split
  · exact h.faultC
  split
  · exact hs1.faultC
  split
  · exact hs1.faultC
  extract_lets n
  split
  next e4 => exact (State.FormIf.of_fst e4 (by split; exacts [hs1, hs1.readImage])).faultC
  next e4 => exact .next (State.FormIf.of_fst e4 (by split; exacts [hs1, hs1.readImage])).apxBind.mapG.endC

theorem State.FormIf.execApxkill {w x} (h : s.FormIf p) : Res.FormIf p (Machine.execApxkill w x s) := by
  unfold Machine.execApxkill
  extract_lets v r c s1
  have hs1 : s1.FormIf p := by
    unfold s1
    split
    · exact h
    · exact h.setCluster
  exact .ite h.illegalC (.ite h.faultC (.next hs1.mapG.endC))

theorem State.FormIf.execAttr {x m d i} (h : s.FormIf p) : Res.FormIf p (Machine.execAttr x m d i s) := by
  unfold Machine.execAttr
  split
  · exact h.illegalL
  · exact .ite h.illegalL (h.laneRun (fun _ _ _ h1 => h1.put.endL))

theorem State.FormIf.execDeriv {x y fine d z} (h : s.FormIf p) : Res.FormIf p (Machine.execDeriv x y fine d z s) :=
  .ite h.illegalL (h.laneRun (fun _ _ _ h1 => h1.put.flagAll.endL))

theorem State.FormIf.execTexs {x dim d y z} (h : s.FormIf p) : Res.FormIf p (Machine.execTexs x dim d y z s) := h.laneTex

theorem State.FormIf.execTexl {x dim d y b z} (h : s.FormIf p) : Res.FormIf p (Machine.execTexl x dim d y b z s) := h.laneTex

theorem State.FormIf.execTexg {x dim comp d y z} (h : s.FormIf p) : Res.FormIf p (Machine.execTexg x dim comp d y z s) := h.laneTex

theorem State.FormIf.execTexq {x ext d b y} (h : s.FormIf p) : Res.FormIf p (Machine.execTexq x ext d b y s) := by
  unfold Machine.execTexq
  split
  · exact h.illegalL
  refine h.laneMem fun c1 s1 hc h1 => ?_
  extract_lets s2
  have hs2 : s2.FormIf p := h1.objAcquire
  split
  · exact hs2.endOr
  · exact hs2.put.endL

theorem State.FormIf.execTrace {x any d y b z} (h : s.FormIf p) : Res.FormIf p (Machine.execTrace x any d y b z s) := by
  unfold Machine.execTrace
  split
  · exact h.illegalL
  refine h.laneMem fun c1 s1 hc h1 => ?_
  extract_lets s2
  have hs2 : s2.FormIf p := h1.objAcquire
  split
  · exact hs2.endOr
  · exact hs2.put.flagAll.countEvent.endOr

theorem State.FormIf.execExpc {x bl y n} (h : s.FormIf p) : Res.FormIf p (Machine.execExpc x bl y n s) := by
  unfold Machine.execExpc
  split
  · exact h.illegalL
  · exact .ite h.illegalL (h.laneRun (fun _ _ _ h1 => h1.mapG.endL))

theorem State.FormIf.execExpz {x y} (h : s.FormIf p) : Res.FormIf p (Machine.execExpz x y s) := by
  unfold Machine.execExpz
  split
  · exact h.illegalL
  · exact .ite h.illegalL (h.laneRun (fun _ _ _ h1 => h1.mapG.endL))

theorem State.FormIf.execLds {w d x i} (h : s.FormIf p) : Res.FormIf p (Machine.execLds w d x i s) := h.ldsAt

theorem State.FormIf.execSts {w d x i} (h : s.FormIf p) : Res.FormIf p (Machine.execSts w d x i s) := h.stsAt

theorem State.FormIf.execLdc {w d x i} (h : s.FormIf p) : Res.FormIf p (Machine.execLdc w d x i s) := h.ldcAt

theorem State.FormIf.execTstb {w x b q sp y} (h : s.FormIf p) : Res.FormIf p (Machine.execTstb w x b q sp y s) :=
  .ite (.ite h.faultC (.ite h.faultC (.ite h.tstbWait h.tstbEnd))) (h.loadC (fun _ _ h1 => h1.tstbEnd))

theorem State.FormIf.execAtoms {w a b c op sc} (h : s.FormIf p) : Res.FormIf p (Machine.execAtoms w a b c op sc s) := by
  unfold Machine.execAtoms
  refine h.afterLoads fun t ht => ?_
  extract_lets va x y
  split
  next e => exact (State.FormIf.of_fst e ht.xlate).faultC
  next e => exact (State.FormIf.of_fst e ht.xlate).waitLogC
  next t1 _ _ e =>
    have h1 : t1.FormIf p := .of_fst e ht.xlate
    split
    · exact h1.faultC
    split
    · exact h1.faultC
    dsimp only
    exact .next h1.atomicBytes.resultC.endC

theorem State.FormIf.execLimm {i} (h : s.FormIf p) : Res.FormIf p (Machine.execLimm i s) := by
  unfold Machine.execLimm
  split
  next e => exact (State.FormIf.of_fetched e h.fetchC).faultC
  next t _ e =>
    have ht : t.FormIf p := .of_fetched e h.fetchC
    split
    · exact ht.illegalC
    next f _ =>
      cases e1 : Machine.limmPair i f t with
      | none => exact ht.illegalC
      | some r => exact ht.limmPair e1

theorem State.FormIf.execLrun {w x i} (h : s.FormIf p) : Res.FormIf p (Machine.execLrun w x i s) :=
  .ite (.next h.parkC) (.next h.mapG.endC)

theorem State.FormIf.execLwait {w} (h : s.FormIf p) : Res.FormIf p (Machine.execLwait w s) := .ite (.next h.endC) (.next h.parkC)

theorem State.FormIf.execBlockStart (h : s.FormIf p) : Res.FormIf p (Machine.execBlockStart s) := by
  unfold Machine.execBlockStart
  split
  · exact .next h.mapG
  · exact .next h

theorem State.FormIf.execFence {w sc k} (h : s.FormIf p) : Res.FormIf p (Machine.execFence w sc k s) :=
  h.afterLoads fun _ h1 => .next h1.fence.endC

theorem State.FormIf.execTeambar {w} (h : s.FormIf p) : Res.FormIf p (Machine.execTeambar w s) :=
  .ite h.illegalC (.ite (.next (h.arriveAt (fun _ h1 => h1)).endC) (.next (h.arriveAt (fun _ h1 => h1))))

theorem State.FormIf.execGridbar {w} (h : s.FormIf p) : Res.FormIf p (Machine.execGridbar w s) :=
  .ite h.illegalC (.ite (.next (h.arriveAt (fun _ h1 => h1.fence)).fence.endC) (.next (h.arriveAt (fun _ h1 => h1.fence))))

theorem State.FormIf.execTbind {w x b c} (h : s.FormIf p) : Res.FormIf p (Machine.execTbind w x b c s) := by
  unfold Machine.execTbind
  extract_lets base want s1
  have hs1 : s1.FormIf p := h.countEvent.ite h
  split
  · exact h.illegalC
  split
  · exact hs1.faultC
  · exact .next hs1.mapG.endC

theorem State.FormIf.execTdrop {w x} (h : s.FormIf p) : Res.FormIf p (Machine.execTdrop w x s) := .next h.mapG.endC

theorem State.FormIf.execObjld {w x b} (h : s.FormIf p) : Res.FormIf p (Machine.execObjld w x b s) := by
  unfold Machine.execObjld
  extract_lets v s1
  have hs1 : s1.FormIf p := h.objAcquire
  split
  · exact h.illegalC
  split
  · exact (hs1.ite hs1.countEvent).faultC
  · exact .next hs1.countEvent.mapG.endC

theorem State.FormIf.execHeapadd {w x b wait q} (h : s.FormIf p) : Res.FormIf p (Machine.execHeapadd w x b wait q s) :=
  h.afterLoads fun _ h1 => .ite h1.heapServe.heapAdded (.ite h1.heapServe.scopeWriteBack.heapPut.heapServe.heapAdded
    (.ite (.next h1.heapServe.scopeWriteBack.parkC.mapG) (.next h1.heapServe.mapG.endC)))

theorem State.FormIf.execHeaptake {w x b wait q} (h : s.FormIf p) : Res.FormIf p (Machine.execHeaptake w x b wait q s) := by
  unfold Machine.execHeaptake
  extract_lets s1
  have hs1 : s1.FormIf p := h.heapServe
  split
  · exact hs1.heapTaken
  · exact hs1.heapDrop.heapServe.heapTaken
  · exact .ite (.next hs1.parkC) (.next hs1.mapG.endC)

theorem State.FormIf.execLongLatencyReturn {k} (h : s.FormIf p) : Res.FormIf p (Machine.execLongLatencyReturn k s) := by
  unfold Machine.execLongLatencyReturn
  split
  · exact .next h
  split
  · exact .next h
  split
  · exact .next h.returnRecv
  · exact .next h.returnTest
  · exact .next h.landResult

theorem State.FormIf.execHandlerEntry (h : s.FormIf p) : Res.FormIf p (Machine.execHandlerEntry s) :=
  .ite (.next h.takeEngineFault) (.next h)

theorem State.FormIf.execSleepExpire (h : s.FormIf p) : Res.FormIf p (Machine.execSleepExpire s) := .ite (.next h.mapG) (.next h)

theorem State.FormIf.execExit {w} (h : s.FormIf p) : Res.FormIf p (Machine.execExit w s) := .ite h.illegalC h.exitGroup

theorem State.FormIf.execExitto {w x b} (h : s.FormIf p) : Res.FormIf p (Machine.execExitto w x b s) :=
  .ite h.illegalC (.ite h.faultC h.mapG.exitGroup)

theorem State.FormIf.execGroupEnd (h : s.FormIf p) : Res.FormIf p (Machine.execGroupEnd s) :=
  .ite (.next (h.takeEngineFault.ite h.endGroup)) (.next h)

theorem State.FormIf.execCopyUnitArrive {copy} (h : s.FormIf p) : Res.FormIf p (Machine.execCopyUnitArrive copy s) := by
  unfold Machine.execCopyUnitArrive
  split
  · exact .next h
  · exact .ite (.next h) (.next h.copyAdvance.reapTeam.settleRedir)

theorem State.FormIf.execCopyPageFault {copy} (h : s.FormIf p) : Res.FormIf p (Machine.execCopyPageFault copy s) := by
  unfold Machine.execCopyPageFault
  split
  · exact .next h
  split
  · exact .next h
  split
  next e2 => exact .next (State.FormIf.of_copyUnit e2 h.copyUnit).stopCopy.settleRedir
  · exact .next h

theorem State.FormIf.execSuccessorStart (h : s.FormIf p) : Res.FormIf p (Machine.execSuccessorStart s) := by
  unfold Machine.execSuccessorStart
  extract_lets t rel
  split
  · exact .next h
  split
  · exact .next h
  split
  next e3 => exact .next (State.FormIf.of_fst e3 h.engReadN).chainFault
  next s1 _ e2 =>
    have hs1 : s1.FormIf p := .of_fst e2 h.engReadN
    extract_lets ws
    split
    next e4 => exact .next (State.FormIf.of_fst e4 hs1.engReadN).chainFault
    next s2 _ e3 =>
      have hs2 : s2.FormIf p := .of_fst e3 hs1.engReadN
      exact .ite (.next hs2.chainFault) (.ite (.next hs2) (.next hs2.placeSuccessor))

theorem State.FormIf.execMfmt {w x} (h : s.FormIf p) : Res.FormIf p (Machine.execMfmt w x s) :=
  .ite h.illegalC (.ite (.next h.mapG.endC) h.faultC)

theorem State.FormIf.execMloop {w x b c} (h : s.FormIf p) : Res.FormIf p (Machine.execMloop w x b c s) := by
  unfold Machine.execMloop
  extract_lets run ctl bar n tix asp __src
  split
  · exact h.illegalC
  split
  · exact h.faultC
  split
  · exact h.faultC
  · exact h.matEnter

theorem State.FormIf.execMconv {w x b c} (h : s.FormIf p) : Res.FormIf p (Machine.execMconv w x b c s) := by
  unfold Machine.execMconv
  extract_lets run ctl bar n idx r3 K s1 __src
  have hs1 : s1.FormIf p := h.objAcquire
  split
  · exact h.illegalC
  split
  · exact h.faultC
  split
  · exact h.faultC
  split
  · exact hs1.faultC
  · exact .ite hs1.faultC hs1.matEnter

theorem State.FormIf.execMstore {w x b c} (h : s.FormIf p) : Res.FormIf p (Machine.execMstore w x b c s) := by
  unfold Machine.execMstore
  extract_lets lo hi ctl bar n T
  split
  · exact h.illegalC
  split
  · exact h.faultC
  split
  · exact h.faultC
  split
  · exact h.faultC
  · exact h.matEnter

theorem State.FormIf.execMzero {w n} (h : s.FormIf p) : Res.FormIf p (Machine.execMzero w n s) := .ite h.illegalC h.matEnter

theorem State.FormIf.execMstat {w x n} (h : s.FormIf p) : Res.FormIf p (Machine.execMstat w x n s) :=
  .ite h.illegalC (h.matRun (fun _ _ h1 => .ite (.next h.parkC) (.next h1.mapG.endC)))

theorem State.FormIf.execMatrixStep {cluster bank} (h : s.FormIf p) : Res.FormIf p (Machine.execMatrixStep cluster bank s) := by
  unfold Machine.execMatrixStep
  extract_lets c
  split
  · exact .next h
  split
  · exact .next h
  · exact .ite (.next h.update.loopStep) (.next h)

theorem State.FormIf.execMzeroRun {cluster bank} (h : s.FormIf p) : Res.FormIf p (Machine.execMzeroRun cluster bank s) := by
  unfold Machine.execMzeroRun
  extract_lets c
  split
  · exact .next h
  · exact .ite (.next h.setCluster.reapTeam) (.next h)

theorem State.FormIf.execMstoreRun {cluster bank} (h : s.FormIf p) : Res.FormIf p (Machine.execMstoreRun cluster bank s) := by
  unfold Machine.execMstoreRun
  extract_lets c
  split
  · exact .next h
  split
  · exact .next h
  split
  · extract_lets sl
    split
    next e3 => exact .next (State.FormIf.of_storeEnd e3 h.update.writeTile).setCluster.engineCount.chargeLease.reapTeam
    next s1 _ _ _ e3 =>
      have hs1 : s1.FormIf p := .of_storeEnd e3 h.update.writeTile
      exact .next ((hs1.ite hs1.engineCount).setCluster.ite (hs1.ite hs1.engineCount).setCluster.stopCmd)
  · exact .next h

theorem State.FormIf.execSproj {w x b} (h : s.FormIf p) : Res.FormIf p (Machine.execSproj w x b s) := h.splatIssue

theorem State.FormIf.execSbin {w x b} (h : s.FormIf p) : Res.FormIf p (Machine.execSbin w x b s) := h.splatIssue

theorem State.FormIf.execSblend {w x b} (h : s.FormIf p) : Res.FormIf p (Machine.execSblend w x b s) := h.splatIssue

theorem State.FormIf.execSgrad {w x b} (h : s.FormIf p) : Res.FormIf p (Machine.execSgrad w x b s) := h.splatIssue

theorem State.FormIf.execSplatCommandStart {team} (h : s.FormIf p) : Res.FormIf p (Machine.execSplatCommandStart team s) := by
  unfold Machine.execSplatCommandStart
  split
  · exact .next h
  · exact .next (h.ite h.update.splatStart)

theorem State.FormIf.execSprojGranule {team} (h : s.FormIf p) : Res.FormIf p (Machine.execSprojGranule team s) := h.granuleEvent

theorem State.FormIf.execSbinGranule {team} (h : s.FormIf p) : Res.FormIf p (Machine.execSbinGranule team s) := h.granuleEvent

theorem State.FormIf.execSblendTile {team} (h : s.FormIf p) : Res.FormIf p (Machine.execSblendTile team s) := h.granuleEvent

theorem State.FormIf.execSgradTile {team} (h : s.FormIf p) : Res.FormIf p (Machine.execSgradTile team s) := h.granuleEvent

theorem State.FormIf.execSplatGranuleFault {team} (h : s.FormIf p) : Res.FormIf p (Machine.execSplatGranuleFault team s) := by
  unfold Machine.execSplatGranuleFault
  split
  · exact .next h
  split
  · exact .next h
  split
  next e2 => exact .next (State.FormIf.of_granule e2 h.update.granuleOf).splatFault
  · exact .next h

theorem State.FormIf.execEncsub {w x b} (h : s.FormIf p) : Res.FormIf p (Machine.execEncsub w x b s) := by
  unfold Machine.execEncsub
  extract_lets run base f bar idx s1 c
  have hs1 : s1.FormIf p := h.objAcquire
  split
  · exact h.illegalC
  split
  · exact h.faultC
  split
  · exact h.faultC
  split
  · exact hs1.faultC
  split
  · exact .next hs1.parkC
  split
  · exact .next hs1.parkC
  split
  · exact hs1.faultC
  · exact .next (hs1.setSlice.update.ite hs1.setSlice.update.noteFlip.setBar).endC

theorem State.FormIf.execTileRowRead {slice} (h : s.FormIf p) : Res.FormIf p (Machine.execTileRowRead slice s) := by
  unfold Machine.execTileRowRead
  extract_lets c
  split
  · exact .next h
  split
  · exact .next h
  split
  next e3 => exact .next (State.FormIf.of_fst e3 h.readParts).stopSession
  next s1 _ e2 =>
    have hs1 : s1.FormIf p := .of_fst e2 h.readParts
    extract_lets __src s2
    have hs2 : s2.FormIf p := hs1.setSlice
    refine .next ?_
    split
    · exact hs2.reapTeam
    · exact hs2

theorem State.FormIf.execEncodeFrameDone {slice} (h : s.FormIf p) : Res.FormIf p (Machine.execEncodeFrameDone slice s) := by
  unfold Machine.execEncodeFrameDone
  extract_lets t c
  have ht : t.FormIf p := h.update
  split
  · exact .next ht
  next b _ _ =>
  split
  · refine .next ?_
    cases holdSession c b.ctx b.idx t.nextId with
    | none => exact ht
    | some c => exact ht.ite ht.setSlice
  split
  · exact .next ht
  split
  next e => exact .next (State.FormIf.of_fst e ht.engReadN).stopSession
  next e => exact .next (State.FormIf.of_fst e ht.engReadN).appendFrame

theorem State.FormIf.execHaltSoft {w x q} (h : s.FormIf p) : Res.FormIf p (Machine.execHaltSoft w x q s) := h.haltRun

theorem State.FormIf.execHaltHard {w x q} (h : s.FormIf p) : Res.FormIf p (Machine.execHaltHard w x q s) := h.haltRun

theorem State.FormIf.execCtxsave {w x b q} (h : s.FormIf p) : Res.FormIf p (Machine.execCtxsave w x b q s) := by
  unfold Machine.execCtxsave
  extract_lets pa
  split
  · exact h.illegalC
  split
  · split
    · exact h.endQ
    · exact .ite h.faultC (.ite h.endQ (.ite (.next h.parkC) h.saveTeam.endQ))
  · exact h.endQ

theorem State.FormIf.execCtxload {w x b q} (h : s.FormIf p) : Res.FormIf p (Machine.execCtxload w x b q s) := by
  unfold Machine.execCtxload
  extract_lets pa key ctx
  split
  · exact h.illegalC
  split
  · exact .ite h.faultC (.ite (.next h.parkC) (.ite h.refuseRecord.endQ (.ite h.restoreTeam.endQ h.endQ)))
  · exact h.endQ

theorem State.FormIf.execFreezeFreeze {w x q} (h : s.FormIf p) : Res.FormIf p (Machine.execFreezeFreeze w x q s) :=
  h.freezeRun (fun _ _ h1 => h1.freezeTeam) fun _ _ h1 => h1.freezeEngine

theorem State.FormIf.execFreezeThaw {w x q} (h : s.FormIf p) : Res.FormIf p (Machine.execFreezeThaw w x q s) :=
  h.freezeRun (fun _ _ h1 => h1.thawTeam) fun _ _ h1 => h1.freezeEngine

theorem State.FormIf.execFreezeReset {w x q} (h : s.FormIf p) : Res.FormIf p (Machine.execFreezeReset w x q s) :=
  h.freezeRun (fun _ _ h1 => h1.resetTeam) fun _ _ h1 => h1.resetEngine

theorem State.FormIf.execYield {w} (h : s.FormIf p) : Res.FormIf p (Machine.execYield w s) :=
  .ite (.next h.endC.ladderHalt.ladderSave) (.next h.endC.mapG)

theorem State.FormIf.execGraceExpire {team} (h : s.FormIf p) : Res.FormIf p (Machine.execGraceExpire team s) := by
  unfold Machine.execGraceExpire
  extract_lets s1 s2
  have hs1 : s1.FormIf p := h.pollSoft
  have hs2 : s2.FormIf p := hs1.ladderHalt.mapTeams
  split
  · exact .next hs1
  split
  · exact .next hs1
  · exact .ite (.next hs1) (.next hs2.ladderSave)

theorem State.FormIf.execKillExpire {team} (h : s.FormIf p) : Res.FormIf p (Machine.execKillExpire team s) := by
  unfold Machine.execKillExpire
  split
  · exact .next h
  split
  · exact .next h
  · exact .ite (.next h) (.ite (.next h.ladderSave) (.next h.ladderSave.resetContext.escalate))

theorem State.FormIf.execWatchdogExpire {team} (h : s.FormIf p) : Res.FormIf p (Machine.execWatchdogExpire team s) := by
  unfold Machine.execWatchdogExpire
  split
  · exact .next h
  · exact .ite (.next h) (.next h.resetGridOf.escalate)

theorem State.FormIf.execRett {w} (h : s.FormIf p) : Res.FormIf p (Machine.execRett w s) :=
  .ite h.illegalC (.ite (.next h.parkC) (.next (h.fence.resumeCommand.ite h.fence).mapG))

theorem State.FormIf.execCardAdmit {slice queue} (h : s.FormIf p) : Res.FormIf p (Machine.execCardAdmit slice queue s) := by
  unfold Machine.execCardAdmit
  extract_lets q ctx
  split
  · exact .next h
  split
  next s1 e1 =>
    have hs1 : s1.FormIf p := .of_fst e1 h.claimOf
    exact .next hs1
  next s1 _ e1 =>
    have hs1 : s1.FormIf p := .of_fst e1 h.claimOf
    split
    next s2 e2 =>
      have hs2 : s2.FormIf p := .of_fst e2 hs1.chainOf
      exact .next hs2
    next e2 => exact .next (State.FormIf.of_fst e2 hs1.chainOf).setQueueOf.update

theorem State.FormIf.execCardStart {card} (h : s.FormIf p) : Res.FormIf p (Machine.execCardStart card s) := by
  unfold Machine.execCardStart
  split
  · exact .next h
  split
  next s1 e1 =>
    have hs1 : s1.FormIf p := .of_started e1 h.update.mapCard.startCard
    exact .next hs1
  next s1 _ e1 =>
    have hs1 : s1.FormIf p := .of_started e1 h.update.mapCard.startCard
    exact .next (hs1.completeCard.ite hs1.mapCard)
  next e1 => exact .next (State.FormIf.of_started e1 h.update.mapCard.startCard).mapCard

theorem State.FormIf.execCardComplete {card} (h : s.FormIf p) : Res.FormIf p (Machine.execCardComplete card s) := by
  unfold Machine.execCardComplete
  extract_lets s1
  have hs1 : s1.FormIf p := h.commitTeams.settleCopyCard
  split
  · exact .next hs1
  split
  · exact .next hs1
  · exact .next hs1.completeCard

theorem State.FormIf.execCpyq {w a b c} (h : s.FormIf p) : Res.FormIf p (Machine.execCpyq w a b c s) := by
  unfold Machine.execCpyq
  extract_lets x
  split
  · exact h.illegalC
  split
  · exact h.faultC
  split
  · exact h.cpyqClaimed
  split
  next e => exact (State.FormIf.of_fst e h.xlate).faultC
  next e => exact .next (State.FormIf.of_fst e h.xlate).parkC
  next t _ _ e =>
    have ht : t.FormIf p := .of_fst e h.xlate
    split
    · exact ht.faultC
    dsimp only
    exact ht.atomicBytes.mapG.cpyqClaimed

theorem State.FormIf.execStarveExpire {slice queue} (h : s.FormIf p) : Res.FormIf p (Machine.execStarveExpire slice queue s) := by
  unfold Machine.execStarveExpire
  extract_lets s1 q
  have hs1 : s1.FormIf p := h.refreshWaits
  split
  · exact .next hs1
  · exact .ite (.next hs1) (.next hs1.setQueueOf)

theorem State.FormIf.execDispatchTeam {vf} (h : s.FormIf p) : Res.FormIf p (Machine.execDispatchTeam vf s) :=
  .ite (.next h.settleLeases.pollSoft) (.next h.settleLeases.pollSoft.dispatch)

theorem State.FormIf.execFragmentGroupLaunch {card} (h : s.FormIf p) : Res.FormIf p (Machine.execFragmentGroupLaunch card s) := by
  unfold Machine.execFragmentGroupLaunch
  split
  · exact .next h
  split
  · exact .next h
  split
  · exact .next h
  split
  · exact .next h.makeFrag.fitDraw
  split
  next e4 => exact .next ((State.FormIf.of_fst e4 h.dispatch).ite h)
  · exact .next h

theorem State.FormIf.execVsync {vf} (h : s.FormIf p) : Res.FormIf p (Machine.execVsync vf s) :=
  .ite (.next h) (.next ((h.ite h.setVf).foldl (fun _ _ h1 => h1.foldl (fun _ _ h2 => h2.ite h2.setQueueOf))))

theorem State.FormIf.execIssueAgeLimit (h : s.FormIf p) : Res.FormIf p (Machine.execIssueAgeLimit s) := by
  unfold Machine.execIssueAgeLimit
  split
  · exact .next h
  · exact .next h.update

theorem State.FormIf.execLogRetry {vf} (h : s.FormIf p) : Res.FormIf p (Machine.execLogRetry vf s) :=
  .ite (.next h) (.next h.setVf.payOwed.update)

theorem State.FormIf.execPoolRefill {ctx frame} (h : s.FormIf p) : Res.FormIf p (Machine.execPoolRefill ctx frame s) := by
  unfold Machine.execPoolRefill
  extract_lets pool f
  split
  · exact .next h
  split
  next s1 e1 =>
    have hs1 : s1.FormIf p := .of_fst e1 h.poolKey
    exact .next hs1
  next s1 _ e1 =>
    have hs1 : s1.FormIf p := .of_fst e1 h.poolKey
    extract_lets head tail p1
    split
    · exact .next hs1
    split
    next s2 e3 =>
      have hs2 : s2.FormIf p := .of_fst e3 hs1.poolKey
      exact .next hs2
    next s2 _ e3 =>
      have hs2 : s2.FormIf p := .of_fst e3 hs1.poolKey
      split
      next s3 e4 =>
        have hs3 : s3.FormIf p := .of_fst e4 hs2.poolKey
        exact .next hs3
      next e4 => exact .next (State.FormIf.of_fst e4 hs2.poolKey).zeroRange.memWriteNat.memWriteNat

theorem State.FormIf.execMailboxRegisterWrite {fn off v} (h : s.FormIf p) :
    Res.FormIf p (Machine.execMailboxRegisterWrite fn off v s) :=
  .ite (.next h) (.ite (.next (h.freezeVf.ite h)) (.ite (.next h.setMbox) (.ite (.next h.setMbox) (.ite (.next h.setMbox)
    (.ite (.next h.setMbox) (.ite (.ite (.next h.setMbox.refuseCmd) (.next h.setMbox)) (.next h)))))))

theorem State.FormIf.execQdesc {fn} (h : s.FormIf p) : Res.FormIf p (Machine.execQdesc fn s) := by
  unfold Machine.execQdesc
  refine h.vfCmd fun s1 h1 => ?_
  extract_lets rel qi sl old
  split
  · exact h1
  · exact h1.captureQueue

theorem State.FormIf.execQreset {fn} (h : s.FormIf p) : Res.FormIf p (Machine.execQreset fn s) := by
  unfold Machine.execQreset
  refine h.vfCmd fun s1 h1 => ?_
  extract_lets rel qi
  split
  · exact h1
  · exact h1.resetQueue

theorem State.FormIf.execXblock {fn} (h : s.FormIf p) : Res.FormIf p (Machine.execXblock fn s) := by
  unfold Machine.execXblock
  refine h.vfCmd fun s1 h1 => ?_
  extract_lets ctx x __src
  split
  · exact h1
  · exact h1.setCtx.refreshWindow

theorem State.FormIf.execSblock {fn} (h : s.FormIf p) : Res.FormIf p (Machine.execSblock fn s) := by
  unfold Machine.execSblock
  refine h.vfCmd fun s1 h1 => ?_
  extract_lets ctx b __src
  split
  · exact h1
  · exact h1.setCtx

theorem State.FormIf.execShoot {fn} (h : s.FormIf p) : Res.FormIf p (Machine.execShoot fn s) := by
  unfold Machine.execShoot
  refine h.vfCmd fun s1 h1 => ?_
  extract_lets ctx
  split
  · exact h1
  · exact h1.shootDown

theorem State.FormIf.execDirtylog {fn} (h : s.FormIf p) : Res.FormIf p (Machine.execDirtylog fn s) := by
  unfold Machine.execDirtylog
  refine h.pfCmd fun s1 h1 => ?_
  extract_lets v h2 __src
  split
  · exact h1
  · exact h1.setVf

theorem State.FormIf.execQuota {fn} (h : s.FormIf p) : Res.FormIf p (Machine.execQuota fn s) := by
  unfold Machine.execQuota
  refine h.vfCmd fun s1 h1 => ?_
  extract_lets ctx q others __src
  split
  · exact h1
  · exact h1.setCtx

theorem State.FormIf.execIntf {fn} (h : s.FormIf p) : Res.FormIf p (Machine.execIntf fn s) := by
  unfold Machine.execIntf
  refine h.vfCmd fun s1 h1 => ?_
  extract_lets ctx p1 s2
  have hs2 : s2.FormIf p := h1
  split
  · exact h1
  · exact hs2.ite hs2.setCtx

theorem State.FormIf.execWays {fn} (h : s.FormIf p) : Res.FormIf p (Machine.execWays fn s) := by
  unfold Machine.execWays
  refine h.vfCmd fun s1 h1 => ?_
  extract_lets ctx rel m x
  split
  · exact h1
  · exact h1.setCtx

theorem State.FormIf.execZero {fn} (h : s.FormIf p) : Res.FormIf p (Machine.execZero fn s) := by
  unfold Machine.execZero
  refine h.vfCmd fun s1 h1 => ?_
  extract_lets b n
  split
  · exact h1
  · exact h1.zeroRange

theorem State.FormIf.execZeroingDone {slice} (h : s.FormIf p) : Res.FormIf p (Machine.execZeroingDone slice s) :=
  .ite (.next h.setSlice) (.next h)

theorem State.FormIf.execLease {fn} (h : s.FormIf p) : Res.FormIf p (Machine.execLease fn s) := by
  unfold Machine.execLease
  refine h.pfCmd fun s1 h1 => ?_
  extract_lets stage
  split
  · exact h1.beginLease
  · exact h1.goLease

theorem State.FormIf.execRevoke {fn} (h : s.FormIf p) : Res.FormIf p (Machine.execRevoke fn s) := by
  unfold Machine.execRevoke
  refine h.pfCmd fun s1 h1 => ?_
  extract_lets i
  split
  · exact h1
  extract_lets s2
  have hs2 : s2.FormIf p := (h1.ite h1.mapLease).settleLease
  split
  · exact hs2
  · exact hs2.setStage

theorem State.FormIf.execPmake {fn} (h : s.FormIf p) : Res.FormIf p (Machine.execPmake fn s) := by
  unfold Machine.execPmake
  refine h.pfCmd fun s1 h1 => ?_
  extract_lets vf first j slices coll comp s2
  have hs2 : s2.FormIf p := h1.foldl fun _ _ h2 => h2.setSlice.selectFirst
  split
  · exact h1
  split
  · exact h1
  · exact hs2.setVf

theorem State.FormIf.execPfree {fn} (h : s.FormIf p) : Res.FormIf p (Machine.execPfree fn s) := by
  unfold Machine.execPfree
  refine h.pfCmd fun s1 h1 => ?_
  extract_lets vf wait
  have hwait : ∀ s, s.FormIf p → (wait s).state.FormIf p := by
    intro s2 h2
    unfold wait
    split
    · exact h2.setStage
    · exact h2
  split
  · exact hwait _ h1
  split
  · exact h1
  · exact hwait _ h1.freePartition

theorem State.FormIf.execFuse {fn} (h : s.FormIf p) : Res.FormIf p (Machine.execFuse fn s) := by
  unfold Machine.execFuse
  refine h.pfCmd fun s1 h1 => ?_
  extract_lets vf first j v added old s2 __src s3
  have hs2 : s2.FormIf p := h1.foldl fun _ _ h2 => h2.setSlice.selectFirst
  have hs3 : s3.FormIf p := hs2.setVf
  split
  · exact h1
  split
  · exact h1
  split
  · exact h1
  · exact hs3.renumber

theorem State.FormIf.execSplit {fn} (h : s.FormIf p) : Res.FormIf p (Machine.execSplit fn s) := by
  unfold Machine.execSplit
  refine h.pfCmd fun s1 h1 => ?_
  extract_lets vf first j v gone s2 __src
  have hs2 : s2.FormIf p := h1.foldl fun _ _ h2 => h2.setSlice
  split
  · split
    · exact h1
    split
    · exact h1
    · exact hs2.setVf.setStage
  · exact h1.drainSplit
  split
  · exact h1
  · exact h1.endSplit

theorem State.FormIf.execEngines {fn} (h : s.FormIf p) : Res.FormIf p (Machine.execEngines fn s) := by
  unfold Machine.execEngines
  refine h.pfCmd fun s1 h1 => ?_
  extract_lets vf v coll comp gone
  split
  · exact h1
  split
  · exact h1
  split
  · exact h1
  · exact h1.setVf

theorem State.FormIf.execBwclass {fn} (h : s.FormIf p) : Res.FormIf p (Machine.execBwclass fn s) := by
  unfold Machine.execBwclass
  refine h.pfCmd fun s1 h1 => ?_
  extract_lets vf ctx w target all __src
  split
  · exact h1
  · exact h1.setCtx

theorem State.FormIf.execBwWindowEnd {slice p99} (h : s.FormIf p) : Res.FormIf p (Machine.execBwWindowEnd slice p99 s) :=
  .ite (.next h) (.ite (.next h.setSlice) (.next ((h.setSlice.foldl (fun _ _ h1 => h1.setCtx)).ite h.setSlice)))

theorem State.FormIf.execThrottlePeriod {slice} (h : s.FormIf p) : Res.FormIf p (Machine.execThrottlePeriod slice s) :=
  .next h.setSlice

theorem State.FormIf.execSnoopParityError {set} (h : s.FormIf p) : Res.FormIf p (Machine.execSnoopParityError set s) :=
  .next (h.foldl (fun _ _ h1 => h1.performDirty.setL1)).update

theorem State.FormIf.execFwstage {fn} (h : s.FormIf p) : Res.FormIf p (Machine.execFwstage fn s) := by
  unfold Machine.execFwstage
  refine h.pfCmd fun s1 h1 => ?_
  extract_lets target slot img ok
  split
  · exact h1
  split
  · exact h1
  · exact h1.setFw

theorem State.FormIf.execFwupdate {fn} (h : s.FormIf p) : Res.FormIf p (Machine.execFwupdate fn s) := by
  unfold Machine.execFwupdate
  refine h.pfCmd fun s1 h1 => ?_
  extract_lets mask
  split
  · split
    · exact h1
    · exact h1.nextUpdate
  extract_lets f
  split
  · exact h1
  · exact h1.setFw
  · exact h1.setFw.nextUpdate

theorem State.FormIf.execFwHeartbeat {slice} (h : s.FormIf p) : Res.FormIf p (Machine.execFwHeartbeat slice s) :=
  .ite (.next h.setFw) (.next h)

theorem State.FormIf.execFwHeartbeatTimeout {slice} (h : s.FormIf p) : Res.FormIf p (Machine.execFwHeartbeatTimeout slice s) :=
  .next (h.ite h.rollback)

theorem State.FormIf.execSreset {fn} (h : s.FormIf p) : Res.FormIf p (Machine.execSreset fn s) := by
  unfold Machine.execSreset
  refine h.pfCmd fun s1 h1 => ?_
  extract_lets sl
  split
  · exact h1
  · exact h1.resetSliceFw

theorem State.FormIf.execSliceControllerFault {slice code} (h : s.FormIf p) :
    Res.FormIf p (Machine.execSliceControllerFault slice code s) :=
  .next h.resetSliceFw

theorem State.FormIf.execDeviceManagerFault (h : s.FormIf p) : Res.FormIf p (Machine.execDeviceManagerFault s) :=
  .next h.restartCore.setFw.update

theorem State.FormIf.execPowerLoss (h : s.FormIf p) : Res.FormIf p (Machine.execPowerLoss s) := .next h.powerDown

theorem State.FormIf.execPowerOn (h : s.FormIf p) : Res.FormIf p (Machine.execPowerOn s) :=
  .ite (.next h) (.ite (.next h.powerDown.update) (.next (h.powerDown.update.foldl (fun _ _ h1 => h1.setFw)).update))

theorem State.FormIf.execPowerCapAdjust {mhz} (h : s.FormIf p) : Res.FormIf p (Machine.execPowerCapAdjust mhz s) := .next h.update

theorem State.FormIf.execReport {fn} (h : s.FormIf p) : Res.FormIf p (Machine.execReport fn s) := by
  unfold Machine.execReport
  refine h.pfCmd fun s1 h1 => ?_
  extract_lets a s2
  have hs2 : s2.FormIf p := h1
  split
  · exact h1
  · exact hs2.memWrite

theorem State.FormIf.execGetVersion (h : s.FormIf p) : Res.FormIf p (Machine.execGetVersion s) := h.spdmAnswer

theorem State.FormIf.execGetCapabilities (h : s.FormIf p) : Res.FormIf p (Machine.execGetCapabilities s) := h.spdmAnswer

theorem State.FormIf.execNegotiateAlgorithms (h : s.FormIf p) : Res.FormIf p (Machine.execNegotiateAlgorithms s) := h.spdmAnswer

theorem State.FormIf.execGetDigests (h : s.FormIf p) : Res.FormIf p (Machine.execGetDigests s) := h.spdmAnswer

theorem State.FormIf.execGetCertificate (h : s.FormIf p) : Res.FormIf p (Machine.execGetCertificate s) := h.spdmAnswer

theorem State.FormIf.execChallenge (h : s.FormIf p) : Res.FormIf p (Machine.execChallenge s) := h.spdmAnswer

theorem State.FormIf.execGetMeasurements {index} (h : s.FormIf p) : Res.FormIf p (Machine.execGetMeasurements index s) :=
  .ite (.next h.update) (.ite (.next h.update) h.spdmAnswer)

theorem State.FormIf.execKeyExchange (h : s.FormIf p) : Res.FormIf p (Machine.execKeyExchange s) := h.spdmAnswer

theorem State.FormIf.execFinish (h : s.FormIf p) : Res.FormIf p (Machine.execFinish s) := h.spdmAnswer

theorem State.FormIf.execHostMemAccess {vf pasid addr req} (h : s.FormIf p) :
    Res.FormIf p (Machine.execHostMemAccess vf pasid addr req s) := by
  unfold Machine.execHostMemAccess
  split
  · exact .next h.refuse
  split
  · exact .next h.serve
  split
  · exact .next h.refuse
  · exact .ite (.next h.servePart) (.ite (.next h.freezeVf.refuse) (.next h.refuse))

theorem State.FormIf.execHostAtomic {vf addr req} (h : s.FormIf p) : Res.FormIf p (Machine.execHostAtomic vf addr req s) :=
  .ite (.next h.servePart) (.next h.refuse)

theorem State.FormIf.execHostUnsupportedRequest (h : s.FormIf p) : Res.FormIf p (Machine.execHostUnsupportedRequest s) :=
  .next h.refuse

theorem State.FormIf.execPeerAccess {vf addr req} (h : s.FormIf p) : Res.FormIf p (Machine.execPeerAccess vf addr req s) :=
  .next h.servePart

theorem State.FormIf.execRoceReceive {qp addr req} (h : s.FormIf p) : Res.FormIf p (Machine.execRoceReceive qp addr req s) := by
  unfold Machine.execRoceReceive
  split
  · exact .next h.refuse
  split
  · exact .next h.refuse
  split
  · exact .next h.refuse
  · exact .next h.answer
  · exact .next h.servePart

theorem State.FormIf.execPeerAckTimeout {peer} (h : s.FormIf p) : Res.FormIf p (Machine.execPeerAckTimeout peer s) :=
  .ite (.next h) (.next (h.update.foldl (fun _ _ h1 => h1.mailEvent)))

theorem State.FormIf.execPeerProbe {peer answered} (h : s.FormIf p) : Res.FormIf p (Machine.execPeerProbe peer answered s) :=
  .next (h.update.ite h)

theorem State.FormIf.execWorenPortLoss {port} (h : s.FormIf p) : Res.FormIf p (Machine.execWorenPortLoss port s) := .next h.update

theorem State.FormIf.execStorePerformed {core key} (h : s.FormIf p) : Res.FormIf p (Machine.execStorePerformed core key s) :=
  .next h.performDirty

theorem State.FormIf.execDuplicateAcknowledge {core key} (h : s.FormIf p) :
    Res.FormIf p (Machine.execDuplicateAcknowledge core key s) :=
  .next h.ackDup

theorem State.FormIf.execCkpt {fn} (h : s.FormIf p) : Res.FormIf p (Machine.execCkpt fn s) := by
  unfold Machine.execCkpt
  refine h.vfCmd fun s1 h1 => ?_
  extract_lets ctx m0 m1 cap leasing __src mine s2 late
  have hs2 : s2.FormIf p := (h1.foldl (fun _ _ h2 => h2.softHalt)).pollSoft
  split
  · split
    · exact h1
    split
    · exact h1
    · exact h1.setCtx.setStage
  · split
    · exact hs2.undoCut
    split
    · exact hs2.takeCut.setStage
    · exact hs2
  · exact h1

theorem State.FormIf.execCkptFrameCopied {ctx} (h : s.FormIf p) : Res.FormIf p (Machine.execCkptFrameCopied ctx s) := by
  unfold Machine.execCkptFrameCopied
  split
  · exact .next h
  split
  · exact .next h
  · exact .next h.update

theorem State.FormIf.execCkptStreamEnd {ctx ok} (h : s.FormIf p) : Res.FormIf p (Machine.execCkptStreamEnd ctx ok s) := by
  unfold Machine.execCkptStreamEnd
  split
  · exact .next h
  · exact .ite (.next h.update.finishCmd) (.ite (.next h) (.ite (.next h.update.finishCmd)
    (.next (h.update.foldl (fun _ _ h1 => h1.memWrite.ite h1)).memWrite.memWrite.update.finishCmd)))

theorem State.FormIf.execFmma {x d y b c} (h : s.FormIf p) : Res.FormIf p (Machine.execFmma x d y b c s) := by
  unfold Machine.execFmma
  split
  · exact .ite h.illegalL (h.laneRunT (fun _ _ _ h1 => h1.clearBad.put.flagAll.endL))
  · exact h.illegalL

theorem State.FormIf.execFmld {x ty acc tr d m b} (h : s.FormIf p) : Res.FormIf p (Machine.execFmld x ty acc tr d m b s) := by
  unfold Machine.execFmld
  extract_lets n bw u
  split
  · exact h.illegalL
  refine h.laneMem fun c t hc ht => ?_
  split
  · exact ht.endL
  extract_lets l0 off stride r
  have hr : r.s.FormIf p := ht.placeFrag
  split
  next e => exact ht.fragMisaligned e
  split
  · exact hr.waitLog
  split
  · exact hc.wait
  dsimp only
  exact hr.readFrag.put.endOr

theorem State.FormIf.execFmst {x ty acc m b c} (h : s.FormIf p) : Res.FormIf p (Machine.execFmst x ty acc m b c s) := by
  unfold Machine.execFmst
  extract_lets n
  split
  · exact h.illegalL
  refine h.laneMem fun x t hc ht => ?_
  split
  · exact ht.endL
  extract_lets l0 off stride r
  have hr : r.s.FormIf p := ht.placeFrag
  split
  next e => exact ht.fragMisaligned e
  split
  · exact hr.waitLog
  refine State.FormIf.endOr (hr.foldl fun t e ht => ?_)
  exact ht.ite ht.writePlace

theorem State.FormIf.execRestore {fn} (h : s.FormIf p) : Res.FormIf p (Machine.execRestore fn s) := by
  unfold Machine.execRestore
  refine h.vfCmd fun t ht => ?_
  extract_lets ctx base len n
  split
  · exact ht
  split
  · exact ht
  split
  · exact ht
  extract_lets rs sb
  split
  · exact ht
  split
  · exact ht
  dsimp only [CmdEnd.state]
  exact ht.restoreCtx

theorem State.FormIf.execApxenter {x m r} (h : s.FormIf p) : Res.FormIf p (Machine.execApxenter x m r s) := by
  unfold Machine.execApxenter
  refine h.apxRun fun c1 s1 hc h1 => ?_
  extract_lets cl slot s2 s3 served s4
  have hs2 : s2.FormIf p := by
    unfold s2
    clear_value slot
    split
    · exact h1.setCluster
    · exact h1
  have hs3 : s3.FormIf p := hs2.mapG
  have hs4 : s4.FormIf p := hs3.countEvent
  exact hs4.putM.endL

theorem State.FormIf.execApxin {x y i} (h : s.FormIf p) : Res.FormIf p (Machine.execApxin x y i s) :=
  h.apxRun fun _ _ _ h1 => h1.mapG.endL

theorem State.FormIf.execApxout {x d j} (h : s.FormIf p) : Res.FormIf p (Machine.execApxout x d j s) :=
  h.apxRun fun _ _ _ h1 => h1.put.endL

theorem State.FormIf.execApxoutProbe {x d j r} (h : s.FormIf p) : Res.FormIf p (Machine.execApxoutProbe x d j r s) :=
  h.apxRun fun _ _ _ h1 => h1.put.endL

theorem State.FormIf.execApxexit {x last y j} (h : s.FormIf p) : Res.FormIf p (Machine.execApxexit x last y j s) :=
  h.apxRun fun _ _ _ h1 => .ite h1.mapG.endL h1.mapG.setCluster.countEvent.mapG.endL

end Sys2Proof.Machine
end

section
/-! ## The form: issue, actions and steps -/

namespace Sys2Proof.Machine

variable {p : Prop} {s t : State}

theorem State.FormIf.exec {i} (h : s.FormIf p) : Res.FormIf p (Machine.exec i s) :=
  match i with
  | .nop .. => h.execNop | .sleep .. => h.execSleep | .clock .. => h.execClock | .query .. => h.execQuery
  | .movsr .. => h.execMovsr | .add .. => h.execAdd | .sub .. => h.execSub | .mul .. => h.execMul | .mulhs .. => h.execMulhs
  | .mulhn .. => h.execMulhn | .divs .. => h.execDivs | .divn .. => h.execDivn | .rems .. => h.execRems | .remn .. => h.execRemn
  | .and .. => h.execAnd | .or .. => h.execOr | .xor .. => h.execXor | .andn .. => h.execAndn | .shl .. => h.execShl
  | .shr .. => h.execShr | .sar .. => h.execSar | .rotl .. => h.execRotl | .mins .. => h.execMins | .maxs .. => h.execMaxs
  | .minn .. => h.execMinn | .maxn .. => h.execMaxn | .clz .. => h.execClz | .popc .. => h.execPopc | .brev .. => h.execBrev
  | .sel .. => h.execSel | .addi .. => h.execAddi | .muli .. => h.execMuli | .andi .. => h.execAndi | .ori .. => h.execOri
  | .xori .. => h.execXori | .shi .. => h.execShi | .movi .. => h.execMovi | .movhi .. => h.execMovhi | .cmp .. => h.execCmp
  | .cmpi .. => h.execCmpi | .add64 .. => h.execAdd64 | .sub64 .. => h.execSub64 | .mul64 .. => h.execMul64
  | .add128 .. => h.execAdd128 | .shl64 .. => h.execShl64 | .shr64 .. => h.execShr64 | .bfx .. => h.execBfx
  | .bfi .. => h.execBfi | .qand .. => h.execQand | .qor .. => h.execQor | .qxor .. => h.execQxor | .qnot .. => h.execQnot
  | .br .. => h.execBr | .brq .. => h.execBrq | .call .. => h.execCall | .jmpi .. => h.execJmpi | .calli .. => h.execCalli
  | .ret .. => h.execRet | .loop .. => h.execLoop | .exit x => h.execExit (w := x) | .exitto x _ _ => h.execExitto (w := x)
  | .trap x _ => h.execTrap (w := x) | .tstb .. => h.execTstb | .lds .. => h.execLds | .sts .. => h.execSts
  | .ldc .. => h.execLdc | .atoms .. => h.execAtoms | .lrun .. => h.execLrun | .chsend .. => h.execChsend
  | .chrecv .. => h.execChrecv | .chstat .. => h.execChstat | .fence .. => h.execFence | .bari .. => h.execBari
  | .barx .. => h.execBarx | .bara .. => h.execBara | .waitb .. => h.execWaitb | .yield .. => h.execYield
  | .yieldc x _ _ _ => h.execYieldc (w := x) | .teambar .. => h.execTeambar | .gridbar .. => h.execGridbar
  | .lwait .. => h.execLwait | .tbind .. => h.execTbind | .tdrop .. => h.execTdrop | .objld .. => h.execObjld
  | .cpyb .. => h.execCpyb | .cpyg .. => h.execCpyg | .cpyq .. => h.execCpyq | .empty .. => h.execEmpty
  | .heapadd .. => h.execHeapadd | .heaptake .. => h.execHeaptake | .mfmt .. => h.execMfmt | .mloop .. => h.execMloop
  | .mconv .. => h.execMconv | .mstore .. => h.execMstore | .mzero .. => h.execMzero | .mstat .. => h.execMstat
  | .sproj .. => h.execSproj | .sbin .. => h.execSbin | .sblend .. => h.execSblend | .sgrad .. => h.execSgrad
  | .apxdef .. => h.execApxdef | .apxkill .. => h.execApxkill | .encsub .. => h.execEncsub | .chimgate .. => h.execChimgate
  | .movsw .. => h.execMovsw | .pcntRd .. => h.execPcntRd | .pcntWr .. => h.execPcntWr | .pcntSel .. => h.execPcntSel
  | .rett x => h.execRett (w := x) | .ctxsave .. => h.execCtxsave | .ctxload .. => h.execCtxload | .haltSoft .. => h.execHaltSoft
  | .haltHard .. => h.execHaltHard | .freezeFreeze .. => h.execFreezeFreeze | .freezeThaw .. => h.execFreezeThaw
  | .freezeReset .. => h.execFreezeReset | .limm .. => h.execLimm | .fadd .. => h.execFadd | .fsub .. => h.execFsub
  | .fmul .. => h.execFmul | .ffma .. => h.execFfma | .ffms .. => h.execFfms | .fmin .. => h.execFmin | .fmax .. => h.execFmax
  | .fcmp .. => h.execFcmp | .fclass .. => h.execFclass | .fdiv .. => h.execFdiv | .frcp .. => h.execFrcp
  | .frsq .. => h.execFrsq | .fsqrt .. => h.execFsqrt | .ex2 .. => h.execEx2 | .lg2 .. => h.execLg2 | .fsint .. => h.execFsint
  | .fcost .. => h.execFcost | .frint .. => h.execFrint | .ffloor .. => h.execFfloor | .fceil .. => h.execFceil
  | .ftrunc .. => h.execFtrunc | .ffract .. => h.execFfract | .fscale .. => h.execFscale | .fgetexp .. => h.execFgetexp
  | .fcopysign .. => h.execFcopysign | .hadd2 .. => h.execHadd2 | .hsub2 .. => h.execHsub2 | .hmul2 .. => h.execHmul2
  | .hfma2 .. => h.execHfma2 | .hmin2 .. => h.execHmin2 | .hmax2 .. => h.execHmax2 | .hcmp2 .. => h.execHcmp2
  | .hdot2 .. => h.execHdot2 | .cvt .. => h.execCvt | .cvt2 .. => h.execCvt2 | .cvt4 .. => h.execCvt4 | .cvt8 .. => h.execCvt8
  | .qdec .. => h.execQdec | .qenc .. => h.execQenc | .ftoi .. => h.execFtoi | .itof .. => h.execItof | .icvt .. => h.execIcvt
  | .iadd .. => h.execIadd | .isub .. => h.execIsub | .imul .. => h.execImul | .imulh .. => h.execImulh | .imad .. => h.execImad
  | .imin .. => h.execImin | .imax .. => h.execImax | .iabs .. => h.execIabs | .ishl .. => h.execIshl | .ishr .. => h.execIshr
  | .isar .. => h.execIsar | .fshl .. => h.execFshl | .fshr .. => h.execFshr | .logic3 .. => h.execLogic3
  | .laneBfx _ x _ _ _ => h.execLaneBfx (ty := x) | .laneBfi _ x _ _ _ _ => h.execLaneBfi (ty := x)
  | .lanePopc .. => h.execLanePopc | .laneClz .. => h.execLaneClz | .laneBrev .. => h.execLaneBrev | .icmp .. => h.execIcmp
  | .laneSel .. => h.execLaneSel | .idot4 .. => h.execIdot4 | .isad .. => h.execIsad | .iaddc .. => h.execIaddc
  | .mov .. => h.execMov | .laneMovi .. => h.execLaneMovi | .shfl .. => h.execShfl | .shflx .. => h.execShflx
  | .shfld .. => h.execShfld | .bcast .. => h.execBcast | .vote .. => h.execVote | .reduce .. => h.execReduce
  | .prefixOp .. => h.execPrefixOp | .brl .. => h.execBrl | .join .. => h.execJoin | .lend .. => h.execLend
  | .kill .. => h.execKill | .ltrap .. => h.execLtrap | .movs .. => h.execMovs | .ld .. => h.execLd | .st .. => h.execSt
  | .ldx .. => h.execLdx | .stx .. => h.execStx | .atom .. => h.execAtom | .atomx .. => h.execAtomx | .red .. => h.execRed
  | .lcpy _ x _ _ _ => h.execLcpy (sc := x) | .pref .. => h.execPref | .rng .. => h.execRng | .rngNext .. => h.execRngNext
  | .rngSeed .. => h.execRngSeed | .rngCtr .. => h.execRngCtr | .rngKey .. => h.execRngKey | .add128l .. => h.execAdd128l
  | .add128lCtr .. => h.execAdd128lCtr | .attr .. => h.execAttr | .deriv .. => h.execDeriv | .texs .. => h.execTexs
  | .texl .. => h.execTexl | .texg .. => h.execTexg | .texq .. => h.execTexq | .trace .. => h.execTrace | .expc .. => h.execExpc
  | .expz .. => h.execExpz | .apxenter .. => h.execApxenter | .apxin .. => h.execApxin | .apxout .. => h.execApxout
  | .apxoutProbe .. => h.execApxoutProbe | .apxexit .. => h.execApxexit | .fmma .. => h.execFmma | .fmld .. => h.execFmld
  | .fmst _ x _ _ _ _ => h.execFmst (ty := x) | .longLatencyReturn .. => h.execLongLatencyReturn
  | .blockStart => h.execBlockStart | .groupEnd => h.execGroupEnd | .successorStart => h.execSuccessorStart
  | .cardAdmit .. => h.execCardAdmit | .cardStart .. => h.execCardStart | .cardComplete .. => h.execCardComplete
  | .dispatchTeam .. => h.execDispatchTeam | .fragmentGroupLaunch .. => h.execFragmentGroupLaunch
  | .issueAgeLimit => h.execIssueAgeLimit | .copyUnitArrive .. => h.execCopyUnitArrive | .copyPageFault .. => h.execCopyPageFault
  | .matrixStep .. => h.execMatrixStep | .mstoreRun .. => h.execMstoreRun | .mzeroRun .. => h.execMzeroRun
  | .splatCommandStart .. => h.execSplatCommandStart | .sprojGranule .. => h.execSprojGranule
  | .sbinGranule .. => h.execSbinGranule | .sblendTile .. => h.execSblendTile | .sgradTile .. => h.execSgradTile
  | .splatGranuleFault .. => h.execSplatGranuleFault | .invocationArrive .. => h.execInvocationArrive
  | .guardWrite .. => h.execGuardWrite | .encodeFrameDone .. => h.execEncodeFrameDone | .tileRowRead .. => h.execTileRowRead
  | .handlerEntry => h.execHandlerEntry | .logRetry .. => h.execLogRetry | .poolRefill .. => h.execPoolRefill
  | .sleepExpire => h.execSleepExpire | .graceExpire .. => h.execGraceExpire | .killExpire .. => h.execKillExpire
  | .watchdogExpire .. => h.execWatchdogExpire | .starveExpire .. => h.execStarveExpire | .vsync .. => h.execVsync
  | .roofAreaLoad .. => h.execRoofAreaLoad | .roofGate .. => h.execRoofGate | .roofWake .. => h.execRoofWake
  | .bwWindowEnd .. => h.execBwWindowEnd | .throttlePeriod .. => h.execThrottlePeriod
  | .snoopParityError .. => h.execSnoopParityError | .ckptFrameCopied .. => h.execCkptFrameCopied
  | .ckptStreamEnd .. => h.execCkptStreamEnd | .peerAckTimeout .. => h.execPeerAckTimeout | .peerProbe .. => h.execPeerProbe
  | .fwHeartbeat .. => h.execFwHeartbeat | .fwHeartbeatTimeout .. => h.execFwHeartbeatTimeout
  | .sliceControllerFault .. => h.execSliceControllerFault | .deviceManagerFault => h.execDeviceManagerFault
  | .powerOn => h.execPowerOn | .powerCapAdjust .. => h.execPowerCapAdjust | .hostMemAccess .. => h.execHostMemAccess
  | .hostAtomic .. => h.execHostAtomic | .hostUnsupportedRequest => h.execHostUnsupportedRequest
  | .peerAccess .. => h.execPeerAccess | .mailboxRegisterWrite .. => h.execMailboxRegisterWrite | .qdesc .. => h.execQdesc
  | .qreset .. => h.execQreset | .xblock .. => h.execXblock | .sblock .. => h.execSblock | .shoot .. => h.execShoot
  | .dirtylog .. => h.execDirtylog | .quota .. => h.execQuota | .intf .. => h.execIntf | .pmake .. => h.execPmake
  | .pfree .. => h.execPfree | .fuse .. => h.execFuse | .split .. => h.execSplit | .engines .. => h.execEngines
  | .ways .. => h.execWays | .bwclass .. => h.execBwclass | .lease .. => h.execLease | .revoke .. => h.execRevoke
  | .sreset .. => h.execSreset | .report .. => h.execReport | .zero .. => h.execZero | .ckpt .. => h.execCkpt
  | .restore .. => h.execRestore | .fwstage .. => h.execFwstage | .fwupdate .. => h.execFwupdate
  | .getVersion => h.execGetVersion | .getCapabilities => h.execGetCapabilities
  | .negotiateAlgorithms => h.execNegotiateAlgorithms | .getDigests => h.execGetDigests | .getCertificate => h.execGetCertificate
  | .challenge => h.execChallenge | .getMeasurements .. => h.execGetMeasurements | .keyExchange => h.execKeyExchange
  | .finish => h.execFinish | .illegalInstruction .. => h.execIllegalInstruction | .storePerformed .. => h.execStorePerformed
  | .duplicateAcknowledge .. => h.execDuplicateAcknowledge | .zeroingDone .. => h.execZeroingDone | .powerLoss => h.execPowerLoss
  | .worenPortLoss .. => h.execWorenPortLoss | .roceReceive .. => h.execRoceReceive

theorem State.FormIf.runC (h : s.FormIf p) : Res.FormIf p (Machine.runC s) := by
  unfold Machine.runC
  split
  next e => exact (State.FormIf.of_fetched e h.fetchC).faultC
  next s1 _ e =>
    have hs1 : s1.FormIf p := .of_fetched e h.fetchC
    split
    · exact hs1.illegalC
    · exact hs1.exec

theorem State.FormIf.noteIssued {g i} (h : s.FormIf p) : (Machine.noteIssued s g i).FormIf p := h

theorem State.FormIf.countedC {g} (h : s.FormIf p) : (Machine.countedC s g).FormIf p := (h.ite h.noteIssued.counted).issuedC

theorem Res.FormIf.map {r : Res} {f : State → State} (h : Res.FormIf p r) (hf : ∀ s, s.FormIf p → (f s).FormIf p) :
    Res.FormIf p (r.map f) := by
  obtain ⟨t, rfl, ht⟩ := h
  exact .next (hf t ht)

theorem State.FormIf.issueC (h : s.FormIf p) : Res.FormIf p (Machine.issueC s) :=
  .ite (.next h) (.ite (.next h.meetLost) (.ite (.next h.takeEngineFault) (.ite (.next h)
    (h.update.runC.map fun _ h1 => h1.ite h1.countedC))))

theorem State.FormIf.fetchFaultL {x code addr} (h : s.FormIf p) : Res.FormIf p (Machine.fetchFaultL s x code addr) :=
  .next h.takeFault

theorem State.FormIf.withWord {w} (h : s.FormIf p) : (s.withWord w).FormIf p := h.mapG

theorem State.FormIf.runL {x n} (h : s.FormIf p) : ∀ r k, Machine.runL s x n = some (r, k) → Res.FormIf p r := by
  intro r k e
  unfold Machine.runL at e
  split at e
  next e1 =>
    have h1 := State.FormIf.of_fetched e1 h.fetchL
    cases e
    exact h1.fetchFaultL
  next e1 =>
    have h1 := State.FormIf.of_fetched e1 h.fetchL
    dsimp only at e
    split at e
    · cases e
    split at e
    · cases e
      exact h1.wordFaultL
    · cases e
      exact h1.withWord.exec

theorem State.FormIf.countedL {g i k} (h : s.FormIf p) : (Machine.countedL s g i k).FormIf p := (h.ite h.noteIssued.counted).issuedL

theorem State.FormIf.issueSplit {n} (h : s.FormIf p) : Res.FormIf p (Machine.issueSplit n s) := by
  unfold Machine.issueSplit
  dsimp only
  split
  · exact .next h
  refine .ite (.next h) (.ite (.next h) ?_)
  split
  · exact .next h
  next e => exact (h.update.runL _ _ e).map fun _ h1 => h1.ite h1.countedL

theorem State.FormIf.issueLate {k} (h : s.FormIf p) : Res.FormIf p (Machine.issueLate k s) := by
  unfold Machine.issueLate
  split
  · exact .next h
  split
  · exact .next h
  split
  · exact .next h
  extract_lets __src s1
  have hs1 : s1.FormIf p := h
  split
  · exact .next hs1
  · exact hs1.withWord.exec

theorem State.FormIf.issueL {n} (h : s.FormIf p) : Res.FormIf p (Machine.issueL n s) :=
  .ite (.next h) (.ite (.next h.meetLost) (.ite (.next h.takeEngineFault) (.ite h.issueSplit h.issueLate)))

theorem State.FormIf.countInterference {clocks c} (h : s.FormIf p) : (Machine.countInterference clocks s c).FormIf p :=
  h.foldl fun _ _ h1 => h1.bumpCounter

theorem State.FormIf.countClocks {clocks c} (h : s.FormIf p) : (Machine.countClocks clocks s c).FormIf p :=
  (h.ite h.bumpCounter).countEvent.ite (h.ite h.bumpCounter)

theorem State.FormIf.passTime {ns clocks} (h : s.FormIf p) : (Machine.passTime ns clocks s).FormIf p :=
  ((h.refreshAll.foldl (fun _ _ h1 => h1.countClocks)).foldl (fun _ _ h1 => h1.countInterference)).update

theorem State.FormIf.evictLine {core line} (h : s.FormIf p) : (Machine.evictLine core line s).FormIf p := h.performDirty.setL1

theorem State.FormIf.runAll {es} (h : s.FormIf p) : Res.FormIf p (Machine.runAll es s) := by
  induction es generalizing s with
  | nil => exact .next h
  | cons e es ih =>
    obtain ⟨t, et, ht⟩ := h.exec (i := e)
    simpa [Machine.runAll, et] using ih ht

theorem State.FormIf.together {es} (h : s.FormIf p) : Res.FormIf p (Machine.together es s) :=
  h.update.runAll.map fun _ h1 => h1.applyDecrs

theorem State.FormIf.perform {x} (h : s.FormIf p) : Res.FormIf p (Machine.perform x s) := by
  unfold Machine.perform
  split
  · exact h.issueC
  · exact h.issueL
  · exact .next h.focus
  · exact h.exec
  · exact h.execSliceControllerFault
  · exact .next h.evictLine
  · exact .next h.passTime
  · exact .next h.upset
  · exact .next h.update
  · exact h.together
  · exact .next h.setVf
  · exact .next h.refreshWindow
  · exact h.readMailbox
  · exact .next h.sliceReady
  · exact .next h.endBringUp
  · exact .next h.setPeerNumber
  · exact .next h.setPeerWindows
  · exact .next h.setQueuePairs

theorem State.FormIf.endStep (h : s.FormIf p) : (Machine.endStep s).FormIf p :=
  (h.noteLost.performTests.meetSoft.update.foldl (fun _ _ h1 => h1.memWrite)).gateRoofs.update

theorem State.FormIf.done {x} (h : s.FormIf p) : (Action.done x s).FormIf p := by
  unfold Action.done
  split
  · exact h
  · exact h.endStep

/-- Whatever state with the form it starts in, the operation answers one. -/
def KeepsForm (p : Prop) (f : State → Res) : Prop := ∀ s, s.FormIf p → Res.FormIf p (f s)

/-- Every operation of the list keeps the form. -/
def AllKeepForm (p : Prop) (l : List (State → Res)) : Prop := ∀ f ∈ l, KeepsForm p f

theorem AllKeepForm.nil : AllKeepForm p [] := fun _ m => nomatch m

theorem AllKeepForm.cons {f : State → Res} {l} (hf : KeepsForm p f) (h : AllKeepForm p l) : AllKeepForm p (f :: l) :=
  List.forall_mem_cons.2 ⟨hf, h⟩

theorem AllKeepForm.append {l m} (hl : AllKeepForm p l) (hm : AllKeepForm p m) : AllKeepForm p (l ++ m) :=
  List.forall_mem_append.2 ⟨hl, hm⟩

theorem AllKeepForm.map {α : Type} {l : List α} {f : α → State → Res} (h : ∀ a, KeepsForm p (f a)) : AllKeepForm p (l.map f) :=
  List.forall_mem_map.2 fun a _ => h a

theorem AllKeepForm.flatMap {α : Type} {l : List α} {f : α → List (State → Res)} (h : ∀ a, AllKeepForm p (f a)) :
    AllKeepForm p (l.flatMap f) := by
  intro k m
  obtain ⟨a, -, ha⟩ := List.mem_flatMap.1 m
  exact h a k ha

theorem AllKeepForm.ite {c : Prop} {_ : Decidable c} {l m} (hl : AllKeepForm p l) (hm : AllKeepForm p m) :
    AllKeepForm p (if c then l else m) := by
  split
  · exact hl
  · exact hm

/-- Whichever operation a turn picks, it keeps the form. -/
theorem AllKeepForm.getD {l : List (State → Res)} {n} (h : AllKeepForm p l) : KeepsForm p (l.getD n fun s => .next s) := by
  rw [List.getD_eq_getElem?_getD]
  cases e : l[n]? with
  | none => exact fun _ hs => .next hs
  | some f => exact h f (List.mem_of_getElem? e)

theorem allKeepForm_groupPolls {g} : AllKeepForm p (groupPolls g) :=
  .append (.append (.append (.append (.map fun _ _ h => h.focus.execLongLatencyReturn)
    (.cons (fun _ h => h.focus.execBlockStart) (.cons (fun _ h => h.focus.execGroupEnd)
      (.cons (fun _ h => h.focus.execSuccessorStart) (.cons (fun _ h => h.focus.execSleepExpire)
        (.cons (fun _ h => h.focus.execHandlerEntry) .nil))))))
    (.ite (.cons (fun _ h => h.focus.issueC) .nil) .nil))
    (.map fun _ _ h => h.focus.issueL))
    (.map fun _ _ h => h.focus.issueL)

theorem allKeepForm_teamPolls {uid} : AllKeepForm p (teamPolls uid) :=
  .cons (fun _ h => h.execSplatCommandStart) (.cons (fun _ h => h.execSprojGranule) (.cons (fun _ h => h.execSbinGranule)
    (.cons (fun _ h => h.execSblendTile) (.cons (fun _ h => h.execSgradTile) (.cons (fun _ h => h.execSplatGranuleFault)
      (.cons (fun _ h => h.execGraceExpire) (.cons (fun _ h => h.execKillExpire)
        (.cons (fun _ h => h.execWatchdogExpire) .nil))))))))

theorem allKeepForm_clusterPolls {c} : AllKeepForm p (clusterPolls c) :=
  .append (.append
    (.flatMap fun _ => .cons (fun _ h => h.execMatrixStep) (.cons (fun _ h => h.execMstoreRun) (.cons (fun _ h => h.execMzeroRun)
      .nil)))
    (.ite .nil (.cons (fun _ h => h.execInvocationArrive) .nil)))
    (.cons (fun _ h => h.execRoofAreaLoad) (.cons (fun _ h => h.execRoofGate) (.cons (fun _ h => h.execRoofWake) .nil)))

theorem allKeepForm_slicePolls {c} : AllKeepForm p (slicePolls c) :=
  .append (.flatMap fun _ => .cons (fun _ h => h.execCardAdmit) (.cons (fun _ h => h.execStarveExpire) .nil))
    (.cons (fun _ h => h.execTileRowRead) (.cons (fun _ h => h.execEncodeFrameDone) (.cons (fun _ h => h.execZeroingDone)
      (.cons (fun _ h => .next h.sliceReady) .nil))))

theorem State.FormIf.mailPoll {fn} (h : s.FormIf p) : Res.FormIf p (Machine.mailPoll fn s) := by
  unfold Machine.mailPoll
  extract_lets code
  split
  · exact .next (h.refuseCmd.ite h)
  clear_value code
  split
  · exact h.execQdesc
  · exact h.execQreset
  · exact h.execXblock
  · exact h.execSblock
  · exact h.execShoot
  · exact h.execDirtylog
  · exact h.execQuota
  · exact h.execIntf
  · exact h.execPmake
  · exact h.execPfree
  · exact h.execFuse
  · exact h.execSplit
  · exact h.execEngines
  · exact h.execWays
  · exact h.execBwclass
  · exact h.execLease
  · exact h.execRevoke
  · exact h.execSreset
  · exact h.execReport
  · exact h.execZero
  · exact h.execCkpt
  · exact h.execRestore
  · exact h.execFwstage
  · exact h.execFwupdate
  · exact .next h

theorem allKeepForm_l1Polls {l} : AllKeepForm p (l1Polls l) :=
  .append (.map fun _ _ h => h.execStorePerformed) (.map fun _ _ h => h.execDuplicateAcknowledge)

theorem allKeepForm_vfPolls {id : Nat} {c : Prop} {_ : Decidable c} :
    AllKeepForm p ([execDispatchTeam id, execLogRetry id] ++ if c then [] else [execVsync id]) :=
  .append (.cons (fun _ h => h.execDispatchTeam) (.cons (fun _ h => h.execLogRetry) .nil))
    (.ite .nil (.cons (fun _ h => h.execVsync) .nil))

theorem allKeepForm_cardPolls {id : Nat} :
    AllKeepForm p [execCardStart id, execFragmentGroupLaunch id, execCardComplete id] :=
  .cons (fun _ h => h.execCardStart) (.cons (fun _ h => h.execFragmentGroupLaunch) (.cons (fun _ h => h.execCardComplete) .nil))

theorem keepsForm_ckptPoll {x : Ckpt} :
    KeepsForm p (if x.uncopied.isEmpty then execCkptStreamEnd x.ctx true else execCkptFrameCopied x.ctx) := by
  split
  · exact fun _ h => h.execCkptStreamEnd
  · exact fun _ h => h.execCkptFrameCopied

theorem allKeepForm_polls : AllKeepForm p (polls s) := by
  unfold polls
  repeat refine .append ?_ ?_
  · exact .flatMap fun _ => allKeepForm_groupPolls
  · exact .flatMap fun _ => allKeepForm_teamPolls
  · exact .flatMap fun _ => allKeepForm_vfPolls
  · exact .flatMap fun _ => allKeepForm_slicePolls
  · exact .flatMap fun _ => allKeepForm_cardPolls
  · exact .map fun _ _ h => h.execCopyUnitArrive
  · exact .flatMap fun _ => allKeepForm_clusterPolls
  · exact .map fun _ _ h => h.mailPoll
  · exact .map fun _ => keepsForm_ckptPoll
  · exact .flatMap fun _ => allKeepForm_l1Polls
  · exact .map fun _ _ h => .next h.refreshWindow
  · exact .cons (fun _ h => .next h.endBringUp) (.cons (fun _ h => .next h.passTime) .nil)

theorem State.FormIf.auto (h : s.FormIf p) : Res.FormIf p (Machine.auto s) := by
  unfold Machine.auto
  extract_lets s1 other
  have hs1 : s1.FormIf p := h.update
  have hother : Res.FormIf p (other s1) := allKeepForm_polls.getD _ hs1
  clear_value s1 other
  split
  · split
    · exact hs1.focus.issueC
    · exact hs1.focus.issueL
    · exact hother
  · exact hother

/-- R479: the step may go on: the device has power, or the next action brings it up. -/
def MayStep (s : State) : Prop := s.powered = true ∨ ∃ rest, s.agenda = .event .powerOn :: rest

theorem State.FormIf.step (h : s.FormIf p) (hm : MayStep s) : Res.FormIf p (Machine.step s) := by
  unfold Machine.step
  split
  next e =>
    have hp : s.powered = true := hm.resolve_right (by simp [e])
    rw [if_pos hp]
    exact h.update.auto.map fun _ => State.FormIf.endStep
  next a rest e =>
    have hg : (s.powered || a = .event .powerOn) = true := by
      rcases hm with hp | ⟨_, e'⟩
      · rw [hp, Bool.true_or]
      · rw [(List.cons.inj (e.symm.trans e')).1, decide_eq_true rfl, Bool.or_true]
    rw [if_pos hg]
    exact h.update.perform.map fun _ => State.FormIf.done

theorem step_eq_poweredDown (h : ¬ MayStep s) : step s = .fault .poweredDown := by
  obtain ⟨hp, ha⟩ := not_or.1 h
  unfold step
  split
  · exact if_neg hp
  next a rest e =>
    have hg : ¬ (s.powered || a = .event .powerOn) = true := by
      rw [Bool.or_eq_true, decide_eq_true_iff]
      exact not_or.2 ⟨hp, fun ea => ha ⟨rest, ea ▸ e⟩⟩
    exact if_neg hg

/-- Settles O8: every instruction, action and poll keeps both memories in canonical form, by one lemma for each function of the model. -/
theorem memoryForm : Obligations.MemoryForm := by
  intro s t hs e
  by_cases hm : MayStep s
  · obtain ⟨u, eu, hu⟩ := State.FormIf.step (p := True) (fun _ => hs) hm
    cases eu.symm.trans e
    exact hu trivial
  · cases (step_eq_poweredDown hm).symm.trans e

/-- Settles O5, by the lemmas of O8 with no assumption about memory: each function answers a next state. -/
theorem stepSafe : Obligations.StepSafe := by
  refine ⟨fun i s => ?_, fun s => ⟨fun hm => ?_, fun hp ha => step_eq_poweredDown (by simp [MayStep, hp, ha])⟩⟩
  · obtain ⟨t, e, -⟩ := State.FormIf.exec (p := False) (s := s) (i := i) False.elim
    exact ⟨t, e⟩
  · obtain ⟨t, e, -⟩ := State.FormIf.step (p := False) (s := s) False.elim hm
    exact ⟨t, e⟩

end Sys2Proof.Machine
end

section
/-! The frame of the lane words that compute one register in each active lane (R209, R210, R120): what a pop, a write, a flag and the
end of a word leave of the group that issues, and that nothing else of the state changes. -/

namespace Sys2Proof.Machine

/-! ## What may differ -/

/-- A vector register in a lane, other than d in the lanes named. -/
def OtherReg (d : Nat) (lanes : List Nat) (k l : Nat) : Prop := l < 32 ∧ (k ≠ d ∨ l ∉ lanes)

/-- From `g` to `h` only register d in some lanes, results on their way to it, flags, the splits and the group's own channels
differ: flags are gained, and another vector register that is drained stays so and keeps its value. -/
structure Group.LaneWrites (d : Nat) (lanes : List Nat) (g h : Group) : Prop where
  frame : { h with v := g.v, pend := g.pend, gsr := g.gsr, splits := g.splits, hsplits := g.hsplits, ch16 := g.ch16, ch17 := g.ch17 } = g
  flags : g.gsr ||| h.gsr = h.gsr
  drained : ∀ k l, OtherReg d lanes k l → g.undrained (vKey k l) = false → h.undrained (vKey k l) = false
  value : ∀ k l, OtherReg d lanes k l → SMap.get 0 h.v (32 * k + l) = SMap.get 0 g.v (32 * k + l)

/-- The same of a state, of which nothing but the group that issues differs. -/
structure State.LaneWrites (d : Nat) (lanes : List Nat) (s t : State) : Prop where
  outside : s.OnlyGroup t
  group : s.g.LaneWrites d lanes t.g

variable {d : Nat} {lanes : List Nat} {g h : Group} {s t u : State} {c : LCtx}

theorem OtherReg.index_ne {k l m : Nat} (ho : OtherReg d lanes k l) (hm : m ∈ lanes) (hlt : m < 32) : 32 * k + l ≠ 32 * d + m := by
  obtain ⟨hl, hk | hl'⟩ := ho
  · omega
  · have : l ≠ m := fun e => hl' (e ▸ hm)
    omega

theorem OtherReg.vKey_ne {k l m : Nat} (ho : OtherReg d lanes k l) (hm : m ∈ lanes) (hlt : m < 32) : vKey k l ≠ vKey d m := by
  have := ho.index_ne hm hlt
  unfold vKey
  omega

theorem mem_lanesOf_lt {mask : Word} {l : Nat} (hl : l ∈ lanesOf mask) : l < 32 := List.mem_range.1 (List.mem_filter.1 hl).1

namespace Group.LaneWrites

theorem trans {g₁ g₂ g₃ : Group} (h₁ : g₁.LaneWrites d lanes g₂) (h₂ : g₂.LaneWrites d lanes g₃) : g₁.LaneWrites d lanes g₃ where
  frame := (congrArg (fun x : Group => { x with
    v := g₁.v, pend := g₁.pend, gsr := g₁.gsr, splits := g₁.splits, hsplits := g₁.hsplits, ch16 := g₁.ch16, ch17 := g₁.ch17 })
      h₂.frame).trans h₁.frame
  flags := by rw [← h₂.flags, ← BitVec.or_assoc, h₁.flags]
  drained k l ho hg := h₂.drained k l ho (h₁.drained k l ho hg)
  value k l ho := (h₂.value k l ho).trans (h₁.value k l ho)

/-- A change that writes no vector register, sets no flag and adds nothing on its way. -/
theorem of_same
    (frame : { h with v := g.v, pend := g.pend, gsr := g.gsr, splits := g.splits, hsplits := g.hsplits, ch16 := g.ch16, ch17 := g.ch17 } = g)
    (hv : h.v = g.v) (hgsr : h.gsr = g.gsr) (hp : ∀ k, g.undrained k = false → h.undrained k = false) : g.LaneWrites d lanes h where
  frame := frame
  flags := by rw [hgsr, BitVec.or_self]
  drained _ _ _ := hp _
  value _ _ _ := by rw [hv]

theorem refl (g : Group) : g.LaneWrites d lanes g := of_same rfl rfl rfl fun _ hk => hk

/-! ## Steps on the group -/

theorem dropBits (g : Group) (key : Nat) (bits : Word) : g.LaneWrites d lanes (g.dropBits key bits) :=
  have hframe := g.dropBits_frame key bits
  have hv : (g.dropBits key bits).v = g.v := (congrArg Group.v hframe :)
  have hgsr : (g.dropBits key bits).gsr = g.gsr := (congrArg Group.gsr hframe :)
  of_same (congrArg (fun x : Group => { x with
      v := g.v, gsr := g.gsr, splits := g.splits, hsplits := g.hsplits, ch16 := g.ch16, ch17 := g.ch17 }) hframe)
    hv hgsr fun _ => Group.undrained_dropBits key bits

/-- R120: flags are only gained. -/
theorem flag (g : Group) (f : Flags) : g.LaneWrites d lanes (g.flag f) where
  frame := rfl
  flags := by rw [Group.flag, ← BitVec.or_assoc, BitVec.or_self]
  drained _ _ _ hg := hg
  value _ _ _ := rfl

theorem mapSplit (g : Group) (i : Nat) (f : Split → Split) : g.LaneWrites d lanes (g.mapSplit i f) := by
  unfold Group.mapSplit Group.setSplits
  split <;> exact of_same rfl rfl rfl fun _ hk => hk

/-- R91: results that stand drained leave no other result on its way. -/
theorem dropReturned (g : Group) (st : Strm) : g.LaneWrites d lanes (g.dropReturned st) := by
  refine of_same rfl rfl rfl fun k hk => ?_
  simp only [Group.undrained, List.any_eq_false] at hk ⊢
  exact fun p hp => hk p (List.mem_filter.1 hp).1

/-- R40: the split passes its word. -/
theorem endL (g : Group) (i : Nat) (w : Bool) : g.LaneWrites d lanes (g.endL i w) := by
  unfold Group.endL
  cases w
  · exact mapSplit g _ _
  · simp only [if_true]
    split
    · exact (mapSplit g _ _).trans (dropReturned _ _)
    · exact (mapSplit g _ _).trans (mapSplit _ _ _)

/-- R92: a fixed-latency result in one of the lanes. -/
theorem wrVBits {l : Nat} (hl : l ∈ lanes) (hlt : l < 32) (g : Group) (bits x : Word) :
    g.LaneWrites d lanes (g.wrVBits d l bits x) :=
  (dropBits g (vKey d l) bits).trans
    { frame := rfl
      flags := BitVec.or_self
      drained := fun _ _ _ hk => hk
      value := fun _ _ ho => by rw [Group.wrVBits, SMap.get_set, if_neg (ho.index_ne hl hlt)] }

/-- R92: a result on its way to one register in some of the lanes; only lane masks are banked (R361). -/
theorem addPend (hd : d < 256) {p : Pend} (hp : ∀ e ∈ p.dests, ∃ l ∈ lanes, l < 32 ∧ e.key = vKey d l) (g : Group) :
    g.LaneWrites d lanes (g.addPend p) := by
  have hbank : p.dests.map g.banked = p.dests := by
    refine (List.map_congr_left fun e he => ?_).trans (List.map_id _)
    obtain ⟨l, -, hlt, hkey⟩ := hp e he
    have hlow : ¬ Machine.mKey 15 0 ≤ e.key := by
      unfold Machine.mKey
      rw [hkey]
      unfold vKey
      omega
    simp [Group.banked, hlow]
  unfold Group.addPend
  simp only [hbank]
  refine (List.foldlRecOn p.dests (fun g e => g.dropBits e.key e.bits) (refl g) fun x hx e _ => hx.trans (dropBits x e.key e.bits)).trans
    { frame := rfl, flags := BitVec.or_self, drained := fun k l ho hk => ?_, value := fun _ _ _ => rfl }
  have hnew : (p.dests.any fun e => e.key = vKey k l) = false := by
    simp only [List.any_eq_false, decide_eq_true_eq]
    intro e he hkey
    obtain ⟨m, hm, hlt, hem⟩ := hp e he
    exact ho.vKey_ne hm hlt (hkey.symm.trans hem)
  rw [Group.undrained, List.any_append, Bool.or_eq_false_iff]
  exact ⟨hk, by simpa using hnew⟩

/-- R37, R86: popping a channel of the team or of the group. -/
theorem setCh (s : State) (i : Nat) (es : List Word) : s.g.LaneWrites d lanes (Machine.setCh s i es).g := by
  unfold Machine.setCh
  split_ifs <;> exact of_same rfl rfl rfl fun _ hk => hk

/-- R86, R274: what a word pops of its channels and chimneys. -/
theorem popEntries (s : State) (os : List Src) (popped : List Nat) : s.g.LaneWrites d lanes (Machine.popEntries s os popped).g := by
  have hpop (s : State) (i : Nat) :
      s.g.LaneWrites d lanes (if i < 20 then chDrop s i 1 else chimTake s (i - 20) 1).g := by
    split
    · exact setCh s _ _
    · rw [chimTake, State.setCluster_g, State.acquire_g]
      exact refl _
  have hpops : s.g.LaneWrites d lanes (popped.foldl (fun s i => if i < 20 then chDrop s i 1 else chimTake s (i - 20) 1) s).g :=
    List.foldlRecOn (motive := fun t : State => s.g.LaneWrites d lanes t.g) popped _ (refl s.g) fun t ht i _ => ht.trans (hpop t i)
  unfold Machine.popEntries
  dsimp only
  split
  · rw [State.acquire_g]
    exact hpops
  · exact hpops

end Group.LaneWrites

/-! ## Steps on the state -/

namespace State.LaneWrites

theorem trans (h₁ : s.LaneWrites d lanes t) (h₂ : t.LaneWrites d lanes u) : s.LaneWrites d lanes u :=
  ⟨(congrArg (fun x : State => { x with g := s.g }) h₂.outside :).trans h₁.outside, h₁.group.trans h₂.group⟩

theorem refl (s : State) : s.LaneWrites d lanes s := ⟨rfl, .refl _⟩

theorem mapG {f : Group → Group} (h : s.g.LaneWrites d lanes (f s.g)) : s.LaneWrites d lanes (s.mapG f) := ⟨rfl, h⟩

/-- A word that has not waited writes one register in its active lanes, or has its results on their way there. -/
theorem putV {long : Bool} {bits : Word} {outs : Outs} (hd : d < 256) (hlate : c.late = none)
    (houts : ∀ o ∈ outs, o.1 ∈ c.lanes ∧ o.2.length = 1) (s : State) : s.LaneWrites d c.lanes (c.putV long d bits outs s) := by
  have hout : ∀ o ∈ outs, o.1 ∈ c.lanes ∧ ∃ x, o.2 = [x] := fun o ho => (houts o ho).imp_right List.length_eq_one_iff.1
  unfold LCtx.putV
  split
  case isTrue =>
    split
    · exact refl s
    · simp only [LCtx.pend, hlate]
      refine mapG (Group.LaneWrites.addPend hd (fun e he => ?_) s.g)
      obtain ⟨o, ho, he⟩ := List.mem_flatMap.1 he
      obtain ⟨hl, x, hx⟩ := hout o ho
      rw [hx] at he
      obtain rfl := List.mem_singleton.1 he
      exact ⟨o.1, hl, mem_lanesOf_lt hl, rfl⟩
  case isFalse =>
    refine mapG (List.foldlRecOn (motive := s.g.LaneWrites d c.lanes) outs _ (.refl s.g) fun g hg o ho => hg.trans ?_)
    obtain ⟨hl, x, hx⟩ := hout o ho
    rw [hx]
    exact Group.LaneWrites.wrVBits hl (mem_lanesOf_lt hl) g bits x

theorem flagAll (fs : List Flags) (s : State) : s.LaneWrites d lanes (Machine.flagAll fs s) := by
  unfold Machine.flagAll
  dsimp only
  split
  · exact refl s
  · exact mapG (.flag _ _)

theorem past (c : LCtx) (s : State) : s.LaneWrites d lanes (c.past s) := mapG (.endL _ _ _)

theorem sameMem (h : s.LaneWrites d lanes t) : s.SameMem t :=
  fun k => (congrArg (fun x : State => x.rdMem k) h.outside :)

end State.LaneWrites

/-! ## The words -/

/-- R209, R210, R120: what a lane word that writes register d in its active lanes leaves of the state `s` in which it issues, and of
the state `s1` in which it reads its operands. -/
def LaneFramed (ins : Instr) (d : VReg) (s s1 : State) (c : LCtx) : Prop :=
  ∃ t, exec ins s = .next t ∧ s1.OnlyGroup t ∧ s1.SameMem t
    ∧ t.g.s = s.g.s ∧ t.g.hb = s.g.hb ∧ t.g.q = s.g.q ∧ t.g.m = s.g.m ∧ t.g.tr = s.g.tr ∧ t.g.hs = s.g.hs ∧ t.g.mode = s.g.mode
    ∧ t.g.fmt = s.g.fmt ∧ t.g.srKey = s.g.srKey ∧ t.g.srCtr = s.g.srCtr ∧ s.g.gsr ||| t.g.gsr = t.g.gsr
    ∧ ∀ k l tick, l < 32 → (k ≠ d.toNat ∨ l ∉ c.lanes) → s.g.undrained (vKey k l) = false → t.g.rdV tick k l = s.g.rdV tick k l

/-- A drained vector register reads as it is stored. -/
theorem Group.rdV_drained {k l : Nat} (tick : Nat) (hk : g.undrained (vKey k l) = false) :
    g.rdV tick k l = SMap.get 0 g.v (32 * k + l) := by simp [Group.rdV, hk]

theorem laneFramed_of_writes {ins : Instr} {r : VReg} (he : exec ins s = .next u) (h₁ : s.g.LaneWrites r.toNat c.lanes t.g)
    (h₂ : t.LaneWrites r.toNat c.lanes u) : LaneFramed ins r s t c := by
  have hw := h₁.trans h₂.group
  have hf := hw.frame
  refine ⟨u, he, h₂.outside, h₂.sameMem, (congrArg Group.s hf :), (congrArg Group.hb hf :), (congrArg Group.q hf :),
    (congrArg Group.m hf :), (congrArg Group.tr hf :), (congrArg Group.hs hf :), (congrArg Group.mode hf :), (congrArg Group.fmt hf :),
    (congrArg Group.srKey hf :), (congrArg Group.srCtr hf :), hw.flags, fun k l tick hl hne hdr => ?_⟩
  rw [Group.rdV_drained tick hdr, Group.rdV_drained tick (hw.drained k l ⟨hl, hne⟩ hdr), hw.value k l ⟨hl, hne⟩]

/-- A word that puts one register in each active lane, sets flags and ends. -/
theorem laneFramed_of_put {ins : Instr} {r : VReg} {os : List Src} {popped : List Nat} {long : Bool} {fs : List Flags} {outs : Outs}
    (hlate : c.late = none) (houts : ∀ o ∈ outs, o.1 ∈ c.lanes ∧ o.2.length = 1)
    (he : exec ins s = .next (c.past (flagAll fs (c.put long (.vec r) outs (LaneAt os popped s))))) :
    LaneFramed ins r s (LaneAt os popped s) c :=
  laneFramed_of_writes he (.popEntries s os popped)
    ((State.LaneWrites.putV r.isLt hlate houts _).trans ((State.LaneWrites.flagAll fs _).trans (.past c _)))

variable {ins : Instr} {x : LHdr} {r : VReg} {a b : Src} {popped : List Nat}

/-- A word that computes one register in each active lane from its operands. -/
theorem laneFramed_of_computes {long : Bool} {os : List Opd} {f : LaneFn} (hc : Computes ins x long (.vec r) 1 os f)
    (hf : ∀ v, (f v).1.length = 1)
    (H : LaneIssues x (vDs 1 (.vec r)) (dstRun 1 (.vec r) ++ os.flatMap fun o => srcRun o.2 o.1) (os.map fun o => o.1)
      (some (.vec r)) s c popped) :
    LaneFramed ins r s (LaneAt (os.map fun o => o.1) popped s) c := by
  refine laneFramed_of_put H.first (fun o ho => ?_) (hc s c popped H)
  rw [List.map_map] at ho
  obtain ⟨l, hl, rfl⟩ := List.mem_map.1 ho
  exact ⟨hl, hf _⟩

/-- R237, R238: a word that moves one register across lanes; it sets no flag. -/
theorem laneFramed_of_laneMove {ob : Option Src} {from_ : Word → Nat → Nat}
    (hi : exec ins s = laneMove x .n32 (.vec r) a ob from_ s)
    (H : LaneIssues x (vDs 1 (.vec r)) (dstRun 1 (.vec r) ++ srcRun 1 a ++ ob.toList.flatMap (srcRun 1)) (a :: ob.toList)
      (some (.vec r)) s c popped) :
    LaneFramed ins r s (LaneAt (a :: ob.toList) popped s) c := by
  refine laneFramed_of_put (fs := []) H.first ?_ (hi.trans ((laneRun_of_issues H _).trans (H.endL_eq _)))
  intro o ho
  obtain ⟨l, hl, rfl⟩ := List.mem_map.1 ho
  exact ⟨hl, rfl⟩

/-- Settles O12: each word puts one register in each active lane, by what it computes there or moves there. -/
theorem laneFrame : Obligations.LaneFrame := by
  intro h d a b c r sat tt n os ins s x popped hmem H
  simp only [List.mem_cons, List.not_mem_nil, or_false, Prod.mk.injEq] at hmem
  show LaneFramed ins d s _ x
  obtain ⟨rfl, rfl⟩ | ⟨rfl, rfl⟩ | ⟨rfl, rfl⟩ | ⟨rfl, rfl⟩ | ⟨rfl, rfl⟩ | ⟨rfl, rfl⟩ | ⟨rfl, rfl⟩ | ⟨rfl, rfl⟩ | ⟨rfl, rfl⟩ |
    ⟨rfl, rfl⟩ | ⟨rfl, rfl⟩ | ⟨rfl, rfl⟩ | ⟨rfl, rfl⟩ | ⟨rfl, rfl⟩ | ⟨rfl, rfl⟩ | ⟨rfl, rfl⟩ := hmem
  · exact laneFramed_of_computes (computes_of_lane2 (f := f32Add r) fun _ => rfl) (fun _ => rfl) H
  · exact laneFramed_of_computes (computes_of_lane2 (f := f32Sub r) fun _ => rfl) (fun _ => rfl) H
  · exact laneFramed_of_computes (computes_of_lane2 (f := f32Mul r) fun _ => rfl) (fun _ => rfl) H
  · exact laneFramed_of_computes (computes_of_lane3 (f := f32Fma r) fun _ => rfl) (fun _ => rfl) H
  · exact laneFramed_of_computes (computes_of_lane2 (f := f32MinMax false) fun _ => rfl) (fun _ => rfl) H
  · exact laneFramed_of_computes (computes_of_lane2 (f := f32MinMax true) fun _ => rfl) (fun _ => rfl) H
  · exact laneFramed_of_computes (computes_of_lane2 (f := fun x y => f32Div x y r) fun _ => rfl) (fun _ => rfl) H
  · exact laneFramed_of_computes (computes_of_lane1 (f := fun x => f32Sqrt x r) fun _ => rfl) (fun _ => rfl) H
  · exact laneFramed_of_computes (computes_of_lane1 (f := fun x => (f32Class x, 0)) fun _ => rfl) (fun _ => rfl) H
  · exact laneFramed_of_computes (computes_of_laneOp fun _ => rfl) (fun _ => rfl) H
  · exact laneFramed_of_computes (computes_of_laneOp fun _ => rfl) (fun _ => rfl) H
  · exact laneFramed_of_computes (computes_of_laneOp fun _ => rfl) (fun _ => rfl) H
  · exact laneFramed_of_computes (computes_of_laneOp fun _ => rfl) (fun _ => rfl) H
  · exact laneFramed_of_computes (computes_of_laneOp fun _ => rfl) (fun _ => rfl) H
  · exact laneFramed_of_laneMove (ob := some b) (from_ := fun y _ => y.toNat % 32) rfl H
  · exact laneFramed_of_laneMove (ob := none) (from_ := fun _ l => l ^^^ n.toNat) rfl H

end Sys2Proof.Machine
end

section
/-! The conversions of the lane stream (R222–R228, R117): the shape of a conversion word, to a register or to a half of one, and each
word as such a one. -/

namespace Sys2Proof.Machine

variable {i : Instr} {h : LHdr} {ty sty : NType} {shi sr hi : Bool} {d : Dst} {rg : VReg} {a b c : Src} {r : RS} {n : Nat}

/-! ## One value -/

/-- The results and flags of a conversion of one value, in each active lane: `f` of its random halves and its operand. -/
def convOuts (sty : NType) (a : Src) (f : (Nat → Nat) → Nat → List Word × Flags) (x : LCtx) (s : State) : List (Nat × List Word × Flags) :=
  x.lanes.map fun l => (l, f (randomHalf s l) (natOf sty.regs fun k => x.val s 0 a k l))

/-- R227: a conversion of one value writes its registers, or for a type of 16 bits a half of one; where it rounds stochastically, the
counter of each active lane takes a step (R117). -/
def Converts (i : Instr) (h : LHdr) (ty sty : NType) (d : Dst) (hi : Bool) (rg : VReg) (a : Src) (sr : Bool)
    (f : (Nat → Nat) → Nat → List Word × Flags) : Prop :=
  (ty.bits ≠ 16 → Does i h (vDs ty.regs d) (dstRun ty.regs d ++ srcRun sty.regs a) [a] (some d) fun x s =>
    flagAll ((convOuts sty a f x s).map fun o => o.2.2)
      (x.put false d ((convOuts sty a f x s).map fun o => (o.1, o.2.1)) (x.stepCtr sr s)))
  ∧ (ty.bits = 16 → d = .vec rg → Does i h [(vKey rg.toNat 0, halfBits hi)] ((rg.toNat, 1) :: srcRun sty.regs a) [a] none fun x s =>
    flagAll ((convOuts sty a f x s).map fun o => o.2.2)
      (x.putHalf false rg.toNat hi ((convOuts sty a f x s).map fun o => (o.1, o.2.1)) (x.stepCtr sr s)))

theorem converts_of_laneConv {f : (Nat → Nat) → Nat → List Word × Flags}
    (he : ∀ s, exec i s = laneConv h sr ty sty ⟨d, hi⟩ a f s) : Converts i h ty sty d hi rg a sr f := by
  constructor
  · intro hbits s x popped H
    rw [he, laneConv, if_neg hbits]
    simp only [laneCvt, List.map_cons, List.map_nil, List.flatMap_cons, List.flatMap_nil, List.append_nil]
    exact (laneRun_of_issues H _).trans (H.endL_eq _)
  · rintro hbits rfl s x popped H
    rw [he, laneConv, if_pos hbits]
    simp only [laneCvtHalf, List.map_cons, List.map_nil, List.flatMap_cons, List.flatMap_nil, List.append_nil]
    exact (laneRun_of_issues H _).trans (H.endL_eq _)

/-! ## Runs -/

/-- A conversion word that gives registers does so whenever it issues. -/
theorem does_of_laneCvt {os : List Opd} {f : (Nat → Nat) → (Nat → Nat → Word) → List Word × Flags}
    (he : ∀ s, exec i s = laneCvt h sr d n os f s) :
    Does i h (vDs n d) (dstRun n d ++ os.flatMap fun o => srcRun o.2 o.1) (os.map fun o => o.1) (some d) fun x s =>
      let p (l : Nat) := f (randomHalf s l) fun j k => x.val s j ((os.map fun o => o.1).getD j (.vec 0)) k l
      flagAll (x.lanes.map fun l => (p l).2) (x.put false d (x.lanes.map fun l => (l, (p l).1)) (x.stepCtr sr s)) := by
  intro s x popped H
  rw [he, laneCvt]
  refine (laneRun_of_issues H _).trans ((H.endL_eq _).trans ?_)
  simp only [List.map_map]
  rfl

/-- R224: a run of n elements, with the scale code of its second operand where it has one. -/
theorem does_of_cvtN {nd ns : Nat} {bo : Option Src} (he : ∀ s, exec i s = cvtN n h ty sty sr d a bo r s)
    (ht : cvtTable n ty sty = some (nd, ns)) :
    Does i h (vDs nd d) (dstRun nd d ++ srcRun ns a ++ bo.toList.flatMap (srcRun 1)) (a :: bo.toList) (some d) fun x s =>
      let e (l : Nat) : Nat := bo.elim 127 fun b => (x.val s 1 b 0 l).toNat % 256
      let p (l : Nat) := cvtRun n ty sty r sr (randomHalf s l) (e l) (natOf ns fun k => x.val s 0 a k l)
      flagAll (x.lanes.map fun l => (p l).2) (x.put false d (x.lanes.map fun l => (l, regsOf nd (p l).1)) (x.stepCtr sr s)) := by
  simp only [cvtN, ht] at he
  rw [List.append_assoc]
  cases bo with
  | none => exact does_of_laneCvt he
  | some b => exact does_of_laneCvt he

/-! ## The nibbles of R226 -/

theorem qenc_does (k : BitVec 3) :
    Does (.qenc h (.vec rg) a b c k) h [(vKey rg.toNat 0, 15#32 <<< (4 * k.toNat))]
      ((rg.toNat, 1) :: (srcRun 1 a ++ (srcRun 1 b ++ srcRun 1 c))) [a, b, c] none fun x s =>
        let p (l : Nat) := encodeQN4 (x.val s 0 a 0 l) ((x.val s 1 b 0 l).toNat % 256) (x.val s 2 c 0 l)
        flagAll (x.lanes.map fun l => (p l).2) (x.putV false rg.toNat (15#32 <<< (4 * k.toNat))
          (x.lanes.map fun l => (l, [BitVec.ofNat 32 (p l).1 <<< (4 * k.toNat)])) s) := by
  intro s x popped H
  show execQenc h (.vec rg) a b c k s = _
  simp only [execQenc, List.flatMap_cons, List.flatMap_nil, List.append_nil]
  refine (laneRun_of_issues H _).trans ((H.endL_eq _).trans ?_)
  simp only [List.map_map]
  rfl

/-- Settles O50: a conversion of one value by its shape, a run by its table, and QDEC and QENC by what they do in each lane. -/
theorem laneConversions : Obligations.LaneConversions := by
  intro h ty sty shi sr d hi a b c bo rg k r rm sat put code
  have hput {i : Instr} {sr : Bool} {f : (Nat → Nat) → Nat → List Word × Flags}
      (he : ∀ s, exec i s = laneConv h sr ty sty ⟨d, hi⟩ a f s) : put i sr f := converts_of_laneConv he
  -- With its body hidden, `put` gives the word and its function by its arguments alone.
  clear_value put
  refine ⟨?cvt, ?itof, ?ftoi, ?icvt, ?runs, ?qdec, qenc_does k⟩
  case cvt =>
    refine hput fun s => ?_
    show execCvt h ty sty shi sr ⟨d, hi⟩ a r s = _
    simp only [execCvt, code]
  case itof =>
    refine hput fun s => ?_
    show execItof h ty sty shi sr ⟨d, hi⟩ a r s = _
    simp only [execItof, code]
  case ftoi =>
    refine hput fun s => ?_
    show execFtoi h ty sty shi ⟨d, hi⟩ a rm s = _
    simp only [execFtoi]
  case icvt =>
    refine hput fun s => ?_
    show execIcvt h ty sty shi ⟨d, hi⟩ a sat s = _
    simp only [execIcvt]
  case runs =>
    intro n i nd ns hword ht
    have he : ∀ s, exec i s = cvtN n h ty sty sr d a bo r s := by
      obtain ⟨rfl, rfl, rfl⟩ | ⟨rfl, rfl⟩ | ⟨rfl, rfl⟩ := hword <;> exact fun _ => rfl
    cases bo with
    | none => exact does_of_cvtN he ht
    | some b => exact does_of_cvtN he ht
  case qdec =>
    have he (s : State) : exec (.qdec h ty sr d a b c r) s = execQdec h ty sr d a b c r s := rfl
    simp only [execQdec] at he
    rw [← List.append_nil (srcRun 1 c)]
    exact does_of_laneCvt he

end Sys2Proof.Machine
end

section
/-! Requests from outside: those of the host (R467, R468, R400), of peers (R471–R473) and of the network (R474). -/

namespace Sys2Proof.Machine

variable {vf addr p owner peer : Nat} {req : MemReq} {s : State}

/-! ## The host -/

theorem execHostMemAccess_host (ha : reqAtomic req = false) :
    execHostMemAccess 16 none addr req s = .next (serve s (hostKey addr) req) := by simp [execHostMemAccess, ha]

section Functions

variable (ha : reqAtomic req = false) (hvf : vf < 16)
include ha hvf

/-- R430: a request of a virtual function is served where it names an interface in use. -/
theorem execHostMemAccess_named (hp : (s.ctxs.any fun c => c.id / 64 = vf && c.pasid.toNat = p) = true) :
    execHostMemAccess vf (some p) addr req s = .next (servePart s vf addr req) := by
  simp only [execHostMemAccess, ha, Bool.false_eq_true, if_false, if_neg (Nat.not_le.mpr hvf), if_pos hp]

/-- R400, R430: one that names no interface freezes its function. -/
theorem execHostMemAccess_unnamed (hp : (s.ctxs.any fun c => c.id / 64 = vf && c.pasid.toNat = p) = false)
    (hpresent : (s.vf vf).present = true) :
    execHostMemAccess vf (some p) addr req s = .next (refuse (freezeVf s vf true)) := by
  simp only [execHostMemAccess, ha, hp, hpresent, Bool.false_eq_true, if_false, if_true, if_neg (Nat.not_le.mpr hvf)]

end Functions

theorem execHostAtomic_atomic (ha : reqAtomic req = true) : execHostAtomic vf addr req s = .next (servePart s vf addr req) := if_pos ha

/-! ## The network -/

theorem execRoceReceive_unpaired (hq : pairVf s vf = none) : execRoceReceive vf addr req s = .next (refuse s) := by
  simp only [execRoceReceive, hq]

section Pairs

variable (hq : pairVf s vf = some owner)
include hq

/-- R474: a function without a collective engine receives nothing. -/
theorem execRoceReceive_unequipped (hc : State.popCount (s.vf owner).coll = 0) :
    execRoceReceive vf addr req s = .next (refuse s) := by
  simp only [execRoceReceive, hq, if_pos hc]

/-- R474: an exchange is no operation of the network, whoever has the queue pair. -/
theorem execRoceReceive_exch {x : DWord} : execRoceReceive vf addr (.exch x) s = .next (refuse s) := by
  simp only [execRoceReceive, hq, ite_self]

variable (hc : State.popCount (s.vf owner).coll ≠ 0)
include hc

theorem execRoceReceive_send {x : List Byte} :
    execRoceReceive vf addr (.send x) s = .next { s with linkResp := [], linkOk := true } := by
  simp only [execRoceReceive, hq, if_neg hc, answer]

/-- R474: the other operations are served in the function's partition. -/
theorem execRoceReceive_served (hexch : ∀ x, req ≠ .exch x) (hsend : ∀ x, req ≠ .send x) :
    execRoceReceive vf addr req s = .next (servePart s owner addr req) := by
  cases req with
  | read | write | add | cas => simp only [execRoceReceive, hq, if_neg hc]
  | exch x => exact absurd rfl (hexch x)
  | send x => exact absurd rfl (hsend x)

end Pairs

/-- Settles O58: each event, in each case of its request and of who may make it, has its lemma. -/
theorem outsideRequests : Obligations.OutsideRequests := by
  intro vf addr peer port core key p req s
  refine ⟨execHostMemAccess_host, execHostMemAccess_named, execHostMemAccess_unnamed, execHostAtomic_atomic, rfl, rfl,
    fun owner hq => ⟨execRoceReceive_served hq, ?send, ?exch, execRoceReceive_unequipped hq⟩, execRoceReceive_unpaired, ?timeout,
    ?again, rfl, rfl, rfl, rfl, rfl⟩
  case send =>
    rintro x hc rfl
    exact execRoceReceive_send (addr := addr) (x := x) hq hc
  case exch =>
    rintro x rfl
    exact execRoceReceive_exch (addr := addr) (x := x) hq
  case timeout => exact fun hl => if_neg (ne_true_of_eq_false hl)
  case again => exact fun hl => if_pos hl

end Sys2Proof.Machine
end

section
/-! The scalar memory words where they are refused (R128, R130, R196–R198, R401, R472): a translation that fails, poisoned bytes, a
place outside its space, and the waits of TSTB and ATOMS. -/

namespace Sys2Proof.Machine

variable {w : Bool} {a b c d : SReg} {s s1 : State} {key code : Nat} {dup : Bool}

/-! ## Faults -/

/-- R182: the fault of a control word with an address of 64 bits. -/
theorem faultC_addr (s : State) (code : Nat) (x : DWord) :
    faultC s code x.toNat = .next (takeFault s { code := BitVec.ofNat 8 code, pc := s.g.pc, addr := x } []) := by
  rw [faultC, BitVec.ofNat_toNat, BitVec.setWidth_eq]

section Loads

variable {va : DWord} {n : Nat} {k : State → List Byte → Res}

/-- R401: a load meets poison. -/
theorem loadC_poisoned (hx : s.xlate va n .rd = (s1, .ok key dup)) (hp : s1.poisonedHere key n = true) :
    loadC s va n k = faultC s1 0x0D va.toNat := by simp only [loadC, hx, if_pos hp]

theorem loadC_refused (hx : s.xlate va n .rd = (s1, .fault code)) : loadC s va n k = faultC s1 code va.toNat := by
  simp only [loadC, hx]

end Loads

/-! ## LDS, STS and LDC -/

section Words

variable {i : BitVec 13}

theorem execLds_poisoned (hx : s.xlate (s.g.rdP s.tick a + BitVec.ofInt 64 i.toInt) 4 .rd = (s1, .ok key dup))
    (hp : s1.poisonedHere key 4 = true) :
    execLds w d a i s = faultC s1 0x0D (s.g.rdP s.tick a + BitVec.ofInt 64 i.toInt).toNat := by
  rw [execLds, ldsAt]
  exact loadC_poisoned hx hp

theorem execLds_refused (hx : s.xlate (s.g.rdP s.tick a + BitVec.ofInt 64 i.toInt) 4 .rd = (s1, .fault code)) :
    execLds w d a i s = faultC s1 code (s.g.rdP s.tick a + BitVec.ofInt 64 i.toInt).toNat := by
  rw [execLds, ldsAt]
  exact loadC_refused hx

theorem execSts_refused (hx : s.xlate (s.g.rdP s.tick a + BitVec.ofInt 64 i.toInt) 4 .wr = (s1, .fault code)) :
    execSts w d a i s = faultC s1 code (s.g.rdP s.tick a + BitVec.ofInt 64 i.toInt).toNat := by
  have hx' : s.xlate (s.g.rdP s.tick a + i.signExtend 64) 4 .wr = (s1, .fault code) := hx
  simp only [execSts, stsAt, hx']
  rfl

/-- R128: the offset of a constant inside the bank passes the check of its bounds. -/
theorem ldc_inBank {off : Int} (hlow : 0 ≤ off) (hhigh : off + 4 ≤ (constSize s.t : Int)) :
    ¬(off < 0 || (constSize s.t : Int) < off + 4) = true := by
  simp
  omega

section Constants

variable {off : Int} (hoff : off = ((s.g.rdS s.tick a).toNat : Int) + i.toInt)
include hoff

theorem execLdc_misaligned (halign : (constBase s.t + BitVec.ofInt 64 off).toNat % 4 ≠ 0) :
    execLdc w d a i s = faultC s 0x03 (constBase s.t + BitVec.ofInt 64 off).toNat := by
  simp only [execLdc, ldcAt, imm32_toInt, ← hoff, if_pos halign]

variable (halign : (constBase s.t + BitVec.ofInt 64 off).toNat % 4 = 0)
include halign

/-- R128: a constant outside the bank faults with its offset. -/
theorem execLdc_outside (hout : off < 0 ∨ (constSize s.t : Int) < off + 4) :
    execLdc w d a i s = faultC s 0x06 (BitVec.ofInt 64 off).toNat := by
  have hout' : (off < 0 || (constSize s.t : Int) < off + 4) = true := by simpa using hout
  simp only [execLdc, ldcAt, imm32_toInt, ← hoff, if_neg (not_not.mpr halign), if_pos hout']

variable (hlow : 0 ≤ off) (hhigh : off + 4 ≤ (constSize s.t : Int))
include hlow hhigh

theorem execLdc_poisoned (hx : s.xlate (constBase s.t + BitVec.ofInt 64 off) 4 .rd = (s1, .ok key dup))
    (hp : s1.poisoned key 4 = true) :
    execLdc w d a i s = faultC s1 0x0D (constBase s.t + BitVec.ofInt 64 off).toNat := by
  simp only [execLdc, ldcAt, imm32_toInt, ← hoff, if_neg (not_not.mpr halign), if_neg (ldc_inBank hlow hhigh), hx, if_pos hp]

theorem execLdc_refused (hx : s.xlate (constBase s.t + BitVec.ofInt 64 off) 4 .rd = (s1, .fault code)) :
    execLdc w d a i s = faultC s1 code (constBase s.t + BitVec.ofInt 64 off).toNat := by
  simp only [execLdc, ldcAt, imm32_toInt, ← hoff, if_neg (not_not.mpr halign), if_neg (ldc_inBank hlow hhigh), hx]

end Constants

end Words

/-! ## TSTB -/

section Tests

variable {q : QReg} {ck : TestKind}

theorem execTstb_poisoned (hx : s.xlate (s.g.rdP s.tick a) 4 .rd = (s1, .ok key dup)) (hp : s1.poisonedHere key 4 = true) :
    execTstb w a b q false ck s = faultC s1 0x0D (s.g.rdP s.tick a).toNat := loadC_poisoned hx hp

theorem execTstb_refused (hx : s.xlate (s.g.rdP s.tick a) 4 .rd = (s1, .fault code)) :
    execTstb w a b q false ck s = faultC s1 code (s.g.rdP s.tick a).toNat := loadC_refused hx

theorem execTstb_misaligned (halign : (s.g.rdS s.tick a).toNat % 4 ≠ 0) :
    execTstb w a b q true ck s = faultC s 0x03 (s.g.rdS s.tick a).toNat := by
  simp only [execTstb, if_true, if_pos halign]

variable (halign : (s.g.rdS s.tick a).toNat % 4 = 0)
include halign

theorem execTstb_outside (hout : s.t.wsize < (s.g.rdS s.tick a).toNat + 4) :
    execTstb w a b q true ck s = faultC s 0x05 (s.g.rdS s.tick a).toNat := by
  have hspIn : (!s.spIn (s.g.rdS s.tick a).toNat 4) = true := by
    simp [State.spIn]
    omega
  simp only [execTstb, if_true, if_neg (not_not.mpr halign), if_pos hspIn]

/-- R130, R196: the test of an empty line returns once the line is full. -/
theorem execTstb_empty (hin : (s.g.rdS s.tick a).toNat + 4 ≤ s.t.wsize) (hfull : s.spFull (s.g.rdS s.tick a).toNat 4 = false) :
    execTstb w a b q true ck s = tstbWait w q ck (s.g.rdS s.tick b) (s.g.rdS s.tick a).toNat s := by
  simp [execTstb, halign, State.spIn_of_le hin, hfull]

end Tests

/-! ## ATOMS -/

section Atomics

variable {op : AtomOp} {sc : Scope}

/-- R472: where the check of an atomic at a peer's window refuses it. -/
theorem uncarried_iff : (!op.carried && (s1.peerOf key).isSome) = true ↔ ¬(op.carried = true ∨ (s1.peerOf key).isSome = false) := by
  rw [not_or, Bool.not_eq_true, Bool.not_eq_false, Bool.and_eq_true, Bool.not_eq_true']

theorem execAtoms_due (hl : s.g.loadsDue = true) : execAtoms w a b c op sc s = .next (s.parkC .again) := afterLoads_due hl

variable (hl : s.g.loadsDue = false)
include hl

theorem execAtoms_refused (hx : s.xlate (s.g.rdP s.tick b) 8 .at = (s1, .fault code)) :
    execAtoms w a b c op sc s = faultC s1 code (s.g.rdP s.tick b).toNat := by
  rw [execAtoms, afterLoads_performed hl]
  simp only [hx]

variable (hx : s.xlate (s.g.rdP s.tick b) 8 .at = (s1, .ok key dup))
include hx

/-- R472: an atomic that no fabric carries faults in a peer's window. -/
theorem execAtoms_uncarried (hpeer : ¬(op.carried = true ∨ (s1.peerOf key).isSome = false)) :
    execAtoms w a b c op sc s = faultC s1 0x13 (s.g.rdP s.tick b).toNat := by
  rw [execAtoms, afterLoads_performed hl]
  simp only [hx, if_pos (uncarried_iff.mpr hpeer)]

theorem execAtoms_poisoned (hpeer : op.carried = true ∨ (s1.peerOf key).isSome = false) (hp : s1.poisonedHere key 8 = true) :
    execAtoms w a b c op sc s = faultC s1 0x0D (s.g.rdP s.tick b).toNat := by
  rw [execAtoms, afterLoads_performed hl]
  simp only [hx, if_neg (mt uncarried_iff.mp (not_not.mpr hpeer)), if_pos hp]

end Atomics

/-- Settles O22: each word, in each case of its access, has its lemma; a refused one faults with the address it gives. -/
theorem scalarMemory : Obligations.ScalarMemory := by
  intro w d a b c i q t op sc s s1 key dup va word read off bank mask fault
  have faults {r : Res} {u : State} {code : Nat} {x : DWord} (h : r = faultC u code x.toNat) : r = fault u code x :=
    h.trans (faultC_addr u code x)
  have faultsAt {r : Res} {u : State} {code o : Nat} (h : r = faultC u code o) : r = fault u code (BitVec.ofNat 64 o) := h
  refine ⟨?lds, ?ldsRefused, ?sts, ?stsRefused, ?ldc, ?ldcMisaligned, ?ldcOutside, ?tstb, ?tstbRefused, ?tstbPlace, ?tstbFull,
    ?tstbEmpty, ?atomsDue, ?atomsRefused, ?atoms⟩
  case lds => exact fun hx => ⟨fun hp => execLds_granted hx hp, fun hp => faults (execLds_poisoned hx hp)⟩
  case ldsRefused => exact fun code hx => faults (execLds_refused hx)
  case sts => exact fun hx => execSts_granted hx
  case stsRefused => exact fun code hx => faults (execSts_refused hx)
  case ldc =>
    exact fun halign hlow hhigh => ⟨fun hx hp => execLdc_granted rfl halign hlow hhigh hx hp,
      fun hx hp => faults (execLdc_poisoned rfl halign hlow hhigh hx hp),
      fun code hx => faults (execLdc_refused rfl halign hlow hhigh hx)⟩
  case ldcMisaligned => exact fun halign => faults (execLdc_misaligned rfl halign)
  case ldcOutside => exact fun halign hout => faults (execLdc_outside rfl halign hout)
  case tstb => exact fun hx hp => execTstb_memory hx hp
  case tstbRefused => exact ⟨fun hx hp => faults (execTstb_poisoned hx hp), fun code hx => faults (execTstb_refused hx)⟩
  case tstbPlace =>
    exact ⟨fun halign => faultsAt (execTstb_misaligned halign), fun halign hout => faultsAt (execTstb_outside halign hout)⟩
  case tstbFull => exact fun halign hin hfull => execTstb_window halign hin hfull
  case tstbEmpty => exact fun halign hin hfull => execTstb_empty halign hin hfull
  case atomsDue => exact fun hl => execAtoms_due hl
  case atomsRefused =>
    exact fun hl => ⟨fun hx hpeer hp => faults (execAtoms_poisoned hl hx hpeer hp),
      fun hx hpeer => faults (execAtoms_uncarried hl hx hpeer), fun code hx => faults (execAtoms_refused hl hx)⟩
  case atoms => exact fun hl hx hpeer hp => execAtoms_granted hl hx hpeer hp

end Sys2Proof.Machine
end

section
/-! The stage barriers where an update is misuse, where a wait goes on waiting and where it has lost its barrier (R157–R162, R203), and
YIELD without a soft request (R204). -/

namespace Sys2Proof.Machine

variable {w : Bool} {a b c : SReg} {s : State} {o : Nat}

/-! ## Updates -/

/-- R158: an update of a barrier that is not valid is misuse. -/
theorem barUpdate_invalid {x : Bar} (hx : x.valid = false) (dp : Int) (da de : Nat) : barUpdate x dp da de = none := by
  simp [barUpdate, barMisuse, hx]

section Instr

variable {ok upd : Bool} {f : Bar → Option Bar} (h : o % 16 = 0 ∧ o + 16 ≤ s.t.wsize)
include h

/-- R158, R161: an update with an operand out of its range, or that would be misuse, faults with the barrier's offset. -/
theorem barInstr_misuse (hbad : ok = false ∨ f (s.bar o) = none) : barInstr w o ok upd f s = faultC s 0x07 o := by
  rcases hbad with rfl | hf
  · simp [barInstr, barOffsetFault_sound h]
  · cases ok <;> simp [barInstr, barOffsetFault_sound h, hf]

end Instr

/-- R162, R362: outside handler mode, and with an aligned continuation, YIELDC is legal. -/
theorem yieldc_legal (hm : s.g.mode ≠ .handler) (hcont : (s.g.rdS s.tick c).extractLsb' 0 2 = 0) :
    ¬(s.g.inHandler || (s.g.rdS s.tick c).extractLsb' 0 2 ≠ 0) = true := by simp [Group.inHandler, hm, hcont]

section Words

variable (h : (s.g.rdS s.tick a).toNat % 16 = 0 ∧ (s.g.rdS s.tick a).toNat + 16 ≤ s.t.wsize)
include h

theorem execBari_misuse (hbase : 65535 < (s.g.rdS s.tick b).toNat) :
    execBari w a b s = faultC s 0x07 (s.g.rdS s.tick a).toNat :=
  barInstr_misuse (upd := false) (f := fun _ => some (barInit (s.g.rdS s.tick b).toNat)) h
    (.inl (decide_eq_false (Nat.not_le.mpr hbase)))

theorem execBarx_misuse (hbad : 65535 < (s.g.rdS s.tick c).toNat ∨ (s.bar (s.g.rdS s.tick a).toNat).valid = false) :
    execBarx w a b c s = faultC s 0x07 (s.g.rdS s.tick a).toNat :=
  barInstr_misuse (upd := true) (f := fun x => barUpdate x (s.g.rdS s.tick b).toNat 0 (s.g.rdS s.tick c).toNat) h
    (hbad.imp (fun hn => decide_eq_false (Nat.not_le.mpr hn)) fun hv => barUpdate_invalid hv _ _ _)

/-- R158, R203: an arrival that counts nothing is misuse too. -/
theorem execBara_misuse (hl : s.g.loadsDue = false) (hbad : ((s.g.rdS s.tick b).toNat = 0 ∨ 65535 < (s.g.rdS s.tick b).toNat)
      ∨ (s.bar (s.g.rdS s.tick a).toNat).valid = false) :
    execBara w a b s = faultC s 0x07 (s.g.rdS s.tick a).toNat :=
  (afterLoads_performed hl).trans
    (barInstr_misuse (upd := true) h (hbad.imp (fun hn => by simp; omega) fun hv => barUpdate_invalid hv _ _ _))

/-! ## Waits -/

theorem execWaitb_waits (ht : waitTest s (s.g.rdS s.tick a).toNat ((s.g.rdS s.tick b).getLsbD 0) = some false) :
    execWaitb w a b s = .next (parkOn .waitb (s.g.rdS s.tick a).toNat s) := by
  simp only [execWaitb, barOffsetFault_sound h, ht]

theorem execWaitb_goes (ht : waitTest s (s.g.rdS s.tick a).toNat ((s.g.rdS s.tick b).getLsbD 0) = some true) :
    execWaitb w a b s = .next ((barAcquire s).endC w 4) := by
  simp only [execWaitb, barOffsetFault_sound h, ht]

/-- R160: a barrier that is not valid, or was lost while the group waited, is misuse. -/
theorem execWaitb_misuse (ht : waitTest s (s.g.rdS s.tick a).toNat ((s.g.rdS s.tick b).getLsbD 0) = none) :
    execWaitb w a b s = faultC s 0x07 (s.g.rdS s.tick a).toNat := by
  simp only [execWaitb, barOffsetFault_sound h, ht]

section Yieldc

variable (hm : s.g.mode ≠ .handler) (hcont : (s.g.rdS s.tick c).extractLsb' 0 2 = 0)
include hm hcont

/-- R162: a YIELDC drains first. -/
theorem execYieldc_undrained (hdry : s.g.drained s.g.cStrm = false) : execYieldc w a b c s = .next (s.parkC .again) := by
  simp only [execYieldc, if_neg (yieldc_legal hm hcont), barOffsetFault_sound h, hdry]
  rfl

variable (hdry : s.g.drained s.g.cStrm = true)
include hdry

theorem execYieldc_goes (ht : waitTest s (s.g.rdS s.tick a).toNat ((s.g.rdS s.tick b).getLsbD 0) = some true) :
    execYieldc w a b c s = .next ((s.l1Invalidate s.l1Id).mapG fun g => { g.dropReturned g.cStrm with
      pc := g.pc.extractLsb' 32 32 ++ s.g.rdS s.tick c, park := .none, waitBar := none, barLost := false }) := by
  have ht' : waitTest (s.mapG fun g => g.dropReturned g.cStrm) _ _ = _ := ht
  simp only [execYieldc, if_neg (yieldc_legal hm hcont), barOffsetFault_sound h, hdry, ht']
  rfl

theorem execYieldc_waits (ht : waitTest s (s.g.rdS s.tick a).toNat ((s.g.rdS s.tick b).getLsbD 0) = some false) :
    execYieldc w a b c s = .next (parkOn .yieldc (s.g.rdS s.tick a).toNat (s.mapG fun g => g.dropReturned g.cStrm)) := by
  have ht' : waitTest (s.mapG fun g => g.dropReturned g.cStrm) _ _ = _ := ht
  simp only [execYieldc, if_neg (yieldc_legal hm hcont), barOffsetFault_sound h, hdry, ht']
  rfl

theorem execYieldc_misuse (ht : waitTest s (s.g.rdS s.tick a).toNat ((s.g.rdS s.tick b).getLsbD 0) = none) :
    execYieldc w a b c s = faultC (s.mapG fun g => g.dropReturned g.cStrm) 0x07 (s.g.rdS s.tick a).toNat := by
  have ht' : waitTest (s.mapG fun g => g.dropReturned g.cStrm) _ _ = _ := ht
  simp only [execYieldc, if_neg (yieldc_legal hm hcont), barOffsetFault_sound h, hdry, ht']
  rfl

end Yieldc

end Words

/-- R204: YIELD with no soft request ends as any word, and notes the groups that go first. -/
theorem execYield_free (hsoft : s.t.softReq = none) :
    execYield w s = .next ((s.endC w 4).mapG fun g => { g with yieldTo := yieldsTo (s.endC w 4) }) :=
  if_neg (by rw [State.endC_frame, hsoft]; exact Bool.false_ne_true)

/-- Settles O28: each word, in each case of its operands and of its barrier, has its lemma. -/
theorem stageBarriers : Obligations.StageBarriers := by
  refine ⟨?_, fun w s => execYield_free⟩
  intro w a b c s o B C x misuse flip test acq dry on halign hin
  have h : o % 16 = 0 ∧ o + 16 ≤ s.t.wsize := ⟨halign, hin⟩
  refine ⟨execBari_inits h, fun y => execBarx_updates h, afterLoads_due, fun y hl => execBara_arrives h hl, execBari_misuse h,
    fun hl hn => execBara_misuse h hl (.inl hn), fun hn => execBarx_misuse h (.inl hn),
    fun hv => ⟨execBarx_misuse h (.inr hv), fun hl => execBara_misuse h hl (.inr hv)⟩, execWaitb_goes h, execWaitb_waits h,
    execWaitb_misuse h, execYieldc_undrained (w := w) h, fun hm hcont hdry => ⟨execYieldc_goes (w := w) h hm hcont hdry,
      execYieldc_waits (w := w) h hm hcont hdry, execYieldc_misuse (w := w) h hm hcont hdry⟩⟩

end Sys2Proof.Machine
end

section
/-! The lane words of memory (R130, R134, R143, R147, R246–R251): what a load, a store and an atomic do once they issue, are placed and
find no line empty, and how each ends. -/

namespace Sys2Proof.Machine

variable {h : LHdr} {ty : NType} {o : Order} {sc : Scope} {hi : Bool} {a : LAddr} {s : State} {c : LCtx} {popped : List Nat}

section Ends

variable {ds : List (Nat × Word)} {regs : List (Nat × Nat)} {os : List Src} {d : Option Dst} {mem : Bool}
  {faults : SMap (Byte × DWord)} (H : LaneIssues h ds regs os d s c popped mem)
include H

/-- R211: a lane word without faults ends as any word that issues. -/
theorem LaneIssues.endOr_sound (u : State) (hf : faults = []) : c.endOr faults u = .next (c.past u) := by
  subst hf
  exact H.endL_eq u

/-- R211: the lanes that fault are reported together, in one fault of the word. -/
theorem LaneIssues.endOr_faulty (u : State) (f : Nat × Byte × DWord) (fs : SMap (Byte × DWord)) (hf : faults = f :: fs) :
    c.endOr faults u = .next (takeFault u
      { laneFaultInfo c.sp f.2.1.toNat 0 (maskOf (faults.map fun e => e.1)) faults with taken := true, act := c.all } c.saved) := by
  subst hf
  simp only [LCtx.endOr, H.first]

end Ends

/-! ## What the words do -/

section Words

variable (hsp : spaceLegal s a = true)
include hsp

/-- R247, R249: a load whose accesses no log and no empty line holds reads every place. -/
theorem laneLoad_reads {d : VReg}
    (H : LaneIssues h (loadDs ty d hi) ((d.toNat, ty.regs) :: a.opds.flatMap fun o => srcRun o.2 o.1) (a.opds.map fun o => o.1) none s c
      popped true) :
    let r := c.placeAll a (ty.bits / 8) .rd c.lanes (LaneAt (a.opds.map fun o => o.1) popped s)
    let v := readAll (ty.bits / 8) o sc r
    let outs : Outs := v.vals.map fun x => (x.1, loadRegs ty x.2)
    r.full = false → placesFull r.s r.places (ty.bits / 8) = true →
      laneLoad h ty o sc d hi a s = c.endOr v.faults
        (if ty.bits = 16 then c.putHalf true d.toNat hi outs v.s else c.putV true d.toNat (BitVec.allOnes 32) outs v.s) := by
  intro r v outs hfull hlines
  have hready : ¬(!placesFull r.s r.places (ty.bits / 8)) = true := by simp [hlines]
  rw [laneLoad, if_neg (by simp [hsp]), laneMem_of_issues H]
  exact (if_neg (ne_true_of_eq_false hfull)).trans (if_neg hready)

/-- R248, R249: a store whose accesses no log holds writes every place, after what a release writes back. -/
theorem laneStore_writes {data : Src}
    (H : LaneIssues h [] ((a.opds ++ [(data, ty.regs)]).flatMap fun o => srcRun o.2 o.1) ((a.opds ++ [(data, ty.regs)]).map fun o => o.1)
      none s c popped true) :
    let s1 := LaneAt ((a.opds ++ [(data, ty.regs)]).map fun o => o.1) popped s
    let r := c.placeAll a (ty.bits / 8) .wr (c.lanes.filter fun l => !helperLane s1.g l) s1
    let s2 := if o = .rel && !r.places.isEmpty then r.s.scopeWriteBack sc else r.s
    let t := (laneOrder s2 r.places).foldl (fun s p =>
      writePlace s sc (storeVal ty hi (natOf ty.regs fun k => c.val c.s0 a.opds.length data k p.1)) p.2) s2
    r.full = false → laneStore h ty o sc hi a data s = c.endOr r.faults
      (impure (c.lanes.filter fun l => (SMap.find r.faults l).isNone) (t.markWhole (globKeys r.places) (ty.bits / 8))) := by
  intro s1 r s2 t hfull
  rw [laneStore, if_neg (by simp [hsp]), laneMem_of_issues H]
  exact if_neg (ne_true_of_eq_false hfull)

/-- R250, R251: an atomic whose accesses no log and no empty line holds takes effect at every place, and returns the old values where
it has a destination. -/
theorem laneAtom_updates {op : AtomOp} {d : Option VReg} {data : Src}
    (H : LaneIssues h (d.elim [] fun r => vDs ty.regs (.vec r))
      ((d.toList.map fun r => (r.toNat, ty.regs)) ++ (a.opds ++ [(data, op.regs ty)]).flatMap fun o => srcRun o.2 o.1)
      ((a.opds ++ [(data, op.regs ty)]).map fun o => o.1) none s c popped true) :
    let s1 := LaneAt ((a.opds ++ [(data, op.regs ty)]).map fun o => o.1) popped s
    let r := (c.placeAll a (ty.bits / 8) .at (c.lanes.filter fun l => !helperLane s1.g l) s1).carriedOnly op
    let v := atomAll c op ty o sc a.opds.length data r
    let t := impure (c.lanes.filter fun l => (SMap.find v.faults l).isNone) v.s
    let outs : Outs := ((c.lanes.filter fun l => helperLane s1.g l).map fun l => (l, regsOf ty.regs 0))
      ++ v.vals.map fun x => (x.1, regsOf ty.regs x.2)
    r.full = false → placesFull r.s r.places (ty.bits / 8) = true →
      laneAtom h op ty o sc d a data s = c.endOr v.faults (d.elim t fun r => c.putV true r.toNat (BitVec.allOnes 32) outs t) := by
  intro s1 r v t outs hfull hlines
  have hready : ¬(!placesFull r.s r.places (ty.bits / 8)) = true := by simp [hlines]
  cases d with
  | none =>
    rw [laneAtom, if_neg (by simp [hsp])]
    exact (laneMem_of_issues H _).trans <| (if_neg (ne_true_of_eq_false hfull)).trans (if_neg hready)
  | some d =>
    rw [laneAtom, if_neg (by simp [hsp])]
    exact (laneMem_of_issues H _).trans <| (if_neg (ne_true_of_eq_false hfull)).trans (if_neg hready)

end Words

/-! ## The statements -/

/-- Settles O41: both words are loads; a load reads its places and ends with the faults of their data. -/
theorem laneLoads : Obligations.LaneLoads := by
  intro h ty o sc d hi i a s c popped hword hsp H r v outs t hfull hlines
  have hexec : exec i s = c.endOr v.faults t := by
    obtain ⟨m, rfl, rfl⟩ | ⟨x, rfl, rfl⟩ := hword
    · exact laneLoad_reads hsp H hfull hlines
    · exact laneLoad_reads hsp H hfull hlines
  exact ⟨fun hf => hexec.trans (H.endOr_sound t hf), fun f fs hf => hexec.trans (H.endOr_faulty t f fs hf)⟩

/-- Settles O42: both words are stores; a store writes its places and ends with the faults of their placement. -/
theorem laneStores : Obligations.LaneStores := by
  intro h ty o sc hi i a data s c popped hword hsp os H s1 r s2 t t1 hfull
  have hexec : exec i s = c.endOr r.faults t1 := by
    obtain ⟨m, rfl, rfl⟩ | ⟨x, rfl, rfl⟩ := hword
    · exact laneStore_writes hsp H hfull
    · exact laneStore_writes hsp H hfull
  exact ⟨fun hf => hexec.trans (H.endOr_sound t1 hf), fun f fs hf => hexec.trans (H.endOr_faulty t1 f fs hf)⟩

/-- Settles O43: the three words are atomics; RED has no destination. -/
theorem laneAtomics : Obligations.LaneAtomics := by
  intro h op ty o sc d i a data s c popped hword hsp os H s1 r v t outs hfull hlines hf
  obtain ⟨d, m, rfl, rfl, rfl⟩ | ⟨d, x, rfl, rfl, rfl⟩ | ⟨m, rfl, rfl, rfl⟩ := hword
  · exact (laneAtom_updates (d := some d) hsp H hfull hlines).trans (H.endOr_sound _ hf)
  · exact (laneAtom_updates (d := some d) hsp H hfull hlines).trans (H.endOr_sound _ hf)
  · exact (laneAtom_updates (d := none) hsp H hfull hlines).trans (H.endOr_sound _ hf)

end Sys2Proof.Machine
end

section
/-! What a performed write leaves of memory (R125, R134, R381, R401, R471): the bytes it writes, the bytes it does not, and the poison
of the sectors it writes in part. -/

namespace Sys2Proof.Machine

variable {s t : State} {k a : Nat} {bs : List Byte}

/-! ## Bytes of memory -/

/-- A read of memory sees the two memories, the windows of the peers and the tick. -/
theorem State.rdMem_congr (hmem : t.mem = s.mem) (hhost : t.hostMem = s.hostMem) (hpeers : t.peers = s.peers) (htick : t.tick = s.tick) :
    t.rdMem a = s.rdMem a := by
  simp only [State.rdMem, State.peerOf, hmem, hhost, hpeers, htick]

theorem keyIsHost_device (hk : k < 2 ^ 60) : keyIsHost k = false := decide_eq_false (Nat.not_le.mpr hk)

theorem keyIsHost_host (hk : 2 ^ 60 ≤ k) : keyIsHost k = true := decide_eq_true hk

/-- R471: a key of device memory lies in no peer's window. -/
theorem State.peerOf_device (s : State) (hk : k < 2 ^ 60) : s.peerOf k = none := by
  simp [State.peerOf, keyIsHost_device hk]

theorem State.rdMem_device (s : State) (ha : a < 2 ^ 60) : s.rdMem a = SMap.get 0 s.mem a := by
  simp [State.rdMem, s.peerOf_device ha, keyIsHost_device ha]

theorem State.rdMem_host (ha : 2 ^ 60 ≤ a) (hp : s.peerOf a = none) : s.rdMem a = SMap.get 0 s.hostMem (a - 2 ^ 60) := by
  simp [State.rdMem, hp, keyIsHost_host ha]

/-- R471: of a peer's byte the model holds nothing. -/
theorem State.rdMem_peer {p : Nat} (hp : s.peerOf a = some p) : s.rdMem a = Config.peerByte s.tick a := by simp [State.rdMem, hp]

/-! ## Bytes put -/

theorem State.putBytes_nil (s : State) (k : Nat) : s.putBytes k [] = s := by
  unfold State.putBytes
  split
  · rfl
  · split <;> rfl

theorem State.putBytes_device (s : State) (hk : k < 2 ^ 60) : s.putBytes k bs = { s with mem := SMap.setRun 0 s.mem k bs } := by
  simp [State.putBytes, s.peerOf_device hk, keyIsHost_device hk]

theorem State.putBytes_host (hk : 2 ^ 60 ≤ k) (hp : s.peerOf k = none) :
    s.putBytes k bs = { s with hostMem := SMap.setRun 0 s.hostMem (k - 2 ^ 60) bs } := by
  simp [State.putBytes, hp, keyIsHost_host hk]

/-- R381: bytes put in device memory read back there, and no other byte differs. -/
theorem State.rdMem_putBytes_device (hk : k + bs.length ≤ 2 ^ 60) :
    (s.putBytes k bs).rdMem a = if k ≤ a ∧ a < k + bs.length then bs.getD (a - k) 0 else s.rdMem a := by
  rcases bs with _ | ⟨b, bs⟩
  · rw [State.putBytes_nil, if_neg (by simp)]
  have hlow : k < 2 ^ 60 := by simp at hk; omega
  rw [s.putBytes_device hlow]
  by_cases ha : a < 2 ^ 60
  · rw [State.rdMem_device _ ha, State.rdMem_device _ ha, SMap.get_setRun]
  · rw [if_neg (by omega)]
    simp only [State.rdMem, keyIsHost_host (Nat.not_lt.mp ha), if_true]
    rfl

/-- R381, R471: bytes put in host memory outside the peers' windows read back there, and no other byte differs. -/
theorem State.rdMem_putBytes_host (hk : 2 ^ 60 ≤ k) (hp : s.peerOf k = none)
    (hps : ∀ a, k ≤ a → a < k + bs.length → s.peerOf a = none) :
    (s.putBytes k bs).rdMem a = if k ≤ a ∧ a < k + bs.length then bs.getD (a - k) 0 else s.rdMem a := by
  rw [State.putBytes_host hk hp]
  have hpeer (q : Option Nat) (h : s.peerOf a = q) :
      ({ s with hostMem := SMap.setRun 0 s.hostMem (k - 2 ^ 60) bs } : State).peerOf a = q := h
  cases hpa : s.peerOf a with
  | some p =>
    rw [if_neg fun hin => by simp [hps a hin.1 hin.2] at hpa, State.rdMem_peer hpa]
    exact State.rdMem_peer (hpeer _ hpa)
  | none =>
    by_cases ha : 2 ^ 60 ≤ a
    · rw [State.rdMem_host ha (hpeer _ hpa), State.rdMem_host ha hpa, SMap.get_setRun, show a - 2 ^ 60 - (k - 2 ^ 60) = a - k by omega]
      exact if_congr (by omega) rfl rfl
    · rw [if_neg (by omega), State.rdMem_device _ (Nat.not_le.mp ha), State.rdMem_device _ (Nat.not_le.mp ha)]

/-! ## The write -/

/-- A performed write puts its bytes. -/
theorem State.rdMem_memWrite (s : State) (k : Nat) (bs : List Byte) (a : Nat) : (s.memWrite k bs).rdMem a = (s.putBytes k bs).rdMem a := by
  obtain ⟨hmem, hhost⟩ := s.memWrite_mems k bs
  have hput : (s.putBytes k bs).peers = s.peers ∧ (s.putBytes k bs).tick = s.tick := by
    unfold State.putBytes
    split
    · exact ⟨rfl, rfl⟩
    · split <;> exact ⟨rfl, rfl⟩
  exact State.rdMem_congr hmem hhost ((s.memWrite_peers k bs).trans hput.1.symm) ((s.memWrite_tick k bs).trans hput.2.symm)

/-- R401: a performed write clears the poison of the sectors that it writes whole. -/
theorem State.memWrite_poison (s : State) (k : Nat) (bs : List Byte) :
    (s.memWrite k bs).poison = s.poison.filter fun sec => !(k ≤ 32 * sec && 32 * sec + 32 ≤ k + bs.length) := by
  have hput (u : State) : (u.putBytes k bs).poison = u.poison := by
    unfold State.putBytes
    split
    · rfl
    · split <;> rfl
  exact congrArg (List.filter _) (hput (touchRange s k (k + bs.length)))

/-- Settles O7: a write puts its bytes, in device memory or in host memory, keeps the form of both, and clears the poison of whole
sectors. -/
theorem memoryWrites : Obligations.MemoryWrites := by
  intro s k bs
  refine ⟨fun hk a => ?device, fun hk hps hp a => ?host, fun hs => hs.memWrite k bs, fun sec => ?poison⟩
  case device => exact (s.rdMem_memWrite k bs a).trans (State.rdMem_putBytes_device hk)
  case host => exact (s.rdMem_memWrite k bs a).trans (State.rdMem_putBytes_host hk hp hps)
  case poison =>
    rw [State.memWrite_poison, List.mem_filter, Bool.not_eq_true', Bool.and_eq_false_iff, decide_eq_false_iff_not,
      decide_eq_false_iff_not, ← not_and_or]

end Sys2Proof.Machine
end

section
/-! The frame of stores (R134, R196, R247, R248): what a store that stands in the L1 shows, and that a lane store leaves every byte
outside its places. -/

namespace Sys2Proof.Machine

/-! ## Bytes of a value -/

theorem leBytes_length (n v : Nat) : (leBytes n v).length = n := by
  induction n generalizing v with
  | zero => rfl
  | succ n ih => exact congrArg (· + 1) (ih _)

/-- R4: byte j of a value. -/
theorem leBytes_getD {n j : Nat} (hj : j < n) (v : Nat) : (leBytes n v).getD j 0 = BitVec.ofNat 8 (v / 256 ^ j) := by
  induction n generalizing v j with
  | zero => exact absurd hj (Nat.not_lt_zero j)
  | succ n ih =>
    cases j with
    | zero => simp [leBytes]
    | succ j =>
      rw [leBytes, List.getD_cons_succ, ih (Nat.lt_of_succ_lt_succ hj), Nat.div_div_eq_div_mul, Nat.pow_succ']

theorem leBytes_word {j : Nat} (hj : j < 4) (x : Word) : (leBytes 4 x.toNat).getD j 0 = x.extractLsb' (8 * j) 8 := by
  rw [leBytes_getD hj, BitVec.extractLsb', Nat.shiftRight_eq_div_pow, Nat.pow_mul]

/-! ## Units by number -/

variable {s t u : State}

theorem State.l1_id (s : State) (i : Nat) : (s.l1 i).id = i := by
  unfold State.l1
  cases h : s.l1s.find? fun c => c.id = i with
  | none => rfl
  | some c => simpa using List.find?_some h

theorem State.l1_setL1 (s : State) (c : L1) (i : Nat) : (s.setL1 c).l1 i = if i = c.id then c else s.l1 i := by
  simp only [State.l1, State.setL1, find?_upsert L1.id]
  split <;> rfl

theorem State.cluster_id (s : State) (i : Nat) : (s.cluster i).id = i := by
  unfold State.cluster
  cases h : s.clusters.find? fun c => c.id = i with
  | none => rfl
  | some c => simpa using List.find?_some h

theorem State.cluster_setCluster (s : State) (c : Cluster) (i : Nat) :
    (s.setCluster c).cluster i = if i = c.id then c else s.cluster i := by
  simp only [State.cluster, State.setCluster, find?_upsert Cluster.id]
  split <;> rfl

/-- The L1 of the issuing core as it stands after it is replaced. -/
theorem State.l1_setOwn (s : State) {c : L1} (hc : c.id = (s.l1 s.l1Id).id) : (s.setL1 c).l1 (s.setL1 c).l1Id = c := by
  have hid : (s.setL1 c).l1Id = c.id := ((s.l1_id s.l1Id).symm.trans hc.symm :)
  rw [State.l1_setL1, if_pos hid]

/-- R56: which L1 the issuing core has depends on whether its cluster is fused. -/
theorem State.l1Id_setCluster (s : State) {c : Cluster} (hc : c.id = s.clusterId) (hf : c.fused = (s.cluster s.clusterId).fused) :
    (s.setCluster c).l1Id = s.l1Id := by
  have hown : (s.setCluster c).cluster s.clusterId = c := by rw [State.cluster_setCluster, if_pos hc.symm]
  show (if ((s.setCluster c).cluster s.clusterId).fused then 8 * s.clusterId + 7 else s.coreId) = s.l1Id
  rw [hown, hf]
  rfl

/-! ## What a store in the L1 shows -/

theorem SMap.find_insert {β : Type} (m : SMap β) (k j : Nat) (v : β) :
    SMap.find (SMap.insert m k v) j = if j = k then some v else SMap.find m j := by
  induction m with
  | nil => simp [SMap.insert, SMap.find]
  | cons e m ih =>
    obtain ⟨i, x⟩ := e
    simp only [SMap.insert]
    split
    · subst i
      by_cases hj : j = k <;> simp [SMap.find, hj]
    · split
      · simp [SMap.find]
      · by_cases hj : j = i
        · subst hj
          simp [SMap.find, Ne.symm ‹_›]
        · simp [SMap.find, hj, ih]

/-- A run of values listed one by one. -/
theorem SMap.find_insertRun {β : Type} (m : SMap β) (k n j : Nat) (f : Nat → β) :
    SMap.find ((List.range n).foldl (fun d i => SMap.insert d (k + i) (f i)) m) j
      = if k ≤ j ∧ j < k + n then some (f (j - k)) else SMap.find m j := by
  induction n with
  | zero => rw [if_neg (by omega)]; rfl
  | succ n ih =>
    rw [List.range_succ, List.foldl_append, List.foldl_cons, List.foldl_nil, SMap.find_insert, ih]
    by_cases hj : j = k + n
    · subst hj
      simp
    · rw [if_neg hj]
      exact if_congr (by omega) rfl rfl

/-- An L1 of the issuing core with the same own byte and the same clean lines shows the same byte. -/
theorem State.l1Byte_setOwn (s : State) {c : L1} {k : Nat} (hc : c.id = (s.l1 s.l1Id).id) (hown : c.own k = (s.l1 s.l1Id).own k)
    (hclean : c.clean = (s.l1 s.l1Id).clean) : (s.setL1 c).l1Byte (s.setL1 c).l1Id k k = s.l1Byte s.l1Id k k := by
  have hl1 := s.l1_setOwn hc
  simp only [State.l1Byte, hl1, hown, hclean]
  rfl

/-- R134: the bytes of a store stand in the L1 of the issuing core, and every other byte reads there as before. -/
theorem State.storeBytes_l1Byte (s : State) (key : Nat) (bs : List Byte) (sc : Scope) (dup : Bool) (k : Nat) :
    let t := s.storeBytes key bs sc dup
    t.l1Byte t.l1Id k k = if key ≤ k ∧ k < key + bs.length then bs.getD (k - key) 0 else s.l1Byte s.l1Id k k := by
  intro t
  have hl1 : t.l1 t.l1Id = _ := s.l1_setOwn rfl
  have hdirty := SMap.find_insertRun (s.l1 s.l1Id).dirty key bs.length k fun i => (bs.getD i 0, s.keyScope key sc)
  split
  case isTrue hin =>
    rw [if_pos hin] at hdirty
    simp only [State.l1Byte, L1.own, hl1, hdirty]
  case isFalse hout =>
    rw [if_neg hout] at hdirty
    exact s.l1Byte_setOwn rfl (by simp only [L1.own, hdirty]) rfl

/-! ## Lane stores -/

/-- A key that the n-byte accesses at some places do not meet. -/
def KeyApart (ps : List (Nat × Place)) (n k : Nat) : Prop :=
  ∀ p ∈ ps, ∀ key dup va, p.2 = .glob key dup va → k < key ∨ key + n ≤ k

/-- An offset of the window that they do not meet. -/
def OffsetApart (ps : List (Nat × Place)) (n k : Nat) : Prop := ∀ p ∈ ps, ∀ o, p.2 = .sp o → k < o ∨ o + n ≤ k

/-- From `s` to `t` only the bytes at some places differ, as the issuing group reads them, and of the group what a store and the end of
its word change. -/
structure State.StoresAt (ps : List (Nat × Place)) (n : Nat) (s t : State) : Prop where
  outside : { t with g := s.g, t := { t.t with sp := s.t.sp }, l1s := s.l1s, clusters := s.clusters } = s
  group : { t.g with inv := s.g.inv, gsr := s.g.gsr, pend := s.g.pend, splits := s.g.splits, hsplits := s.g.hsplits } = s.g
  bytes : ∀ k, KeyApart ps n k → t.l1Byte t.l1Id k k = s.l1Byte s.l1Id k k
  window : ∀ k, OffsetApart ps n k → SMap.get 0 t.t.sp k = SMap.get 0 s.t.sp k

namespace State.StoresAt

variable {ps : List (Nat × Place)} {n : Nat}

theorem refl (s : State) : s.StoresAt ps n s := ⟨rfl, rfl, fun _ _ => rfl, fun _ _ => rfl⟩

theorem trans (h₁ : s.StoresAt ps n t) (h₂ : t.StoresAt ps n u) : s.StoresAt ps n u where
  outside := (congrArg (fun x : State =>
    { x with g := s.g, t := { x.t with sp := s.t.sp }, l1s := s.l1s, clusters := s.clusters }) h₂.outside :).trans h₁.outside
  group := (congrArg (fun x : Group =>
    { x with inv := s.g.inv, gsr := s.g.gsr, pend := s.g.pend, splits := s.g.splits, hsplits := s.g.hsplits })
      h₂.group :).trans h₁.group
  bytes k hk := (h₂.bytes k hk).trans (h₁.bytes k hk)
  window k hk := (h₂.window k hk).trans (h₁.window k hk)

theorem sameMem (h : s.StoresAt ps n t) : s.SameMem t := fun k => (congrArg (fun x : State => x.rdMem k) h.outside :)

/-- R248: a store at one of the places. -/
theorem writePlace {p : Nat × Place} (hp : p ∈ ps) {bs : List Byte} (hn : bs.length = n) (s : State) (sc : Scope) :
    s.StoresAt ps n (Machine.writePlace s sc bs p.2) := by
  subst hn
  cases hpl : p.2 with
  | glob key dup va =>
    refine ⟨rfl, rfl, fun k hk => ?_, fun _ _ => rfl⟩
    have hout : ¬(key ≤ k ∧ k < key + bs.length) := by
      have := hk p hp key dup va hpl
      omega
    exact (s.storeBytes_l1Byte key bs sc dup k).trans (if_neg hout)
  | sp o =>
    refine ⟨rfl, rfl, fun _ _ => rfl, fun k hk => ?_⟩
    have hout : ¬(o ≤ k ∧ k < o + bs.length) := by
      have := hk p hp o hpl
      omega
    exact (SMap.get_setRun 0 bs s.t.sp o k).trans (if_neg hout)
  | rf o => exact refl s

theorem foldl {α : Type} {f : State → α → State} {l : List α} (hf : ∀ v : State, ∀ x ∈ l, v.StoresAt ps n (f v x))
    (s : State) : s.StoresAt ps n (l.foldl f s) :=
  List.foldlRecOn (motive := fun t => s.StoresAt ps n t) l f (refl s) fun t ht x hx => ht.trans (hf t x hx)

/-- R401: which sectors were written whole changes no byte. -/
theorem markWhole (s : State) (keys : List Nat) (m : Nat) : s.StoresAt ps n (s.markWhole keys m) := by
  unfold State.markWhole
  dsimp only
  split
  · exact refl s
  · exact ⟨rfl, rfl, fun k _ => s.l1Byte_setOwn rfl rfl rfl, fun _ _ => rfl⟩

/-- R333: slots and invocations that become invalid change no byte. -/
theorem impure (ls : List Nat) (s : State) : s.StoresAt ps n (Machine.impure ls s) := by
  have hgroup (bad : List Nat) (g : Group) :
      { bad.foldl (fun g l => g.wrInv l { g.rdInv l with discarded := true }) g with inv := g.inv } = g :=
    List.foldlRecOn (motive := fun h : Group => { h with inv := g.inv } = g) bad _ rfl fun h hh l _ => hh
  unfold Machine.impure
  dsimp only
  split
  · exact refl s
  · refine ⟨rfl, ?_, fun k _ => ?_, fun _ _ => rfl⟩
    · exact congrArg (fun h : Group =>
        { h with gsr := s.g.gsr, pend := s.g.pend, splits := s.g.splits, hsplits := s.g.hsplits }) (hgroup _ s.g)
    · exact congrArg (fun i => s.l1Byte i k k) (s.l1Id_setCluster (s.cluster_id s.clusterId) rfl)

/-- R40: a split that passes its word changes no byte. -/
theorem past (c : LCtx) (s : State) : s.StoresAt ps n (c.past s) := by
  refine ⟨rfl, ?_, fun _ _ => rfl, fun _ _ => rfl⟩
  show { s.g.endL c.sp.idx c.w with
    inv := s.g.inv, gsr := s.g.gsr, pend := s.g.pend, splits := s.g.splits, hsplits := s.g.hsplits } = s.g
  unfold Group.endL Group.mapSplit Group.setSplits
  dsimp only
  split_ifs <;> rfl

end State.StoresAt

/-- Settles O11: the bytes of STS stand in the L1; a lane store writes at its places, and what follows it until its word has ended
changes no byte. -/
theorem storeFrame : Obligations.StoreFrame := by
  constructor
  case left =>
    intro w d a i s s1 key dup hx
    let u := s1.storeBytes key (leBytes 4 (s.g.rdS s.tick d).toNat) .grp dup
    have hbyte : ∀ k, (u.endC w 4).l1Byte (u.endC w 4).l1Id k k = _ :=
      s1.storeBytes_l1Byte key (leBytes 4 (s.g.rdS s.tick d).toNat) .grp dup
    rw [leBytes_length] at hbyte
    obtain ⟨hs, hhb, hq, -, hv, hm, hgsr, -, -, hmode, hhs, -⟩ := u.g.endC_regs w 4
    refine ⟨u.endC w 4, execSts_granted hx, fun _ => rfl, fun k hk => ?_, fun j hj => ?_, hs, hhb, hq, hv, hm, hgsr, hhs, hmode, rfl, rfl,
      rfl⟩
    · rw [hbyte, if_neg (by omega)]
    · rw [hbyte, if_pos (by omega), Nat.add_sub_cancel_left, leBytes_word hj]
  case right =>
    intro h ty hi m data s c popped os s1 r H hsp hfull hfaults
    obtain ⟨t, hexec, hstores⟩ : ∃ t, exec (.st h ty .plain .grp hi m data) s = .next t ∧ r.s.StoresAt r.places (ty.bits / 8) t :=
      ⟨_, (laneStore_writes (o := .plain) (sc := .grp) (hi := hi) hsp H hfull).trans (H.endOr_sound _ hfaults),
        (((State.StoresAt.foldl (fun v p hp => .writePlace (laneOrder_mem hp) (leBytes_length _ _) v .grp) r.s).trans
          (.markWhole _ _ _)).trans (.impure _ _)).trans (.past c _)⟩
    have hmem := hstores.sameMem
    obtain ⟨houtside, hgroup, hbytes, hwindow⟩ := hstores
    exact ⟨t, hexec, hmem, hbytes, hwindow, (congrArg Group.s hgroup :), (congrArg Group.hb hgroup :),
      (congrArg Group.q hgroup :), (congrArg Group.v hgroup :), (congrArg Group.m hgroup :), (congrArg Group.hs hgroup :),
      (congrArg State.gs houtside :), (congrArg State.ts houtside :)⟩

end Sys2Proof.Machine
end

section
/-! The copies of a group (R163–R169, R376, R379): what CPYB, CPYG and EMPTY do with sound operands, and what becomes of a copy whose
next unit arrives or fails. -/

namespace Sys2Proof.Machine

variable {w : Bool} {a b c : SReg} {s : State}

/-- R170, R167: an even register and a run that ends inside the register file are legal operands. -/
theorem evenRun_legal {r last : Nat} (heven : r % 2 = 0) (hlast : last ≤ 64) : ¬(r % 2 ≠ 0 || 64 < last) = true := by
  simp [heven, hlast]

/-! ## CPYB -/

/-- R166: an address is in its limits in the global space, whose code is 0, and where it fits 32 bits. -/
theorem addr_near {sp : Nat} {x : DWord} (h : sp = 0 ∨ x.toNat < 2 ^ 32) : (sp ≠ 0 && 2 ^ 32 ≤ x.toNat : Bool) = false := by
  rcases h with rfl | h
  · rfl
  · rw [decide_eq_false (Nat.not_le.mpr h), Bool.and_false]

/-- R166: a copy whose bytes lie in their spaces starts, after the lines that its control word names became empty. -/
theorem cpybStart_begins {ctl bar da : Nat} {sbase : Int} {p : CopyPlan} {u : State} :
    let src := copySpaceOf u (ctl % 4)
    let goal := roofTarget u (copySpaceOf u (ctl / 4 % 4)) da
    p.rowLen * p.rowCount < 2 ^ 32 ∧ inSpace u src sbase p.spans.1 = true ∧ inSpace u goal.1 goal.2 p.spans.2 = true →
    cpybStart w ctl bar sbase da p u =
      .next ((startCopy (if ctl.testBit 8 then u.emptyLines ((List.range (u.t.wsize / 128)).filter fun l => p.touches goal.2 0 0 l) else u)
        (groupCopy u bar src goal.1 sbase goal.2 p)).endC w 4) := by
  rintro src goal ⟨hlen, hsrc, hdst⟩
  simp only [cpybStart, if_neg (Nat.not_le.mpr hlen)]
  rw [if_neg (by simpa using hsrc), if_neg (by simpa using hdst)]

section Operands

variable {p : CopyPlan} (hctl : cpybBad (s.g.rdS s.tick c).toNat = false) (hbar : checkBarrier s (s.g.rdS s.tick b).toNat = none)
include hctl hbar

/-- R164: the raw form takes its plan from a run of eight registers. -/
theorem execCpyb_raw (hform : (s.g.rdS s.tick c).toNat.testBit 7 = false) (hrun : a.toNat + 8 ≤ 64)
    (hsrc : (s.g.rdS s.tick c).toNat % 4 = 0 ∨ (wordPair (s.g.rdRun s.tick a 8) 0).toNat < 2 ^ 32)
    (hdst : (s.g.rdS s.tick c).toNat / 4 % 4 = 0 ∨ (wordPair (s.g.rdRun s.tick a 8) 2).toNat < 2 ^ 32)
    (hplan : rawPlan (s.g.rdRun s.tick a 8) = some p) :
    let run := s.g.rdRun s.tick a 8
    execCpyb w a b c s =
      cpybStart w (s.g.rdS s.tick c).toNat (s.g.rdS s.tick b).toNat (wordPair run 0).toNat (wordPair run 2).toNat p s := by
  simp only [execCpyb, hform, Bool.not_false, if_true, if_neg (Nat.not_lt.mpr hrun), hctl, addr_near hsrc, addr_near hdst, Bool.or_self,
    Bool.false_eq_true, if_false, hbar, hplan]

/-- R165: the other form takes its plan from a shape record, which it reads once it has acquired. -/
theorem execCpyb_shape {ws : List Word} (hform : (s.g.rdS s.tick c).toNat.testBit 7 = true) (hrun : a.toNat + 5 ≤ 64)
    (hsrc : (s.g.rdS s.tick c).toNat % 4 = 0 ∨ (wordPair (s.g.rdRun s.tick a 5) 0).toNat < 2 ^ 32)
    (hdst : (s.g.rdS s.tick c).toNat / 4 % 4 = 0 ∨ (wordPair (s.g.rdRun s.tick a 5) 2).toNat < 2 ^ 32)
    (hrec : objCheck s.objAcquire s.objAcquire.g.ctx (((s.g.rdRun s.tick a 5).getD 4 0).toNat % 2 ^ 16) 2 true false = .ok ws)
    (hplan : shapePlan ws = some p) :
    let run := s.g.rdRun s.tick a 5
    execCpyb w a b c s = cpybStart w (s.g.rdS s.tick c).toNat (s.g.rdS s.tick b).toNat (wordPair run 0).toNat (wordPair run 2).toNat p
      s.objAcquire := by
  simp only [execCpyb, hform, Bool.not_true, Bool.false_eq_true, if_false, if_neg (Nat.not_lt.mpr hrun), hctl, addr_near hsrc,
    addr_near hdst, Bool.or_self, hbar, hrec, hplan]

end Operands

/-! ## CPYG -/

/-- R167, R130: CPYG with sound operands waits while its index line is empty, and starts with the 32 indices of the full line. -/
theorem execCpyg_sound {bar : Nat} {run : List Word} (hb : bar = (s.g.rdS s.tick b).toNat) (hr : run = s.g.rdRun s.tick a 6)
    (heven : a.toNat % 2 = 0) (hrun : a.toNat + 6 ≤ 64)
    (hok : cpygOk (s.g.rdS s.tick c).toNat (run.getD 3 0).toNat (run.getD 4 0).toNat (run.getD 5 0).toNat = true)
    (hbar : checkBarrier s bar = none) (hidx : s.spIn (run.getD 4 0).toNat 128 = true)
    (hdst : s.spIn (run.getD 5 0).toNat (32 * (run.getD 3 0).toNat) = true) :
    execCpyg w a b c s =
      if s.spFull (run.getD 4 0).toNat 128 then
        .next ((startCopy s (groupCopy s bar .glob .sp (wordPair run 0).toNat (run.getD 5 0).toNat (.gather (run.getD 3 0).toNat
          (run.getD 2 0).toNat ((List.range 32).map fun i => s.spNat ((run.getD 4 0).toNat + 4 * i) 4)))).endC w 4)
      else .next (s.parkC .held) := by
  subst hb hr
  simp only [execCpyg, if_neg (evenRun_legal heven hrun), hok, hbar, hidx, hdst, Bool.not_true, Bool.false_eq_true, if_false]
  cases s.spFull ((s.g.rdRun s.tick a 6).getD 4 0).toNat 128 <;> rfl

/-! ## EMPTY -/

/-- R169: inside the window, EMPTY of no bytes does nothing. -/
theorem execEmpty_nothing (hin : (s.g.rdS s.tick a).toNat + (s.g.rdS s.tick b).toNat ≤ s.t.wsize) (hn : (s.g.rdS s.tick b).toNat = 0) :
    execEmpty w a b s = .next (s.endC w 4) := by
  simp only [execEmpty, if_neg (Nat.not_lt.mpr hin), if_pos hn]

/-- R169: past the window's end EMPTY faults at its offset, whatever its length. -/
theorem execEmpty_outside (hout : s.t.wsize < (s.g.rdS s.tick a).toNat + (s.g.rdS s.tick b).toNat) :
    execEmpty w a b s = faultC s 0x05 (s.g.rdS s.tick a).toNat := if_pos hout

/-! ## The engine's side -/

section Engine

variable {n : Nat} {x : Copy} (hx : (s.copies.find? fun x => x.id = n) = some x)
include hx

/-- R163: while its engine and its context run, a unit of a copy arrives. -/
theorem execCopyUnitArrive_runs (hengine : (s.slice x.slice).cpyFrozen.contains (x.id % 2) = false) (hctx : copyTeamRuns s x = true) :
    execCopyUnitArrive n s = .next (settleRedir (reapTeam (copyAdvance s x) x.team) x.team) := by
  simp only [execCopyUnitArrive, hx, hengine, hctx, Bool.not_true, Bool.or_self, Bool.false_eq_true, if_false]

/-- R376, R379: a frozen engine and a frozen context stop no copy; its units wait. -/
theorem execCopyUnitArrive_frozen (h : (s.slice x.slice).cpyFrozen.contains (x.id % 2) = true ∨ copyTeamRuns s x = false) :
    execCopyUnitArrive n s = .next s := by
  have hstill : ((s.slice x.slice).cpyFrozen.contains (x.id % 2) || !copyTeamRuns s x) = true := by
    rcases h with h | h
    · rw [h, Bool.true_or]
    · rw [h, Bool.not_false, Bool.or_true]
  simp only [execCopyUnitArrive, hx, hstill, if_true]

/-- R163: a copy whose next unit fails stops with the failure's code and address. -/
theorem execCopyPageFault_stops {s1 : State} {code : Nat} {addr : DWord} (hf : x.fault = none) (hleft : x.done < x.total)
    (hunit : copyUnit s x (copyStep x) = .fault s1 code addr) :
    execCopyPageFault n s = .next (settleRedir (stopCopy s1 x code addr) x.team) := by
  have hgoes : ¬(x.fault.isSome || x.total ≤ x.done) = true := by simp [hf, hleft]
  simp only [execCopyPageFault, hx, if_neg hgoes, hunit]

end Engine

/-- Settles O30: each word with sound operands starts its copy, or does what its lines ask for; each event by its own lemma. -/
theorem copies : Obligations.Copies := by
  refine ⟨fun w a b c s => ⟨?raw, ?shape, ?gather, ?empty, ?nothing, ?outside⟩, fun n s c hc => ⟨?arrives, ?waits, ?stops⟩⟩
  case raw =>
    exact fun p hform hrun hctl hnear hbar hplan hfits =>
      (execCpyb_raw hctl hbar hform hrun hnear.1 hnear.2 hplan).trans (cpybStart_begins hfits)
  case shape =>
    exact fun ws p hform hrun hctl hnear hbar hrec hplan hfits =>
      (execCpyb_shape hctl hbar hform hrun hnear.1 hnear.2 hrec hplan).trans (cpybStart_begins hfits)
  case gather =>
    intro rb io d heven hrun hok hbar hidx hdst
    have hexec := execCpyg_sound (w := w) rfl rfl heven hrun hok hbar hidx hdst
    exact ⟨fun hfull => hexec.trans (if_pos hfull), fun hwait => hexec.trans (if_neg (ne_true_of_eq_false hwait))⟩
  case empty => exact execEmpty_empties
  case nothing => exact execEmpty_nothing
  case outside => exact execEmpty_outside
  case arrives => exact execCopyUnitArrive_runs hc
  case waits => exact execCopyUnitArrive_frozen hc
  case stops => exact fun s1 code addr => execCopyPageFault_stops hc

end Sys2Proof.Machine
end

section
/-! CPYQ (R170–R173): the claim of an index, the wait for a free slot, and the card that is published. -/

namespace Sys2Proof.Machine

variable {w : Bool} {a b c : SReg} {s s0 s1 s3 : State} {h i slot base : DWord} {n retire key : Nat} {dup : Bool} {card : List Word}

/-- R170: CPYQ with sound operands goes on with the claim that it holds. -/
theorem execCpyq_holds (heven : a.toNat % 2 = 0) (hrun : b.toNat + 16 ≤ 64) (halign : (s.g.rdP s.tick a).toNat % 128 = 0)
    (hclaim : s.g.claim = some i) : execCpyq w a b c s = cpyqClaimed w a b c i s := by
  simp only [execCpyq, if_neg (evenRun_legal heven hrun), halign, ne_eq, not_true_eq_false, if_false, hclaim]

/-- R170: CPYQ without a claim takes the index that it finds, and adds 1 to it at sys scope. -/
theorem execCpyq_claims (heven : a.toNat % 2 = 0) (hrun : b.toNat + 16 ≤ 64) (halign : (s.g.rdP s.tick a).toNat % 128 = 0)
    (hclaim : s.g.claim = none) (hx : s.xlate (s.g.rdP s.tick a) 8 .at = (s1, .ok key dup)) (hp : s1.poisonedHere key 8 = false) :
    let r := s1.atomicBytes key 8 .plain .sys dup fun v => (v + 1) % 2 ^ 64
    execCpyq w a b c s =
      cpyqClaimed w a b c (BitVec.ofNat 64 r.2) (r.1.mapG fun g => { g with claim := some (BitVec.ofNat 64 r.2) }) := by
  simp only [execCpyq, if_neg (evenRun_legal heven hrun), halign, ne_eq, not_true_eq_false, if_false, hclaim, hx, hp, Bool.false_eq_true]

/-- R173: an index has a free slot while fewer than 2^n indices stand between it and the retired ones. -/
theorem slotFree_iff {i n retire : Nat} : (i : Int) - 2 ^ n < retire ↔ i < retire + 2 ^ n :=
  sub_lt_iff_lt_add.trans (by norm_cast)

section Header

variable (hhead : queueHeader s (s.g.rdP s.tick a) = (s1, .ok (base, n, retire)))
include hhead

/-- R173: while the ring has no free slot for its index, CPYQ waits. -/
theorem cpyqClaimed_full (hfull : retire + 2 ^ n ≤ i.toNat) : cpyqClaimed w a b c i s = .next (s1.parkC .cpyq) := by
  simp only [cpyqClaimed, hhead, slotFree_iff, if_neg (Nat.not_lt.mpr hfull)]

/-- R171, R173: with a free slot, CPYQ publishes its card at the index's place in the ring. -/
theorem cpyqClaimed_room (hroom : i.toNat < retire + 2 ^ n) :
    cpyqClaimed w a b c i s =
      publish w c (s.g.rdP s.tick a) i (base + BitVec.ofNat 64 (64 * (i.toNat % 2 ^ n))) (s.g.rdRun s.tick b 16) s1 := by
  simp only [cpyqClaimed, hhead, slotFree_iff, if_pos hroom]

end Header

/-- R173, R170: the card is written after a release at sys scope, its ticket last, and one with ext = 1 is noted. -/
theorem publish_writes (hx : (s.scopeWriteBack .sys).xlate slot 64 .wr = (s3, .ok key dup)) (hp : s3.poisoned key 64 = false) :
    let ticket : Word := i.setWidth 32 + 1
    let t := (s3.memWrite (key + 4) ((bytesOf card).drop 4)).memWrite key (leBytes 4 ticket.toNat)
    let t1 := if dup then t.syncDupN key 64 t.g.ctx else t
    let l := t1.l1 t1.l1Id
    let t2 := t1.setL1 { l with clean := SMap.erase l.clean (key / 128) }
    let t3 : State := if extBit card then { t2 with extCpyq := t2.extCpyq ++ extPlaces t2 h i.toNat } else t2
    publish w c h i slot card s = .next ((t3.mapG fun g => { g.wrS c (i.setWidth 32) with claim := none }).endC w 4) := by
  intro ticket t t1 l t2 t3
  simp only [publish, hx, hp, Bool.false_eq_true, if_false]
  rfl

/-- Settles O31: with the claim held before or taken now, CPYQ waits for a slot or publishes its card in it. -/
theorem queueCopy : Obligations.QueueCopy := by
  intro w a b c s s0 s1 s2 s3 i slot base n retire key dup h claims card heven hrun halign hclaim hhead
  have hexec : exec (.cpyq w a b c) s = cpyqClaimed w a b c i s0 := by
    obtain ⟨hheld, rfl⟩ | ⟨hnone, r, k, d, hx, hp, rfl, rfl⟩ := hclaim
    · exact execCpyq_holds heven hrun halign hheld
    · exact execCpyq_claims heven hrun halign hnone hx hp
  constructor
  case left => exact fun hfull => hexec.trans (cpyqClaimed_full hhead hfull)
  case right =>
    rintro hroom rfl rfl hx hp
    exact hexec.trans ((cpyqClaimed_room hhead hroom).trans (publish_writes hx hp))

end Sys2Proof.Machine
end

section
/-! Job cards (R174–R180, R407, R449): admission, the start and what it comes to, and completion. -/

namespace Sys2Proof.Machine

variable {sl qi n : Nat} {s s1 s2 : State}

/-! ## Admission -/

/-- R174, R176, R449: the next card of a queue that is served is admitted with its extension cards, as done and malformed where its
chain is. -/
theorem execCardAdmit_admits {claim : Nat} {cs : List (List Word)} (hen : (queueOf s sl qi).en = true) (hstate : (s.slice sl).state = 1)
    (hreset : (s.slice sl).resetting = false) (hctx : ctxRuns s (queueCtx s sl qi) = true) (hup : s.updating sl = false)
    (hclaim : claimOf s sl qi = (s1, some claim))
    (hchain : chainOf s1 sl qi (queueOf s sl qi).nextAdm (claim - (queueOf s sl qi).nextAdm) = (s2, some cs)) :
    let q := queueOf s sl qi
    execCardAdmit sl qi s = .next { setQueueOf s2 sl qi { q with nextAdm := q.nextAdm + cs.length } with
      nextId := s2.nextId + 1
      cards := s2.cards ++ [
        { id := s2.nextId, vf := (s2.slice sl).vf, slice := sl, queue := qi, qgroup := q.qgroup, idx := q.nextAdm, slots := cs.length,
          addr := slotAddr q q.nextAdm, ctx := queueCtx s sl qi, words := cs.headD [],
          regions := if chainBad cs then [] else cs.flatMap cardRegions, bad := chainBad cs,
          phase := if chainBad cs then .done else .admitted, status := if chainBad cs then 6 else 0, order := s2.nextId,
          cls := q.cls, raster := q.raster, chainok := q.chainok }] } := by
  have hserved : ¬(!(queueOf s sl qi).en || (s.slice sl).state ≠ 1 || (s.slice sl).resetting || !ctxRuns s (queueCtx s sl qi)
      || s.updating sl) = true := by simp [hen, hstate, hreset, hctx, hup]
  simp only [execCardAdmit, if_neg hserved, hclaim, hchain]

/-! ## The start -/

/-- R178: a card that may not start, or finds no engine, waits. -/
theorem execCardStart_waits {k : Card} (hk : card? s n = some k) (hno : mayStart s k = false ∨ takeEngine s k = none) :
    execCardStart n s = .next s := by
  have hnone : ((card? s n).bind fun k => if mayStart s k then takeEngine s k else none) = none := by
    rw [hk, Option.bind_some]
    rcases hno with h | h
    · rw [if_neg (ne_true_of_eq_false h)]
    · rw [h, ite_self]
  simp only [execCardStart, hnone]

section Start

variable {k0 k : Card} (hk : card? s n = some k0) (hmay : mayStart s k0 = true) (hengine : takeEngine s k0 = some k)
include hk hmay hengine

/-- R178, R439: the card that starts is the one that has taken an engine. -/
theorem cardStart_chosen : ((card? s n).bind fun k => if mayStart s k then takeEngine s k else none) = some k := by
  rw [hk, Option.bind_some, if_pos hmay, hengine]

/-- R178, R439: work that goes on leaves the card started. -/
theorem execCardStart_runs (hwork : startCard (mapCard { s with writer := some (.card n) } n fun _ => k) k = .runs s1) :
    execCardStart n s = .next (mapCard s1 n fun c => { c with phase := .started, pos := s1.tick }) := by
  simp only [execCardStart, cardStart_chosen hk hmay hengine, hwork]

/-- R178, R407: work that has ended leaves the card done, and a frame-end card complete. -/
theorem execCardStart_ends {st : Byte} (hwork : startCard (mapCard { s with writer := some (.card n) } n fun _ => k) k = .ended s1 st) :
    execCardStart n s = .next (if k.kind = 7 then completeCard s1 { k with status := st, bad := st = 6 }
      else mapCard s1 n fun c => { c with phase := .done, status := st }) := by
  simp only [execCardStart, cardStart_chosen hk hmay hengine, hwork]

/-- R178: work that cannot start yet leaves the card admitted. -/
theorem execCardStart_holds (hwork : startCard (mapCard { s with writer := some (.card n) } n fun _ => k) k = .waits s1) :
    execCardStart n s = .next s1 := by
  simp only [execCardStart, cardStart_chosen hk hmay hengine, hwork]

end Start

/-! ## Completion -/

/-- R178: a card whose work has ended completes with the status that the work gives. -/
theorem execCardComplete_completes {k : Card} {st : Byte} (hk : card? (settleCopyCard (commitTeams s n) n) n = some k)
    (hended : cardEnded (settleCopyCard (commitTeams s n) n) k = some st) :
    execCardComplete n s = .next (completeCard (settleCopyCard (commitTeams s n) n) { k with status := st }) := by
  simp only [execCardComplete, hk, hended]

/-- Settles O32: admission, the three outcomes of a start and the card that waits, and completion. -/
theorem cards : Obligations.Cards := by
  intro sl qi n s q k1 with_
  refine ⟨?admits, ?runs, ?ends, ?holds, ?waits, ?completes⟩
  case admits => exact fun s1 s2 claim cs => execCardAdmit_admits
  case runs => exact fun k0 k s1 => execCardStart_runs
  case ends =>
    intro k0 k s1 st hk hmay hengine hwork
    have hexec := execCardStart_ends hk hmay hengine hwork
    exact ⟨fun hkind => hexec.trans (congrArg _ (if_neg hkind)), fun hkind => hexec.trans (congrArg _ (if_pos hkind))⟩
  case holds => exact fun k0 k s1 => execCardStart_holds
  case waits => exact fun k => execCardStart_waits
  case completes => exact fun k st => execCardComplete_completes

end Sys2Proof.Machine
end

section
/-! The encoder lane (R157–R159, R295–R298, R369, R482): the frame that ENCSUB binds, the tile row that is read, and the frame that is
coded. -/

namespace Sys2Proof.Machine

variable {w : Bool} {a b : SReg} {sl : Nat} {s s1 : State}

/-! ## ENCSUB -/

/-- R296: where ENCSUB is legal: on a compute core, outside the handler, with a run of three registers and 17 bits of session. -/
theorem encsub_legal {f : Nat} (hroof : s.isRoof = false) (hm : s.g.mode ≠ .handler) (heven : a.toNat % 2 = 0) (hrun : a.toNat + 3 ≤ 64)
    (hwidth : f < 2 ^ 17) : ¬(s.isRoof || s.g.inHandler || a.toNat % 2 ≠ 0 || 64 < a.toNat + 3 || 2 ^ 17 ≤ f) = true := by
  simp [Group.inHandler, hroof, hm, heven]
  omega

/-- R296, R158: ENCSUB with sound operands and a session to hold binds its frame to its barrier, which it updates with no change, and
is misuse where the barrier refuses that. -/
theorem execEncsub_held {run : List Word} {f bar : Nat} {ws : List Word} {c : Slice} (hr : run = s.g.rdRun s.tick a 3)
    (hf : f = (run.getD 2 0).toNat) (hb : bar = (s.g.rdS s.tick b).toNat) (hroof : s.isRoof = false) (hm : s.g.mode ≠ .handler)
    (heven : a.toNat % 2 = 0) (hrun : a.toNat + 3 ≤ 64) (hwidth : f < 2 ^ 17) (halign : (wordPair run 0).toNat % 256 = 0)
    (hbar : barOffsetFault s bar = none) (hws : sessionCheck s.objAcquire s.objAcquire.g.ctx (f % 2 ^ 16) = .ok ws)
    (hfew : ((s.objAcquire.slice s.objAcquire.sliceId).binds.filter fun b => b.card.isNone).length < 8)
    (hheld : holdSession (s.objAcquire.slice s.objAcquire.sliceId) s.objAcquire.g.ctx (BitVec.ofNat 16 f) s.objAcquire.nextId = some c) :
    let u := s.objAcquire
    let bind : EncBind :=
      { ctx := u.g.ctx, idx := BitVec.ofNat 16 f, desc := ws, key := f.testBit 16, base := wordPair run 0, team := u.t.uid,
        gid := u.g.gid, cpc := u.g.pc, bar := bar }
    let bound : State := { u.setSlice { c with binds := c.binds ++ [bind] } with nextId := u.nextId + 1 }
    execEncsub w a b s = (barUpdate (u.bar bar) 0 0 0).elim (faultC u 0x07 bar) fun y =>
      .next ((if y = u.bar bar then bound else (noteFlip bound u.g.ctx u.t.uid bar).setBar bar y).endC w 4) := by
  subst hr hf hb
  rw [← BitVec.toNat_ofNat] at hws
  simp only [execEncsub, if_neg (encsub_legal hroof hm heven hrun hwidth), halign, ne_eq, not_true_eq_false, if_false, hbar, hws,
    if_neg (Nat.not_le.mpr hfew), hheld]
  cases barUpdate (s.objAcquire.bar (s.g.rdS s.tick b).toNat) 0 0 0 <;> rfl

/-! ## The lane -/

/-- R296: the first frame with a row that is released is read one row further. -/
theorem execTileRowRead_reads {pre post : List EncBind} {b : EncBind} {bs : List Byte} (hrun : (s.slice sl).encFrozen = false)
    (hdue : splitFirst (fun b : EncBind => b.rowDue s) (s.slice sl).binds = some (pre, b, post))
    (hread : readParts s b.ctx (relSl s b.ctx sl) (b.parts b.rows) = (s1, .ok bs)) :
    let s2 := s1.setSlice { s1.slice sl with binds := pre ++ [{ b with rows := b.rows + 1, input := b.input ++ bs }] ++ post }
    execTileRowRead sl s = .next (match b.card with | none => reapTeam s2 b.team | some _ => s2) := by
  cases hcard : b.card with
  | none => simp only [execTileRowRead, hdue, hrun, Bool.false_eq_true, if_false, hread, hcard]
  | some _ => simp only [execTileRowRead, hdue, hrun, Bool.false_eq_true, if_false, hread, hcard]

/-- R295, R296: the first frame that is read whole is coded, with the counts of its ring, and appended. -/
theorem execEncodeFrameDone_codes {pre post : List EncBind} {b : EncBind} {e : EncSession} {h : List Byte}
    (hrun : (s.slice sl).encFrozen = false)
    (hdue : splitFirst (frameDue { s with writer := some (.encoder sl) } (s.slice sl)) (s.slice sl).binds = some (pre, b, post))
    (hses : ((s.slice sl).sessions.find? fun e => e.is b.ctx b.idx) = some e)
    (hread : engReadN { s with writer := some (.encoder sl) } b.ctx (relSl { s with writer := some (.encoder sl) } b.ctx sl)
      (wordPair b.desc 4) 24 = (s1, .ok h)) :
    execEncodeFrameDone sl s =
      .next (appendFrame s1 sl (s.slice sl) pre b post e (leValue (h.take 8)) (leValue ((h.drop 8).take 8)) (leValue (h.drop 16))) := by
  have hslice : ({ s with writer := some (.encoder sl) } : State).slice sl = s.slice sl := rfl
  simp only [execEncodeFrameDone, hslice, hdue, hses, hrun, Bool.false_eq_true, if_false, hread]

/-- Settles O36: ENCSUB by the update of its barrier, which is misuse or not, and the two events of the lane. -/
theorem encoder : Obligations.Encoder := by
  intro w a b sl s run base f bar
  refine ⟨?encsub, fun pre b post s1 bs => execTileRowRead_reads, fun pre b post e s1 h => execEncodeFrameDone_codes⟩
  intro u ws c hroof hm heven hrun hwidth halign hbar hws hfew hheld bind bound
  have hexec := execEncsub_held (w := w) rfl rfl rfl hroof hm heven hrun hwidth halign hbar hws hfew hheld
  exact ⟨fun y hy => hexec.trans (congrArg (Option.elim · _ _) hy), fun hy => hexec.trans (congrArg (Option.elim · _ _) hy)⟩

end Sys2Proof.Machine
end

section
/-! The lane words that copy, prefetch and read special registers (R168, R245, R252). -/

namespace Sys2Proof.Machine

variable {h : LHdr} {sc : Scope} {m : MAddr} {b c : Src} {s : State} {x : LCtx} {popped : List Nat}

/-- R168: a lane of LCPY starts its copy of 16 bytes, or adds its fault. -/
def LCtx.lcpyStart (x : LCtx) (m : MAddr) (b c : Src) (p : State × SMap (Byte × DWord)) (l : Nat) : State × SMap (Byte × DWord) :=
  match x.lcpyLane m b c p.1 l with
  | (s, .error e) => (s, SMap.insert p.2 l (BitVec.ofNat 8 e.1, e.2))
  | (s, .ok (src, sa, dst, br)) =>
    (startCopy s { groupCopy s br src .sp sa dst (.rows 16 1 0 0) with cpc := x.sp.pc.setWidth 64 }, p.2)

/-- R168: LCPY tries every lane that is no helper, and the lanes that fault are reported together. -/
theorem execLcpy_tries {os : List Opd} (hos : os = (LAddr.ofM m).opds ++ [(b, 1), (c, 1)]) (hsp : spaceLegal s (.ofM m) = true)
    (H : LaneIssues h [] (os.flatMap fun o => srcRun o.2 o.1) (os.map fun o => o.1) none s x popped true) :
    let s1 := LaneAt (os.map fun o => o.1) popped s
    let r := (x.lanes.filter fun l => !helperLane s1.g l).foldl (x.lcpyStart m b c) (s1, [])
    execLcpy h sc m b c s = x.endOr r.2 (impure (x.lanes.filter fun l => (SMap.find r.2 l).isNone) r.1) := by
  subst hos
  exact (if_neg (by simp [hsp])).trans (laneMem_of_issues H _)

/-- Settles O44: LCPY where no lane faults; PREF and MOVS as words that do one thing whenever they issue. -/
theorem laneCopies : Obligations.LaneCopies := by
  intro h sc m a b c t disp d n
  refine ⟨?lcpy, ?pref, ?movs⟩
  case lcpy =>
    intro s x popped os hsp H s1 start r hr
    have hall : (x.lanes.filter fun l => (SMap.find r.2 l).isNone) = x.lanes := by
      rw [hr]
      exact List.filter_true x.lanes
    calc execLcpy h sc m b c s
        = x.endOr r.2 (impure (x.lanes.filter fun l => (SMap.find r.2 l).isNone) r.1) := execLcpy_tries rfl hsp H
      _ = x.endOr r.2 (impure x.lanes r.1) := by rw [hall]
      _ = .next (x.past (impure x.lanes r.1)) := H.endOr_sound _ hr
  case pref =>
    intro s x popped H
    have hexec : execPref h sc t a disp s = x.endL _ := laneRun_of_issues H _
    exact hexec.trans (H.endL_eq _)
  case movs =>
    intro s x popped hreg H s1
    have hlegal : ¬(readSpecial s n.toNat (some 0)).isNone = true := ne_true_of_eq_false (Option.isNone_eq_false_iff.mpr hreg)
    have hexec : execMovs h d n s = x.endL _ := (if_neg hlegal).trans (laneRun_of_issues H _)
    exact hexec.trans (H.endL_eq _)

end Sys2Proof.Machine
end

section
/-! Words of the control stream that decode to no instruction for a field that the encoding leaves 0 (R75, R81). -/

namespace Sys2Proof

/-- What a control word decodes to is what its fields name. -/
theorem decodeC_parse {x : Word} {i : Instr} (h : decodeC x = .ok i) : parseC (.ofWord x) = some i := by
  unfold decodeC at h
  dsimp only at h
  split at h
  · cases h
  · next i' hp =>
    split_ifs at h
    cases h
    exact hp

/-- R75: a word whose bits are not those of the instruction that its fields name is no instruction. -/
theorem decodeC_error {x : Word} (h : ∀ i, parseC (.ofWord x) = some i → fieldsC i ≠ some (.ofWord x)) :
    ∃ e, decodeC x = .error e := by
  cases hx : decodeC x with
  | error e => exact ⟨e, rfl⟩
  | ok i => exact absurd (decodeC_ok hx).2 (h i (decodeC_parse hx))

/-- R81: a word whose fields name no instruction is none. -/
theorem decodeC_error_of_reserved {x : Word} (h : parseC (.ofWord x) = none) : ∃ e, decodeC x = .error e :=
  decodeC_error fun i hi => absurd (h.symm.trans hi) (by simp)

/-- R75: a word that names one instruction is none where a field of it has bits that the instruction's word has not. -/
theorem decodeC_error_of_field {β : Type} {x : Word} {i : Instr} {f : CFields} (field : CFields → β)
    (hi : parseC (.ofWord x) = some i) (hf : fieldsC i = some f) (hne : field (.ofWord x) ≠ field f) :
    ∃ e, decodeC x = .error e := by
  refine decodeC_error fun j hj hfields => hne ?_
  obtain rfl : i = j := Option.some.inj (hi.symm.trans hj)
  exact congrArg field (Option.some.inj (hfields.symm.trans hf))

/-- R80: a word of a major opcode and a function names what its fields do. -/
theorem parseC_ofWord {x : Word} {m : BitVec 6} {fn : BitVec 7} {o : Option Instr} (hm : x.extractLsb' 26 6 = m)
    (hfn : x.extractLsb' 0 7 = fn)
    (ho : parseC ⟨m, x.extractLsb' 25 1, x.extractLsb' 19 6, x.extractLsb' 13 6, x.extractLsb' 7 6, fn⟩ = o) :
    parseC (.ofWord x) = o := by
  subst hm hfn
  exact ho

/-- The bits of a field above a number that the field holds are 0. -/
theorem extract_setWidth_high {n v s k : Nat} (x : BitVec n) (h : n ≤ s) : (x.setWidth v).extractLsb' s k = 0 := by
  apply BitVec.eq_of_getLsbD_eq
  intro i hi
  have hhigh : x.getLsbD (s + i) = false := BitVec.getLsbD_of_ge x _ (by omega)
  simp [hhigh]

end Sys2Proof
end

section
/-! The integer group (R186): each function of the model as arithmetic on its operands, and each word by its function. -/

namespace Sys2Proof.Machine

/-! ## Sums, products and quotients -/

theorem ofInt_sub (n : Nat) (a b : Int) : BitVec.ofInt n (a - b) = BitVec.ofInt n a - BitVec.ofInt n b :=
  eq_sub_of_add_eq (by rw [← BitVec.ofInt_add, Int.sub_add_cancel])

section Arithmetic

variable {n : Nat} (x y : BitVec n)

theorem mul_eq_ofNat : x * y = BitVec.ofNat n (x.toNat * y.toNat) := rfl

theorem sub_eq_ofInt_signed : x - y = BitVec.ofInt n (x.toInt - y.toInt) := by
  rw [ofInt_sub, BitVec.ofInt_toInt, BitVec.ofInt_toInt]

theorem shl_eq_ofNat (k : Nat) : x <<< k = BitVec.ofNat n (x.toNat * 2 ^ k) := by
  rw [← Nat.shiftLeft_eq]
  rfl

theorem shr_eq_ofNat (k : Nat) : x >>> k = BitVec.ofNat n (x.toNat / 2 ^ k) := by
  rw [← Nat.shiftRight_eq_div_pow, ← BitVec.toNat_ushiftRight, BitVec.ofNat_toNat, BitVec.setWidth_eq]

theorem sar_eq_ofInt (k : Nat) : x.sshiftRight k = BitVec.ofInt n (x.toInt / 2 ^ k) := by
  rw [BitVec.sshiftRight_eq, Int.shiftRight_eq_div_pow, Nat.cast_pow, Nat.cast_ofNat]

end Arithmetic

variable (x y : Word)

/-- The upper word of an integer kept in a pair. -/
theorem extract_ofInt_upper (z : Int) : (BitVec.ofInt 64 z).extractLsb' 32 32 = BitVec.ofInt 32 (z / 2 ^ 32) := by
  apply BitVec.eq_of_toNat_eq
  rw [BitVec.extractLsb'_toNat, BitVec.toNat_ofInt, BitVec.toNat_ofInt, Nat.shiftRight_eq_div_pow]
  omega

theorem mulHS_eq : mulHS x y = BitVec.ofInt 32 (x.toInt * y.toInt / 2 ^ 32) := by
  rw [← extract_ofInt_upper, BitVec.ofInt_mul]
  rfl

theorem mulHN_eq : mulHN x y = BitVec.ofNat 32 (x.toNat * y.toNat / 2 ^ 32) := by
  have hmul : x.setWidth 64 * y.setWidth 64 = BitVec.ofInt 64 ((x.toNat * y.toNat : Nat) : Int) := by
    rw [BitVec.ofInt_natCast, BitVec.ofNat_mul, BitVec.ofNat_toNat, BitVec.ofNat_toNat]
  rw [mulHN, hmul, extract_ofInt_upper, ← BitVec.ofInt_natCast]
  rfl

/-- R186: a remainder is what the quotient leaves. -/
theorem remS_eq : remS x y = if y = 0 then x else BitVec.ofInt 32 (x.toInt.tmod y.toInt) := by
  unfold remS divS
  split_ifs with hy
  · rfl
  · rw [Int.tmod_def, ofInt_sub, BitVec.ofInt_mul, BitVec.ofInt_toInt, BitVec.ofInt_toInt]

theorem divN_eq : divN x y = if y = 0 then 0xFFFFFFFF else BitVec.ofNat 32 (x.toNat / y.toNat) :=
  if_congr Iff.rfl rfl BitVec.udiv_def

theorem remN_eq : remN x y = BitVec.ofNat 32 (x.toNat % y.toNat) := by
  unfold remN divN
  split_ifs with hy
  · simp [hy]
  · refine sub_eq_of_eq_add' ?_
    calc x = BitVec.ofNat 32 (y.toNat * (x.toNat / y.toNat) + x.toNat % y.toNat) := by simp [Nat.div_add_mod]
      _ = y * (x / y) + BitVec.ofNat 32 (x.toNat % y.toNat) := by simp [BitVec.ofNat_add, BitVec.ofNat_mul, BitVec.udiv_def]

/-! ## Rotations, minima and maxima -/

theorem shiftBy_rotl_count : shiftBy .rotl x (count5 y) = (x <<< (y.toNat % 32)) ||| (x >>> (32 - y.toNat % 32)) := by
  rw [count5, shiftBy, BitVec.rotateLeft_def, Nat.mod_mod]

theorem minS_eq : (if x.sle y then x else y) = if x.toInt ≤ y.toInt then x else y :=
  if_congr BitVec.sle_iff_toInt_le rfl rfl

theorem minN_eq : (if x.ule y then x else y) = if x.toNat ≤ y.toNat then x else y :=
  if_congr BitVec.ule_iff_toNat_le rfl rfl

/-- Where both operands are the largest, either of them is. -/
theorem maxS_eq : (if x.sle y then y else x) = if y.toInt ≤ x.toInt then x else y := by
  simp only [BitVec.sle_iff_toInt_le]
  split_ifs with hxy hyx hyx
  · exact (BitVec.eq_of_toInt_eq (le_antisymm hxy hyx)).symm
  · rfl
  · rfl
  · omega

theorem maxN_eq : (if x.ule y then y else x) = if y.toNat ≤ x.toNat then x else y := by
  simp only [BitVec.ule_iff_toNat_le]
  split_ifs with hxy hyx hyx
  · exact (BitVec.eq_of_toNat_eq (le_antisymm hxy hyx)).symm
  · rfl
  · rfl
  · omega

/-! ## Bits -/

/-- R186: the leading zeros of a word end at its highest bit. -/
theorem clz32_leadingZeros : ∃ k, k ≤ 32 ∧ (∀ i, i < k → x.getLsbD (31 - i) = false) ∧ (k < 32 → x.getLsbD (31 - k) = true)
    ∧ clz32 x = BitVec.ofNat 32 k := by
  by_cases hx : x = 0
  · exact ⟨32, le_rfl, fun i _ => by simp [hx], fun h => absurd h (lt_irrefl _), by rw [clz32, if_pos hx]⟩
  · have hne : x.toNat ≠ 0 := fun h => hx (BitVec.eq_of_toNat_eq h)
    have htop : x.toNat.log2 < 32 := (Nat.log2_lt hne).mpr x.isLt
    refine ⟨31 - x.toNat.log2, by omega, fun i hi => ?above, fun _ => ?highest, by rw [clz32, if_neg hx]⟩
    case above =>
      exact Nat.testBit_lt_two_pow (Nat.lt_log2_self.trans_le (Nat.pow_le_pow_right (by decide) (by omega)))
    case highest =>
      rw [show 31 - (31 - x.toNat.log2) = x.toNat.log2 by omega]
      exact Nat.testBit_log2 hne

/-- After the first n bits, the reversed word holds them at its upper end. -/
theorem getLsbD_brev_fold {n j : Nat} (hn : n ≤ 32) (hj : j < 32) :
    ((List.range n).foldl (fun r i => if x.getLsbD i then r ||| (1#32 <<< (31 - i)) else r) 0#32).getLsbD j =
      (decide (31 - j < n) && x.getLsbD (31 - j)) := by
  induction n with
  | zero => simp
  | succ n ih =>
    have hbit : (1#32 <<< (31 - n)).getLsbD j = decide (31 - j = n) := by
      rw [Bool.eq_iff_iff]
      simp [hj]
      omega
    rw [List.range_succ, List.foldl_append, List.foldl_cons, List.foldl_nil, apply_ite (BitVec.getLsbD · j), BitVec.getLsbD_or,
      ih (by omega), hbit]
    by_cases hnew : 31 - j = n
    · simp [hnew]
    · simp [hnew, show 31 - j < n + 1 ↔ 31 - j < n by omega]

theorem getLsbD_brev32 {i : Nat} (hi : i < 32) : (brev32 x).getLsbD i = x.getLsbD (31 - i) :=
  (getLsbD_brev_fold x le_rfl hi).trans (by simp [show 31 - i < 32 by omega])

/-! ## The words -/

/-- A word that writes a value to s[d], as the state it leaves. -/
theorem writeS_of_eq {w : Bool} {len : Nat} {d : SReg} {u v : Word} {s : State} (h : u = v) :
    writeS w len d u s = .next ((s.mapG fun g => g.wrS d v).endC w len) :=
  h ▸ rfl

/-- R186: no word of the group changes gsr. -/
theorem wrS_endC_gsr (w : Bool) (d : SReg) (v : Word) (s : State) : ((s.mapG fun g => g.wrS d v).endC w 4).g.gsr = s.g.gsr := by
  obtain ⟨-, -, -, -, -, -, hgsr, -⟩ := (s.g.wrS d v).endC_regs w 4
  exact hgsr.trans (congrArg Group.gsr (s.g.wrS_frame d v) :)

/-- R186: SEL writes s[d] where its predicate, or the inverted one, holds. -/
theorem execSel_eq (w : Bool) (d a : SReg) (m : Bool) (q : QReg) (s : State) :
    execSel w d a m q s =
      if s.g.rdQ s.tick q ≠ m then .next ((s.mapG fun g => g.wrS d (s.g.rdS s.tick a)).endC w 4) else .next (s.endC w 4) :=
  if_congr (bne_iff_ne (a := s.g.rdQ s.tick q)) rfl rfl

/-- R186: CLZ, POPC and BREV have one operand, SEL a predicate of three bits and its inversion. -/
theorem integer_reserved (x : Word) (hmaj : x.extractLsb' 26 6 = 1) :
    (x.extractLsb' 0 7 ∈ [21, 22, 23] → x.extractLsb' 7 6 ≠ 0 → ∃ e, decodeC x = .error e)
      ∧ (x.extractLsb' 0 7 = 24 → x.extractLsb' 11 2 ≠ 0 → ∃ e, decodeC x = .error e) := by
  constructor
  · intro hfn hb
    simp only [List.mem_cons, List.not_mem_nil, or_false] at hfn
    rcases hfn with hfn | hfn | hfn <;>
      exact decodeC_error_of_field CFields.b (parseC_ofWord hmaj hfn rfl) rfl hb
  · intro hfn hb
    refine decodeC_error_of_field (fun f => f.b.extractLsb' 4 2) (parseC_ofWord hmaj hfn rfl) rfl ?_
    rw [show (CFields.ofWord x).b = x.extractLsb' 7 6 from rfl, extract_extract x 7 6 4 2 (by decide)]
    exact fun h => hb (h.trans (extract_setWidth_high _ (by decide)))

/-- Settles O14: each word by what its function computes. -/
theorem integerResults : Obligations.IntegerResults := by
  refine ⟨fun w d a b s => ?results, integer_reserved⟩
  intro A B n ret
  obtain ⟨k, hk, hzeros, hone, hclz⟩ := clz32_leadingZeros A
  exact ⟨writeS_of_eq (BitVec.add_def _ _), writeS_of_eq (sub_eq_ofInt_signed _ _), writeS_of_eq (mul_eq_ofNat _ _),
    writeS_of_eq (mulHS_eq _ _), writeS_of_eq (mulHN_eq _ _), writeS_of_eq rfl, writeS_of_eq (divN_eq _ _),
    writeS_of_eq (remS_eq _ _), writeS_of_eq (remN_eq _ _), rfl, rfl, rfl, rfl, writeS_of_eq (shl_eq_ofNat _ _),
    writeS_of_eq (shr_eq_ofNat _ _), writeS_of_eq (sar_eq_ofInt _ _), writeS_of_eq (shiftBy_rotl_count _ _),
    writeS_of_eq (minS_eq _ _), writeS_of_eq (maxS_eq _ _), writeS_of_eq (minN_eq _ _), writeS_of_eq (maxN_eq _ _),
    ⟨k, hk, hzeros, hone, writeS_of_eq hclz⟩, rfl,
    ⟨_, fun _ => getLsbD_brev32 A, rfl⟩, fun m q => execSel_eq w d a m q s, fun v => wrS_endC_gsr w d v s⟩

end Sys2Proof.Machine
end

section
/-! What CMP, CMPI and the predicate group write to q[d] (R188, R191), what a write of a predicate reads back (R67, R92), and
the words of these groups that are no instruction (R75). -/

namespace Sys2Proof.Machine

/-! ## A predicate reads back as it was written -/

/-- R92: nothing is on its way to a register once a fixed-latency result is written to it. -/
theorem Group.undrained_dropPend (g : Group) (key : Nat) : (g.dropPend key).undrained key = false := by
  unfold Group.dropPend Group.dropBits
  split
  · simp only [Group.undrained, List.any_eq_false, List.mem_map]
    rintro _ ⟨p, -, rfl⟩ hany
    obtain ⟨d, hd, hkey⟩ := List.any_eq_true.mp hany
    obtain ⟨hmem, hbits⟩ := List.mem_filter.mp hd
    obtain ⟨e, -, rfl⟩ := List.mem_map.mp hmem
    by_cases he : e.key = key
    · simp [Dest.minus, he] at hbits
    · simp [Dest.minus, he] at hkey
  · next h => simpa using h

theorem getLsbD_setBit8_same {i : Nat} (q : BitVec 8) (b : Bool) (hi : i < 8) : (setBit8 q i b).getLsbD i = b := by
  cases b <;> simp [setBit8, hi]

theorem Group.qVal_setQVal_same (g : Group) (p : QReg) (b : Bool) :
    (g.setQVal (g.qKey p.toNat) b).qVal (g.qKey p.toNat) = b := by
  have hp := p.isLt
  by_cases hk : g.qKey p.toNat = 271
  · rw [Group.setQVal, if_pos hk, Group.qVal, if_pos hk]
  · have hkey : g.qKey p.toNat - 256 < 8 := by
      unfold Group.qKey at hk ⊢
      split_ifs at hk ⊢ <;> omega
    rw [Group.setQVal, if_neg hk, Group.qVal, if_neg hk, getLsbD_setBit8_same _ _ hkey]

/-- R67: a predicate other than q0 reads back as it was written. -/
theorem Group.rdQ_wrQ (g : Group) (tick : Nat) {p : QReg} (b : Bool) (hp : p ≠ 0) : (g.wrQ p b).rdQ tick p = b := by
  let k := g.qKey p.toNat
  have hwr : g.wrQ p b = (g.dropPend k).setQVal k b := if_neg hp
  have hkey : (g.wrQ p b).qKey p.toNat = k := Group.qKey_congr (congrArg Group.mode (g.wrQ_frame p b) :) _
  have hkey' : (g.dropPend k).qKey p.toNat = k := Group.qKey_congr (congrArg Group.mode (g.dropBits_frame k _) :) _
  have hdrained : (g.wrQ p b).undrained k = false := by
    have hpend : (g.wrQ p b).pend = (g.dropPend k).pend := hwr ▸ (congrArg Group.pend (Group.setQVal_frame _ k b) :)
    simpa only [Group.undrained, hpend] using g.undrained_dropPend k
  rw [Group.rdQ_drained tick (hkey.symm ▸ hdrained), decide_eq_false hp, Bool.false_or, hkey, hwr]
  simpa only [hkey'] using (g.dropPend k).qVal_setQVal_same p b

/-- R67: a write of q0 is ignored. -/
theorem Group.wrQ_zero (g : Group) (b : Bool) : g.wrQ 0 b = g := if_pos rfl

/-- A word that writes a value to q[d], as the state it leaves. -/
theorem writeQ_of_eq {w : Bool} {len : Nat} {q : QReg} {u v : Bool} {s : State} (h : u = v) :
    writeQ w len q u s = .next ((s.mapG fun g => g.wrQ q v).endC w len) :=
  h ▸ rfl

/-! ## Words that are no instruction -/

/-- R188: a CMP word with a function from 10, or with d[5:3] not 0. -/
theorem cmp_reserved (x : Word) (hmaj : x.extractLsb' 26 6 = 0x0A) :
    (x.extractLsb' 22 3 ≠ 0 → ∃ e, decodeC x = .error e) ∧ (10 ≤ (x.extractLsb' 0 7).toNat → ∃ e, decodeC x = .error e) := by
  have parse {o : Option Cond} (ho : Cond.ofCode (x.extractLsb' 0 7) = o) : parseC (.ofWord x) = o.map fun c =>
      .cmp (isOne (x.extractLsb' 25 1)) ((x.extractLsb' 19 6).extractLsb' 0 3) (x.extractLsb' 13 6) (x.extractLsb' 7 6) c :=
    parseC_ofWord hmaj rfl (ho ▸ rfl)
  constructor
  · intro hd
    cases hc : Cond.ofCode (x.extractLsb' 0 7) with
    | none => exact decodeC_error_of_reserved (parse hc)
    | some c =>
      refine decodeC_error_of_field (fun f => f.d.extractLsb' 3 3) (parse hc) rfl ?_
      rw [show (CFields.ofWord x).d = x.extractLsb' 19 6 from rfl, extract_extract x 19 6 3 3 (by decide)]
      exact fun h => hd (h.trans (extract_setWidth_high _ (by decide)))
  · intro hfn
    have hnone : ∀ f : BitVec 7, 10 ≤ f.toNat → Cond.ofCode f = none := by decide
    exact decodeC_error_of_reserved (parse (hnone _ hfn))

/-- Settles O16: a condition of the model is the comparison of the statement, case by case. -/
theorem compareResults : Obligations.CompareResults := by
  refine ⟨fun w q c a b i s => ?results, fun x hmaj => ?reserved⟩
  case results =>
    intro holds ret
    have hholds : ∀ x y, condHolds c x y = holds x y := fun x y => by cases c <;> rfl
    exact ⟨writeQ_of_eq (hholds _ _), writeQ_of_eq (hholds _ _), fun v tick => s.g.rdQ_wrQ tick v, s.g.wrQ_zero⟩
  case reserved =>
    obtain ⟨hd, hfn⟩ := cmp_reserved x hmaj
    refine ⟨hd, hfn, fun y w c q a i hy => ?_⟩
    have hwf : (decide (c ≠ .gtn) && decide (c ≠ .gen)) = true := (decodeC_ok hy).1
    simpa using hwf

/-! ## The predicate group -/

/-- The fields of a word that decodes. -/
theorem decodeC_fields {x : Word} {i : Instr} {f : CFields} (h : decodeC x = .ok i) (hf : fieldsC i = some f) : .ofWord x = f :=
  Option.some.inj ((decodeC_ok h).2.symm.trans hf)

/-- R191: a word of the predicate group holds predicates of three bits, two of them with an inversion. -/
theorem predicate_fields {x : Word} {maj k n : Nat} {w : Bool} {a : QReg} {b : BitVec k} {c : BitVec n} {fn : BitVec 7}
    (h : CFields.ofWord x = cr maj w (z6 a) (z6 b) (z6 c) fn) (hk : k ≤ 4) (hn : n ≤ 4) :
    x.extractLsb' 22 3 = 0 ∧ x.extractLsb' 17 2 = 0 ∧ x.extractLsb' 11 2 = 0 := by
  have hd : x.extractLsb' 19 6 = z6 a := congrArg CFields.d h
  have ha : x.extractLsb' 13 6 = z6 b := congrArg CFields.a h
  have hb : x.extractLsb' 7 6 = z6 c := congrArg CFields.b h
  rw [← extract_extract x 19 6 3 3 (by decide), ← extract_extract x 13 6 4 2 (by decide), ← extract_extract x 7 6 4 2 (by decide),
    hd, ha, hb]
  exact ⟨extract_setWidth_high _ (by decide), extract_setWidth_high _ hk, extract_setWidth_high _ hn⟩

/-- R191: QNOT has one operand, without an inversion. -/
theorem qnot_fields {x : Word} {w : Bool} {a b : QReg} (h : decodeC x = .ok (.qnot w a b)) :
    x.extractLsb' 16 1 = 0 ∧ x.extractLsb' 7 6 = 0 := by
  have hf := decodeC_fields h rfl
  have ha : x.extractLsb' 13 6 = z6 b := congrArg CFields.a hf
  rw [← extract_extract x 13 6 3 1 (by decide), ha]
  exact ⟨extract_setWidth_high _ (by decide), congrArg CFields.b hf⟩

/-- Settles O19: the results are the model's definitions; a word that decodes has the fields of its instruction. -/
theorem predicateResults : Obligations.PredicateResults := by
  refine ⟨fun w a b c n m s => ?results, fun x w a b c n m hx => ?reserved⟩
  case results => exact ⟨rfl, rfl, rfl, rfl, fun v tick => s.g.rdQ_wrQ tick v, s.g.wrQ_zero⟩
  case reserved =>
    have hfields : x.extractLsb' 22 3 = 0 ∧ x.extractLsb' 17 2 = 0 ∧ x.extractLsb' 11 2 = 0 := by
      rcases hx with h | h | h | h
      · exact predicate_fields (decodeC_fields h rfl) (by decide) (by decide)
      · exact predicate_fields (decodeC_fields h rfl) (by decide) (by decide)
      · exact predicate_fields (decodeC_fields h rfl) (by decide) (by decide)
      · exact predicate_fields (c := (0 : BitVec 4)) (decodeC_fields h rfl) (by decide) (by decide)
    obtain ⟨hd, ha, hb⟩ := hfields
    exact ⟨hd, ha, hb, qnot_fields⟩

end Sys2Proof.Machine
end

section
/-! The bit fields of BFX and BFI (R190), bit by bit. -/

namespace Sys2Proof.Machine

variable (x old ctl : Word) {i pos w : Nat}

theorem getLsbD_ones32 (hi : i < 32) : (ones32 w).getLsbD i = decide (i < w) := by
  rw [ones32, BitVec.getLsbD_ofNat, Nat.testBit_two_pow_sub_one, decide_eq_true hi, Bool.true_and]

/-- R190: the field of w bits at pos, moved to bit 0. -/
theorem getLsbD_field (hi : i < 32) : ((x >>> pos) &&& ones32 w).getLsbD i = (decide (i < w) && x.getLsbD (pos + i)) := by
  rw [BitVec.getLsbD_and, BitVec.getLsbD_ushiftRight, getLsbD_ones32 hi, Bool.and_comm]

/-- R190: BFX takes the field, and where it is signed its highest bit above it. -/
theorem getLsbD_bfx (hi : i < 32) :
    let pos := ctl.toNat % 32
    let w := min (ctl.toNat / 2 ^ 8 % 64) 32
    (bfx x ctl).getLsbD i =
      if i < w then x.getLsbD (pos + i) else ctl.getLsbD 16 && decide (0 < w) && x.getLsbD (pos + w - 1) := by
  intro pos w
  have hfield {j : Nat} (hj : j < 32) := getLsbD_field x (i := j) (pos := pos) (w := w) hj
  have hsign (hw : 0 < w) : ((x >>> pos) &&& ones32 w).getLsbD (w - 1) = x.getLsbD (pos + w - 1) := by
    have hw32 : w ≤ 32 := min_le_right _ _
    rw [hfield (by omega), decide_eq_true (by omega), Bool.true_and, Nat.add_sub_assoc hw]
  have hfill : (~~~ones32 w).getLsbD i = decide (¬i < w) := by
    rw [BitVec.getLsbD_not, getLsbD_ones32 hi, decide_eq_true hi, Bool.true_and, decide_not]
  have hbfx : bfx x ctl = if ctl.getLsbD 16 && 0 < w && ((x >>> pos) &&& ones32 w).getLsbD (w - 1) then
      ((x >>> pos) &&& ones32 w) ||| ~~~ones32 w else (x >>> pos) &&& ones32 w := rfl
  rw [hbfx, apply_ite (BitVec.getLsbD · i), BitVec.getLsbD_or, hfield hi, hfill]
  by_cases hiw : i < w
  · simp [hiw]
  · by_cases hw : 0 < w
    · simp [hiw, hw, hsign hw]
    · simp [hiw, hw]

/-- R190: BFI puts the low w bits at pos, and keeps the others. -/
theorem getLsbD_bfi (hi : i < 32) :
    let pos := ctl.toNat % 32
    let w := min (ctl.toNat / 2 ^ 8 % 64) 32
    (bfi old x ctl).getLsbD i = if pos ≤ i ∧ i < pos + w then x.getLsbD (i - pos) else old.getLsbD i := by
  intro pos w
  have hmask : (ones32 w <<< pos).getLsbD i = decide (pos ≤ i ∧ i < pos + w) := by
    rw [BitVec.getLsbD_shiftLeft, getLsbD_ones32 (by omega), Bool.eq_iff_iff]
    simp [hi]
    omega
  have hbfi : bfi old x ctl = (old &&& ~~~(ones32 w <<< pos)) ||| ((x <<< pos) &&& (ones32 w <<< pos)) := rfl
  rw [hbfi, BitVec.getLsbD_or, BitVec.getLsbD_and, BitVec.getLsbD_and, BitVec.getLsbD_not, hmask, BitVec.getLsbD_shiftLeft]
  by_cases hin : pos ≤ i ∧ i < pos + w
  · simp [hin, hi, Nat.not_lt.mpr hin.1]
  · rw [decide_eq_false hin, if_neg hin]
    simp [hi]

/-- Settles O18: each word writes the field of its function, which has these bits. -/
theorem bitFieldResults : Obligations.BitFieldResults := by
  intro m a b c s A B C pos w sx ret
  exact ⟨⟨bfx B C, rfl, fun i => getLsbD_bfx B C⟩, ⟨bfi A B C, rfl, fun i => getLsbD_bfi B A C⟩⟩

end Sys2Proof.Machine
end

section
/-! The wide group (R189): each result as arithmetic on pairs and quads. -/

namespace Sys2Proof.Machine

/-- A word that writes a value to P(d), as the state it leaves. -/
theorem writeP_of_eq {w : Bool} {d : SReg} {u v : DWord} {s : State} (h : u = v) :
    writeP w d u s = .next ((s.mapG fun g => g.wrP d v).endC w 4) :=
  h ▸ rfl

theorem sub_eq_ofInt_natural {n : Nat} (x y : BitVec n) : x - y = BitVec.ofInt n ((x.toNat : Int) - y.toNat) := by
  rw [ofInt_sub, BitVec.ofInt_natCast, BitVec.ofInt_natCast, BitVec.ofNat_toNat, BitVec.ofNat_toNat, BitVec.setWidth_eq,
    BitVec.setWidth_eq]

theorem execAdd128_eq {w : Bool} {d a b : SReg} {v : QWord} {s : State} (h : s.g.rdQuad s.tick a + s.g.rdQuad s.tick b = v) :
    execAdd128 w d a b s = .next ((s.mapG fun g => g.wrQuad d v).endC w 4) := by
  simp only [execAdd128, State.mapG, h]

/-- Settles O17: each word by what its operation computes. -/
theorem wideResults : Obligations.WideResults := by
  intro w d a b s A B n ret
  exact ⟨writeP_of_eq (BitVec.add_def _ _), writeP_of_eq (sub_eq_ofInt_natural _ _), writeP_of_eq (mul_eq_ofNat _ _),
    writeP_of_eq (shl_eq_ofNat _ n), writeP_of_eq (shr_eq_ofNat _ n),
    execAdd128_eq (BitVec.add_def _ _)⟩

end Sys2Proof.Machine
end

section
/-! Branches, calls and returns (R192), LOOP (R193), and the words of LOOP that are illegal (R75, R78). -/

namespace Sys2Proof.Machine

variable {w : Bool} {a d : SReg} {s : State}

/-- R76: an offset counts words. -/
theorem offset_eq {n : Nat} (o : BitVec n) : o.signExtend 64 <<< 2 = BitVec.ofInt 64 (4 * o.toInt) := by
  rw [shl_eq_ofNat, BitVec.ofNat_mul, BitVec.ofNat_toNat, BitVec.setWidth_eq, BitVec.ofInt_mul, BitVec.mul_comm]
  rfl

theorem jumpTo_of_eq {t u : DWord} (h : t = u) : jumpTo w t s = .next (s.mapG fun g => g.jumpC w u) :=
  h ▸ rfl

/-- R192: the two low bits of a target are 0 exactly where it is a multiple of 4. -/
theorem lowBits_eq_zero_iff (x : Word) : x.extractLsb' 0 2 = 0 ↔ x.toNat % 4 = 0 := by
  rw [BitVec.toNat_eq, BitVec.extractLsb'_toNat, Nat.shiftRight_zero]
  rfl

/-- R192: an indirect word whose target is a multiple of 4 goes there. -/
theorem ite_aligned {x y : Res} (ha : (s.g.rdS s.tick a).toNat % 4 = 0) :
    (if (s.g.rdS s.tick a).extractLsb' 0 2 ≠ 0 then x else y) = y :=
  if_neg (not_not.mpr ((lowBits_eq_zero_iff _).mpr ha))

theorem ite_misaligned {x y : Res} (ha : (s.g.rdS s.tick a).toNat % 4 ≠ 0) :
    (if (s.g.rdS s.tick a).extractLsb' 0 2 ≠ 0 then x else y) = x :=
  if_pos (mt (lowBits_eq_zero_iff _).mp ha)

/-- R193: LOOP leaves the loop at a count of 1, and branches at every other, 0 too. -/
theorem execLoop_eq (i : BitVec 13) :
    let n := s.g.rdS s.tick d
    let s1 := s.mapG fun g => g.wrS d (n - 1)
    execLoop w d i s =
      if n = 1 then .next (s1.endC w 4)
      else .next (s1.mapG fun g => g.jumpC w (s.g.pc + BitVec.ofInt 64 (4 * i.toInt))) := by
  intro n s1
  have hpc : s1.g.pc = s.g.pc := (congrArg Group.pc (s.g.wrS_frame d (n - 1)) :)
  have hjump : jumpTo w (s1.g.pc + (i.signExtend 64 <<< 2)) s1 = _ := jumpTo_of_eq (congrArg₂ (· + ·) hpc (offset_eq i))
  by_cases hn : n = 1
  · rw [if_pos hn]
    exact if_neg (not_not.mpr (sub_eq_zero.mpr hn))
  · rw [if_neg hn]
    exact (if_pos (sub_ne_zero.mpr hn)).trans hjump

/-- R193: LOOP has no a field. -/
theorem loop_reserved (x : Word) (hmaj : x.extractLsb' 26 6 = 0x14) (ha : x.extractLsb' 13 6 ≠ 0) : ∃ e, decodeC x = .error e :=
  decodeC_error_of_field CFields.a (parseC_ofWord hmaj rfl rfl) rfl ha

/-- R78: a LIMM before a word that may not follow it is illegal. -/
theorem execLimm_illegal {hi : BitVec 26} {s s1 : State} {x : Word} {i : Instr} (hx : fetchC s (s.g.pc + 4) = .word s1 x)
    (hi' : decodeC x = .ok i) (hr : limmPair hi i s1 = none) : execLimm hi s = illegalC s1 := by
  simp only [execLimm, hx, hi', hr, Option.getD_none]

/-- Settles O20: a direct branch by its offset, an indirect one by its alignment, LOOP by its count and by its encoding. -/
theorem branchTargets : Obligations.BranchTargets := by
  refine ⟨fun w q sense o d a s => ?branches, fun w d i s => execLoop_eq i, loop_reserved, fun hi x w d i s s1 hx hdec => ?limm⟩
  case branches =>
    intro pc T target link far
    have htarget : directTarget pc o = target := congrArg (pc + ·) (offset_eq o)
    exact ⟨jumpTo_of_eq htarget, if_congr Iff.rfl (jumpTo_of_eq htarget) rfl, jumpTo_of_eq htarget,
      fun ha => ⟨ite_aligned ha, ite_aligned ha, ite_aligned ha⟩,
      fun ha => ⟨ite_misaligned ha, ite_misaligned ha, ite_misaligned ha⟩⟩
  case limm => exact execLimm_illegal hx hdec rfl

end Sys2Proof.Machine
end

section
/-! TBIND, TDROP and OBJLD (R206, R207, R398): the translation register that a word binds, or the fault it raises. -/

namespace Sys2Proof.Machine

variable {w : Bool} {t : BitVec 4} {b c : SReg} {s : State} {code : Nat}

/-- R206: TBIND accepts no other rights than 1, 2 and 3. -/
theorem rightsWanted_illegal (x : Word) (hx : x.toNat ∉ [1, 2, 3]) : (x.extractLsb' 2 30 ≠ 0 || x.extractLsb' 0 2 = 0) = true := by
  simp only [List.mem_cons, List.not_mem_nil, or_false] at hx
  have hx32 := x.isLt
  simp only [ne_eq, Bool.or_eq_true, decide_eq_true_eq, BitVec.toNat_eq, BitVec.extractLsb'_toNat, Nat.shiftRight_eq_div_pow,
    decide_not, Bool.not_eq_true', decide_eq_false_iff_not, BitVec.ofNat_eq_ofNat, BitVec.toNat_ofNat]
  omega

theorem execTbind_illegal (hwant : (s.g.rdS s.tick c).toNat ∉ [1, 2, 3]) : execTbind w t b c s = illegalC s :=
  if_pos (rightsWanted_illegal _ hwant)

/-- R206: TBIND faults with the code of the walk, at the base. -/
theorem execTbind_faults (hwant : (s.g.rdS s.tick c).toNat ∈ [1, 2, 3])
    (hbind : let u := if canonical (s.g.rdP s.tick b) then s.countEvent s.g.ctx 0x0D 1 else s
      bindBase u u.g.ctx (s.g.rdP s.tick b) ((s.g.rdS s.tick c).extractLsb' 0 2) = .error code) :
    let u := if canonical (s.g.rdP s.tick b) then s.countEvent s.g.ctx 0x0D 1 else s
    execTbind w t b c s = faultC u code (s.g.rdP s.tick b).toNat := by
  simp only [execTbind, if_neg (rightsWanted_legal _ hwant), hbind]

theorem execObjld_illegal (hidx : 2 ^ 16 ≤ (s.g.rdS s.tick b).toNat) : execObjld w t b s = illegalC s :=
  if_pos (mt (upperHalf_eq_zero_iff _).mp (Nat.not_lt.mpr hidx))

/-- R371, R398: OBJLD faults at the index or at the base, and counts its walk where it made one. -/
theorem execObjld_faults (hidx : (s.g.rdS s.tick b).toNat < 2 ^ 16)
    (hbind : bindObj s.objAcquire s.objAcquire.g.ctx (s.g.rdS s.tick b).toNat = .error code) :
    let u := s.objAcquire
    execObjld w t b s = faultC (if 0x18 ≤ code then u else u.countEvent u.g.ctx 0x0D 1) code
      (objldAddr u (s.g.rdS s.tick b).toNat code) := by
  simp only [execObjld, if_neg (not_not.mpr ((upperHalf_eq_zero_iff _).mpr hidx)), hbind]

/-- Settles O26: each word, in each case of what its operand names and of what the walk answers, has its lemma. -/
theorem translationRegisters : Obligations.TranslationRegisters := by
  intro w t b c s base want idx sb so walked fault
  refine ⟨fun r => execTbind_binds, fun code hwant hbind => ?tbindFault, execTbind_illegal, rfl, fun r => execObjld_binds,
    fun code => execObjld_faults, execObjld_illegal⟩
  case tbindFault => exact (execTbind_faults hwant hbind).trans (faultC_addr sb code base)

end Sys2Proof.Machine
end

section
/-! The packed 16-bit lane words (R220, R221): a packed word as an operation on each half, and each word as such a one. -/

namespace Sys2Proof.Machine

/-- R220: a half of a register, the low one for 0. -/
def halfCode (x : Word) (k : Nat) : Nat := if k = 0 then x.toNat % 65536 else x.toNat / 65536

/-- R220: a register of the results of both halves, with the flags of both. -/
def bothHalves (f : Nat → Nat × Flags) : List Word × Flags :=
  ([BitVec.ofNat 32 ((f 0).1 + 65536 * (f 1).1)], (f 0).2 ||| (f 1).2)

/-- R220: a packed word of two operands acts on both halves. -/
theorem computes_of_pack2 {h : LHdr} {i : Instr} {d : Dst} {a b : Src} {f : Nat → Nat → Nat × Flags}
    (hi : ∀ s, exec i s = lane2 (pack2 f) false h d a b s) :
    Computes i h false d 1 [(a, 1), (b, 1)] fun v => bothHalves fun k => f (halfCode (v 0 0) k) (halfCode (v 1 0) k) :=
  computes_of_lane2 hi

/-- Settles O49: each packed word by its function on a half; HFMA2 and HDOT2 are their definitions. -/
theorem lanePacked : Obligations.LanePacked := by
  intro h ty d a b c r cc os2 os3 both code x rnd
  exact ⟨computes_of_pack2 (f := hop ty r (XReal.add r.rm)) fun _ => rfl,
    computes_of_pack2 (f := hop ty r fun y z => XReal.add r.rm y z.neg) fun _ => rfl,
    computes_of_pack2 (f := hop ty r XReal.mul) fun _ => rfl,
    computes_of_lane3 (f := hfma ty r) fun _ => rfl,
    computes_of_pack2 (f := fpMinMax ty false) fun _ => rfl,
    computes_of_pack2 (f := fpMinMax ty true) fun _ => rfl,
    computes_of_pack2 (f := fun y z =>
      let p := fpCompare cc (fpValue ty y) (fpValue ty z)
      (if p.1 then 0xFFFF else 0, p.2)) fun _ => rfl,
    computes_of_lane3 (f := hdot ty r) fun _ => rfl⟩

end Sys2Proof.Machine
end

section
/-! The integer, logic and move lane words (R229–R236): the shape of a word that does one thing once it issues, the functions of the
model as arithmetic on their operands, and each word by its function. -/

namespace Sys2Proof.Machine

variable {h : LHdr} {i : Instr} {ds : List (Nat × Word)} {regs : List (Nat × Nat)} {os : List Src} {od : Option Dst}
  {d : Dst} {a b c : Src} {ty : NType} {sat : Bool}

/-! ## Shapes -/

/-- A word that does `k` and ends, where it has not waited, does `k` whenever it issues. -/
theorem does_of_laneRun_first {run : LCtx → State → Res} {k : LCtx → State → State}
    (he : ∀ s, exec i s = laneRun h ds regs os od run s) (hk : ∀ (c : LCtx) (u : State), c.late = none → run c u = c.endL (k c u)) :
    Does i h ds regs os od k := by
  intro s c popped H
  calc exec i s
      = run c (LaneAt os popped s) := (he s).trans (laneRun_of_issues H run)
    _ = c.endL (k c (LaneAt os popped s)) := hk c _ H.first
    _ = .next (c.past (k c (LaneAt os popped s))) := H.endL_eq _

/-- A word that does `k` and ends. -/
theorem does_of_laneRun {k : LCtx → State → State} (he : ∀ s, exec i s = laneRun h ds regs os od (fun c u => c.endL (k c u)) s) :
    Does i h ds regs os od k :=
  does_of_laneRun_first he fun _ _ _ => rfl

/-! ## Arithmetic -/

theorem natAbs_eq_ite (z : Int) : (z.natAbs : Int) = if z < 0 then -z else z := by
  split_ifs with hz <;> omega

/-! ## Funnel shifts -/

/-- R230: the number that A ## B holds. -/
theorem toNat_append_word (x y : Word) : (x ++ y).toNat = x.toNat * 2 ^ 32 + y.toNat := by
  rw [BitVec.toNat_append, ← Nat.shiftLeft_add_eq_or_of_lt y.isLt, Nat.shiftLeft_eq]

theorem extract_funnel_left (x y : Word) (k : Nat) :
    ((x ++ y : DWord) <<< k).extractLsb' 32 32 = BitVec.ofNat 32 ((x.toNat * 2 ^ 32 + y.toNat) * 2 ^ k / 2 ^ 32) := by
  rw [shl_eq_ofNat, toNat_append_word, ← BitVec.ofInt_natCast, extract_ofInt_upper, ← BitVec.ofInt_natCast]
  rfl

theorem extract_funnel_right (x y : Word) (k : Nat) :
    ((x ++ y : DWord) >>> k).extractLsb' 0 32 = BitVec.ofNat 32 ((x.toNat * 2 ^ 32 + y.toNat) / 2 ^ k) := by
  rw [shr_eq_ofNat, toNat_append_word, ← BitVec.setWidth_eq_extractLsb' (by decide),
    BitVec.setWidth_ofNat_of_le (by decide)]

theorem fshl_computes (k : Cnt) :
    Computes (.fshl h d a b k) h false d 1 ((a, 1) :: (b, 1) :: (Cnt.opds k).map fun o => (o, 1)) fun v =>
      ([BitVec.ofNat 32 (((v 0 0).toNat * 2 ^ 32 + (v 1 0).toNat) * 2 ^ countOf k (v 2 0) 32 / 2 ^ 32)], 0) := by
  simp only [← extract_funnel_left]
  exact computes_of_laneOp fun _ => rfl

theorem fshr_computes (k : Cnt) :
    Computes (.fshr h d a b k) h false d 1 ((a, 1) :: (b, 1) :: (Cnt.opds k).map fun o => (o, 1)) fun v =>
      ([BitVec.ofNat 32 (((v 0 0).toNat * 2 ^ 32 + (v 1 0).toNat) / 2 ^ countOf k (v 2 0) 32)], 0) := by
  simp only [← extract_funnel_right]
  exact computes_of_laneOp fun _ => rfl

/-! ## Bits and byte sums -/

/-- R231: each bit of the result is the bit of the table that the three operand bits name. -/
theorem getLsbD_logic3 (tt : BitVec 8) (x y z : Word) {k : Nat} (hk : k < 32) :
    (logic3 tt x y z).getLsbD k = tt.getLsbD (4 * (x.getLsbD k).toNat + 2 * (y.getLsbD k).toNat + (z.getLsbD k).toNat) := by
  have hterm (j : Nat) (u v w : Word) : (if tt.getLsbD j then u &&& v &&& w else 0).getLsbD k =
      (tt.getLsbD j && (u.getLsbD k && v.getLsbD k && w.getLsbD k)) := by
    cases tt.getLsbD j <;> simp
  simp only [logic3, BitVec.getLsbD_or, hterm, BitVec.getLsbD_not, hk, decide_true, Bool.true_and]
  generalize x.getLsbD k = p, y.getLsbD k = q, z.getLsbD k = r
  cases p <;> cases q <;> cases r <;> simp

/-- R234: a sum over the four bytes of a word. -/
theorem foldl_four_bytes (p : Nat → Int) (z : Int) : (List.range 4).foldl (fun acc j => acc + p j) z = z + p 0 + p 1 + p 2 + p 3 := rfl

theorem intOf_one_register (hty : ty.regs = 1) (v : Nat → Word) : intOf ty v = intValue ty (v 0).toNat := by
  simp [intOf, natOf, hty]

/-- R234: the sum of the absolute differences as the model folds it. -/
theorem ofInt_absDiffs (x y z : Word) :
    BitVec.ofInt 32 ((List.range 4).foldl (fun acc j => acc + ((byteOf .n8 x j - byteOf .n8 y j).natAbs : Int)) z.toNat) =
      BitVec.ofNat 32 (z.toNat + (byteOf .n8 x 0 - byteOf .n8 y 0).natAbs + (byteOf .n8 x 1 - byteOf .n8 y 1).natAbs
        + (byteOf .n8 x 2 - byteOf .n8 y 2).natAbs + (byteOf .n8 x 3 - byteOf .n8 y 3).natAbs) := by
  rw [foldl_four_bytes, ← BitVec.ofInt_natCast]
  push_cast
  rfl

/-- R235: the complement of a word as a number. -/
theorem toNat_complement_if (sub : Bool) (y : Word) :
    (if sub then ~~~y else y).toNat = if sub then 2 ^ 32 - 1 - y.toNat else y.toNat := by
  rw [apply_ite BitVec.toNat, BitVec.toNat_not]

/-- R120: words without flags leave gsr as it is. -/
theorem flagAll_zero {α : Type} (xs : List α) (s : State) : flagAll (xs.map fun _ => 0) s = s := by
  have hfold : (xs.map fun _ => (0 : Flags)).foldl (· ||| ·) 0 = 0 :=
    List.foldlRecOn (motive := (· = 0)) _ _ rfl fun f hf g hg => by
      obtain ⟨-, -, rfl⟩ := List.mem_map.1 hg
      rw [hf, BitVec.or_self]
  exact if_pos hfold

/-- R209: a mask is read as the word issues. -/
theorem LCtx.rdM_of_first {x : LCtx} (hx : x.late = none) (s : State) (m : Nat) : x.rdM s m = s.g.rdM s.tick m := by
  rw [LCtx.rdM, hx]

/-! ## The words -/

/-- R234: the four byte products and C in 32 bits. -/
theorem idot4_computes : Computes (.idot4 h ty d a b c sat) h false d 1 [(a, 1), (b, 1), (c, 1)] fun v =>
    let t : NType := if ty = .s8 then .s32 else .n32
    let p (j : Nat) : Int := byteOf ty (v 0 0) j * byteOf ty (v 1 0) j
    let q := intNarrow t sat (intValue t (v 2 0).toNat + p 0 + p 1 + p 2 + p 3)
    ([BitVec.ofNat 32 q.1], q.2) := by
  have hregs : (if ty = .s8 then NType.s32 else .n32).regs = 1 := by split_ifs <;> rfl
  simp only [← intOf_one_register hregs]
  exact computes_of_laneOp fun _ => rfl

theorem isad_computes : Computes (.isad h d a b c) h false d 1 [(a, 1), (b, 1), (c, 1)] fun v =>
    let p (j : Nat) : Nat := (byteOf .n8 (v 0 0) j - byteOf .n8 (v 1 0) j).natAbs
    ([BitVec.ofNat 32 ((v 2 0).toNat + p 0 + p 1 + p 2 + p 3)], 0) := by
  simp only [← ofInt_absDiffs]
  exact computes_of_laneOp fun _ => rfl

/-- R212, R233: a compare to a mask writes a bit of each active lane. -/
theorem icmp_mask (m : BitVec 4) (cc : ICond) :
    Does (.icmp h ty (.mask m) cc a b) h (mDs m.toNat) (srcRun ty.regs a ++ srcRun ty.regs b) [a, b] none fun x s =>
      let p (l : Nat) := icondHolds cc (intValue ty (natOf ty.regs fun k => x.val s 0 a k l))
        (intValue ty (natOf ty.regs fun k => x.val s 1 b k l))
      x.putM false m.toNat (x.lanes.map fun l => (l, p l)) s := by
  have he (s : State) : exec (.icmp h ty (.mask m) cc a b) s =
      lanePred h (.mask m) [(a, ty.regs), (b, ty.regs)] (fun v => (icondHolds cc (intOf ty (v 0)) (intOf ty (v 1)), 0)) s := rfl
  simp only [lanePred, List.map_cons, List.map_nil, List.flatMap_cons, List.flatMap_nil, List.append_nil] at he
  refine does_of_laneRun_first he fun x s _ => ?_
  simp only [List.map_map]
  exact congrArg x.endL (flagAll_zero x.lanes _)

/-- R233: SEL takes, by a bit of a mask, the one operand or the other. -/
theorem laneSel_does (m : BitVec 4) (neg : Bool) :
    Does (.laneSel h ty d a b m neg) h (vDs ty.regs d) (dstRun ty.regs d ++ srcRun ty.regs a ++ srcRun ty.regs b) [a, b] (some d)
      fun x s => x.put false d (x.lanes.map fun l => (l, (List.range ty.regs).map fun k =>
        if xor ((s.g.rdM s.tick m.toNat).getLsbD l) neg then x.val s 0 a k l else x.val s 1 b k l)) s :=
  does_of_laneRun_first (fun s => show execLaneSel h ty d a b m neg s = _ from rfl) fun x s hx => by
    rw [x.rdM_of_first hx]

theorem iaddc_does (sub : Bool) (m : BitVec 4) :
    Does (.iaddc h sub d a b m) h (vDs 1 d ++ mDs m.toNat) (dstRun 1 d ++ srcRun 1 a ++ srcRun 1 b) [a, b] (some d) fun x s =>
      let t (l : Nat) : Nat := (x.val s 0 a 0 l).toNat
        + (if sub then 2 ^ 32 - 1 - (x.val s 1 b 0 l).toNat else (x.val s 1 b 0 l).toNat)
        + (if (s.g.rdM s.tick m.toNat).getLsbD l then 1 else 0)
      x.putM false m.toNat (x.lanes.map fun l => (l, decide (2 ^ 32 ≤ t l)))
        (x.put false d (x.lanes.map fun l => (l, [BitVec.ofNat 32 (t l)])) s) :=
  does_of_laneRun_first (fun s => show execIaddc h sub d a b m s = _ from rfl) fun x s hx => by
    simp only [x.rdM_of_first hx, toNat_complement_if, List.map_map]
    rfl

/-- Settles O51: arithmetic by its exact result, shifts and funnel shifts by their counts, and each other word by its function. -/
theorem laneInteger : Obligations.LaneInteger := by
  refine ⟨fun h ty d a b c sat n => ?arith, fun h ty d a b c m neg sub sat cc tt i rg => ?rest⟩
  case arith =>
    intro int nat fit w o1 o2 o3 on k wide
    refine ⟨computes_of_laneOp fun _ => rfl, computes_of_laneOp fun _ => rfl, computes_of_laneOp fun _ => rfl,
      computes_of_laneOp fun _ => rfl, computes_of_laneOp fun _ => rfl,
      ?imin, ?imax, ?iabs,
      computes_of_laneOp fun _ => rfl, computes_of_laneOp fun _ => rfl, computes_of_laneOp fun _ => rfl,
      computes_of_laneOp fun _ => rfl, computes_of_laneOp fun _ => rfl, computes_of_laneOp fun _ => rfl,
      fshl_computes (.src c), fshr_computes (.src c), fshl_computes (.imm n), fshr_computes (.imm n)⟩
    case imin => simpa only [← Int.min_def] using computes_of_laneOp fun _ => rfl
    case imax => simpa only [← Int.max_def] using computes_of_laneOp fun _ => rfl
    case iabs => simpa only [← natAbs_eq_ite] using computes_of_laneOp fun _ => rfl
  case rest =>
    intro os1 os2 os3 int
    exact ⟨fun x y z k => getLsbD_logic3 tt x y z, computes_of_laneOp fun _ => rfl, computes_of_laneOp fun _ => rfl,
      computes_of_laneOp fun _ => rfl, computes_of_laneOp fun _ => rfl, computes_of_laneOp fun _ => rfl, computes_of_laneOp fun _ => rfl,
      computes_of_laneOp fun _ => rfl, icmp_mask m cc, laneSel_does m neg, idot4_computes, isad_computes, iaddc_does sub m,
      computes_of_laneOp fun _ => rfl, computes_of_laneOp fun _ => rfl, does_of_laneRun fun _ => rfl⟩

end Sys2Proof.Machine
end

section
/-! The random generator and the words across lanes (R253–R255, R237–R240). -/

namespace Sys2Proof.Machine

variable {h : LHdr} {i : Instr} {ty : NType} {d : Dst} {a b : Src}

/-! ## Random numbers -/

/-- R255: a sum of 128 bits as a number. -/
theorem add128l_computes : Computes (.add128l h d a b) h false d 4 [(a, 4), (b, 4)] fun v =>
    (regsOf 4 (((quadOf (v 0)).toNat + (quadOf (v 1)).toNat) % 2 ^ 128), 0) := by
  simp only [← BitVec.toNat_add]
  exact computes_of_laneOp fun _ => rfl

/-! ## Moves and votes -/

/-- R237, R238: each active lane takes the registers of A in a lane that its own number and B name. -/
theorem does_of_laneMove {ob : Option Src} {from_ : Word → Nat → Nat} (he : ∀ s, exec i s = laneMove h ty d a ob from_ s) :
    Does i h (vDs ty.regs d) (dstRun ty.regs d ++ srcRun ty.regs a ++ ob.toList.flatMap (srcRun 1)) (a :: ob.toList) (some d) fun x s =>
      x.put false d (x.lanes.map fun l => (l, (List.range ty.regs).map fun k =>
        x.val s 0 a k (from_ (ob.elim 0 fun b => x.val s 1 b 0 l) l))) s :=
  does_of_laneRun_first he fun _ _ _ => by cases ob <;> rfl

/-- R239: the value of a vote, from the lanes that vote and the value of each. -/
theorem voteValue_lanes (op : VoteOp) (lanes : List Nat) (x : Nat → Word) :
    let vals : List Word := lanes.map x
    voteValue op (lanes.map fun l => (l, x l)) = match op with
      | .any => if vals.any (fun v => v ≠ 0) then 0xFFFFFFFF else 0
      | .all => if vals.all (fun v => v ≠ 0) then 0xFFFFFFFF else 0
      | .ballot => maskOf (lanes.filter fun l => x l ≠ 0)
      | .uni => if vals.all (fun v => v = vals.headD v) then 0xFFFFFFFF else 0 := by
  cases op with
  | any => simp only [voteValue, List.any_map]; rfl
  | all => simp only [voteValue, List.all_map]; rfl
  | ballot =>
    simp only [voteValue, List.filter_map, List.map_map]
    exact congrArg maskOf (List.map_id _)
  | uni =>
    cases lanes with
    | nil => rfl
    | cons l ls => simp only [voteValue, List.map_cons, List.all_cons, List.all_map, List.headD_cons]; rfl

/-- Settles O52: the generator's words and PREFIX are their definitions, a move is one of its shape; a vote by its value, and REDUCE by
the last of its folds. -/
theorem laneRandomAndCrossing : Obligations.LaneRandomAndCrossing := by
  refine ⟨fun h d a b => ?random, fun h ty d a b n dn excl vo fo => ?crossing⟩
  case random =>
    exact ⟨computes_of_laneOp fun _ => rfl, does_of_laneRun fun _ => rfl, does_of_laneRun fun _ => rfl, does_of_laneRun fun _ => rfl,
      does_of_laneRun fun _ => rfl, add128l_computes, does_of_laneRun fun _ => rfl⟩
  case crossing =>
    refine ⟨does_of_laneMove (ob := some b) (from_ := fun y _ => y.toNat % 32) fun _ => rfl,
      does_of_laneMove (ob := none) (from_ := fun _ l => l ^^^ n.toNat) fun _ => rfl,
      does_of_laneMove (ob := none) (from_ := fun _ l =>
        if dn then (if l + n.toNat ≤ 31 then l + n.toNat else l) else (if n.toNat ≤ l then l - n.toNat else l)) fun _ => rfl,
      does_of_laneMove (ob := none) (from_ := fun _ _ => n.toNat) fun _ => rfl, ?vote, ?reduce, does_of_laneRun fun _ => rfl⟩
    case vote =>
      exact does_of_laneRun_first (fun s => show execVote h vo d a s = _ from rfl) fun x s _ =>
        congrArg (fun v => x.endL (x.put false d (x.lanes.map fun l => (l, [v])) s))
          (voteValue_lanes vo x.lanes fun l => x.val s 0 a 0 l)
    case reduce =>
      refine does_of_laneRun_first (fun s => show execReduce h fo ty d a s = _ from rfl) fun x s _ => ?_
      dsimp only
      rw [List.getLastD_eq_getLast?]
      cases (foldsOf fo ty (x.lanes.map fun l => x.val s 0 a 0 l)).getLast? <;> rfl

end Sys2Proof.Machine
end

section
/-! The matrix words of the C-stream and the engine's side (R258–R263, R266–R269): the bank a word's team may take, the queue its
command enters, the operands it refuses, and the events of the oldest command on a bank. -/

namespace Sys2Proof.Machine

variable {w : Bool} {a b c : SReg} {n : BitVec 2} {s s1 : State} {m : MCmd} {cl bank : Nat} {held : Bool}

/-! ## Banks and the queue -/

section Bank

variable {park : ParkKind} {k : Nat → State → Res} (hm : s.g.inHandler = false)
include hm

/-- R256, R258: a word whose team may take the bank runs with the bank taken. -/
theorem matRun_takes (hb : bankCluster s bank = some (cl, false)) (ht : mayTake s cl bank = true) :
    matRun bank park s k = k cl (takeBank s cl bank) := by
  simp only [matRun, hm, hb, ht, Bool.not_true, Bool.or_self, Bool.false_eq_true, if_false]

/-- R256, R444: a bank of another team, or of a lease that is being revoked, parks the word. -/
theorem matRun_parks (hb : bankCluster s bank = some (cl, held)) (ht : held = true ∨ mayTake s cl bank = false) :
    matRun bank park s k = .next ((s.parkC park).mapG fun g => { g with waitBank := some (cl, bank) }) := by
  have hwaits : (held || !mayTake s cl bank) = true := by simpa using ht
  simp only [matRun, hm, hb, hwaits, Bool.false_eq_true, if_false, if_true]

end Bank

/-- R258: the outcome of a command that passed its checks: it enters the queue of its bank's cluster, or waits for a place there or for
its bank. -/
def EntersQueue (w : Bool) (s : State) (m : MCmd) (r : Res) : Prop :=
  (∀ cl, bankCluster s m.bank = some (cl, false) → mayTake s cl m.bank = true →
    let t := takeBank s cl m.bank
    let k := t.cluster cl
    let k1 : Cluster := { k with queue := k.queue ++ [m] }
    let k2 := if m.isLoop then k1.setLast { team := m.team, gid := m.gid, bank := m.bank } else k1
    let u := if m.isLoop && m.ctl.getLsbD 19 then (t.performDirty t.l1Id fun _ => true).ackAllDup t.l1Id else t
    (k.queue.length < 16 → r = .next ((u.setCluster k2).endC w 4))
    ∧ (16 ≤ k.queue.length → r = .next (s.parkC .engine)))
  ∧ ∀ cl held, bankCluster s m.bank = some (cl, held) → (held = true ∨ mayTake s cl m.bank = false) →
      r = .next ((s.parkC .engine).mapG fun g => { g with waitBank := some (cl, m.bank) })

theorem matEnter_enters (hm : s.g.inHandler = false) : EntersQueue w s m (matEnter w m s) := by
  refine ⟨fun cl hb ht => ⟨fun hroom => ?room, fun hfull => ?full⟩, fun cl held => matRun_parks hm⟩
  case room => exact (matRun_takes hm hb ht).trans (if_neg (Nat.not_le.mpr hroom))
  case full => exact (matRun_takes hm hb ht).trans (if_pos hfull)

/-- R71, R362: a bank can be named in user mode only. -/
theorem bankNamed_user (hn : bankNamed s bank = true) : s.g.inHandler = false := by
  simp only [bankNamed, Bool.and_eq_true, Bool.not_eq_true'] at hn
  exact hn.1

/-- R71: a run of four registers that fits and a bank that may be named make a word legal. -/
theorem matrix_run_legal (hrun : a.toNat + 4 ≤ 64) (hn : bankNamed s bank = true) :
    ¬(64 < a.toNat + 4 || !bankNamed s bank) = true := by
  simp [hn]
  omega

/-- R71: so do an even register and a bank that may be named. -/
theorem matrix_pair_legal (heven : a.toNat % 2 = 0) (hn : bankNamed s bank = true) :
    ¬(a.toNat % 2 ≠ 0 || !bankNamed s bank) = true := by
  simp [hn, heven]

/-! ## The words -/

/-- R260: MFMT takes a sound format block, and refuses another. -/
theorem execMfmt_user {f : QWord} (hf : f = let r := s.g.rdRun s.tick a 4; r.getD 3 0 ++ r.getD 2 0 ++ r.getD 1 0 ++ r.getD 0 0)
    (hm : s.g.mode ≠ .handler) (hrun : a.toNat + 4 ≤ 64) :
    execMfmt w a s = if fmtOk f then .next ((s.mapG fun g => { g with fmt := f }).endC w 4) else faultC s 0x0A 0 := by
  have hlegal : ¬(s.g.inHandler || 64 < a.toNat + 4) = true := by simp [Group.inHandler, hm]; omega
  simp only [execMfmt, if_neg hlegal, ← hf]

section Loops

variable {ctl : Word} {run : List Word} (hctl : ctl = s.g.rdS s.tick b) (hr : run = s.g.rdRun s.tick a 4) (hrun : a.toNat + 4 ≤ 64)
  (hn : bankNamed s (ctl.extractLsb' 16 2).toNat = true)
include hctl hr hrun hn

/-- R262: MLOOP refuses a control word, a format or an offset that is out of its limits. -/
theorem execMloop_refused (hbad : ctl.extractLsb' 24 8 ≠ 0 ∨ ctl.extractLsb' 0 16 = 0
      ∨ (ctl.getLsbD 19 = false ∧ ctl.extractLsb' 20 4 ≠ 0) ∨ fmtOk s.g.fmt = false
      ∨ (run.any fun x => x.toNat % 64 ≠ 0) = true) :
    execMloop w a b c s = faultC s 0x0A 0 := by
  subst hctl hr
  refine (if_neg (matrix_run_legal hrun hn)).trans (if_pos ?_)
  simpa only [Bool.or_eq_true, Bool.and_eq_true, Bool.not_eq_true', decide_eq_true_eq, or_assoc] using hbad

/-- R262, R206: MLOOP with sound operands tests the place of its barrier, and its command enters. -/
theorem execMloop_accepted (hzero : ctl.extractLsb' 24 8 = 0) (hcount : ctl.extractLsb' 0 16 ≠ 0)
    (htix : ctl.getLsbD 19 = true ∨ ctl.extractLsb' 20 4 = 0) (hfmt : fmtOk s.g.fmt = true)
    (hoff : (run.any fun x => x.toNat % 64 ≠ 0) = false) :
    let bar := (s.g.rdS s.tick c).toNat
    execMloop w a b c s = (barOffsetFault s bar).elim
      (matEnter w { newCmd s .mloop run ctl (ctl.extractLsb' 16 2).toNat bar with
        tr := if ctl.getLsbD 19 then s.g.rdT (ctl.extractLsb' 20 4).toNat else {} } s)
      fun code => faultC s code bar := by
  subst hctl hr
  have hsound : ¬((s.g.rdS s.tick b).extractLsb' 24 8 ≠ 0 || (s.g.rdS s.tick b).extractLsb' 0 16 = 0
      || (!(s.g.rdS s.tick b).getLsbD 19 && (s.g.rdS s.tick b).extractLsb' 20 4 ≠ 0) || !fmtOk s.g.fmt
      || (s.g.rdRun s.tick a 4).any fun x => x.toNat % 64 ≠ 0) = true := by
    rw [hoff]
    simp only [hzero, hcount, hfmt, ne_eq, not_true_eq_false, decide_false, Bool.not_true, Bool.or_false, Bool.false_or,
      Bool.and_eq_true, Bool.not_eq_true', decide_eq_true_eq]
    exact not_and_or.mpr (htix.imp ne_false_of_eq_true not_not.mpr)
  refine (if_neg (matrix_run_legal hrun hn)).trans ((if_neg hsound).trans ?_)
  cases barOffsetFault s (s.g.rdS s.tick c).toNat <;> rfl

/-- R265: MCONV refuses a control word, a format, a count of steps or an offset that is out of its limits. -/
theorem execMconv_refused (hbad : ctl.extractLsb' 19 13 ≠ 0 ∨ fmtOk s.g.fmt = false ∨ fmtABlk s.g.fmt ≠ 0
      ∨ (run.getD 3 0).toNat / 2 ^ 16 = 0 ∨ ((run.take 2).any fun x => x.toNat % 64 ≠ 0) = true) :
    execMconv w a b c s = faultC s 0x0A 0 := by
  subst hctl hr
  refine (if_neg (matrix_run_legal hrun hn)).trans (if_pos ?_)
  simpa only [Bool.or_eq_true, Bool.not_eq_true', decide_eq_true_eq, or_assoc] using hbad

/-- R265, R266: MCONV with sound operands and a sound shape record, whose steps its own lie in, enters after the acquire that read the
record. -/
theorem execMconv_accepted {ws : List Word} (hzero : ctl.extractLsb' 19 13 = 0) (hfmt : fmtOk s.g.fmt = true)
    (hblk : fmtABlk s.g.fmt = 0) (hsteps : (run.getD 3 0).toNat / 2 ^ 16 ≠ 0)
    (hoff : ((run.take 2).any fun x => x.toNat % 64 ≠ 0) = false) (hbar : barOffsetFault s (s.g.rdS s.tick c).toNat = none)
    (hobj : objCheck s.objAcquire s.objAcquire.g.ctx (ctl.extractLsb' 0 16).toNat 3 true false = .ok ws)
    (hconv : convOk ws (stepK (fmtA s.g.fmt) (fmtB s.g.fmt)) = true)
    (hin : (run.getD 3 0).toNat % 2 ^ 16 + (run.getD 3 0).toNat / 2 ^ 16 ≤ (convOf ws).steps (stepK (fmtA s.g.fmt) (fmtB s.g.fmt))) :
    let u := s.objAcquire
    execMconv w a b c s =
      matEnter w { newCmd u .mconv run ctl (ctl.extractLsb' 16 2).toNat (s.g.rdS s.tick c).toNat with conv := ws } u := by
  subst hctl hr
  have hsound : ¬((s.g.rdS s.tick b).extractLsb' 19 13 ≠ 0 || !fmtOk s.g.fmt || fmtABlk s.g.fmt ≠ 0
      || ((s.g.rdRun s.tick a 4).getD 3 0).toNat / 2 ^ 16 = 0
      || ((s.g.rdRun s.tick a 4).take 2).any fun x => x.toNat % 64 ≠ 0) = true := by
    rw [hoff]
    simpa only [hzero, hfmt, hblk, ne_eq, not_true_eq_false, decide_false, Bool.not_true, Bool.or_false, Bool.false_or,
      decide_eq_true_eq] using hsteps
  have hshape : ¬(!convOk ws (stepK (fmtA s.g.fmt) (fmtB s.g.fmt)) || decide ((convOf ws).steps (stepK (fmtA s.g.fmt) (fmtB s.g.fmt))
      < ((s.g.rdRun s.tick a 4).getD 3 0).toNat % 2 ^ 16 + ((s.g.rdRun s.tick a 4).getD 3 0).toNat / 2 ^ 16)) = true := by
    rw [hconv, Bool.not_true, Bool.false_or, decide_eq_true_eq]
    exact Nat.not_lt.mpr hin
  simp only [execMconv, if_neg (matrix_run_legal hrun hn), if_neg hsound, hbar, hobj, if_neg hshape]

end Loops

section Mstore

variable {lo hi ctl : Word} (hlo : lo = s.g.rdS s.tick a) (hhi : hi = s.g.rdS s.tick (a + 1)) (hctl : ctl = s.g.rdS s.tick b)
  (heven : a.toNat % 2 = 0) (hn : bankNamed s (ctl.extractLsb' 0 2).toNat = true)
include hlo hhi hctl heven hn

theorem execMstore_refused (hbad : mstoreBad lo hi ctl = true) : execMstore w a b c s = faultC s 0x0A 0 := by
  subst hlo hhi hctl
  exact (if_neg (matrix_pair_legal heven hn)).trans (if_pos hbad)

/-- R267: MSTORE with sound operands, a tile in the window where it is to go there, and a place for its barrier enters. -/
theorem execMstore_accepted (hok : mstoreBad lo hi ctl = false)
    (hwin : ctl.getLsbD 4 = false ∨ s.spIn lo.toNat (32768 * outBytes ctl + 32) = true)
    (hbar : barOffsetFault s (s.g.rdS s.tick c).toNat = none) :
    execMstore w a b c s =
      matEnter w (newCmd s .mstore [lo, hi] ctl (ctl.extractLsb' 0 2).toNat (s.g.rdS s.tick c).toNat) s := by
  subst hlo hhi hctl
  have hin : ¬((s.g.rdS s.tick b).getLsbD 4
      && !s.spIn (s.g.rdS s.tick a).toNat (32768 * outBytes (s.g.rdS s.tick b) + 32)) = true := by
    rw [Bool.and_eq_true, Bool.not_eq_true', not_and_or, Bool.not_eq_true, Bool.not_eq_false]
    exact hwin
  simp only [execMstore, if_neg (matrix_pair_legal heven hn), hok, Bool.false_eq_true, if_false, if_neg hin, hbar]

end Mstore

theorem execMzero_named (hn : bankNamed s n.toNat = true) :
    execMzero w n s = matEnter w (newCmd s .mzero [] 0 n.toNat 0) s := if_neg (by simp [hn])

/-- R269: once the group's commands on the bank have run, MSTAT reads the latest loop's word and the bank's count of steps. -/
theorem execMstat_reads (heven : a.toNat % 2 = 0) (hn : bankNamed s n.toNat = true) (hb : bankCluster s n.toNat = some (cl, false))
    (ht : mayTake s cl n.toNat = true) (hdone : (((takeBank s cl n.toNat).cluster cl).queue.any fun m =>
      m.team = s.t.uid && m.gid = s.g.gid && m.bank = n.toNat && m.fault.isNone) = false) :
    let t := takeBank s cl n.toNat
    execMstat w a n s = .next ((t.mapG fun g => (g.wrS a (mstatWord (t.cluster cl) s.t.uid s.g.gid n.toNat)).wrS (a + 1)
      (BitVec.ofNat 32 (min ((t.cluster cl).bank n.toNat).steps (2 ^ 32 - 1)))).endC w 4) :=
  (if_neg (matrix_pair_legal heven hn)).trans ((matRun_takes (bankNamed_user hn) hb ht).trans (if_neg (ne_true_of_eq_false hdone)))

/-! ## The engine's side -/

section Engine

variable {t : Team} (hh : headCmd (s.cluster cl) bank = some m) (ht : s.team? m.team = some t)
include hh ht

/-- R258: a command that may not run now stays as it is, whatever its kind. -/
theorem matrix_events_held (hruns : cmdRuns s (s.cluster cl) m = false) :
    execMatrixStep cl bank s = .next s ∧ execMzeroRun cl bank s = .next s ∧ execMstoreRun cl bank s = .next s := by
  simp only [execMatrixStep, execMzeroRun, execMstoreRun, hh, ht, hruns, Bool.and_false, Bool.false_eq_true, if_false, and_self]

variable (hruns : cmdRuns s (s.cluster cl) m = true)
include hruns

theorem execMatrixStep_runs (hloop : m.isLoop = true) :
    execMatrixStep cl bank s = .next (loopStep { s with writer := some (.matrix cl m.bank) } cl t m) := by
  simp only [execMatrixStep, hh, ht, hloop, hruns, Bool.and_self, if_true]

omit ht in
/-- R268: MZERO clears the bank and leaves the queue. -/
theorem execMzeroRun_clears (hkind : m.kind = .mzero) :
    execMzeroRun cl bank s = .next (reapTeam (s.setCluster
      (((s.cluster cl).setBank m.bank ((s.cluster cl).bank m.bank).clear).setHead m.bank none)) m.team) := by
  simp only [execMzeroRun, hh, hkind, hruns, decide_true, Bool.and_self, if_true]

variable (hkind : m.kind = .mstore)
include hkind

/-- R267: an MSTORE whose tile is written leaves the queue and is counted at its barrier and at its lease. -/
theorem execMstoreRun_done
    (hw : writeTile { s with writer := some (.matrix cl m.bank) } t m (storePieces m ((s.cluster cl).bank m.bank)) = .done s1) :
    let s2 := s1.setCluster ((s1.cluster cl).setHead m.bank none)
    let s3 := engineCount s2 (m.decr (t.ppos / 128) (32768 * outBytes m.ctl + 32 - m.next))
    execMstoreRun cl bank s = .next (reapTeam (chargeLease s3 cl m 128) m.team) := by
  simp only [execMstoreRun, hh, ht, hkind, hruns, decide_true, Bool.and_self, if_true, hw]

/-- R263, R267: an MSTORE that cannot write a piece counts what it has written and stops there. -/
theorem execMstoreRun_stops {off code : Nat} {addr : DWord} (hcode : code ≠ 0)
    (hw : writeTile { s with writer := some (.matrix cl m.bank) } t m (storePieces m ((s.cluster cl).bank m.bank))
      = .stop s1 off code addr) :
    let s2 := if off = m.next then s1 else engineCount s1 (m.decr (t.ppos / 128) (off - m.next))
    let m1 : MCmd := { m with next := off }
    execMstoreRun cl bank s =
      .next (stopCmd (s2.setCluster ((s2.cluster cl).setHead m.bank (some m1))) cl m1 code addr) := by
  simp only [execMstoreRun, hh, ht, hkind, hruns, decide_true, Bool.and_self, if_true, hw, if_neg hcode]

end Engine

/-- Settles O33: each word by what its checks lead to, and a command that passes them by `matEnter_enters`; each event by its own
lemma. -/
theorem matrixEngine : Obligations.MatrixEngine := by
  refine ⟨?words, ?events⟩
  case words =>
    intro w a b c n s run f ctl lo hi bar bank asp tix idx r3 K bad enters so place
    refine ⟨execMfmt_user rfl, execMloop_refused rfl rfl, execMstore_refused rfl rfl rfl, execMconv_refused rfl rfl, ?mloop, ?mconv,
      ?mstore, ?mzero, ?mstat⟩
    case mloop =>
      intro hrun hn hzero hcount htix hfmt hoff
      have hexec := execMloop_accepted (w := w) (c := c) rfl rfl hrun hn hzero hcount htix hfmt hoff
      refine ⟨fun code hcode => hexec.trans (congrArg (Option.elim · _ _) hcode), fun hbar => ?_⟩
      have henter : exec (.mloop w a b c) s = matEnter w _ s := hexec.trans (congrArg (Option.elim · _ _) hbar)
      rw [henter]
      exact matEnter_enters (bankNamed_user hn)
    case mconv =>
      intro ws hrun hn hzero hfmt hblk hsteps hoff hbar hobj hconv hin
      have huser : so.g.inHandler = false := (congrArg Group.inHandler (s.acquire_g .sys)).trans (bankNamed_user hn)
      have henter : exec (.mconv w a b c) s = matEnter w _ so :=
        execMconv_accepted rfl rfl hrun hn hzero hfmt hblk hsteps hoff hbar hobj hconv hin
      rw [henter]
      exact matEnter_enters huser
    case mstore =>
      intro m heven hn hok hwin hbar
      have henter : exec (.mstore w a b c) s = matEnter w _ s := execMstore_accepted rfl rfl rfl heven hn hok hwin hbar
      rw [henter]
      exact matEnter_enters (bankNamed_user hn)
    case mzero =>
      intro hn
      have henter : exec (.mzero w n) s = matEnter w _ s := execMzero_named hn
      rw [henter]
      exact matEnter_enters (bankNamed_user hn)
    case mstat => exact fun cl heven hn _ => execMstat_reads heven hn
  case events =>
    intro cl bank s m t c hh ht s0
    exact ⟨fun hloop hruns => execMatrixStep_runs hh ht hruns hloop, fun hkind hruns => execMzeroRun_clears hh hruns hkind,
      fun s1 hkind hruns => execMstoreRun_done hh ht hruns hkind,
      fun s1 off code addr hkind hruns => execMstoreRun_stops hh ht hruns hkind, matrix_events_held hh ht⟩

end Sys2Proof.Machine
end

section
/-! The fragment matrix (R270, R271): FMMA where its registers bear no error, and FMLD and FMST where no lane faults. -/

namespace Sys2Proof.Machine

variable {h : LHdr} {ty ta tb : NType} {acc tr : Bool} {d : Dst} {a b c : Src} {m : MAddr} {s : State} {x : LCtx} {popped : List Nat}

/-! ## FMMA -/

/-- R270, R401: where no register that a word names bears an error, a word that bears errors runs as any other. -/
theorem laneRunT_of_clean {mem : Bool} {ds : List (Nat × Word)} {regs : List (Nat × Nat)} {os : List Src} {od : Option Dst}
    {k : LCtx → State → Res} (hclean : namesBad s regs = false) :
    laneRunT true mem h ds regs os od k s = laneRunT false mem h ds regs os od k s := by
  simp only [laneRunT, hclean, Bool.and_false]

/-- R86: what a word pops holds no register. -/
theorem laneAt_badRegs (os : List Src) : (LaneAt os popped s).g.badRegs = s.g.badRegs :=
  (congrArg Group.badRegs (Group.LaneWrites.popEntries (d := 0) (lanes := []) s os popped).frame :)

/-- R401: an error is in none of the registers that a word with no error in its registers names. -/
theorem not_bad_of_clean {regs : List (Nat × Nat)} {r : Nat × Nat} {e : Nat} (hclean : namesBad s regs = false) (hr : r ∈ regs)
    (he : e ∈ s.g.badRegs) : ¬(r.1 ≤ e / 32 ∧ e / 32 < r.1 + r.2) := by
  intro hin
  refine Bool.false_ne_true (hclean.symm.trans (List.any_eq_true.mpr ⟨e, he, List.any_eq_true.mpr ⟨r, hr, ?_⟩⟩))
  simpa using hin

theorem fragBad_of_clean {regs : List (Nat × Nat)} {o : Src} {n k l : Nat} (hclean : namesBad s regs = false) (ho : srcRun n o ⊆ regs)
    (hk : k < n) (hl : l < 32) : fragBad s o k l = false := by
  cases o with
  | chan _ _ => rfl
  | vec r =>
    refine Bool.eq_false_iff.mpr fun hbad => ?_
    have hout := not_bad_of_clean hclean (ho (List.mem_singleton.mpr rfl)) (List.contains_iff_mem.mp hbad)
    omega

/-- R270: FMMA takes away errors of the registers it writes; where none stands there it changes nothing. -/
theorem clearBad_of_clean {regs : List (Nat × Nat)} (ls : List Nat) (hclean : namesBad s regs = false) (hd : dstRun 8 d ⊆ regs) :
    clearBad d ls s = s := by
  cases d with
  | chan _ => rfl
  | vec r =>
    have hkeep : (s.g.badRegs.filter fun e => !(r.toNat ≤ e / 32 && e / 32 < r.toNat + 8 && ls.contains (e % 32))) = s.g.badRegs := by
      refine List.filter_eq_self.mpr fun e he => ?_
      have hout := not_bad_of_clean hclean (hd (List.mem_singleton.mpr rfl)) he
      simp only [Bool.not_eq_true', Bool.and_eq_false_iff, decide_eq_false_iff_not]
      exact Or.inl (not_and_or.mp hout)
    show { s with g := { s.g with badRegs := _ } } = s
    rw [hkeep]

/-- R270: an operand element of a fragment is read from one of its four registers in one of the lanes. -/
theorem fragElem_congr {u v : Nat → Nat → Word} (huv : ∀ k < 4, ∀ l < 32, u k l = v k l) (width : Nat) {f : Nat} (hf : f < 512) :
    fragElem width u f = fragElem width v f := by
  unfold fragElem
  rw [huv _ (by omega) _ (by omega)]

/-- R270: FMMA takes types of two bytes and of one. -/
theorem fragType_bits (ht : fragType ta = true) : ta.bits = 16 ∨ ta.bits = 8 := by
  cases ta with
  | bf16 | f16 => exact Or.inl rfl
  | e4m3 | e5m2 => exact Or.inr rfl
  | _ => exact absurd ht Bool.false_ne_true

/-- R270: an element of A × B reads the four registers of its operands in the 32 lanes, and nothing else. -/
theorem fragDot_congr {u u' v v' : Nat → Nat → Word} (ha : fragType ta = true) (hb : fragType tb = true)
    (hu : ∀ k < 4, ∀ l < 32, u k l = u' k l) (hv : ∀ k < 4, ∀ l < 32, v k l = v' k l) (z : Word) {i j : Nat}
    (hi : i < 16) (hj : j < 16) :
    fragDot ta tb u v z i j = fragDot ta tb u' v' z i j := by
  unfold fragDot
  dsimp only
  congr 1
  refine List.map_congr_left fun k hk => ?_
  have hk' := List.mem_range.mp hk
  -- a row has 32 bytes: 16 elements where an operand's take two bytes, 32 elements of one byte else
  have hrow : k * (ta.bits / 8) < 32 ∧ k * (tb.bits / 8) < 32 := by
    rcases fragType_bits ha with ea | ea <;> rcases fragType_bits hb with eb | eb <;> simp [ea, eb] at hk' ⊢ <;> omega
  rw [fragElem_congr hu _ (by omega), fragElem_congr hv _ (by omega)]

section Fmma

/-- R270: what FMMA computes in each active lane for the eight registers of its destination, from what its operands read as. -/
def LCtx.fmmaRows (x : LCtx) (ta tb : NType) (va vb vc : Nat → Nat → Word) : List (Nat × List (Word × Flags)) :=
  x.lanes.map fun l => (l, (List.range 8).map fun r => fragDot ta tb va vb (vc r l) ((8 * l + r) / 16) ((8 * l + r) % 16))

variable (H : LaneIssues h (vDs 8 d) (dstRun 8 d ++ srcRun 4 a ++ srcRun 4 b ++ srcRun 8 c) [a, b, c] (some d) s x popped)
include H

theorem fmma_clean : namesBad (LaneAt [a, b, c] popped s) (dstRun 8 d ++ srcRun 4 a ++ srcRun 4 b ++ srcRun 8 c) = false :=
  (congrArg (List.any · _) (laneAt_badRegs [a, b, c])).trans H.clean

/-- R270, R401: once it issues, FMMA's operands bear no error. -/
theorem fmma_operands_clean :
    let u := LaneAt [a, b, c] popped s
    (∀ k < 4, ∀ l < 32, fragBad u a k l = false) ∧ (∀ k < 4, ∀ l < 32, fragBad u b k l = false)
      ∧ ∀ k < 8, ∀ l < 32, fragBad u c k l = false := by
  refine ⟨fun k hk l => fragBad_of_clean (fmma_clean H) ?_ hk, fun k hk l => fragBad_of_clean (fmma_clean H) ?_ hk,
    fun k hk l => fragBad_of_clean (fmma_clean H) ?_ hk⟩ <;>
    simp only [List.subset_def, List.mem_append] <;> tauto

/-- R270: FMMA replaces no element. -/
theorem fmma_replaces_nothing : x.fragZrep (LaneAt [a, b, c] popped s) a b c = false := by
  obtain ⟨hA, hB, hC⟩ := fmma_operands_clean H
  simp only [LCtx.fragZrep, Bool.or_eq_false_iff, List.any_eq_false, Bool.not_eq_true, List.mem_range]
  exact ⟨fun l hl k hk => ⟨hA k hk l hl, hB k hk l hl⟩, fun l hl k hk => hC k hk l (mem_lanesOf_lt hl)⟩

/-- R270: so it computes on its operands as the registers hold them. -/
theorem fmmaRows_eq (ha : fragType ta = true) (hb : fragType tb = true) :
    let u := LaneAt [a, b, c] popped s
    x.fmmaRows ta tb (x.fragVal u 0 a) (x.fragVal u 1 b) (x.fragVal u 2 c)
      = x.fmmaRows ta tb (x.val u 0 a) (x.val u 1 b) (x.val u 2 c) := by
  intro u
  obtain ⟨hA, hB, hC⟩ := fmma_operands_clean H
  have keeps {i k m : Nat} {o : Src} (h : fragBad u o k m = false) : x.fragVal u i o k m = x.val u i o k m :=
    if_neg (ne_true_of_eq_false h)
  refine List.map_congr_left fun l hl => congrArg (Prod.mk l) (List.map_congr_left fun r hr => ?_)
  have hlane : l < 32 := mem_lanesOf_lt hl
  have hreg : r < 8 := List.mem_range.mp hr
  rw [keeps (hC r hreg l hlane)]
  exact fragDot_congr ha hb (fun k hk m hm => keeps (hA k hk m hm)) (fun k hk m hm => keeps (hB k hk m hm)) _ (by omega) (by omega)

/-- R270: FMMA writes its element to each register of its destination in each active lane, and sets the elements' flags. -/
theorem execFmma_multiplies (hta : fmtType s.g.fmt 0 = some ta) (htb : fmtType s.g.fmt 4 = some tb) (ha : fragType ta = true)
    (hb : fragType tb = true) (hblk : s.g.fmt.extractLsb' 8 4 = 0) :
    let u := LaneAt [a, b, c] popped s
    let rs := x.fmmaRows ta tb (x.val u 0 a) (x.val u 1 b) (x.val u 2 c)
    execFmma h d a b c s = .next (x.past (flagAll (rs.flatMap fun o => o.2.map fun v => v.2)
      (x.put true d (rs.map fun o => (o.1, o.2.map fun v => v.1)) u))) := by
  intro u rs
  have hlegal : ¬(!(fragType ta && fragType tb) || s.g.fmt.extractLsb' 8 4 ≠ 0) = true := by simp [ha, hb, hblk]
  have hrun : execFmma h d a b c s =
      let rs := x.fmmaRows ta tb (x.fragVal u 0 a) (x.fragVal u 1 b) (x.fragVal u 2 c)
      .next (x.past (flagAll ((if x.act ≠ 0 && x.fragZrep u a b c then [fZrep] else []) ++ rs.flatMap fun o => o.2.map fun v => v.2)
        (x.put true d (rs.map fun o => (o.1, o.2.map fun v => v.1)) (clearBad d x.lanes u)))) := by
    simp only [execFmma, hta, htb, if_neg hlegal]
    exact (laneRunT_of_clean H.clean).trans ((laneRunT_of_issues H _).trans (H.endL_eq _))
  rw [hrun, fmmaRows_eq H ha hb, clearBad_of_clean x.lanes (fmma_clean H) (by simp), fmma_replaces_nothing H, Bool.and_false,
    if_neg Bool.false_ne_true]
  rfl

end Fmma

/-! ## FMLD and FMST -/

/-- R271: what a word of a tile does in its active lanes: `k` where base and stride are aligned. -/
def LCtx.onTile (x : LCtx) (addr : DWord) (stride : Nat) (u : State) (k : Res) : Res :=
  match x.lanes with
  | [] => x.endL u
  | _ :: _ => match fragMisaligned x addr stride u with | some r => r | none => k

theorem LCtx.onTile_aligned {addr : DWord} {stride : Nat} {u : State} {k : Res} (hne : x.lanes ≠ []) (haddr : addr.toNat % 16 = 0)
    (hstride : stride % 16 = 0) : x.onTile addr stride u k = k := by
  have halign : fragMisaligned x addr stride u = none := if_pos (by simp [haddr, hstride])
  obtain ⟨l, ls, hlanes⟩ := List.exists_cons_of_ne_nil hne
  simp only [LCtx.onTile, hlanes, halign]

/-- R271: FMLD of an aligned tile, placed with no line empty and read without a fault, writes each active lane its registers. -/
theorem execFmld_loads (hsp : spaceLegal s (.ofM m) = true) (hne : x.lanes ≠ []) :
    let n := if acc then 8 else 4
    let u := if tr then ty.bits / 8 else 4
    LaneIssues h (vDs n d) (dstRun n d ++ srcRun 1 (addrSrc m) ++ srcRun 1 b) [addrSrc m, b] (some d) s x popped true →
    let s1 := LaneAt [addrSrc m, b] popped s
    let off := (x.val s1 0 (addrSrc m) 0 x.lead).toInt + (addrDisp m).toInt
    let stride := (x.val s1 1 b 0 x.lead).toNat
    let r := placeFrag m acc (if tr then some (ty.bits / 8) else none) u off stride .rd x.lanes s1
    let q := readFrag u r
    (fragAddr s1 m off).toNat % 16 = 0 → stride % 16 = 0 → r.full = false →
      placesFull r.s (r.units.map fun x => (x.1, x.2.2)) u = true → q.2.2 = [] →
      execFmld h ty acc tr d m b s = .next (x.past (x.put true d (x.lanes.map fun l =>
        (l, (List.range n).map fun k => fragReg q.2.1 (fragLane acc * l + 4 * k))) q.1)) := by
  intro n u H s1 off stride r q haddr hstride hfull hlines hq
  have hready : ¬(!placesFull r.s (r.units.map fun x => (x.1, x.2.2)) u) = true := by simp [hlines]
  have hall : (x.lanes.filter fun l => (SMap.find q.2.2 l).isNone) = x.lanes := by
    rw [hq]
    exact List.filter_true x.lanes
  refine (if_neg (by simp [hsp])).trans ((laneMem_of_issues H _).trans ((LCtx.onTile_aligned hne haddr hstride).trans ?_))
  refine (if_neg (ne_true_of_eq_false hfull)).trans ((if_neg hready).trans ((H.endOr_sound _ hq).trans ?_))
  exact congrArg (fun ls : List Nat => Host.Outcome.next (x.past (x.put true d (ls.map fun l =>
    (l, (List.range n).map fun k => fragReg q.2.1 (fragLane acc * l + 4 * k))) q.1))) hall

/-- R271: FMST of an aligned tile whose every unit is placed writes each unit from its lane's register. -/
theorem execFmst_stores (hsp : spaceLegal s (.ofM m) = true) (hne : x.lanes ≠ []) :
    let n := if acc then 8 else 4
    LaneIssues h [] (srcRun n c ++ srcRun 1 (addrSrc m) ++ srcRun 1 b) [addrSrc m, b, c] none s x popped true →
    let s1 := LaneAt [addrSrc m, b, c] popped s
    let off := (x.val s1 0 (addrSrc m) 0 x.lead).toInt + (addrDisp m).toInt
    let stride := (x.val s1 1 b 0 x.lead).toNat
    let r := placeFrag m acc none 4 off stride .wr x.lanes s1
    (fragAddr s1 m off).toNat % 16 = 0 → stride % 16 = 0 → r.full = false → r.faults = [] →
    execFmst h ty acc m b c s = .next (x.past (r.inOrder.foldl (fun s e =>
      writePlace s .grp (bytesOf [x.val x.s0 2 c (e.2.1 % fragLane acc / 4) e.1]) e.2.2) r.s)) := by
  intro n H s1 off stride r haddr hstride hfull hf
  have hwrites : r.inOrder.foldl (fun s e => if (SMap.find r.faults e.1).isSome then s
      else writePlace s .grp (bytesOf [x.val x.s0 2 c (e.2.1 % fragLane acc / 4) e.1]) e.2.2) r.s
    = r.inOrder.foldl (fun s e => writePlace s .grp (bytesOf [x.val x.s0 2 c (e.2.1 % fragLane acc / 4) e.1]) e.2.2) r.s := by
    rw [hf]
    rfl
  refine (if_neg (by simp [hsp])).trans ((laneMem_of_issues H _).trans ((LCtx.onTile_aligned hne haddr hstride).trans ?_))
  refine (if_neg (ne_true_of_eq_false hfull)).trans ((H.endOr_sound _ hf).trans ?_)
  exact congrArg (fun u => Host.Outcome.next (x.past u)) hwrites

/-- Settles O47: FMMA with no error in the registers it names, FMLD and FMST with no fault in a lane, each by its lemma. -/
theorem fragmentMatrix : Obligations.FragmentMatrix := by
  intro h ty ta tb acc tr d a b c m s x popped n bw u
  refine ⟨?fmma, execFmld_loads, execFmst_stores (ty := ty)⟩
  case fmma =>
    intro hta htb ha hb hblk H s1 e
    have hexec := execFmma_multiplies H hta htb ha hb hblk
    simp only [LCtx.fmmaRows, List.flatMap_map, List.map_map] at hexec
    exact hexec

end Sys2Proof.Machine
end

section
/-! Texture words (R285–R289, R369) and TRACE (R290, R291) with a sound descriptor, where no lane faults: the lanes answer one after
another, and what they have answered is kept beside the faults. -/

namespace Sys2Proof.Machine

variable {h : LHdr} {dim : TexDim} {ext any : Bool} {d : Dst} {a b : Src} {t : BitVec 16} {s u : State} {c : LCtx} {popped : List Nat}
  {x : Tex}

/-! ## Lane after lane -/

/-- A fold whose accumulator is, at each item, what `acc` gives for the items before it. -/
theorem foldl_accumulates {α β : Type} {f : α → β → α} {acc : List β → α} {ls : List β}
    (hstep : ∀ done, ∀ l ∈ ls, f (acc done) l = acc (done ++ [l])) (done : List β) : ls.foldl f (acc done) = acc (done ++ ls) := by
  induction ls generalizing done with
  | nil => exact congrArg acc (List.append_nil done).symm
  | cons l ls ih =>
    calc ls.foldl f (f (acc done) l)
        = ls.foldl f (acc (done ++ [l])) := congrArg (ls.foldl f) (hstep done l List.mem_cons_self)
      _ = acc (done ++ [l] ++ ls) := ih (fun done l hl => hstep done l (List.mem_cons_of_mem _ hl)) _
      _ = acc (done ++ l :: ls) := congrArg acc (List.append_assoc done [l] ls)

/-- R73, R120: the order of the lanes does not matter to the flags that they set in gsr. -/
theorem flags_foldl_reverse (fl : List Flags) : fl.reverse.foldl (· ||| ·) 0 = fl.foldl (· ||| ·) 0 := by
  rw [List.foldl_reverse, List.foldl_eq_foldr]
  simp only [BitVec.or_comm]

/-! ## Texture words -/

/-- R286, R369: the registers of a lane, or its fault, by a texture index and what `f` gives for a descriptor. -/
def texAnswer (dim : TexDim) (t : BitVec 16) (u : State) (f : Tex → Nat → Except (Nat × DWord) (List Word)) (l : Nat) :
    Except (Nat × DWord) (List Word) :=
  match texLookup u t.toNat with
  | .error code => .error (code, t.setWidth 64)
  | .ok x => if x.kind ≠ dimKind dim then .ok (freeRegs u l 4) else f x l

theorem texAnswer_sound {f : Tex → Nat → Except (Nat × DWord) (List Word)} (hx : texLookup u t.toNat = .ok x)
    (hkind : x.kind = dimKind dim) (l : Nat) : texAnswer dim t u f l = f x l := by
  simp only [texAnswer, hx, hkind, ne_eq, not_true_eq_false, if_false]

/-- R211: a lane adds its registers to those of the lanes before it, or its fault to theirs. -/
def addAnswer (res : Nat → Except (Nat × DWord) (List Word)) (p : Outs × SMap (Byte × DWord)) (l : Nat) : Outs × SMap (Byte × DWord) :=
  match res l with
  | .error e => (p.1, SMap.insert p.2 l (BitVec.ofNat 8 e.1, e.2))
  | .ok ws => (p.1 ++ [(l, ws)], p.2)

theorem addAnswer_sound {res : Nat → Except (Nat × DWord) (List Word)} {ls : List Nat} {ws : Nat → List Word}
    (hws : ∀ l ∈ ls, res l = .ok (ws l)) : ls.foldl (addAnswer res) ([], []) = (ls.map fun l => (l, ws l), []) := by
  refine foldl_accumulates (acc := fun done => (done.map fun l => (l, ws l), [])) (fun done l hl => ?_) []
  simp only [addAnswer, hws l hl, List.map_append, List.map_singleton]

/-- R285–R289: a texture word on a compute core asks each of its lanes. -/
theorem laneTex_asks {os : List Opd} {f : LCtx → State → Tex → Nat → Except (Nat × DWord) (List Word)} (hroof : s.isRoof = false)
    (H : LaneIssues h (vDs 4 d) (dstRun 4 d ++ os.flatMap fun o => srcRun o.2 o.1) (os.map fun o => o.1) none s c popped true) :
    let u := (LaneAt (os.map fun o => o.1) popped s).objAcquire
    let r := c.lanes.foldl (addAnswer (texAnswer dim t u (f c u))) ([], [])
    laneTex h dim d os t f s = c.endOr r.2 (c.put true d r.1 u) :=
  (if_neg (ne_true_of_eq_false hroof)).trans (laneMem_of_issues H _)

/-- R286: with a descriptor of the word's kind and no fault, each lane's registers are what the word gives for it. -/
theorem laneTex_answers {os : List Opd} {f : LCtx → State → Tex → Nat → Except (Nat × DWord) (List Word)} (hroof : s.isRoof = false)
    (H : LaneIssues h (vDs 4 d) (dstRun 4 d ++ os.flatMap fun o => srcRun o.2 o.1) (os.map fun o => o.1) none s c popped true) :
    let u := (LaneAt (os.map fun o => o.1) popped s).objAcquire
    texLookup u t.toNat = .ok x → x.kind = dimKind dim → ∀ ws : Nat → List Word, (∀ l ∈ c.lanes, f c u x l = .ok (ws l)) →
      laneTex h dim d os t f s = .next (c.past (c.put true d (c.lanes.map fun l => (l, ws l)) u)) := by
  intro u hx hkind ws hws
  have hr := addAnswer_sound (res := texAnswer dim t u (f c u)) fun l hl => (texAnswer_sound hx hkind l).trans (hws l hl)
  refine (laneTex_asks hroof H).trans ?_
  rw [hr]
  exact H.endOr_sound _ rfl

/-- R289: TEXQ with a sound descriptor. -/
theorem execTexq_answers (hroof : s.isRoof = false)
    (H : LaneIssues h (vDs 2 d) (dstRun 2 d ++ srcRun 1 b) [b] none s c popped true) :
    let u := (LaneAt [b] popped s).objAcquire
    texLookup u t.toNat = .ok x →
      execTexq h ext d b t s = .next (c.past (c.put true d (c.lanes.map fun l => (l, texQuery x ext (c.val u 0 b 0 l).toNat)) u)) := by
  intro u hx
  refine (if_neg (ne_true_of_eq_false hroof)).trans ((laneMem_of_issues H _).trans ?_)
  dsimp only
  rw [show texLookup (popEntries s [b] popped).objAcquire t.toNat = .ok x from hx]
  exact H.endL_eq _

/-! ## TRACE -/

/-- R291: a lane adds its hit and its flags to those of the lanes before it, the latest flags first, or its fault to theirs. -/
def addHit (res : Nat → Except (Nat × DWord) (List Word × Flags)) (p : Outs × List Flags × SMap (Byte × DWord)) (l : Nat) :
    Outs × List Flags × SMap (Byte × DWord) :=
  match res l with
  | .error e => (p.1, p.2.1, SMap.insert p.2.2 l (BitVec.ofNat 8 e.1, e.2))
  | .ok (ws, fl) => (p.1 ++ [(l, ws)], fl :: p.2.1, p.2.2)

theorem addHit_sound {res : Nat → Except (Nat × DWord) (List Word × Flags)} {ls : List Nat} {hit : Nat → List Word × Flags}
    (hhit : ∀ l ∈ ls, res l = .ok (hit l)) :
    ls.foldl (addHit res) ([], [], []) = (ls.map fun l => (l, (hit l).1), (ls.map fun l => (hit l).2).reverse, []) := by
  refine foldl_accumulates (acc := fun done => (done.map fun l => (l, (hit l).1), (done.map fun l => (hit l).2).reverse, []))
    (fun done l hl => ?_) []
  simp only [addHit, hhit l hl, List.map_append, List.map_singleton, List.reverse_append, List.reverse_singleton, List.singleton_append]

/-- R291: the answer of a lane's ray, whose origin and direction stand in A and B. -/
def rayAnswer (u : State) (c : LCtx) (base : DWord) (any : Bool) (a b : Src) (l : Nat) : Except (Nat × DWord) (List Word × Flags) :=
  traceRay u base any l ((List.range 4).map fun k => c.val u 0 a k l) ((List.range 4).map fun k => c.val u 1 b k l)

/-- R290, R291: TRACE on a compute core, with a sound hierarchy, follows the ray of each of its lanes. -/
theorem execTrace_follows {base : DWord} (hroof : s.isRoof = false)
    (H : LaneIssues h (vDs 8 d) (dstRun 8 d ++ srcRun 4 a ++ srcRun 4 b) [a, b] none s c popped true) :
    let u := (LaneAt [a, b] popped s).objAcquire
    let r := c.lanes.foldl (addHit (rayAnswer u c base any a b)) ([], [], [])
    bvhBase u t.toNat = .ok base → execTrace h any d a b t s =
      c.endOr r.2.2 ((flagAll r.2.1 (c.put true d r.1 u)).countEvent u.g.ctx 0x12 c.lanes.length) := by
  intro u r hbase
  refine (if_neg (ne_true_of_eq_false hroof)).trans ((laneMem_of_issues H _).trans ?_)
  dsimp only
  rw [show bvhBase (popEntries s [a, b] popped).objAcquire t.toNat = .ok base from hbase]
  rfl

/-- R291: TRACE where no lane faults writes each lane's hit and raises the lanes' flags. -/
theorem execTrace_answers {base : DWord} {hit : Nat → List Word × Flags} (hroof : s.isRoof = false)
    (H : LaneIssues h (vDs 8 d) (dstRun 8 d ++ srcRun 4 a ++ srcRun 4 b) [a, b] none s c popped true) :
    let u := (LaneAt [a, b] popped s).objAcquire
    bvhBase u t.toNat = .ok base → (∀ l ∈ c.lanes, rayAnswer u c base any a b l = .ok (hit l)) →
      execTrace h any d a b t s = .next (c.past ((flagAll (c.lanes.map fun l => (hit l).2).reverse
        (c.put true d (c.lanes.map fun l => (l, (hit l).1)) u)).countEvent u.g.ctx 0x12 c.lanes.length)) := by
  intro u hbase hhit
  refine (execTrace_follows hroof H hbase).trans ?_
  rw [addHit_sound hhit]
  exact H.endOr_sound _ rfl

/-- Settles O46: TEXG, TEXS and TEXL as texture words, TEXQ by its query, TRACE by its hits, whose flags may come in any order. -/
theorem textureAndRays : Obligations.TextureAndRays := by
  intro h dim comp ext any d a b t s c popped x regs at_ sampled hroof
  refine ⟨fun H => ?one, fun H => ?texl, execTexq_answers hroof, fun H => ?trace⟩
  case one =>
    have H1 : LaneIssues h (vDs 4 d) (dstRun 4 d ++ [(a, dim.regs)].flatMap fun o => srcRun o.2 o.1) [a] none s c popped true := by
      simpa using H
    refine ⟨?texg, ?texs⟩
    case texg =>
      intro hx hkind ws hws
      exact (laneTex_answers hroof H1 hx hkind ws hws : execTexg h dim comp d a t s = _)
    case texs =>
      intro hx hkind ws hws
      exact (laneTex_answers hroof H1 hx hkind ws hws : execTexs h dim d a t s = _)
  case texl =>
    have H2 : LaneIssues h (vDs 4 d) (dstRun 4 d ++ [(a, dim.regs), (b, 1)].flatMap fun o => srcRun o.2 o.1) [a, b] none s c popped true := by
      simpa [regs] using H
    intro hx hkind ws hws
    exact (laneTex_answers hroof H2 hx hkind ws hws : execTexl h dim d a b t s = _)
  case trace =>
    intro s1 run base hit hbase hhit
    exact ⟨_, flags_foldl_reverse _, execTrace_answers hroof H hbase hhit⟩

end Sys2Proof.Machine
end

section
/-! What the return from the handler leaves of the group (R361, R363): the fence and the command that resumes leave it alone, the
return restores the user bank, and what goes on after it only wakes streams and settles splits. -/

namespace Sys2Proof.Machine

/-! ## Fences and resumed commands -/

/-- Steps that leave the group alone, one after another. -/
theorem foldl_g {α : Type} {f : State → α → State} (hf : ∀ t x, (f t x).g = t.g) (l : List α) (s : State) : (l.foldl f s).g = s.g := by
  induction l generalizing s with
  | nil => rfl
  | cons x l ih => exact (ih (f s x)).trans (hf s x)

theorem State.performDirty_g (s : State) (id : Nat) (p : Nat → Bool) : (s.performDirty id p).g = s.g := by
  unfold State.performDirty
  dsimp only
  rw [foldl_g, State.setL1_g]
  exact fun t e => t.memWrite_g _ _

theorem State.dropClean_g (s : State) (line : Nat) : (s.dropClean line).g = s.g := rfl

theorem State.syncDup_g (s : State) (line ctx : Nat) : (s.syncDup line ctx).g = s.g := by
  unfold State.syncDup
  rw [foldl_g, State.dropClean_g]
  intro t i
  dsimp only
  split
  · rw [State.dropClean_g, State.memWrite_g]
  · rw [State.dropClean_g, State.memWrite_g]

theorem State.ackDup_g (s : State) (id line : Nat) : (s.ackDup id line).g = s.g := by
  unfold State.ackDup
  split
  · rfl
  · rw [State.setL1_g, State.syncDup_g, State.performDirty_g]

theorem State.ackAllDup_g (s : State) (id : Nat) : (s.ackAllDup id).g = s.g := by
  unfold State.ackAllDup
  rw [foldl_g]
  exact fun t d => t.ackDup_g id _

theorem State.scopeWriteBack_g (s : State) (sc : Scope) : (s.scopeWriteBack sc).g = s.g := by
  unfold State.scopeWriteBack State.writeBackL1
  split
  · rfl
  · split
    · rw [State.ackAllDup_g, State.performDirty_g]
    · rw [State.ackAllDup_g]

theorem State.fence_g (s : State) (k : FenceKind) (sc : Scope) : (s.fence k sc).g = s.g := by
  cases k with
  | acq => exact s.acquire_g sc
  | rel => exact s.scopeWriteBack_g sc
  | ar => exact ((s.scopeWriteBack sc).acquire_g sc).trans (s.scopeWriteBack_g sc)
  | sc => exact ((s.scopeWriteBack sc).acquire_g sc).trans (s.scopeWriteBack_g sc)

theorem resumeCommand_g (s : State) (g : Group) : (resumeCommand s g).g = s.g := by
  unfold resumeCommand
  dsimp only
  split
  · rfl
  · split <;> rfl

/-! ## What goes on after the return -/

/-- From `g` to `h` only what waits differs: results on the way, the park of the control stream, the splits and the lane blocks. -/
structure Group.OnlyWaits (g h : Group) : Prop where
  frame :
    { h with pend := g.pend, park := g.park, splits := g.splits, hsplits := g.hsplits, laneq := g.laneq, hlaneq := g.hlaneq } = g

namespace Group.OnlyWaits

theorem refl (g : Group) : g.OnlyWaits g := ⟨rfl⟩

theorem trans {g₁ g₂ g₃ : Group} (h₁ : g₁.OnlyWaits g₂) (h₂ : g₂.OnlyWaits g₃) : g₁.OnlyWaits g₃ where
  frame := (congrArg (fun x : Group => { x with
    pend := g₁.pend, park := g₁.park, splits := g₁.splits, hsplits := g₁.hsplits, laneq := g₁.laneq, hlaneq := g₁.hlaneq })
      h₂.frame).trans h₁.frame

theorem foldl {α : Type} {f : Group → α → Group} (hf : ∀ (g : Group) (x : α), g.OnlyWaits (f g x)) (l : List α) (g : Group) :
    g.OnlyWaits (l.foldl f g) :=
  List.foldlRecOn (motive := fun h => g.OnlyWaits h) l f (refl g) fun h hh x _ => hh.trans (hf h x)

theorem dropReturned (g : Group) (st : Strm) : g.OnlyWaits (g.dropReturned st) := ⟨rfl⟩

theorem joinPend (g : Group) (ys : List Split) (i : Nat) : g.OnlyWaits (g.joinPend ys i) := ⟨rfl⟩

theorem setSplits (g : Group) (ss : List Split) : g.OnlyWaits (g.setSplits ss) := by
  unfold Group.setSplits
  split <;> exact ⟨rfl⟩

theorem setQueue (g : Group) (q : List Block) : g.OnlyWaits (g.setQueue q) := by
  unfold Group.setQueue
  split <;> exact ⟨rfl⟩

theorem wakeSplit (g : Group) (x : Split) : g.OnlyWaits (g.wakeSplit x) := by
  unfold Group.wakeSplit
  dsimp only
  split
  · exact (dropReturned g _).trans (setSplits _ _)
  · exact refl g

theorem wake (g : Group) : g.OnlyWaits g.wake := by
  unfold Group.wake
  refine trans ?_ (foldl wakeSplit _ _)
  split
  · exact ⟨rfl⟩
  · exact refl g

theorem endSplits (g : Group) : g.OnlyWaits (endSplits g) := by
  unfold Machine.endSplits
  dsimp only
  split
  · exact refl g
  · split
    · exact ((foldl (fun _ _ => dropReturned _ _) _ g).trans (setSplits _ _)).trans (setQueue _ _)
    · exact (foldl (fun _ _ => dropReturned _ _) _ g).trans (setSplits _ _)

theorem releaseJoins (g : Group) : g.OnlyWaits (releaseJoins g) := by
  unfold Machine.releaseJoins
  dsimp only
  split
  · exact refl g
  · split
    · exact refl g
    · exact (joinPend g _ _).trans (setSplits _ _)

theorem settleSplits (g : Group) : g.OnlyWaits (settleSplits g) := (endSplits g).trans (releaseJoins _)

theorem regs {g h : Group} (e : g.OnlyWaits h) :
    h.mode = g.mode ∧ h.s = g.s ∧ h.q = g.q ∧ h.v = g.v ∧ h.tr = g.tr ∧ h.hs = g.hs ∧ h.m = g.m ∧ h.pc = g.pc :=
  ⟨(congrArg Group.mode e.frame :), (congrArg Group.s e.frame :), (congrArg Group.q e.frame :), (congrArg Group.v e.frame :),
    (congrArg Group.tr e.frame :), (congrArg Group.hs e.frame :), (congrArg Group.m e.frame :), (congrArg Group.pc e.frame :)⟩

end Group.OnlyWaits

/-! ## The return -/

/-- A read of another key, whatever it gives for one that is not listed. -/
theorem SMap.get_set_other {β : Type} [DecidableEq β] (e d v : β) (m : SMap β) {k j : Nat} (h : j ≠ k) :
    SMap.get e (SMap.set d m k v) j = SMap.get e m j := by
  unfold SMap.set
  split
  · rw [SMap.get_erase, if_neg h]
  · rw [SMap.get_insert, if_neg h]

/-- R363: where the return puts the user's C-stream: at the faulting word, after it for a trap, or where it stopped. -/
def returnPc (g : Group) : DWord :=
  if g.hs.cause.extractLsb' 10 2 = 0 then (if g.hs.cause.extractLsb' 0 8 = 8 then g.hs.pc + 4 else g.hs.pc) else g.upc

/-- R361, R363: the return keeps the translation registers and hs, restores m15, and puts the C-stream where it goes on. -/
theorem rettGroup_place (g : Group) :
    (rettGroup g).tr = g.tr ∧ (rettGroup g).hs = g.hs ∧ (rettGroup g).m = SMap.set (mDefault 15) g.m 15 g.m15user
      ∧ (rettGroup g).pc = returnPc g := by
  obtain ⟨u, hu, htr, hhs, hm, hpc⟩ : ∃ u : Group, rettGroup g = u.wake ∧ u.tr = g.tr ∧ u.hs = g.hs
      ∧ u.m = SMap.set (mDefault 15) g.m 15 g.m15user ∧ u.pc = returnPc g := by
    refine ⟨_, rfl, ?_⟩
    unfold returnPc
    split
    · exact ⟨rfl, rfl, rfl, rfl⟩
    · split
      · split <;> exact ⟨rfl, rfl, rfl, rfl⟩
      · exact ⟨rfl, rfl, rfl, rfl⟩
  obtain ⟨-, -, -, -, htr', hhs', hm', hpc'⟩ := (Group.OnlyWaits.wake u).regs
  rw [hu]
  exact ⟨htr'.trans htr, hhs'.trans hhs, hm'.trans hm, hpc'.trans hpc⟩

section Rett

variable {w : Bool} {s : State}

/-- R363, R366: the saved PC of a trap that is not aligned, at which RETT is illegal. -/
def trapMisaligned (g : Group) : Prop :=
  g.hs.cause.extractLsb' 10 2 = 0 ∧ g.hs.cause.extractLsb' 0 8 = 8 ∧ g.hs.pc.extractLsb' 0 2 ≠ 0

theorem rett_legal (hm : s.g.mode = .handler) (ht : ¬trapMisaligned s.g) :
    ¬(s.g.mode ≠ .handler || ((s.g.hs.cause.extractLsb' 10 2 = 0 && s.g.hs.cause.extractLsb' 0 8 = 8 : Bool)
        && s.g.hs.pc.extractLsb' 0 2 ≠ 0)) = true := by
  simpa [hm, trapMisaligned, and_assoc] using ht

/-- R363: RETT of an idle handler. -/
theorem rett_returns (hm : s.g.mode = .handler) (ht : ¬trapMisaligned s.g) (hd : handlerDone s.g = true) :
    let t := s.fence .ar .prt
    exec (.rett w) s = .next ((if s.g.hs.cause.extractLsb' 10 2 = 2 then resumeCommand t t.g else t).mapG fun g =>
      settleSplits (rettGroup g)) :=
  (if_neg (rett_legal hm ht)).trans (if_neg (by simp [hd]))

/-- R363: before the handler is idle RETT waits. -/
theorem rett_waits (hm : s.g.mode = .handler) (ht : ¬trapMisaligned s.g) (hd : handlerDone s.g = false) :
    exec (.rett w) s = .next (s.parkC .again) :=
  (if_neg (rett_legal hm ht)).trans (if_pos (by simp [hd]))

/-- R363: RETT outside the handler is illegal. -/
theorem rett_illegal (hm : s.g.mode ≠ .handler) : exec (.rett w) s = illegalC s := if_pos (by simp [hm])

end Rett

/-- Settles O13: what RETT does to the group is the return and what goes on after it. -/
theorem handlerReturn : Obligations.HandlerReturn := by
  intro w s hm ht hd
  obtain ⟨u, hexec, hg⟩ : ∃ u : State, exec (.rett w) s = .next (u.mapG fun g => settleSplits (rettGroup g)) ∧ u.g = s.g := by
    refine ⟨_, rett_returns hm ht hd, ?_⟩
    split
    · exact (resumeCommand_g _ _).trans (s.fence_g .ar .prt)
    · exact s.fence_g .ar .prt
  obtain ⟨hmode, -, -, hs, hq, hv⟩ := rettGroup_regs s.g
  obtain ⟨htr, hhs, hmask, hpc⟩ := rettGroup_place s.g
  obtain ⟨hmode', hs', hq', hv', htr', hhs', hmask', hpc'⟩ := (Group.OnlyWaits.settleSplits (rettGroup s.g)).regs
  refine ⟨_, hexec, ?_⟩
  rw [State.mapG_g, hg]
  refine ⟨hmode'.trans hmode, hs'.trans hs, hq'.trans hq, hv'.trans hv, htr'.trans htr, hhs'.trans hhs, ?m15, ?masks, ?word, ?boundary⟩
  case m15 => rw [hmask', hmask, SMap.get_set, if_pos rfl]
  case masks =>
    intro i hi
    rw [hmask', hmask, SMap.get_set_other _ _ _ _ hi]
  case word => exact fun hsrc => (hpc'.trans hpc).trans (if_pos hsrc)
  case boundary => exact fun hsrc => (hpc'.trans hpc).trans (if_neg hsrc)

end Sys2Proof.Machine
end

section
/-! The words of the controllers (R373, R376–R380, R395): HALT, CTXSAVE, CTXLOAD and FREEZE, by what their handle names. -/

namespace Sys2Proof.Machine

variable {w hard : Bool} {a b : SReg} {q : QReg} {s : State} {p slot : Nat} {t : Team} {m : Master}

/-! ## HALT -/

theorem haltRun_illegal (hmode : s.g.mode ≠ .slice) : haltRun w hard a q s = illegalC s := if_pos hmode

section
variable (hmode : s.g.mode = .slice)
include hmode

theorem haltRun_none (hh : masterOf s (s.g.rdS s.tick a) = none) : haltRun w hard a q s = endQ w q false s := by
  unfold haltRun
  rw [if_neg (not_not.mpr hmode), hh]

/-- R376: HALT of a team that has not stopped. -/
theorem haltRun_team (hh : masterOf s (s.g.rdS s.tick a) = some (.core p slot)) (ht : teamAt s p slot = some t)
    (hrun : teamStopped s t.uid = false) :
    haltRun w hard a q s = endQ w q true (if hard then haltTeam s t.uid else softHalt s t.uid) := by
  unfold haltRun
  rw [if_neg (not_not.mpr hmode), hh]
  simp only [ht, hrun]
  cases hard <;> rfl

/-! ## CTXSAVE and CTXLOAD -/

/-- R377: CTXSAVE of a team to an aligned record. -/
theorem execCtxsave_team (hh : masterOf s (s.g.rdS s.tick a) = some (.core p slot)) (ht : teamAt s p slot = some t)
    (halign : (s.g.rdP s.tick b).toNat % 4096 = 0) :
    execCtxsave w a b q s = if !teamStopped s t.uid then endQ w q false s
      else if !saveReady s t then .next (s.parkC .engine)
      else endQ w q true (saveTeam s t.uid (sliceKey s (s.g.rdP s.tick b))) := by
  unfold execCtxsave
  dsimp only
  rw [if_neg (not_not.mpr hmode), hh]
  simp only [ht, if_neg (not_not.mpr halign)]

/-- R378: CTXLOAD onto a core of an aligned record whose slot is not on its way elsewhere. -/
theorem execCtxload_core (hh : masterOf s (s.g.rdS s.tick a) = some (.core p slot)) (halign : (s.g.rdP s.tick b).toNat % 4096 = 0)
    (hredir : slotRedir s (sliceKey s (s.g.rdP s.tick b)) = false) :
    let key := sliceKey s (s.g.rdP s.tick b)
    let ctx := recordCtx s key
    execCtxload w a b q s = if slotCorrupt s key then endQ w q false (refuseRecord s ctx s.sliceId key (s.g.rdP s.tick b))
      else if restoreFits s ctx key p then endQ w q true (restoreTeam s ctx key p) else endQ w q false s := by
  unfold execCtxload
  dsimp only
  rw [if_neg (not_not.mpr hmode), hh]
  simp only [if_neg (not_not.mpr halign), hredir, Bool.false_eq_true, if_false]

/-! ## FREEZE -/

variable {f : State → Team → State} {e : State → Master → State}

theorem freezeRun_none (hh : masterOf s (s.g.rdS s.tick a) = none) : freezeRun w a q f e s = endQ w q false s := by
  unfold freezeRun
  rw [if_neg (by simp [hmode]), hh]

/-- R379: FREEZE of a team. -/
theorem freezeRun_team (hh : masterOf s (s.g.rdS s.tick a) = some (.core p slot)) (ht : teamAt s p slot = some t) :
    freezeRun w a q f e s = endQ w q true (f s t) := by
  unfold freezeRun
  rw [if_neg (by simp [hmode]), hh]
  simp only [ht]

/-- R379: FREEZE of an engine. -/
theorem freezeRun_engine (hh : masterOf s (s.g.rdS s.tick a) = some m) (hm : ∀ p slot, m ≠ .core p slot) :
    freezeRun w a q f e s = endQ w q true (e s m) := by
  unfold freezeRun
  rw [if_neg (by simp [hmode]), hh]
  cases m with
  | core p slot => exact absurd rfl (hm p slot)
  | _ => rfl

end

theorem freezeRun_illegal {f : State → Team → State} {e : State → Master → State} (hs : s.g.mode ≠ .slice) (hd : s.g.mode ≠ .device) :
    freezeRun w a q f e s = illegalC s := if_pos (by simp [hs, hd])

theorem execCtxsave_illegal (hmode : s.g.mode ≠ .slice) : execCtxsave w a b q s = illegalC s := if_pos hmode

theorem execCtxload_illegal (hmode : s.g.mode ≠ .slice) : execCtxload w a b q s = illegalC s := if_pos hmode

/-- Settles O38: each word, in each case of its mode and of what its handle names, has its lemma. -/
theorem controllerWords : Obligations.ControllerWords := by
  intro w a b q s h pa key ret illegal
  refine ⟨rett_returns, rett_waits, rett_illegal, ?modes, ?freezeModes, ?team, ?load, ?engine, ?nothing⟩
  case modes => exact fun hm => ⟨execCtxsave_illegal hm, execCtxload_illegal hm, haltRun_illegal hm, haltRun_illegal hm⟩
  case freezeModes => exact fun hs hd => ⟨(freezeRun_illegal hs hd : execFreezeFreeze w a q s = _),
    (freezeRun_illegal hs hd : execFreezeThaw w a q s = _), freezeRun_illegal hs hd⟩
  case team =>
    intro p slot t hm hh ht
    refine ⟨fun hrun => ⟨haltRun_team hm hh ht hrun, haltRun_team hm hh ht hrun⟩, (freezeRun_team hm hh ht : execFreezeFreeze w a q s = _),
      (freezeRun_team hm hh ht : execFreezeThaw w a q s = _), freezeRun_team hm hh ht, ?save, ?early⟩
    case save =>
      intro halign hstop hready
      exact (execCtxsave_team hm hh ht halign).trans ((if_neg (by simp [hstop])).trans (if_neg (by simp [hready])))
    case early =>
      intro halign hrun
      exact (execCtxsave_team hm hh ht halign).trans (if_pos (by simp [hrun]))
  case load =>
    intro p slot hm hh halign hredir
    have hload := execCtxload_core (w := w) (q := q) hm hh halign hredir
    refine ⟨fun hbad => hload.trans (if_pos hbad), fun hgood hfits => ?_, fun hgood hfull => ?_⟩
    · exact hload.trans ((if_neg (ne_true_of_eq_false hgood)).trans (if_pos hfits))
    · exact hload.trans ((if_neg (ne_true_of_eq_false hgood)).trans (if_neg (ne_true_of_eq_false hfull)))
  case engine =>
    exact fun m hm hh hne => ⟨(freezeRun_engine hm hh hne : execFreezeFreeze w a q s = _),
      (freezeRun_engine hm hh hne : execFreezeThaw w a q s = _), freezeRun_engine hm hh hne⟩
  case nothing => exact fun hm hh => ⟨(freezeRun_none hm hh : execFreezeFreeze w a q s = _), haltRun_none hm hh⟩

end Sys2Proof.Machine
end

section
/-! The ladder (R413, R414): what the end of a team's grace, kill and watchdog limit does, and when the watchdog is off. -/

namespace Sys2Proof.Machine

variable {team : Nat} {s : State} {t : Team}

/-- R413: past its grace a team that has met no request is halted for good, and saved where it can be. -/
theorem execGraceExpire_halts {p : State} {at_ : Nat} (hp : pollSoft s = p) (ht : p.team? team = some t) (hreq : t.softReq = some at_)
    (hlive : t.ended = false) (hhard : t.hardAt = none) (hfrozen : teamFrozen p team = false) (hhalted : teamHalted p team = false)
    (hpast : at_ + 1000 * max 1 (p.ctx t.ctx).sb.grace.toNat ≤ p.now) :
    execGraceExpire team s =
      .next (ladderSave ((ladderHalt p team).mapTeams (fun u => u.uid = team) fun u => { u with hardAt := some p.now }) team) := by
  have hdue : ¬(t.ended || t.hardAt.isSome || teamFrozen p team || teamHalted p team
      || p.now < at_ + 1000 * max 1 (p.ctx t.ctx).sb.grace.toNat) = true := by
    simp [hlive, hhard, hfrozen, hhalted, hpast]
  simp only [execGraceExpire, hp, ht, hreq, if_neg hdue]

/-- R413: past its kill limit a team that cannot be saved costs its context a reset. -/
theorem execKillExpire_resets {at_ : Nat} (ht : s.team? team = some t) (hhard : t.hardAt = some at_)
    (hpast : at_ + 1000000 * max 1 (s.ctx t.ctx).sb.kill.toNat ≤ s.now) (hspared : sparedTeam s t = false)
    (hsaved : ((ladderSave s team).team? team).isNone = false) :
    let r := resetContext (ladderSave s team) t.ctx
    execKillExpire team s = .next (r.escalate (t.ppos / 128) { code := 0x45, pasid := (r.ctx t.ctx).pasid, addr := 1 }) := by
  have hdue : ¬(s.now < at_ + 1000000 * max 1 (s.ctx t.ctx).sb.kill.toNat || sparedTeam s t) = true := by
    simp [hspared, hpast]
  simp only [execKillExpire, ht, hhard, if_neg hdue, hsaved, Bool.false_eq_true, if_false]

/-- R414: past its watchdog limit a team's grid is reset. -/
theorem execWatchdogExpire_resets (ht : s.team? team = some t) (hlive : t.ended = false) (hon : (s.ctx t.ctx).sb.wdog ≠ 0)
    (hpast : t.lastIssue + 1000000 * (s.ctx t.ctx).sb.wdog.toNat ≤ s.now) :
    let r := resetGridOf s t
    execWatchdogExpire team s = .next (r.escalate (t.ppos / 128) { code := 0x45, pasid := (r.ctx t.ctx).pasid, addr := 0 }) := by
  have hdue : ¬((s.ctx t.ctx).sb.wdog.toNat = 0 || t.ended || s.now < t.lastIssue + 1000000 * (s.ctx t.ctx).sb.wdog.toNat) = true := by
    simpa [hlive, hpast, ← BitVec.toNat_inj] using hon
  simp only [execWatchdogExpire, ht, if_neg hdue]

/-- R414: a limit of 0 is no limit. -/
theorem execWatchdogExpire_off (ht : s.team? team = some t) (hoff : (s.ctx t.ctx).sb.wdog = 0) : execWatchdogExpire team s = .next s := by
  simp [execWatchdogExpire, ht, hoff]

/-- Settles O39: each limit by its lemma. -/
theorem ladder : Obligations.Ladder := by
  intro team s t
  refine ⟨?grace, ?kill, execWatchdogExpire_resets, execWatchdogExpire_off⟩
  case grace => exact fun at_ => execGraceExpire_halts rfl
  case kill => exact fun at_ => execKillExpire_resets

end Sys2Proof.Machine
end

section
/-! The Flowstone words and the events of their unit (R304–R308, R317). -/

namespace Sys2Proof.Machine

/-! ## The words -/

section Words

variable {w : Bool} {fn : Nat} {a b : SReg} {s : State}

/-- R304, R305: what holds of a SPLAT word that is legal and whose barrier and objects pass their checks; `u` is where the objects
are read. -/
structure SplatPasses (fn : Nat) (a : SReg) (bar : Nat) (s u : State) : Prop where
  here : illegalHere s = false
  run : a.toNat + splatRun fn ≤ 64
  even : fn < 2 ∨ a.toNat % 2 = 0
  bar : barOffsetFault s bar = none
  objs : objsFault u u.g.ctx (splatObjs fn (s.g.rdRun s.tick a (splatRun fn))) = none
  sound : splatBad fn (s.g.rdRun s.tick a (splatRun fn)) = false

theorem SplatPasses.legal {bar : Nat} {u : State} (h : SplatPasses fn a bar s u) :
    ¬(illegalHere s || 64 < a.toNat + splatRun fn || (2 ≤ fn && a.toNat % 2 ≠ 0)) = true := by
  have hrun : ¬64 < a.toNat + splatRun fn := Nat.not_lt.mpr h.run
  have heven : ¬(2 ≤ fn ∧ a.toNat % 2 ≠ 0) := by
    have := h.even
    omega
  simpa [h.here, hrun] using heven

/-- R306: a word that passes its checks waits while the sequence is full, and else enters it, releasing at prt scope. -/
theorem splatIssue_passes (h : SplatPasses fn a (s.g.rdS s.tick b).toNat s s.objAcquire) :
    let u := s.objAcquire
    splatIssue w fn a b s = if 8 ≤ u.t.splat.length then .next (u.parkC .engine)
      else .next (((u.scopeWriteBack .prt).mapT fun t => { t with splat := t.splat ++ [{
        fn := BitVec.ofNat 2 fn, gid := u.g.gid, cpc := u.g.pc, run := s.g.rdRun s.tick a (splatRun fn),
        bar := (s.g.rdS s.tick b).toNat, seq := u.tick }] }).endC w 4) := by
  simp only [splatIssue, if_neg h.legal, h.bar, h.objs, h.sound, Bool.false_eq_true, if_false]

end Words

/-! ## The unit -/

section Unit

variable {team fn : Nat} {s : State} {t : Team} {c : SplatCmd}

/-- R306: the start of the oldest command. -/
theorem execSplatCommandStart_starts (hc : headSplat s team = some (t, c)) (hnew : c.started = false) :
    execSplatCommandStart team s = .next (splatStart { s with writer := some (.splat team) } t c) := by
  simp only [execSplatCommandStart, hc, hnew, Bool.false_eq_true, if_false]

/-- R308: the oldest command runs a granule of its kind. -/
theorem granuleEvent_runs (hc : headSplat s team = some (t, c)) (hold : c.started = true) (hfn : c.fn.toNat = fn) :
    granuleEvent fn team s = .next (splatGranule { s with writer := some (.splat team) } t c) := by
  simp only [granuleEvent, hc, hold, hfn, decide_true, Bool.and_true, if_true]

/-- R317: a granule that faults. -/
theorem execSplatGranuleFault_faults {s1 : State} {c1 : SplatCmd} {code : Nat} {addr : DWord} (hc : headSplat s team = some (t, c))
    (hold : c.started = true) (hg : granuleOf { s with writer := some (.splat team) } t c = .fault s1 c1 code addr) :
    execSplatGranuleFault team s = .next (splatFault s1 t c1 code addr) := by
  simp only [execSplatGranuleFault, hc, hold, hg, Bool.not_true, Bool.false_eq_true, if_false]

end Unit

/-- Settles O34: a word that passes its checks, with room in the sequence and without; the unit's events, each by its lemma. -/
theorem splatWords : Obligations.SplatWords := by
  intro w a b team s bar enters
  have hword (fn : Nat) : enters fn (splatRun fn) (splatIssue w fn a b s) := by
    intro hhere hrun heven hbar u hobjs hsound
    have hissue := splatIssue_passes (w := w) ⟨hhere, hrun, heven, hbar, hobjs, hsound⟩
    exact ⟨fun hroom => hissue.trans (if_neg (Nat.not_le.mpr hroom)), fun hfull => hissue.trans (if_pos hfull)⟩
  refine ⟨hword 0, hword 1, hword 2, hword 3, fun t c hc => ?_⟩
  have hrun (fn : Nat) (hold : c.started = true) (hfn : c.fn.toNat = fn) := granuleEvent_runs hc hold hfn
  refine ⟨execSplatCommandStart_starts hc, ?sproj, ?sbin, ?sblend, ?sgrad, fun s1 c1 code addr => execSplatGranuleFault_faults hc⟩
  case sproj => exact fun hold hfn => hrun 0 hold (congrArg BitVec.toNat hfn)
  case sbin => exact fun hold hfn => hrun 1 hold (congrArg BitVec.toNat hfn)
  case sblend => exact fun hold hfn => hrun 2 hold (congrArg BitVec.toNat hfn)
  case sgrad => exact fun hold hfn => hrun 3 hold (congrArg BitVec.toNat hfn)

end Sys2Proof.Machine
end

section
/-! The Sinter unit (R322–R332, R335–R337) and its lane words (R331, R333, R334, R339). -/

namespace Sys2Proof.Machine

/-! ## APXDEF and APXKILL -/

section Regions

variable {w : Bool} {a : SReg} {q : QReg} {s : State} (hhere : illegalHere s = false)
include hhere

/-- R335, R336: APXDEF with a sound descriptor, whose image is read or is zero. -/
theorem execApxdef_binds {ws : List Word} (hv : (s.g.rdS s.tick a).toNat < 2 ^ 24)
    (hobj : objCheck s.objAcquire s.objAcquire.g.ctx ((s.g.rdS s.tick a).toNat % 2 ^ 16) 9 true false = .ok ws)
    (hdesc : descOk ws = true) {s1 : State} {bs : List Byte}
    (himg : (if descImage ws = 0 then (s.objAcquire, .ok (List.replicate (4 * weightCount (Slot.dims { desc := ws })) 0))
      else readImage s.objAcquire (descImage ws) (weightCount (Slot.dims { desc := ws }))) = (s1, .ok bs)) :
    let v := (s.g.rdS s.tick a).toNat
    let r : Byte := BitVec.ofNat 8 (v / 2 ^ 16)
    let p := apxBind s1 r (v % 2 ^ 16) ws (wordsOf bs)
    execApxdef w a q s = .next ((p.1.mapG fun g => { g.wrQ q p.2 with apxRegion := some r }).endC w 4) := by
  simp only [execApxdef, hhere, if_neg (Nat.not_le.mpr hv), hobj, hdesc, himg, Bool.not_true, Bool.false_eq_true, if_false]

/-- R337: APXKILL of a region that a slot serves frees the slot or invalidates it. -/
theorem execApxkill_bound {i : Nat} (hv : (s.g.rdS s.tick a).toNat < 2 ^ 9)
    (hslot : findSlot (s.cluster s.clusterId) s.g.ctx (BitVec.ofNat 8 (s.g.rdS s.tick a).toNat) = some i) :
    let v := (s.g.rdS s.tick a).toNat
    let c := s.cluster s.clusterId
    let u := s.setCluster (c.setSlot i (if v.testBit 8 then none else (c.slots.getD i none).map Slot.invalidate))
    execApxkill w a s = .next ((u.mapG fun g => { g with apxRegion := some (BitVec.ofNat 8 v) }).endC w 4) := by
  simp only [execApxkill, hhere, Bool.false_eq_true, if_false, if_neg (Nat.not_le.mpr hv), hslot]

end Regions

/-! ## Arrivals -/

/-- R328: the invocation that arrives is one of those that may arrive next. -/
theorem arrival_picked (n : Nat) (x : Arrival) (xs : List Arrival) :
    (if xs.isEmpty then x else (x :: xs).getD (n % (x :: xs).length) x) ∈ x :: xs := by
  split
  · exact List.mem_cons_self
  · have hlt : n % (x :: xs).length < (x :: xs).length := Nat.mod_lt _ (by simp)
    rw [List.getD_eq_getElem _ _ hlt]
    exact List.getElem_mem hlt

/-- R328: an invocation on its way goes to its slot, if its region has one. -/
theorem execInvocationArrive_arrives {cl : Nat} {s : State} (hsome : arrivals s (s.cluster cl) ≠ [])
    (hon : (s.cluster cl).sfrozen = false) :
    ∃ e ∈ arrivals s (s.cluster cl), ∀ c : Cluster, c = { s.cluster cl with inbox := (s.cluster cl).inbox.erase e } →
      (∀ i, findSlot c e.ctx e.region = some i →
        execInvocationArrive cl s = .next (s.setCluster (c.setSlot i ((c.slots.getD i none).map fun sl => sl.arrive e))))
      ∧ (findSlot c e.ctx e.region = none → execInvocationArrive cl s = .next (s.setCluster c)) := by
  obtain ⟨x, xs, hxs⟩ := List.exists_cons_of_ne_nil hsome
  obtain ⟨e, he⟩ : ∃ e, (if xs.isEmpty then x else (x :: xs).getD (Config.inboxPick s.tick % (x :: xs).length) x) = e := ⟨_, rfl⟩
  refine ⟨e, ?listed, fun c hc => ⟨fun i hi => ?slot, fun hi => ?noSlot⟩⟩
  case listed =>
    rw [hxs, ← he]
    exact arrival_picked _ x xs
  all_goals
    unfold execInvocationArrive
    dsimp -iota only
    rw [hxs]
    dsimp only
    rw [if_neg (ne_true_of_eq_false hon), he, ← hc, hi]
  case slot => rw [hc]

/-! ## The lane words -/

section Lanes

variable {h : LHdr} {s : State} {c : LCtx} {popped : List Nat} {regs : List (Nat × Nat)} {os : List Src} {dd : Option Dst}
  {d : Dst} {a : Src} {m i : BitVec 4} {j : BitVec 3} {r : Byte} (hhere : illegalHere s = false)
include hhere

/-- R16: on a compute core outside the handler a Sinter word that issues does its effect. -/
theorem apxRun_issues (H : LaneIssues h [] regs os dd s c popped) (k : LCtx → State → Res) :
    apxRun h regs os dd k s = k c (LaneAt os popped s) :=
  (if_neg (ne_true_of_eq_false hhere)).trans (laneRun_of_issues H k)

/-- R339: APXEXIT stores the true outputs and, with its end mark, sends the real invocations and closes all. -/
theorem execApxexit_exits (H : LaneIssues h [] (srcRun 1 a) [a] none s c popped) (last : Bool) :
    let s1 := LaneAt [a] popped s
    let ls := c.lanes.filter fun l => (s1.g.rdInv l).isOpen
    let out := s1.mapG fun g => (ls.map fun l => (l, c.val s1 0 a 0 l)).foldl (exitLane j.toNat) g
    let real := ls.filter fun l => !(out.g.rdInv l).served && !(out.g.rdInv l).discarded
    let cl := out.cluster out.clusterId
    let sent := out.setCluster { cl with inbox := cl.inbox ++ real.map fun l => (out.g.rdInv l).arrival out.g.ctx out.tick }
    let counted := sent.countEvent sent.g.ctx 0x11 (ls.filter fun l => !(out.g.rdInv l).served).length
    execApxexit h last a j s = .next (c.past (if last then counted.mapG fun g => ls.foldl closeLane g else out)) := by
  refine (apxRun_issues hhere H _).trans ?_
  cases last with
  | false => exact H.endL_eq _
  | true => exact H.endL_eq _

/-- R339: APXENTER where no slot serves the region: each lane opens a real invocation. -/
theorem execApxenter_unserved (H : LaneIssues h [] [] [] none s c popped) :
    let s0 := LaneAt [] popped s
    (∀ sl, slotFor (s0.cluster s0.clusterId) s0.g.ctx r = some sl → sl.state ≠ .serve) →
      let t := s0.mapG fun g => (c.lanes.mapIdx fun q l => (l, q)).foldl (enterLane r none) g
      let u := t.countEvent t.g.ctx 0x10 (c.lanes.filter fun l => (t.g.rdInv l).served).length
      execApxenter h m r s = .next (c.past (c.putM true m.toNat (c.lanes.map fun l => (l, !(u.g.rdInv l).served)) u)) := by
  intro s0 hslot t u
  have hnone : ((slotFor (s0.cluster s0.clusterId) s0.g.ctx r).bind fun sl => if sl.state = .serve then some sl else none) = none := by
    rw [Option.bind_eq_none_iff]
    exact fun sl hsl => if_neg (hslot sl hsl)
  refine (apxRun_issues hhere H _).trans ?_
  dsimp only
  rw [hnone]
  exact H.endL_eq _

/-- R339: APXENTER of a serving slot, which counts the lanes: each samples or is served. -/
theorem execApxenter_served (H : LaneIssues h [] [] [] none s c popped) {sl : Slot} {k : Nat} :
    let s0 := LaneAt [] popped s
    slotFor (s0.cluster s0.clusterId) s0.g.ctx r = some sl → sl.state = .serve →
    findSlot (s0.cluster s0.clusterId) s0.g.ctx r = some k →
      let s2 := s0.setCluster ((s0.cluster s0.clusterId).setSlot k (some { sl with ctr := sl.ctr + BitVec.ofNat 32 c.lanes.length }))
      let t := s2.mapG fun g => (c.lanes.mapIdx fun q l => (l, q)).foldl (enterLane r (some sl)) g
      let u := t.countEvent t.g.ctx 0x10 (c.lanes.filter fun l => (t.g.rdInv l).served).length
      execApxenter h m r s = .next (c.past (c.putM true m.toNat (c.lanes.map fun l => (l, !(u.g.rdInv l).served)) u)) := by
  intro s0 hslot hserve hk s2 t u
  have hsome : ((slotFor (s0.cluster s0.clusterId) s0.g.ctx r).bind fun sl => if sl.state = .serve then some sl else none) = some sl := by
    rw [hslot, Option.bind_some, if_pos hserve]
  refine (apxRun_issues hhere H _).trans ?_
  dsimp only
  rw [hsome, hk]
  exact H.endL_eq _

end Lanes

/-- Settles O35: the region words and an arrival by their lemmas, a guarded write by definition; each lane word by what it does once
it issues. -/
theorem sinter : Obligations.Sinter := by
  refine ⟨?unit, ?lanes⟩
  case unit =>
    intro w a q cl key s v r named
    refine ⟨?apxdef, fun i hhere => execApxkill_bound hhere, fun hhere => execApxkill_unbound hhere, ?arrive, rfl⟩
    case apxdef =>
      intro so ws hhere hv hobj hdesc n
      exact ⟨fun himg => execApxdef_binds hhere hv hobj hdesc (if_pos himg),
        fun s1 bs himg hread => execApxdef_binds hhere hv hobj hdesc ((if_neg himg).trans hread)⟩
    case arrive =>
      intro c hsome hon
      obtain ⟨e, he, harrive⟩ := execInvocationArrive_arrives hsome hon
      exact ⟨e, he, harrive _ rfl⟩
  case lanes =>
    intro h d a m i j r s c popped s0 s1 hhere
    refine ⟨fun H => (apxRun_issues hhere H _).trans (H.endL_eq _), fun H => ?out, fun H => ?exits, execApxenter_unserved hhere,
      fun sl k H => execApxenter_served hhere H⟩
    case out => exact ⟨(apxRun_issues hhere H _).trans (H.endL_eq _), (apxRun_issues hhere H _).trans (H.endL_eq _)⟩
    case exits => exact ⟨execApxexit_exits hhere H false, execApxexit_exits hhere H true⟩

end Sys2Proof.Machine
end

section
/-! Firmware (R475–R477), controllers that stop (R359, R449), power (R478, R479), REPORT (R452) and attestation (R476). -/

namespace Sys2Proof.Machine

/-! ## Commands of the physical function -/

/-- R433: what a command of the physical function leaves: it completes, or goes on. -/
def CmdEnd.outcome : CmdEnd → Res
  | .done s st n => .next (finishCmd s 16 st (BitVec.ofNat 64 n))
  | .more s => .next s

/-- R433: in its turn a command of the physical function comes to what it does. -/
theorem pfCmd_turn {s : State} {code : Nat} {f : State → CmdEnd} (ht : cmdTurn s 16 code = true) : pfCmd 16 code f s = (f s).outcome := by
  have hturn : ¬(16 ≠ 16 || !cmdTurn s 16 code) = true := by simp [ht]
  refine (if_neg hturn).trans ?_
  cases f s <;> rfl

/-- In its turn a command leaves what the end it comes to leaves. -/
theorem pfCmd_ends {s : State} {code : Nat} {f : State → CmdEnd} {e : CmdEnd} {x : Res} (ht : cmdTurn s 16 code = true) (hf : f s = e)
    (hx : e.outcome = x) : pfCmd 16 code f s = x := (pfCmd_turn ht).trans ((congrArg CmdEnd.outcome hf).trans hx)

/-! ## Images and updates -/

section Updates

variable {s : State} {sl : Nat}

/-- R475: FWSTAGE into the slot that does not run. -/
theorem execFwstage_stages (ht : cmdTurn s 16 0x30 = true) (htarget : cmdOp s 16 0 < 17) (hslot : cmdOp s 16 1 < 2)
    (hidle : (s.fw (cmdOp s 16 0)).active ≠ cmdOp s 16 1) (hup : (s.fw (cmdOp s 16 0)).update ≠ 1) :
    let img := s.rdMemN (hostKey (cmdOp s 16 2)) (cmdOp s 16 3)
    let f := s.fw (cmdOp s 16 0)
    execFwstage 16 s = .next (finishCmd (s.setFw (cmdOp s 16 0) (f.put (cmdOp s 16 1) img (Config.imageValid img))) 16
      (if Config.imageValid img then stOk else stBadSig) 0) := by
  have hlegal : ¬(17 ≤ cmdOp s 16 0 || 2 ≤ cmdOp s 16 1 || (s.fw (cmdOp s 16 0)).active = cmdOp s 16 1) = true := by
    simp [hidle, htarget, hslot]
  exact pfCmd_ends ht ((if_neg hlegal).trans (if_neg hup)) rfl

section Fwupdate

variable (ht : cmdTurn s 16 0x31 = true)
include ht

/-- R477: FWUPDATE starts with the first slice of its mask. -/
theorem execFwupdate_first (hstage : (s.mbox 16).stage = 0) (hmask : cmdOp s 16 0 < 2 ^ 16) :
    execFwupdate 16 s = (nextUpdate s 16 (cmdOp s 16 0) 0).outcome :=
  pfCmd_ends ht (by
    dsimp only
    rw [hstage]
    exact if_neg (Nat.not_le.mpr hmask)) rfl

variable {i : Nat} (hstage : (s.mbox 16).stage = i + 1)
include hstage

/-- R477: the update waits for the heartbeat of the slice under way. -/
theorem execFwupdate_waits (hup : (s.fw i).update = 1) : execFwupdate 16 s = .next s :=
  pfCmd_ends (e := .more s) ht (by simp only [hstage, hup]) rfl

/-- R477: a rollback ends the command. -/
theorem execFwupdate_rolledBack (hup : (s.fw i).update = 3) :
    execFwupdate 16 s = .next (finishCmd (s.setFw i { s.fw i with update := 0 }) 16 stRollback 0) :=
  pfCmd_ends (e := .done (s.setFw i { s.fw i with update := 0 }) stRollback 0) ht (by simp only [hstage, hup]) rfl

/-- R477: after a heartbeat the next slice of the mask follows. -/
theorem execFwupdate_next (hrun : (s.fw i).update ≠ 1) (hback : (s.fw i).update ≠ 3) :
    execFwupdate 16 s = (nextUpdate (s.setFw i { s.fw i with update := 0 }) 16 (cmdOp s 16 0) (i + 1)).outcome :=
  pfCmd_ends ht (by
    dsimp only
    rw [hstage]
    dsimp only
    split
    · exact absurd ‹_› hrun
    · exact absurd ‹_› hback
    · rfl) rfl

end Fwupdate

/-- R477: a mask of no slice has no update. -/
theorem nextUpdate_none : nextUpdate s 16 0 0 = .done s stOk 0 := by
  have hnone : (List.range 16).find? (fun i => 0 ≤ i && (0 : Nat).testBit i) = none := by simp
  unfold nextUpdate
  rw [hnone]

/-- R477: a heartbeat within the limit makes the new slot the active one. -/
theorem execFwHeartbeat_due (hup : (s.fw sl).update = 1) (hin : s.now ≤ (s.fw sl).since + heartbeatLimit) :
    execFwHeartbeat sl s = .next (s.setFw sl { s.fw sl with active := 1 - (s.fw sl).active, update := 2 }) :=
  if_pos (by simp [hup, hin])

theorem execFwHeartbeat_none (h : (s.fw sl).update ≠ 1 ∨ (s.fw sl).since + heartbeatLimit < s.now) :
    execFwHeartbeat sl s = .next s := by
  refine if_neg ?_
  rcases h with h | h
  · simp [h]
  · simp [Nat.not_le.mpr h]

/-- R477: a slice that is not being updated has no rollback. -/
theorem rollback_none (h : (s.fw sl).update ≠ 1) : rollback s sl = s := if_pos h

theorem rollback_restarts (h : (s.fw sl).update = 1) :
    rollback s sl = restartSlice ((s.setFw sl { (s.fw sl).extend ((s.fw sl).img (s.fw sl).active) with update := 3 }).mailEvent
      16 0x03 0 (BitVec.ofNat 64 sl) 0) sl := if_neg (not_not.mpr h)

theorem execFwHeartbeatTimeout_early (h : s.now < (s.fw sl).since + heartbeatLimit) : execFwHeartbeatTimeout sl s = .next s :=
  congrArg _ (if_pos h)

theorem execFwHeartbeatTimeout_none (h : (s.fw sl).update ≠ 1) : execFwHeartbeatTimeout sl s = .next s :=
  congrArg _ ((if_congr Iff.rfl rfl (rollback_none h)).trans (ite_self s))

/-- R477: a new image without its heartbeat in time is rolled back. -/
theorem execFwHeartbeatTimeout_late (h : (s.fw sl).since + heartbeatLimit ≤ s.now) :
    execFwHeartbeatTimeout sl s = .next (rollback s sl) := congrArg _ (if_neg (Nat.not_lt.mpr h))

end Updates

/-! ## Controllers and power -/

section Power

variable {s : State}

/-- R449: SRESET of a slice. -/
theorem execSreset_resets (ht : cmdTurn s 16 0x19 = true) (hsl : cmdOp s 16 0 < 16) :
    execSreset 16 s = .next (finishCmd (resetSliceFw s (cmdOp s 16 0) 0x19) 16 0 0) :=
  pfCmd_ends ht (if_neg (Nat.not_le.mpr hsl)) rfl

/-- R478: a controller with a valid image starts from it. -/
theorem Fw.start_of_slot {f : Fw} {i : Nat} (h : f.bootSlot = some i) : f.start = { f.extend (f.img i) with active := i } := by
  unfold Fw.start
  rw [h]

theorem Fw.start_of_none {f : Fw} (h : f.bootSlot = none) : f.start = f := by
  unfold Fw.start
  rw [h]

/-- R359, R478: the manager restarts from its image, or stays in bring-up without one. -/
theorem execDeviceManagerFault_restarts :
    execDeviceManagerFault s = .next { (restartCore s .device 16 fun _ => true).setFw 16 (s.fw 16).start with
      mgrDown := (s.fw 16).bootSlot.isNone, devState := if (s.fw 16).bootSlot.isNone || s.devState = 1 then 1 else 2 } := rfl

/-- R452: REPORT to an aligned host address. -/
theorem execReport_writes (ht : cmdTurn s 16 0x1A = true) (halign : cmdOp s 16 0 % 4096 = 0) :
    let t := { s with reports := s.reports + 1 }
    execReport 16 s =
      .next (finishCmd (t.memWrite (hostKey (cmdOp s 16 0)) (piecesBytes 4096 (reportPieces t))) 16 0 0) :=
  pfCmd_ends ht (if_neg (not_not.mpr halign)) rfl

/-- R478: bring-up starts each controller whose slot is valid. -/
theorem execPowerOn_boots (hoff : s.powered = false) :
    let p : State := { powerDown s with powered := true }
    execPowerOn s = if (p.fw 16).bootSlot.isNone then .next { p with devState := 1, mgrDown := true }
      else .next { (List.range 17).foldl (fun (s : State) n => s.setFw n (s.fw n).boot) p with devState := 1 } :=
  if_neg (by simp [hoff])

end Power

/-- Settles O59: each command by what it comes to, each event and request by its lemma or by definition. -/
theorem firmwareAndPower : Obligations.FirmwareAndPower := by
  intro sl code mhz idx s o f m done
  refine ⟨execFwstage_stages, ?fwupdate, fun hup hin => execFwHeartbeat_due hup hin, fun hpast => execFwHeartbeat_none (.inr hpast),
    execFwHeartbeatTimeout_early, ?late, fun hup => ⟨execFwHeartbeat_none (.inl hup), execFwHeartbeatTimeout_none hup⟩, rfl,
    execSreset_resets, rfl, ?manager, rfl, ?powerOn, fun hon => if_pos hon, rfl, execReport_writes,
    ⟨rfl, rfl, rfl, rfl, rfl, rfl, rfl, rfl⟩, rfl, ?measure⟩
  case fwupdate =>
    intro ends ht
    have hends {e : CmdEnd} (h : execFwupdate 16 s = e.outcome) : ends e :=
      ⟨fun t st n he => h.trans (congrArg CmdEnd.outcome he), fun t he => h.trans (congrArg CmdEnd.outcome he)⟩
    refine ⟨fun hstage hmask => hends (execFwupdate_first ht hstage hmask), fun hstage hmask => ?_,
      fun i => execFwupdate_waits ht, fun i => execFwupdate_rolledBack ht, fun i hstage hrun hback => hends (execFwupdate_next ht hstage hrun hback)⟩
    have hzero : cmdOp s 16 0 = 0 := hmask
    have hnext := execFwupdate_first ht hstage (by omega)
    rw [hzero, nextUpdate_none] at hnext
    exact hnext
  case late => exact fun hup hpast => (execFwHeartbeatTimeout_late hpast).trans (congrArg _ (rollback_restarts hup))
  case manager =>
    refine ⟨fun i hi => ?_, fun hnone => ?_⟩
    · refine execDeviceManagerFault_restarts.trans ?_
      rw [Fw.start_of_slot hi, hi]
      simp
    · refine execDeviceManagerFault_restarts.trans ?_
      rw [Fw.start_of_none hnone, hnone]
      simp
  case powerOn =>
    intro hoff p
    refine ⟨fun hslot => (execPowerOn_boots hoff).trans (if_neg ?_), fun hnone => (execPowerOn_boots hoff).trans (if_pos ?_)⟩
    · rw [Option.isNone_eq_false_iff.mpr hslot]
      exact Bool.false_ne_true
    · rw [hnone, Option.isNone_none]
  case measure =>
    intro hlow hhigh
    exact (if_neg (by omega)).trans (if_pos (by simp [hlow, hhigh]))

end Sys2Proof.Machine
end

section
/-! What the scheduler's events do: the dispatcher's choice (R409), starvation (R410), vsync (R406), the age limit of issue (R411), the
retry of a full log (R397) and the refill of a first-touch pool (R392). -/

namespace Sys2Proof.Machine

variable {vf sl qi ctx frame : Nat} {s : State}

/-! ## Dispatch and starvation -/

/-- R409: the dispatcher of a present partition that is not frozen chooses. -/
theorem execDispatchTeam_dispatches (hp : (s.vf vf).present = true) (hf : (s.vf vf).frozen = false) :
    execDispatchTeam vf s = .next (dispatch vf (pollSoft (settleLeases s))).1 := if_neg (by simp [hp, hf])

/-- R409, R379: the dispatcher of a frozen partition starts nothing. -/
theorem execDispatchTeam_frozen (hf : (s.vf vf).frozen = true) : execDispatchTeam vf s = .next (pollSoft (settleLeases s)) :=
  if_pos (by simp [hf])

/-- R410: a queue that has waited for its starvation limit takes a synthetic deadline. -/
theorem execStarveExpire_due {r : State} {q : QDesc} {t : Nat} {x : Nat × Nat} (hr : refreshWaits s (s.slice sl).vf = r) (hq : queueOf r sl qi = q)
    (hw : q.waitAt = some (t, x)) (hon : q.starve ≠ 0) (hnew : q.synth = 0) (hpast : t + 1000 * q.starve.toNat ≤ r.now) :
    execStarveExpire sl qi s = .next (setQueueOf r sl qi { q with synth := BitVec.ofNat 64 (t + 1000 * q.starve.toNat) }) := by
  have hdue : ¬(q.starve = 0 || q.synth ≠ 0 || r.now < t + 1000 * q.starve.toNat) = true := by
    simpa [hnew, hpast] using hon
  simp only [execStarveExpire, hr, hq, hw, if_neg hdue]

/-! ## Vsync -/

/-- R406: what a vsync that was due at an instant does to a queue of a slice. -/
def syncQueue (due sl : Nat) (s : State) (e : Nat × QDesc) : State :=
  let q := queueOf s sl e.1
  let late := s.cards.any fun k => k.slice = sl && k.queue = e.1 && k.kind = 7 && !k.bad && k.phase ≠ .done
  let dl := if q.period = 0 then q.dl else BitVec.ofNat 64 (due + q.period.toNat)
  if q.vsync then setQueueOf s sl e.1 { q with misses := if late then q.misses + 1 else q.misses, dl := dl } else s

/-- R406: the instant at which the next vsync of a partition is due. -/
def vsyncDue (s : State) (vf : Nat) : Nat := if (s.vf vf).vperiod = 0 then s.now else (s.vf vf).vnext

theorem execVsync_absent (hp : (s.vf vf).present = false) : execVsync vf s = .next s := if_pos (by simp [hp])

theorem execVsync_early (h : s.now < vsyncDue s vf) : execVsync vf s = .next s :=
  if_pos (by
    rw [Bool.or_eq_true, decide_eq_true_iff]
    exact .inr h)

/-- R406: a vsync that is due reaches every queue of the partition that waits for it. -/
theorem execVsync_due (hp : (s.vf vf).present = true) (h : vsyncDue s vf ≤ s.now) :
    let due := vsyncDue s vf
    let s1 := if (s.vf vf).vperiod = 0 then s else s.setVf { s.vf vf with vnext := due + (s.vf vf).vperiod }
    execVsync vf s =
      .next ((s1.partSlices vf).foldl (fun (s : State) sl => (s.slice sl).queues.foldl (syncQueue due sl) s) s1) := by
  have hdue : ¬(!(s.vf vf).present || s.now < vsyncDue s vf) = true := by simp [hp, h]
  refine (if_neg hdue).trans ?_
  simp only [Bool.not_eq_true', ← Bool.not_eq_true, ite_not]
  rfl

/-! ## Issue, logs and pools -/

/-- R411: the oldest stream that starves issues next. -/
theorem execIssueAgeLimit_starved {x : Stream} {xs : List Stream}
    (h : orderBy (streamAge s) ((s.allGroups.flatMap (readyStreams s)).filter (starved s)) = x :: xs) :
    execIssueAgeLimit s = .next { s with agenda := issueActions x ++ s.agenda } := by
  simp only [execIssueAgeLimit, h]

/-- R397: with room in the log the writes that are owed are made, and the writers that it held try again. -/
theorem execLogRetry_room (h : logRoom s vf = true) :
    let p := payOwed (s.setVf { s.vf vf with logFull := false }) vf
    execLogRetry vf s = .next { p with
      agenda := (p.logq.filter fun e => e.1 = vf).flatMap (fun e => ((e.2.stream? p).map issueActions).getD []) ++ p.agenda } :=
  if_neg (by simp [h])

theorem execLogRetry_full (h : logRoom s vf = false) : execLogRetry vf s = .next s := if_pos (by simp [h])

/-- R392: a pool with room, whose header bears no error, takes a zeroed frame. -/
theorem execPoolRefill_supplies {s1 s2 s3 : State} {k slot kt : Nat} (hpool : (s.ctx ctx).xb.pool ≠ 0)
    (hin : 4096 * (frame + 1) ≤ s.partBytes (ctx / 64)) (hk : poolKey s ctx ((s.ctx ctx).xb.pool.signExtend 64) .rd = (s1, some k))
    (hclean : s1.poisoned k 64 = false) {tail p : Nat} (htail : s1.rdMemNat (k + 8) 8 = tail) (hsize : s1.rdMemNat (k + 16) 1 % 32 = p)
    (hroom : tail - s1.rdMemNat k 8 < 2 ^ p)
    (hslot : poolKey s1 ctx ((s.ctx ctx).xb.pool.signExtend 64 + BitVec.ofNat 64 (64 + 8 * (tail % 2 ^ p))) .wr = (s2, some slot))
    (hkt : poolKey s2 ctx ((s.ctx ctx).xb.pool.signExtend 64 + 8) .wr = (s3, some kt)) :
    let f := memKey (ctx / 64) (4096 * frame)
    execPoolRefill ctx frame s =
      .next (((zeroRange s3 f (f + 4096)).memWriteNat slot 8 (4096 * frame)).memWriteNat kt 8 (tail + 1)) := by
  have hlegal : ¬((s.ctx ctx).xb.pool = 0 || s.partBytes (ctx / 64) < 4096 * (frame + 1)) = true := by
    simpa [hin] using hpool
  have hfree : ¬(s1.poisoned k 64 || 2 ^ p ≤ tail - s1.rdMemNat k 8) = true := by simp [hclean, hroom]
  simp only [execPoolRefill, if_neg hlegal, hk, htail, hsize, if_neg hfree, hslot, hkt]

/-- Settles O54: each event, in each case, has its lemma. -/
theorem scheduling : Obligations.Scheduling := by
  intro vf sl qi ctx frame s
  refine ⟨execDispatchTeam_dispatches, execDispatchTeam_frozen, ?starve, execVsync_absent, ⟨execVsync_due, execVsync_early⟩,
    fun x xs => execIssueAgeLimit_starved, execLogRetry_room, execLogRetry_full, ?pool⟩
  case starve => exact fun t x => execStarveExpire_due rfl rfl
  case pool =>
    exact fun s1 s2 s3 k slot kt hpool hin hk hclean hroom => execPoolRefill_supplies hpool hin hk hclean rfl rfl hroom

end Sys2Proof.Machine
end
